-- ==== Sys2Proof/Word.lean ====
section
/-! DEFINITION. Widths, register-number types and the operand forms of the SZ-4's instruction formats
(R7, R13, R24, R38, R63-R68, R97). -/

namespace Sys2Proof

/-- A byte (R7). -/
abbrev Byte := BitVec 8
/-- An instruction word (R61). -/
abbrev Word := BitVec 32
/-- A scalar register's width (R80). -/
abbrev DWord := BitVec 64
/-- One bank row, a vector register's or a crossbar word's contents (R80, R89). -/
abbrev Row := BitVec 1024
/-- A taint set: bit j names load tag j (R94). -/
abbrev Taint := BitVec 16
/-- The number of a scalar s0-s63. -/
abbrev SReg := BitVec 6
/-- The number of a predicate; p48-p63 do not exist (R69). -/
abbrev PReg := BitVec 6
/-- The number of a vector register w0-w511. -/
abbrev WReg := BitVec 9
/-- A package core index (R14). -/
abbrev Core := BitVec 12

/-- The four engines of a block (R16, R24). -/
inductive Engine where
  | F | V | M | P
  deriving DecidableEq, Repr

/-- The agents a token names (R29); coded S 0, F 1, V 2, M 3, P 4 (R302). -/
inductive Agent where
  | S | F | V | M | P
  deriving DecidableEq, Repr

/-- The code of an agent (R118, R302). -/
def Agent.code : Agent → Nat
  | .S => 0 | .F => 1 | .V => 2 | .M => 3 | .P => 4

/-- An engine as an agent. -/
def Engine.agent : Engine → Agent
  | .F => .F | .V => .V | .M => .M | .P => .P

/-- The on-chip store levels (R31, R63 field LV). -/
inductive Level where
  | sp | cl | ds
  deriving DecidableEq, Repr

/-- The level code of LV and of the ADDRESS_RANGE detail (R63, R118). -/
def Level.code : Level → Nat
  | .sp => 0 | .cl => 1 | .ds => 2

/-- The seven scopes (R13); the derived order of the codes is the order of inclusion (R15). -/
inductive Scope where
  | lane | core | quad | clus | die | pkg | pod
  deriving DecidableEq, Repr

/-- The scope codes of R13. -/
def Scope.code : Scope → Nat
  | .lane => 0 | .core => 1 | .quad => 2 | .clus => 3 | .die => 4 | .pkg => 5 | .pod => 6

/-- The control registers of R97. -/
inductive CReg where
  | fpctl | fpstat | srlfsr | blockId | gangDim | coreId | worldId | slipDepth | bankSide | trapVec
  | svcRing | svcCtr | taintFloor | taintPend | loadTags | ctlTaint | deadMode | trapPc | trapCause | trapInfo
  deriving DecidableEq, Repr

/-- The register classes of format K (R64). -/
inductive KillClass where
  | sLow | sHigh | pLow | pHigh | h | d | q
  deriving DecidableEq, Repr

/-- The class codes of format K (R64). -/
def KillClass.code : KillClass → Nat
  | .sLow => 0 | .sHigh => 1 | .pLow => 2 | .pHigh => 3 | .h => 4 | .d => 5 | .q => 6

/-- The element types of field T (R72, R127). -/
inductive ElemT where
  | f32 | f16 | bf16 | i32 | i16 | i8
  deriving DecidableEq, Repr

/-- The codes of field T (R72). -/
def ElemT.code : ElemT → Nat
  | .f32 => 0 | .f16 => 1 | .bf16 => 2 | .i32 => 3 | .i16 => 4 | .i8 => 5

/-- The operations of `pool.red` (R200). -/
inductive RedOp where
  | add | min | max
  deriving DecidableEq, Repr

/-- The FLG codes of `pool.red` (R200). -/
def RedOp.code : RedOp → Nat
  | .add => 0 | .min => 1 | .max => 2

/-- The place of the word that `mwait` monitors (R302, R326). -/
inductive MwaitLoc where
  | level (lv : Level)
  | object (h : BitVec 4)
  deriving DecidableEq, Repr

/-- The header of an engine command (R66): the dead-mark switch DE, the predicate with its negation, the token
popped before the start and the token pushed on completion. -/
structure Hdr where
  de : Bool
  pn : Bool
  p : PReg
  wait : Option (BitVec 4)
  sig : Option (BitVec 4)
  deriving DecidableEq, Repr

/-- Word 1 of a vector arithmetic command, template VA (R68). -/
structure VaOp where
  deadB : Bool
  deadA : Bool
  t : ElemT
  wb : WReg
  wa : WReg
  wd : WReg
  deriving DecidableEq, Repr

/-- The operands of `fetch`, `put` and `put.add` in template T (R200). -/
structure TileOp where
  sx : SReg
  lv : Level
  si : SReg
  q : BitVec 3
  ds : BitVec 4
  ha : BitVec 4
  deriving DecidableEq, Repr

/-- The operands of the matrix products in template M (R68, R157). -/
structure MatOp where
  af : Bool
  kq : BitVec 5
  dsb : BitVec 4
  dsa : BitVec 4
  td : BitVec 4
  deriving DecidableEq, Repr

/-- Where a parked access stands (R282): the strand's instruction, an outstanding object load, a posted store,
an engine's command, a dispatcher's access, the timetable walker's, or a host request. -/
inductive Site where
  | strand
  | load (k : Nat)
  | posted (k : Nat)
  | engine (e : Engine)
  | dispatcher (k : Nat)
  | host (k : Nat)
  deriving DecidableEq, Repr

/-- A link named by LINK_DOWN (R336, R348): a scale-out port or a die-to-die link. -/
inductive Link where
  | scaleOut (port : BitVec 5)
  | dieToDie (die : BitVec 2)
  | galith (port : Bool)
  | cxl (port : Bool)
  deriving DecidableEq, Repr

/-- The causes of a single-fault detection (R348, table of single-fault coverage); an error of a DRAM line is one that ECC corrects or not. -/
inductive FaultKind where
  | sram | dram (line : Nat) (corrected : Bool) | link | residue (e : Engine) | checker | inField
  deriving DecidableEq, Repr

/-- A frame of a host request at a Galith port (R336, R350): the port, and whether the frame's tag is right. -/
structure HostFrame where
  port : Bool
  good : Bool
  deriving DecidableEq, Repr

/-- A peer frame's header fields other than the operation (R360), and its payload; `good` says that its FCS and its tag are right (R336,
R358), and `again` names the port and sequence number of the frame that it repeats, whose path is down (R361; log 14). -/
structure PeerFrame where
  good : Bool
  port : BitVec 5
  dpkg : Byte
  spkg : Byte
  stat : Byte
  seq : Word
  pclk : DWord
  handle : DWord
  offset : DWord
  payload : List Byte
  again : Option (BitVec 5 × Word)
  deriving DecidableEq, Repr

/-- The number of an event's service request: the function, its ring (host or program), as R355 has them. -/
structure SvcReq where
  fn : BitVec 6
  host : Bool
  deriving DecidableEq, Repr

/-- A frame that the time service sends or receives at a port (R304). -/
structure TimeFrame where
  sent : Bool
  bytes : List Byte
  deriving DecidableEq, Repr

/-- A frame that a port receives, without its FCS, which is good or not (R358). -/
structure PortFrame where
  good : Bool
  bytes : List Byte
  deriving DecidableEq, Repr

/-- The power of the package and of the module in W, averaged over 1 ms (R374, R375). -/
structure Watts where
  ofPackage : BitVec 32
  ofModule : BitVec 32
  deriving DecidableEq, Repr

/-- An access of a custom CSR by a system core (R369): from machine level or not, a write of a value or a read. -/
structure CsrAccess where
  machine : Bool
  value : Option (BitVec 64)
  deriving DecidableEq, Repr

end Sys2Proof
end

