-- ==== Sys2Proof/Syntax.lean ====
section
/-! DEFINITION. The one inductive of instructions and device events: one constructor for each row of
spec/opcode_table.json. The operand fields are those of the formats R63-R68 and of the instruction's own rule.
A row without an encoding is an event of the device; its arguments are what the outside world, Lolen or the
hardware chooses (log 15). -/

namespace Sys2Proof

/-- The instructions and events of the SZ-4. -/
inductive Instr where
  /-- R106: Adds two scalars modulo 2^64 into a scalar. -/
  | add (sd sa sb : SReg)
  /-- R106: Subtracts two scalars modulo 2^64. -/
  | sub (sd sa sb : SReg)
  /-- R106: Writes the low 64 bits of the product of two scalars. -/
  | mul (sd sa sb : SReg)
  /-- R106: Writes the high 64 bits of the signed 128-bit product. -/
  | mulhI64 (sd sa sb : SReg)
  /-- R106: Writes the high 64 bits of the unsigned 128-bit product. -/
  | mulhN64 (sd sa sb : SReg)
  /-- R107: Signed division toward zero, with defined results for zero and overflow divisors. -/
  | divI64 (sd sa sb : SReg)
  /-- R107: Unsigned division, with all ones as the result for a zero divisor. -/
  | divN64 (sd sa sb : SReg)
  /-- R107: Signed remainder, taking the dividend's sign. -/
  | remI64 (sd sa sb : SReg)
  /-- R107: Unsigned remainder; a zero divisor returns the dividend. -/
  | remN64 (sd sa sb : SReg)
  /-- R106: Bitwise AND of two scalars. -/
  | and (sd sa sb : SReg)
  /-- R106: Bitwise OR of two scalars. -/
  | or (sd sa sb : SReg)
  /-- R106: Bitwise XOR of two scalars. -/
  | xor (sd sa sb : SReg)
  /-- R106: Shifts left by the low six bits of the second scalar. -/
  | shl (sd sa sb : SReg)
  /-- R106: Shifts right logically by the low six bits of the second scalar. -/
  | shr (sd sa sb : SReg)
  /-- R106: Shifts right arithmetically by the low six bits of the second scalar. -/
  | sar (sd sa sb : SReg)
  /-- R106: Writes the signed minimum of two scalars. -/
  | minI64 (sd sa sb : SReg)
  /-- R106: Writes the unsigned minimum of two scalars. -/
  | minN64 (sd sa sb : SReg)
  /-- R106: Writes the signed maximum of two scalars. -/
  | maxI64 (sd sa sb : SReg)
  /-- R106: Writes the unsigned maximum of two scalars. -/
  | maxN64 (sd sa sb : SReg)
  /-- R110: Sets a predicate to all ones when two scalars are equal, and to all zeros otherwise. -/
  | psetEq (pd : PReg) (sa sb : SReg)
  /-- R110: Sets a predicate when two scalars differ. -/
  | psetNe (pd : PReg) (sa sb : SReg)
  /-- R110: Sets a predicate on a signed less-than comparison. -/
  | psetLtI64 (pd : PReg) (sa sb : SReg)
  /-- R110: Sets a predicate on an unsigned less-than comparison. -/
  | psetLtN64 (pd : PReg) (sa sb : SReg)
  /-- R110: Sets a predicate on a signed greater-or-equal comparison. -/
  | psetGeI64 (pd : PReg) (sa sb : SReg)
  /-- R110: Sets a predicate on an unsigned greater-or-equal comparison. -/
  | psetGeN64 (pd : PReg) (sa sb : SReg)
  /-- R111: Bitwise AND of two predicates. -/
  | pand (pd pa pb : PReg)
  /-- R111: Bitwise OR of two predicates. -/
  | por (pd pa pb : PReg)
  /-- R111: Bitwise XOR of two predicates. -/
  | pxor (pd pa pb : PReg)
  /-- R111: Bitwise NOT of one predicate. -/
  | pnot (pd pa : PReg)
  /-- R111: AND of one predicate with the complement of another. -/
  | pandn (pd pa pb : PReg)
  /-- R112: Selects one of two scalars by bit 0 of a predicate. -/
  | sel (p : PReg) (sd sa sb : SReg)
  /-- R108: Adds a sign-extended 12-bit immediate to a scalar. -/
  | addImm (sd sa : SReg) (imm : BitVec 12)
  /-- R108: ANDs a scalar with a sign-extended immediate. -/
  | andImm (sd sa : SReg) (imm : BitVec 12)
  /-- R108: ORs a scalar with a sign-extended immediate. -/
  | orImm (sd sa : SReg) (imm : BitVec 12)
  /-- R108: XORs a scalar with a sign-extended immediate. -/
  | xorImm (sd sa : SReg) (imm : BitVec 12)
  /-- R108: Shifts left by an immediate count of 0 to 63. -/
  | shlImm (sd sa : SReg) (count : BitVec 6)
  /-- R108: Shifts right logically by an immediate count. -/
  | shrImm (sd sa : SReg) (count : BitVec 6)
  /-- R108: Shifts right arithmetically by an immediate count. -/
  | sarImm (sd sa : SReg) (count : BitVec 6)
  /-- R109: Loads a sign-extended 18-bit immediate into a scalar. -/
  | li (sd : SReg) (imm : BitVec 18)
  /-- R109: Loads a sign-extended 32-bit immediate in format L. -/
  | liImm32 (sd : SReg) (imm : BitVec 32)
  /-- R109: Writes a 32-bit immediate into the upper half of a scalar. -/
  | lui (sd : SReg) (imm : BitVec 32)
  /-- R189: Loads a sign-extended byte from an on-chip level. -/
  | ldI8 (sd : SReg) (lv : Level) (sa : SReg) (off : BitVec 10)
  /-- R189: Loads a sign-extended halfword from an on-chip level. -/
  | ldI16 (sd : SReg) (lv : Level) (sa : SReg) (off : BitVec 10)
  /-- R189: Loads a sign-extended word from an on-chip level. -/
  | ldI32 (sd : SReg) (lv : Level) (sa : SReg) (off : BitVec 10)
  /-- R189: Loads an 8-byte word from an on-chip level. -/
  | ldI64 (sd : SReg) (lv : Level) (sa : SReg) (off : BitVec 10)
  /-- R189: Loads a zero-extended byte from an on-chip level. -/
  | ldN8 (sd : SReg) (lv : Level) (sa : SReg) (off : BitVec 10)
  /-- R189: Loads a zero-extended halfword from an on-chip level. -/
  | ldN16 (sd : SReg) (lv : Level) (sa : SReg) (off : BitVec 10)
  /-- R189: Loads a zero-extended word from an on-chip level. -/
  | ldN32 (sd : SReg) (lv : Level) (sa : SReg) (off : BitVec 10)
  /-- R189: Stores a byte to an on-chip level. -/
  | stI8 (sd : SReg) (lv : Level) (sa : SReg) (off : BitVec 10)
  /-- R189: Stores a halfword to an on-chip level. -/
  | stI16 (sd : SReg) (lv : Level) (sa : SReg) (off : BitVec 10)
  /-- R189: Stores a word to an on-chip level. -/
  | stI32 (sd : SReg) (lv : Level) (sa : SReg) (off : BitVec 10)
  /-- R189: Stores an 8-byte word to an on-chip level. -/
  | stI64 (sd : SReg) (lv : Level) (sa : SReg) (off : BitVec 10)
  /-- R32: Waits until a word is full, then reads it. -/
  | ldFf (sd : SReg) (lv : Level) (sa : SReg) (off : BitVec 10)
  /-- R32: Waits until a word is full, reads it and sets it empty. -/
  | ldFe (sd : SReg) (lv : Level) (sa : SReg) (off : BitVec 10)
  /-- R32: Waits until a word is empty, writes it and sets it full. -/
  | stEf (sd : SReg) (lv : Level) (sa : SReg) (off : BitVec 10)
  /-- R179: A change of a word's full/empty state releases its oldest waiter, which then completes its access. -/
  | fullEmptyRelease (addr : Nat)
  /-- R113: Branches by a word offset when the predicate condition holds. -/
  | br (n : Bool) (p : PReg) (off : BitVec 17)
  /-- R114: Decrements a count scalar and branches while the count stays nonzero. -/
  | loop (sc : SReg) (off : BitVec 17)
  /-- R113: Writes the link into s63 and jumps by a 24-bit word offset. -/
  | call (off : BitVec 24)
  /-- R113: Jumps to the address in s63. -/
  | ret
  /-- R113: Jumps to the address in a scalar. -/
  | bp (sa : SReg)
  /-- R113: Writes the link into s63 and jumps to the address in a scalar. -/
  | callr (sa : SReg)
  /-- R126: Leaves handler mode, retries a faulting engine command or resumes at TRAP_PC, and unfreezes the queues. -/
  | tret
  /-- R126: Leaves handler mode, skipping the trapping instruction or the faulting command. -/
  | tretSkip
  /-- R113: Advances the program counter and does nothing else. -/
  | nop
  /-- R115: Reads a control register into a scalar. -/
  | getc (sd : SReg) (cr : CReg)
  /-- R116: Writes a scalar to a control register, after the reserved-bit and field checks. -/
  | setc (cr : CReg) (sa : SReg)
  /-- R125: Raises the SOFTWARE trap with an 8-bit code. -/
  | trap (code : BitVec 8)
  /-- R117: Marks the registers named by a class mask as dead. -/
  | kill (cls : KillClass) (mask : BitVec 32)
  /-- R65: Format W runs a wrapped 32-bit strand instruction only when its predicate holds. -/
  | predicatedInstruction (n : Bool) (p : PReg) (i : Instr)
  /-- R231: Orders the block's covered accesses with respect to blocks within a scope. -/
  | fence (sc : Scope)
  /-- R232: Orders earlier strand stores before the reads of engine commands dispatched later. -/
  | xfence
  /-- R236: Removes the masked load tags from every taint set of the block. -/
  | untaint (sa : SReg)
  /-- R237: Folds every tag in use into TAINT_FLOOR and empties all taint sets. -/
  | tfold
  /-- R199: Passes a square from the strand to the engines. -/
  | give (sq : BitVec 6)
  /-- R199: Waits for the engine commands that touch a square, then passes the square to the strand. -/
  | take (sq : BitVec 6)
  /-- R199: Sets a square's guard mode to guarded. -/
  | guard (sq : BitVec 6)
  /-- R199: Sets a square's guard mode to open. -/
  | unguard (sq : BitVec 6)
  /-- R242: Sets SLIP_DEPTH for commands dispatched afterwards. -/
  | slip (n : BitVec 6)
  /-- R244: Waits until earlier commands of the named engines have completed or been discarded. -/
  | drain (mask : BitVec 4)
  /-- R245: Stops the strand; the block retires once its queues and posted accesses are done. -/
  | exit
  /-- R318: The strand waits for a token count of at least 1 and pops it. -/
  | tokw (k : BitVec 4)
  /-- R318: The strand waits for its stores to be performed and pushes a token. -/
  | toks (k : BitVec 4)
  /-- R305: Reads device time into a scalar. -/
  | tick (sd : SReg)
  /-- R325: Reads a dependence counter of the block's function into a scalar. -/
  | tickDc (sd sa : SReg)
  /-- R308: Reads the block's gang turn or partition turn. -/
  | turn (sd : SReg)
  /-- R308: Waits until the block's turn reaches a scalar value. -/
  | turnw (sa : SReg)
  /-- R320: Records the block's arrival at its barrier instance of a scope. -/
  | arrive (sc : Scope)
  /-- R320: Arrives if it has not yet, then waits until the barrier phase changes. -/
  | bwait (sc : Scope)
  /-- R192: Loads one element of an object by handle and linear index, taking a load tag. -/
  | ldo (sd : SReg) (h : BitVec 4) (sa : SReg) (imm : BitVec 18)
  /-- R195: Posts a store of one element of an object, under lease and race checks. -/
  | sto (h : BitVec 4) (sa : SReg) (imm : BitVec 18) (sb : SReg)
  /-- R196: Adds to a counter word at its home atomic unit and returns the old value. -/
  | atomAdd (sd : SReg) (h : BitVec 4) (sa : SReg) (imm : BitVec 18) (sb : SReg)
  /-- R196: Takes the signed minimum of a counter word. -/
  | atomMinI64 (sd : SReg) (h : BitVec 4) (sa : SReg) (imm : BitVec 18) (sb : SReg)
  /-- R196: Takes the unsigned minimum of a counter word. -/
  | atomMinN64 (sd : SReg) (h : BitVec 4) (sa : SReg) (imm : BitVec 18) (sb : SReg)
  /-- R196: Takes the signed maximum of a counter word. -/
  | atomMaxI64 (sd : SReg) (h : BitVec 4) (sa : SReg) (imm : BitVec 18) (sb : SReg)
  /-- R196: Takes the unsigned maximum of a counter word. -/
  | atomMaxN64 (sd : SReg) (h : BitVec 4) (sa : SReg) (imm : BitVec 18) (sb : SReg)
  /-- R196: Exchanges a counter word for a scalar. -/
  | atomXchg (sd : SReg) (h : BitVec 4) (sa : SReg) (imm : BitVec 18) (sb : SReg)
  /-- R196: Compares a counter word with a value and swaps on equality. -/
  | atomCas (sd : SReg) (h : BitVec 4) (sa : SReg) (imm : BitVec 18) (sb sc : SReg)
  /-- R196: Increments a counter word only while it lies below a bound. -/
  | atomIncb (sd : SReg) (h : BitVec 4) (sa : SReg) (imm : BitVec 18) (sb : SReg)
  /-- R194: An outstanding object load or atomic writes its register, records its stamp and releases the interlock. -/
  | objectLoadCompletion (k : Nat)
  /-- R198: Loads a tile-descriptor image from scratchpad. -/
  | dld (d : BitVec 4) (sa : SReg) (imm : BitVec 18)
  /-- R198: Stores a tile-descriptor image to scratchpad. -/
  | dst (d : BitVec 4) (sa : SReg) (imm : BitVec 18)
  /-- R198: Loads a shape image from scratchpad. -/
  | qld (q : BitVec 3) (sa : SReg) (imm : BitVec 18)
  /-- R198: Stores a shape image to scratchpad. -/
  | qst (q : BitVec 3) (sa : SReg) (imm : BitVec 18)
  /-- R293: Resolves a handle and loads it and its descriptor into a handle register. -/
  | hopen (h : BitVec 4) (sa : SReg)
  /-- R293: Copies a handle register's handle into a scalar. -/
  | hget (sd : SReg) (h : BitVec 4)
  /-- R293: Clears a handle register and its hidden copy. -/
  | hdrop (h : BitVec 4)
  /-- R294: Returns a masked word of the hidden descriptor copy, optionally re-resolved first. -/
  | hstat (sd : SReg) (h : BitVec 4) (r : Bool) (word : BitVec 3)
  /-- R291: Requests a write or add lease on an element range, waiting or failing on conflict. -/
  | lease (sd : SReg) (h : BitVec 4) (sa sb : SReg) (add nowait : Bool)
  /-- R215: A waiting lease request is granted once no excluding lease or earlier request overlaps it. -/
  | leaseGrant (k : Nat)
  /-- R292: Waits for the block's object writes, then closes one lease without publishing. -/
  | unlease (h : BitVec 4) (sa : SReg)
  /-- R322: Waits for the block's writes, raises the object's version and stamp, and closes its leases. -/
  | publish (sd : SReg) (h : BitVec 4)
  /-- R323: Waits until an object's version reaches a value, raises the floor and records a subscription. -/
  | subscribe (sd : SReg) (h : BitVec 4) (sa : SReg)
  /-- R324: Reads an object's version from its home copy as an object load. -/
  | ver (sd : SReg) (h : BitVec 4)
  /-- R317: Configures a token's producer, consumer and count once no command names it. -/
  | tokset (k : BitVec 4) (prod cons : Agent) (n : BitVec 8)
  /-- R326: Arms a monitor on a word and returns once it reads a value different from a scalar. -/
  | mwait (sd : SReg) (loc : MwaitLoc) (sa : SReg) (imm : BitVec 18) (sb : SReg)
  /-- R327: Arms a watch entry on an object element. -/
  | watch (sd : SReg) (h : BitVec 4) (sa : SReg) (imm : BitVec 18) (sb : SReg)
  /-- R329: Waits for pending firings and clears a watch entry. -/
  | unwatch (sa : SReg)
  /-- R255: Appends a launch record from scratchpad to a launch queue and returns its slot. -/
  | launch (sd sa sb : SReg)
  /-- R164: Waits until no dispatched command names a bank, then moves the bank to the matrix or vector side. -/
  | lend (t : BitVec 4) (vec : Bool)
  /-- R168: Binds input and output step caches, a threshold, a step and a skip limit to a step binding. -/
  | sbind (g : BitVec 3) (hin hout : BitVec 4) (sth sst : SReg) (maxskip : BitVec 18)
  /-- R169: Consumes a comparator result, decides skip, and updates the step cache's count, map and payload. -/
  | sgate (pd : PReg) (sj : SReg) (g : BitVec 3)
  /-- R171: Reads a field or a skip-map word of a step binding. -/
  | smap (sd : SReg) (g : BitVec 3) (sel : BitVec 18) (sa : SReg)
  /-- R171: Advances a binding's step and raises the input object's version. -/
  | sstep (g : BitVec 3)
  /-- R342: Waits for the partition's latest Clearboard token and copies it into scratchpad. -/
  | cbtok (sd sa : SReg) (imm : BitVec 18)
  /-- R67: The .nb form of an engine command queues it or writes false to a predicate when the queue is full. -/
  | nonblockingDispatch (p : PReg) (c : Instr)
  /-- R30: An engine starts the command at its queue head once tokens and slip depth allow, pops its wait token and checks operands. -/
  | engineCommandStart (e : Engine)
  /-- R30: A command completes, pushes its signal token, merges its flags and writes its results. -/
  | engineCommandCompletion (e : Engine)
  /-- R135: Adds vector lanes. -/
  | vadd (h : Hdr) (o : VaOp)
  /-- R135: Subtracts vector lanes. -/
  | vsub (h : Hdr) (o : VaOp)
  /-- R135: Multiplies vector lanes. -/
  | vmul (h : Hdr) (o : VaOp)
  /-- R136: Fused multiply-add into the destination lanes with one rounding. -/
  | vfma (h : Hdr) (o : VaOp)
  /-- R135: Float or signed lane maximum. -/
  | vmax (h : Hdr) (o : VaOp)
  /-- R135: Float or signed lane minimum. -/
  | vmin (h : Hdr) (o : VaOp)
  /-- R135: Unsigned lane maximum. -/
  | vmaxN (h : Hdr) (o : VaOp)
  /-- R135: Unsigned lane minimum. -/
  | vminN (h : Hdr) (o : VaOp)
  /-- R137: Absolute value of each lane. -/
  | vabs (h : Hdr) (o : VaOp)
  /-- R137: Negation of each lane. -/
  | vneg (h : Hdr) (o : VaOp)
  /-- R138: Correctly rounded base-2 exponential of FP32 lanes. -/
  | vexp2 (h : Hdr) (o : VaOp)
  /-- R138: Correctly rounded reciprocal of FP32 lanes. -/
  | vrcp (h : Hdr) (o : VaOp)
  /-- R138: Correctly rounded reciprocal square root of FP32 lanes. -/
  | vrsqrt (h : Hdr) (o : VaOp)
  /-- R135: Bitwise AND of integer lanes. -/
  | vand (h : Hdr) (o : VaOp)
  /-- R135: Bitwise OR of integer lanes. -/
  | vor (h : Hdr) (o : VaOp)
  /-- R135: Bitwise XOR of integer lanes. -/
  | vxor (h : Hdr) (o : VaOp)
  /-- R135: Shifts integer lanes left. -/
  | vshl (h : Hdr) (o : VaOp)
  /-- R135: Shifts integer lanes right logically. -/
  | vshr (h : Hdr) (o : VaOp)
  /-- R135: Shifts integer lanes right arithmetically. -/
  | vsar (h : Hdr) (o : VaOp)
  /-- R140: Selects each lane from one of two sources by a predicate. -/
  | vsel (h : Hdr) (o : VaOp)
  /-- R139: Writes a predicate bit per lane for equality. -/
  | vcmpEq (h : Hdr) (o : VaOp)
  /-- R139: Writes a predicate bit per lane for inequality. -/
  | vcmpNe (h : Hdr) (o : VaOp)
  /-- R139: Float or signed less-than compare into a predicate. -/
  | vcmpLt (h : Hdr) (o : VaOp)
  /-- R139: Float or signed greater-or-equal compare into a predicate. -/
  | vcmpGe (h : Hdr) (o : VaOp)
  /-- R139: Unsigned less-than compare into a predicate. -/
  | vcmpLtN (h : Hdr) (o : VaOp)
  /-- R139: Unsigned greater-or-equal compare into a predicate. -/
  | vcmpGeN (h : Hdr) (o : VaOp)
  /-- R141: Float or signed sum of the on lanes by the halving tree, broadcast to every lane. -/
  | vredAdd (h : Hdr) (o : VaOp)
  /-- R141: Unsigned saturating sum of the on lanes. -/
  | vredAddN (h : Hdr) (o : VaOp)
  /-- R141: Float or signed maximum of the on lanes. -/
  | vredMax (h : Hdr) (o : VaOp)
  /-- R141: Float or signed minimum of the on lanes. -/
  | vredMin (h : Hdr) (o : VaOp)
  /-- R141: Unsigned maximum of the on lanes. -/
  | vredMaxN (h : Hdr) (o : VaOp)
  /-- R141: Unsigned minimum of the on lanes. -/
  | vredMinN (h : Hdr) (o : VaOp)
  /-- R137: Copies the source bytes of the on lanes. -/
  | vmov (h : Hdr) (o : VaOp)
  /-- R135: Signed saturating lane addition. -/
  | vaddSat (h : Hdr) (o : VaOp)
  /-- R135: Unsigned saturating lane addition. -/
  | vaddSatN (h : Hdr) (o : VaOp)
  /-- R135: Signed saturating lane subtraction. -/
  | vsubSat (h : Hdr) (o : VaOp)
  /-- R135: Unsigned saturating lane subtraction. -/
  | vsubSatN (h : Hdr) (o : VaOp)
  /-- R149: Loads 128 scratchpad bytes into a vector register. -/
  | vld (h : Hdr) (off : BitVec 15) (sa : SReg) (wd : WReg)
  /-- R149: Stores a vector register's 128 bytes to scratchpad. -/
  | vst (h : Hdr) (dead : Bool) (off : BitVec 15) (sa : SReg) (ws : WReg)
  /-- R145: Converts lanes between integer, FP32, FP16, BF16 and FP8 formats. -/
  | vcvt (h : Hdr) (dead : Bool) (part : BitVec 2) (sf df : BitVec 5) (wa wd : WReg)
  /-- R142: Writes bits of a scalar into every on lane. -/
  | vbcast (h : Hdr) (t : ElemT) (sa : SReg) (wd : WReg)
  /-- R146: Copies a vector register into a crossbar word. -/
  | vxset (h : Hdr) (dead : Bool) (wa : WReg) (c : BitVec 3)
  /-- R147: Permutes bytes of a vector register through a crossbar word. -/
  | vperm (h : Hdr) (dead : Bool) (t : ElemT) (c : BitVec 3) (wa wd : WReg)
  /-- R148: Writes the lane indices of the k largest on lanes in rank order. -/
  | vtopk (h : Hdr) (dead : Bool) (t : ElemT) (k : BitVec 8) (wa wd : WReg)
  /-- R143: Extracts one lane into a scalar. -/
  | vext (h : Hdr) (dead : Bool) (t : ElemT) (lane : BitVec 7) (wa : WReg) (sd : SReg)
  /-- R144: Inserts scalar bits into one lane. -/
  | vins (h : Hdr) (t : ElemT) (lane : BitVec 7) (sa : SReg) (wd : WReg)
  /-- R158: Accumulates C += A·B into an accumulator tile over K. -/
  | mmul (h : Hdr) (o : MatOp)
  /-- R159: Accumulates a matrix product with A rows gathered by indices in a vector register. -/
  | mmulG (h : Hdr) (o : MatOp) (deadI : Bool) (wi : WReg)
  /-- R161: Accumulates a matrix product with a 2:4 sparse A expanded by metadata. -/
  | mmulS (h : Hdr) (o : MatOp) (dsx : BitVec 4)
  /-- R162: Zeroes an accumulator bank. -/
  | mzero (h : Hdr) (td : BitVec 4)
  /-- R163: Converts an accumulator bank to an MX tile in scratchpad. -/
  | mxpack (h : Hdr) (af i32 : Bool) (dd td : BitVec 4)
  /-- R205: Reads an object tile, converts it and writes it to an on-chip level. -/
  | fetch (h : Hdr) (o : TileOp)
  /-- R206: Gathers one object tile per entry of an index list. -/
  | fetchIx (h : Hdr) (dl : BitVec 4) (si : SReg) (q : BitVec 3) (ds ha : BitVec 4)
  /-- R207: Fetches a token block, compares it with the previous step and queues the comparator result. -/
  | fetchStep (h : Hdr) (sj : SReg) (g : BitVec 3) (si : SReg) (q : BitVec 3) (ds ha : BitVec 4)
  /-- R208: Copies rows between on-chip levels unchanged. -/
  | relay (h : Hdr) (lvs : Level) (sx : SReg) (dd : BitVec 4) (lvd : Level) (si : SReg) (ds : BitVec 4)
  /-- R209: Writes an on-chip tile into an object, converting formats. -/
  | put (h : Hdr) (o : TileOp)
  /-- R209: Adds an on-chip tile into object elements at the memory side. -/
  | putAdd (h : Hdr) (o : TileOp)
  /-- R210: Copies a tile to another core's scratchpad in the cluster and sets its landing word full. -/
  | xcopy (h : Hdr) (sx : SReg) (dd : BitVec 4) (si : SReg) (ds : BitVec 4)
  /-- R211: Fills a pool-resident tile with a value at the pool. -/
  | poolFill (h : Hdr) (sx si : SReg) (q : BitVec 3) (ha : BitVec 4)
  /-- R211: Copies a tile between pool-resident objects at the pool. -/
  | poolCopy (h : Hdr) (sx : SReg) (hsrc : BitVec 4) (si : SReg) (q : BitVec 3) (ha : BitVec 4)
  /-- R211: Finds the first differing tile position of two pool objects. -/
  | poolCmp (h : Hdr) (sx : SReg) (h2 : BitVec 4) (si : SReg) (q : BitVec 3) (ds ha : BitVec 4)
  /-- R211: Reduces a source tile into a destination at the pool by add, min or max. -/
  | poolRed (h : Hdr) (op : RedOp) (sx : SReg) (hsrc : BitVec 4) (si : SReg) (q : BitVec 3) (ha : BitVec 4)
  /-- R170: Copies a stored output block of a step cache into a scratchpad tile. -/
  | sreuse (h : Hdr) (g : BitVec 3) (si : SReg) (ds : BitVec 4)
  /-- R73: The strand reaches a word whose length bits, major, minor or reserved fields are unassigned and raises the illegal-instruction trap. -/
  | illegalInstruction (w0 w1 : BitVec 32)
  /-- R119: The strand's fetch at the program counter faults, because it lies beyond the code object or the world lacks read rights, or it parks on a missing code slab. -/
  | fetchFault (addr : BitVec 32)
  /-- R283: A released parked access is replayed exactly, resuming at its first unmoved element. -/
  | accessReplay (site : Site)
  /-- R245: A block that has exited retires once its queues are empty and its posted accesses are performed. -/
  | blockRetirement
  /-- R247: A write of the notify word with a new TAIL makes appended launch records available, or sets PENDING. -/
  | launchNotify (fn : BitVec 6) (q : BitVec 8) (tail : BitVec 32)
  /-- R251: The dispatcher admits the next record in slot order, checks it and takes a slot. -/
  | launchAdmission (fn : BitVec 6) (q : BitVec 8)
  /-- R248: A queue idle for 10 µs is unmapped and its HEAD and TAIL written back. -/
  | queueUnmap (fn : BitVec 6) (q : BitVec 8)
  /-- R248: Every 1 µs the dispatcher scans unmapped queue records for PENDING and maps them. -/
  | pendingScan (die : BitVec 2)
  /-- R256: The dispatcher picks a launch by class and places one placement group on a unit. -/
  | dispatcherPick (die : BitVec 2)
  /-- R257: A locked gang passed over for 100 µs has a unit reserved for it. -/
  | gangReservation (slot : Nat)
  /-- R254: A launch's watchdog limit expires, terminating live blocks as TRAPPED and reporting unplaced ones NOT_RUN. -/
  | watchdogExpiry (slot : Nat)
  /-- R265: The loss of a die is detected, a new leader is elected and the die's blocks are reported DIE_LOST. -/
  | dieFailure (die : BitVec 2)
  /-- R276: Flushes cached copies of an object's descriptor and marks handle registers for refresh. -/
  | descSync
  /-- R281: Removes slab translations under a new shoot-down generation. -/
  | shoot
  /-- R281: Removes second-stage translations of a guest-physical range. -/
  | g2Shoot
  /-- R286: Invalidates a fault-buffer generation and releases its parked accesses for replay. -/
  | fbFlush
  /-- R289: Moves a counter object between die stores, holding and forwarding its atomics. -/
  | counterMove
  /-- R269: Writes one word of a hub-resident table, subject to the table's refusal rules. -/
  | twrite
  /-- R269: Reads one word of a hub-resident table into TARG1. -/
  | tread
  /-- R285: A write of FBHEAD consumes fault records when the value lies within the ring. -/
  | fbheadWrite (die : BitVec 2) (v : BitVec 32)
  /-- R325: A write of DCVAL sets the selected dependence counter, saturating at 4,096. -/
  | dcvalWrite (v : BitVec 64)
  /-- R311: Writing EN to 1 starts the timetable walker at the next turn; clearing it stops releases. -/
  | ttctlWrite (v : BitVec 64)
  /-- R311: The walker releases the next move when its release turn arrives, with class D and a deadline. -/
  | timetableRelease (part : BitVec 4)
  /-- R306: At the boundary time PTURN advances, or stalls on a late move, and locked gangs' GTURN advance. -/
  | turnBoundary (part : BitVec 4)
  /-- R304: An IEEE 1588 event message is timestamped against DTIME and passed to the time service. -/
  | ptpEventFrame (port : BitVec 5) (f : TimeFrame)
  /-- R332: At a frame edge the partition stops, saves, scrubs and restores the incoming world. -/
  | frameEdge (part : BitVec 4)
  /-- R339: The signed Clearboard token of a scrub becomes available. -/
  | clearboardToken (part : BitVec 4)
  /-- R347: Writing an address copies the selected partition's latest token there. -/
  | tokcopy (addr : BitVec 64)
  /-- R345: Resets a virtual function: discards its queues, terminates its blocks, closes leases and scrubs. -/
  | vfreset (fn : BitVec 6)
  /-- R344: A tamper condition erases keys, stops all cores and locks the part until reset. -/
  | securityAlarm (cause : BitVec 5)
  /-- R343: Reset clears the clusters and die stores, draws new keys and zeroes counters. -/
  | packageReset
  /-- R370: On rails good the boot ROM reads, verifies and starts the flash image. -/
  | boot
  /-- R372: A store of 1 after recovery stores verifies and runs the image from the buffer. -/
  | recoveryStart
  /-- R349: A core untested for 90 ms is pre-empted and tested for 15 µs. -/
  | inFieldTest (core : Core) (pass : Bool)
  /-- R348: A checker detects a single fault and masks it, terminates a block or loses a die. -/
  | singleFaultDetection (kind : FaultKind) (core : Core)
  /-- R353: A Galith load request through an aperture completes with data or a status. -/
  | hostLoad (port : HostFrame) (tag : BitVec 12) (addr : BitVec 64) (len : Nat)
  /-- R353: A Galith store request is performed at the home copy or refused with a status. -/
  | hostStore (port : HostFrame) (tag : BitVec 12) (addr : BitVec 64) (data : List Byte)
  /-- R353: A host access parked for 1 ms without replay is withdrawn and completes TIMEOUT. -/
  | hostRequestTimeout (k : Nat)
  /-- R353: A host write of an aperture descriptor takes effect after earlier accesses through it. -/
  | apertureDescriptorWrite (port : HostFrame) (tag : BitVec 12) (fn : BitVec 6) (a : BitVec 4) (word : Bool) (v : BitVec 64)
  /-- R355: A host store to the service notify word raises TAIL of ring H. -/
  | serviceNotify (port : HostFrame) (tag : BitVec 12) (fn : BitVec 6) (v : BitVec 64)
  /-- R357: At link-up Lolen runs SPDM with the host and seals the port. -/
  | hostLinkUp (port : Bool)
  /-- R357: A dropped Galith link loses its session and outstanding requests. -/
  | hostLinkDown (port : Bool)
  /-- R356: Service request that creates and zero-fills an object. -/
  | create (r : SvcReq) (index : BitVec 32) (root : Nat) (frames : List Nat)
  /-- R356: Service request that retires an object and frees its slabs. -/
  | destroy (r : SvcReq)
  /-- R356: Service request that moves an object's slabs to a residency. -/
  | reside (r : SvcReq) (frames : List Nat)
  /-- R354: Service request that publishes an object after the function's earlier host stores. -/
  | publishService (r : SvcReq)
  /-- R366: Service request that runs a two-phase collective across a share group. -/
  | collective (r : SvcReq) (parts : List (List Byte))
  /-- R356: Service request that binds a launch queue's completions to a Galith event vector. -/
  | eventBind (r : SvcReq)
  /-- R362: Service request that binds a port filter to a stream object. -/
  | streamBind (r : SvcReq)
  /-- R373: Service request that verifies a new image and writes it to flash. -/
  | flashWrite (r : SvcReq)
  /-- R360: A received peer read request is served from a shard. -/
  | peerRead (f : PeerFrame)
  /-- R360: A received read reply completes a remote read. -/
  | peerReadReply (f : PeerFrame)
  /-- R360: A received peer write is performed at the shard. -/
  | peerWrite (f : PeerFrame)
  /-- R360: A received write acknowledgement completes a remote write. -/
  | peerWriteAck (f : PeerFrame)
  /-- R360: A received atomic is performed at the home atomic unit. -/
  | peerAtomic (f : PeerFrame)
  /-- R360: A received atomic reply completes a remote atomic. -/
  | peerAtomicReply (f : PeerFrame)
  /-- R360: A received publish is performed at the object's home. -/
  | peerPublish (f : PeerFrame)
  /-- R361: A cumulative acknowledgement releases retransmission state. -/
  | peerCumulativeAck (f : PeerFrame)
  /-- R360: A peer control frame for group membership and attestation. -/
  | peerControl (f : PeerFrame)
  /-- R361: An unacknowledged frame is retransmitted after 20 µs; after 16 tries the path is down. -/
  | peerRetransmit (port : BitVec 5) (dst : BitVec 8)
  /-- R365: A member silent for 50 µs is lost and the group epoch is raised. -/
  | shareMemberLost (pkg : BitVec 8)
  /-- R363: A received frame matching a filter is appended to its stream, or dropped when full. -/
  | ingressFrame (port : BitVec 5) (f : PortFrame)
  /-- R358: A write of PORTCFG takes the port down and retrains it. -/
  | portcfgWrite (v : BitVec 64)
  /-- R185: A withdrawn pool extent poisons in-flight requests and marks residency lost. -/
  | poolExtentWithdrawn (base len : Nat)
  /-- R368: A non-forced release request from the pool is served after moving the extent's slabs. -/
  | poolReleaseRequest (base len : Nat) (frames : List Nat)
  /-- R375: A write of PWRTGT moves each die to its target operating point. -/
  | pwrtgtWrite (v : BitVec 64)
  /-- R375: Power averaged over 1 ms above a limit lowers every die one point and sets CAPPED. -/
  | powerCap (w : Watts)
  /-- R375: After 10 ms below 95 % of the limits a die is raised one point toward PWRTGT. -/
  | powerRestore (w : Watts)
  /-- R8: A write of a system CSR that has no behaviour of its own sets its fields. -/
  | systemCsrWrite (csr : BitVec 12) (a : CsrAccess)
  /-- R228: A posted strand store, sto or sgate update, issued earlier, is performed at its bank or home copy and becomes visible to other blocks. -/
  | postedStorePerformed (k : Nat)
  /-- R182: A system core loads or stores a system-physical address, reaching object memory or the die-store system region, or ending in a bus error. -/
  | systemCoreAccess (addr : Nat) (len : Nat) (data : Option (List Byte))
  /-- R185: The CXL pool offers a dynamic-capacity extent, which Lolen accepts as a pool region or refuses. -/
  | poolExtentOffer (base len : Nat) (dvsec : Bool)
  /-- R343: Loss of power cuts short any frame edge, scrub or flash write in progress and leaves no token for it. -/
  | powerLoss
  /-- R348: A scale-out or die-to-die link goes down after 8 failed CRC retries in a row, or when its frame counter is exhausted. -/
  | linkDown (link : Link)
  deriving DecidableEq, Repr

end Sys2Proof
end

