-- ==== Sys2Proof/WellFormed.lean ====
section
/-! DEFINITION. Which instructions the encodings admit (R63-R73, R157, R200, R231, R242, R244, R302): the register
fields that exist, the scopes, element types, format codes and counts an instruction takes. An event is not encoded and
is well formed as it stands. -/

namespace Sys2Proof

/-- p0-p47 exist (R69). -/
def PReg.ok (p : PReg) : Bool := p.toNat < 48

/-- A predicate destination exists and is not p0 (R69). -/
def PReg.destOk (p : PReg) : Bool := p.toNat < 48 && p != 0

/-- The floating-point element types of field T (R72). -/
def ElemT.isFloat : ElemT → Bool
  | .f32 => true | .f16 => true | .bf16 => true | .i32 => false | .i16 => false | .i8 => false

/-- The format codes that `vcvt` takes (R145). -/
def vcvtFmtOk (c : BitVec 5) : Bool :=
  let n := c.toNat
  n ≤ 2 || (4 ≤ n && n ≤ 6) || (8 ≤ n && n ≤ 0xC)

/-- The mask bits of `kill` that must be zero (R64, R117). -/
def KillClass.zeroBits : KillClass → BitVec 32
  | .sLow => 0x00000001 | .sHigh => 0 | .pLow => 0x00000001 | .pHigh => 0xFFFF0000
  | .h => 0xFFFF0000 | .d => 0xFFFF0000 | .q => 0xFFFFFF00

/-- The checks of a header that holds no more than a predicate and tokens (R66). -/
def Hdr.ok (h : Hdr) : Bool := h.p.ok

/-- A header of a command without dead marks (R66). -/
def Hdr.okNoDe (h : Hdr) : Bool := h.p.ok && !h.de

/-- A dead mark of word 1 is zero where DE is 0 (R66). -/
def Hdr.okMark (h : Hdr) (mark : Bool) : Bool := h.p.ok && (h.de || !mark)

/-- A binary vector command: the T it accepts and its dead marks (R66, R68, R72). -/
def VaOp.okBin (o : VaOp) (h : Hdr) (acc : ElemT → Bool) : Bool :=
  h.p.ok && acc o.t && (h.de || (!o.deadA && !o.deadB))

/-- A unary or reduction vector command: WB and DEADB are zero (R72). -/
def VaOp.okUn (o : VaOp) (h : Hdr) (acc : ElemT → Bool) : Bool :=
  o.okBin h acc && o.wb == 0 && !o.deadB

/-- A compare: WD names a predicate destination and WD[8:6] is zero (R68, R69, R139). -/
def VaOp.okCmp (o : VaOp) (h : Hdr) (acc : ElemT → Bool) : Bool :=
  o.okBin h acc && 0 < o.wd.toNat && o.wd.toNat < 48

/-- Accepted T: every type. -/
def tAll (_ : ElemT) : Bool := true
/-- Accepted T: floating point. -/
def tFloat (t : ElemT) : Bool := t.isFloat
/-- Accepted T: integer. -/
def tInt (t : ElemT) : Bool := !t.isFloat
/-- Accepted T: FP32. -/
def tF32 (t : ElemT) : Bool := t == .f32

/-- A level offset is s0 where the level is `sp:` (R200). -/
def offsetOk (lv : Level) (s : SReg) : Bool := lv != .sp || s == 0

/-- `fetch`, `put` and `put.add` (R200). -/
def TileOp.ok (o : TileOp) (h : Hdr) : Bool := h.okNoDe && offsetOk o.lv o.sx

/-- A 32-bit strand instruction that format W may wrap (R65 step 1). -/
def Instr.wrappable : Instr → Bool
  | .add .. | .sub .. | .mul .. | .mulhI64 .. | .mulhN64 .. | .divI64 .. | .divN64 .. | .remI64 .. | .remN64 ..
  | .and .. | .or .. | .xor .. | .shl .. | .shr .. | .sar .. | .minI64 .. | .minN64 .. | .maxI64 .. | .maxN64 ..
  | .psetEq .. | .psetNe .. | .psetLtI64 .. | .psetLtN64 .. | .psetGeI64 .. | .psetGeN64 ..
  | .pand .. | .por .. | .pxor .. | .pnot .. | .pandn .. | .sel ..
  | .addImm .. | .andImm .. | .orImm .. | .xorImm .. | .shlImm .. | .shrImm .. | .sarImm .. | .li ..
  | .ldI8 .. | .ldI16 .. | .ldI32 .. | .ldI64 .. | .ldN8 .. | .ldN16 .. | .ldN32 ..
  | .stI8 .. | .stI16 .. | .stI32 .. | .stI64 .. | .ldFf .. | .ldFe .. | .stEf ..
  | .ret | .bp .. | .callr .. | .tret | .tretSkip | .nop | .getc .. | .setc .. | .trap ..
  | .fence .. | .xfence | .untaint .. | .tfold | .give .. | .take .. | .guard .. | .unguard ..
  | .slip .. | .drain .. | .exit | .tokw .. | .toks .. | .tick .. | .tickDc .. | .turn .. | .turnw ..
  | .arrive .. | .bwait .. => true
  | _ => false

/-- The header of an engine command, and nothing for any other instruction (R66, R71). -/
def Instr.hdr? : Instr → Option Hdr
  | .vadd h _ | .vsub h _ | .vmul h _ | .vfma h _ | .vmax h _ | .vmin h _ | .vmaxN h _ | .vminN h _
  | .vabs h _ | .vneg h _ | .vexp2 h _ | .vrcp h _ | .vrsqrt h _ | .vand h _ | .vor h _ | .vxor h _
  | .vshl h _ | .vshr h _ | .vsar h _ | .vsel h _ | .vcmpEq h _ | .vcmpNe h _ | .vcmpLt h _ | .vcmpGe h _
  | .vcmpLtN h _ | .vcmpGeN h _ | .vredAdd h _ | .vredAddN h _ | .vredMax h _ | .vredMin h _
  | .vredMaxN h _ | .vredMinN h _ | .vmov h _ | .vaddSat h _ | .vaddSatN h _ | .vsubSat h _ | .vsubSatN h _ => some h
  | .vld h .. | .vst h .. | .vcvt h .. | .vbcast h .. | .vxset h .. | .vperm h .. | .vtopk h .. | .vext h ..
  | .vins h .. | .mmul h .. | .mmulG h .. | .mmulS h .. | .mzero h .. | .mxpack h .. => some h
  | .fetch h .. | .fetchIx h .. | .fetchStep h .. | .relay h .. | .put h .. | .putAdd h .. | .xcopy h ..
  | .poolFill h .. | .poolCopy h .. | .poolCmp h .. | .poolRed h .. | .sreuse h .. => some h
  | _ => none

/-- `vsel`, which has no non-blocking form (R72). -/
def Instr.isVsel : Instr → Bool
  | .vsel .. => true
  | _ => false

/-- Which instructions the encodings admit. -/
def Instr.wf : Instr → Bool
  | .psetEq pd _ _ | .psetNe pd _ _ | .psetLtI64 pd _ _ | .psetLtN64 pd _ _ | .psetGeI64 pd _ _
  | .psetGeN64 pd _ _ => pd.destOk
  | .pand pd pa pb | .por pd pa pb | .pxor pd pa pb | .pandn pd pa pb => pd.destOk && pa.ok && pb.ok
  | .pnot pd pa => pd.destOk && pa.ok
  | .sel p .. => p.ok
  | .br _ p _ => p.ok
  | .kill cls mask => mask &&& cls.zeroBits == 0
  | .predicatedInstruction _ p i => p.ok && i.wrappable && i.wf
  | .fence sc | .arrive sc | .bwait sc => sc != .lane
  | .slip n => 1 ≤ n.toNat && n.toNat ≤ 16
  | .drain mask => mask != 0
  | .sgate pd _ _ => pd.destOk
  | .smap _ _ field sa => field == 6 || sa == 0
  | .nonblockingDispatch p c =>
    p.destOk && c.hdr?.any (fun h => !h.pn && h.p == 0) && !c.isVsel && c.wf
  | .vadd h o | .vsub h o | .vmul h o => o.okBin h tAll
  | .vfma h o => o.okBin h tFloat
  | .vmax h o | .vmin h o => o.okBin h tAll
  | .vmaxN h o | .vminN h o => o.okBin h tInt
  | .vabs h o | .vneg h o => o.okUn h tAll
  | .vexp2 h o | .vrcp h o | .vrsqrt h o => o.okUn h tF32
  | .vand h o | .vor h o | .vxor h o | .vshl h o | .vshr h o | .vsar h o => o.okBin h tInt
  | .vsel h o => o.okBin h tAll
  | .vcmpEq h o | .vcmpNe h o | .vcmpLt h o | .vcmpGe h o => o.okCmp h tAll
  | .vcmpLtN h o | .vcmpGeN h o => o.okCmp h tInt
  | .vredAdd h o | .vredMax h o | .vredMin h o => o.okUn h tAll
  | .vredAddN h o | .vredMaxN h o | .vredMinN h o => o.okUn h tInt
  | .vmov h o => o.okUn h tAll
  | .vaddSat h o | .vaddSatN h o | .vsubSat h o | .vsubSatN h o => o.okBin h tInt
  | .vld h _ _ _ => h.okNoDe
  | .vst h dead _ _ _ => h.okMark dead
  | .vcvt h dead _ sf df _ _ => h.okMark dead && vcvtFmtOk sf && vcvtFmtOk df
  | .vbcast h _ _ _ => h.okNoDe
  | .vxset h dead _ _ => h.okMark dead
  | .vperm h dead _ _ _ _ => h.okMark dead
  | .vtopk h dead _ _ _ _ => h.okMark dead
  | .vext h dead _ _ _ _ => h.okMark dead
  | .vins h _ _ _ _ => h.okNoDe
  | .mmul h _ => h.okNoDe
  | .mmulG h _ deadI _ => h.okMark deadI
  | .mmulS h _ _ => h.okNoDe
  | .mzero h _ => h.okNoDe
  | .mxpack h _ _ _ _ => h.okNoDe
  | .fetch h o | .put h o | .putAdd h o => o.ok h
  | .fetchIx h _ _ _ _ _ => h.okNoDe
  | .fetchStep h _ _ _ _ _ _ => h.okNoDe
  | .relay h lvs sx _ lvd si _ => h.okNoDe && offsetOk lvd sx && offsetOk lvs si
  | .xcopy h _ _ _ _ => h.okNoDe
  | .poolFill h _ _ _ _ => h.okNoDe
  | .poolCopy h _ _ _ _ _ => h.okNoDe
  | .poolCmp h _ _ _ _ _ _ => h.okNoDe
  | .poolRed h _ _ _ _ _ _ => h.okNoDe
  | .sreuse h _ _ _ => h.okNoDe
  | _ => true

end Sys2Proof
end

