-- ==== Sys2Proof/Decode.lean ====
section
/-! DEFINITION. The decoder, from bytes to an instruction or a named refusal (R61-R73), and the encoder, written from
the same encoding tables. The field positions are those of R63, R64, R66 and R68; the codes are those of R70-R72. -/

namespace Sys2Proof

/-- Why a word is no instruction (R61, R73). -/
inductive DecodeError where
  /-- Fewer bytes than the instruction has. -/
  | tooShort
  /-- Bits [1:0] are 0b01 or 0b10 (R61). -/
  | lengthBits
  /-- A major code that R70 or R71 does not assign. -/
  | unassignedMajor
  /-- A minor code beyond the last listed (R70-R72). -/
  | unassignedMinor
  /-- A field that must be zero is not (R73). -/
  | reservedField
  /-- A level value of 0b11 (R63, R200). -/
  | badLevel
  /-- A scope code of 0b111 (R13). -/
  | badScope
  /-- A T of 0b110 or 0b111 (R72). -/
  | badElemType
  /-- A CSEL that names no control register (R97). -/
  | noControlRegister
  /-- A register, count, format code or type that the instruction does not accept (R69, R73). -/
  | operandNotAccepted
  deriving DecidableEq, Repr

/-- Bits [lo + len - 1 : lo] of a word. -/
def fld (w : Word) (lo len : Nat) : BitVec len := w.extractLsb' lo len

/-- A one-bit field. -/
def flg (w : Word) (lo : Nat) : Bool := fld w lo 1 == 1#1

/-- A Boolean as a field's value. -/
def bit (b : Bool) : Nat := if b then 1 else 0

/-- A level field (R63): 0b11 is reserved. -/
def levelOf (v : BitVec 2) : Except DecodeError Level :=
  match v with
  | 0b00#2 => .ok .sp | 0b01#2 => .ok .cl | 0b10#2 => .ok .ds | _ => .error .badLevel

/-- A scope code (R13): 0b111 is reserved. -/
def scopeOf (v : BitVec 3) : Except DecodeError Scope :=
  match v with
  | 0#3 => .ok .lane | 1#3 => .ok .core | 2#3 => .ok .quad | 3#3 => .ok .clus | 4#3 => .ok .die
  | 5#3 => .ok .pkg | 6#3 => .ok .pod | _ => .error .badScope

/-- Field T (R72): 0b110 and 0b111 are reserved. -/
def elemTOf (v : BitVec 3) : Except DecodeError ElemT :=
  match v with
  | 0#3 => .ok .f32 | 1#3 => .ok .f16 | 2#3 => .ok .bf16 | 3#3 => .ok .i32 | 4#3 => .ok .i16
  | 5#3 => .ok .i8 | _ => .error .badElemType

/-- An agent code of `tokset` (R302): 5-7 are illegal. -/
def agentOf (v : BitVec 3) : Except DecodeError Agent :=
  match v with
  | 0#3 => .ok .S | 1#3 => .ok .F | 2#3 => .ok .V | 3#3 => .ok .M | 4#3 => .ok .P
  | _ => .error .operandNotAccepted

/-- The operation of `pool.red` in FLG (R200): 0b011 and bit 2 are illegal. -/
def redOf (v : BitVec 3) : Except DecodeError RedOp :=
  match v with
  | 0#3 => .ok .add | 1#3 => .ok .min | 2#3 => .ok .max | _ => .error .operandNotAccepted

/-- The classes of `kill` (R64): 0x07-0x3F are reserved. -/
def killOf (v : BitVec 6) : Except DecodeError KillClass :=
  match v with
  | 0#6 => .ok .sLow | 1#6 => .ok .sHigh | 2#6 => .ok .pLow | 3#6 => .ok .pHigh | 4#6 => .ok .h
  | 5#6 => .ok .d | 6#6 => .ok .q | _ => .error .operandNotAccepted

/-- The control-register numbers of R97. -/
def cselOf (v : BitVec 12) : Except DecodeError CReg :=
  match v with
  | 0x000#12 => .ok .fpctl
  | 0x001#12 => .ok .fpstat
  | 0x002#12 => .ok .srlfsr
  | 0x010#12 => .ok .blockId
  | 0x011#12 => .ok .gangDim
  | 0x012#12 => .ok .coreId
  | 0x013#12 => .ok .worldId
  | 0x014#12 => .ok .slipDepth
  | 0x015#12 => .ok .bankSide
  | 0x016#12 => .ok .trapVec
  | 0x017#12 => .ok .svcRing
  | 0x018#12 => .ok .svcCtr
  | 0x020#12 => .ok .taintFloor
  | 0x021#12 => .ok .taintPend
  | 0x022#12 => .ok .loadTags
  | 0x023#12 => .ok .ctlTaint
  | 0x024#12 => .ok .deadMode
  | 0x030#12 => .ok .trapPc
  | 0x031#12 => .ok .trapCause
  | 0x032#12 => .ok .trapInfo
  | _ => .error .noControlRegister

/-- The number of a control register (R97). -/
def CReg.csel : CReg → Nat
  | .fpctl => 0x000
  | .fpstat => 0x001
  | .srlfsr => 0x002
  | .blockId => 0x010
  | .gangDim => 0x011
  | .coreId => 0x012
  | .worldId => 0x013
  | .slipDepth => 0x014
  | .bankSide => 0x015
  | .trapVec => 0x016
  | .svcRing => 0x017
  | .svcCtr => 0x018
  | .taintFloor => 0x020
  | .taintPend => 0x021
  | .loadTags => 0x022
  | .ctlTaint => 0x023
  | .deadMode => 0x024
  | .trapPc => 0x030
  | .trapCause => 0x031
  | .trapInfo => 0x032

/-- Refuse unless `c` holds. -/
def need (c : Bool) (e : DecodeError) : Except DecodeError Unit := if c then .ok () else .error e

/-- The last check of a decoding: what the instruction accepts (R69, R73). -/
def accept (i : Instr) : Except DecodeError Instr :=
  if i.wf then .ok i else .error .operandNotAccepted

/-! ## 32-bit formats (R63, R70) -/

/-- Register arithmetic, major 0x01 (R106). -/
def arithOf (mi : Nat) (sd sa sb : SReg) : Except DecodeError Instr :=
  match mi with
  | 0 => .ok (.add sd sa sb)
  | 1 => .ok (.sub sd sa sb)
  | 2 => .ok (.mul sd sa sb)
  | 3 => .ok (.mulhI64 sd sa sb)
  | 4 => .ok (.mulhN64 sd sa sb)
  | 5 => .ok (.divI64 sd sa sb)
  | 6 => .ok (.divN64 sd sa sb)
  | 7 => .ok (.remI64 sd sa sb)
  | 8 => .ok (.remN64 sd sa sb)
  | 9 => .ok (.and sd sa sb)
  | 10 => .ok (.or sd sa sb)
  | 11 => .ok (.xor sd sa sb)
  | 12 => .ok (.shl sd sa sb)
  | 13 => .ok (.shr sd sa sb)
  | 14 => .ok (.sar sd sa sb)
  | 15 => .ok (.minI64 sd sa sb)
  | 16 => .ok (.minN64 sd sa sb)
  | 17 => .ok (.maxI64 sd sa sb)
  | 18 => .ok (.maxN64 sd sa sb)
  | _ => .error .unassignedMinor

/-- Compares, major 0x02 (R110). -/
def psetOf (mi : Nat) (pd : PReg) (sa sb : SReg) : Except DecodeError Instr :=
  match mi with
  | 0 => accept (.psetEq pd sa sb)
  | 1 => accept (.psetNe pd sa sb)
  | 2 => accept (.psetLtI64 pd sa sb)
  | 3 => accept (.psetLtN64 pd sa sb)
  | 4 => accept (.psetGeI64 pd sa sb)
  | 5 => accept (.psetGeN64 pd sa sb)
  | _ => .error .unassignedMinor

/-- Predicate logic, major 0x03 (R111). -/
def plogOf (mi : Nat) (pd pa pb : PReg) : Except DecodeError Instr :=
  match mi with
  | 0 => accept (.pand pd pa pb)
  | 1 => accept (.por pd pa pb)
  | 2 => accept (.pxor pd pa pb)
  | 3 => if pb == 0 then accept (.pnot pd pa) else .error .reservedField
  | 4 => accept (.pandn pd pa pb)
  | _ => .error .unassignedMinor

/-- Control transfers and `nop`, major 0x23 (R113, R126). -/
def ctlOf (mi : Nat) (sd sa sb : SReg) : Except DecodeError Instr :=
  match mi with
  | 0 => if sd == 0 && sa == 0 && sb == 0 then .ok .ret else .error .reservedField
  | 1 => if sd == 0 && sb == 0 then .ok (.bp sa) else .error .reservedField
  | 2 => if sd == 0 && sb == 0 then .ok (.callr sa) else .error .reservedField
  | 3 =>
    if sd == 0 && sb == 0 && sa == 0 then .ok .tret
    else if sd == 0 && sb == 0 && sa == 1 then .ok .tretSkip
    else .error .reservedField
  | 4 => if sd == 0 && sa == 0 && sb == 0 then .ok .nop else .error .reservedField
  | _ => .error .unassignedMinor

/-- A scope in SA[2:0], SA[5:3] zero (R231, R302). -/
def scopeField (sa : SReg) : Except DecodeError Scope := do
  need (sa.toNat < 8) .reservedField
  scopeOf (sa.setWidth 3)

/-- Ordering and taint, major 0x28 (R231, R232, R236, R237). -/
def ordOf (mi : Nat) (sd sa sb : SReg) : Except DecodeError Instr := do
  need (sd == 0 && sb == 0) .reservedField
  match mi with
  | 0 => accept (.fence (← scopeField sa))
  | 1 => if sa == 0 then .ok .xfence else .error .reservedField
  | 2 => .ok (.untaint sa)
  | 3 => if sa == 0 then .ok .tfold else .error .reservedField
  | _ => .error .unassignedMinor

/-- Squares, major 0x29 (R199). -/
def squareOf (mi : Nat) (sd sa sb : SReg) : Except DecodeError Instr := do
  need (sd == 0 && sb == 0) .reservedField
  match mi with
  | 0 => .ok (.give sa)
  | 1 => .ok (.take sa)
  | 2 => .ok (.guard sa)
  | 3 => .ok (.unguard sa)
  | _ => .error .unassignedMinor

/-- Queues, major 0x2A (R242, R244, R245). -/
def queueOf (mi : Nat) (sd sa sb : SReg) : Except DecodeError Instr := do
  need (sd == 0 && sb == 0) .reservedField
  match mi with
  | 0 => accept (.slip sa)
  | 1 => do
    need (sa.toNat < 16) .reservedField
    accept (.drain (sa.setWidth 4))
  | 2 => if sa == 0 then .ok .exit else .error .reservedField
  | _ => .error .unassignedMinor

/-- Counters, major 0x2B (R302). -/
def countOf (mi : Nat) (sd sa sb : SReg) : Except DecodeError Instr :=
  match mi with
  | 0 => if sd == 0 && sb == 0 && sa.toNat < 16 then .ok (.tokw (sa.setWidth 4)) else .error .reservedField
  | 1 => if sd == 0 && sb == 0 && sa.toNat < 16 then .ok (.toks (sa.setWidth 4)) else .error .reservedField
  | 2 =>
    if sb == 0 && sa == 0 then .ok (.tick sd)
    else if sb == 1 then .ok (.tickDc sd sa)
    else .error .reservedField
  | 3 => if sa == 0 && sb == 0 then .ok (.turn sd) else .error .reservedField
  | 4 => if sd == 0 && sb == 0 then .ok (.turnw sa) else .error .reservedField
  | 5 => do
    need (sd == 0 && sb == 0) .reservedField
    accept (.arrive (← scopeField sa))
  | 6 => do
    need (sd == 0 && sb == 0) .reservedField
    accept (.bwait (← scopeField sa))
  | _ => .error .unassignedMinor

/-- A 32-bit instruction (R63, R70). -/
def decode32 (w : Word) : Except DecodeError Instr :=
  let sd := fld w 8 6
  let sa := fld w 14 6
  let sb := fld w 20 6
  let mi := (fld w 26 6).toNat
  let imm := fld w 20 12
  let off := fld w 22 10
  if fld w 0 2 != 0#2 then .error .lengthBits else
  match (fld w 2 6).toNat with
  | 0x01 => arithOf mi sd sa sb
  | 0x02 => psetOf mi sd sa sb
  | 0x03 => plogOf mi sd sa sb
  | 0x04 => accept (.sel (fld w 26 6) sd sa sb)
  | 0x05 => .ok (.addImm sd sa imm)
  | 0x06 => .ok (.andImm sd sa imm)
  | 0x07 => .ok (.orImm sd sa imm)
  | 0x08 => .ok (.xorImm sd sa imm)
  | 0x09 => if mi == 0 then .ok (.shlImm sd sa sb) else .error .reservedField
  | 0x0A => if mi == 0 then .ok (.shrImm sd sa sb) else .error .reservedField
  | 0x0B => if mi == 0 then .ok (.sarImm sd sa sb) else .error .reservedField
  | 0x0C => .ok (.li sd (fld w 14 18))
  | 0x10 => do .ok (.ldI8 sd (← levelOf (fld w 20 2)) sa off)
  | 0x11 => do .ok (.ldI16 sd (← levelOf (fld w 20 2)) sa off)
  | 0x12 => do .ok (.ldI32 sd (← levelOf (fld w 20 2)) sa off)
  | 0x13 => do .ok (.ldI64 sd (← levelOf (fld w 20 2)) sa off)
  | 0x14 => do .ok (.ldN8 sd (← levelOf (fld w 20 2)) sa off)
  | 0x15 => do .ok (.ldN16 sd (← levelOf (fld w 20 2)) sa off)
  | 0x16 => do .ok (.ldN32 sd (← levelOf (fld w 20 2)) sa off)
  | 0x17 => do .ok (.stI8 sd (← levelOf (fld w 20 2)) sa off)
  | 0x18 => do .ok (.stI16 sd (← levelOf (fld w 20 2)) sa off)
  | 0x19 => do .ok (.stI32 sd (← levelOf (fld w 20 2)) sa off)
  | 0x1A => do .ok (.stI64 sd (← levelOf (fld w 20 2)) sa off)
  | 0x1B => do .ok (.ldFf sd (← levelOf (fld w 20 2)) sa off)
  | 0x1C => do .ok (.ldFe sd (← levelOf (fld w 20 2)) sa off)
  | 0x1D => do .ok (.stEf sd (← levelOf (fld w 20 2)) sa off)
  | 0x20 => accept (.br (flg w 14) (fld w 8 6) (fld w 15 17))
  | 0x21 => if flg w 14 then .error .reservedField else .ok (.loop (fld w 8 6) (fld w 15 17))
  | 0x22 => .ok (.call (fld w 8 24))
  | 0x23 => ctlOf mi sd sa sb
  | 0x24 => do
    need (sa == 0) .reservedField
    .ok (.getc sd (← cselOf imm))
  | 0x25 => do
    need (sd == 0) .reservedField
    .ok (.setc (← cselOf imm) sa)
  | 0x26 => if fld w 16 16 == 0 then .ok (.trap (fld w 8 8)) else .error .reservedField
  | 0x28 => ordOf mi sd sa sb
  | 0x29 => squareOf mi sd sa sb
  | 0x2A => queueOf mi sd sa sb
  | 0x2B => countOf mi sd sa sb
  | _ => .error .unassignedMajor

/-! ## 64-bit strand formats (R64, R71) -/

/-- The fields of format X (R64). -/
structure XFields where
  minor : Nat
  sd : SReg
  sa : SReg
  sb : SReg
  imm : BitVec 18
  sc : SReg
  xb : BitVec 4
  xa : BitVec 4
  deriving DecidableEq, Repr

/-- The fields of format X in two words (R64). -/
def xFields (w0 w1 : Word) : XFields :=
  { minor := (fld w0 8 6).toNat, sd := fld w0 14 6, sa := fld w0 20 6, sb := fld w0 26 6,
    imm := fld w1 14 18, sc := fld w1 8 6, xb := fld w1 4 4, xa := fld w1 0 4 }

/-- Object elements, major 0x04 (R192). -/
def objOf (x : XFields) : Except DecodeError Instr :=
  if x.xb != 0 then .error .reservedField else
  if x.minor == 8 then .ok (.atomCas x.sd x.xa x.sa x.imm x.sb x.sc) else
  if x.sc != 0 then .error .reservedField else
  match x.minor with
  | 0 => if x.sb == 0 then .ok (.ldo x.sd x.xa x.sa x.imm) else .error .reservedField
  | 1 => if x.sd == 0 then .ok (.sto x.xa x.sa x.imm x.sb) else .error .reservedField
  | 2 => .ok (.atomAdd x.sd x.xa x.sa x.imm x.sb)
  | 3 => .ok (.atomMinI64 x.sd x.xa x.sa x.imm x.sb)
  | 4 => .ok (.atomMinN64 x.sd x.xa x.sa x.imm x.sb)
  | 5 => .ok (.atomMaxI64 x.sd x.xa x.sa x.imm x.sb)
  | 6 => .ok (.atomMaxN64 x.sd x.xa x.sa x.imm x.sb)
  | 7 => .ok (.atomXchg x.sd x.xa x.sa x.imm x.sb)
  | 9 => .ok (.atomIncb x.sd x.xa x.sa x.imm x.sb)
  | _ => .error .unassignedMinor

/-- Handles and leases, major 0x05 (R291-R293). -/
def handleOf (x : XFields) : Except DecodeError Instr := do
  need (x.sc == 0 && x.xb == 0) .reservedField
  match x.minor with
  | 0 => if x.sd == 0 && x.sb == 0 && x.imm == 0 then .ok (.hopen x.xa x.sa) else .error .reservedField
  | 1 =>
    if x.sa == 0 && x.sb == 0 && x.imm == 0 then .ok (.hget x.sd x.xa) else .error .reservedField
  | 2 =>
    if x.sd == 0 && x.sa == 0 && x.sb == 0 && x.imm == 0 then .ok (.hdrop x.xa) else .error .reservedField
  | 3 =>
    if x.sa == 0 && x.sb == 0 && x.imm.toNat < 16 then
      .ok (.hstat x.sd x.xa (x.imm.getLsbD 3) (x.imm.setWidth 3))
    else .error .reservedField
  | 4 =>
    if x.imm.toNat < 4 then .ok (.lease x.sd x.xa x.sa x.sb (x.imm.getLsbD 0) (x.imm.getLsbD 1))
    else .error .reservedField
  | 5 => if x.sd == 0 && x.sb == 0 && x.imm == 0 then .ok (.unlease x.xa x.sa) else .error .reservedField
  | _ => .error .unassignedMinor

/-- The word named by `mwait`: a level in SC[1:0] with XA zero, or the object in XA (R302). -/
def mwaitLocOf (sc : SReg) (xa : BitVec 4) : Except DecodeError MwaitLoc := do
  need (sc.toNat < 4) .reservedField
  if sc == 3 then .ok (.object xa)
  else do
    need (xa == 0) .reservedField
    .ok (.level (← levelOf (sc.setWidth 2)))

/-- Counters and synchronisation, major 0x06 (R302). -/
def syncOf (x : XFields) : Except DecodeError Instr := do
  need (x.xb == 0) .reservedField
  if x.minor == 4 then .ok (.mwait x.sd (← mwaitLocOf x.sc x.xa) x.sa x.imm x.sb)
  else do
    need (x.sc == 0) .reservedField
    match x.minor with
    | 0 => if x.sa == 0 && x.sb == 0 && x.imm == 0 then .ok (.publish x.sd x.xa) else .error .reservedField
    | 1 => if x.sb == 0 && x.imm == 0 then .ok (.subscribe x.sd x.xa x.sa) else .error .reservedField
    | 2 => if x.sa == 0 && x.sb == 0 && x.imm == 0 then .ok (.ver x.sd x.xa) else .error .reservedField
    | 3 => do
      need (x.sd == 0 && x.sa == 0 && x.sb == 0 && x.imm.toNat < 16384) .reservedField
      .ok (.tokset x.xa (← agentOf (x.imm.setWidth 3)) (← agentOf (x.imm.extractLsb' 3 3))
        (x.imm.extractLsb' 6 8))
    | 5 => .ok (.watch x.sd x.xa x.sa x.imm x.sb)
    | 6 =>
      if x.sd == 0 && x.sb == 0 && x.xa == 0 && x.imm == 0 then .ok (.unwatch x.sa) else .error .reservedField
    | _ => .error .unassignedMinor

/-- Banks and step bindings, major 0x08 (R164, R168, R169, R171). -/
def stepOf (x : XFields) : Except DecodeError Instr := do
  need (x.sc == 0) .reservedField
  match x.minor with
  | 0 => do
    need (x.sd == 0 && x.sa == 0 && x.sb == 0 && x.xb == 0 && x.imm.toNat < 2) .reservedField
    .ok (.lend x.xa (x.imm.getLsbD 0))
  | 1 => do
    need (x.sd.toNat < 8) .reservedField
    .ok (.sbind (x.sd.setWidth 3) x.xa x.xb x.sa x.sb x.imm)
  | 2 => do
    need (x.sb == 0 && x.xb == 0 && x.imm == 0) .reservedField
    need (x.xa.toNat < 8) .operandNotAccepted
    accept (.sgate x.sd x.sa (x.xa.setWidth 3))
  | 3 => do
    need (x.sb == 0 && x.xb == 0) .reservedField
    need (x.xa.toNat < 8) .operandNotAccepted
    accept (.smap x.sd (x.xa.setWidth 3) x.imm x.sa)
  | 4 => do
    need (x.sd == 0 && x.sa == 0 && x.sb == 0 && x.xb == 0 && x.imm == 0) .reservedField
    need (x.xa.toNat < 8) .operandNotAccepted
    .ok (.sstep (x.xa.setWidth 3))
  | _ => .error .unassignedMinor

/-- Register images, major 0x0A (R198). -/
def imageOf (x : XFields) : Except DecodeError Instr := do
  need (x.sd == 0 && x.sb == 0 && x.sc == 0 && x.xb == 0) .reservedField
  match x.minor with
  | 0 => .ok (.dld x.xa x.sa x.imm)
  | 1 => .ok (.dst x.xa x.sa x.imm)
  | 2 => do
    need (x.xa.toNat < 8) .operandNotAccepted
    .ok (.qld (x.xa.setWidth 3) x.sa x.imm)
  | 3 => do
    need (x.xa.toNat < 8) .operandNotAccepted
    .ok (.qst (x.xa.setWidth 3) x.sa x.imm)
  | _ => .error .unassignedMinor

/-! ## Engine commands (R66-R68, R71, R72) -/

/-- A token field with its valid bit: the number is zero where the bit is 0 (R66). -/
def tokenOf (valid : Bool) (k : BitVec 4) : Except DecodeError (Option (BitVec 4)) :=
  if valid then .ok (some k) else if k == 0 then .ok none else .error .reservedField

/-- The header of word 0 (R66). -/
def hdrOf (w0 : Word) : Except DecodeError Hdr := do
  let wait ← tokenOf (flg w0 14) (fld w0 15 4)
  let sig ← tokenOf (flg w0 19) (fld w0 20 4)
  .ok { de := flg w0 31, pn := flg w0 30, p := fld w0 24 6, wait := wait, sig := sig }

/-- The fields of template T (R68). -/
structure TFields where
  flg : BitVec 3
  sx : SReg
  xb : BitVec 4
  lv : BitVec 2
  si : SReg
  q : BitVec 3
  ds : BitVec 4
  ha : BitVec 4
  deriving DecidableEq, Repr

/-- Word 1 in template T (R68). -/
def tFields (w : Word) : TFields :=
  { flg := fld w 29 3, sx := fld w 23 6, xb := fld w 19 4, lv := fld w 17 2, si := fld w 11 6,
    q := fld w 8 3, ds := fld w 4 4, ha := fld w 0 4 }

/-- F commands, major 0x10/0x11 (R200). -/
def fetchOf (mi : Nat) (h : Hdr) (x : TFields) : Except DecodeError Instr :=
  match mi with
  | 0 => do
    need (x.flg == 0 && x.xb == 0) .reservedField
    accept (.fetch h ⟨x.sx, ← levelOf x.lv, x.si, x.q, x.ds, x.ha⟩)
  | 1 => do
    need (x.flg == 0 && x.sx == 0 && x.lv == 0) .reservedField
    accept (.fetchIx h x.xb x.si x.q x.ds x.ha)
  | 2 => do
    need (x.flg == 0 && x.lv == 0) .reservedField
    need (x.xb.toNat < 8) .operandNotAccepted
    accept (.fetchStep h x.sx (x.xb.setWidth 3) x.si x.q x.ds x.ha)
  | 3 => do
    need (x.flg.toNat < 4 && x.q == 0 && x.ha == 0) .reservedField
    accept (.relay h (← levelOf (x.flg.setWidth 2)) x.sx x.xb (← levelOf x.lv) x.si x.ds)
  | _ => .error .unassignedMinor

/-- P commands, major 0x12/0x13 (R170, R200). -/
def putOf (mi : Nat) (h : Hdr) (x : TFields) : Except DecodeError Instr :=
  match mi with
  | 0 => do
    need (x.flg == 0 && x.xb == 0) .reservedField
    accept (.put h ⟨x.sx, ← levelOf x.lv, x.si, x.q, x.ds, x.ha⟩)
  | 1 => do
    need (x.flg == 0 && x.xb == 0) .reservedField
    accept (.putAdd h ⟨x.sx, ← levelOf x.lv, x.si, x.q, x.ds, x.ha⟩)
  | 2 => do
    need (x.flg == 0 && x.lv == 0 && x.q == 0 && x.ha == 0) .reservedField
    accept (.xcopy h x.sx x.xb x.si x.ds)
  | 3 => do
    need (x.flg == 0 && x.xb == 0 && x.lv == 0 && x.ds == 0) .reservedField
    accept (.poolFill h x.sx x.si x.q x.ha)
  | 4 => do
    need (x.flg == 0 && x.lv == 0 && x.ds == 0) .reservedField
    accept (.poolCopy h x.sx x.xb x.si x.q x.ha)
  | 5 => do
    need (x.flg == 0 && x.lv == 0) .reservedField
    accept (.poolCmp h x.sx x.xb x.si x.q x.ds x.ha)
  | 6 => do
    need (x.lv == 0 && x.ds == 0) .reservedField
    accept (.poolRed h (← redOf x.flg) x.sx x.xb x.si x.q x.ha)
  | 7 => do
    need (x.flg == 0 && x.sx == 0 && x.lv == 0 && x.q == 0 && x.ha == 0) .reservedField
    need (x.xb.toNat < 8) .operandNotAccepted
    accept (.sreuse h (x.xb.setWidth 3) x.si x.ds)
  | _ => .error .unassignedMinor

/-- Template M (R68) without DSX, WI and DEADI. -/
def matOf (w : Word) : MatOp :=
  { af := flg w 30, kq := fld w 16 5, dsb := fld w 8 4, dsa := fld w 4 4, td := fld w 0 4 }

/-- M commands, major 0x14/0x15 (R157). -/
def matrixOf (mi : Nat) (h : Hdr) (w : Word) : Except DecodeError Instr :=
  let o := matOf w
  let deadI := flg w 31
  let wi := fld w 21 9
  let dsx := fld w 12 4
  match mi with
  | 0 => do
    need (!deadI && wi == 0 && dsx == 0) .reservedField
    accept (.mmul h o)
  | 1 => do
    need (dsx == 0) .reservedField
    accept (.mmulG h o deadI wi)
  | 2 => do
    need (!deadI && wi == 0) .reservedField
    accept (.mmulS h o dsx)
  | 3 => do
    need (fld w 4 28 == 0) .reservedField
    accept (.mzero h o.td)
  | 4 => do
    need (!deadI && wi == 0 && dsx == 0 && o.dsb == 0 && o.kq.toNat < 2) .reservedField
    accept (.mxpack h o.af (o.kq == 1) o.dsa o.td)
  | _ => .error .unassignedMinor

/-- Template VA (R68). -/
def vaOf (w : Word) : Except DecodeError VaOp := do
  .ok { deadB := flg w 31, deadA := flg w 30, t := ← elemTOf (fld w 27 3), wb := fld w 18 9, wa := fld w 9 9,
        wd := fld w 0 9 }

/-- Vector arithmetic, major 0x16/0x17 (R72). -/
def vectorOf (mi : Nat) (h : Hdr) (o : VaOp) : Except DecodeError Instr :=
  match mi with
  | 0x00 => accept (.vadd h o)
  | 0x01 => accept (.vsub h o)
  | 0x02 => accept (.vmul h o)
  | 0x03 => accept (.vfma h o)
  | 0x04 => accept (.vmax h o)
  | 0x05 => accept (.vmin h o)
  | 0x06 => accept (.vmaxN h o)
  | 0x07 => accept (.vminN h o)
  | 0x08 => accept (.vabs h o)
  | 0x09 => accept (.vneg h o)
  | 0x0A => accept (.vexp2 h o)
  | 0x0B => accept (.vrcp h o)
  | 0x0C => accept (.vrsqrt h o)
  | 0x0D => accept (.vand h o)
  | 0x0E => accept (.vor h o)
  | 0x0F => accept (.vxor h o)
  | 0x10 => accept (.vshl h o)
  | 0x11 => accept (.vshr h o)
  | 0x12 => accept (.vsar h o)
  | 0x13 => accept (.vsel h o)
  | 0x14 => accept (.vcmpEq h o)
  | 0x15 => accept (.vcmpNe h o)
  | 0x16 => accept (.vcmpLt h o)
  | 0x17 => accept (.vcmpGe h o)
  | 0x18 => accept (.vcmpLtN h o)
  | 0x19 => accept (.vcmpGeN h o)
  | 0x1A => accept (.vredAdd h o)
  | 0x1B => accept (.vredMax h o)
  | 0x1C => accept (.vredMin h o)
  | 0x1D => accept (.vredMaxN h o)
  | 0x1E => accept (.vredMinN h o)
  | 0x1F => accept (.vmov h o)
  | 0x20 => accept (.vaddSat h o)
  | 0x21 => accept (.vaddSatN h o)
  | 0x22 => accept (.vsubSat h o)
  | 0x23 => accept (.vsubSatN h o)
  | 0x24 => accept (.vredAddN h o)
  | _ => .error .unassignedMinor

/-- Vector data, major 0x18/0x19, with the fields of the table of R68. -/
def vdataOf (mi : Nat) (h : Hdr) (w : Word) : Except DecodeError Instr :=
  let b31 := flg w 31
  let dead := flg w 30
  let sa := fld w 9 6
  let wa := fld w 9 9
  let wd := fld w 0 9
  match mi with
  | 0 => do
    need (!b31 && !dead) .reservedField
    accept (.vld h (fld w 15 15) sa wd)
  | 1 => do
    need (!b31) .reservedField
    accept (.vst h dead (fld w 15 15) sa wd)
  | 2 => do
    need (!b31) .reservedField
    accept (.vcvt h dead (fld w 28 2) (fld w 23 5) (fld w 18 5) wa wd)
  | 3 => do
    need (!b31 && !dead && fld w 15 12 == 0) .reservedField
    accept (.vbcast h (← elemTOf (fld w 27 3)) sa wd)
  | 4 => do
    need (!b31 && fld w 18 12 == 0 && fld w 3 6 == 0) .reservedField
    accept (.vxset h dead wa (fld w 0 3))
  | 5 => do
    need (!b31 && fld w 21 6 == 0) .reservedField
    accept (.vperm h dead (← elemTOf (fld w 27 3)) (fld w 18 3) wa wd)
  | 6 => do
    need (!b31 && !flg w 26) .reservedField
    accept (.vtopk h dead (← elemTOf (fld w 27 3)) (fld w 18 8) wa wd)
  | 7 => do
    need (!b31 && fld w 25 2 == 0 && fld w 6 3 == 0) .reservedField
    accept (.vext h dead (← elemTOf (fld w 27 3)) (fld w 18 7) wa (fld w 0 6))
  | 8 => do
    need (!b31 && !dead && fld w 25 2 == 0 && fld w 15 3 == 0) .reservedField
    accept (.vins h (← elemTOf (fld w 27 3)) (fld w 18 7) sa wd)
  | _ => .error .unassignedMinor

/-- The command of one engine major's blocking form (R71). -/
def engineOf (maj : Nat) (mi : Nat) (h : Hdr) (w1 : Word) : Except DecodeError Instr :=
  match maj with
  | 0x10 => fetchOf mi h (tFields w1)
  | 0x12 => putOf mi h (tFields w1)
  | 0x14 => matrixOf mi h w1
  | 0x16 => do vectorOf mi h (← vaOf w1)
  | 0x18 => vdataOf mi h w1
  | _ => .error .unassignedMajor

/-- An engine command in its blocking or its non-blocking form (R66, R67). -/
def commandOf (maj : Nat) (w0 w1 : Word) : Except DecodeError Instr := do
  let h ← hdrOf w0
  let mi := (fld w0 8 6).toNat
  if maj % 2 == 0 then engineOf maj mi h w1
  else do
    need (!h.pn) .reservedField
    let c ← engineOf (maj - 1) mi { h with p := 0 } w1
    accept (.nonblockingDispatch h.p c)

/-- A 64-bit instruction (R64, R71). -/
def decode64 (w0 w1 : Word) : Except DecodeError Instr :=
  let maj := (fld w0 2 6).toNat
  let x := xFields w0 w1
  if fld w0 0 2 != 3#2 then .error .lengthBits else
  match maj with
  | 0x01 =>
    if fld w0 20 12 != 0 then .error .reservedField else
    match x.minor with
    | 0 => .ok (.liImm32 x.sd w1)
    | 1 => .ok (.lui x.sd w1)
    | _ => .error .unassignedMinor
  | 0x02 =>
    if fld w0 14 18 != 0 then .error .reservedField else do
    accept (.kill (← killOf (fld w0 8 6)) w1)
  | 0x03 =>
    if flg w0 31 || fld w0 8 16 != 0 then .error .reservedField else do
    accept (.predicatedInstruction (flg w0 30) (fld w0 24 6) (← decode32 w1))
  | 0x04 => objOf x
  | 0x05 => handleOf x
  | 0x06 => syncOf x
  | 0x07 =>
    if x.minor != 0 then .error .unassignedMinor
    else if x.sc == 0 && x.xa == 0 && x.xb == 0 && x.imm == 0 then .ok (.launch x.sd x.sa x.sb)
    else .error .reservedField
  | 0x08 => stepOf x
  | 0x09 =>
    if x.minor != 0 then .error .unassignedMinor
    else if x.sb == 0 && x.sc == 0 && x.xa == 0 && x.xb == 0 then .ok (.cbtok x.sd x.sa x.imm)
    else .error .reservedField
  | 0x0A => imageOf x
  | _ => if 0x10 ≤ maj && maj ≤ 0x19 then commandOf maj w0 w1 else .error .unassignedMajor

/-- The length in bytes that bits [1:0] of the first word give (R61): 8 for 0b11, otherwise 4. -/
def lengthOf (w0 : Word) : Nat := if fld w0 0 2 == 3#2 then 8 else 4

/-- An instruction from its first word and, where it is 64 bits long, its second. -/
def decodeWords (w0 w1 : Word) : Except DecodeError Instr :=
  if fld w0 0 2 == 3#2 then decode64 w0 w1 else decode32 w0

/-- A little-endian word from four bytes (R7). -/
def wordOf (b0 b1 b2 b3 : Byte) : Word :=
  BitVec.ofNat 32 (b0.toNat + b1.toNat * 2 ^ 8 + b2.toNat * 2 ^ 16 + b3.toNat * 2 ^ 24)

/-- The four bytes of a word, lowest address first (R7). -/
def bytesOf (w : Word) : List Byte := [fld w 0 8, fld w 8 8, fld w 16 8, fld w 24 8]

/-- The decoder on bytes, lowest address first: the instruction and the bytes behind it, or why there is none. -/
def decode : List Byte → Except DecodeError (Instr × List Byte)
  | b0 :: b1 :: b2 :: b3 :: rest =>
    let w0 := wordOf b0 b1 b2 b3
    if fld w0 0 2 == 3#2 then
      match rest with
      | b4 :: b5 :: b6 :: b7 :: rest' =>
        match decode64 w0 (wordOf b4 b5 b6 b7) with
        | .ok i => .ok (i, rest')
        | .error e => .error e
      | _ => .error .tooShort
    else
      match decode32 w0 with
      | .ok i => .ok (i, rest)
      | .error e => .error e
  | _ => .error .tooShort

/-- What the decoder reads from an instruction of at least nbits bits of value w, numbered as spec/opcode_table.json
numbers them: bit 0 is the least significant bit of the first word, and the bits above nbits are zero. -/
def decodeTableWord (nbits w : Nat) : Option Instr :=
  let v := w % 2 ^ nbits
  match decode (bytesOf (BitVec.ofNat 32 v) ++ bytesOf (BitVec.ofNat 32 (v / 2 ^ 32))) with
  | .ok (i, _) => some i
  | .error _ => none

/-! ## The encoder -/

/-- Format A and AP (R63). -/
def encA (maj mi : Nat) (sd sa sb : SReg) : Word :=
  BitVec.ofNat 32 (maj * 2 ^ 2 + sd.toNat * 2 ^ 8 + sa.toNat * 2 ^ 14 + sb.toNat * 2 ^ 20 + mi * 2 ^ 26)

/-- Format I and C (R63). -/
def encI (maj : Nat) (sd sa : SReg) (imm : BitVec 12) : Word :=
  BitVec.ofNat 32 (maj * 2 ^ 2 + sd.toNat * 2 ^ 8 + sa.toNat * 2 ^ 14 + imm.toNat * 2 ^ 20)

/-- Format M (R63). -/
def encM (maj : Nat) (sd : SReg) (lv : Level) (sa : SReg) (off : BitVec 10) : Word :=
  BitVec.ofNat 32
    (maj * 2 ^ 2 + sd.toNat * 2 ^ 8 + sa.toNat * 2 ^ 14 + lv.code * 2 ^ 20 + off.toNat * 2 ^ 22)

/-- Format B (R63). -/
def encB (maj : Nat) (p : BitVec 6) (n : Bool) (off : BitVec 17) : Word :=
  BitVec.ofNat 32 (maj * 2 ^ 2 + p.toNat * 2 ^ 8 + bit n * 2 ^ 14 + off.toNat * 2 ^ 15)

/-- The word of a 32-bit instruction (R63, R70). -/
def encode32 : Instr → Option Word
  | .add sd sa sb => some (encA 0x01 0 sd sa sb)
  | .sub sd sa sb => some (encA 0x01 1 sd sa sb)
  | .mul sd sa sb => some (encA 0x01 2 sd sa sb)
  | .mulhI64 sd sa sb => some (encA 0x01 3 sd sa sb)
  | .mulhN64 sd sa sb => some (encA 0x01 4 sd sa sb)
  | .divI64 sd sa sb => some (encA 0x01 5 sd sa sb)
  | .divN64 sd sa sb => some (encA 0x01 6 sd sa sb)
  | .remI64 sd sa sb => some (encA 0x01 7 sd sa sb)
  | .remN64 sd sa sb => some (encA 0x01 8 sd sa sb)
  | .and sd sa sb => some (encA 0x01 9 sd sa sb)
  | .or sd sa sb => some (encA 0x01 10 sd sa sb)
  | .xor sd sa sb => some (encA 0x01 11 sd sa sb)
  | .shl sd sa sb => some (encA 0x01 12 sd sa sb)
  | .shr sd sa sb => some (encA 0x01 13 sd sa sb)
  | .sar sd sa sb => some (encA 0x01 14 sd sa sb)
  | .minI64 sd sa sb => some (encA 0x01 15 sd sa sb)
  | .minN64 sd sa sb => some (encA 0x01 16 sd sa sb)
  | .maxI64 sd sa sb => some (encA 0x01 17 sd sa sb)
  | .maxN64 sd sa sb => some (encA 0x01 18 sd sa sb)
  | .psetEq pd sa sb => some (encA 0x02 0 pd sa sb)
  | .psetNe pd sa sb => some (encA 0x02 1 pd sa sb)
  | .psetLtI64 pd sa sb => some (encA 0x02 2 pd sa sb)
  | .psetLtN64 pd sa sb => some (encA 0x02 3 pd sa sb)
  | .psetGeI64 pd sa sb => some (encA 0x02 4 pd sa sb)
  | .psetGeN64 pd sa sb => some (encA 0x02 5 pd sa sb)
  | .pand pd pa pb => some (encA 0x03 0 pd pa pb)
  | .por pd pa pb => some (encA 0x03 1 pd pa pb)
  | .pxor pd pa pb => some (encA 0x03 2 pd pa pb)
  | .pnot pd pa => some (encA 0x03 3 pd pa 0)
  | .pandn pd pa pb => some (encA 0x03 4 pd pa pb)
  | .sel p sd sa sb => some (encA 0x04 p.toNat sd sa sb)
  | .addImm sd sa imm => some (encI 0x05 sd sa imm)
  | .andImm sd sa imm => some (encI 0x06 sd sa imm)
  | .orImm sd sa imm => some (encI 0x07 sd sa imm)
  | .xorImm sd sa imm => some (encI 0x08 sd sa imm)
  | .shlImm sd sa count => some (encA 0x09 0 sd sa count)
  | .shrImm sd sa count => some (encA 0x0A 0 sd sa count)
  | .sarImm sd sa count => some (encA 0x0B 0 sd sa count)
  | .li sd imm => some (BitVec.ofNat 32 (0x0C * 2 ^ 2 + sd.toNat * 2 ^ 8 + imm.toNat * 2 ^ 14))
  | .ldI8 sd lv sa off => some (encM 0x10 sd lv sa off)
  | .ldI16 sd lv sa off => some (encM 0x11 sd lv sa off)
  | .ldI32 sd lv sa off => some (encM 0x12 sd lv sa off)
  | .ldI64 sd lv sa off => some (encM 0x13 sd lv sa off)
  | .ldN8 sd lv sa off => some (encM 0x14 sd lv sa off)
  | .ldN16 sd lv sa off => some (encM 0x15 sd lv sa off)
  | .ldN32 sd lv sa off => some (encM 0x16 sd lv sa off)
  | .stI8 sd lv sa off => some (encM 0x17 sd lv sa off)
  | .stI16 sd lv sa off => some (encM 0x18 sd lv sa off)
  | .stI32 sd lv sa off => some (encM 0x19 sd lv sa off)
  | .stI64 sd lv sa off => some (encM 0x1A sd lv sa off)
  | .ldFf sd lv sa off => some (encM 0x1B sd lv sa off)
  | .ldFe sd lv sa off => some (encM 0x1C sd lv sa off)
  | .stEf sd lv sa off => some (encM 0x1D sd lv sa off)
  | .br n p off => some (encB 0x20 p n off)
  | .loop sc off => some (encB 0x21 sc false off)
  | .call off => some (BitVec.ofNat 32 (0x22 * 2 ^ 2 + off.toNat * 2 ^ 8))
  | .ret => some (encA 0x23 0 0 0 0)
  | .bp sa => some (encA 0x23 1 0 sa 0)
  | .callr sa => some (encA 0x23 2 0 sa 0)
  | .tret => some (encA 0x23 3 0 0 0)
  | .tretSkip => some (encA 0x23 3 0 1 0)
  | .nop => some (encA 0x23 4 0 0 0)
  | .getc sd cr => some (encI 0x24 sd 0 (BitVec.ofNat 12 cr.csel))
  | .setc cr sa => some (encI 0x25 0 sa (BitVec.ofNat 12 cr.csel))
  | .trap code => some (BitVec.ofNat 32 (0x26 * 2 ^ 2 + code.toNat * 2 ^ 8))
  | .fence sc => some (encA 0x28 0 0 (BitVec.ofNat 6 sc.code) 0)
  | .xfence => some (encA 0x28 1 0 0 0)
  | .untaint sa => some (encA 0x28 2 0 sa 0)
  | .tfold => some (encA 0x28 3 0 0 0)
  | .give sq => some (encA 0x29 0 0 sq 0)
  | .take sq => some (encA 0x29 1 0 sq 0)
  | .guard sq => some (encA 0x29 2 0 sq 0)
  | .unguard sq => some (encA 0x29 3 0 sq 0)
  | .slip n => some (encA 0x2A 0 0 n 0)
  | .drain mask => some (encA 0x2A 1 0 (mask.setWidth 6) 0)
  | .exit => some (encA 0x2A 2 0 0 0)
  | .tokw k => some (encA 0x2B 0 0 (k.setWidth 6) 0)
  | .toks k => some (encA 0x2B 1 0 (k.setWidth 6) 0)
  | .tick sd => some (encA 0x2B 2 sd 0 0)
  | .tickDc sd sa => some (encA 0x2B 2 sd sa 1)
  | .turn sd => some (encA 0x2B 3 sd 0 0)
  | .turnw sa => some (encA 0x2B 4 0 sa 0)
  | .arrive sc => some (encA 0x2B 5 0 (BitVec.ofNat 6 sc.code) 0)
  | .bwait sc => some (encA 0x2B 6 0 (BitVec.ofNat 6 sc.code) 0)
  | _ => none

/-- Word 0 of format X (R64). -/
def encX0 (maj mi : Nat) (sd sa sb : SReg) : Word :=
  BitVec.ofNat 32
    (3 + maj * 2 ^ 2 + mi * 2 ^ 8 + sd.toNat * 2 ^ 14 + sa.toNat * 2 ^ 20 + sb.toNat * 2 ^ 26)

/-- Word 1 of format X (R64). -/
def encX1 (imm : BitVec 18) (sc : SReg) (xb xa : BitVec 4) : Word :=
  BitVec.ofNat 32 (xa.toNat + xb.toNat * 2 ^ 4 + sc.toNat * 2 ^ 8 + imm.toNat * 2 ^ 14)

/-- Word 0 of an engine command (R66); `nb` is the result predicate of the non-blocking form (R67). -/
def encHdr (nb : Option PReg) (maj mi : Nat) (h : Hdr) : Word :=
  BitVec.ofNat 32
    (3 + (maj + bit nb.isSome) * 2 ^ 2 + mi * 2 ^ 8 + bit h.wait.isSome * 2 ^ 14
      + (h.wait.getD 0).toNat * 2 ^ 15 + bit h.sig.isSome * 2 ^ 19 + (h.sig.getD 0).toNat * 2 ^ 20
      + (nb.getD h.p).toNat * 2 ^ 24 + bit h.pn * 2 ^ 30 + bit h.de * 2 ^ 31)

/-- Word 1 in template T (R68). -/
def encT (flg : Nat) (sx : SReg) (xb : BitVec 4) (lv : Nat) (si : SReg) (q : BitVec 3) (ds ha : BitVec 4) : Word :=
  BitVec.ofNat 32
    (ha.toNat + ds.toNat * 2 ^ 4 + q.toNat * 2 ^ 8 + si.toNat * 2 ^ 11 + lv * 2 ^ 17 + xb.toNat * 2 ^ 19
      + sx.toNat * 2 ^ 23 + flg * 2 ^ 29)

/-- Word 1 in template M (R68). -/
def encMat (deadI af : Bool) (wi : WReg) (kq : BitVec 5) (dsx dsb dsa td : BitVec 4) : Word :=
  BitVec.ofNat 32
    (td.toNat + dsa.toNat * 2 ^ 4 + dsb.toNat * 2 ^ 8 + dsx.toNat * 2 ^ 12 + kq.toNat * 2 ^ 16
      + wi.toNat * 2 ^ 21 + bit af * 2 ^ 30 + bit deadI * 2 ^ 31)

/-- Word 1 in template VA (R68). -/
def encVa (o : VaOp) : Word :=
  BitVec.ofNat 32
    (o.wd.toNat + o.wa.toNat * 2 ^ 9 + o.wb.toNat * 2 ^ 18 + o.t.code * 2 ^ 27 + bit o.deadA * 2 ^ 30
      + bit o.deadB * 2 ^ 31)

/-- Word 1 in template VD: bits [8:0], [17:9], [26:18], [29:27] and the dead mark [30] (R68). -/
def encVd (lo mid hi t : Nat) (dead : Bool) : Word :=
  BitVec.ofNat 32 (lo + mid * 2 ^ 9 + hi * 2 ^ 18 + t * 2 ^ 27 + bit dead * 2 ^ 30)

/-- Word 1 of `vld` and `vst` (R68, R149). -/
def encVmem (dead : Bool) (off : BitVec 15) (sa : SReg) (wd : WReg) : Word :=
  BitVec.ofNat 32 (wd.toNat + sa.toNat * 2 ^ 9 + off.toNat * 2 ^ 15 + bit dead * 2 ^ 30)

/-- Word 1 of `vcvt` (R68, R145). -/
def encVcvt (dead : Bool) (part : BitVec 2) (sf df : BitVec 5) (wa wd : WReg) : Word :=
  BitVec.ofNat 32
    (wd.toNat + wa.toNat * 2 ^ 9 + df.toNat * 2 ^ 18 + sf.toNat * 2 ^ 23 + part.toNat * 2 ^ 28 + bit dead * 2 ^ 30)

/-- The two words of an engine command (R66-R68, R71, R72). -/
def encodeCmd (nb : Option PReg) : Instr → Option (Word × Word)
  | .fetch h o => some (encHdr nb 0x10 0 h, encT 0 o.sx 0 o.lv.code o.si o.q o.ds o.ha)
  | .fetchIx h dl si q ds ha => some (encHdr nb 0x10 1 h, encT 0 0 dl 0 si q ds ha)
  | .fetchStep h sj g si q ds ha => some (encHdr nb 0x10 2 h, encT 0 sj (g.setWidth 4) 0 si q ds ha)
  | .relay h lvs sx dd lvd si ds => some (encHdr nb 0x10 3 h, encT lvs.code sx dd lvd.code si 0 ds 0)
  | .put h o => some (encHdr nb 0x12 0 h, encT 0 o.sx 0 o.lv.code o.si o.q o.ds o.ha)
  | .putAdd h o => some (encHdr nb 0x12 1 h, encT 0 o.sx 0 o.lv.code o.si o.q o.ds o.ha)
  | .xcopy h sx dd si ds => some (encHdr nb 0x12 2 h, encT 0 sx dd 0 si 0 ds 0)
  | .poolFill h sx si q ha => some (encHdr nb 0x12 3 h, encT 0 sx 0 0 si q 0 ha)
  | .poolCopy h sx hsrc si q ha => some (encHdr nb 0x12 4 h, encT 0 sx hsrc 0 si q 0 ha)
  | .poolCmp h sx h2 si q ds ha => some (encHdr nb 0x12 5 h, encT 0 sx h2 0 si q ds ha)
  | .poolRed h op sx hsrc si q ha => some (encHdr nb 0x12 6 h, encT op.code sx hsrc 0 si q 0 ha)
  | .sreuse h g si ds => some (encHdr nb 0x12 7 h, encT 0 0 (g.setWidth 4) 0 si 0 ds 0)
  | .mmul h o => some (encHdr nb 0x14 0 h, encMat false o.af 0 o.kq 0 o.dsb o.dsa o.td)
  | .mmulG h o deadI wi => some (encHdr nb 0x14 1 h, encMat deadI o.af wi o.kq 0 o.dsb o.dsa o.td)
  | .mmulS h o dsx => some (encHdr nb 0x14 2 h, encMat false o.af 0 o.kq dsx o.dsb o.dsa o.td)
  | .mzero h td => some (encHdr nb 0x14 3 h, encMat false false 0 0 0 0 0 td)
  | .mxpack h af i32 dd td =>
    some (encHdr nb 0x14 4 h, encMat false af 0 (BitVec.ofNat 5 (bit i32)) 0 0 dd td)
  | .vadd h o => some (encHdr nb 0x16 0x00 h, encVa o)
  | .vsub h o => some (encHdr nb 0x16 0x01 h, encVa o)
  | .vmul h o => some (encHdr nb 0x16 0x02 h, encVa o)
  | .vfma h o => some (encHdr nb 0x16 0x03 h, encVa o)
  | .vmax h o => some (encHdr nb 0x16 0x04 h, encVa o)
  | .vmin h o => some (encHdr nb 0x16 0x05 h, encVa o)
  | .vmaxN h o => some (encHdr nb 0x16 0x06 h, encVa o)
  | .vminN h o => some (encHdr nb 0x16 0x07 h, encVa o)
  | .vabs h o => some (encHdr nb 0x16 0x08 h, encVa o)
  | .vneg h o => some (encHdr nb 0x16 0x09 h, encVa o)
  | .vexp2 h o => some (encHdr nb 0x16 0x0A h, encVa o)
  | .vrcp h o => some (encHdr nb 0x16 0x0B h, encVa o)
  | .vrsqrt h o => some (encHdr nb 0x16 0x0C h, encVa o)
  | .vand h o => some (encHdr nb 0x16 0x0D h, encVa o)
  | .vor h o => some (encHdr nb 0x16 0x0E h, encVa o)
  | .vxor h o => some (encHdr nb 0x16 0x0F h, encVa o)
  | .vshl h o => some (encHdr nb 0x16 0x10 h, encVa o)
  | .vshr h o => some (encHdr nb 0x16 0x11 h, encVa o)
  | .vsar h o => some (encHdr nb 0x16 0x12 h, encVa o)
  | .vsel h o => some (encHdr nb 0x16 0x13 h, encVa o)
  | .vcmpEq h o => some (encHdr nb 0x16 0x14 h, encVa o)
  | .vcmpNe h o => some (encHdr nb 0x16 0x15 h, encVa o)
  | .vcmpLt h o => some (encHdr nb 0x16 0x16 h, encVa o)
  | .vcmpGe h o => some (encHdr nb 0x16 0x17 h, encVa o)
  | .vcmpLtN h o => some (encHdr nb 0x16 0x18 h, encVa o)
  | .vcmpGeN h o => some (encHdr nb 0x16 0x19 h, encVa o)
  | .vredAdd h o => some (encHdr nb 0x16 0x1A h, encVa o)
  | .vredMax h o => some (encHdr nb 0x16 0x1B h, encVa o)
  | .vredMin h o => some (encHdr nb 0x16 0x1C h, encVa o)
  | .vredMaxN h o => some (encHdr nb 0x16 0x1D h, encVa o)
  | .vredMinN h o => some (encHdr nb 0x16 0x1E h, encVa o)
  | .vmov h o => some (encHdr nb 0x16 0x1F h, encVa o)
  | .vaddSat h o => some (encHdr nb 0x16 0x20 h, encVa o)
  | .vaddSatN h o => some (encHdr nb 0x16 0x21 h, encVa o)
  | .vsubSat h o => some (encHdr nb 0x16 0x22 h, encVa o)
  | .vsubSatN h o => some (encHdr nb 0x16 0x23 h, encVa o)
  | .vredAddN h o => some (encHdr nb 0x16 0x24 h, encVa o)
  | .vld h off sa wd => some (encHdr nb 0x18 0 h, encVmem false off sa wd)
  | .vst h dead off sa ws => some (encHdr nb 0x18 1 h, encVmem dead off sa ws)
  | .vcvt h dead part sf df wa wd => some (encHdr nb 0x18 2 h, encVcvt dead part sf df wa wd)
  | .vbcast h t sa wd => some (encHdr nb 0x18 3 h, encVd wd.toNat sa.toNat 0 t.code false)
  | .vxset h dead wa c => some (encHdr nb 0x18 4 h, encVd c.toNat wa.toNat 0 0 dead)
  | .vperm h dead t c wa wd => some (encHdr nb 0x18 5 h, encVd wd.toNat wa.toNat c.toNat t.code dead)
  | .vtopk h dead t k wa wd => some (encHdr nb 0x18 6 h, encVd wd.toNat wa.toNat k.toNat t.code dead)
  | .vext h dead t lane wa sd => some (encHdr nb 0x18 7 h, encVd sd.toNat wa.toNat lane.toNat t.code dead)
  | .vins h t lane sa wd => some (encHdr nb 0x18 8 h, encVd wd.toNat sa.toNat lane.toNat t.code false)
  | _ => none

/-- The two words of a 64-bit strand instruction (R64, R71). -/
def encodeX : Instr → Option (Word × Word)
  | .liImm32 sd imm => some (encX0 0x01 0 sd 0 0, imm)
  | .lui sd imm => some (encX0 0x01 1 sd 0 0, imm)
  | .kill cls mask => some (encX0 0x02 cls.code 0 0 0, mask)
  | .predicatedInstruction n p i =>
    match encode32 i with
    | some w => some (BitVec.ofNat 32 (3 + 0x03 * 2 ^ 2 + p.toNat * 2 ^ 24 + bit n * 2 ^ 30), w)
    | none => none
  | .ldo sd h sa imm => some (encX0 0x04 0 sd sa 0, encX1 imm 0 0 h)
  | .sto h sa imm sb => some (encX0 0x04 1 0 sa sb, encX1 imm 0 0 h)
  | .atomAdd sd h sa imm sb => some (encX0 0x04 2 sd sa sb, encX1 imm 0 0 h)
  | .atomMinI64 sd h sa imm sb => some (encX0 0x04 3 sd sa sb, encX1 imm 0 0 h)
  | .atomMinN64 sd h sa imm sb => some (encX0 0x04 4 sd sa sb, encX1 imm 0 0 h)
  | .atomMaxI64 sd h sa imm sb => some (encX0 0x04 5 sd sa sb, encX1 imm 0 0 h)
  | .atomMaxN64 sd h sa imm sb => some (encX0 0x04 6 sd sa sb, encX1 imm 0 0 h)
  | .atomXchg sd h sa imm sb => some (encX0 0x04 7 sd sa sb, encX1 imm 0 0 h)
  | .atomCas sd h sa imm sb sc => some (encX0 0x04 8 sd sa sb, encX1 imm sc 0 h)
  | .atomIncb sd h sa imm sb => some (encX0 0x04 9 sd sa sb, encX1 imm 0 0 h)
  | .hopen h sa => some (encX0 0x05 0 0 sa 0, encX1 0 0 0 h)
  | .hget sd h => some (encX0 0x05 1 sd 0 0, encX1 0 0 0 h)
  | .hdrop h => some (encX0 0x05 2 0 0 0, encX1 0 0 0 h)
  | .hstat sd h r word =>
    some (encX0 0x05 3 sd 0 0, encX1 (BitVec.ofNat 18 (word.toNat + bit r * 2 ^ 3)) 0 0 h)
  | .lease sd h sa sb add nowait =>
    some (encX0 0x05 4 sd sa sb, encX1 (BitVec.ofNat 18 (bit add + bit nowait * 2)) 0 0 h)
  | .unlease h sa => some (encX0 0x05 5 0 sa 0, encX1 0 0 0 h)
  | .publish sd h => some (encX0 0x06 0 sd 0 0, encX1 0 0 0 h)
  | .subscribe sd h sa => some (encX0 0x06 1 sd sa 0, encX1 0 0 0 h)
  | .ver sd h => some (encX0 0x06 2 sd 0 0, encX1 0 0 0 h)
  | .tokset k prod cons n =>
    some (encX0 0x06 3 0 0 0, encX1 (BitVec.ofNat 18 (prod.code + cons.code * 2 ^ 3 + n.toNat * 2 ^ 6)) 0 0 k)
  | .mwait sd (.level lv) sa imm sb => some (encX0 0x06 4 sd sa sb, encX1 imm (BitVec.ofNat 6 lv.code) 0 0)
  | .mwait sd (.object h) sa imm sb => some (encX0 0x06 4 sd sa sb, encX1 imm 3 0 h)
  | .watch sd h sa imm sb => some (encX0 0x06 5 sd sa sb, encX1 imm 0 0 h)
  | .unwatch sa => some (encX0 0x06 6 0 sa 0, encX1 0 0 0 0)
  | .launch sd sa sb => some (encX0 0x07 0 sd sa sb, encX1 0 0 0 0)
  | .lend t vec => some (encX0 0x08 0 0 0 0, encX1 (BitVec.ofNat 18 (bit vec)) 0 0 t)
  | .sbind g hin hout sth sst maxskip => some (encX0 0x08 1 (g.setWidth 6) sth sst, encX1 maxskip 0 hout hin)
  | .sgate pd sj g => some (encX0 0x08 2 pd sj 0, encX1 0 0 0 (g.setWidth 4))
  | .smap sd g field sa => some (encX0 0x08 3 sd sa 0, encX1 field 0 0 (g.setWidth 4))
  | .sstep g => some (encX0 0x08 4 0 0 0, encX1 0 0 0 (g.setWidth 4))
  | .cbtok sd sa imm => some (encX0 0x09 0 sd sa 0, encX1 imm 0 0 0)
  | .dld d sa imm => some (encX0 0x0A 0 0 sa 0, encX1 imm 0 0 d)
  | .dst d sa imm => some (encX0 0x0A 1 0 sa 0, encX1 imm 0 0 d)
  | .qld q sa imm => some (encX0 0x0A 2 0 sa 0, encX1 imm 0 0 (q.setWidth 4))
  | .qst q sa imm => some (encX0 0x0A 3 0 sa 0, encX1 imm 0 0 (q.setWidth 4))
  | .nonblockingDispatch p c => encodeCmd (some p) c
  | _ => none

/-- The words of an instruction, and nothing for an event. -/
def encode (i : Instr) : List Word :=
  match encode32 i with
  | some w => [w]
  | none =>
    match encodeX i with
    | some (w0, w1) => [w0, w1]
    | none =>
      match encodeCmd none i with
      | some (w0, w1) => [w0, w1]
      | none => []

/-- Whether the row is an instruction of the strand's stream, and not an event of the device. -/
def Instr.encoded (i : Instr) : Bool := !(encode i).isEmpty

/-- Decoding the words of an instruction. -/
def decodeList : List Word → Except DecodeError Instr
  | [w0] => if fld w0 0 2 == 3#2 then .error .tooShort else decode32 w0
  | [w0, w1] => decode64 w0 w1
  | _ => .error .tooShort

end Sys2Proof
end

