-- ==== Sys2Proof/Machine/Bits.lean ====
section
/-! DEFINITION. Bit fields, bytes and byte order (R7, R39), and the small list helpers every other file uses. -/

namespace Sys2Proof.Machine

/-- Bits [lo + len - 1 : lo] of a number. -/
def bits (n lo len : Nat) : Nat := n / 2 ^ lo % 2 ^ len

/-- One bit of a number. -/
def bitAt (n i : Nat) : Bool := n / 2 ^ i % 2 == 1

/-- The number of a little-endian byte list (R7). -/
def leNat : List Byte → Nat
  | [] => 0
  | b :: bs => b.toNat + 256 * leNat bs

/-- The k low bytes of a number, lowest first (R7). -/
def leBytes : Nat → Nat → List Byte
  | 0, _ => []
  | k + 1, n => BitVec.ofNat 8 n :: leBytes k (n / 256)

/-- The doubleword of eight little-endian bytes (R7). -/
def leDWord (bs : List Byte) : DWord := BitVec.ofNat 64 (leNat bs)

/-- The 128 bytes of a row, lowest first (R89). -/
def rowBytes (r : Row) : List Byte := leBytes 128 r.toNat

/-- The row of 128 bytes (R89). -/
def bytesRow (bs : List Byte) : Row := BitVec.ofNat 1024 (leNat bs)

/-- Replace bits [lo + len - 1 : lo] of a number by a value. -/
def setBits (n lo len v : Nat) : Nat :=
  n - bits n lo len * 2 ^ lo + (v % 2 ^ len) * 2 ^ lo

/-- Bytes of a bit string of n bits, the last padded with zero bits (R39). -/
def packedBytes (nbits v : Nat) : List Byte := leBytes ((nbits + 7) / 8) v

/-- The elements of width w in a packed row (R39), the first count of them. -/
def unpackElems (w count v : Nat) : List Nat := (List.range count).map (fun i => bits v (w * i) w)

/-- A packed row of elements of width w (R39). -/
def packElems (w : Nat) : List Nat → Nat
  | [] => 0
  | x :: xs => x % 2 ^ w + 2 ^ w * packElems w xs

/-- Ceiling division. -/
def cdiv (a b : Nat) : Nat := (a + b - 1) / b

/-- Add a value to a sorted list without repeats. -/
def insertSorted (a : Nat) : List Nat → List Nat
  | [] => [a]
  | x :: xs => if a < x then a :: x :: xs else if a == x then x :: xs else x :: insertSorted a xs

/-- The union of two taint sets (R94 rule 1). -/
def tu (a b : Taint) : Taint := a ||| b

/-- A Boolean as a bit of a taint mask or field. -/
def b2n (b : Bool) : Nat := if b then 1 else 0

end Sys2Proof.Machine
end

