-- ==== Sys2Proof/Config.lean ====
section
/-! DEFINITION. What an implementation fixes and the values the spec leaves open. Each is a constant without a body, so no
proof can rest on a value of it; the model applies it to the operands it depends on, or to the counter `fresh` of State
(log 3, log 28). -/

namespace Sys2Proof

/-- How many ns of device time pass before one read of it (R303 gives no instruction a time; log 3). -/
opaque Config.elapsed : Nat → Nat

/-- A 128-bit random nonce of the hub (R339 BOOTN, R343; log 28). -/
opaque Config.nonce : Nat → BitVec 128

/-- The r and s of an ECDSA P-384 signature made by the device key, by its draw and the SHA-384 digest that it is over (R340; log 28). -/
opaque Config.signature : Nat → BitVec 384 → BitVec 768

/-- The fused identity, measurement index 2 of the SPDM session (R357; log 28). -/
opaque Config.fusedIdentity : List (BitVec 8)

/-- The SHA-384 digest of some bytes (R371; log 28). -/
opaque Config.sha384 : List Byte → BitVec 384

/-- Whether an image's signature verifies against the fused public key (R371; log 28). -/
opaque Config.signatureValid : List Byte → Bool

/-- The fused minimum of an image's security version (R371; log 28). -/
opaque Config.minSvn : Nat

/-- The hash that chooses a port of a route from a handle and a slab number (R361; log 15). -/
opaque Config.portHash : DWord → Nat → Nat

/-- A word of the lease table as TREAD returns it: R290 gives the entry's contents and no layout (log 29). -/
opaque Config.leaseWord : Nat → Nat → DWord

/-- Measurement index 1 that a peer package's SPDM session shows (R365; log 28). -/
opaque Config.measured : Nat → List (BitVec 8)

/-- Which of the free load tags a block's next tagged result takes: the launch, the block's index in it, and the number of its tagged
results so far (R94 names no order; log 12). -/
opaque Config.freeTag : Nat → Nat → Nat → Nat

/-- How many draws a command takes whose shape R86 refuses: it has no geometry to count (R49, R201; log 33). -/
opaque Config.openDraws : Nat → Nat

/-- The handle register that an engine fault names for an object of a step binding, which no handle register holds (R118;
log 19). -/
opaque Config.openRegister : Nat → BitVec 4

/-- The slot number that the completion record of a timetable move carries: no ring slot held its record (R253, R311; log 35). -/
opaque Config.moveSeq : Nat → BitVec 32

/-- RESULT of a service request for which R356 states none (log 36). -/
opaque Config.openResult : Nat → DWord

/-- The word that an all-reduce of floating-point elements leaves: R366 states no order of the members and no rounding (log 36).
It takes the draw, the kind, the format and the members' elements. -/
opaque Config.openReduce : Nat → Nat → Nat → List Nat → Nat

/-- Where a service ring of a function is made (R355): the object indices of the ring and of its counter, the root of the ring's slab
table with its frame, both guest-physical, and the system-physical address of the counter's words. -/
structure RingPlace where
  index : BitVec 32
  root : Nat
  frame : Nat
  ctrIndex : BitVec 32
  words : Nat
  deriving DecidableEq, Repr, Inhabited

/-- What the hypervisor and Lolen choose for a function that they make (R246, R355, R373): the guest-physical base of its queue table, the
number of its queues, its two service rings, and whether ring H is marked privileged. -/
structure FnPlace where
  tableBase : Nat
  queues : Nat
  host : RingPlace
  program : RingPlace
  privileged : Bool
  deriving DecidableEq, Repr, Inhabited

/-- The places of a function's tables, by the draw at its making (log 18). -/
opaque Config.newFunction : Nat → FnPlace

/-- The guest-physical frames that Lolen chooses for slabs that it moves at another package's request (R356; log 15). -/
opaque Config.chosenFrames : Nat → List Nat

/-- How many ns a scale-out port takes to train again; at most 100 ms of it count (R358; log 3). -/
opaque Config.retrain : Nat → Nat

end Sys2Proof
end

