-- ==== Sys2Proof/Machine/State.lean ====
section
/-! DEFINITION. The state of one package as plain data (R16-R37, R80-R103, R174-R187, R239, R246-R299, R301, R332-R375), the
state after reset, and the reasons a step can stop. `blk` is the block that moves next; the other blocks and the device's
queues stand beside it (log 1). -/

namespace Sys2Proof.Machine

/-- A fault of the model. The spec gives every condition a trap, an engine fault, a park, a status or a discard, so no
instruction of the strand ends in one. -/
inductive Fault where
  /-- A system core's access to an address the system-physical map leaves unmapped, or to a die-store unit that a partition
  holds, ends in a bus error (R181, R182); what a system core does with a bus error belongs to its RISC-V core. Raised by
  SYSTEM_CORE_ACCESS. Safe: the model stops where the system core goes on. -/
  | busError
  deriving DecidableEq, Repr

/-- A refusal of the model. -/
inductive Refusal where
  /-- An instruction without a meaning, by its mnemonic. Raised by Dispatch.exec only. Safe. -/
  | notModelled (mnemonic : String)
  deriving DecidableEq, Repr

/-! ## Registers of a block (R80) -/

/-- A scalar: value, taint set, dead mark (R80, R94, R95). -/
structure SCell where
  v : DWord
  t : Taint
  dead : Bool
  deriving DecidableEq, Repr

/-- A predicate (R82). -/
structure PCell where
  v : BitVec 128
  t : Taint
  dead : Bool
  deriving DecidableEq, Repr

/-- A handle register: the handle, the hidden descriptor copy with its copy stamp, and its refresh mark (R83, R223, R276). -/
structure HCell where
  v : DWord
  desc : BitVec 512
  stamp : DWord
  refresh : Bool
  dead : Bool
  deriving DecidableEq, Repr

/-- A tile descriptor register (R84). -/
structure DCell where
  v : BitVec 128
  dead : Bool
  deriving DecidableEq, Repr

/-- A shape register (R86). -/
structure QCell where
  v : BitVec 256
  dead : Bool
  deriving DecidableEq, Repr

/-- A result in a comparator queue (R166); `done` is false while its `fetch.step`, of block dispatch number `cmd`, is not
complete. -/
structure CmpResult where
  cmd : Nat
  done : Bool
  j : Nat
  cond : Bool
  taint : Taint
  x : List Byte
  deriving DecidableEq, Repr

/-- A step binding with its hidden state (R87, R166); PENDING is the length of `queue`. -/
structure GCell where
  inH : DWord
  outH : DWord
  theta : Word
  step : Word
  maxskip : Byte
  skipped : Word
  decided : Word
  inDesc : BitVec 512
  outDesc : BitVec 512
  queue : List CmpResult
  deriving DecidableEq, Repr

/-- A crossbar word (R88). -/
structure CCell where
  v : Row
  t : Taint
  deriving DecidableEq, Repr

/-- The taint set and dead mark of a vector register; its contents are a bank row in memory (R89, R95). -/
structure WCell where
  t : Taint
  dead : Bool
  deriving DecidableEq, Repr

/-- A token counter (R316). -/
structure Token where
  count : BitVec 8
  prod : Agent
  cons : Agent
  conf : Bool
  deriving DecidableEq, Repr

/-- A load tag in use, in order of issue: the load that took it, whether it has completed, and its stamp (R94, R194). -/
structure TagRec where
  tag : BitVec 4
  load : Nat
  done : Bool
  stamp : DWord
  deriving DecidableEq, Repr

/-! ## Accesses in flight -/

/-- The kinds of a fault record (R284). -/
inductive ParkKind where
  | missing | slab | frozen | node | poison | stage2 | badDesc
  deriving DecidableEq, Repr

/-- A parked access: its number in the order of the parks, the die and generation of its record, and whether a flush has released it
(R282-R286); `none` for the generation while the buffer is full and the record still waits. `req` is the required stamp that an access of the
strand's unfinished instruction keeps (R283); the other accesses hold theirs themselves. -/
structure Park where
  no : Nat
  die : BitVec 2
  gen : Option (BitVec 16)
  released : Bool
  kind : ParkKind
  write : Bool
  atomic : Bool
  handle : DWord
  world : BitVec 14
  shard : Nat
  offset : Nat
  level : Nat
  addr : Nat
  req : Option DWord
  deriving DecidableEq, Repr

/-- A request to another package whose reply has not been used: its identifier, the package, the handle when it asks for a descriptor, and the handle, shard
and offset that it is about, for the record of a park that its answer makes; `write` says that the access which asks writes (R184, R284, R360;
log 14). -/
structure Remote where
  id : Nat
  pkg : Nat
  desc : Option DWord
  handle : DWord
  shard : Nat
  off : Nat
  write : Bool
  deriving DecidableEq, Repr

/-- The operations that reach a counter word or read an object as a load (R192, R196, R294, R324, R171). -/
inductive LoadOp where
  | elem | add | minI | minN | maxI | maxN | xchg | cas | incb | version | skipWord (w : Nat)
  | counterRead
  deriving DecidableEq, Repr

/-- An outstanding object load or atomic (R194): its instruction's address, its destination, the taint set its result takes, the stamp it must be served
at, the loads it waits for, and whether its tag has been folded (R227). -/
structure ObjLoad where
  id : Nat
  addr : Word
  op : LoadOp
  dst : SReg
  handle : DWord
  index : Nat
  b : DWord
  c : DWord
  taint : Taint
  req : DWord
  waits : List Nat
  folded : Bool
  park : Option Park
  remote : Option Remote
  reply : Option (List Byte)
  deriving DecidableEq, Repr

/-- A part of an `sgate` update that another package holds: the package, the offset and the body of its write request; `side` says that it
is the skip map's and the count's (R165, R169; log 14). -/
structure FarPart where
  pkg : Nat
  off : Nat
  body : List Byte
  side : Bool
  deriving DecidableEq, Repr

/-- An `sgate` update that is still to be performed (R169, R172): the instruction's address, its binding, IN, the token block, the count read and the
decision, the payload, the required stamp, and, once they are known, the parts at other packages that are not acknowledged yet. -/
structure GateUpdate where
  addr : Word
  g : BitVec 3
  handle : DWord
  j : Nat
  count : Nat
  skip : Bool
  x : List Byte
  req : DWord
  far : Option (List FarPart)
  park : Option Park
  remote : Option Remote
  deriving DecidableEq, Repr

/-- A posted write (R191, R194, R172): a strand store at a physical address, a `sto`, or an `sgate` update. -/
inductive Posted where
  | store (lv : Level) (addr : Nat) (bytes : List Byte)
  | sto (addr : Word) (handle : DWord) (index : Nat) (v : DWord) (req : DWord) (waits : List Nat) (park : Option Park)
      (remote : Option Remote)
  | gate (u : GateUpdate)
  deriving DecidableEq, Repr

/-- A place of a command's buffer, for one position of its geometry: not read, an element with its scale byte, moved, or unequal in a
comparison (R202, R211). -/
inductive Slot where
  | empty
  | full (code scale : Nat)
  | done
  | differs
  deriving DecidableEq, Repr

/-- A command in an engine queue with its captured operands (R25, R49, R201, R240) and, once started, its progress
(R204, R283). `checked` counts the ranges that the homes of its objects have checked for it (R217), and `pend` says that its fault waits
behind another one's handler (R124). `buf` holds the positions from the first element not moved on. `taint` is the set that an F or P command captured and folds at its start; `wtaint` is the set that the command
brings into what it writes later (R130, R166, R236). -/
structure Cmd where
  instr : Instr
  eng : Engine
  n : Nat
  qno : Nat
  addr : Word
  off : Bool
  depth : Nat
  rm : BitVec 3
  deadMode : Bool
  mask : BitVec 128
  sx : DWord
  si : List DWord
  sy : List DWord
  dA : BitVec 128
  dB : BitVec 128
  dX : BitVec 128
  shape : BitVec 256
  ha : DWord
  hb : DWord
  g : GCell
  taint : Taint
  wtaint : Taint
  draw : Word
  req : DWord
  waits : List Nat
  popped : Bool
  noPush : Bool
  skipEnd : Bool
  fault : Option (Nat × BitVec 32)
  moved : Nat
  buf : List Slot
  flags : BitVec 7
  dest : List Nat
  park : Option Park
  remote : Option Remote
  reply : Option (List Byte)
  oldDesc : Bool
  checked : Nat
  pend : Bool
  deriving DecidableEq, Repr

/-- An engine: its queue, the command it is running, and in `trail` the F or P commands started behind that one, whose transfers overlap
(R25, R26, R239; log 6). -/
structure EngineQ where
  q : List Cmd
  run : Option Cmd
  trail : List Cmd
  next : Nat
  deriving DecidableEq, Repr

/-- Where a block stands in its life (R16-R22, R92, R260); `held` and `ending` are a block that runs and one that has exited, while they wait
for their partition's token (R332, R341). -/
inductive Phase where
  | none | held | running | exited | ending | parked | saved | terminated
  deriving DecidableEq, Repr

/-- What an unfinished instruction of the strand waits for (model's own, log 2); `replay` says that it executes anew behind a park, at the
required stamp that it held (R283), and `fetch` for the bytes of its code object at some addresses. -/
inductive Wait where
  | interlock | full | token | drain | take | lend | tokset | sbind | sgate | stepUpdates | store | load255
  | fullEmpty (addr : Nat) | lease (k : Nat) | subscribe | turn | barrier | monitor (addr : Nat) | park (p : Park)
  | writes | race | clearboard | remote (req : Remote) (write atomic : Bool) (f : Option DWord) | fetch (req : Remote) (at_ : List Nat) | replay (f : DWord)
  | leaseAway (req : Remote) (handle : DWord) (lo hi : Nat) (add : Bool) (sd : SReg) (f : DWord) | taint | firing
  deriving DecidableEq, Repr

/-- A block's identity: its launch's slot and its linear index (R18, R19). -/
structure BId where
  launch : Nat
  lin : Nat
  deriving DecidableEq, Repr

/-- One block with the half of a core that holds it (R16, R80, R92, R97). `faultNow` says that an engine fault has been taken and the strand
has executed nothing since (R124), `fenced` names the atomics that a fence has put before every later covered access (R229), `noted` the objects of
other packages that have noted a read of the block (R218), `back` is the phase to which a parked or saved block
returns, `placeNo` the place of its placement in their order (R259), `endStatus` the status that it reports when it is terminated (R23). -/
structure Block where
  phase : Phase
  back : Phase
  placeNo : Nat
  id : BId
  core : Core
  half : Bool
  world : BitVec 14
  fn : BitVec 6
  part : BitVec 4
  nsq : Nat
  preempt : Bool
  pc : Word
  handler : Bool
  wait : Option Wait
  wrap : Option Taint
  s : Vector SCell 64
  p : Vector PCell 48
  h : Vector HCell 16
  d : Vector DCell 16
  q : Vector QCell 8
  g : Vector GCell 8
  c : Vector CCell 8
  w : Vector WCell 512
  bankTaint : Vector Taint 16
  bankSide : BitVec 16
  rm : BitVec 3
  fpstat : BitVec 7
  lfsr : Word
  blockId : BitVec 48
  gangDim : BitVec 48
  slip : Nat
  trapVec : Word
  svcRing : DWord
  svcCtr : DWord
  deadMode : Bool
  trapPc : Word
  trapCause : BitVec 16
  trapInfo : DWord
  floor : DWord
  pend : Nat
  ctl : Taint
  tags : List TagRec
  nextLoad : Nat
  loads : List ObjLoad
  posted : List Posted
  fenced : List Nat
  eF : EngineQ
  eV : EngineQ
  eM : EngineQ
  eP : EngineQ
  dispN : Nat
  frozen : Bool
  faultNow : Bool
  tok : Vector Token 16
  owner : BitVec 64
  guarded : BitVec 64
  arrPend : BitVec 8
  arrPhase : BitVec 8
  subs : List DWord
  noted : List DWord
  monitor : Option Nat
  code : DWord
  codeDesc : BitVec 512
  codeRefresh : Bool
  codeBuf : List Host.Cell
  reply : Option (List Byte)
  endCause : Byte
  endStatus : Nat
  deriving DecidableEq, Repr

/-! ## The device -/

/-- A waiter on a full/empty bit, in order of arrival (R32, R178). -/
inductive FeOp where
  | ff | fe | ef
  deriving DecidableEq, Repr

/-- A waiting `ld.ff`, `ld.fe` or `st.ef` (R178, R179). -/
structure FeWaiter where
  id : BId
  addr : Nat
  op : FeOp
  sd : SReg
  taint : Taint
  data : DWord
  len : Nat
  deriving DecidableEq, Repr

/-- A handle-cache entry of a cluster (R275). -/
structure HCacheEntry where
  cluster : Nat
  handle : DWord
  desc : BitVec 512
  stamp : DWord
  deriving DecidableEq, Repr

/-- A TLB entry (R280): a slab translation of a core's first-level TLB or of a die's nested TLB. -/
structure TlbEntry where
  place : Nat
  world : BitVec 14
  handle : DWord
  shard : Nat
  slab : Nat
  frame : Nat
  peer : Option Byte
  write : Bool
  deriving DecidableEq, Repr

/-- A second-stage translation of a 4 KiB guest-physical page in a die's nested TLB (R280). -/
structure G2Entry where
  die : Nat
  world : BitVec 14
  page : Nat
  frame : Nat
  write : Bool
  deriving DecidableEq, Repr

/-- An open lease (R215, R290): its holder's package, block, core and half. `since` is the number of commands that the holder had
dispatched at the grant (R216), `gen` the entry's generation then, and `req` the number of a request from another package. -/
structure Lease where
  entry : Nat
  gen : BitVec 16
  handle : DWord
  lo : Nat
  hi : Nat
  add : Bool
  pkg : Byte
  holder : BId
  core : Core
  half : Bool
  since : Nat
  req : Nat
  deriving DecidableEq, Repr

/-- A waiting lease request, in order of arrival (R215, R291); one from another package keeps the frame that it came in. -/
structure LeaseReq where
  handle : DWord
  lo : Nat
  hi : Nat
  add : Bool
  pkg : Byte
  holder : BId
  core : Core
  half : Bool
  sd : SReg
  frame : Option PeerFrame
  deriving DecidableEq, Repr

/-- A read by a block of another package that has passed its race check here and is not complete (R217, R218): the block, the number of its
access, and a range of elements. -/
structure AwayRead where
  pkg : Byte
  holder : BId
  access : Nat
  handle : DWord
  lo : Nat
  hi : Nat
  deriving DecidableEq, Repr

/-- A member of a share group that has not said yet that its copies of an object's old descriptor are gone (R276). -/
structure SyncAsk where
  pkg : Byte
  handle : DWord
  desc : BitVec 512
  remote : Option Remote
  deriving DecidableEq, Repr

/-- The tables and caches of R267 and the table CSRs of R268; the hub-resident tables are words keyed by table, entry and
word (R269). `away` are the leases that this package's blocks hold in the tables of other packages, `awayReads` the reads of other packages'
blocks that this package has let pass (R218, R290), `syncs` the members of share groups that a DESC_SYNC waits for, `syncFrames` the requests
of homes for one that wait here for started commands (R276), and `hosted` the objects of other packages whose descriptors have come here, with
the last one of each (R185, R368; log 15). -/
structure Tables where
  targ0 : DWord
  targ1 : DWord
  targ2 : DWord
  err : Bool
  otdir : DWord
  smapbase : DWord
  hub : List (Nat × DWord)
  hcache : List HCacheEntry
  tlb : List TlbEntry
  nested : List TlbEntry
  g2 : List G2Entry
  shootGen : Vector Word 4
  leases : List Lease
  leaseWait : List LeaseReq
  leaseGen : List (Nat × BitVec 16)
  away : List Lease
  awayReads : List AwayRead
  syncs : List SyncAsk
  syncFrames : List PeerFrame
  hosted : List (DWord × BitVec 512)
  fbHead : Vector Word 4
  fbTail : Vector Word 4
  fbGen : Vector (BitVec 16) 4
  merge : List (Nat × (ParkKind × BitVec 14 × DWord × Nat × Nat))
  deriving DecidableEq, Repr

/-- A launch record's fields (R250). -/
structure LaunchRec where
  words : List DWord
  deriving DecidableEq, Repr

/-- The report of one retired or unplaced block (R23, R253). -/
structure Report where
  lin : Nat
  status : Nat
  cause : Byte
  pc : Word
  deriving DecidableEq, Repr

/-- A launch parked at a dispatcher, or its completion's atomic parked there (R251, R253). -/
structure DispPark where
  slot : Nat
  park : Park
  deriving DecidableEq, Repr

/-- A placement-unit reservation (R257). -/
structure Reservation where
  slot : Nat
  first : Nat
  size : Nat
  deriving DecidableEq, Repr

/-- A released timetable move (R311, R312): the walker's partition, the deadline turn, the pass and the index. -/
structure MoveRef where
  part : BitVec 4
  turn : DWord
  pass : Nat
  index : Nat
  deriving DecidableEq, Repr

/-- Work of a dispatcher at guest memory: a notify (R247, R248), the write-back of an unmapped queue (R248), the emptying of a queue (R345), ERR of a queue (R246, R253), a
slot of a ring read at admission (R247), the map of a PENDING queue that a scan meets (R248), and the firing of a watch entry, which was armed
with some words, with a value (R328). -/
inductive DispWork where
  | notify (fn : BitVec 6) (queue : BitVec 8) (tail : Word)
  | unmap (fn : BitVec 6) (queue : BitVec 8) (head tail : Word)
  | discard (fn : BitVec 6) (queue : BitVec 8)
  | err (fn : BitVec 6) (queue : BitVec 8)
  | admission (fn : BitVec 6) (queue : BitVec 8)
  | map (fn : BitVec 6) (queue : BitVec 8)
  | fire (entry : Nat) (armed : DWord) (v : DWord)
  deriving DecidableEq, Repr

/-- Such work whose access has parked (R183, R282), or which stands behind such work about the same queue or watch entry, in order of
arrival. -/
structure DispJob where
  work : DispWork
  park : Option Park
  deriving DecidableEq, Repr

/-- An admitted launch (R249-R254); `nextGroup` is the next placement group, the index counter of R264, `passedOver` since when the
dispatcher has passed it over, `late` the timetable move that it is; `counted` says that it has passed the checks of R251,
`closed` the status that blocks report which are not placed any more, `ending` the reason under which it completes once its record can be
written, `statusDue` are the STATUS bytes still to be written, `remote` a request of the dispatcher's to another package. `counting` is since
when its WATCHDOG limit counts, and `ran` the ns that it has counted before (R254, R332). -/
structure Launch where
  slot : Nat
  fn : BitVec 6
  queue : BitVec 8
  seq : Word
  record : LaunchRec
  world : BitVec 14
  part : BitVec 4
  cls : Nat
  deadline : DWord
  nextGroup : Nat
  reports : List Report
  dieMask : BitVec 4
  gturn : DWord
  closed : Option Nat
  ending : Option Nat
  statusDue : List (Nat × Nat)
  remote : Option Remote
  counting : Option DWord
  ran : Nat
  passedOver : Option DWord
  late : Option MoveRef
  counted : Bool
  deriving DecidableEq, Repr

/-- A launch queue's context at its dispatcher (R246-R248); `busyAt` is the device time at which HEAD, TAIL or the launches of the queue that
wait last changed. -/
structure QueueCtx where
  fn : BitVec 6
  queue : BitVec 8
  die : BitVec 2
  head : Word
  tail : Word
  busyAt : DWord
  deriving DecidableEq, Repr

/-- A function's queue table: its guest-physical base and its number of records (R246). -/
structure QueueTable where
  fn : BitVec 6
  base : Nat
  count : Nat
  deriving DecidableEq, Repr

/-- A barrier counter in use (R319): the gang, the scope and the unit it serves. -/
structure Barrier where
  launch : Nat
  scope : Nat
  unit : Nat
  count : Nat
  phase : Bool
  deriving DecidableEq, Repr

/-- A CWORD atomic that is still to be performed (R253): its dispatcher's die, its queue, its handle, and its park or request. -/
structure CwordOp where
  die : Nat
  fn : BitVec 6
  queue : BitVec 8
  handle : DWord
  park : Option Park
  remote : Option Remote
  deriving DecidableEq, Repr

/-- The dispatchers (R246-R266) and the gangs' barrier counters (R319); `holdB` names the functions that hold eligible class B
launches (R258), `reserved` the units that waiting gangs have reserved (R257). -/
structure Disp where
  tables : List QueueTable
  ctxs : List QueueCtx
  launches : List Launch
  nextSlot : Nat
  parked : List DispPark
  cwords : List CwordOp
  jobs : List DispJob
  vtime : Vector Nat 64
  reserved : List Reservation
  dead : BitVec 4
  barriers : List Barrier
  fenced : List Core
  holdB : BitVec 64
  placeSeq : Nat
  deriving DecidableEq, Repr

/-- A partition's turn counter and timetable walker (R304, R306, R309-R313). -/
structure Part where
  pturn : DWord
  next : DWord
  ttobj : DWord
  ttctl : DWord
  pass : Nat
  move : Nat
  base : DWord
  park : Option Park
  remote : Option Remote
  reply : Option (List Byte)
  slipBase : DWord
  slipTail : Word
  stalled : Option DWord
  stallRec : Word
  wmiss : Word
  deriving DecidableEq, Repr

/-- A frame that the time service has: its port, whether the port sent it, and the timestamp of an event message (R304). -/
structure PtpFrame where
  port : BitVec 5
  sent : Bool
  time : Option DWord
  bytes : List Byte
  deriving DecidableEq, Repr

/-- Time and counters (R301). -/
structure Time where
  dtime : DWord
  ptpoff : DWord
  ptpadj : Word
  pclk : DWord
  dcidx : BitVec 12
  dc : List (Nat × Nat)
  psel : BitVec 4
  parts : Vector Part 16
  ptpLog : List PtpFrame
  deriving DecidableEq, Repr

/-- A save slot of a partition's frame, or of a victim saved under R260 (R332, R347): the saved blocks, which hold their square
state, and the cells and empty words of the stores. The gangs' turns and barrier counters stay with their launches. -/
structure SaveSlot where
  part : BitVec 4
  frame : Nat
  world : BitVec 14
  blocks : List Block
  cells : List Host.Cell
  empties : List Nat
  deriving DecidableEq, Repr

/-- A Clearboard token (R339) by its fields; `sig` numbers the signature's draw (log 28). -/
structure CbToken where
  part : BitVec 4
  cause : BitVec 4
  lostd : BitVec 4
  frame : DWord
  count : DWord
  time : DWord
  odigest : BitVec 384
  oworld : BitVec 14
  iworld : BitVec 14
  cleared : BitVec 16
  fillmark : DWord
  pendmark : DWord
  sig : Nat
  deriving DecidableEq, Repr

/-- Where a partition stands between its frame edges (R332, R334): it runs, an edge has come and its blocks issue nothing, or it issues nothing
in the frame that its next edge has overtaken. -/
inductive EdgePhase where
  | run | stopping | mute
  deriving DecidableEq, Repr

/-- A partition's switching state (R332-R342); `due` is the device time of its next edge. -/
structure Switch where
  frame : Nat
  edges : DWord
  due : Nat
  edge : EdgePhase
  edgeClock : DWord
  saveBase : DWord
  token : Option CbToken
  pendingToken : Option CbToken
  vfWait : List (BitVec 6)
  deriving DecidableEq, Repr

/-- Worlds, switching and sealing (R332-R349); `bootn` numbers the draw of BOOTN (R339, log 28), `vfHold` is a function whose reset waits for
the end of a frame edge (R346). -/
structure Worlds where
  parts : Vector Switch 16
  saves : List SaveSlot
  count : DWord
  bootn : Nat
  fillmark : DWord
  cbpart : BitVec 4
  vfLast : BitVec 6
  vfBusy : Bool
  vfHold : Option (BitVec 6)
  alarm : BitVec 5
  locked : Bool
  keyGen : Nat
  rasBase : DWord
  rasTail : Word
  worldKeys : List (Nat × Nat)
  deriving DecidableEq, Repr

/-- The completions a Galith port has sent (R350): tag, status code and data. -/
structure HostDone where
  tag : BitVec 12
  status : Nat
  data : List Byte
  deriving DecidableEq, Repr

/-- A host request that has arrived and not completed, in order of arrival: it waits for an earlier one, is parked, or waits for another
package (R350, R353). `since` is the device time of its first park. -/
structure HostReq where
  port : Bool
  tag : BitVec 12
  fn : BitVec 6
  addr : DWord
  len : Nat
  data : Option (List Byte)
  since : Option DWord
  park : Option Park
  remote : Option Remote
  reply : Option (List Byte)
  deriving DecidableEq, Repr

/-- What Lolen has shown the host in the SPDM session of a port (R357): the measurements of index 1, the boot measurement, and 2, the fused
identity, and the signature over them. -/
structure Spdm where
  boot : List Byte
  identity : List Byte
  signature : BitVec 768
  deriving DecidableEq, Repr

/-- A Galith port (R350, R351, R357); `dropped` counts the frames whose tag failed (R336). -/
structure GPort where
  up : Bool
  session : Bool
  spdm : Option Spdm
  done : List HostDone
  dropped : Word
  deriving DecidableEq, Repr

/-- Bits of an object's shard: a byte offset, a low bit and a number of bits (R272). -/
structure Field where
  off : Nat
  lo : Nat
  n : Nat
  deriving DecidableEq, Repr

/-- A field of an argument object of a service request, by shard (R356). -/
structure ArgField where
  handle : DWord
  shard : Nat
  field : Field
  deriving DecidableEq, Repr

/-- A function's service ring (R355): the handles of its ring and of its counter object, and of the request that is served the request to another
package with its reply, the argument fields that it asks for, and those that have come (R356). -/
structure SvcRing where
  fn : BitVec 6
  host : Bool
  ring : DWord
  ctr : DWord
  served : DWord
  privileged : Bool
  remote : Option Remote
  reply : Option (List Byte)
  want : List ArgField
  got : List (ArgField × Nat)
  deriving DecidableEq, Repr

/-- The host side and Lolen's services (R350-R357). -/
structure HostSide where
  port0 : GPort
  port1 : GPort
  vfport : BitVec 64
  apertures : List (Nat × DWord)
  reqs : List HostReq
  rings : List SvcRing
  eventBinds : List (BitVec 6 × BitVec 8 × Nat)
  events : List (BitVec 6 × Nat)
  deriving DecidableEq, Repr

/-- An ingress filter (R359). -/
structure Filter where
  mac : DWord
  ctl : DWord
  deriving DecidableEq, Repr

/-- A scale-out port (R358, R359); after a write of PORTCFG its link is up from the device time `upAt` on. -/
structure ScalePort where
  mode : BitVec 2
  ptpen : Bool
  linkUp : Bool
  upAt : DWord
  dropped : Word
  filters : Vector Filter 16
  deriving DecidableEq, Repr

/-- A frame sent to a peer and not yet acknowledged (R360, R361). -/
structure OutFrame where
  op : Nat
  f : PeerFrame
  tries : Nat
  deriving DecidableEq, Repr

/-- A bound stream (R362). -/
structure Stream where
  k : Nat
  stream : DWord
  ctr : DWord
  slot : Nat
  port : Nat
  filter : Nat
  deriving DecidableEq, Repr

/-- A collective of a share group: the group's epoch, and its number among those that began at this epoch (R366; log 14). -/
structure Round where
  epoch : Word
  no : Word
  deriving DecidableEq, Repr

/-- A share group (R365): its object, named by a handle, its members, epoch, lost members and policy digest; the number of the next collective at
this epoch, the members that have reported their part of a collective done, those that have said that they have no commit of one recorded, the
last collective whose commit is recorded, and the last that is aborted (R366). -/
structure Group where
  index : DWord
  members : List Byte
  epoch : Word
  lost : List Byte
  policy : List Byte
  next : Word
  done : List (Byte × Round)
  asks : List (Byte × Round)
  commit : Option Round
  aborted : Option Round
  deriving DecidableEq, Repr

/-- A collective that has begun (R366): its request, destination, round, the members that take part and this member's staged part; `asked` says that
this member has asked for the outcome. -/
structure Coll where
  fn : BitVec 6
  host : Bool
  seq : DWord
  dst : DWord
  round : Round
  members : List Byte
  staging : List Byte
  asked : Bool
  deriving DecidableEq, Repr

/-- A request of another package that this one has passed on to the package that holds the slab (R278). -/
structure Relay where
  id : Nat
  op : Nat
  frame : PeerFrame
  deriving DecidableEq, Repr

/-- What the stream unit does next with a frame (R363): it reads APPENDED and CONSUMED, counts a dropped frame, writes the record, counts a
truncated frame, or counts the record. `from_` is where the part of the record that is written next begins. -/
inductive StreamStep where
  | look | drop | write (n from_ : Nat) | trunc | count
  deriving DecidableEq, Repr

/-- A frame at the stream unit, in order of arrival: its stream, port, PTP time and bytes, and its next step with the park or request that
holds it (R363). -/
structure StreamFrame where
  k : Nat
  port : Nat
  time : Nat
  bytes : List Byte
  step : StreamStep
  park : Option Park
  remote : Option Remote
  reply : Option (List Byte)
  deriving DecidableEq, Repr

/-- A slab that Lolen moves here from another package: the object, the shard and slab, the leaf with its frozen entry, the frame that it goes to
with its guest-physical address, the next line, and the request for it (R287). -/
structure SlabPull where
  handle : DWord
  shard : Nat
  slab : Nat
  leaf : Nat
  frame : Nat
  gpa : Nat
  pkg : Nat
  line : Nat
  remote : Option Remote
  deriving DecidableEq, Repr

/-- The parts of an `sgate` update of another package that have come, by package and request (R169; log 14). -/
structure GatePart where
  pkg : Byte
  id : Nat
  bytes : List Byte
  deriving DecidableEq, Repr

/-- An `sgate` update that another package has asked of this one and whose parts at further packages are not all acknowledged (R169, R172; log 14);
the reply to its frame follows. -/
structure GateJob where
  frame : PeerFrame
  j : Nat
  count : Nat
  skip : Bool
  x : List Byte
  far : List FarPart
  remote : Option Remote
  deriving DecidableEq, Repr

/-- Peers, ingress and the pool (R184, R185, R358-R368): `acks` are the cumulative acknowledgements sent last, by port and package,
`lostShards` the shards of destinations that R366 marks lost, `pulls` the slabs that are moving here, and `poolAcks` the acknowledged
extents. -/
structure Peers where
  ports : Vector ScalePort 24
  portsel : BitVec 5
  ifsel : BitVec 4
  route : Vector (BitVec 24) 256
  routeSel : Byte
  out : List OutFrame
  sendSeq : List (Nat × Word)
  recvSeq : List (Nat × Word)
  pathDown : List (Nat × Nat)
  nextReq : Nat
  streams : List Stream
  groups : List Group
  colls : List Coll
  relays : List Relay
  frames : List StreamFrame
  acks : List PeerFrame
  lostShards : List (DWord × Nat)
  gates : List GatePart
  gateJobs : List GateJob
  pulls : List SlabPull
  extents : List (Nat × Nat)
  poolAcks : List (Nat × Nat)
  deriving DecidableEq, Repr

/-- A flash write under way (R373): the ring of its request, and the image. -/
structure Flashing where
  fn : BitVec 6
  host : Bool
  image : List Byte
  deriving DecidableEq, Repr

/-- Platform: package identity, boot, power, links (R99, R343, R348, R370-R375). `flashing` is an image whose write into the erased flash is not
compared yet, with the ring whose request it is (R373), `tested` the device times of the cores' last tests and `testDue` the tests that wait for a frame edge (R349); `busData` is
what a system core has read last, and `illegal` says that its last CSR access raised the illegal-instruction exception (R369). -/
structure Platform where
  pkg : Byte
  pwrtgt : BitVec 16
  point : Vector (BitVec 4) 4
  capped : Bool
  watts : Word
  ready : Bool
  verified : Bool
  recovery : Bool
  meas : BitVec 384
  flash : List Byte
  linksDown : List Link
  flashing : Option Flashing
  tested : List (Core × DWord)
  testDue : List (Core × Bool)
  busData : List Byte
  illegal : Bool
  deriving DecidableEq, Repr

/-- What moves next, when the agenda names it (log 1): an event of the device, or the turn of another block. -/
inductive Move where
  | event (i : Instr)
  | turnTo (id : BId)
  deriving DecidableEq, Repr

/-- The state of the package. `beat` counts the steps that the agenda does not name (R36, log 1). -/
structure State where
  blk : Block
  others : List Block
  agenda : List Move
  beat : Nat
  fresh : Nat
  mem : List Host.Cell
  empties : List Nat
  feWait : List FeWaiter
  tb : Tables
  dp : Disp
  tm : Time
  wo : Worlds
  ho : HostSide
  pe : Peers
  pl : Platform
  deriving DecidableEq, Repr

/-! ## Reset -/

/-- The identity crossbar word: byte i holds i (R80, R88). -/
def identityRow : Row := BitVec.ofNat 1024 ((List.range 128).foldr (fun i a => i + 256 * a) 0)

/-- A step binding that binds nothing (R87). -/
def GCell.zero : GCell :=
  { inH := 0, outH := 0, theta := 0, step := 0, maxskip := 0, skipped := 0, decided := 0, inDesc := 0, outDesc := 0,
    queue := [] }

/-- An empty engine (R17). -/
def EngineQ.empty : EngineQ := { q := [], run := none, trail := [], next := 0 }

/-- A half that holds no block, with the registers as a scrub or reset leaves them (R102) and the control-register resets of
R44, R48, R52, R96, R99, R100. The values that block start or boot gives are zero until then (log 5). -/
def Block.clear : Block :=
  { phase := .none, back := .none, placeNo := 0, id := ⟨0, 0⟩, core := 0, half := false, world := 0, fn := 0, part := 0, nsq := 1, preempt := false,
    pc := 0, handler := false, wait := none, wrap := none,
    s := Vector.replicate 64 ⟨0, 0, false⟩,
    p := (Vector.replicate 48 ⟨0, 0, false⟩).setIfInBounds 0 ⟨BitVec.allOnes 128, 0, false⟩,
    h := Vector.replicate 16 ⟨0, 0, 0, false, false⟩,
    d := Vector.replicate 16 ⟨0, false⟩,
    q := Vector.replicate 8 ⟨0, false⟩,
    g := Vector.replicate 8 GCell.zero,
    c := Vector.replicate 8 ⟨identityRow, 0⟩,
    w := Vector.replicate 512 ⟨0, false⟩,
    bankTaint := Vector.replicate 16 0, bankSide := 0,
    rm := 0, fpstat := 0, lfsr := 1, blockId := 0, gangDim := 0, slip := 16, trapVec := 0, svcRing := 0, svcCtr := 0,
    deadMode := false, trapPc := 0, trapCause := 0, trapInfo := 0, floor := 0, pend := 0, ctl := 0, tags := [],
    nextLoad := 0, loads := [], posted := [], fenced := [], eF := .empty, eV := .empty, eM := .empty, eP := .empty, dispN := 0,
    frozen := false, faultNow := false, tok := Vector.replicate 16 ⟨0, .S, .S, false⟩, owner := 0, guarded := 0, arrPend := 0, arrPhase := 0,
    subs := [], noted := [], monitor := none, code := 0, codeDesc := 0, codeRefresh := false, codeBuf := [], reply := none, endCause := 0, endStatus := 1 }

/-- A partition's counters after reset (R306, R330): NEXT is TPER, which reads 1,000,000. -/
def Part.reset : Part :=
  { pturn := 0, next := 1000000, ttobj := 0, ttctl := 0, pass := 0, move := 0, base := 0, park := none, remote := none, reply := none, slipBase := 0,
    slipTail := 0, stalled := none, stallRec := 0, wmiss := 0 }

/-- A partition's switching state after reset (R341, R347). -/
def Switch.reset : Switch :=
  { frame := 0, edges := 0, due := 0, edge := .run, edgeClock := 0, saveBase := 0, token := none, pendingToken := none, vfWait := [] }

/-- A scale-out port after reset (R359). -/
def ScalePort.reset : ScalePort :=
  { mode := 0, ptpen := false, linkUp := false, upAt := 0, dropped := 0, filters := Vector.replicate 16 ⟨0, 0⟩ }

/-- The machine right after package reset (R187, R267, R330, R343, R347, R359). Memory lists nothing: the on-chip stores read
zero and full, and every line of HBM, spill DRAM and the pool is poisoned (R187). -/
def State.reset : State :=
  { blk := .clear, others := [], agenda := [], beat := 0, fresh := 0, mem := [], empties := [], feWait := [],
    tb := { targ0 := 0, targ1 := 0, targ2 := 0, err := false, otdir := 0, smapbase := 0, hub := [], hcache := [], tlb := [],
            nested := [], g2 := [], shootGen := Vector.replicate 4 0, leases := [], leaseWait := [], leaseGen := [],
            away := [], awayReads := [], syncs := [], syncFrames := [], hosted := [],
            fbHead := Vector.replicate 4 0, fbTail := Vector.replicate 4 0, fbGen := Vector.replicate 4 0, merge := [] },
    dp := { tables := [], ctxs := [], launches := [], nextSlot := 0, parked := [], cwords := [], jobs := [],
            vtime := Vector.replicate 64 0, reserved := [], dead := 0, barriers := [], fenced := [], holdB := 0, placeSeq := 0 },
    tm := { dtime := 0, ptpoff := 0, ptpadj := 0, pclk := 0, dcidx := 0, dc := [], psel := 0,
            parts := Vector.replicate 16 .reset, ptpLog := [] },
    wo := { parts := Vector.replicate 16 .reset, saves := [], count := 0, bootn := 0, fillmark := 0,
            cbpart := 0, vfLast := 0, vfBusy := false, vfHold := none, alarm := 0, locked := false, keyGen := 0,
            rasBase := 0, rasTail := 0, worldKeys := [] },
    ho := { port0 := ⟨false, false, none, [], 0⟩, port1 := ⟨false, false, none, [], 0⟩, vfport := 0, apertures := [], reqs := [], rings := [],
            eventBinds := [], events := [] },
    pe := { ports := Vector.replicate 24 .reset, portsel := 0, ifsel := 0, route := Vector.replicate 256 0, routeSel := 0,
            out := [], sendSeq := [], recvSeq := [], pathDown := [], nextReq := 0, streams := [], groups := [], colls := [], gates := [], gateJobs := [], pulls := [],
            relays := [], frames := [], acks := [], lostShards := [], extents := [], poolAcks := [] },
    pl := { pkg := 0, pwrtgt := 0, point := Vector.replicate 4 0, capped := false, watts := 0, ready := false,
            verified := false, recovery := false, meas := 0, flash := [], linksDown := [], flashing := none, tested := [],
            testDue := [], busData := [], illegal := false } }

end Sys2Proof.Machine
end

