-- ==== Sys2Proof/Machine/Frames.lean ====
section
/-! DEFINITION. The fields of a handle (R34), and frames to peer packages: operations, routes, sequence numbers, sending (R360, R361). -/

namespace Sys2Proof.Machine

/-! ## Handles (R34) -/

/-- HOME. -/
def hHome (h : DWord) : Nat := bits h.toNat 56 8
/-- INDEX. -/
def hIndex (h : DWord) : Nat := bits h.toNat 24 32
/-- GEN. -/
def hGen (h : DWord) : Nat := bits h.toNat 8 16
/-- The reserved low byte. -/
def hLow (h : DWord) : Nat := bits h.toNat 0 8
/-- A handle from its fields. -/
def handleOf (home index gen : Nat) : DWord := BitVec.ofNat 64 (home * 2 ^ 56 + index * 2 ^ 24 + gen * 2 ^ 8)
/-- HOME and INDEX, which name the object whatever its generation. -/
def hObj (h : DWord) : Nat := h.toNat / 2 ^ 24

/-! ## Sending (R360, R361) -/

/-- Peer operation codes (R360). -/
def opRead : Nat := 1
/-- Read reply. -/
def opReadReply : Nat := 2
/-- Write. -/
def opWrite : Nat := 3
/-- Write acknowledgement. -/
def opWriteAck : Nat := 4
/-- Atomic. -/
def opAtomic : Nat := 5
/-- Atomic reply. -/
def opAtomicReply : Nat := 6
/-- Publish. -/
def opPublish : Nat := 7
/-- Cumulative acknowledgement. -/
def opCumAck : Nat := 8
/-- Control. -/
def opControl : Nat := 9

/-- The ports of the route to a package whose path is up (R361). -/
def openPorts (s : State) (pkg : Nat) : List Nat :=
  let mask := ((s.pe.route[pkg]?).getD 0).toNat
  (List.range 24).filter (fun p => bitAt mask p && !s.pe.pathDown.contains (p, pkg))

/-- The next sequence number to a package on a port. -/
def nextSeq (s : State) (port pkg : Nat) : Word :=
  ((s.pe.sendSeq.find? (fun x => x.1 == port * 256 + pkg)).map (·.2)).getD 0

/-- Send a frame on a port (R360, R361); it is held until it is acknowledged. -/
def sendOn (s : State) (port pkg op : Nat) (stat : Byte) (h off : DWord) (payload : List Byte) : State :=
  let q := nextSeq s port pkg
  let f : PeerFrame :=
    { good := true, port := BitVec.ofNat 5 port, dpkg := BitVec.ofNat 8 pkg, spkg := s.pl.pkg, stat := stat, seq := q,
      pclk := s.tm.pclk, handle := h, offset := off, payload := payload, again := none }
  let key := port * 256 + pkg
  let seqs := (key, q + 1) :: s.pe.sendSeq.filter (fun x => x.1 != key)
  { s with pe := { s.pe with out := s.pe.out ++ [⟨op, f, 0⟩], sendSeq := seqs } }

/-- Whether a package is a lost member of the group of an object (R365). -/
def lostMember (s : State) (h : DWord) (pkg : Nat) : Bool :=
  s.pe.groups.any (fun g => hObj g.index == hObj h && g.lost.any (fun p => p.toNat == pkg))

/-- The offset that marks a request for a descriptor (log 14). -/
def descOffset : Nat := 2 ^ 64 - 1

/-- The shard that a request's body names: reads and writes of object memory begin with it, and everything else is at shard 0 (log 14). -/
def bodyShard (op off : Nat) (body : List Byte) : Nat :=
  if (op == opRead || op == opWrite) && off != descOffset then leNat (body.take 1) else 0

/-- A request with identifier id (R184, R284). -/
def remoteOf (id pkg op : Nat) (h : DWord) (off : Nat) (desc : Option DWord) (body : List Byte) : Remote :=
  { id := id, pkg := pkg, desc := desc, handle := h, shard := bodyShard op off body, off := if off == descOffset then 0 else off, write := op != opRead }

/-- Send a request for a slab of an object in one frame or several, with a fresh identifier at the head of each payload; nothing where no
path is up, or where the package is a lost member of the object's group (R361, R365). -/
def sendParts (s : State) (pkg op : Nat) (h : DWord) (off : Nat) (desc : Option DWord) (bodies : List (List Byte)) :
    Option (Remote × State) :=
  let ports := if lostMember s h pkg then [] else openPorts s pkg
  match ports[Config.portHash h (off / 65536) % max 1 ports.length]? with
  | none => none
  | some port =>
    let id := s.pe.nextReq
    let s := { s with pe := { s.pe with nextReq := id + 1 } }
    some (remoteOf id pkg op h off desc (bodies.headD []), bodies.foldl (fun s b => sendOn s port pkg op 0 h (BitVec.ofNat 64 off) (leBytes 8 id ++ b)) s)

/-- Send a request in one frame. -/
def sendRequest (s : State) (pkg op : Nat) (h : DWord) (off : Nat) (desc : Option DWord) (body : List Byte) :
    Option (Remote × State) := sendParts s pkg op h off desc [body]

/-- Send a request whose reply nothing waits for. -/
def tell (s : State) (pkg : Nat) (h : DWord) (body : List Byte) : State :=
  match sendRequest s pkg opAtomic h 0 none body with
  | some (_, s) => s
  | none => s

end Sys2Proof.Machine
end

