-- ==== Sys2Proof/Machine/Memory.lean ====
section
/-! DEFINITION. Memory as one canonical list of cells (R31, R174-R187): the 52-bit system-physical space at its own addresses,
and the on-chip stores that have no system-physical address above it (log 16). -/

namespace Sys2Proof.Machine

/-- The cells of memory, addresses strictly rising, none equal to what an unlisted address reads as. -/
abbrev Memory := List Host.Cell

/-- The base at which cluster stores stand in the model's addresses (log 16). -/
def clBase : Nat := 2 ^ 56
/-- The base of the scratchpads (log 16). -/
def spBase : Nat := 2 ^ 57
/-- The base of the accumulator files (log 16). -/
def accBase : Nat := 2 ^ 58
/-- The system-physical base of the die stores (R182). -/
def dsBase : Nat := 0x020000000000

/-- Whether a system-physical address lies in HBM, spill DRAM or a pool window (R182). -/
def isDram (a : Nat) : Bool :=
  a < 0x008000000000 || (0x010000000000 ≤ a && a < 0x020000000000) || (2 ^ 51 ≤ a && a < 2 ^ 52)

/-- Whether a system-physical address lies in HBM (R182). -/
def isHbm (a : Nat) : Bool := a < 0x008000000000

/-- Whether a system-physical address lies in a pool window (R182). -/
def isPool (a : Nat) : Bool := 2 ^ 51 ≤ a && a < 2 ^ 52

/-- Whether a system-physical address lies in a die store (R182). -/
def isDieStore (a : Nat) : Bool := dsBase ≤ a && a < dsBase + 2 ^ 29

/-- Whether the map of R182 has a system-physical address. -/
def isMapped (a : Nat) : Bool := isDram a || isDieStore a

/-- What an unlisted address reads as: nothing in the poisoned lines of HBM, spill DRAM and the pool, and zero in the on-chip
stores (R187, log 17). -/
def Memory.dflt (a : Nat) : Option Byte := if isDram a then none else some 0

/-- The listed byte of an address. -/
def Memory.find : Memory → Nat → Option Byte
  | [], _ => none
  | (k, v) :: m, a => if a == k then some v else if a < k then none else Memory.find m a

/-- The byte at an address; `none` in a poisoned line. -/
def Memory.read (m : Memory) (a : Nat) : Option Byte :=
  match m.find a with
  | some v => some v
  | none => Memory.dflt a

/-- Remove an address from the list. -/
def Memory.erase : Memory → Nat → Memory
  | [], _ => []
  | (k, v) :: m, a => if a == k then m else if a < k then (k, v) :: m else (k, v) :: Memory.erase m a

/-- List a byte at an address. -/
def Memory.insert : Memory → Nat → Byte → Memory
  | [], a, b => [(a, b)]
  | (k, v) :: m, a, b =>
    if a == k then (k, b) :: m else if a < k then (a, b) :: (k, v) :: m else (k, v) :: Memory.insert m a b

/-- Write one byte, keeping the canonical form. -/
def Memory.write (m : Memory) (a : Nat) (b : Byte) : Memory :=
  if Memory.dflt a == some b then m.erase a else m.insert a b

/-- Write bytes at rising addresses. -/
def Memory.writeAll (m : Memory) (a : Nat) : List Byte → Memory
  | [] => m
  | b :: bs => Memory.writeAll (m.write a b) (a + 1) bs

/-- Make bytes unlisted again: zero on chip, poisoned elsewhere. -/
def Memory.clear (m : Memory) (a : Nat) : Nat → Memory
  | 0 => m
  | n + 1 => Memory.clear (m.erase a) (a + 1) n

/-- Drop every listed byte of an address range. -/
def Memory.dropRange (m : Memory) (lo hi : Nat) : Memory := m.filter (fun c => !(lo ≤ c.1 && c.1 < hi))

/-- The listed bytes of an address range. -/
def Memory.slice (m : Memory) (lo hi : Nat) : Memory := m.filter (fun c => lo ≤ c.1 && c.1 < hi)

/-- Bytes at rising addresses, if none lies in a poisoned line. -/
def Memory.readAll (m : Memory) (a : Nat) : Nat → Option (List Byte)
  | 0 => some []
  | n + 1 =>
    match m.read a, Memory.readAll m (a + 1) n with
    | some b, some bs => some (b :: bs)
    | _, _ => none

/-- Bytes of an on-chip store; an unlisted byte is zero (R187). -/
def Memory.chip (m : Memory) (a n : Nat) : List Byte := (List.range n).map (fun i => (m.read (a + i)).getD 0)

/-- The canonical form: addresses strictly rising and no entry equal to what an unlisted address reads as. -/
def Memory.wf : Memory → Bool
  | [] => true
  | (k, v) :: m =>
    Memory.dflt k != some v && (match m with | [] => true | (k', _) :: _ => k < k') && Memory.wf m

/-- The lines of 64 bytes that a range touches (R183). -/
def linesOf (a len : Nat) : List Nat :=
  if len == 0 then [] else (List.range ((a + len - 1) / 64 - a / 64 + 1)).map (fun i => a / 64 + i)

/-- Whether the line is poisoned: a line of HBM, spill DRAM or the pool none of whose bytes is listed (R183). -/
def Memory.poisoned (m : Memory) (line : Nat) : Bool := (m.read (64 * line)).isNone

/-- The first poisoned line that a read of the range meets (R183). -/
def Memory.readPoison (m : Memory) (a len : Nat) : Option Nat := (linesOf a len).find? m.poisoned

/-- The first poisoned line that a write of the range covers in part (R183). -/
def Memory.writePoison (m : Memory) (a len : Nat) : Option Nat :=
  (linesOf a len).find? (fun l => m.poisoned l && !(a ≤ 64 * l && 64 * l + 64 ≤ a + len))

/-- Write zero bytes over a range. -/
def Memory.zeroFill (m : Memory) (a n : Nat) : Memory := m.writeAll a (List.replicate n 0)

/-! ## Places of the on-chip stores -/

/-- The cluster of a core among the package's 16 (R14). -/
def clusterOf (c : Core) : Nat := c.toNat / 256

/-- The die of a core (R14). -/
def dieOf (c : Core) : Nat := c.toNat / 1024

/-- The model address of a cluster store's byte (R180). -/
def clAddr (c : Core) (off : Nat) : Nat := clBase + clusterOf c * 2 ^ 25 + off

/-- The model address of a scratchpad byte by its physical offset (R175). -/
def spAddr (c : Core) (off : Nat) : Nat := spBase + c.toNat * 2 ^ 18 + off

/-- The model address of an accumulator row by its physical number (R89). -/
def accAddr (c : Core) (row : Nat) : Nat := accBase + c.toNat * 2 ^ 16 + row * 128

/-- The system-physical address of a die store's byte (R182). -/
def dsAddr (die off : Nat) : Nat := dsBase + die * 2 ^ 27 + off

/-- The physical scratchpad offset of a block's offset: half 1 holds squares 32-63 (R92). -/
def Block.spOff (b : Block) (off : Nat) : Nat := if b.half then (off + 2 ^ 17) % 2 ^ 18 else off

/-- The model address of a block's `sp:` offset (R92, R175). -/
def Block.spA (b : Block) (off : Nat) : Nat := spAddr b.core (b.spOff off)

/-- The model address of a block's vector register: half 1 holds banks t8-t15 (R92). -/
def Block.rowA (b : Block) (r : WReg) : Nat := accAddr b.core ((r.toNat + b2n b.half * 256) % 512)

/-- The bytes of a vector register (R89). -/
def rdRow (s : State) (r : WReg) : List Byte := Memory.chip s.mem (s.blk.rowA r) 128

/-- Write the bytes of a vector register (R89). -/
def wrRow (s : State) (r : WReg) (bs : List Byte) : State :=
  { s with mem := Memory.writeAll s.mem (s.blk.rowA r) (bs.take 128) }

/-! ## Full/empty bits (R32, R178) -/

/-- The full/empty bit of the word at an address. -/
def isFull (s : State) (a : Nat) : Bool := !(s.empties.contains (a / 8))

/-- Set the bit of a word full or empty. -/
def setFull (s : State) (a : Nat) (full : Bool) : State :=
  { s with empties := if full then s.empties.filter (· != a / 8) else insertSorted (a / 8) s.empties }

end Sys2Proof.Machine
end

