-- ==== Sys2Proof/Machine/Num.lean ====
section
/-! DEFINITION. Number formats, rounding, and exact arithmetic on their values (R38-R60). A value is held exactly as a sign and
m * 2^e; every result is formed exactly and rounded once. -/

namespace Sys2Proof.Machine

/-- FPSTAT's flags (R52). -/
abbrev Flags := BitVec 7

/-- FPSTAT.INVALID. -/
def fINVALID : Flags := 0x01
/-- FPSTAT.DIVZERO. -/
def fDIVZERO : Flags := 0x02
/-- FPSTAT.OVERFLOW. -/
def fOVERFLOW : Flags := 0x04
/-- FPSTAT.UNDERFLOW. -/
def fUNDERFLOW : Flags := 0x08
/-- FPSTAT.INEXACT. -/
def fINEXACT : Flags := 0x10
/-- FPSTAT.MXNAN. -/
def fMXNAN : Flags := 0x20
/-- FPSTAT.SAT. -/
def fSAT : Flags := 0x40

/-- A flag where a condition holds. -/
def flagIf (c : Bool) (f : Flags) : Flags := if c then f else 0

/-- The value of an encoding (R41): a NaN, signalling or quiet, an infinity, or the finite value (-1)^neg * m * 2^e. -/
inductive Val where
  | nan (signalling : Bool)
  | inf (neg : Bool)
  | fin (neg : Bool) (m : Nat) (e : Int)
  deriving DecidableEq, Repr

/-- Which special values a floating-point format has (R41). -/
inductive Specials where
  | infNan | nanOnly | none
  deriving DecidableEq, Repr

/-- A floating-point format (R41): exponent bits, fraction bits, bias, special values, and whether a NaN with the top fraction
bit clear is signalling (R42). -/
structure FFmt where
  eb : Nat
  fb : Nat
  bias : Nat
  sp : Specials
  snan : Bool
  deriving DecidableEq, Repr

/-- FP32. -/
def fp32 : FFmt := ⟨8, 23, 127, .infNan, true⟩
/-- BF16. -/
def bf16 : FFmt := ⟨8, 7, 127, .infNan, true⟩
/-- FP16. -/
def fp16 : FFmt := ⟨5, 10, 15, .infNan, true⟩
/-- E4M3. -/
def e4m3 : FFmt := ⟨4, 3, 7, .nanOnly, false⟩
/-- E5M2. -/
def e5m2 : FFmt := ⟨5, 2, 15, .infNan, false⟩
/-- E3M2. -/
def e3m2 : FFmt := ⟨3, 2, 3, .none, false⟩
/-- E2M3. -/
def e2m3 : FFmt := ⟨2, 3, 1, .none, false⟩
/-- E2M1. -/
def e2m1 : FFmt := ⟨2, 1, 1, .none, false⟩

/-- The width of a format in bits. -/
def FFmt.width (f : FFmt) : Nat := 1 + f.eb + f.fb

/-- The exponent of the unit in the last place of a subnormal (R41). -/
def FFmt.minq (f : FFmt) : Int := 1 - (f.bias : Int) - (f.fb : Int)

/-- The magnitude code of the largest finite value (R41). -/
def FFmt.maxCode (f : FFmt) : Nat :=
  match f.sp with
  | .infNan => (2 ^ f.eb - 1) * 2 ^ f.fb - 1
  | .nanOnly => 2 ^ (f.eb + f.fb) - 2
  | .none => 2 ^ (f.eb + f.fb) - 1

/-- The code of an infinity's magnitude, in a format that has it. -/
def FFmt.infCode (f : FFmt) : Nat := (2 ^ f.eb - 1) * 2 ^ f.fb

/-- The canonical NaN (R41); a format without NaN gives +0 (R46). -/
def FFmt.canonNaN (f : FFmt) : Nat :=
  match f.sp with
  | .infNan => (2 ^ f.eb - 1) * 2 ^ f.fb + 2 ^ (f.fb - 1)
  | .nanOnly => 2 ^ (f.eb + f.fb) - 1
  | .none => 0

/-- A code with its sign. -/
def FFmt.withSign (f : FFmt) (neg : Bool) (mag : Nat) : Nat := if neg then mag + 2 ^ (f.eb + f.fb) else mag

/-- The value of an encoding (R41, R42). -/
def FFmt.decode (f : FFmt) (code : Nat) : Val :=
  let neg := bitAt code (f.eb + f.fb)
  let mag := bits code 0 (f.eb + f.fb)
  let e := mag / 2 ^ f.fb
  let fr := mag % 2 ^ f.fb
  if mag > f.maxCode then
    if f.sp == .infNan && fr == 0 then .inf neg
    else .nan (f.snan && !bitAt fr (f.fb - 1))
  else if e == 0 then .fin neg fr f.minq
  else .fin neg (fr + 2 ^ f.fb) (f.minq + (e : Int) - 1)

/-- The rounding modes (R43). -/
inductive RMode where
  | rne | rtz | rup | rdn | sr
  deriving DecidableEq, Repr

/-- The mode of FPCTL.RM; the reserved codes never reach it (R44). -/
def RMode.of (rm : BitVec 3) : RMode :=
  match rm with
  | 1#3 => .rtz | 2#3 => .rup | 3#3 => .rdn | 4#3 => .sr | _ => .rne

/-- Arithmetic takes SR as RNE (R43). -/
def RMode.arith (m : RMode) : RMode := if m == .sr then .rne else m

/-- Whether the magnitude t + r/d, with 0 <= r < d, moves up to t + 1 (R43, R47); `l` is the low 24 bits of the draw. -/
def roundsUp (mode : RMode) (l : Nat) (neg : Bool) (t r d : Nat) : Bool :=
  match mode with
  | .rne => 2 * r > d || (2 * r == d && t % 2 == 1)
  | .rtz => false
  | .rup => r != 0 && !neg
  | .rdn => r != 0 && neg
  | .sr => r * 2 ^ 24 / d + l % 2 ^ 24 ≥ 2 ^ 24

/-- The magnitude m * 2^e as a whole number of units 2^q, rounded, and whether it changed (R43, R47). -/
def roundAt (mode : RMode) (l : Nat) (neg : Bool) (m : Nat) (e q : Int) : Nat × Bool :=
  if q ≤ e then (m * 2 ^ (e - q).toNat, false)
  else
    let d := 2 ^ (q - e).toNat
    let t := m / d
    let r := m % d
    (if roundsUp mode l neg t r d then t + 1 else t, r != 0)

/-- Floor of the base-2 logarithm of m * 2^e, for m > 0 (R60). -/
def log2Val (m : Nat) (e : Int) : Int := (Nat.log2 m : Int) + e

/-- The result of an overflow (R45). -/
def overflowCode (f : FFmt) (mode : RMode) (neg : Bool) : Nat :=
  match f.sp with
  | .infNan =>
    match mode with
    | .rne | .sr => f.withSign neg f.infCode
    | .rtz => f.withSign neg f.maxCode
    | .rup => if neg then f.withSign true f.maxCode else f.infCode
    | .rdn => if neg then f.withSign true f.infCode else f.maxCode
  | _ => f.withSign neg f.maxCode

/-- Rounding of a finite nonzero value to a format, with the flags of R45. -/
def roundFin (f : FFmt) (mode : RMode) (l : Nat) (neg : Bool) (m : Nat) (e : Int) : Nat × Flags :=
  let qu := log2Val m e - (f.fb : Int)
  let q := max qu f.minq
  let (r, inexact) := roundAt mode l neg m e q
  let mag := (q - f.minq).toNat * 2 ^ f.fb + r
  if mag > f.maxCode then (overflowCode f mode neg, fOVERFLOW ||| fINEXACT)
  else
    let (ru, _) := roundAt mode l neg m e qu
    let tiny := qu < f.minq && ru < 2 ^ (f.fb + (f.minq - qu).toNat)
    (f.withSign neg mag, flagIf inexact fINEXACT ||| flagIf (tiny && inexact) fUNDERFLOW)

/-- `RoundTo` to a floating-point format (R43, R45-R47, R60). -/
def roundTo (f : FFmt) (mode : RMode) (l : Nat) : Val → Nat × Flags
  | .nan s => (f.canonNaN, if f.sp == .none then fINVALID else flagIf s fINVALID)
  | .inf neg => if f.sp == .infNan then (f.withSign neg f.infCode, 0) else (f.withSign neg f.maxCode, fOVERFLOW ||| fINEXACT)
  | .fin neg m e => if m == 0 then (f.withSign neg 0, 0) else roundFin f mode l neg m e

/-! ## Integers (R40, R46) -/

/-- The least value of an integer type. -/
def intMin (signed : Bool) (w : Nat) : Int := if signed then -(2 : Int) ^ (w - 1) else 0

/-- The greatest value of an integer type. -/
def intMax (signed : Bool) (w : Nat) : Int := if signed then (2 : Int) ^ (w - 1) - 1 else (2 : Int) ^ w - 1

/-- `Wrap` (R40, R60). -/
def wrap (w : Nat) (x : Int) : Nat := (x % (2 : Int) ^ w).toNat

/-- `SatI` and `SatN` (R40, R60): the clamped value and SAT. -/
def sat (signed : Bool) (w : Nat) (x : Int) : Nat × Flags :=
  if x < intMin signed w then (wrap w (intMin signed w), fSAT)
  else if x > intMax signed w then (wrap w (intMax signed w), fSAT)
  else (wrap w x, 0)

/-- An integer encoding's value (R40). -/
def intVal (signed : Bool) (w : Nat) (code : Nat) : Int :=
  if signed && bitAt code (w - 1) then (bits code 0 w : Int) - (2 : Int) ^ w else (bits code 0 w : Int)

/-- An integer as an exact value. -/
def valOfInt (x : Int) : Val := .fin (decide (x < 0)) x.natAbs 0

/-- Float to integer (R46). -/
def floatToInt (signed : Bool) (w : Nat) (mode : RMode) (l : Nat) : Val → Nat × Flags
  | .nan _ => (0, fINVALID)
  | .inf neg => (wrap w (if neg then intMin signed w else intMax signed w), fINVALID)
  | .fin neg m e =>
    let (r, inexact) := roundAt mode l neg m e 0
    let x : Int := if neg then -(r : Int) else (r : Int)
    if x < intMin signed w then (wrap w (intMin signed w), fINVALID)
    else if x > intMax signed w then (wrap w (intMax signed w), fINVALID)
    else (wrap w x, flagIf inexact fINEXACT)

/-! ## Formats by code (R38) -/

/-- An element format: an integer, a float, or a microscaling format with float or 8-bit integer elements (R38). -/
inductive Fmt where
  | int (signed : Bool) (w : Nat)
  | flt (f : FFmt)
  | mx (f : FFmt)
  | mxi8
  deriving DecidableEq, Repr

/-- The formats of R38; codes 0x16 (the scale) and 0x17-0x1F name none. -/
def fmtOf (code : Nat) : Option Fmt :=
  match code with
  | 0x00 => some (.int true 8) | 0x01 => some (.int true 16) | 0x02 => some (.int true 32) | 0x03 => some (.int true 64)
  | 0x04 => some (.int false 8) | 0x05 => some (.int false 16) | 0x06 => some (.int false 32)
  | 0x07 => some (.int false 64)
  | 0x08 => some (.flt fp32) | 0x09 => some (.flt fp16) | 0x0A => some (.flt bf16) | 0x0B => some (.flt e4m3)
  | 0x0C => some (.flt e5m2) | 0x0D => some (.flt e3m2) | 0x0E => some (.flt e2m3) | 0x0F => some (.flt e2m1)
  | 0x10 => some (.mx e4m3) | 0x11 => some (.mx e5m2) | 0x12 => some (.mx e3m2) | 0x13 => some (.mx e2m3)
  | 0x14 => some (.mx e2m1) | 0x15 => some .mxi8
  | _ => none

/-- The width of an element in bits, scales apart (R38). -/
def Fmt.width : Fmt → Nat
  | .int _ w => w
  | .flt f => f.width
  | .mx f => f.width
  | .mxi8 => 8

/-- Whether a format is microscaling. -/
def Fmt.isMx : Fmt → Bool
  | .mx _ | .mxi8 => true
  | _ => false

/-- Whether a format is an integer format. -/
def Fmt.isInt : Fmt → Bool
  | .int _ _ => true
  | _ => false

/-- Whether a format is a plain floating-point format. -/
def Fmt.isFloat : Fmt → Bool
  | .flt _ => true
  | _ => false

/-- The value of an element and the flags of decoding it, under the scale code `c` for a microscaling format (R41, R50). -/
def Fmt.value (fm : Fmt) (c code : Nat) : Val × Flags :=
  match fm with
  | .int s w => (valOfInt (intVal s w code), 0)
  | .flt f => (f.decode code, 0)
  | .mx f =>
    if c == 255 then (.nan false, fMXNAN)
    else match f.decode code with
      | .fin n m e => (.fin n m (e + (c : Int) - 127), 0)
      | v => (v, 0)
  | .mxi8 =>
    if c == 255 then (.nan false, fMXNAN)
    else
      let x := intVal true 8 code
      (.fin (decide (x < 0)) x.natAbs ((c : Int) - 127 - 6), 0)

/-- Conversion of a value to a format that is not microscaling (R45-R47, R203); `isInt` says that the source is an integer,
whose clamp sets SAT. -/
def convert (isInt : Bool) (fm : Fmt) (mode : RMode) (l : Nat) (v : Val) : Nat × Flags :=
  match fm with
  | .flt f => roundTo f mode l v
  | .int s w =>
    match isInt, v with
    | true, .fin neg m _ => sat s w (if neg then -(m : Int) else (m : Int))
    | _, v => floatToInt s w mode l v
  | .mx f => roundTo f mode l v
  | .mxi8 => floatToInt true 8 mode l v

/-! ## Arithmetic on values (R42) -/

/-- Whether an operand is a signalling NaN. -/
def Val.snan : Val → Bool
  | .nan s => s
  | _ => false

/-- Whether an operand is a NaN. -/
def Val.isNan : Val → Bool
  | .nan _ => true
  | _ => false

/-- The signed mantissa of m * 2^e in units 2^q, for q <= e. -/
def scaled (neg : Bool) (m : Nat) (e q : Int) : Int :=
  let x : Int := (m : Int) * (2 : Int) ^ (e - q).toNat
  if neg then -x else x

/-- The exact sum, with the sign of an exact zero as IEEE 754-2019 has it under the mode (R42). -/
def vAdd (mode : RMode) (a b : Val) : Val × Flags :=
  let inv := flagIf (a.snan || b.snan) fINVALID
  match a, b with
  | .nan _, _ => (.nan false, inv)
  | _, .nan _ => (.nan false, inv)
  | .inf x, .inf y => if x == y then (.inf x, 0) else (.nan false, fINVALID)
  | .inf x, _ => (.inf x, 0)
  | _, .inf y => (.inf y, 0)
  | .fin n1 m1 e1, .fin n2 m2 e2 =>
    let q := min e1 e2
    let x := scaled n1 m1 e1 q + scaled n2 m2 e2 q
    if x == 0 then
      let neg := if m1 == 0 && m2 == 0 && n1 == n2 then n1 else mode == .rdn
      (.fin neg 0 q, 0)
    else (.fin (decide (x < 0)) x.natAbs q, 0)

/-- The value with its sign inverted; a NaN stays as it is. -/
def vNegate : Val → Val
  | .nan s => .nan s
  | .inf n => .inf (!n)
  | .fin n m e => .fin (!n) m e

/-- The exact product (R42). -/
def vMul (a b : Val) : Val × Flags :=
  let inv := flagIf (a.snan || b.snan) fINVALID
  match a, b with
  | .nan _, _ => (.nan false, inv)
  | _, .nan _ => (.nan false, inv)
  | .inf x, .inf y => (.inf (x != y), 0)
  | .inf x, .fin n m _ => if m == 0 then (.nan false, fINVALID) else (.inf (x != n), 0)
  | .fin n m _, .inf y => if m == 0 then (.nan false, fINVALID) else (.inf (n != y), 0)
  | .fin n1 m1 e1, .fin n2 m2 e2 => (.fin (n1 != n2) (m1 * m2) (e1 + e2), 0)

/-- a * b + d exactly (R136): a product of 0 and infinity is invalid whatever d is. -/
def vFma (mode : RMode) (a b d : Val) : Val × Flags :=
  let (p, f1) := vMul a b
  let (s, f2) := vAdd mode p d
  (s, f1 ||| f2 ||| flagIf d.snan fINVALID)

/-- The order of two values that are not NaN; -0 equals +0. -/
def vLess (a b : Val) : Bool :=
  match a, b with
  | .inf true, .inf true => false
  | .inf true, _ => true
  | _, .inf true => false
  | .inf false, _ => false
  | _, .inf false => true
  | .fin n1 m1 e1, .fin n2 m2 e2 =>
    let q := min e1 e2
    decide (scaled n1 m1 e1 q < scaled n2 m2 e2 q)
  | _, _ => false

/-- Equality of two values that are not NaN; -0 equals +0. -/
def vEqual (a b : Val) : Bool := !vLess a b && !vLess b a

/-- The sign of a value. -/
def Val.neg : Val → Bool
  | .nan _ => false
  | .inf n => n
  | .fin n _ _ => n

/-- The maximum or minimum of R42: a NaN if either operand is one, and -0 below +0. -/
def vMaxMin (isMax : Bool) (a b : Val) : Val × Flags :=
  let inv := flagIf (a.snan || b.snan) fINVALID
  if a.isNan || b.isNan then (.nan false, inv)
  else
    let aLess := vLess a b || (vEqual a b && a.neg && !b.neg)
    (if aLess == isMax then b else a, 0)

/-- The absolute value. -/
def vAbsolute : Val → Val
  | .nan s => .nan s
  | .inf _ => .inf false
  | .fin _ m e => .fin false m e

/-- 1 / v with a sticky last bit, for a finite nonzero v (R138). -/
def recip (neg : Bool) (m : Nat) (e : Int) : Val :=
  let k := Nat.log2 m + 64
  let n := 2 ^ k / m
  let sticky := if 2 ^ k % m == 0 then 0 else 1
  .fin neg (2 * n + sticky) (-e - (k : Int) - 1)

/-- Floor of the square root, by bits i and below of a candidate `acc`. -/
def isqrtBits (n : Nat) : Nat → Nat → Nat
  | 0, acc => acc
  | i + 1, acc =>
    let c := acc + 2 ^ i
    if c * c ≤ n then isqrtBits n i c else isqrtBits n i acc

/-- Floor of the square root. -/
def isqrt (n : Nat) : Nat := isqrtBits n (Nat.log2 n / 2 + 1) 0

/-- 1 / sqrt v with a sticky last bit, for a finite positive v (R138). -/
def recipSqrt (m : Nat) (e : Int) : Val :=
  let (m, e) := if e % 2 == 0 then (m, e) else (2 * m, e - 1)
  let k := Nat.log2 m / 2 + 64
  let n := isqrt (2 ^ (2 * k) / m)
  let sticky := if n * n * m == 2 ^ (2 * k) then 0 else 1
  .fin false (2 * n + sticky) (-(e / 2) - (k : Int) - 1)

/-- `vrcp` (R138). -/
def vRcp (mode : RMode) (v : Val) : Nat × Flags :=
  match v with
  | .nan s => (fp32.canonNaN, flagIf s fINVALID)
  | .inf n => (fp32.withSign n 0, 0)
  | .fin n m e => if m == 0 then (fp32.withSign n fp32.infCode, fDIVZERO) else roundTo fp32 mode 0 (recip n m e)

/-- `vrsqrt` (R138). -/
def vRsqrt (mode : RMode) (v : Val) : Nat × Flags :=
  match v with
  | .nan s => (fp32.canonNaN, flagIf s fINVALID)
  | .inf n => if n then (fp32.canonNaN, fINVALID) else (0, 0)
  | .fin n m e =>
    if m == 0 then (fp32.withSign n fp32.infCode, fDIVZERO)
    else if n then (fp32.canonNaN, fINVALID)
    else roundTo fp32 mode 0 (recipSqrt m e)

/-- 2^(2^-i) in units 2^-160, rounded down, for i = 1 to 24. -/
def exp2Table0 : List Nat :=
  [0x16A09E667F3BCC908B2FB1366EA957D3E3ADEC175,
   0x1306FE0A31B7152DE8D5A46305C85EDECBC273436,
   0x1172B83C7D517ADCDF7C8C50EB14A792035509FF7,
   0x10B5586CF9890F6298B92B71842A98364291408B3,
   0x1059B0D31585743AE7C548EB68CA417FE53E3495F,
   0x102C9A3E778060EE6F7CACA4F7A29BDE93D70A2CA,
   0x10163DA9FB33356D84A66AE336DCDFA4003EC04C3,
   0x100B1AFA5ABCBED6129AB13EC11DC954455B8187F,
   0x10058C86DA1C09EA1FF19D294CF2F679C68BF05EB,
   0x1002C605E2E8CEC506D21BFC89A23A010806C0A42,
   0x100162F3904051FA128BCA9C55C31E5E06DDD3115,
   0x1000B175EFFDC76BA38E31671CA939726694630E2,
   0x100058BA01FB9F96D6CACD4B180917C3E43A86F9E,
   0x10002C5CC37DA9491D0985C348C68E7B3D505D939,
   0x1000162E525EE054754457D5995292026D9D47870,
   0x10000B17255775C040618BF4A4ADE83FCA8F8CFDF,
   0x1000058B91B5BC9AE2EED81E9B7D4CFAC1B1B76FB,
   0x100002C5C89D5EC6CA4D7C8ACC017B7C9D9CDF6F6,
   0x10000162E43F4F831060E02D839A9D16D6FB332D9,
   0x100000B1721BCFC99D9F890EA069117637D190CB3,
   0x10000058B90CF1E6D97F9CA14DBCC16289FA75FFD,
   0x1000002C5C863B73F016468F6BAC5CA2C11F6D72B,
   0x100000162E430E5A18F6119E3C02282A5F70F2C46,
   0x1000000B1721835514B86E6D96EFD1BFF6819E466]

/-- 2^(2^-i) in units 2^-160, rounded down, for i = 25 to 48. -/
def exp2Table1 : List Nat :=
  [0x100000058B90C0B48C6BE5DF846C5B2F02C95A3BB,
   0x10000002C5C8601CC6B9E94213C72737ABFEF0E9C,
   0x1000000162E42FFF037DF38AA2B219F06BAA53C7E,
   0x10000000B17217FBA9C739AA5819F44F9C7FA9EE4,
   0x1000000058B90BFCDEE5ACD3C1CEDC823B10657B2,
   0x100000002C5C85FE31F35A6A30DA1BE50FD0F47F5,
   0x10000000162E42FF0999CE3541B9FFFCFBA83C5E1,
   0x100000000B17217F80F4EF5AADDA4555466E70CC0,
   0x10000000058B90BFBF8479BD5A81B51ADA9F644DE,
   0x1000000002C5C85FDF84BD62AE30A74CCBCEB4B8E,
   0x100000000162E42FEFB2FED257559BDAA79B863EE,
   0x1000000000B17217F7D5A7716BBA4A9AF17D58448,
   0x100000000058B90BFBE9DDBAC5E109CCF1D2E27D5,
   0x10000000002C5C85FDF4B15DE6F17EB0D96388F47,
   0x1000000000162E42FEFA494F1478FDE05516EBAB5,
   0x10000000000B17217F7D20CF927C8E94CEAD93CA6,
   0x1000000000058B90BFBE8F71CB4E4B33E5A06BE76,
   0x100000000002C5C85FDF477B662B26945D0AC1C4E,
   0x10000000000162E42FEFA3AE53369388CA690840D,
   0x100000000000B17217F7D1D351A389D40C580E854,
   0x10000000000058B90BFBE8E8B2D3D4EDEFFA3DED8,
   0x1000000000002C5C85FDF4741BEA6E77F2715723A,
   0x100000000000162E42FEFA39FE95583C37D5CEED5,
   0x1000000000000B17217F7D1CFB72B45E2B9232F79]

/-- The product of the 2^(2^-i) whose bit i of the fraction is set, in units 2^-160; `fr` is the fraction in units 2^-48. -/
def exp2Frac (fr : Nat) : List Nat → Nat → Nat → Nat
  | [], _, acc => acc
  | c :: cs, i, acc => exp2Frac fr cs (i + 1) (if bitAt fr (48 - i) then acc * c / 2 ^ 160 else acc)

/-- 2^x for a fraction of 48 bits, with a sticky last bit where the fraction is not zero (R59, log 11). -/
def exp2Val (n : Int) (fr : Nat) : Val :=
  if fr == 0 then .fin false 1 n
  else .fin false (2 * exp2Frac fr (exp2Table0 ++ exp2Table1) 1 (2 ^ 160) + 1) (n - 161)

/-- `vexp2` (R59). -/
def vExp2 (v : Val) : Nat × Flags :=
  match v with
  | .nan s => (fp32.canonNaN, flagIf s fINVALID)
  | .inf n => if n then (0, 0) else (fp32.infCode, 0)
  | .fin neg m e =>
    if m == 0 then (0x3F800000, 0)
    else if vLess v (.fin true 126 0) then (0, fUNDERFLOW ||| fINEXACT)
    else if !vLess v (.fin false 128 0) then (fp32.infCode, fOVERFLOW ||| fINEXACT)
    else if log2Val m e < -25 then (0x3F800000, fINEXACT)
    else
      let x := if e + 48 < 0 then scaled neg (m / 2 ^ (-(e + 48)).toNat) 0 0 else scaled neg m (e + 48) 0
      let n := x / (2 : Int) ^ 48
      let fr := (x % (2 : Int) ^ 48).toNat
      roundTo fp32 .rne 0 (exp2Val n fr)

/-! ## Microscaling (R50, R51) -/

/-- The largest exponent of an element format in R51's table. -/
def mxEmax (fm : Fmt) : Int :=
  match fm with
  | .mx f => if f.eb == 4 then 8 else if f.eb == 5 then 15 else if f.eb == 3 then 4 else 2
  | _ => 0

/-- Whether the element format keeps infinities (R51). -/
def mxKeepsInf (fm : Fmt) : Bool :=
  match fm with
  | .mx f => f.eb == 5
  | _ => false

/-- The greatest Floor(Log2 |v|) of the finite nonzero values (R51). -/
def maxLog : List Val → Option Int
  | [] => none
  | .fin _ m e :: vs =>
    if m == 0 then maxLog vs
    else match maxLog vs with
      | some x => some (max x (log2Val m e))
      | none => some (log2Val m e)
  | _ :: vs => maxLog vs

/-- `MXScale` (R51). A signalling NaN sets MXNAN and not INVALID besides: R42 and R52 name no such case for an MX target, and the model
chooses the one flag that R51 names (log 66). -/
def mxScale (fm : Fmt) (vs : List Val) : Nat × Flags :=
  let anyInf := vs.any (fun v => match v with | .inf _ => true | _ => false)
  if vs.any (·.isNan) then (255, fMXNAN)
  else if anyInf && !mxKeepsInf fm then (255, fMXNAN)
  else
    let fl := flagIf anyInf fMXNAN
    match maxLog vs with
    | none => (0, fl)
    | some x => ((max (-127) (min 127 (x - mxEmax fm)) + 127).toNat, fl)

/-- `MXElem` (R51). -/
def mxElem (fm : Fmt) (mode : RMode) (l : Nat) (code : Nat) (v : Val) : Nat × Flags :=
  if code == 255 then (0, 0)
  else match fm, v with
    | .mx f, .inf n => (f.withSign n f.infCode, 0)
    | .mx f, .fin n m e =>
      if m == 0 then (f.withSign n 0, 0)
      else
        let e' := e - ((code : Int) - 127)
        let q := max (log2Val m e' - (f.fb : Int)) f.minq
        let (r, inexact) := roundAt mode l n m e' q
        let mag := (q - f.minq).toNat * 2 ^ f.fb + r
        if mag > f.maxCode then (f.withSign n f.maxCode, fINEXACT)
        else (f.withSign n mag, flagIf inexact fINEXACT)
    | .mxi8, .fin n m e =>
      let (r, inexact) := roundAt mode l n m (e - ((code : Int) - 127) + 6) 0
      let c := min r 127
      (wrap 8 (if n then -(c : Int) else (c : Int)), flagIf (inexact || r > 127) fINEXACT)
    | _, _ => (0, 0)

/-! ## Stochastic draws (R48) -/

/-- One shift of the Galois form (R48). -/
def lfsrStep (s : Word) : Word := if s.getLsbD 0 then (s >>> 1) ^^^ 0x80200003#32 else s >>> 1

/-- Apply a function n times. -/
def iter (f : Word → Word) : Nat → Word → Word
  | 0, s => s
  | n + 1, s => iter f n (f s)

/-- One draw: 32 steps (R48). -/
def lfsrDraw (s : Word) : Word := iter lfsrStep 32 s

/-- The state after n draws. -/
def lfsrDraws (n : Nat) (s : Word) : Word := iter lfsrDraw n s

end Sys2Proof.Machine
end

