-- ==== Sys2Proof/Machine/Ops.lean ====
section
/-! DEFINITION. The named operations every meaning goes through: reading and writing registers (R80-R96), the program counter,
taint sets and load tags (R94, R225-R227), the strand's waits (R25, R122), taking a trap and an engine fault, terminating a
block and returning from the handler (R118-R126), tokens (R30), posted stores (R191, R228), hub-resident tables (R269). -/

namespace Sys2Proof.Machine

/-- What a meaning answers. -/
abbrev Out := Host.Outcome State Fault Refusal

/-! ## The trap causes (R118) -/

/-- ILLEGAL_INSTRUCTION. -/
def cILLEGAL : Nat := 0x01
/-- ILLEGAL_OPERAND. -/
def cOPERAND : Nat := 0x02
/-- MISALIGNED_TARGET. -/
def cMISALIGNED : Nat := 0x03
/-- FETCH_FAULT. -/
def cFETCH : Nat := 0x04
/-- SOFTWARE. -/
def cSOFTWARE : Nat := 0x05
/-- SCOPE_VIOLATION. -/
def cSCOPE : Nat := 0x06
/-- TOKEN_PAIRING. -/
def cPAIRING : Nat := 0x07
/-- TOKEN_OVERFLOW. -/
def cTOKOVER : Nat := 0x08
/-- ADDRESS_RANGE. -/
def cRANGE : Nat := 0x09
/-- OWNERSHIP. -/
def cOWNER : Nat := 0x0A
/-- INVALID_HANDLE. -/
def cINVALIDH : Nat := 0x0B
/-- STALE_HANDLE. -/
def cSTALE : Nat := 0x0C
/-- BANK_SIDE. -/
def cBANK : Nat := 0x0D
/-- DEAD_READ. -/
def cDEAD : Nat := 0x0E
/-- FORMAT. -/
def cFORMAT : Nat := 0x0F
/-- DESCRIPTOR. -/
def cDESC : Nat := 0x10
/-- SHAPE. -/
def cSHAPE : Nat := 0x11
/-- RIGHTS. -/
def cRIGHTS : Nat := 0x12
/-- RACE. -/
def cRACE : Nat := 0x13
/-- LEASE_CONFLICT. -/
def cLEASE : Nat := 0x14
/-- OBJECT_KIND. -/
def cKIND : Nat := 0x15
/-- RESOURCE_FULL. -/
def cFULL : Nat := 0x16
/-- WATCHDOG. -/
def cWATCHDOG : Nat := 0x17
/-- DOUBLE_TRAP. -/
def cDOUBLE : Nat := 0x18
/-- DATAPATH_ERROR. -/
def cDATAPATH : Nat := 0x19

/-! ## Scalars and predicates (R81, R82, R95, R96) -/

/-- The cell of a scalar. -/
def Block.sCell (b : Block) (r : SReg) : SCell := (b.s[r.toNat]?).getD ⟨0, 0, false⟩

/-- The value a scalar reads as; s0 reads as zero (R81). -/
def rdS (b : Block) (r : SReg) : DWord := if r == 0 then 0 else (b.sCell r).v

/-- The taint set of a scalar; s0 has none (R81). -/
def taintS (b : Block) (r : SReg) : Taint := if r == 0 then 0 else (b.sCell r).t

/-- Whether a scalar is dead; s0 never is (R81). -/
def deadS (b : Block) (r : SReg) : Bool := r != 0 && (b.sCell r).dead

/-- Write a scalar with a taint set, discarding a write of s0; a dead scalar becomes live (R81, R95). -/
def wrS (b : Block) (r : SReg) (v : DWord) (t : Taint) : Block :=
  if r == 0 then b else { b with s := b.s.setIfInBounds r.toNat ⟨v, t, false⟩ }

/-- The cell of a predicate. -/
def Block.pCell (b : Block) (p : PReg) : PCell := (b.p[p.toNat]?).getD ⟨0, 0, false⟩

/-- The value a predicate reads as; p0 reads as all ones (R82). -/
def rdP (b : Block) (p : PReg) : BitVec 128 := if p == 0 then BitVec.allOnes 128 else (b.pCell p).v

/-- The taint set of a predicate; p0 has none (R82). -/
def taintP (b : Block) (p : PReg) : Taint := if p == 0 then 0 else (b.pCell p).t

/-- Whether a predicate is dead; p0 never is (R82). -/
def deadP (b : Block) (p : PReg) : Bool := p != 0 && (b.pCell p).dead

/-- Write a predicate; p0 is never written (R69, R82). -/
def wrP (b : Block) (p : PReg) (v : BitVec 128) (t : Taint) : Block :=
  if p == 0 then b else { b with p := b.p.setIfInBounds p.toNat ⟨v, t, false⟩ }

/-- A condition as a predicate's value (R82). -/
def condP (c : Bool) : BitVec 128 := if c then BitVec.allOnes 128 else 0

/-- The taint set that a format W predicate adds to the wrapped instruction's results and accesses (R226). -/
def Block.wrapT (b : Block) : Taint := b.wrap.getD 0

/-- A strand instruction's write of its scalar result (R104 rule 5, R226). -/
def putS (b : Block) (r : SReg) (v : DWord) (t : Taint) : Block := wrS b r v (t ||| b.wrapT)

/-- A strand instruction's write of its predicate result (R104 rule 5, R226). -/
def putP (b : Block) (p : PReg) (v : BitVec 128) (t : Taint) : Block := wrP b p v (t ||| b.wrapT)

/-- The cell of a handle register. -/
def Block.hCell (b : Block) (h : BitVec 4) : HCell := (b.h[h.toNat]?).getD ⟨0, 0, 0, false, false⟩

/-- Replace a handle register. -/
def Block.setH (b : Block) (h : BitVec 4) (c : HCell) : Block := { b with h := b.h.setIfInBounds h.toNat c }

/-- The cell of a tile descriptor register. -/
def Block.dCell (b : Block) (d : BitVec 4) : DCell := (b.d[d.toNat]?).getD ⟨0, false⟩

/-- The cell of a shape register. -/
def Block.qCell (b : Block) (q : BitVec 3) : QCell := (b.q[q.toNat]?).getD ⟨0, false⟩

/-- A step binding. -/
def Block.gCell (b : Block) (g : BitVec 3) : GCell := (b.g[g.toNat]?).getD GCell.zero

/-- Replace a step binding. -/
def Block.setG (b : Block) (g : BitVec 3) (c : GCell) : Block := { b with g := b.g.setIfInBounds g.toNat c }

/-- A token counter. -/
def Block.token (b : Block) (k : BitVec 4) : Token := (b.tok[k.toNat]?).getD ⟨0, .S, .S, false⟩

/-- Replace a token counter. -/
def Block.setToken (b : Block) (k : BitVec 4) (t : Token) : Block := { b with tok := b.tok.setIfInBounds k.toNat t }

/-- The taint and dead mark of a vector register. -/
def Block.wCell (b : Block) (w : WReg) : WCell := (b.w[w.toNat]?).getD ⟨0, false⟩

/-- Replace the taint and dead mark of a vector register. -/
def Block.setW (b : Block) (w : WReg) (c : WCell) : Block := { b with w := b.w.setIfInBounds w.toNat c }

/-! ## The engines of a block -/

/-- An engine's queue and running command. -/
def Block.eng (b : Block) : Engine → EngineQ
  | .F => b.eF
  | .V => b.eV
  | .M => b.eM
  | .P => b.eP

/-- Replace an engine's queue and running command. -/
def Block.setEng (b : Block) (e : Engine) (q : EngineQ) : Block :=
  match e with
  | .F => { b with eF := q }
  | .V => { b with eV := q }
  | .M => { b with eM := q }
  | .P => { b with eP := q }

/-- The commands of an engine that have started and not completed, in queue order. -/
def EngineQ.started (q : EngineQ) : List Cmd := q.run.toList ++ q.trail

/-- The engine when its running command completes: the one started behind it runs (R26). -/
def EngineQ.advance (q : EngineQ) : EngineQ := { q with run := q.trail.head?, trail := q.trail.tail }

/-- Change every command of an engine. -/
def EngineQ.mapCmds (f : Cmd → Cmd) (q : EngineQ) : EngineQ := { q with q := q.q.map f, run := q.run.map f, trail := q.trail.map f }

/-- The commands running in the engines. -/
def Block.running (b : Block) : List Cmd :=
  b.eF.started ++ b.eV.started ++ b.eM.started ++ b.eP.started

/-- The commands that stand in the queues and have not started. -/
def Block.queued (b : Block) : List Cmd := b.eF.q ++ b.eV.q ++ b.eM.q ++ b.eP.q

/-- The commands queued or running. -/
def Block.cmds (b : Block) : List Cmd := b.running ++ b.queued

/-- The scalar that a command writes at its completion, for which the strand waits (R25, R143; log 76). -/
def Cmd.destS (c : Cmd) : Option SReg :=
  match c.instr with
  | .vext _ _ _ _ _ sd => if c.off then none else some sd
  | _ => none

/-- The predicate that a command writes at its completion (R139). -/
def Cmd.destP (c : Cmd) : Option PReg :=
  match c.instr with
  | .vcmpEq _ o | .vcmpNe _ o | .vcmpLt _ o | .vcmpGe _ o | .vcmpLtN _ o | .vcmpGeN _ o =>
    if c.off then none else some (o.wd.setWidth 6)
  | _ => none

/-- Whether some command of a list writes the scalar; s0 is never waited for. -/
def writesS (cs : List Cmd) (r : SReg) : Bool := r != 0 && cs.any (fun c => c.destS == some r)

/-- Whether some command of a list writes the predicate. -/
def writesP (cs : List Cmd) (p : PReg) : Bool := p != 0 && cs.any (fun c => c.destP == some p)

/-- Whether the strand must wait for a scalar: a command or an outstanding object load will write it (R25, R194). -/
def busyS (b : Block) (r : SReg) : Bool := writesS b.cmds r || (r != 0 && b.loads.any (fun l => l.dst == r))

/-- Whether the strand must wait for a predicate (R25). -/
def busyP (b : Block) (p : PReg) : Bool := writesP b.cmds p

/-! ## The program counter and the outcome of a strand instruction -/

/-- The length of the instruction being executed: 8 in format W, else as given (R65). -/
def Block.len (b : Block) (n : Nat) : Word := if b.wrap.isSome then 8 else BitVec.ofNat 32 n

/-- The block behind an instruction of n bytes. -/
def Block.adv (b : Block) (n : Nat) : Block := { b with pc := b.pc + b.len n, wait := none }

/-- The next state with the strand's block replaced. -/
def nextB (s : State) (b : Block) : Out := .next { s with blk := b }

/-- The instruction completes: the block b behind it. -/
def doneB (s : State) (b : Block) (n : Nat) : Out := .next { s with blk := b.adv n }

/-- The instruction completes with no other effect than the program counter's. -/
def doneS (s : State) (n : Nat) : Out := doneB s s.blk n

/-- The strand waits; the instruction has not executed (R25, R32, R243). -/
def waitS (s : State) (w : Wait) : Out := .next { s with blk := { s.blk with wait := some w } }

/-! ## Traps, engine faults and termination (R118-R126) -/

/-- Every block of the package. -/
def allBlocks (s : State) : List Block := if s.blk.phase == .none then s.others else s.blk :: s.others

/-- The block of an identity. -/
def findBlock (s : State) (id : BId) : Option Block := (allBlocks s).find? (fun b => b.id == id)

/-- The request that withdraws a lease request from another package (log 14). -/
def withdrawBody (req : Nat) : List Byte := leBytes 1 22 ++ leBytes 8 req

/-- Withdraw the lease request that a block has made of another package (R291). -/
def withdrawAway (s : State) (id : BId) : State :=
  match (findBlock s id).bind (·.wait) with
  | some (.leaseAway r h _ _ _ _ _) => tell s (hHome h) h (withdrawBody r.id)
  | _ => s

/-- Withdraw what an abandoned wait has registered: its full/empty waiter and its lease request (R32, R291). -/
def abandonWait (s : State) (id : BId) : State :=
  let s := withdrawAway s id
  { s with
    feWait := s.feWait.filter (fun w => w.id != id)
    tb := { s.tb with leaseWait := s.tb.leaseWait.filter (fun r => !(r.pkg == s.pl.pkg && r.holder == id)) } }

/-- The fields of TRAP_CAUSE (R100). -/
def causeWord (agent qpos cause : Nat) : BitVec 16 := BitVec.ofNat 16 (cause + agent * 2 ^ 8 + qpos % 16 * 2 ^ 12)

/-- Discard the queued commands; the running ones complete (R123). -/
def Block.discardQueues (b : Block) : Block :=
  { b with
    eF := { b.eF with q := [] }, eV := { b.eV with q := [] }, eM := { b.eM with q := [] }, eP := { b.eP with q := [] } }

/-- Terminate the block with status TRAPPED (R123): nothing further issues and every queued command is discarded. -/
def Block.terminate (b : Block) (cause : Nat) : Block :=
  { b.discardQueues with
    phase := .terminated, endCause := BitVec.ofNat 8 cause, wait := none, wrap := none, frozen := false, monitor := none }

/-- Whether a block in a phase waits for its partition's token (R341). -/
def Phase.waitsForToken (p : Phase) : Bool := p == .held || p == .ending

/-- The phase of a block behind the token that it waits for (R341). -/
def Phase.freed : Phase → Phase
  | .held => .running
  | .ending => .exited
  | p => p

/-- The phase of a block that waits for the token again, before which it issues nothing and its engines start nothing (R332 step 6, R341). -/
def Phase.stopped : Phase → Phase
  | .running => .held
  | .exited => .ending
  | p => p

/-- Whether the block's strand has executed `exit`, be it parked or saved since (R22). -/
def Block.hasExited (b : Block) : Bool := b.phase == .exited || b.back == .exited || b.phase == .ending || b.back == .ending

/-- Take a trap or an engine fault (R100, R120, R121, R123): the trap registers are written unless the block is in handler mode;
the handler is entered where there is one, and otherwise the block terminates. `freeze` freezes the queues. -/
def Block.takeTrap (b : Block) (pc : Word) (cw : BitVec 16) (info : DWord) (cause : Nat) (freeze terminal : Bool) : Block :=
  if b.phase == .terminated then b.discardQueues
  else if b.handler then b.terminate cDOUBLE
  else
    let b := { b with trapPc := pc, trapCause := cw, trapInfo := info, wait := none, wrap := none, monitor := none, reply := none }
    if terminal || b.trapVec == 0 || b.hasExited then b.terminate cause
    else { b with handler := true, pc := b.trapVec, frozen := b.frozen || freeze }

/-- A trap raised by the strand, precise to the instruction (R120). -/
def strandTrap (cause : Nat) (info : DWord) (s : State) : Out :=
  let b := s.blk
  .next { abandonWait s b.id with
    blk := b.takeTrap b.pc (causeWord 0 0 cause) info cause false false }

/-- ILLEGAL_OPERAND with a value as detail (R118). -/
def badOperand (v : Nat) (s : State) : Out := strandTrap cOPERAND (BitVec.ofNat 64 v) s

/-- The detail of ADDRESS_RANGE (R118): level in [29:28], offset in [26:0]. -/
def rangeInfo (lv : Level) (off : Nat) : Nat := lv.code * 2 ^ 28 + off % 2 ^ 27

/-- The class codes of DEAD_READ's detail (R118). -/
def deadInfo (cls n : Nat) : Nat := cls * 2 ^ 28 + n

/-- The engine's code in TRAP_CAUSE (R100). -/
def engCode (e : Engine) : Nat := e.agent.code

/-- A command goes back to the head of its queue; where it was running, those that have started behind it stand behind it there (R26,
R121). -/
def Block.returnCmd (b : Block) (c : Cmd) : Block :=
  let q := b.eng c.eng
  if q.run.any (fun x => x.n == c.n) then b.setEng c.eng { q with q := c :: q.trail ++ q.q, run := none, trail := [] }
  else b.setEng c.eng { q with q := c :: q.q }

/-- An engine fault of a command (R121, R124): the command goes back to the head of its queue, the queues freeze, and the
strand takes the fault. `drop` says that the command must not start again; in handler mode the block terminates. While a
handler runs the fault of a command that R121 let complete is a double trap (R123). -/
def Block.engineFault (b : Block) (c : Cmd) (cause : Nat) (detail : BitVec 32) (terminal : Bool) : Block :=
  let c := { c with fault := some (cause, detail), popped := true, pend := false, reply := none, checked := 0 }
  let b := b.returnCmd c
  { b.takeTrap c.addr (causeWord (engCode c.eng) c.qno cause) (b.pc ++ detail) cause true terminal with faultNow := true }

/-- An engine fault in the state: the strand's unfinished instruction is abandoned (R121). -/
def engFault (c : Cmd) (cause : Nat) (detail : Nat) (s : State) : State :=
  { abandonWait s s.blk.id with blk := s.blk.engineFault c cause (BitVec.ofNat 32 detail) false }

/-! ## Reading operands (R96, R104, R122) -/

/-- The first dead scalar of a list, as DEAD_READ's detail. -/
def firstDeadS (b : Block) (rs : List SReg) : Option Nat :=
  (rs.find? (deadS b)).map (fun r => deadInfo 0 r.toNat)

/-- The first dead predicate of a list, as DEAD_READ's detail. -/
def firstDeadP (b : Block) (ps : List PReg) : Option Nat :=
  (ps.find? (deadP b)).map (fun p => deadInfo 1 p.toNat)

/-- A strand instruction that reads the scalars rs and predicates ps and writes the scalars ds and predicates dp: it waits while
a command or load will write one of them, raises ILLEGAL_OPERAND where a frozen command would (R122), and then checks the dead
reads of R96. -/
def withRegs (rs : List SReg) (ps : List PReg) (ds : List SReg) (dp : List PReg) (s : State) (k : Out) : Out :=
  let b := s.blk
  let held := b.frozen && ((rs ++ ds).any (writesS b.queued) || (ps ++ dp).any (writesP b.queued))
  if held then badOperand 0 s
  else if (rs ++ ds).any (busyS b) || (ps ++ dp).any (busyP b) then waitS s .interlock
  else
    match b.deadMode, firstDeadS b rs, firstDeadP b ps with
    | true, some d, _ => strandTrap cDEAD (BitVec.ofNat 64 d) s
    | true, none, some d => strandTrap cDEAD (BitVec.ofNat 64 d) s
    | _, _, _ => k

/-! ## Taint (R94, R225-R227, R236, R237) -/

/-- A tag's bit. -/
def tagBit (t : BitVec 4) : Taint := (1 : Taint) <<< t.toNat

/-- Keep only the bits of m in every taint set of the block, of its commands' later writes, of its comparator results and of its
outstanding loads' results (R227, R236, R237); `keep` says that F and P commands keep the sets they captured (R236; log 38), while an M command's
`taint` is that of its index row. -/
def Block.maskTaint (b : Block) (m : Taint) (keep : Bool) : Block :=
  let fc : Cmd → Cmd := fun c => { c with wtaint := c.wtaint &&& m, taint := if keep && c.eng != .M then c.taint else c.taint &&& m }
  let fq : EngineQ → EngineQ := EngineQ.mapCmds fc
  { b with
    s := b.s.map (fun c => { c with t := c.t &&& m })
    p := b.p.map (fun c => { c with t := c.t &&& m })
    g := b.g.map (fun c => { c with queue := c.queue.map (fun r => { r with taint := r.taint &&& m }) })
    c := b.c.map (fun c => { c with t := c.t &&& m })
    w := b.w.map (fun c => { c with t := c.t &&& m })
    bankTaint := b.bankTaint.map (fun t => t &&& m)
    ctl := b.ctl &&& m
    loads := b.loads.map (fun l => { l with taint := l.taint &&& m })
    eF := fq b.eF, eV := fq b.eV, eM := fq b.eM, eP := fq b.eP }

/-- The union of every taint set that can still be written or read in the block. -/
def Block.named (b : Block) : Taint :=
  let a := b.s.foldl (fun t c => t ||| c.t) b.ctl
  let a := b.p.foldl (fun t c => t ||| c.t) a
  let a := b.c.foldl (fun t c => t ||| c.t) a
  let a := b.w.foldl (fun t c => t ||| c.t) a
  let a := b.bankTaint.foldl (fun t c => t ||| c) a
  let a := b.g.foldl (fun t c => c.queue.foldl (fun t r => t ||| r.taint) t) a
  let a := b.loads.foldl (fun t l => t ||| l.taint) a
  b.cmds.foldl (fun t c => t ||| c.wtaint ||| c.taint) a

/-- The tags in use: a tag leaves when its load has completed and no taint set names it (R94 rule 5). -/
def Block.liveTags (b : Block) : List TagRec :=
  let named := b.named
  b.tags.filter (fun r => !r.done || (named &&& tagBit r.tag) != 0)

/-- LOAD_TAGS.INUSE (R94). -/
def Block.inUse (b : Block) : Taint := b.liveTags.foldl (fun t r => t ||| tagBit r.tag) 0

/-- The greater of two stamps. -/
def maxStamp (a b : DWord) : DWord := if a.toNat < b.toNat then b else a

/-- Fold one tag (R227): a completed load raises TAINT_FLOOR, an outstanding one is carried by TAINT_PEND. -/
def Block.foldTag (b : Block) (r : TagRec) : Block :=
  if r.done then { b with floor := maxStamp b.floor r.stamp }
  else
    if b.loads.any (fun l => l.id == r.load && l.folded) then b
    else
      { b with
        pend := b.pend + 1
        loads := b.loads.map (fun l => if l.id == r.load then { l with folded := true } else l) }

/-- Fold every tag of a set (R94 rule 2, the spill fold of R227). -/
def Block.foldSet (b : Block) (t : Taint) : Block :=
  (b.liveTags.filter (fun r => (t &&& tagBit r.tag) != 0)).foldl Block.foldTag b

/-- `tfold` on the registers: fold every tag in use and empty every taint set and LOAD_TAGS (R237). -/
def Block.foldAll (b : Block) : Block :=
  { (b.liveTags.foldl Block.foldTag b).maskTaint 0 false with tags := [] }

/-- The tag for a new object load: a free one, which of them being an open value (R94, log 12), or, when all 16 are in use, the one
issued earliest, which is folded and removed from every set (R227). -/
def Block.takeTag (b : Block) : BitVec 4 × Block :=
  let live := b.liveTags
  let free := (List.range 16).filter (fun i => live.all (fun r => r.tag.toNat != i))
  match free[Config.freeTag b.id.launch b.id.lin b.nextLoad % free.length]? with
  | some i => (BitVec.ofNat 4 i, { b with tags := live })
  | none =>
    match live with
    | r :: rest => (r.tag, { (b.foldTag r).maskTaint (~~~(tagBit r.tag)) false with tags := rest })
    | [] => (0, b)

/-- The required stamp of an access with taint set t (R225): the floor and the stamps of the completed tags. -/
def Block.reqStamp (b : Block) (t : Taint) : DWord :=
  match b.wait with
  | some (.replay f) => f
  | _ => b.tags.foldl (fun f r => if r.done && (t &&& tagBit r.tag) != 0 then maxStamp f r.stamp else f) b.floor

/-- The loads an access with taint set t waits for (R225): the outstanding tagged ones, and the folded ones that TAINT_PEND
counts (log 13). -/
def Block.waitLoads (b : Block) (t : Taint) : List Nat :=
  (b.tags.filter (fun r => !r.done && (t &&& tagBit r.tag) != 0)).map (·.load)
    ++ (b.loads.filter (·.folded)).map (·.id)

/-- Hand the stamp of a completed load to every access that waits for it (R225). -/
def Block.loadDone (b : Block) (id : Nat) (stamp : DWord) : Block :=
  let fw : List Nat → List Nat := fun ws => ws.filter (· != id)
  let fr : List Nat → DWord → DWord := fun ws r => if ws.contains id then maxStamp r stamp else r
  let fc : Cmd → Cmd := fun c => { c with waits := fw c.waits, req := fr c.waits c.req }
  let fq : EngineQ → EngineQ := EngineQ.mapCmds fc
  let fp : Posted → Posted := fun x =>
    match x with
    | .sto pc h i v req ws pk rm => .sto pc h i v (fr ws req) (fw ws) pk rm
    | x => x
  { b with
    loads := b.loads.map (fun l => { l with waits := fw l.waits, req := fr l.waits l.req })
    posted := b.posted.map fp
    eF := fq b.eF, eV := fq b.eV, eM := fq b.eM, eP := fq b.eP }

/-- The completion of an object load's tag (R94 rule 5, R101, R227): its stamp is recorded, a folded load raises the floor and
leaves TAINT_PEND, and the load leaves the outstanding ones. -/
def Block.finishLoad (b : Block) (l : ObjLoad) (stamp : DWord) : Block :=
  let tags := b.tags.map (fun (r : TagRec) => if r.load == l.id then { r with done := true, stamp := stamp } else r)
  let b := { b with loads := b.loads.filter (fun x => x.id != l.id), tags := tags }
  let b := if l.folded then { b with floor := maxStamp b.floor stamp, pend := b.pend - 1 } else b
  b.loadDone l.id stamp

/-! ## Tokens (R29, R30) -/

/-- Pop a token (R30). -/
def Block.pop (b : Block) (k : BitVec 4) : Block :=
  let t := b.token k
  b.setToken k { t with count := t.count - 1 }

/-- Push a token (R30); at 255 the count stays. -/
def Block.push (b : Block) (k : BitVec 4) : Block :=
  let t := b.token k
  if t.count == 255 then b else b.setToken k { t with count := t.count + 1 }

/-- The detail of TOKEN_PAIRING (R118). -/
def pairInfo (k : BitVec 4) (a : Agent) (signal : Bool) : Nat := k.toNat + a.code * 2 ^ 8 + b2n signal * 2 ^ 12

/-- Whether an agent may pop a token (R29). -/
def mayPop (b : Block) (k : BitVec 4) (a : Agent) : Bool := (b.token k).conf && (b.token k).cons == a

/-- Whether an agent may push a token (R29). -/
def mayPush (b : Block) (k : BitVec 4) (a : Agent) : Bool := (b.token k).conf && (b.token k).prod == a

/-! ## Squares (R33, R177) -/

/-- The squares of a block's offset range. -/
def squaresOf (off len : Nat) : List Nat :=
  if len == 0 then [] else (List.range ((off + len - 1) / 4096 - off / 4096 + 1)).map (fun i => off / 4096 + i)

/-- The lowest square of a range that is guarded and owned by the engines (R33). -/
def strandOwnFault (b : Block) (off len : Nat) : Option Nat :=
  (squaresOf off len).find? (fun q => b.guarded.getLsbD q && !b.owner.getLsbD q)

/-- The lowest square of a range that is guarded and owned by the strand (R33). -/
def engineOwnFault (b : Block) (off len : Nat) : Option Nat :=
  (squaresOf off len).find? (fun q => b.guarded.getLsbD q && b.owner.getLsbD q)

/-- The bound of the block's own squares (R31). -/
def Block.spBound (b : Block) : Nat := b.nsq * 4096

/-! ## Hub-resident tables (R267, R269, R295-R299) -/

/-- The key of a hub-resident word (R269). -/
def hubKey (table entry word : Nat) : Nat := table * 2 ^ 56 + entry * 2 ^ 8 + word

/-- A hub-resident word: zero at reset, but for TPER of the partition table (R267, R295). -/
def hubWord (s : State) (table entry word : Nat) : Nat :=
  match s.tb.hub.find? (fun x => x.1 == hubKey table entry word) with
  | some x => x.2.toNat
  | none => if table == 1 && word == 2 && entry < 16 then 1000000 else 0

/-- Set a hub-resident word. -/
def setHub (s : State) (table entry word : Nat) (v : DWord) : State :=
  let rest := s.tb.hub.filter (fun x => x.1 != hubKey table entry word)
  { s with tb := { s.tb with hub := (hubKey table entry word, v) :: rest } }

/-- A partition's die-store share on a die: base and length in 1 MiB units (R295). -/
def shareOf (s : State) (part : BitVec 4) (die : Nat) : Nat × Nat :=
  let w := hubWord s 1 part.toNat 1
  (bits w (16 * die) 7, bits w (16 * die + 8) 8)

/-- A partition's CLUSTERS (R295). -/
def partClusters (s : State) (part : BitVec 4) : Nat := bits (hubWord s 1 part.toNat 0) 0 16

/-- A partition's MODE (R295). -/
def partMode (s : State) (part : BitVec 4) : Nat := bits (hubWord s 1 part.toNat 0) 48 2

/-- A partition's TPER (R295). -/
def partTper (s : State) (part : BitVec 4) : Nat := hubWord s 1 part.toNat 2

/-- A partition's counters. -/
def partOf (s : State) (part : BitVec 4) : Part := (s.tm.parts[part.toNat]?).getD .reset

/-- Replace a partition's counters. -/
def setPart (s : State) (part : BitVec 4) (p : Part) : State :=
  { s with tm := { s.tm with parts := s.tm.parts.setIfInBounds part.toNat p } }

/-- A partition's switching state. -/
def switchOf (s : State) (part : BitVec 4) : Switch := (s.wo.parts[part.toNat]?).getD .reset

/-- Replace a partition's switching state. -/
def setSwitch (s : State) (part : BitVec 4) (p : Switch) : State :=
  { s with wo := { s.wo with parts := s.wo.parts.setIfInBounds part.toNat p } }

/-- Whether a world's STATE is live (R296). -/
def worldLive (s : State) (w : Nat) : Bool := bits (hubWord s 2 w 1) 62 2 == 1

/-- COUNT of a partition's frame table (R297). -/
def frameCount (s : State) (part : BitVec 4) : Nat := bits (hubWord s 3 part.toNat 1) 0 7

/-- The world of a frame; nothing where its STATE is not live (R297). -/
def frameWorld (s : State) (part : BitVec 4) (k : Nat) : Option (BitVec 14) :=
  let w := bits (hubWord s 3 part.toNat (2 + k)) 50 14
  if worldLive s w then some (BitVec.ofNat 14 w) else none

/-- The world that a partition runs: its WORLD in fixed mode, the present frame's world in frame-table mode, none when off or
before the first edge (R295, R297). -/
def partWorld (s : State) (part : BitVec 4) : Option (BitVec 14) :=
  match partMode s part with
  | 1 => some (BitVec.ofNat 14 (bits (hubWord s 1 part.toNat 0) 50 14))
  | 2 =>
    let k := (switchOf s part).frame
    if k < frameCount s part then frameWorld s part k else none
  | _ => none

/-- The world tag of a function (R298). -/
def fnWorld (s : State) (fn : BitVec 6) : BitVec 14 := BitVec.ofNat 14 (bits (hubWord s 4 fn.toNat 0) 50 14)

/-- The partition of a function (R298). -/
def fnPart (s : State) (fn : BitVec 6) : BitVec 4 := BitVec.ofNat 4 (bits (hubWord s 4 fn.toNat 0) 46 4)

/-- The bound of a level for the block: N squares, 2^25, or the partition's share of its die (R31, R190). -/
def levelBound (s : State) (lv : Level) : Nat :=
  match lv with
  | .sp => s.blk.spBound
  | .cl => 2 ^ 25
  | .ds => (shareOf s s.blk.part (dieOf s.blk.core)).2 * 2 ^ 20

/-- The model address of a level's offset for a block (R31, R175, R180, R181). -/
def levelAddr (s : State) (b : Block) (lv : Level) (off : Nat) : Nat :=
  match lv with
  | .sp => b.spA off
  | .cl => clAddr b.core off
  | .ds => dsAddr (dieOf b.core) ((shareOf s b.part (dieOf b.core)).1 * 2 ^ 20 + off)

/-! ## Posted stores (R191, R228) -/

/-- Whether a posted write is a strand store on chip. -/
def Posted.isStore : Posted → Bool
  | .store _ _ _ => true
  | _ => false

/-- Perform the block's strand stores, in program order (R191, R228). -/
def performStores (s : State) : State :=
  { s with
    mem := s.blk.posted.foldl
      (fun m p => match p with | .store _ a bs => Memory.writeAll m a bs | _ => m) s.mem
    blk := { s.blk with posted := s.blk.posted.filter (fun p => !p.isStore) } }

/-- The banks that an access of n bytes at a model address reaches, by level (R175, R180, R181). -/
def bankKeys (lv : Level) (a n : Nat) : List Nat :=
  let banks := match lv with | .cl => 64 | _ => 32
  (List.range ((a + n - 1) / 8 - a / 8 + 1)).map (fun i => lv.code * 64 + (a / 8 + i) % banks)

/-- The banks that a posted write reaches; none but a strand store reaches one. -/
def Posted.banks : Posted → List Nat
  | .store lv a bs => bankKeys lv a bs.length
  | _ => []

/-- The posted stores that are performed before a later access reaches the banks ks, and the others: a strand's accesses reach a bank in
program order, so a store takes with it the earlier ones of its own banks (R178, R191, R228). -/
def splitStores (ks : List Nat) : List Posted → List Nat × List Posted × List Posted
  | [] => (ks, [], [])
  | p :: ps =>
    let (ks, go, stay) := splitStores ks ps
    if p.banks.any (fun k => ks.contains k) then (p.banks ++ ks, p :: go, stay) else (ks, go, p :: stay)

/-- Perform the posted stores that come before an access of n bytes at a model address (R191, R228). -/
def performStoresTo (s : State) (lv : Level) (a n : Nat) : State :=
  let x := splitStores (bankKeys lv a n) s.blk.posted
  if x.2.1.isEmpty then s
  else
    { s with
      mem := x.2.1.foldl (fun m p => match p with | .store _ a bs => Memory.writeAll m a bs | _ => m) s.mem
      blk := { s.blk with posted := x.2.2 } }

/-! ## Blocks by identity -/

/-- Update the block of an identity wherever it stands. -/
def updBlock (s : State) (id : BId) (f : Block → Block) : State :=
  if s.blk.id == id && s.blk.phase != .none then { s with blk := f s.blk }
  else { s with others := s.others.map (fun b => if b.id == id then f b else b) }

/-- Update every block of the package, those in save slots included. -/
def mapBlocks (s : State) (f : Block → Block) : State :=
  { s with
    blk := f s.blk
    others := s.others.map f
    wo := { s.wo with saves := s.wo.saves.map (fun v => { v with blocks := v.blocks.map f }) } }

/-- A launch in its slot. -/
def findLaunch (s : State) (slot : Nat) : Option Launch := s.dp.launches.find? (fun l => l.slot == slot)

/-- Update a launch. -/
def updLaunch (s : State) (slot : Nat) (f : Launch → Launch) : State :=
  { s with dp := { s.dp with launches := s.dp.launches.map (fun l => if l.slot == slot then f l else l) } }

/-- A value the outside gives: the fresh counter's next one (log 28). -/
def freshNat (s : State) : Nat × State := (s.fresh, { s with fresh := s.fresh + 1 })

end Sys2Proof.Machine
end

