-- ==== Sys2Proof/Machine/Objects.lean ====
section
/-! DEFINITION. Objects: descriptors (R270-R275), the layout of elements (R272), shards and copies (R223, R273),
slab and second-stage translation (R277-R280), the bytes behind them (R183), leases and race checks (R215-R218). -/

namespace Sys2Proof.Machine

/-! ## Descriptors (R271) -/

/-- Word w of a descriptor. -/
def dWord (d : BitVec 512) (w : Nat) : Nat := bits d.toNat (64 * w) 64
/-- A descriptor with word w replaced. -/
def dSetWord (d : BitVec 512) (w v : Nat) : BitVec 512 := BitVec.ofNat 512 (setBits d.toNat (64 * w) 64 v)
/-- GEN. -/
def dGen (d : BitVec 512) : Nat := bits d.toNat 48 16
/-- KIND. -/
def dKind (d : BitVec 512) : Nat := bits d.toNat 44 4
/-- RANK. -/
def dRank (d : BitVec 512) : Nat := bits d.toNat 40 4
/-- FMT. -/
def dFmt (d : BitVec 512) : Nat := bits d.toNat 35 5
/-- RES. -/
def dRes (d : BitVec 512) : Nat := bits d.toNat 32 3
/-- SAXIS. -/
def dSaxis (d : BitVec 512) : Nat := bits d.toNat 28 4
/-- SCNT. -/
def dScnt (d : BitVec 512) : Nat := bits d.toNat 20 8
/-- SMAP. -/
def dSmap (d : BitVec 512) : Nat := bits d.toNat 8 12
/-- MIG. -/
def dMig (d : BitVec 512) : Bool := bitAt d.toNat 0
/-- EXT of dimension k. -/
def dExt (d : BitVec 512) (k : Nat) : Nat := bits d.toNat (64 + 16 * k) 16
/-- The extents below RANK. -/
def dExts (d : BitVec 512) : List Nat := (List.range (dRank d)).map (dExt d)
/-- LCNT. -/
def dLcnt (d : BitVec 512) : Nat := bits d.toNat 240 15
/-- TORD. -/
def dTord (d : BitVec 512) : Bool := bitAt d.toNat 216
/-- ITL1. -/
def dItl1 (d : BitVec 512) : Nat := bits d.toNat 212 4
/-- ITL0. -/
def dItl0 (d : BitVec 512) : Nat := bits d.toNat 208 4
/-- RGT entry k. -/
def dRgt (d : BitVec 512) (k : Nat) : Nat := bits d.toNat (256 + 16 * k) 16
/-- VERSION. -/
def dVersion (d : BitVec 512) : Nat := dWord d 5
/-- STAMP. -/
def dStamp (d : BitVec 512) : Nat := dWord d 6
/-- The owner world, named in RGT0 (R274). -/
def dOwner (d : BitVec 512) : BitVec 14 := BitVec.ofNat 14 (bits (dRgt d 0) 0 14)

/-- The product of extents. -/
def prod (es : List Nat) : Nat := es.foldl (· * ·) 1

/-- The number of elements of an object. -/
def dCount (d : BitVec 512) : Nat := prod (dExts d)

/-- KIND tensor. -/
def kTensor : Nat := 1
/-- KIND counter. -/
def kCounter : Nat := 2
/-- KIND stream. -/
def kStream : Nat := 3
/-- KIND code. -/
def kCode : Nat := 4
/-- KIND step cache. -/
def kStep : Nat := 5

/-- The rights of a world on an object (R274): bit 14 reads, bit 15 writes. -/
def dRight (d : BitVec 512) (world : BitVec 14) (bit : Nat) : Bool :=
  (List.range 4).any (fun k => bits (dRgt d k) 0 14 == world.toNat && bitAt (dRgt d k) bit)

/-- Read rights (R274). -/
def canRead (d : BitVec 512) (world : BitVec 14) : Bool := dRight d world 14
/-- Write rights (R274). -/
def canWrite (d : BitVec 512) (world : BitVec 14) : Bool := dRight d world 15

/-- Whether no partition holds the die-store unit of a system-physical address: the system region (R181). -/
def inSystemRegion (s : State) (a : Nat) : Bool :=
  let die := (a - dsBase) / 2 ^ 27
  let unit := (a - dsBase) % 2 ^ 27 / 2 ^ 20
  isDieStore a &&
    (List.range 16).all (fun p =>
      let (base, len) := shareOf s (BitVec.ofNat 4 p) die
      !(base ≤ unit && unit < base + len))

/-- The width in bits of an element of a step cache's formats: FP32, FP16, BF16, E4M3 and E5M2 (R165). -/
def stepWidth (f : Nat) : Option Nat :=
  match f with
  | 0x08 => some 32
  | 0x09 | 0x0A => some 16
  | 0x0B | 0x0C => some 8
  | _ => none

/-- The rank, format and extents of a step cache (R165); a code that no element takes is left to the command, as in every object (R38; log 63). -/
def stepShapeOk (d : BitVec 512) : Bool :=
  match stepWidth (dFmt d) with
  | some w => dRank d == 3 && dExt d 1 ≤ 4096 && dExt d 0 * (w / 8) ≤ 8192
  | none => (fmtOf (dFmt d)).isNone

/-- The reserved fields and value ranges of R271 and the shape that R165 gives a step cache, for an object of package `home`. A code of R38
that no element takes is left to the instruction or command, which reports it (R38, R193, R203; log 63). The place of a counter's word is
judged by the home package's own shares, so for another package's object only by the map of R182 (R271). What R272
asks of a layout is not looked at (log 81). -/
def dOk (s : State) (home : Nat) (d : BitVec 512) : Bool :=
  let r := dRank d
  bits d.toNat 1 7 == 0 && bits d.toNat 255 1 == 0 && bits d.toNat 238 2 == 0 && bits d.toNat 217 7 == 0
  && dKind d ≤ 5
  && (if dKind d == 0 then r == 0 else 1 ≤ r && r ≤ 9)
  && (List.range 9).all (fun k => if k < r then dExt d k != 0 else dExt d k == 0)
  && dRes d ≤ 6
  && (dSaxis d ≤ 8 || dSaxis d == 15)
  && (dSaxis d != 15 || dRes d == 4 || dScnt d == 0)
  && dItl0 d ≤ 12 && dItl1 d ≤ 12 && dLcnt d ≤ 16384
  && (dKind d != kCode || dFmt d == 4)
  && (dKind d != kStep || stepShapeOk d)
  && (if dKind d == kCounter then
        (dFmt d == 3 || dFmt d == 7) && dRes d == 5 && dCount d ≤ 8192 && dWord d 7 % 8 == 0
          && (if home == s.pl.pkg.toNat then inSystemRegion s (dWord d 7) else isDieStore (dWord d 7))
      else bits d.toNat 448 10 == 0 && bits d.toNat 498 14 == 0)

/-! ## Layout (R192, R272) -/

/-- The coordinates of a linear index, dimension 0 fastest (R192). -/
def coordsOf : List Nat → Nat → List Nat
  | [], _ => []
  | e :: es, i => i % e :: coordsOf es (i / e)

/-- The linear index of coordinates (R192). -/
def linearOf : List Nat → List Nat → Nat
  | e :: es, x :: xs => x + e * linearOf es xs
  | _, _ => 0

/-- The element width of an object in bits. -/
def dWidth (d : BitVec 512) : Nat := match fmtOf (dFmt d) with | some f => f.width | none => 8

/-- The extents of one shard (R272): the sharded dimension takes the shard's extent S. -/
def shardExts (d : BitVec 512) : List Nat :=
  let es := dExts d
  if dSaxis d == 15 then es else es.modify (dSaxis d) (fun e => cdiv e (dScnt d + 1))

/-- The shard of an element and its coordinates there (R272). -/
def shardOf (d : BitVec 512) (xs : List Nat) : Nat × List Nat :=
  if dSaxis d == 15 then (0, xs)
  else
    let size := max 1 (cdiv (dExt d (dSaxis d)) (dScnt d + 1))
    let x := xs.getD (dSaxis d) 0
    (x / size, xs.set (dSaxis d) (x % size))

/-- The offset in elements of coordinates within a shard (R272). -/
def elemOffset (d : BitVec 512) (es xs : List Nat) : Nat :=
  let a := dItl0 d
  let b := dItl1 d
  let e0 := es.getD 0 1
  let e1 := es.getD 1 1
  let x0 := xs.getD 0 0
  let x1 := xs.getD 1 0
  let rest := linearOf (es.drop 2) (xs.drop 2)
  let p0 := cdiv e0 (2 ^ a)
  let p1 := cdiv e1 (2 ^ b)
  let t := if dTord d then x1 / 2 ^ b + p1 * (x0 / 2 ^ a + p0 * rest) else x0 / 2 ^ a + p0 * (x1 / 2 ^ b + p1 * rest)
  t * 2 ^ (a + b) + x1 % 2 ^ b * 2 ^ a + x0 % 2 ^ a

/-- The elements that a shard's layout takes, the padding of its tiles included (R272). -/
def layoutElems (d : BitVec 512) : Nat :=
  let es := shardExts d
  cdiv (es.getD 0 1) (2 ^ dItl0 d) * cdiv (es.getD 1 1) (2 ^ dItl1 d) * prod (es.drop 2) * 2 ^ (dItl0 d + dItl1 d)

/-- Round up to a 64 KiB boundary. -/
def up64K (n : Nat) : Nat := cdiv n 65536 * 65536

/-- The bytes of a shard's elements. -/
def elemBytes (d : BitVec 512) : Nat := cdiv (layoutElems d * dWidth d) 8

/-- The byte offset of the scale bytes of an MX object (R272). -/
def scaleBase (d : BitVec 512) : Nat := up64K (elemBytes d)

/-- Whether the object's format is microscaling. -/
def dIsMx (d : BitVec 512) : Bool := match fmtOf (dFmt d) with | some f => f.isMx | none => false

/-- The bytes of a shard's payload, the scale bytes included. -/
def payloadBytes (d : BitVec 512) : Nat :=
  if dIsMx d then scaleBase d + cdiv (layoutElems d) 32 else elemBytes d

/-- The byte offset of a step cache's side area (R165, R272). -/
def sideBase (d : BitVec 512) : Nat := up64K (payloadBytes d)

/-- The bytes that a field touches. -/
def Field.len (f : Field) : Nat := (f.lo + f.n + 7) / 8

/-- Where an element stands: its shard, its field and, for an MX object, the field of its scale byte. -/
def elemFields (d : BitVec 512) (xs : List Nat) : Nat × List Field :=
  let (k, ys) := shardOf d xs
  let e := elemOffset d (shardExts d) ys
  let w := dWidth d
  let f : Field := ⟨e * w / 8, e * w % 8, w⟩
  (k, if dIsMx d then [f, ⟨scaleBase d + e / 32, 0, 8⟩] else [f])

/-! ## Who makes an access -/

/-- The agent of an access: its core, die and half, the accessing world and the AGENT code of R284. -/
structure Who where
  core : Core
  die : Nat
  world : BitVec 14
  agent : Nat
  half : Bool
  deriving DecidableEq, Repr

/-- A block's strand or engine as the agent of an access. -/
def Block.who (b : Block) (agent : Nat) : Who := ⟨b.core, dieOf b.core, b.world, agent, b.half⟩

/-- The dispatcher of a die as the agent of an access (R284). -/
def dispWho (die : Nat) (world : BitVec 14) : Who := ⟨0, die, world, 5, false⟩

/-- The lowest-numbered live die (R285). -/
def lowDie (s : State) : Nat := ((List.range 4).find? (fun d => !s.dp.dead.getLsbD d)).getD 0

/-- Where a parked access met its condition (R284). -/
structure Meet where
  kind : ParkKind
  shard : Nat
  off : Nat
  level : Nat
  addr : Nat
  deriving DecidableEq, Repr

/-- Where a request to another package parks for which no path is up (R184, R284, R361). -/
def noPath (op off : Nat) (body : List Byte) : Meet := ⟨.missing, bodyShard op off body, 0, 0, 0⟩

/-! ## Resolving a handle (R270, R275) -/

/-- Whether a package belongs to the pod: this one, or one with a route (R275, R361). -/
def inPod (s : State) (pkg : Nat) : Bool := pkg == s.pl.pkg.toNat || (s.pe.route[pkg]?).getD 0 != 0

/-- Where the descriptor of an index of this package stands (R270): nothing where the directory page is not present, else the
system-physical address; a poisoned directory word is met as such. The bits of the word that R270 names no field for are not looked at,
and an OTDIR outside the map of R182 names cells like any other address (log 64). -/
def descAddr (s : State) (i : Nat) : Except Meet Nat :=
  let a := s.tb.otdir.toNat + 8 * (i / 1024)
  match Memory.readAll s.mem a 8 with
  | none => .error ⟨.poison, 0, 0, 0, a / 64 * 64⟩
  | some bs =>
    let w := leNat bs
    if bitAt w 63 then .ok (bits w 16 36 * 65536 + 64 * (i % 1024)) else .error ⟨.missing, 0, 0, 0, 0⟩

/-- Read the home descriptor of an index (R270); index 0 reads as free. -/
def readDesc (s : State) (i : Nat) : Except Meet (BitVec 512) :=
  if i == 0 then .ok 0
  else
    match descAddr s i with
    | .error m => .error m
    | .ok a =>
      match Memory.readAll s.mem a 64 with
      | none => .error ⟨.poison, 0, 0, 0, a⟩
      | some bs => .ok (BitVec.ofNat 512 (leNat bs))

/-- Write the home descriptor of an index. -/
def writeDesc (s : State) (i : Nat) (d : BitVec 512) : State :=
  match descAddr s i with
  | .error _ => s
  | .ok a => { s with mem := Memory.writeAll s.mem a (leBytes 64 d.toNat) }

/-- What resolving a handle answers: the descriptor served with its copy stamp, a trap's cause, a park, or the package that a
descriptor must be asked of. -/
inductive Resolved where
  | ok (d : BitVec 512) (stamp : DWord)
  | trap (cause : Nat)
  | park (m : Meet)
  | ask (pkg : Nat)
  deriving DecidableEq, Repr

/-- The checks of R275 from step 3 on. -/
def checkDesc (s : State) (h : DWord) (d : BitVec 512) (stamp : DWord) : Resolved :=
  if !dOk s (hHome h) d then .park ⟨.badDesc, 0, 0, 0, 0⟩
  else if dKind d == 0 || dGen d != hGen h then .trap cSTALE
  else if dRes d == 6 then .park ⟨.missing, 0, 0, 0, 0⟩
  else .ok d stamp

/-- Merge a required stamp into PCLK at the home, without an increment (R220). -/
def mergeClock (s : State) (f : DWord) : State := { s with tm := { s.tm with pclk := maxStamp s.tm.pclk f } }

/-- A cluster's handle-cache entry for a handle, fresh enough for stamp f (R223, R275). -/
def cached (s : State) (cluster : Nat) (h f : DWord) : Option HCacheEntry :=
  s.tb.hcache.find? (fun e => e.cluster == cluster && e.handle == h && f.toNat ≤ e.stamp.toNat)

/-- Of the entries of a list that a predicate names keep the first n, and keep every other one. -/
def keepFirst {α : Type} (p : α → Bool) : Nat → List α → List α
  | _, [] => []
  | n, x :: xs =>
    if p x then
      match n with
      | 0 => keepFirst p 0 xs
      | n + 1 => x :: keepFirst p n xs
    else x :: keepFirst p n xs

/-- The handle caches after a use of an entry: it stands first, and of its cluster's entries the 4,096 used most recently stay (R275). -/
def useEntry (es : List HCacheEntry) (e : HCacheEntry) : List HCacheEntry :=
  keepFirst (fun x => x.cluster == e.cluster) 4096 (e :: es.filter (fun x => !(x.cluster == e.cluster && x.handle == e.handle)))

/-- A hit of a handle cache: the entry becomes the one used most recently (R275). -/
def touchCache (s : State) (e : HCacheEntry) : State := { s with tb := { s.tb with hcache := useEntry s.tb.hcache e } }

/-- The last descriptor of an object of another package that has come here: it tells the slabs that this package holds of it (R185, R368;
log 15). -/
def hostDesc (s : State) (h : DWord) (d : BitVec 512) : State :=
  if hHome h == s.pl.pkg.toNat || dKind d == 0 then s
  else { s with tb := { s.tb with hosted := (h, d) :: s.tb.hosted.filter (fun x => hObj x.1 != hObj h) } }

/-- Enter a descriptor in a cluster's handle cache (R275). -/
def cacheDesc (s : State) (cluster : Nat) (h : DWord) (d : BitVec 512) (stamp : DWord) : State :=
  touchCache (hostDesc s h d) ⟨cluster, h, d, stamp⟩

/-- Resolve a handle at required stamp f (R275). -/
def resolve (s : State) (who : Who) (h f : DWord) : Resolved × State :=
  let cl := clusterOf who.core
  if hLow h != 0 || hIndex h == 0 then (.trap cINVALIDH, s)
  else if !inPod s (hHome h) then (.park ⟨.missing, 0, 0, 0, 0⟩, s)
  else
    match cached s cl h f with
    | some e => (checkDesc s h e.desc e.stamp, touchCache s e)
    | none =>
      if hHome h != s.pl.pkg.toNat then (.ask (hHome h), s)
      else
        match readDesc s (hIndex h) with
        | .error m => (.park m, s)
        | .ok d =>
          let s := mergeClock s f
          match checkDesc s h d s.tm.pclk with
          | .ok d st => (.ok d st, cacheDesc s cl h d st)
          | r => (r, s)

/-! ## Second-stage translation (R278) -/

/-- A second-stage walk's end: an address, an invalid leaf or a missing right, a frame that the hypervisor has frozen, or a poisoned
line. -/
inductive G2 where
  | ok (a : Nat)
  | fail
  | frozen
  | poison (line : Nat)
  deriving DecidableEq, Repr

/-- Walk the Sv48x4 tables from level l - 1 down (R278; the entry layout is the RISC-V one, log 9). An entry with V clear and any other bit
set is that of a frozen frame (R279, R288; log 9). -/
def g2Walk (m : Memory) (gpa : Nat) (write : Bool) : Nat → Nat → G2
  | 0, _ => .fail
  | l + 1, table =>
    let idx := if l == 3 then bits gpa 39 11 else bits gpa (12 + 9 * l) 9
    let a := table + 8 * idx
    if !isMapped a then .fail
    else
      match Memory.readAll m a 8 with
      | none => .poison (a / 64)
      | some bs =>
        let e := leNat bs
        let ppn := bits e 10 44
        if !bitAt e 0 then (if e == 0 then .fail else .frozen)
        else if bits e 54 10 != 0 then .fail
        else if bits e 1 3 == 0 then g2Walk m gpa write l (ppn * 4096)
        else if !bitAt e 1 || !bitAt e 4 || (write && !bitAt e 2) || ppn % 2 ^ (9 * l) != 0 then .fail
        else .ok ((ppn + bits gpa 12 (9 * l)) * 4096 + bits gpa 0 12)

/-- The entries of a die's nested TLB: slab translations and second-stage pages share 8,192 places (R280). -/
def nestedSize : Nat := 8192

/-- Enter a second-stage translation in its die's nested TLB; the oldest entry of its kind gives way, or of the other kind where there is
none (R280; the victim: log 10). -/
def enterPage (s : State) (e : G2Entry) : State :=
  let slabs := keepFirst (fun (x : TlbEntry) => x.place == e.die) (nestedSize - 1) s.tb.nested
  let room := nestedSize - slabs.countP (fun x => x.place == e.die)
  { s with tb := { s.tb with g2 := keepFirst (fun (x : G2Entry) => x.die == e.die) room (e :: s.tb.g2), nested := slabs } }

/-- Enter a slab translation in its die's nested TLB, likewise (R280; the victim: log 10). -/
def enterNested (s : State) (e : TlbEntry) : State :=
  let pages := keepFirst (fun (x : G2Entry) => x.die == e.place) (nestedSize - 1) s.tb.g2
  let room := nestedSize - pages.countP (fun x => x.die == e.place)
  { s with tb := { s.tb with nested := keepFirst (fun (x : TlbEntry) => x.place == e.place) room (e :: s.tb.nested), g2 := pages } }

/-- Enter a slab translation in its core's first-level TLB, which holds 512 (R280). -/
def enterTlb (s : State) (e : TlbEntry) : State :=
  { s with tb := { s.tb with tlb := keepFirst (fun (x : TlbEntry) => x.place == e.place) 512 (e :: s.tb.tlb) } }

/-- Translate a guest-physical address of a world on a die, through the nested TLB (R278, R280, R296). -/
def g2Translate (s : State) (die : Nat) (world : BitVec 14) (gpa : Nat) (write : Bool) : G2 × State :=
  let hit := s.tb.g2.find? (fun e => e.die == die && e.world == world && e.page == gpa / 4096 && (e.write || !write))
  match hit with
  | some e => (.ok (e.frame + gpa % 4096), s)
  | none =>
    let root := hubWord s 2 world.toNat 0
    if bits root 60 4 != 9 || 2 ^ 50 ≤ gpa then (.fail, s)
    else
      match g2Walk s.mem gpa write 4 (bits root 0 44 / 4 * 4 * 4096) with
      | .ok a => (.ok a, enterPage s ⟨die, world, gpa / 4096, a / 4096 * 4096, write⟩)
      | r => (r, s)

/-- Consecutive pages of a slab map to consecutive addresses (R278). -/
def g2Pages (s : State) (die : Nat) (world : BitVec 14) (gpa : Nat) (write : Bool) (base : Nat) : Nat → G2 × State
  | 0 => (.ok base, s)
  | n + 1 =>
    match g2Pages s die world gpa write base n with
    | (.ok _, s) =>
      match g2Translate s die world (gpa + 4096 * n) write with
      | (.ok a, s) => if a == base + 4096 * n then (.ok base, s) else (.fail, s)
      | r => r
    | r => r

/-- Translate the frame of a slab: its 16 pages map to one 64 KiB-aligned range of object memory (R182, R278). -/
def g2Frame (s : State) (die : Nat) (world : BitVec 14) (gpa : Nat) (write : Bool) : G2 × State :=
  match g2Translate s die world gpa write with
  | (.ok a, s) => if a % 65536 == 0 && isDram a then g2Pages s die world gpa write a 16 else (.fail, s)
  | r => r

/-! ## Slab translation (R277, R279, R280) -/

/-- The end of a slab walk: a frame, another package, or the park of R279. -/
inductive SlabRes where
  | frame (a : Nat)
  | peer (pkg : Nat)
  | park (kind : ParkKind) (level addr : Nat)
  deriving DecidableEq, Repr

/-- Whether a leaf or node entry is malformed (R277). -/
def malformed (e : Nat) (last : Bool) : Bool :=
  let ty := bits e 62 2
  ty == 3 || (ty == 2 && last) || (ty == 1 && !last)
  || (ty == 2 && (bits e 50 12 != 0 || bits e 0 12 != 0))
  || (ty == 1 && (2 ≤ bits e 58 2 || bits e 50 8 != 0 || bits e 0 12 != 0
      || (bits e 58 2 == 0 && bits e 12 4 != 0)
      || (bits e 58 2 == 1 && (bits e 24 26 != 0 || bits e 12 4 != 0))))

/-- Walk the slab table of slab sl from level l with r levels to go (R277-R279). -/
def slabWalk (s : State) (die : Nat) (world : BitVec 14) (sl : Nat) (write : Bool) (l : Nat) : Nat → Nat → SlabRes × State
  | 0, node => (.park .node l node, s)
  | r + 1, node =>
    let idx := bits sl (9 * r) 9
    match g2Translate s die world node false with
    | (.fail, s) => (.park .stage2 l node, s)
    | (.frozen, s) => (.park .node l node, s)
    | (.poison line, s) => (.park .poison 0 (64 * line), s)
    | (.ok a, s) =>
      if !(isHbm a || inSystemRegion s a) then (.park .node l node, s)
      else
        match Memory.readAll s.mem (a + 8 * idx) 8 with
        | none => (.park .poison 0 ((a + 8 * idx) / 64 * 64), s)
        | some bs =>
          let e := leNat bs
          let ty := bits e 62 2
          let here := node + 8 * idx
          if ty == 0 then (if r == 0 then (.park .slab 0 0, s) else (.park .node l here, s))
          else if malformed e (r == 0) then (.park .node l here, s)
          else if ty == 2 then slabWalk s die world sl write (l + 1) r (bits e 12 38 * 4096)
          else if bitAt e 60 then (.park .slab 0 0, s)
          else if bitAt e 61 then (.park .frozen 0 0, s)
          else if bits e 58 2 == 1 then (.peer (bits e 16 8), s)
          else
            match g2Frame s die world (bits e 16 34 * 65536) write with
            | (.ok a, s) => (.frame a, s)
            | (.fail, s) | (.frozen, s) => (.park .stage2 (l + 1) (bits e 16 34 * 65536), s)
            | (.poison line, s) => (.park .poison 0 (64 * line), s)

/-- The key under which the TLBs hold a translation (R280). -/
def tlbHandle (h : DWord) : DWord := h &&& ~~~(0xFF#64)

/-- Translate a slab through the TLBs or a walk; no frozen, lost or failed walk is cached (R280). -/
def slabTranslate (s : State) (who : Who) (world : BitVec 14) (h : DWord) (root depth shard sl : Nat) (write : Bool) :
    SlabRes × State :=
  let hit : TlbEntry → Bool := fun e =>
    e.world == world && e.handle == tlbHandle h && e.shard == shard && e.slab == sl && (e.write || !write)
  let found := (s.tb.tlb.find? (fun e => e.place == who.core.toNat && hit e)).orElse
    (fun _ => s.tb.nested.find? (fun e => e.place == who.die && hit e))
  match found with
  | some e => (match e.peer with | some p => .peer p.toNat | none => .frame e.frame, s)
  | none =>
    let enter (frame : Nat) (peer : Option Byte) (s : State) : State :=
      let e : Nat → TlbEntry := fun place => ⟨place, world, tlbHandle h, shard, sl, frame, peer, write⟩
      enterNested (enterTlb s (e who.core.toNat)) (e who.die)
    match slabWalk s who.die world sl write 0 depth root with
    | (.frame a, s) => (.frame a, enter a none s)
    | (.peer p, s) => (.peer p, enter 0 (some (BitVec.ofNat 8 p)) s)
    | r => r

/-! ## Copies and shards (R223, R273) -/

/-- Where a shard or copy is held: the package, the root and depth of its slab table there, and its copy stamp. -/
structure Holder where
  shard : Nat
  pkg : Nat
  root : Nat
  depth : Nat
  stamp : DWord
  deriving DecidableEq, Repr

/-- Entry k of an object's shard map (R273); the bits outside its named fields are not looked at, and an SMAPBASE outside the map of R182
names cells like any other address (log 64). -/
def mapEntry (s : State) (d : BitVec 512) (k : Nat) : Except Meet Holder :=
  let a := s.tb.smapbase.toNat + 4096 * dSmap d + 16 * k
  match Memory.readAll s.mem a 16 with
  | none => .error ⟨.poison, k, 0, 0, a / 64 * 64⟩
  | some bs =>
    let w := leNat bs
    .ok ⟨k, bits w 56 8, bits w 12 38 * 4096, bits w 10 2 + 1, BitVec.ofNat 64 (bits w 64 64)⟩

/-- Whether a shard of an object is marked lost with the group member that held it (R366). -/
def shardLost (s : State) (h : DWord) (shard : Nat) : Bool := s.pe.lostShards.any (fun x => hObj x.1 == hObj h && x.2 == shard)

/-- The copy that serves an access to a shard (R223): the own package's replica when its stamp suffices, and otherwise the home
copy; a write goes to the home copy. -/
def holderOf (s : State) (h : DWord) (d : BitVec 512) (shard : Nat) (f : DWord) (write : Bool) : Except Meet Holder :=
  if shardLost s h shard then .error ⟨.missing, shard, 0, 0, 0⟩
  else if dRes d == 4 then
    let fresh (k : Nat) : Bool :=
      match mapEntry s d k with
      | .ok e => e.pkg == s.pl.pkg.toNat && f.toNat ≤ e.stamp.toNat
      | .error _ => false
    match (if write then none else (List.range (dScnt d + 1)).find? (fun k => k != 0 && fresh k)) with
    | some k => mapEntry s d k
    | none => mapEntry s d 0
  else if dSaxis d != 15 then mapEntry s d shard
  else .ok ⟨0, hHome h, bits (dWord d 7) 12 38 * 4096, bits (dWord d 7) 10 2 + 1, 0⟩

/-! ## Bytes of objects -/

/-- What an access to object memory answers: a value with its stamp, a park, or the package that holds the bytes. -/
inductive Acc (α : Type) where
  | ok (v : α) (stamp : DWord)
  | park (m : Meet)
  | peer (pkg : Nat)
  deriving DecidableEq, Repr

/-- The system-physical addresses of the bytes at rising offsets of a shard. -/
def byteAddrs (s : State) (who : Who) (h : DWord) (d : BitVec 512) (e : Holder) (write : Bool) : List Nat →
    Acc (List Nat) × State
  | [] => (.ok [] 0, s)
  | o :: os =>
    match slabTranslate s who (dOwner d) h e.root e.depth e.shard (o / 65536) write with
    | (.park k l a, s) => (.park ⟨k, e.shard, o, l, a⟩, s)
    | (.peer p, s) => (.peer p, s)
    | (.frame fr, s) =>
      match byteAddrs s who h d e write os with
      | (.ok as st, s) => (.ok ((fr + o % 65536) :: as) st, s)
      | r => r

/-- The byte offsets of fields, in order. -/
def fieldOffs (fs : List Field) : List Nat := fs.flatMap (fun f => (List.range f.len).map (fun i => f.off + i))

/-- Cut the bytes of fields into the fields' values. -/
def cutFields : List Field → List Byte → List Nat
  | [], _ => []
  | f :: fs, bs => bits (leNat (bs.take f.len)) f.lo f.n :: cutFields fs (bs.drop f.len)

/-- The stamp a served copy records (R223): the home PCLK, or the replica's own. -/
def serveStamp (s : State) (d : BitVec 512) (e : Holder) : DWord :=
  if dRes d == 4 && e.shard != 0 then e.stamp else s.tm.pclk

/-- Read fields of a shard or copy through this package's own tables, at required stamp f (R183, R278). -/
def readHeld (s : State) (who : Who) (h : DWord) (d : BitVec 512) (f : DWord) (e : Holder) (fs : List Field) : Acc (List Nat) × State :=
  match byteAddrs s who h d e false (fieldOffs fs) with
  | (.park m, s) => (.park m, s)
  | (.peer p, s) => (.peer p, s)
  | (.ok as _, s) =>
    match as.find? (fun a => Memory.poisoned s.mem (a / 64)) with
    | some a => (.park ⟨.poison, e.shard, (fs.head?.map Field.off).getD 0, 0, a / 64 * 64⟩, s)
    | none =>
      let s := mergeClock s f
      (.ok (cutFields fs (as.map (fun a => (Memory.read s.mem a).getD 0))) (serveStamp s d e), s)

/-- Read fields of a shard as values, at required stamp f, from the copy that serves it, or from the home copy (R183, R223). -/
def objReadFrom (home : Bool) (s : State) (who : Who) (h : DWord) (d : BitVec 512) (f : DWord) (shard : Nat)
    (fs : List Field) : Acc (List Nat) × State :=
  match holderOf s h d shard f home with
  | .error m => (.park m, s)
  | .ok e => if e.pkg != s.pl.pkg.toNat then (.peer e.pkg, s) else readHeld s who h d f e fs

/-- The copy that a request from another package is about: the shard's home copy, or, where Lolen brings a replica up to date, that replica
(R223, R273). -/
def holderFor (s : State) (h : DWord) (d : BitVec 512) (shard : Nat) : Except Meet Holder :=
  if dRes d == 4 && shard != 0 then mapEntry s d shard else holderOf s h d shard 0 true

/-- The same for a request from another package, which this package translates with its own tables, also where it holds a slab of another
package's object (R278). -/
def objReadFor (s : State) (who : Who) (h : DWord) (d : BitVec 512) (shard : Nat) (fs : List Field) : Acc (List Nat) × State :=
  match holderFor s h d shard with
  | .error m => (.park m, s)
  | .ok e => readHeld s who h d 0 e fs

/-- Read fields of a shard as values, at required stamp f (R183, R223). -/
def objRead (s : State) (who : Who) (h : DWord) (d : BitVec 512) (f : DWord) (shard : Nat) (fs : List Field) :
    Acc (List Nat) × State := objReadFrom false s who h d f shard fs

/-- Put a value of n bits at bit lo into bytes. -/
def pokeBytes (bs : List Byte) (lo n v : Nat) : List Byte := leBytes bs.length (setBits (leNat bs) lo n v)

/-- Write bytes at the addresses of a list. -/
def writeAt (m : Memory) : List Nat → List Byte → Memory
  | a :: as, b :: bs => writeAt (m.write a b) as bs
  | _, _ => m

/-- Write values into fields whose byte addresses are given. -/
def writeFields (m : Memory) : List Field → List Nat → List Nat → Memory
  | f :: fs, as, v :: vs =>
    let here := as.take f.len
    let old := here.map (fun a => (Memory.read m a).getD 0)
    writeFields (writeAt m here (pokeBytes old f.lo f.n v)) fs (as.drop f.len) vs
  | _, _, _ => m

/-- Write fields of a shard's home copy through this package's own tables (R183, R278). -/
def writeHeld (s : State) (who : Who) (h : DWord) (d : BitVec 512) (f : DWord) (e : Holder) (fs : List Field) (vs : List Nat)
    (whole : List Nat) : Acc Unit × State :=
  match byteAddrs s who h d e true (fieldOffs fs) with
  | (.park m, s) => (.park m, s)
  | (.peer p, s) => (.peer p, s)
  | (.ok as _, s) =>
    match (as.zip (fieldOffs fs)).find?
        (fun x => Memory.poisoned s.mem (x.1 / 64) && !whole.contains (x.2 / 64)) with
    | some (a, _) => (.park ⟨.poison, e.shard, (fs.head?.map Field.off).getD 0, 0, a / 64 * 64⟩, s)
    | none =>
      let s := mergeClock s f
      let fresh := (as.map (· / 64)).eraseDups.filter (Memory.poisoned s.mem)
      let m := fresh.foldl (fun m l => Memory.zeroFill m (64 * l) 64) s.mem
      (.ok () s.tm.pclk, { s with mem := writeFields m fs as vs })

/-- Write fields of a shard's home copy. `whole` are the 64-byte lines of the shard, by offset, that the command writes in full,
which a poisoned line takes (R183). -/
def objWrite (s : State) (who : Who) (h : DWord) (d : BitVec 512) (f : DWord) (shard : Nat) (fs : List Field) (vs : List Nat)
    (whole : List Nat) : Acc Unit × State :=
  match holderOf s h d shard f true with
  | .error m => (.park m, s)
  | .ok e => if e.pkg != s.pl.pkg.toNat then (.peer e.pkg, s) else writeHeld s who h d f e fs vs whole

/-- The same for a request from another package (R278). -/
def objWriteFor (s : State) (who : Who) (h : DWord) (d : BitVec 512) (shard : Nat) (fs : List Field) (vs : List Nat)
    (whole : List Nat) : Acc Unit × State :=
  match holderFor s h d shard with
  | .error m => (.park m, s)
  | .ok e => writeHeld s who h d 0 e fs vs whole

/-- The system-physical address of a counter object's word (R271). -/
def counterAddr (d : BitVec 512) (i : Nat) : Nat := dWord d 7 + 8 * i

/-- The 8 bytes of a counter word at its home atomic unit (R181). -/
def counterRead (s : State) (d : BitVec 512) (i : Nat) : Nat := leNat (Memory.chip s.mem (counterAddr d i) 8)

/-- Write a counter word. -/
def counterWrite (s : State) (d : BitVec 512) (i v : Nat) : State :=
  { s with mem := Memory.writeAll s.mem (counterAddr d i) (leBytes 8 v) }

/-! ## Atomics (R196) -/

/-- The word that an atomic writes. -/
def atomicNew (op : LoadOp) (v b c : Nat) : Nat :=
  let sv := intVal true 64 v
  let sb := intVal true 64 b
  match op with
  | .add => (v + b) % 2 ^ 64
  | .minI => if sb < sv then b else v
  | .minN => min v b
  | .maxI => if sv < sb then b else v
  | .maxN => max v b
  | .xchg => b
  | .cas => if v == b then c else v
  | .incb => if v < b then (v + 1) % 2 ^ 64 else v
  | _ => v

/-- Whether an atomic's write fires a watch (R328): every one but a failing `atom.cas` and an `atom.incb` that does not
increment. -/
def atomicFires (op : LoadOp) (v b : Nat) : Bool :=
  match op with
  | .cas => v == b
  | .incb => v < b
  | .add | .minI | .minN | .maxI | .maxN | .xchg => true
  | _ => false

/-- Whether a load operation is an atomic. -/
def LoadOp.isAtomic : LoadOp → Bool
  | .add | .minI | .minN | .maxI | .maxN | .xchg | .cas | .incb => true
  | _ => false

/-! ## Leases and race checks (R215-R218) -/

/-- Whether two inclusive ranges overlap. -/
def overlaps (lo hi lo' hi' : Nat) : Bool := lo ≤ hi' && lo' ≤ hi

/-- Whether a lease is held by a block of this package. -/
def Lease.heldBy (l : Lease) (s : State) (id : BId) : Bool := l.pkg == s.pl.pkg && l.holder == id

/-- The open leases of a block of this package, on its objects and on those of other packages. -/
def heldLeases (s : State) (id : BId) : List Lease := (s.tb.leases ++ s.tb.away).filter (fun l => l.heldBy s id)

/-- Whether a lease is one for a write of an element of an object; `add` says that an add lease suffices (R216). -/
def Lease.covers (l : Lease) (h : DWord) (add : Bool) (i : Nat) : Bool :=
  hObj l.handle == hObj h && l.lo ≤ i && i ≤ l.hi && (add || !l.add)

/-- Whether an open lease of the block covers an element for a write (R216). -/
def leaseCovers (s : State) (id : BId) (h : DWord) (add : Bool) (i : Nat) : Bool :=
  (heldLeases s id).any (fun l => l.covers h add i)

/-- Whether an open lease that the block held when it dispatched its command n covers an element for a write: a command dispatched
before its lease is not covered (R216, R382, R389, R396; log 65). -/
def leaseCoversCmd (s : State) (id : BId) (n : Nat) (h : DWord) (add : Bool) (i : Nat) : Bool :=
  (heldLeases s id).any (fun l => l.since ≤ n && l.covers h add i)

/-- Whether an open lease of another block than the given one overlaps a range that is read (R217). -/
def leaseBarsRange (s : State) (pkg : Byte) (id : BId) (h : DWord) (lo hi : Nat) : Bool :=
  s.tb.leases.any (fun l => !(l.pkg == pkg && l.holder == id) && hObj l.handle == hObj h && overlaps lo hi l.lo l.hi)

/-- Whether an open lease of another block overlaps an element that a block of this package reads (R217). -/
def leaseBars (s : State) (id : BId) (h : DWord) (i : Nat) : Bool := leaseBarsRange s s.pl.pkg id h i i

/-- Whether the block holds a subscription on the object (R222). -/
def subscribed (b : Block) (h : DWord) : Bool := b.subs.any (fun x => hObj x == hObj h)

/-- Close the leases that a predicate names: each close raises its entry's generation (R219, R290). -/
def closeLeases (s : State) (p : Lease → Bool) : State :=
  let closed := (s.tb.leases.filter p).map (·.entry)
  let genOf (k : Nat) : BitVec 16 := ((s.tb.leaseGen.find? (fun x => x.1 == k)).map (·.2)).getD 0
  let gens := closed.map (fun k => (k, genOf k + 1))
  { s with tb := { s.tb with
      leases := s.tb.leases.filter (fun l => !p l)
      leaseGen := gens ++ s.tb.leaseGen.filter (fun x => !closed.contains x.1) } }

/-- Set LCNT and LHEAD of the home descriptor of an object whose leases may have changed (R271, R290; log 82). -/
def trackLeases (s : State) (h : DWord) : State :=
  if hHome h != s.pl.pkg.toNat then s
  else
    match readDesc s (hIndex h) with
    | .error _ => s
    | .ok d =>
      let open_ := s.tb.leases.filter (fun l => hObj l.handle == hObj h)
      let first := (open_.head?.map (·.entry)).getD 0
      let w := dWord d 3
      let w := setBits (setBits w 48 15 open_.length) 32 14 first
      writeDesc s (hIndex h) (dSetWord d 3 w)

/-- The wire code of a request about the leases and reads of another package's object (log 14). -/
def wLease : Nat := 20
/-- Close a lease. -/
def wUnlease : Nat := 21
/-- Withdraw a lease request. -/
def wWithdraw : Nat := 22
/-- Check and register a read. -/
def wRead : Nat := 23
/-- A registered read is complete. -/
def wReadDone : Nat := 24
/-- Close every lease of a block on an object, and forget its reads. -/
def wClose : Nat := 25

/-- The head of such a request: its code and the block (log 14). -/
def blockBody (code : Nat) (id : BId) : List Byte := leBytes 1 code ++ leBytes 4 id.launch ++ leBytes 4 id.lin

/-- Close every open lease of a block as `unlease` does, at this package and at others, withdraw its waiting requests, and have the other
packages forget its reads (R218, R219). -/
def closeAll (s : State) (id : BId) : State :=
  let hs := (s.tb.leases.filter (fun l => l.heldBy s id)).map (·.handle)
  let noted := ((findBlock s id).map Block.noted).getD []
  let aways := ((s.tb.away.filter (fun l => l.heldBy s id)).map (·.handle) ++ noted).eraseDups
  let s := closeLeases s (fun l => l.heldBy s id)
  let s := { s with tb := { s.tb with
    leaseWait := s.tb.leaseWait.filter (fun r => !(r.pkg == s.pl.pkg && r.holder == id))
    away := s.tb.away.filter (fun l => !l.heldBy s id) } }
  let s := hs.foldl trackLeases s
  aways.foldl (fun s h => tell s (hHome h) h (blockBody wClose id)) s

end Sys2Proof.Machine
end

