-- ==== Sys2Proof/Machine/Parks.lean ====
section
/-! DEFINITION. Parked accesses, their fault records and the fault buffers (R282-R286), and the stall wire of a locked gang
(R314). -/

namespace Sys2Proof.Machine

/-- The KIND code of a fault record (R284). -/
def ParkKind.code : ParkKind → Nat
  | .missing => 1 | .slab => 2 | .frozen => 3 | .node => 4 | .poison => 5 | .stage2 => 6 | .badDesc => 7

/-- The system-physical address of a fault record's slot (R285). -/
def fbAddr (die slot : Nat) : Nat := 0x020007F00000 + die * 0x08000000 + 32 * (slot % 1024)

/-- A die's FBHEAD, FBTAIL and FBGEN. -/
def fbHeadOf (s : State) (die : Nat) : Word := (s.tb.fbHead[die]?).getD 0
/-- FBTAIL. -/
def fbTailOf (s : State) (die : Nat) : Word := (s.tb.fbTail[die]?).getD 0
/-- FBGEN. -/
def fbGenOf (s : State) (die : Nat) : BitVec 16 := (s.tb.fbGen[die]?).getD 0

/-- The park that an agent's access makes, before its record (R282). -/
def newPark (no : Nat) (who : Who) (h : DWord) (write atomic : Bool) (m : Meet) : Park :=
  { no := no, die := BitVec.ofNat 2 who.die, gen := none, released := false, kind := m.kind, write := write, atomic := atomic,
    handle := h, world := who.world, shard := m.shard, offset := m.off, level := m.level, addr := m.addr, req := none }

/-- The merge-table key of a park (R285). -/
def parkKey (p : Park) : ParkKind × BitVec 14 × DWord × Nat × Nat := (p.kind, p.world, p.handle, p.shard, p.offset / 65536)

/-- The words of a fault record (R284). -/
def faultRecord (s : State) (who : Who) (p : Park) : List Byte :=
  let w0 := (fbGenOf s p.die.toNat).toNat * 2 ^ 48 + p.kind.code * 2 ^ 40 + who.agent * 2 ^ 36 + b2n p.write * 2 ^ 35
    + b2n p.atomic * 2 ^ 34 + b2n (who.half && who.agent < 5) * 2 ^ 33
    + (if who.agent < 5 then who.core.toNat else 0) * 2 ^ 20 + p.world.toNat * 2 ^ 6 + 1
  let noOff := p.kind == .missing || p.kind == .badDesc
  let w2 := p.shard % 256 * 2 ^ 56 + (if noOff then 0 else p.offset % 2 ^ 56)
  let levelled := p.kind == .node || p.kind == .stage2
  let w3 := (if levelled then p.level % 16 * 2 ^ 60 else 0)
    + (if levelled || p.kind == .poison then p.addr % 2 ^ 52 else 0)
  leBytes 8 w0 ++ leBytes 8 p.handle.toNat ++ leBytes 8 w2 ++ leBytes 8 w3

/-- Write or join the record of a park, unless the buffer is full (R285): the park then waits without a generation. -/
def recordPark (s : State) (who : Who) (p : Park) : Park × State :=
  let die := p.die.toNat
  let gen := fbGenOf s die
  if s.tb.merge.any (fun e => e.1 == die && e.2 == parkKey p) then ({ p with gen := some gen }, s)
  else if fbTailOf s die - fbHeadOf s die == 1024 then (p, s)
  else
    let tail := fbTailOf s die
    let own := s.tb.merge.filter (fun e => e.1 == die)
    let rest := s.tb.merge.filter (fun e => e.1 != die)
    let own := if own.length < 64 then own else own.drop 1
    ({ p with gen := some gen },
     { s with
        mem := Memory.writeAll s.mem (fbAddr die tail.toNat) (faultRecord s who p)
        tb := { s.tb with
          fbTail := s.tb.fbTail.setIfInBounds die (tail + 1)
          merge := rest ++ own ++ [(die, parkKey p)] } })

/-- Park an access (R282): the park, numbered in the order of the parks, with its record. -/
def park (s : State) (who : Who) (h : DWord) (write atomic : Bool) (m : Meet) : Park × State :=
  let (n, s) := freshNat s
  recordPark s who (newPark n who h write atomic m)

/-! ## Every park of the package -/

/-- The park of a posted write. -/
def Posted.park? : Posted → Option Park
  | .store .. => none
  | .sto _ _ _ _ _ _ p _ => p
  | .gate u => u.park

/-- Replace the park of a posted write. -/
def Posted.setPark (x : Posted) (q : Option Park) : Posted :=
  match x with
  | .sto pc h i v r w _ m => .sto pc h i v r w q m
  | .gate u => .gate { u with park := q }
  | x => x

/-- The park of the strand's unfinished instruction. -/
def Block.strandPark (b : Block) : Option Park :=
  match b.wait with
  | some (.park p) => some p
  | _ => none

/-- The strand's unfinished instruction abandoned, unless a park holds it: that one keeps its park, or executes anew at the stamp that it held
(R243, R261, R283, R333). -/
def Block.abandon (b : Block) : Block :=
  match b.wait with
  | some (.park _) | some (.replay _) => { b with reply := none }
  | _ => { b with wait := none, wrap := none, reply := none }

/-- Whether the strand's next instruction can execute: it waits for nothing. -/
def Block.ready (b : Block) : Bool :=
  match b.wait with
  | none | some (.replay _) => true
  | _ => false

/-- A released park of the strand's instruction is over: it executes anew, at the required stamp that it held (R283). -/
def Block.replay (b : Block) (p : Park) : Block := { b with wait := p.req.map Wait.replay }

/-- The commands of an engine that can be parked: the running one and the head of the queue. -/
def EngineQ.parks (q : EngineQ) : List Park :=
  (q.started ++ q.q.take 1).filterMap (·.park)

/-- The parks of a block's strand: its instruction's, its loads' and its posted writes'. -/
def Block.strandParks (b : Block) : List Park :=
  b.strandPark.toList ++ b.loads.filterMap (·.park) ++ b.posted.filterMap Posted.park?

/-- Whether the strand's unfinished instruction has asked another package for a write, or has a reply to use: nothing abandons it before it has
executed, since the other package may have done its part (R243; log 14). -/
def Block.abroad (b : Block) : Bool := b.reply.isSome || (match b.wait with | some (.remote _ w _ _) => w | _ => false)

/-- Whether a strand's access that has parked, or has not, can be attempted: its flush has come, and no released access of the strand has
parked before it (R286). -/
def Block.strandTurn (b : Block) (p : Option Park) : Bool :=
  match p with
  | none => true
  | some p => p.released && b.strandParks.all (fun q => !q.released || p.no ≤ q.no)

/-- Every park of a block (R282). -/
def Block.parks (b : Block) : List Park :=
  b.strandParks ++ b.eF.parks ++ b.eV.parks ++ b.eM.parks ++ b.eP.parks

/-- Change a park that stands in the state, threading the state. -/
def parkStep (f : State → Who → Park → Park × State) (who : Who) (o : Option Park) (s : State) : Option Park × State :=
  match o with
  | some p => let (p, s) := f s who p; (some p, s)
  | none => (none, s)

/-- Change the parks of a list of things, in order. -/
def parkList {α : Type} (f : State → Who → Park → Park × State) (who : Who) (get : α → Option Park)
    (set : α → Option Park → α) : List α → State → List α × State
  | [], s => ([], s)
  | x :: xs, s =>
    let (p, s) := parkStep f who (get x) s
    let (ys, s) := parkList f who get set xs s
    (set x p :: ys, s)

/-- Change the parks of an engine. -/
def parkEngine (f : State → Who → Park → Park × State) (who : Who) (q : EngineQ) (s : State) : EngineQ × State :=
  let (r, s) := parkList f who Cmd.park (fun c p => { c with park := p }) q.run.toList s
  let (os, s) := parkList f who Cmd.park (fun c p => { c with park := p }) q.trail s
  let (cs, s) := parkList f who Cmd.park (fun c p => { c with park := p }) q.q s
  ({ q with run := r.head?, trail := os, q := cs }, s)

/-- Change the parks of a block. -/
def parkBlock (f : State → Who → Park → Park × State) (b : Block) (s : State) : Block × State :=
  let (w, s) := parkStep f (b.who 0) b.strandPark s
  let (ls, s) := parkList f (b.who 0) ObjLoad.park (fun l p => { l with park := p }) b.loads s
  let (ps, s) := parkList f (b.who 0) Posted.park? Posted.setPark b.posted s
  let (qF, s) := parkEngine f (b.who 1) b.eF s
  let (qV, s) := parkEngine f (b.who 2) b.eV s
  let (qM, s) := parkEngine f (b.who 3) b.eM s
  let (qP, s) := parkEngine f (b.who 4) b.eP s
  ({ b with wait := (match w with | some p => some (.park p) | none => b.wait), loads := ls, posted := ps,
            eF := qF, eV := qV, eM := qM, eP := qP }, s)

/-- Change the parks of a list of blocks. -/
def parkBlocks (f : State → Who → Park → Park × State) : List Block → State → List Block × State
  | [], s => ([], s)
  | b :: bs, s =>
    let (b, s) := parkBlock f b s
    let (bs, s) := parkBlocks f bs s
    (b :: bs, s)

/-- Change the parks of the blocks in the save slots (R333). -/
def parkSaves (f : State → Who → Park → Park × State) : List SaveSlot → State → List SaveSlot × State
  | [], s => ([], s)
  | v :: vs, s =>
    let (bs, s) := parkBlocks f v.blocks s
    let (vs, s) := parkSaves f vs s
    ({ v with blocks := bs } :: vs, s)

/-- Change every park of the package: the blocks', the dispatchers', the walkers', the host's and the stream unit's. -/
def parkAll (f : State → Who → Park → Park × State) (s : State) : State :=
  let (b, s) := parkBlock f s.blk s
  let (bs, s) := parkBlocks f s.others s
  let s := { s with blk := b, others := bs }
  let (dps, s) := parkList f (dispWho 0 0) (fun x => some x.park)
    (fun (x : DispPark) p => { x with park := p.getD x.park }) s.dp.parked s
  let (cws, s) := parkList f (dispWho 0 0) CwordOp.park (fun x p => { x with park := p }) s.dp.cwords s
  let (svs, s) := parkSaves f s.wo.saves s
  let (pts, s) := parkList f (dispWho 0 0) Part.park (fun x p => { x with park := p }) s.tm.parts.toList s
  let (hrs, s) := parkList f ⟨0, 0, 0, 6, false⟩ HostReq.park
    (fun x p => { x with park := p }) s.ho.reqs s
  let (jobs, s) := parkList f (dispWho 0 0) DispJob.park
    (fun (x : DispJob) p => { x with park := p }) s.dp.jobs s
  let (frs, s) := parkList f ⟨0, 0, 0, 6, false⟩ StreamFrame.park (fun x p => { x with park := p }) s.pe.frames s
  { s with
    dp := { s.dp with parked := dps, cwords := cws, jobs := jobs }
    pe := { s.pe with frames := frs }
    wo := { s.wo with saves := svs }
    tm := { s.tm with parts := Vector.ofFn (fun (i : Fin 16) => pts.getD i.val Part.reset) }
    ho := { s.ho with reqs := hrs } }

/-- Write the records of the parks that waited for space in a die's buffer (R285). -/
def recordWaiting (s : State) (die : Nat) : State :=
  parkAll (fun s who p => if p.die.toNat == die && p.gen.isNone then recordPark s who p else (p, s)) s

/-- Clear VALID of the records in the ring that carry generation g, at slots head to head + n - 1 (R286). -/
def clearValid (m : Memory) (die g head : Nat) : Nat → Memory
  | 0 => m
  | n + 1 =>
    let a := fbAddr die (head + n)
    let m := clearValid m die g head n
    if leNat (Memory.chip m (a + 6) 2) == g then m.write a ((m.read a).getD 0 &&& 0xFE) else m

/-- FB_FLUSH of a die's generation in one step (R286). -/
def fbFlush (s : State) (die : Nat) : State :=
  let g := fbGenOf s die
  let head := fbHeadOf s die
  let tail := fbTailOf s die
  let s := { s with
    mem := clearValid s.mem die g.toNat head.toNat (tail - head).toNat
    tb := { s.tb with
      fbGen := s.tb.fbGen.setIfInBounds die (g + 1)
      fbHead := s.tb.fbHead.setIfInBounds die tail
      merge := s.tb.merge.filter (fun e => e.1 != die) } }
  let s := parkAll (fun s _ p => (if p.die.toNat == die && p.gen == some g then { p with released := true } else p, s)) s
  recordWaiting s die

/-- A write of FBHEAD (R285). -/
def fbConsume (s : State) (die : Nat) (v : Word) : State :=
  let head := fbHeadOf s die
  if (v - head).toNat ≤ (fbTailOf s die - head).toNat then
    recordWaiting { s with tb := { s.tb with fbHead := s.tb.fbHead.setIfInBounds die v } } die
  else s

/-! ## The stall wire (R314) -/

/-- Whether a block has a parked access that no flush has released. -/
def Block.isParked (b : Block) : Bool := b.parks.any (fun p => !p.released)

/-- Whether a launch's record makes a locked gang (R250). -/
def Launch.locked (l : Launch) : Bool := bitAt ((l.record.words.getD 0 0).toNat) 13

/-- Whether the stall wire of a block's gang is high (R314). -/
def stallWire (s : State) (b : Block) : Bool :=
  (match findLaunch s b.id.launch with | some l => l.locked | none => false)
    && (allBlocks s).any (fun x => x.id.launch == b.id.launch && x.isParked)

end Sys2Proof.Machine
end

