-- ==== Sys2Proof/Machine/Rings.lean ====
section
/-! DEFINITION. Launch records (R250), launch queues in a function's guest memory (R246-R248), appending to a ring (R255) and the
firing of watches (R328). -/

namespace Sys2Proof.Machine

/-! ## Launch records (R250) -/

/-- Word k of a launch record. -/
def LaunchRec.w (r : LaunchRec) (k : Nat) : Nat := (r.words.getD k 0).toNat
/-- ENTRY. -/
def LaunchRec.entry (r : LaunchRec) : Nat := bits (r.w 0) 32 32
/-- N, the squares of a block. -/
def LaunchRec.nsq (r : LaunchRec) : Nat := bits (r.w 0) 24 6 + 1
/-- RS. -/
def LaunchRec.rs (r : LaunchRec) : Nat := bits (r.w 0) 21 3
/-- CLASS: 0 D, 1 L, 2 B. -/
def LaunchRec.cls (r : LaunchRec) : Nat := bits (r.w 0) 19 2
/-- PRIO. -/
def LaunchRec.prio (r : LaunchRec) : Nat := bits (r.w 0) 16 3
/-- ALIGN. -/
def LaunchRec.align (r : LaunchRec) : Nat := bits (r.w 0) 14 2
/-- LOCKED. -/
def LaunchRec.locked (r : LaunchRec) : Bool := bitAt (r.w 0) 13
/-- PREEMPT. -/
def LaunchRec.preempt (r : LaunchRec) : Bool := bitAt (r.w 0) 12
/-- CBWAIT. -/
def LaunchRec.cbwait (r : LaunchRec) : Bool := bitAt (r.w 0) 11
/-- TIMED. -/
def LaunchRec.timed (r : LaunchRec) : Bool := bitAt (r.w 0) 10
/-- CODE. -/
def LaunchRec.code (r : LaunchRec) : DWord := r.words.getD 1 0
/-- ARG. -/
def LaunchRec.arg (r : LaunchRec) : DWord := r.words.getD 2 0
/-- X. -/
def LaunchRec.x (r : LaunchRec) : Nat := bits (r.w 3) 0 16
/-- Y. -/
def LaunchRec.y (r : LaunchRec) : Nat := bits (r.w 3) 16 16
/-- Z. -/
def LaunchRec.z (r : LaunchRec) : Nat := bits (r.w 3) 32 16
/-- The number of blocks (R18). -/
def LaunchRec.blocks (r : LaunchRec) : Nat := r.x * r.y * r.z
/-- SEED. -/
def LaunchRec.seed (r : LaunchRec) : Nat := bits (r.w 4) 32 32
/-- TRAPV. -/
def LaunchRec.trapv (r : LaunchRec) : Nat := bits (r.w 4) 0 32
/-- DEADLINE. -/
def LaunchRec.deadline (r : LaunchRec) : Nat := r.w 5
/-- WATCHDOG, in µs. -/
def LaunchRec.watchdog (r : LaunchRec) : Nat := bits (r.w 6) 32 32
/-- WV. -/
def LaunchRec.wv (r : LaunchRec) : Bool := bitAt (r.w 7) 63
/-- WCTR. -/
def LaunchRec.wctr (r : LaunchRec) : Nat := bits (r.w 7) 51 12
/-- SV. -/
def LaunchRec.sv (r : LaunchRec) : Bool := bitAt (r.w 7) 31
/-- SCTR. -/
def LaunchRec.sctr (r : LaunchRec) : Nat := bits (r.w 7) 19 12
/-- STATUS. -/
def LaunchRec.status (r : LaunchRec) : DWord := r.words.getD 8 0

/-- The 16 words of a record's 128 bytes. -/
def recordOf (bs : List Byte) : LaunchRec :=
  ⟨(List.range 16).map (fun k => BitVec.ofNat 64 (leNat ((bs.drop (8 * k)).take 8)))⟩

/-- The 128 bytes of a record. -/
def LaunchRec.bytes (r : LaunchRec) : List Byte := (List.range 16).flatMap (fun k => leBytes 8 (r.w k))

/-- A record with word k replaced. -/
def LaunchRec.set (r : LaunchRec) (k : Nat) (v : Nat) : LaunchRec := ⟨r.words.set k (BitVec.ofNat 64 v)⟩

/-! ## A function's guest memory -/

/-- Where a walk for a guest-physical address has stopped a dispatcher's access (R279, R284). -/
def guestMeet (r : G2) (gpa : Nat) : Meet :=
  match r with
  | .poison line => ⟨.poison, 0, 0, 0, 64 * line⟩
  | _ => ⟨.stage2, 0, 0, 0, gpa⟩

/-- Where an access at guest memory parks, and whether it writes (R282, R284). -/
structure GuestStop where
  meet : Meet
  write : Bool
  deriving DecidableEq, Repr

/-- Read bytes at a guest-physical address of a function, or where the access parks (R183, R282); a range lies within one page. -/
def guestRead (s : State) (die : Nat) (fn : BitVec 6) (gpa n : Nat) : Except GuestStop (List Byte) :=
  match g2Translate s die (fnWorld s fn) gpa false with
  | (.ok a, _) =>
    match Memory.readAll s.mem a n with
    | some bs => .ok bs
    | none => .error ⟨⟨.poison, 0, 0, 0, a / 64 * 64⟩, false⟩
  | (r, _) => .error ⟨guestMeet r gpa, false⟩

/-- Write bytes at a guest-physical address of a function, or where the access parks: at a line that is poisoned and covered in part
(R183). -/
def guestWrite (s : State) (die : Nat) (fn : BitVec 6) (gpa : Nat) (bs : List Byte) : Except GuestStop State :=
  match g2Translate s die (fnWorld s fn) gpa true with
  | (.ok a, s) =>
    match Memory.writePoison s.mem a bs.length with
    | none => .ok { s with mem := Memory.writeAll s.mem a bs }
    | some line => .error ⟨⟨.poison, 0, 0, 0, 64 * line⟩, true⟩
  | (r, _) => .error ⟨guestMeet r gpa, true⟩

/-! ## Queue records (R246) -/

/-- The guest-physical address of a queue's record, and nothing for a queue beyond the table. -/
def queueRecAddr (s : State) (fn : BitVec 6) (q : Nat) : Option Nat :=
  match s.dp.tables.find? (fun t => t.fn == fn) with
  | some t => if q < t.count then some (t.base + 64 * q) else none
  | none => none

/-- The eight words of a queue record, none for a queue beyond the table, or where reading it parks. -/
def queueLook (s : State) (fn : BitVec 6) (q : Nat) : Except GuestStop (Option (List Nat)) :=
  match queueRecAddr s fn q with
  | some a =>
    (guestRead s (lowDie s) fn a 64).map (fun bs => some ((List.range 8).map (fun k => leNat ((bs.drop (8 * k)).take 8))))
  | none => .ok none

/-- The eight words of a queue record that can be read. -/
def queueRec (s : State) (fn : BitVec 6) (q : Nat) : Option (List Nat) :=
  match queueLook s fn q with
  | .ok r => r
  | .error _ => none

/-- Write word k of a queue record. -/
def setQueueWord (s : State) (fn : BitVec 6) (q k v : Nat) : Except GuestStop State :=
  match queueRecAddr s fn q with
  | some a => guestWrite s (lowDie s) fn (a + 8 * k) (leBytes 8 v)
  | none => .ok s

/-- LOG2SIZE. -/
def qLog (r : List Nat) : Nat := bits (r.getD 1 0) 60 4
/-- The slots of the ring and of the completion ring. -/
def qSize (r : List Nat) : Nat := 2 ^ qLog r
/-- PRODUCER. -/
def qProducer (r : List Nat) : Bool := bitAt (r.getD 1 0) 59
/-- DIE. -/
def qDie (r : List Nat) : Nat := bits (r.getD 1 0) 57 2
/-- VF. -/
def qVf (r : List Nat) : Nat := bits (r.getD 1 0) 51 6
/-- HEAD of the record. -/
def qHead (r : List Nat) : Nat := bits (r.getD 2 0) 32 32
/-- TAIL of the record. -/
def qTail (r : List Nat) : Nat := bits (r.getD 2 0) 0 32
/-- ERR. -/
def qErr (r : List Nat) : Bool := bitAt (r.getD 5 0) 2
/-- PENDING. -/
def qPending (r : List Nat) : Bool := bitAt (r.getD 5 0) 0

/-- Whether a queue record may be mapped (R246). -/
def qOk (r : List Nat) : Bool :=
  4 ≤ qLog r && qLog r ≤ 12 && bits (r.getD 1 0) 0 51 == 0 && r.getD 5 0 / 8 == 0 && r.getD 6 0 == 0 && r.getD 7 0 == 0

/-- Set or clear one bit of the flag word of a queue record. -/
def setQueueFlag (s : State) (fn : BitVec 6) (q bit : Nat) (v : Bool) : Except GuestStop State :=
  match queueLook s fn q with
  | .ok (some r) => setQueueWord s fn q 5 (setBits (r.getD 5 0) bit 1 (b2n v))
  | .ok none => .ok s
  | .error g => .error g

/-- The context of a mapped queue. -/
def queueCtx (s : State) (fn : BitVec 6) (q : Nat) : Option QueueCtx :=
  s.dp.ctxs.find? (fun c => c.fn == fn && c.queue.toNat == q)

/-- HEAD and TAIL as the dispatcher has them: the context's when mapped, and otherwise the record's (R248). -/
def queueEnds (s : State) (fn : BitVec 6) (q : Nat) (r : List Nat) : Word × Word :=
  match queueCtx s fn q with
  | some c => (c.head, c.tail)
  | none => (BitVec.ofNat 32 (qHead r), BitVec.ofNat 32 (qTail r))

/-- Update the context of a mapped queue. -/
def updCtx (s : State) (fn : BitVec 6) (q : Nat) (f : QueueCtx → QueueCtx) : State :=
  { s with dp := { s.dp with ctxs := s.dp.ctxs.map (fun c => if c.fn == fn && c.queue.toNat == q then f c else c) } }

/-- A mapped queue is in use: its 10 µs of idleness begin anew (R248). -/
def touchQueue (s : State) (fn : BitVec 6) (q : Nat) : State := updCtx s fn q (fun c => { c with busyAt := s.tm.dtime })

/-- Map a queue to a free context of its die, if it may be mapped and one is free (R246, R248). -/
def mapQueue (s : State) (fn : BitVec 6) (q : Nat) : Except GuestStop State :=
  match queueLook s fn q with
  | .error g => .error g
  | .ok none => .ok s
  | .ok (some r) =>
    if !qOk r then setQueueFlag s fn q 2 true
    else if (queueCtx s fn q).isSome || 64 ≤ (s.dp.ctxs.filter (fun c => c.die.toNat == qDie r)).length then .ok s
    else
      (setQueueWord s fn q 5 (setBits (setBits (r.getD 5 0) 0 1 0) 1 1 1)).map (fun s =>
        let c : QueueCtx :=
          { fn := fn, queue := BitVec.ofNat 8 q, die := BitVec.ofNat 2 (qDie r), head := BitVec.ofNat 32 (qHead r),
            tail := BitVec.ofNat 32 (qTail r), busyAt := s.tm.dtime }
        { s with dp := { s.dp with ctxs := s.dp.ctxs ++ [c] } })

/-! ## The dispatchers' work at guest memory -/

/-- The queue or watch entry that some work is about: work about one is done in order of arrival. -/
def DispWork.key : DispWork → Nat
  | .notify fn q _ | .unmap fn q _ _ | .discard fn q | .err fn q | .admission fn q | .map fn q => fn.toNat * 256 + q.toNat
  | .fire e _ _ => 2 ^ 14 + e

/-- The function and the queue whose guest memory some work is at. -/
def DispWork.place : DispWork → BitVec 6 × Nat
  | .notify fn q _ | .unmap fn q _ _ | .discard fn q | .err fn q | .admission fn q | .map fn q => (fn, q.toNat)
  | .fire _ w _ => (BitVec.ofNat 6 (bits w.toNat 36 6), bits w.toNat 48 8)

/-- The die whose dispatcher reaches a queue: that of its context, or the one that its record names; the lowest live one where neither is
known, or the named one is lost (R246, R265, R285). -/
def queueDie (s : State) (fn : BitVec 6) (q : Nat) : Nat :=
  let d := match queueCtx s fn q with
    | some c => c.die.toNat
    | none => match queueRec s fn q with | some r => qDie r | none => lowDie s
  if s.dp.dead.getLsbD d then lowDie s else d

/-- The park of a dispatcher's access at guest memory, in its own die's buffer (R282, R284, R285). -/
def parkGuest (s : State) (fn : BitVec 6) (q : Nat) (g : GuestStop) : Park × State :=
  park s (dispWho (queueDie s fn q) (fnWorld s fn)) 0 g.write false g.meet

/-- Some work parks at its dispatcher (R282). -/
def parkWork (s : State) (w : DispWork) (g : GuestStop) : State :=
  let (fn, q) := w.place
  let (p, s) := parkGuest s fn q g
  { s with dp := { s.dp with jobs := s.dp.jobs ++ [⟨w, some p⟩] } }

/-- Work that stands behind work about the same queue or entry has no park of its own (R286). -/
def waitWork (s : State) (w : DispWork) : State := { s with dp := { s.dp with jobs := s.dp.jobs ++ [⟨w, none⟩] } }

/-- The map of a queue that a scan finds PENDING, or cannot read, parks; once (R248, R282). -/
def parkMap (s : State) (x : BitVec 6 × Nat) (g : GuestStop) : State :=
  let w := DispWork.map x.1 (BitVec.ofNat 8 x.2)
  if s.dp.jobs.any (fun j => j.work == w) then s
  else if s.dp.jobs.any (fun j => j.work.key == w.key) then waitWork s w
  else parkWork s w g

/-- Map a queue; where an access to its record stops, the map parks (R248, R282). -/
def mapped (s : State) (x : BitVec 6 × Nat) : State :=
  match mapQueue s x.1 x.2 with
  | .ok s => s
  | .error g => parkMap s x g

/-- Map an unmapped queue whose record has PENDING (R248). -/
def tryMap (s : State) (fn : BitVec 6) (q : Nat) : Except GuestStop State :=
  match queueLook s fn q with
  | .error g => .error g
  | .ok none => .ok s
  | .ok (some r) => if qPending r && (queueCtx s fn q).isNone then mapQueue s fn q else .ok s

/-- The queues of every table, in order. -/
def allQueues (s : State) : List (BitVec 6 × Nat) :=
  s.dp.tables.flatMap (fun t => (List.range t.count).map (fun q => (t.fn, q)))

/-- A die's dispatcher looks at the record of an unmapped queue: it maps the queue where the record has PENDING, and parks where it cannot be
read (R248, R282). -/
def scanQueue (die : Nat) (s : State) (x : BitVec 6 × Nat) : State :=
  if (queueCtx s x.1 x.2).isSome then s
  else
    match queueLook s x.1 x.2 with
    | .error g => parkMap s x g
    | .ok none => s
    | .ok (some r) => if qPending r && qDie r == die then mapped s x else s

/-- A die's dispatcher maps its unmapped queues whose record has PENDING, while contexts are free (R248). -/
def scanPending (s : State) (die : Nat) : State := (allQueues s).foldl (scanQueue die) s

/-- A notify of a queue with a new TAIL (R247, R248): an unmapped queue is mapped behind those that were PENDING before it. -/
def tryNotify (s : State) (fn : BitVec 6) (q : Nat) (tail : Word) : Except GuestStop State :=
  match queueLook s fn q with
  | .error g => .error g
  | .ok none => .ok s
  | .ok (some r) =>
    let (head, _) := queueEnds s fn q r
    if qSize r < (tail - head).toNat then setQueueFlag s fn q 2 true
    else if (queueCtx s fn q).isSome then .ok (updCtx s fn q (fun c => { c with tail := tail, busyAt := s.tm.dtime }))
    else
      match setQueueWord s fn q 2 (setBits (r.getD 2 0) 0 32 tail.toNat) with
      | .error g => .error g
      | .ok s =>
        let s := scanPending s (qDie r)
        if (queueCtx s fn q).isSome then .ok s else (setQueueFlag s fn q 0 true).map (fun s => mapped s (fn, q))

/-- Append a record to a ring (R255): the slot, or nothing where the ring is full. -/
def appendRecord (s : State) (fn : BitVec 6) (q : Nat) (rec : LaunchRec) : Except GuestStop (Option Word × State) :=
  match queueLook s fn q with
  | .error g => .error g
  | .ok none => .ok (none, s)
  | .ok (some r) =>
    let (head, tail) := queueEnds s fn q r
    if (tail - head).toNat == qSize r then .ok (none, s)
    else
      match guestWrite s (lowDie s) fn (r.getD 0 0 + 128 * (tail.toNat % qSize r)) rec.bytes with
      | .error g => .error g
      | .ok s => (tryNotify s fn q (tail + 1)).map (fun s => (some tail, s))

/-! ## Watches (R299, R328) -/

/-- The armed entries of every partition's watch table, in order of their numbers (partition × 256 + entry). -/
def armedWatches (s : State) : List Nat :=
  (s.tb.hub.filterMap (fun (k, v) =>
    if bits k 56 8 == 5 && bits k 0 8 == 2 && v.getLsbD 63 then some (bits k 8 48) else none)).foldl
    (fun l e => insertSorted e l) []

/-- The registered launch record k of a partition (R299). -/
def registered (s : State) (part k : Nat) : LaunchRec :=
  ⟨(List.range 16).map (fun w => BitVec.ofNat 64 (hubWord s 6 (64 * part + k) w))⟩

/-- Fire one watch entry, whose QUEUE, KSLOT and VF stood in its word 2 at the write, with the value written (R328). -/
def tryFire (s : State) (e : Nat) (armed v : DWord) : Except GuestStop State :=
  let ctl := armed.toNat
  let part := e / 256
  let rec_ := (registered s part (bits ctl 42 6)).set 2 v.toNat
  (appendRecord s (BitVec.ofNat 6 (bits ctl 36 6)) (bits ctl 48 8) rec_).map (fun x =>
    match x.1 with
    | some _ => x.2
    | none =>
      let p := partOf x.2 (BitVec.ofNat 4 part)
      setPart x.2 (BitVec.ofNat 4 part) { p with wmiss := p.wmiss + 1 })

/-! ## Doing the work at guest memory -/

/-- Write HEAD and TAIL of a queue record, and clear MAPPED (R248, R345). -/
def leaveQueue (s : State) (fn : BitVec 6) (q : Nat) (head tail : Word) : Except GuestStop State :=
  match setQueueWord s fn q 2 (head.toNat * 2 ^ 32 + tail.toNat) with
  | .error g => .error g
  | .ok s => setQueueFlag s fn q 1 false

/-- Do some work, or say where it parks. A ring slot that could not be read at admission is read by LAUNCH_ADMISSION itself. -/
def tryWork (s : State) : DispWork → Except GuestStop State
  | .notify fn q tail => tryNotify s fn q.toNat tail
  | .unmap fn q head tail => leaveQueue s fn q.toNat head tail
  | .discard fn q =>
    match queueLook s fn q.toNat with
    | .error g => .error g
    | .ok none => .ok s
    | .ok (some r) => let t := BitVec.ofNat 32 (qTail r); leaveQueue s fn q.toNat t t
  | .err fn q => setQueueFlag s fn q.toNat 2 true
  | .admission _ _ => .ok s
  | .map fn q => tryMap s fn q.toNat
  | .fire e w v => tryFire s e w v

/-- Do some work behind what has parked about the same queue or entry. -/
def doWork (s : State) (w : DispWork) : State :=
  if s.dp.jobs.any (fun j => j.work.key == w.key) then waitWork s w
  else
    match tryWork s w with
    | .ok s => s
    | .error g => parkWork s w g

/-- The work that has waited behind some about the same queue or entry, in order, as far as it can be done. -/
def drainWork (key : Nat) : Nat → State → State
  | 0, s => s
  | n + 1, s =>
    match s.dp.jobs.zipIdx.find? (fun x => x.1.work.key == key) with
    | none => s
    | some (j, k) =>
      if j.park.isSome then s
      else
        match tryWork s j.work with
        | .ok s => drainWork key n { s with dp := { s.dp with jobs := s.dp.jobs.eraseIdx k } }
        | .error g =>
          let (fn, q) := j.work.place
          let (p, s) := parkGuest s fn q g
          { s with dp := { s.dp with jobs := s.dp.jobs.set k { j with park := some p } } }

/-- A notify reaches the dispatcher (R247, R248). -/
def notify (s : State) (fn : BitVec 6) (q : Nat) (tail : Word) : State :=
  if q < 256 then doWork s (.notify fn (BitVec.ofNat 8 q) tail) else s

/-- Set ERR in a queue's record (R246, R253). -/
def setErrFlag (s : State) (fn : BitVec 6) (q : BitVec 8) : State := doWork s (.err fn q)

/-- Fire the watches of a written element: an entry names the object with its generation (R299, R328). -/
def fireWatches (s : State) (h : DWord) (i : Nat) (v : DWord) : State :=
  (armedWatches s).foldl
    (fun s e =>
      if tlbHandle (BitVec.ofNat 64 (hubWord s 5 e 0)) == tlbHandle h && hubWord s 5 e 1 == i then
        doWork s (.fire e (BitVec.ofNat 64 (hubWord s 5 e 2)) v)
      else s) s

end Sys2Proof.Machine
end

