-- ==== Sys2Proof/Machine/Wire.lean ====
section
/-! DEFINITION. The bodies of frames to peer packages (R184, R360; the payload layout is the model's own, log 14). -/

namespace Sys2Proof.Machine

/-- The body of a read request: the shard, and each field's offset, low bit and length (log 14). -/
def fieldBody (sh : Nat) (fs : List Field) : List Byte :=
  leBytes 1 sh ++ fs.flatMap (fun f => leBytes 8 f.off ++ leBytes 1 f.lo ++ leBytes 2 f.n)

/-- The body of a write request: the shard, whether the write fires watches (R328), the 64-byte lines by offset that the command writes in
full (R183), and each field with its value (log 14). -/
def writeBody (fires : Bool) (sh : Nat) (whole : List Nat) (fs : List Field) (vs : List Nat) : List Byte :=
  leBytes 1 sh ++ leBytes 1 (whole.length + 128 * b2n fires) ++ whole.flatMap (leBytes 8) ++ (fs.zip vs).flatMap (fun x => leBytes 8 x.1.off ++ leBytes 1 x.1.lo ++ leBytes 2 x.1.n ++ leBytes 16 x.2)

/-- The values of a read reply: 16 bytes each (log 14). -/
def replyValues (n : Nat) (bs : List Byte) : List Nat := (List.range n).map (fun i => leNat ((bs.drop (16 * i)).take 16))

/-- The code of an operation on a counter word or element in an atomic request (log 14). -/
def LoadOp.wire : LoadOp → Nat
  | .elem => 0 | .add => 1 | .minI => 2 | .minN => 3 | .maxI => 4 | .maxN => 5 | .xchg => 6 | .cas => 7 | .incb => 8
  | .version => 9 | .skipWord _ => 11 | .counterRead => 12

/-- The operation of a code in an atomic request (log 14). -/
def wireOp (c : Nat) : LoadOp :=
  match c with
  | 1 => .add | 2 => .minI | 3 => .minN | 4 => .maxI | 5 => .maxN | 6 => .xchg | 7 => .cas | 8 => .incb
  | 9 => .version | _ => .counterRead

end Sys2Proof.Machine
end

