-- ==== Sys2Proof/Machine/Fetch.lean ====
section
/-! DEFINITION. Fetching instruction words through the launch's CODE handle (R61, R119), and what a strand does with a handle
register (R83, R193, R223). -/

namespace Sys2Proof.Machine

/-! ## The strand's parks and remote waits (R282) -/

/-- Park the strand's instruction, whose access has required stamp f (R282, R283). -/
def strandParks (f : Option DWord) (s : State) (h : DWord) (write atomic : Bool) (m : Meet) : Out :=
  let (p, s) := park s (s.blk.who 0) h write atomic m
  waitS s (.park { p with req := f })

/-- Ask another package for an access that writes or is an atomic as given, and wait for its reply; without a path the access parks
(R361). -/
def strandAsksFor (write atomic : Bool) (f : Option DWord) (s : State) (pkg op : Nat) (h : DWord) (off : Nat) (desc : Option DWord) (body : List Byte) :
    Out :=
  match sendRequest s pkg op h off desc body with
  | some (r, s) => waitS s (.remote r write atomic f)
  | none => strandParks f s h write atomic (noPath op off body)

/-- Send another package a request that writes, in parts, and wait for its reply. -/
def strandSends (f : Option DWord) (s : State) (pkg op : Nat) (h : DWord) (bodies : List (List Byte)) : Out :=
  match sendParts s pkg op h 0 none bodies with
  | some (r, s) => waitS s (.remote r true false f)
  | none => strandParks f s h true false (noPath op 0 (bodies.headD []))

/-- Ask another package for a read. -/
def strandAsks (f : Option DWord) (s : State) (pkg op : Nat) (h : DWord) (off : Nat) (desc : Option DWord) (body : List Byte) : Out :=
  strandAsksFor false false f s pkg op h off desc body

/-! ## The handle of a handle register (R193, R223, R276) -/

/-- Use a handle register at required stamp f: INVALID_HANDLE for 0 or a nonzero low byte; the hidden copy where it is fresh
enough and not marked for refresh, and otherwise the descriptor resolved anew, which replaces it. `write` and `atomic` are those of the
access, for the record of its park (R284). -/
def withHandleFor (write atomic : Bool) (h : BitVec 4) (f : DWord) (s : State) (k : BitVec 512 → State → Out) : Out :=
  let c := s.blk.hCell h
  if hLow c.v != 0 || hIndex c.v == 0 then strandTrap cINVALIDH c.v s
  else if !c.refresh && f.toNat ≤ c.stamp.toNat && dGen c.desc == hGen c.v && dKind c.desc != 0 && dRes c.desc != 6 then
    k c.desc s
  else
    match resolve s (s.blk.who 0) c.v f with
    | (.trap cause, s) => strandTrap cause c.v s
    | (.park m, s) => strandParks (some f) s c.v write atomic m
    | (.ask pkg, s) => strandAsksFor write atomic (some f) s pkg opRead c.v descOffset (some c.v) []
    | (.ok d st, s) => k d { s with blk := s.blk.setH h { c with desc := d, stamp := st, refresh := false } }

/-- Use a handle register for an access that reads. -/
def withHandle (h : BitVec 4) (f : DWord) (s : State) (k : BitVec 512 → State → Out) : Out := withHandleFor false false h f s k

/-! ## Instruction fetch (R61, R119) -/

/-- What fetching a word answers. -/
inductive Fetched where
  | word (w : Word)
  | trap (cause : Nat) (info : DWord)
  | park (m : Meet)
  | askDesc (pkg : Nat)
  | ask (pkg sh : Nat) (fs : List Field) (at_ : List Nat)
  deriving DecidableEq, Repr

/-- The byte length of a code object. -/
def codeLen (d : BitVec 512) : Nat := dCount d

/-- The descriptor of the code object as DESC_SYNC keeps it (R119, R276). -/
def codeDescOf (s : State) : Resolved × State :=
  let b := s.blk
  if !b.codeRefresh && dKind b.codeDesc == kCode && dGen b.codeDesc == hGen b.code && dRes b.codeDesc != 6 then
    (.ok b.codeDesc 0, s)
  else
    match resolve s (b.who 0) b.code 0 with
    | (.ok d st, s) => (.ok d st, { s with blk := { s.blk with codeDesc := d, codeRefresh := false, codeBuf := [] } })
    | r => r

/-- A byte of a code object where it stands: the byte, a park, or the package that holds its shard. -/
inductive CodeByte where
  | byte (v : Byte)
  | park (m : Meet)
  | away (pkg : Nat)
  deriving DecidableEq, Repr

/-- The shard and the field of the code object's byte at an address (R272). -/
def codeField (d : BitVec 512) (a : Nat) : Nat × List Field :=
  let (sh, fs) := elemFields d (coordsOf (dExts d) a)
  (sh, fs.take 1)

/-- The byte of a code object at an address, in its own shard, unless another package has sent it (R61, R272; log 14). -/
def codeByte (s : State) (d : BitVec 512) (a : Nat) : CodeByte × State :=
  match s.blk.codeBuf.find? (fun c => c.1 == a) with
  | some c => (.byte c.2, s)
  | none =>
    let (sh, fs) := codeField d a
    match objRead s (s.blk.who 0) s.blk.code d 0 sh fs with
    | (.park m, s) => (.park m, s)
    | (.peer pkg, s) => (.away pkg, s)
    | (.ok vs _, s) => (.byte (BitVec.ofNat 8 (vs.getD 0 0)), s)

/-- Fetch the bytes at some addresses behind those that are there: the first that another package holds is asked for with the others of its
shard (R61; log 14). -/
def fetchBytes (d : BitVec 512) : List Nat → List Byte → State → Fetched × State
  | [], bs, s => (.word (BitVec.ofNat 32 (leNat bs)), s)
  | a :: as, bs, s =>
    match codeByte s d a with
    | (.byte v, s) => fetchBytes d as (bs ++ [v]) s
    | (.park m, s) => (.park m, s)
    | (.away pkg, s) =>
      let sh := (codeField d a).1
      let xs := (a :: as).filter (fun x => (codeField d x).1 == sh)
      (.ask pkg sh (xs.flatMap (fun x => (codeField d x).2)) xs, s)

/-- Fetch the word at a byte offset of the code object (R119), each byte in its shard; that a word which begins inside the object and ends
beyond it is a FETCH_FAULT is the model's choice (log 69). -/
def fetchWord (s : State) (a : Nat) : Fetched × State :=
  match codeDescOf s with
  | (.trap cause, s) => (.trap cause s.blk.code, s)
  | (.park m, s) => (.park m, s)
  | (.ask pkg, s) => (.askDesc pkg, s)
  | (.ok d _, s) =>
    if codeLen d < a + 4 || !canRead d s.blk.world then (.trap cFETCH (BitVec.ofNat 64 a), s)
    else fetchBytes d [a, a + 1, a + 2, a + 3] [] s

/-- Fetch the words of the instruction at an address: its first word, and the second of a 64-bit instruction (R61). -/
def fetchInstr (s : State) (pc : Nat) : Fetched × Word × State :=
  match fetchWord s pc with
  | (.word w0, s) =>
    if lengthOf w0 == 8 then
      match fetchWord s (pc + 4) with
      | (.word w1, s) => (.word w0, w1, s)
      | (r, s) => (r, 0, s)
    else (.word w0, 0, s)
  | (r, s) => (r, 0, s)

/-- The strand's outcome where a fetch does not give its word (R119). -/
def fetchStops (r : Fetched) (s : State) : Out :=
  match r with
  | .word _ => .next s
  | .trap cause info => strandTrap cause info s
  | .park m => strandParks none s s.blk.code false false m
  | .askDesc pkg => strandAsks none s pkg opRead s.blk.code descOffset (some s.blk.code) []
  | .ask pkg sh fs xs =>
    let off := (fs.head?.map Field.off).getD 0
    let body := fieldBody sh fs
    match sendRequest s pkg opRead s.blk.code off none body with
    | some (r, s) => waitS s (.fetch r xs)
    | none => strandParks none s s.blk.code false false (noPath opRead off body)

/-- FETCH_FAULT: the fetch at an address, which ends as R119 has it; where the fetch succeeds nothing happens. -/
def execFetchFault (addr : BitVec 32) (s : State) : Out :=
  let (r, _, s') := fetchInstr s addr.toNat
  match r with
  | .word _ => .next s
  | r => fetchStops r s'

end Sys2Proof.Machine
end

