-- ==== Sys2Proof/Machine/Flags.lean ====
section
/-! DEFINITION. FPSTAT (R52, R53) and the checks and effects of writing control registers (R9, R44, R48, R96, R97, R116). -/

namespace Sys2Proof.Machine

/-- Merge the flags of a completing command into FPSTAT (R52, R53). -/
def Block.mergeFlags (b : Block) (f : Flags) : Block := { b with fpstat := b.fpstat ||| f }

/-- Clear the FPSTAT bits that a `setc` writes as 1 (R52). -/
def Block.clearFlags (b : Block) (v : DWord) : Block := { b with fpstat := b.fpstat &&& ~~~(v.setWidth 7) }

/-- CORE_ID (R99). -/
def coreIdOf (s : State) : DWord := BitVec.ofNat 64 (s.blk.core.toNat + s.pl.pkg.toNat * 2 ^ 12)

/-- The value that `getc` reads (R97-R100). -/
def readCReg (s : State) : CReg → DWord
  | .fpctl => s.blk.rm.setWidth 64
  | .fpstat => s.blk.fpstat.setWidth 64
  | .srlfsr => s.blk.lfsr.setWidth 64
  | .blockId => s.blk.blockId.setWidth 64
  | .gangDim => s.blk.gangDim.setWidth 64
  | .coreId => coreIdOf s
  | .worldId => s.blk.world.setWidth 64
  | .slipDepth => BitVec.ofNat 64 s.blk.slip
  | .bankSide => s.blk.bankSide.setWidth 64
  | .trapVec => s.blk.trapVec.setWidth 64
  | .svcRing => s.blk.svcRing
  | .svcCtr => s.blk.svcCtr
  | .taintFloor => s.blk.floor
  | .taintPend => BitVec.ofNat 64 s.blk.pend
  | .loadTags => s.blk.inUse.setWidth 64
  | .ctlTaint => s.blk.ctl.setWidth 64
  | .deadMode => if s.blk.deadMode then 1 else 0
  | .trapPc => s.blk.trapPc.setWidth 64
  | .trapCause => s.blk.trapCause.setWidth 64
  | .trapInfo => s.blk.trapInfo

/-- The low bits of a control register that are not reserved (R44, R48, R52, R94, R96, R98-R100). -/
def fieldBitsOf : CReg → Nat
  | .fpctl => 3
  | .fpstat => 7
  | .srlfsr => 32
  | .blockId => 48
  | .gangDim => 48
  | .coreId => 20
  | .worldId => 14
  | .slipDepth => 5
  | .bankSide => 16
  | .trapVec => 32
  | .svcRing => 64
  | .svcCtr => 64
  | .taintFloor => 64
  | .taintPend => 8
  | .loadTags => 16
  | .ctlTaint => 16
  | .deadMode => 1
  | .trapPc => 32
  | .trapCause => 16
  | .trapInfo => 64

/-- Whether `setc` refuses a value (R116 steps 2 and 3): a 1 in a reserved bit, a rounding mode of 5-7, or a TRAP_PC that is not
a multiple of 4. -/
def setcRefused (c : CReg) (v : DWord) : Bool :=
  v.toNat / 2 ^ fieldBitsOf c != 0
    || (match c with
        | .fpctl => 5 ≤ bits v.toNat 0 3
        | .trapPc => bits v.toNat 0 2 != 0
        | _ => false)

/-- The block after a `setc` whose checks passed (R116 step 4): RW fields written, W1C bits cleared, RO registers left. -/
def writeCReg (b : Block) (c : CReg) (v : DWord) : Block :=
  match c with
  | .fpctl => { b with rm := v.setWidth 3 }
  | .fpstat => b.clearFlags v
  | .srlfsr => { b with lfsr := if v.setWidth 32 == (0 : Word) then 1 else v.setWidth 32 }
  | .deadMode => { b with deadMode := v.getLsbD 0 }
  | .trapPc => { b with trapPc := v.setWidth 32 }
  | _ => b

end Sys2Proof.Machine
end

