-- ==== Sys2Proof/Machine/Operands.lean ====
section
/-! DEFINITION. Operand forms: level addresses (R31, R189), element indices (R192), branch targets (R113), tile descriptors
(R84, R85), shape registers (R86), index tuples (R202). -/

namespace Sys2Proof.Machine

/-! ## Addresses, indices and targets -/

/-- The byte address of format M: s(SA) plus the sign-extended OFF10, modulo 2^64 (R189). -/
def memAddr (b : Block) (sa : SReg) (off : BitVec 10) : Nat := (rdS b sa + off.signExtend 64).toNat

/-- A byte address with an 18-bit offset (R198, R326). -/
def immAddr (b : Block) (sa : SReg) (imm : BitVec 18) : Nat := (rdS b sa + imm.signExtend 64).toNat

/-- The linear index of an object element, exact (R192). -/
def elemIndex (b : Block) (sa : SReg) (imm : BitVec 18) : Int := ((rdS b sa).toNat : Int) + imm.toInt

/-- The target of a branch offset in words (R113). -/
def relTarget (b : Block) (off : BitVec 32) : Word := b.pc + off * 4

/-! ## Tile descriptors (R84) -/

/-- BASE. -/
def tBase (d : BitVec 128) : Nat := bits d.toNat 0 18
/-- PITCH. -/
def tPitch (d : BitVec 128) : Nat := bits d.toNat 18 18
/-- ROWS, minus 1. -/
def tRows (d : BitVec 128) : Nat := bits d.toNat 36 12
/-- ROWB, minus 1. -/
def tRowb (d : BitVec 128) : Nat := bits d.toNat 48 13
/-- FMT. -/
def tFmt (d : BitVec 128) : Nat := bits d.toNat 64 5
/-- META. -/
def tMeta (d : BitVec 128) : Bool := bitAt d.toNat 69
/-- SBASE. -/
def tSbase (d : BitVec 128) : Nat := bits d.toNat 72 18
/-- SPITCH. -/
def tSpitch (d : BitVec 128) : Nat := bits d.toNat 90 18

/-- Whether the format code of a tile is microscaling: 0x10-0x15 (R38). -/
def mxCode (code : Nat) : Bool := 0x10 ≤ code && code ≤ 0x15

/-- The width in bits of a format code. -/
def codeWidth (code : Nat) : Nat := match fmtOf code with | some f => f.width | none => 8

/-- The whole elements that a row of ROWB + 1 bytes holds (R85). -/
def tElems (d : BitVec 128) : Nat := (tRowb d + 1) * 8 / codeWidth (tFmt d)

/-- Check 1 of R85. -/
def tWellFormed (d : BitVec 128) : Bool :=
  bits d.toNat 108 20 == 0 && bits d.toNat 70 2 == 0 && bits d.toNat 61 3 == 0
  && tBase d % 16 == 0 && tPitch d % 16 == 0 && tSbase d % 4 == 0 && tSpitch d % 4 == 0
  && (tRows d == 0 || tRowb d + 1 ≤ tPitch d)
  && (mxCode (tFmt d) || (tSbase d == 0 && tSpitch d == 0))

/-- The first row of a tile's elements that reaches at or beyond a bound, as the offset that R85 reports. -/
def tBeyond (d : BitVec 128) (off bound : Nat) : Option Nat :=
  ((List.range (tRows d + 1)).find? (fun k => bound ≤ off + tBase d + k * tPitch d + tRowb d)).map
    (fun k => off + tBase d + k * tPitch d)

/-- The first scale row of an MX tile that reaches at or beyond a bound, as the offset that R85 reports: SBASE, like BASE, counts from the
command's level offset (R84, R204, log 45). -/
def tScaleBeyond (d : BitVec 128) (off bound : Nat) : Option Nat :=
  if mxCode (tFmt d) then
    ((List.range (tRows d + 1)).find? (fun k => bound < off + tSbase d + k * tSpitch d + cdiv (tElems d) 32)).map
      (fun k => off + tSbase d + k * tSpitch d)
  else none

/-- The byte ranges in the scratchpad of a tile at a level: none but at `sp:`. -/
def tRangesAt (d : BitVec 128) (lv : Level) : List (Nat × Nat) :=
  let rows := List.range (tRows d + 1)
  if lv == .sp then
    rows.map (fun k => (tBase d + k * tPitch d, tRowb d + 1))
      ++ (if mxCode (tFmt d) then rows.map (fun k => (tSbase d + k * tSpitch d, cdiv (tElems d) 32)) else [])
  else []

/-- The byte ranges of a tile at `sp:`. -/
def tRanges (d : BitVec 128) : List (Nat × Nat) := tRangesAt d .sp

/-- The squares of a list of byte ranges. -/
def rangeSquares (rs : List (Nat × Nat)) : List Nat := (rs.flatMap (fun r => squaresOf r.1 r.2)).eraseDups

/-! ## Shape registers (R86) -/

/-- RANK. -/
def qRank (q : BitVec 256) : Nat := bits q.toNat 0 4
/-- EXT of dimension i. -/
def qExt (q : BitVec 256) (i : Nat) : Nat := bits q.toNat (16 + 16 * i) 16
/-- The extents below RANK. -/
def qExts (q : BitVec 256) : List Nat := (List.range (qRank q)).map (qExt q)
/-- The check of R86. -/
def qOkShape (q : BitVec 256) : Bool :=
  1 ≤ qRank q && qRank q ≤ 9 && bits q.toNat 160 96 == 0 && bits q.toNat 4 12 == 0
  && (List.range 9).all (fun i => if i < qRank q then qExt q i != 0 else qExt q i == 0)

/-- The number of index scalars that a shape takes (R201 step 4). -/
def indexRun (q : BitVec 256) : Nat := if 1 ≤ qRank q && qRank q ≤ 9 then cdiv (qRank q) 4 else 1

/-- The origin coordinates in captured index scalars (R202). -/
def originOf (si : List DWord) (rank : Nat) : List Nat :=
  (List.range rank).map (fun d => bits (si.getD (d / 4) 0).toNat (16 * (d % 4)) 16)

/-! ## Bank rows (R89) -/

/-- The bank of a vector register. -/
def bankOf (w : WReg) : Nat := w.toNat / 32

/-- The bytes of a bank: its 32 rows (R89). -/
def rdBank (s : State) (b : BitVec 4) : List Byte :=
  (List.range 32).flatMap (fun j => rdRow s (BitVec.ofNat 9 (32 * b.toNat + j)))

/-- Write the bytes of a bank. -/
def wrBank (s : State) (b : BitVec 4) (bs : List Byte) : State :=
  (List.range 32).foldl
    (fun s j => wrRow s (BitVec.ofNat 9 (32 * b.toNat + j)) ((bs.drop (128 * j)).take 128)) s

end Sys2Proof.Machine
end

