-- ==== Sys2Proof/Machine/Control.lean ====
section
/-! DEFINITION. Control transfer (R113, R114), control registers (R115, R116), dead marks (R117), `trap`, the illegal instruction
and the return from the handler (R73, R125, R126). -/

namespace Sys2Proof.Machine

/-- The program counter set by a control transfer; a wrapped one adds its W predicate's taint set to CTL_TAINT (R113). -/
def jumpB (s : State) (b : Block) (target : Word) (t : Taint) : Out :=
  .next { s with blk := { b with pc := target, ctl := b.ctl ||| t ||| b.wrapT, wait := none } }

/-- `br` (R113). -/
def execBr (n : Bool) (p : PReg) (off : BitVec 17) (s : State) : Out :=
  let b := s.blk
  withRegs [] [p] [] [] s
    (if (rdP b p).getLsbD 0 != n then jumpB s b (relTarget b (off.signExtend 32)) (taintP b p)
     else jumpB s b (b.pc + 4) (taintP b p))

/-- `loop` (R114). -/
def execLoop (sc : SReg) (off : BitVec 17) (s : State) : Out :=
  let b := s.blk
  withRegs [sc] [] [sc] [] s
    (let n := rdS b sc
     let t := taintS b sc
     if n == 0 then jumpB s b (b.pc + 4) t
     else
       let target := if n - 1 != 0 then relTarget b (off.signExtend 32) else b.pc + 4
       jumpB s (wrS b sc (n - 1) t) target t)

/-- `call` (R113). -/
def execCall (off : BitVec 24) (s : State) : Out :=
  let b := s.blk
  withRegs [] [] [63] [] s (jumpB s (putS b 63 ((b.pc + 4).setWidth 64) 0) (relTarget b (off.signExtend 32)) 0)

/-- A jump to an address in a register (R61, R113): the target's high half and its alignment are checked first; that the high half
comes before the alignment is the model's choice (log 68). -/
def jumpTo (b' : Block) (v : DWord) (t : Taint) (s : State) : Out :=
  if v.toNat / 2 ^ 32 != 0 then strandTrap cOPERAND v s
  else if v.toNat % 4 != 0 then strandTrap cMISALIGNED v s
  else jumpB s b' (v.setWidth 32) t

/-- `ret` (R113). -/
def execRet (s : State) : Out := withRegs [63] [] [] [] s (jumpTo s.blk (rdS s.blk 63) (taintS s.blk 63) s)

/-- `bp` (R113). -/
def execBp (sa : SReg) (s : State) : Out := withRegs [sa] [] [] [] s (jumpTo s.blk (rdS s.blk sa) (taintS s.blk sa) s)

/-- `callr` (R113): the target is read before the link is written. -/
def execCallr (sa : SReg) (s : State) : Out :=
  let b := s.blk
  withRegs [sa] [] [63] [] s
    (jumpTo (putS b 63 ((b.pc + b.len 4).setWidth 64) 0) (rdS b sa) (taintS b sa) s)

/-- `nop` (R113). -/
def execNop (s : State) : Out := doneS s 4

/-! ## Return from the handler (R126) -/

/-- The engine of an AGENT code (R100). -/
def agentEngine (a : Nat) : Engine :=
  match a with
  | 1 => .F
  | 2 => .V
  | 3 => .M
  | _ => .P

/-- Leave handler mode after an engine fault, with the queues unfrozen and the strand at its resume offset (R126). -/
def Block.resume (b : Block) : Block :=
  { b with handler := false, frozen := false, wait := none, pc := BitVec.ofNat 32 (bits b.trapInfo.toNat 32 32) }

/-- The header of a command (R66). -/
def Cmd.hdr (c : Cmd) : Hdr := (c.instr.hdr?).getD ⟨false, false, 0, none, none⟩

/-- The command whose fault waits behind the handler that ends now: the one dispatched earliest (R124). -/
def Block.pendingFault (b : Block) : Option Cmd :=
  ([b.eF, b.eV, b.eM, b.eP].filterMap (fun q => q.q.head?)).foldl
    (fun r c =>
      if !c.pend then r
      else
        match r with
        | some x => if c.n < x.n then some c else r
        | none => some c) none

/-- Replace the command at the head of its queue. -/
def Block.setHead (b : Block) (c : Cmd) : Block := b.setEng c.eng { b.eng c.eng with q := c :: (b.eng c.eng).q.tail }

/-- A pending fault is taken at the first instruction boundary behind the return from the handler (R124). -/
def Block.takePending (b : Block) : Block :=
  match b.pendingFault with
  | none => b
  | some c =>
    match c.fault with
    | none => b
    | some (cause, detail) =>
      { (b.setHead { c with pend := false }).takeTrap c.addr (causeWord (engCode c.eng) c.qno cause) (b.pc ++ detail) cause true false with
        faultNow := true }

/-- Return from a strand trap (R126). -/
def strandReturn (skip : Bool) (s : State) : Out :=
  if skip then
    match fetchWord s s.blk.trapPc.toNat with
    | (.word w, s) =>
      let tgt := s.blk.trapPc.toNat + lengthOf w
      if 2 ^ 32 ≤ tgt then badOperand tgt s
      else if tgt % 4 != 0 then strandTrap cMISALIGNED (BitVec.ofNat 64 tgt) s
      else .next { s with blk := { s.blk with handler := false, wait := none, pc := BitVec.ofNat 32 tgt } }
    | (r, s) => fetchStops r s
  else if s.blk.trapPc.toNat % 4 != 0 then strandTrap cMISALIGNED (s.blk.trapPc.setWidth 64) s
  else .next { s with blk := { s.blk with handler := false, wait := none, pc := s.blk.trapPc } }

/-- A result that a skipped `fetch.step` had raised PENDING for leaves its comparator queue (R166). -/
def Block.dropStep (b : Block) (c : Cmd) : Block :=
  match c.instr with
  | .fetchStep _ _ g _ _ _ _ =>
    let x := b.gCell g
    b.setG g { x with queue := x.queue.filter (fun r => r.cmd != c.n || r.done) }
  | _ => b

/-- The faulting command leaves its queue as if predicated off, pushing its signal token unless its push has overflowed; an
overflow of this push is a new trap (R30, R126). -/
def skipCommand (e : Engine) (s : State) : Out :=
  let b := s.blk
  match (b.eng e).q with
  | [] => .next { s with blk := b.resume.takePending }
  | c :: rest =>
    let b := (b.setEng e { b.eng e with q := rest }).dropStep c
    match c.hdr.sig, c.noPush with
    | some k, false =>
      if (b.token k).count == 255 then
        let r := b.resume
        let q := r.eng e
        let c' := { c with noPush := true, skipEnd := true, fault := some (cTOKOVER, BitVec.ofNat 32 k.toNat) }
        let r := r.setEng e { q with q := c' :: q.q }
        let info : DWord := r.pc ++ BitVec.ofNat 32 k.toNat
        .next { s with blk := r.takeTrap c.addr (causeWord (engCode e) c.qno cTOKOVER) info cTOKOVER true false }
      else .next { s with blk := (b.push k).resume.takePending }
    | _, _ => .next { s with blk := b.resume.takePending }

/-- The faulting command starts again from what it captured (R126). -/
def retryCommand (e : Engine) (s : State) : Out :=
  let b := s.blk
  match (b.eng e).q with
  | [] => .next { s with blk := b.resume.takePending }
  | c :: rest => .next { s with blk := (b.setEng e { b.eng e with q := { c with fault := none } :: rest }).resume.takePending }

/-- `tret` (R126). -/
def execTret (s : State) : Out :=
  let agent := bits s.blk.trapCause.toNat 8 4
  if !s.blk.handler then badOperand 0 s
  else if agent == 0 then strandReturn false s
  else retryCommand (agentEngine agent) s

/-- `tret.skip` (R126). -/
def execTretSkip (s : State) : Out :=
  let agent := bits s.blk.trapCause.toNat 8 4
  if !s.blk.handler then badOperand 0 s
  else if agent == 0 then strandReturn true s
  else skipCommand (agentEngine agent) s

/-! ## Control registers and traps -/

/-- `getc` (R115): the value with an empty taint set. -/
def execGetc (sd : SReg) (cr : CReg) (s : State) : Out :=
  withRegs [] [] [sd] [] s (doneB s (putS s.blk sd (readCReg s cr) 0) 4)

/-- `setc` (R116): a tainted source folds into TAINT_FLOOR. -/
def execSetc (cr : CReg) (sa : SReg) (s : State) : Out :=
  let b := s.blk
  withRegs [sa] [] [] [] s
    (let v := rdS b sa
     if setcRefused cr v then strandTrap cOPERAND v s
     else doneB s (writeCReg (b.foldSet (taintS b sa ||| b.wrapT)) cr v) 4)

/-- `trap` (R125). -/
def execTrap (code : BitVec 8) (s : State) : Out := strandTrap cSOFTWARE (code.setWidth 64) s

/-- ILLEGAL_INSTRUCTION (R61, R73): word 0 in the low half, word 1 or 0 in the high half. -/
def execIllegalInstruction (w0 w1 : BitVec 32) (s : State) : Out := strandTrap cILLEGAL (w1 ++ w0) s

/-! ## Dead marks (R95, R117) -/

/-- The register numbers that a mask bit names. -/
def maskBits (mask : BitVec 32) : List Nat := (List.range 32).filter (fun i => mask.getLsbD i)

/-- Make scalars dead: contents lost, taint set empty. -/
def killS (b : Block) (rs : List Nat) : Block :=
  { b with s := rs.foldl (fun v i => v.setIfInBounds i ⟨0, 0, true⟩) b.s }

/-- Make predicates dead. -/
def killP (b : Block) (rs : List Nat) : Block :=
  { b with p := rs.foldl (fun v i => v.setIfInBounds i ⟨0, 0, true⟩) b.p }

/-- Make the registers of a class and mask dead (R64, R95). -/
def killRegs (b : Block) (cls : KillClass) (mask : BitVec 32) : Block :=
  let m := maskBits mask
  match cls with
  | .sLow => killS b m
  | .sHigh => killS b (m.map (· + 32))
  | .pLow => killP b m
  | .pHigh => killP b (m.map (· + 32))
  | .h => { b with h := m.foldl (fun v i => v.setIfInBounds i ⟨0, 0, 0, false, true⟩) b.h }
  | .d => { b with d := m.foldl (fun v i => v.setIfInBounds i ⟨0, true⟩) b.d }
  | .q => { b with q := m.foldl (fun v i => v.setIfInBounds i ⟨0, true⟩) b.q }

/-- The scalars that `kill` waits for (R117). -/
def killedS (cls : KillClass) (mask : BitVec 32) : List SReg :=
  match cls with
  | .sLow => (maskBits mask).map (BitVec.ofNat 6)
  | .sHigh => (maskBits mask).map (fun i => BitVec.ofNat 6 (i + 32))
  | _ => []

/-- The predicates that `kill` waits for (R117). -/
def killedP (cls : KillClass) (mask : BitVec 32) : List PReg :=
  match cls with
  | .pLow => (maskBits mask).map (BitVec.ofNat 6)
  | .pHigh => (maskBits mask).map (fun i => BitVec.ofNat 6 (i + 32))
  | _ => []

/-- `kill` (R117). -/
def execKill (cls : KillClass) (mask : BitVec 32) (s : State) : Out :=
  withRegs [] [] (killedS cls mask) (killedP cls mask) s (doneB s (killRegs s.blk cls mask) 8)

end Sys2Proof.Machine
end

