-- ==== Sys2Proof/Machine/LoadStore.lean ====
section
/-! DEFINITION. Strand words at the on-chip levels (R189-R191), full/empty accesses and their release (R32, R178, R179), register
images (R198). -/

namespace Sys2Proof.Machine

/-! ## Checks and taint (R190, R191) -/

/-- The checks 2-4 of R190 on an access of w bytes: the cause and detail of the first failure. -/
def accessFault (s : State) (lv : Level) (a w : Nat) : Option (Nat × Nat) :=
  if a % w != 0 then some (cOPERAND, a)
  else if levelBound s lv ≤ a + w - 1 then some (cRANGE, rangeInfo lv a)
  else if lv == .sp then (strandOwnFault s.blk a w).map (fun q => (cOWNER, q))
  else none

/-- An access that passes its checks, or the trap of the first that fails. -/
def checked (f : Option (Nat × Nat)) (s : State) (k : Out) : Out :=
  match f with
  | some (cause, info) => strandTrap cause (BitVec.ofNat 64 info) s
  | none => k

/-- The fold of a spill: the tags of a set, of the W predicate and of CTL_TAINT (R191, R227). -/
def Block.spill (b : Block) (t : Taint) : Block := b.foldSet (t ||| b.wrapT ||| b.ctl)

/-- Whether a fence has put an atomic that is still outstanding before the block's later covered accesses (R228, R229). -/
def Block.fenceHeld (b : Block) : Bool := b.loads.any (fun l => b.fenced.contains l.id)

/-- A covered access of the strand, at `cl:` or `ds:`, comes behind the atomics that a fence has put before it (R228, R229; log
80). -/
def covered (lv : Level) (s : State) (k : Out) : Out := if lv != .sp && s.blk.fenceHeld then waitS s .writes else k

/-- The number of strand stores in flight (R191). -/
def Block.storesInFlight (b : Block) : Nat := (b.posted.filter Posted.isStore).length

/-- The value of w loaded bytes, sign- or zero-extended (R189). -/
def loadedValue (signed : Bool) (w : Nat) (bs : List Byte) : DWord :=
  if signed then BitVec.ofInt 64 (intVal true (8 * w) (leNat bs)) else leDWord bs

/-- A plain load of w bytes (R189-R191); the strand's earlier stores that its banks have to take first are performed (R228). -/
def loadOp (w : Nat) (signed : Bool) (sd : SReg) (lv : Level) (sa : SReg) (off : BitVec 10) (s : State) : Out :=
  let b := s.blk
  let a := memAddr b sa off
  withRegs [sa] [] [sd] [] s
    (checked (accessFault s lv a w) s (covered lv s
      (let at_ := levelAddr s b lv a
       let u := performStoresTo s lv at_ w
       doneB u (putS u.blk sd (loadedValue signed w (Memory.chip u.mem at_ w)) (taintS b sa)) 4)))

/-- A plain store of w bytes: posted, with the spill fold; a 33rd store in flight waits (R189-R191). -/
def storeOp (w : Nat) (sd : SReg) (lv : Level) (sa : SReg) (off : BitVec 10) (s : State) : Out :=
  let b := s.blk
  let a := memAddr b sa off
  withRegs [sa, sd] [] [] [] s
    (checked (accessFault s lv a w) s (covered lv s
      (if 32 ≤ b.storesInFlight then waitS s .store
       else
         let b := b.spill (taintS b sa ||| taintS b sd)
         doneB s { b with posted := b.posted ++ [.store lv (levelAddr s b lv a) (leBytes w (rdS b sd).toNat)] } 4)))

/-- `ld.i8` (R189). -/
def execLdI8 (sd : SReg) (lv : Level) (sa : SReg) (off : BitVec 10) (s : State) : Out := loadOp 1 true sd lv sa off s
/-- `ld.i16` (R189). -/
def execLdI16 (sd : SReg) (lv : Level) (sa : SReg) (off : BitVec 10) (s : State) : Out := loadOp 2 true sd lv sa off s
/-- `ld.i32` (R189). -/
def execLdI32 (sd : SReg) (lv : Level) (sa : SReg) (off : BitVec 10) (s : State) : Out := loadOp 4 true sd lv sa off s
/-- `ld.i64` (R189). -/
def execLdI64 (sd : SReg) (lv : Level) (sa : SReg) (off : BitVec 10) (s : State) : Out := loadOp 8 true sd lv sa off s
/-- `ld.n8` (R189). -/
def execLdN8 (sd : SReg) (lv : Level) (sa : SReg) (off : BitVec 10) (s : State) : Out := loadOp 1 false sd lv sa off s
/-- `ld.n16` (R189). -/
def execLdN16 (sd : SReg) (lv : Level) (sa : SReg) (off : BitVec 10) (s : State) : Out := loadOp 2 false sd lv sa off s
/-- `ld.n32` (R189). -/
def execLdN32 (sd : SReg) (lv : Level) (sa : SReg) (off : BitVec 10) (s : State) : Out := loadOp 4 false sd lv sa off s
/-- `st.i8` (R189). -/
def execStI8 (sd : SReg) (lv : Level) (sa : SReg) (off : BitVec 10) (s : State) : Out := storeOp 1 sd lv sa off s
/-- `st.i16` (R189). -/
def execStI16 (sd : SReg) (lv : Level) (sa : SReg) (off : BitVec 10) (s : State) : Out := storeOp 2 sd lv sa off s
/-- `st.i32` (R189). -/
def execStI32 (sd : SReg) (lv : Level) (sa : SReg) (off : BitVec 10) (s : State) : Out := storeOp 4 sd lv sa off s
/-- `st.i64` (R189). -/
def execStI64 (sd : SReg) (lv : Level) (sa : SReg) (off : BitVec 10) (s : State) : Out := storeOp 8 sd lv sa off s

/-! ## Full/empty accesses (R32, R178, R179) -/

/-- Whether a waiter's access can be made with the bit as it stands. -/
def FeOp.ready (op : FeOp) (full : Bool) : Bool :=
  match op with
  | .ff => full
  | .fe => full
  | .ef => !full

/-- Whether a waiting request may be served: its block is waiting on the word and no stall wire holds it (R179, R314). -/
def feReady (s : State) (w : FeWaiter) : Bool :=
  w.op.ready (isFull s w.addr)
    && (match findBlock s w.id with
        | some b => b.phase == .running && b.wait == some (.fullEmpty w.addr) && !stallWire s b
        | none => false)

/-- The oldest waiting request on a word that may be served (R178, R179). -/
def feOldest (s : State) (addr : Nat) : Option FeWaiter :=
  s.feWait.find? (fun w => w.addr / 8 == addr / 8 && feReady s w)

/-- The effect of a full/empty access on the word, and the value a load returns (R32). -/
def feAccess (s : State) (w : FeWaiter) : DWord × State :=
  let v := leDWord (Memory.chip s.mem w.addr 8)
  match w.op with
  | .ff => (v, s)
  | .fe => (v, setFull s w.addr false)
  | .ef => (v, setFull { s with mem := Memory.writeAll s.mem w.addr (leBytes 8 w.data.toNat) } w.addr true)

/-- The block behind its completed full/empty instruction: a load writes its scalar, a store makes the spill fold. -/
def Block.feDone (b : Block) (w : FeWaiter) (v : DWord) : Block :=
  let b := match w.op with
    | .ef => b.foldSet (w.taint ||| b.ctl)
    | _ => wrS b w.sd v w.taint
  { b with pc := b.pc + BitVec.ofNat 32 w.len, wait := none }

/-- Serve a full/empty request. -/
def feServe (s : State) (w : FeWaiter) : State :=
  let (v, s) := feAccess s w
  updBlock s w.id (fun b => b.feDone w v)

/-- The waiting requests of a word, oldest first, as long as its bit lets one through: a change of the bit releases a waiter before any
later access is served (R32, R179). -/
def serveWaiters (addr : Nat) : Nat → State → State
  | 0, s => s
  | n + 1, s =>
    match feOldest s addr with
    | some w => serveWaiters addr n (feServe { s with feWait := s.feWait.erase w } w)
    | none => s

/-- A full/empty instruction (R32, R190): its checks; then the access, when the bit allows it and no older request on the word is
served first, and otherwise its place among the waiters. -/
def feOp (op : FeOp) (sd : SReg) (lv : Level) (sa : SReg) (off : BitVec 10) (s : State) : Out :=
  let b := s.blk
  let a := memAddr b sa off
  let (rs, ds) := match op with
    | .ef => ([sa, sd], [])
    | _ => ([sa], [sd])
  withRegs rs [] ds [] s
    (checked (accessFault s lv a 8) s (covered lv s
      (let addr := levelAddr s b lv a
       let t := match op with
         | .ef => taintS b sa ||| taintS b sd ||| b.wrapT
         | _ => taintS b sa ||| b.wrapT
       let w : FeWaiter := ⟨b.id, addr, op, sd, t, rdS b sd, (b.len 4).toNat⟩
       let s := performStoresTo s lv addr 8
       if op.ready (isFull s addr) && (feOldest s addr).isNone then .next (serveWaiters addr s.feWait.length (feServe s w))
       else waitS { s with feWait := s.feWait ++ [w] } (.fullEmpty addr))))

/-- `ld.ff` (R32). -/
def execLdFf (sd : SReg) (lv : Level) (sa : SReg) (off : BitVec 10) (s : State) : Out := feOp .ff sd lv sa off s
/-- `ld.fe` (R32). -/
def execLdFe (sd : SReg) (lv : Level) (sa : SReg) (off : BitVec 10) (s : State) : Out := feOp .fe sd lv sa off s
/-- `st.ef` (R32). -/
def execStEf (sd : SReg) (lv : Level) (sa : SReg) (off : BitVec 10) (s : State) : Out := feOp .ef sd lv sa off s

/-- FULL_EMPTY_RELEASE: the oldest waiter of a word that its state allows completes its access, and behind it those that the change of the
bit lets through (R32, R179). -/
def execFullEmptyRelease (addr : Nat) (s : State) : Out := .next (serveWaiters addr s.feWait.length s)

/-! ## Register images (R198) -/

/-- The checks of an image access of w bytes (R198). -/
def imageFault (s : State) (a w : Nat) : Option (Nat × Nat) := accessFault s .sp a w

/-- Load an image of w bytes into a register by `set` (R198): a tainted address folds. -/
def imageLoad (w : Nat) (sa : SReg) (imm : BitVec 18) (set : Block → Nat → Block) (s : State) : Out :=
  let b := s.blk
  let a := immAddr b sa imm
  withRegs [sa] [] [] [] s
    (checked (imageFault s a w) s
      (let u := performStoresTo s .sp (b.spA a) w
       doneB u (set (u.blk.foldSet (taintS b sa)) (leNat (Memory.chip u.mem (b.spA a) w))) 8))

/-- Store an image of w bytes (R198), with the dead read of its register and the spill fold. -/
def imageStore (w : Nat) (sa : SReg) (imm : BitVec 18) (image cls num : Nat) (dead : Bool) (s : State) : Out :=
  let b := s.blk
  let a := immAddr b sa imm
  withRegs [sa] [] [] [] s
    (if b.deadMode && dead then strandTrap cDEAD (BitVec.ofNat 64 (deadInfo cls num)) s
     else
       checked (imageFault s a w) s
         (if 32 ≤ b.storesInFlight then waitS s .store
          else
            let b := b.spill (taintS b sa)
            doneB s { b with posted := b.posted ++ [.store .sp (b.spA a) (leBytes w image)] } 8))

/-- `dld` (R198). -/
def execDld (d : BitVec 4) (sa : SReg) (imm : BitVec 18) (s : State) : Out :=
  imageLoad 16 sa imm (fun b v => { b with d := b.d.setIfInBounds d.toNat ⟨BitVec.ofNat 128 v, false⟩ }) s

/-- `dst` (R198). -/
def execDst (d : BitVec 4) (sa : SReg) (imm : BitVec 18) (s : State) : Out :=
  imageStore 16 sa imm (s.blk.dCell d).v.toNat 3 d.toNat (s.blk.dCell d).dead s

/-- `qld` (R198). -/
def execQld (q : BitVec 3) (sa : SReg) (imm : BitVec 18) (s : State) : Out :=
  imageLoad 32 sa imm (fun b v => { b with q := b.q.setIfInBounds q.toNat ⟨BitVec.ofNat 256 v, false⟩ }) s

/-- `qst` (R198). -/
def execQst (q : BitVec 3) (sa : SReg) (imm : BitVec 18) (s : State) : Out :=
  imageStore 32 sa imm (s.blk.qCell q).v.toNat 4 q.toNat (s.blk.qCell q).dead s

end Sys2Proof.Machine
end

