-- ==== Sys2Proof/Machine/Ordering.lean ====
section
/-! DEFINITION. Fences (R228-R232) and the removal and folding of taint (R236, R237). -/

namespace Sys2Proof.Machine

/-- Whether the block has an atomic that has not completed at its home atomic unit. -/
def Block.atomicsOut (b : Block) : Bool := b.loads.any (fun l => l.op.isAtomic)

/-- The outstanding atomics of a block. -/
def Block.atomicIds (b : Block) : List Nat := (b.loads.filter (fun l => l.op.isAtomic)).map (·.id)

/-- `fence` (R229-R231): the block's earlier stores are performed, and its outstanding atomics come before its later covered accesses; at
`pkg` and `pod` it waits for them itself. -/
def execFence (sc : Scope) (s : State) : Out :=
  let s := performStores s
  if (sc == .pkg || sc == .pod) && s.blk.atomicsOut then waitS s .writes
  else doneB s { s.blk with fenced := s.blk.atomicIds } 4

/-- `xfence` (R232). -/
def execXfence (s : State) : Out := doneS (performStores s) 4

/-- `untaint` (R236). -/
def execUntaint (sa : SReg) (s : State) : Out :=
  let b := s.blk
  withRegs [sa] [] [] [] s
    (let v := rdS b sa
     if v.toNat / 2 ^ 16 != 0 then strandTrap cOPERAND v s
     else doneB s (b.maskTaint (~~~(v.setWidth 16)) true) 4)

/-- `tfold` (R237). -/
def execTfold (s : State) : Out := doneB s s.blk.foldAll 4

end Sys2Proof.Machine
end

