-- ==== Sys2Proof/Machine/Commands.lean ====
section
/-! DEFINITION. Dispatching engine commands (R25-R29, R49, R66, R67, R74, R128, R153, R201, R225, R240): what a command names, the
checks in their order, what it captures, and its place in the queue. -/

namespace Sys2Proof.Machine

/-! ## What an instruction names -/

/-- The forms of template VA: two sources, one source, or a compare (R68, R72, R139). -/
inductive VaShape where
  | bin | un | cmp
  deriving DecidableEq, Repr

/-- The operands and form of a vector arithmetic command. -/
def vaOf? : Instr → Option (VaOp × VaShape)
  | .vadd _ o | .vsub _ o | .vmul _ o | .vfma _ o | .vmax _ o | .vmin _ o | .vmaxN _ o | .vminN _ o | .vand _ o | .vor _ o
  | .vxor _ o | .vshl _ o | .vshr _ o | .vsar _ o | .vsel _ o | .vaddSat _ o | .vaddSatN _ o | .vsubSat _ o
  | .vsubSatN _ o => some (o, .bin)
  | .vabs _ o | .vneg _ o | .vexp2 _ o | .vrcp _ o | .vrsqrt _ o | .vredAdd _ o | .vredAddN _ o | .vredMax _ o
  | .vredMin _ o | .vredMaxN _ o | .vredMinN _ o | .vmov _ o => some (o, .un)
  | .vcmpEq _ o | .vcmpNe _ o | .vcmpLt _ o | .vcmpGe _ o | .vcmpLtN _ o | .vcmpGeN _ o => some (o, .cmp)
  | _ => none

/-- The vector registers that a V command names, sources first (R128). -/
def vNames (i : Instr) : List WReg :=
  match vaOf? i with
  | some (o, .bin) => [o.wa, o.wb, o.wd]
  | some (o, .un) => [o.wa, o.wd]
  | some (o, .cmp) => [o.wa, o.wb]
  | none =>
    match i with
    | .vld _ _ _ wd => [wd]
    | .vst _ _ _ _ ws => [ws]
    | .vcvt _ _ _ _ _ wa wd => [wa, wd]
    | .vbcast _ _ _ wd => [wd]
    | .vxset _ _ wa _ => [wa]
    | .vperm _ _ _ _ wa wd => [wa, wd]
    | .vtopk _ _ _ _ wa wd => [wa, wd]
    | .vext _ _ _ _ wa _ => [wa]
    | .vins _ _ _ _ wd => [wd]
    | _ => []

/-- The vector registers that a V command reads whole (R131). -/
def vSources (i : Instr) : List WReg :=
  match vaOf? i with
  | some (o, .bin) => (match i with | .vfma _ _ => [o.wa, o.wb, o.wd] | _ => [o.wa, o.wb])
  | some (o, .un) => [o.wa]
  | some (o, .cmp) => [o.wa, o.wb]
  | none =>
    match i with
    | .vst _ _ _ _ ws => [ws]
    | .vcvt _ _ _ _ _ wa _ => [wa]
    | .vxset _ _ wa _ => [wa]
    | .vperm _ _ _ _ wa _ => [wa]
    | .vtopk _ _ _ _ wa _ => [wa]
    | .vext _ _ _ _ wa _ => [wa]
    | .vins _ _ _ _ wd => [wd]
    | _ => []

/-- The width of an element type in bits (R127). -/
def elemWidth : ElemT → Nat
  | .f32 => 32 | .f16 => 16 | .bf16 => 16 | .i32 => 32 | .i16 => 16 | .i8 => 8

/-- The lanes of an element type (R127). -/
def elemLanes (t : ElemT) : Nat := 1024 / elemWidth t

/-- The number of elements that `vcvt` converts (R145). -/
def vcvtCount (sf df : BitVec 5) : Nat := 1024 / max (codeWidth sf.toNat) (codeWidth df.toNat)

/-- The number of mask bits that a V command uses (R127, R145). -/
def vLanes (i : Instr) : Nat :=
  match vaOf? i with
  | some (o, _) => elemLanes o.t
  | none =>
    match i with
    | .vcvt _ _ _ sf df _ _ => vcvtCount sf df
    | .vbcast _ t _ _ => elemLanes t
    | .vperm _ _ t _ _ _ => elemLanes t
    | .vtopk _ _ t _ _ _ => elemLanes t
    | .vext _ _ t _ _ _ => elemLanes t
    | .vins _ t _ _ _ => elemLanes t
    | _ => 128

/-- The scalars that a V command reads (R128). -/
def vScalars : Instr → List SReg
  | .vld _ _ sa _ => [sa]
  | .vst _ _ _ sa _ => [sa]
  | .vbcast _ _ sa _ => [sa]
  | .vins _ _ _ sa _ => [sa]
  | _ => []

/-- The scalar that a V command will write (R143). -/
def vDestS : Instr → List SReg
  | .vext _ _ _ _ _ sd => [sd]
  | _ => []

/-- The predicate that a V command will write (R139). -/
def vDestP (i : Instr) : List PReg :=
  match vaOf? i with
  | some (o, .cmp) => [o.wd.setWidth 6]
  | _ => []

/-- The field value that breaks an operand limit of a V command (R143-R145, R148). -/
def vLimit : Instr → Option Nat
  | .vcvt _ _ part sf df _ _ =>
    let ws := codeWidth sf.toNat
    let wt := codeWidth df.toNat
    if part.toNat < max ws wt / min ws wt then none else some part.toNat
  | .vtopk _ _ t k _ _ => if 1 ≤ k.toNat && k.toNat ≤ elemLanes t then none else some k.toNat
  | .vext _ _ t lane _ _ => if lane.toNat < elemLanes t then none else some lane.toNat
  | .vins _ t lane _ _ => if lane.toNat < elemLanes t then none else some lane.toNat
  | _ => none

/-- Whether a format code is a plain floating-point one. -/
def fltCode (c : BitVec 5) : Bool := match fmtOf c.toNat with | some (.flt _) => true | _ => false

/-- The operands of a matrix product. -/
def matOf? : Instr → Option MatOp
  | .mmul _ o => some o
  | .mmulG _ o _ _ => some o
  | .mmulS _ o _ => some o
  | _ => none

/-- The bank that an M command names as its tile (R157). -/
def tileOf? : Instr → Option (BitVec 4)
  | .mzero _ td => some td
  | .mxpack _ _ _ _ td => some td
  | i => (matOf? i).map (·.td)

/-- The vector register that holds the row indices of `mmul.g` (R159). -/
def indexOf? : Instr → Option WReg
  | .mmulG _ _ _ wi => some wi
  | _ => none

/-- The banks that a command names (R164). -/
def banksOf (i : Instr) : List Nat :=
  (vNames i).map bankOf ++ (tileOf? i).toList.map (·.toNat) ++ (indexOf? i).toList.map bankOf

/-- The engine of a command (R24). -/
def engineOfCmd : Instr → Engine
  | .fetch .. | .fetchIx .. | .fetchStep .. | .relay .. => .F
  | .put .. | .putAdd .. | .xcopy .. | .poolFill .. | .poolCopy .. | .poolCmp .. | .poolRed .. | .sreuse .. => .P
  | .mmul .. | .mmulG .. | .mmulS .. | .mzero .. | .mxpack .. => .M
  | _ => .V

/-- The header of a command. -/
def hdrOfCmd (i : Instr) : Hdr := (i.hdr?).getD ⟨false, false, 0, none, none⟩

/-- The step binding that a command names (R168). -/
def bindingOf : Instr → Option (BitVec 3)
  | .fetchStep _ _ g _ _ _ _ => some g
  | .sreuse _ g _ _ => some g
  | _ => none

/-! ## Template T operands (R200) -/

/-- The register operands of an F or P command: the scalars read alone (level offsets, target word, fill value, token block,
landing value, source offset), the starts of index runs, the shape, the descriptors DS and XB or list, and the handles. -/
structure TRegs where
  sx : Option SReg
  so : Option SReg
  run : Option SReg
  run2 : Option SReg
  q : Option (BitVec 3)
  dA : Option (BitVec 4)
  dB : Option (BitVec 4)
  ha : Option (BitVec 4)
  hb : Option (BitVec 4)
  deriving DecidableEq, Repr

/-- The register operands by command (R170, R200). -/
def tRegs : Instr → TRegs
  | .fetch _ o => ⟨some o.sx, none, some o.si, none, some o.q, some o.ds, none, some o.ha, none⟩
  | .put _ o => ⟨some o.sx, none, some o.si, none, some o.q, some o.ds, none, some o.ha, none⟩
  | .putAdd _ o => ⟨some o.sx, none, some o.si, none, some o.q, some o.ds, none, some o.ha, none⟩
  | .fetchIx _ dl si q ds ha => ⟨none, none, some si, none, some q, some ds, some dl, some ha, none⟩
  | .fetchStep _ sj _ si q ds ha => ⟨some sj, none, some si, none, some q, some ds, none, some ha, none⟩
  | .relay _ _ sx dd _ si ds => ⟨some sx, some si, none, none, none, some ds, some dd, none, none⟩
  | .xcopy _ sx dd si ds => ⟨some sx, some si, none, none, none, some ds, some dd, none, none⟩
  | .poolFill _ sx si q ha => ⟨some sx, none, some si, none, some q, none, none, some ha, none⟩
  | .poolCopy _ sx hsrc si q ha => ⟨none, none, some si, some sx, some q, none, none, some ha, some hsrc⟩
  | .poolCmp _ sx h2 si q ds ha => ⟨none, none, some si, some sx, some q, some ds, none, some ha, some h2⟩
  | .poolRed _ _ sx hsrc si q ha => ⟨none, none, some si, some sx, some q, none, none, some ha, some hsrc⟩
  | .sreuse _ _ si ds => ⟨none, some si, none, none, none, some ds, none, none, none⟩
  | _ => ⟨none, none, none, none, none, none, none, none, none⟩

/-- The levels of an F or P command's level operands: destination or tile level, and the source level of `relay`. -/
def tLevels : Instr → Level × Level
  | .fetch _ o | .put _ o | .putAdd _ o => (o.lv, .sp)
  | .relay _ lvs _ _ lvd _ _ => (lvd, lvs)
  | _ => (.sp, .sp)

/-- The scalars of an index run of n from a first register, those past s63 left out. -/
def runRegs (r : SReg) (n : Nat) : List SReg :=
  ((List.range n).filter (fun k => r.toNat + k < 64)).map (fun k => BitVec.ofNat 6 (r.toNat + k))

/-! ## Checks at dispatch -/

/-- TOKEN_PAIRING: the detail of the first named token that the engine may not pop or push (R29). -/
def pairFault (b : Block) (e : Engine) (h : Hdr) : Option Nat :=
  let w := match h.wait with
    | some k => if mayPop b k e.agent then none else some (pairInfo k e.agent false)
    | none => none
  match w, h.sig with
  | some d, _ => some d
  | none, some k => if mayPush b k e.agent then none else some (pairInfo k e.agent true)
  | none, none => none

/-- Whether the block owns a bank: in pre-emptible mode t0-t7 (R90). -/
def ownsBank (b : Block) (t : Nat) : Bool := !b.preempt || t < 8

/-- Whether a bank is on the vector side (R90). -/
def vectorSide (b : Block) (t : Nat) : Bool := b.bankSide.getLsbD t

/-- Check 2 of R128: the cause and detail of the first vector register whose bank is not owned, or not on the vector side. That the ownership
of all is tested before the side of any is the model's choice (log 30). -/
def rowFault (b : Block) (ws : List WReg) : Option (Nat × Nat) :=
  match ws.find? (fun w => !ownsBank b (bankOf w)) with
  | some w => some (cOPERAND, w.toNat)
  | none =>
    match ws.find? (fun w => !vectorSide b (bankOf w)) with
    | some w => some (cBANK, bankOf w)
    | none => none

/-- Checks 2 to 4 of R153. -/
def tileFault (b : Block) (i : Instr) : Option (Nat × Nat) :=
  let t := ((tileOf? i).getD 0).toNat
  let ix := (indexOf? i).map bankOf
  let af := match i with
    | .mxpack _ af i32 _ _ => if af && i32 then some 1 else none
    | i =>
      match matOf? i with
      | some o => if o.af && 15 < o.kq.toNat then some o.kq.toNat else none
      | none => none
  if !ownsBank b t then some (cOPERAND, t)
  else if vectorSide b t then some (cBANK, t)
  else
    match ix with
    | some x =>
      if !ownsBank b x then some (cOPERAND, x)
      else if !vectorSide b x then some (cBANK, x)
      else af.map (fun d => (cOPERAND, d))
    | none => af.map (fun d => (cOPERAND, d))

/-- The first dead descriptor, handle or shape register, as DEAD_READ's detail (R96). -/
def deadOthers (b : Block) (ds hs : List (BitVec 4)) (qs : List (BitVec 3)) : Option Nat :=
  match hs.find? (fun h => (b.hCell h).dead), ds.find? (fun d => (b.dCell d).dead), qs.find? (fun q => (b.qCell q).dead) with
  | some h, _, _ => some (deadInfo 2 h.toNat)
  | none, some d, _ => some (deadInfo 3 d.toNat)
  | none, none, some q => some (deadInfo 4 q.toNat)
  | none, none, none => none

/-- Go on unless a named cause holds. -/
def unlessFault (f : Option (Nat × Nat)) (s : State) (k : Out) : Out := checked f s k

/-- DEAD_READ of descriptors, handles and shapes under MODE = 1 (R96). -/
def liveOthers (ds hs : List (BitVec 4)) (qs : List (BitVec 3)) (s : State) (k : Out) : Out :=
  match s.blk.deadMode, deadOthers s.blk ds hs qs with
  | true, some d => strandTrap cDEAD (BitVec.ofNat 64 d) s
  | _, _ => k

/-! ## The queue entry -/

/-- The predicate of a command as it stands at dispatch, inverted where PN is 1 (R27, R66). -/
def predOf (b : Block) (h : Hdr) : BitVec 128 := if h.pn then ~~~(rdP b h.p) else rdP b h.p

/-- The n low bits of a mask. -/
def lowBits (m : BitVec 128) (n : Nat) : BitVec 128 := m &&& BitVec.ofNat 128 (2 ^ n - 1)

/-- A queue entry that has captured nothing but its place and modes (R25, R49, R96, R128, R240). -/
def newCmd (b : Block) (i : Instr) : Cmd :=
  let e := engineOfCmd i
  { instr := i, eng := e, n := b.dispN, qno := (b.eng e).next, addr := b.pc, off := false, depth := b.slip, rm := b.rm,
    deadMode := b.deadMode, mask := 0, sx := 0, si := [], sy := [], dA := 0, dB := 0, dX := 0, shape := 0, ha := 0, hb := 0,
    g := GCell.zero, taint := 0, wtaint := 0, draw := b.lfsr, req := 0, waits := [], popped := false, noPush := false, skipEnd := false,
    fault := none, moved := 0, buf := [], flags := 0, dest := [], park := none, remote := none, reply := none, oldDesc := false,
    checked := 0, pend := false }

/-- A `fetch.step` that is not predicated off raises PENDING: its result takes its place, undone, in the comparator queue
(R166, R207). -/
def raisePending (b : Block) (c : Cmd) : Block :=
  match c.instr with
  | .fetchStep _ _ g _ _ _ _ =>
    if c.off then b
    else
      let x := b.gCell g
      b.setG g { x with queue := x.queue ++ [⟨c.n, false, 0, false, 0, []⟩] }
  | _ => b

/-- The block with a command queued: its numbers given, its draws taken, and true in the predicate of a non-blocking form
(R28, R49, R67, R240). -/
def queueCmd (b : Block) (nb : Option PReg) (c : Cmd) (draws : Nat) : Block :=
  let q := b.eng c.eng
  let b := b.setEng c.eng { q with q := q.q ++ [c], next := q.next + 1 }
  let b := raisePending { b with dispN := b.dispN + 1, lfsr := lfsrDraws draws b.lfsr } c
  match nb with
  | some p => wrP b p (BitVec.allOnes 128) 0
  | none => b

/-- Step 5 of R74: a full queue stalls the strand, or makes the non-blocking form write false; otherwise the command is
queued. -/
def enqueue (nb : Option PReg) (c : Cmd) (draws : Nat) (s : State) : Out :=
  let b := s.blk
  if 16 ≤ (b.eng c.eng).q.length then
    match nb with
    | some p => doneB s (wrP b p 0 0) 8
    | none => waitS s .full
  else doneB s (queueCmd b nb c draws) 8

/-- What every dispatch checks first: the freeze (R122) and token pairing (R29). -/
def dispatchStart (i : Instr) (s : State) (k : Out) : Out :=
  let b := s.blk
  if b.frozen then badOperand 0 s
  else
    match pairFault b (engineOfCmd i) (hdrOfCmd i) with
    | some d => strandTrap cPAIRING (BitVec.ofNat 64 d) s
    | none => k

/-! ## V commands (R128) -/

/-- The draws of a V command: `vcvt` under SR with a floating-point format (R145). -/
def vDraws (b : Block) (i : Instr) (off : Bool) : Nat :=
  match i with
  | .vcvt _ _ _ sf df _ _ => if !off && RMode.of b.rm == .sr && (fltCode sf || fltCode df) then vcvtCount sf df else 0
  | _ => 0

/-- The queue entry of a V command: its mask over its lanes, its scalar and the taint sets it brings (R129, R130, R149). -/
def vCmd (b : Block) (i : Instr) : Cmd :=
  let h := hdrOfCmd i
  let m := lowBits (predOf b h) (vLanes i)
  let sel := i.isVsel
  let sa := (vScalars i).head?.getD 0
  let ctl := match i with | .vst .. => b.ctl | _ => 0
  { newCmd b i with
    off := !sel && m == 0, mask := m, sx := rdS b sa, wtaint := taintS b sa ||| taintP b h.p ||| ctl }

/-- Dispatch a V command (R128). -/
def dispatchV (nb : Option PReg) (i : Instr) (s : State) : Out :=
  dispatchStart i s
    (unlessFault (rowFault s.blk (vNames i)) s
      (unlessFault ((vLimit i).map (fun d => (cOPERAND, d))) s
        (withRegs (vScalars i) [(hdrOfCmd i).p] (vDestS i) (vDestP i ++ nb.toList) s
          (let c := vCmd s.blk i
           enqueue nb c (vDraws s.blk i c.off) s))))

/-! ## M commands (R153) -/

/-- The descriptors that an M command names (R157). -/
def mDescs : Instr → List (BitVec 4)
  | .mmulS _ o dsx => [o.dsa, o.dsb, dsx]
  | .mxpack _ _ _ dd _ => [dd]
  | i => match matOf? i with | some o => [o.dsa, o.dsb] | none => []

/-- The draws of an M command: `mxpack` under SR (R163). -/
def mDraws (b : Block) (i : Instr) (off : Bool) : Nat :=
  match i with
  | .mxpack _ af _ _ _ => if !off && RMode.of b.rm == .sr then 32 * (if af then 64 else 32) else 0
  | _ => 0

/-- The queue entry of an M command. -/
def mCmd (b : Block) (i : Instr) : Cmd :=
  let h := hdrOfCmd i
  let ds := (mDescs i).map (fun d => (b.dCell d).v)
  let ctl := match i with | .mxpack .. => b.ctl | _ => 0
  { newCmd b i with
    off := !(predOf b h).getLsbD 0, dA := ds.getD 0 0, dB := ds.getD 1 0, dX := ds.getD 2 0, wtaint := taintP b h.p ||| ctl }

/-- Dispatch an M command (R153). -/
def dispatchM (nb : Option PReg) (i : Instr) (s : State) : Out :=
  dispatchStart i s
    (unlessFault (tileFault s.blk i) s
      (withRegs [] [(hdrOfCmd i).p] [] nb.toList s
        (liveOthers (mDescs i) [] [] s
          (let c := mCmd s.blk i
           enqueue nb c (mDraws s.blk i c.off) s))))

/-! ## F and P commands (R201) -/

/-- The captured shape of a command, or zero. -/
def tShape (b : Block) (r : TRegs) : BitVec 256 := match r.q with | some q => (b.qCell q).v | none => 0

/-- Every scalar that an F or P command reads. -/
def tScalars (b : Block) (r : TRegs) : List SReg :=
  let n := indexRun (tShape b r)
  r.sx.toList ++ r.so.toList ++ (r.run.toList ++ r.run2.toList).flatMap (fun x => runRegs x n)

/-- Check 3 of R201: INVALID_HANDLE and RESOURCE_FULL. -/
def tHandleFault (b : Block) (i : Instr) (r : TRegs) : Option (Nat × DWord) :=
  let bad : Option (BitVec 4) → Option DWord := fun h =>
    match h with
    | some h => let v := (b.hCell h).v; if v == 0 || hLow v != 0 then some v else none
    | none => none
  match bad r.ha, bad r.hb with
  | some v, _ => some (cINVALIDH, v)
  | none, some v => some (cINVALIDH, v)
  | none, none =>
    match bindingOf i with
    | some g =>
      let x := b.gCell g
      if x.inH == 0 || x.outH == 0 then some (cINVALIDH, 0)
      else
        match i with
        | .fetchStep .. => if x.queue.length == 4 then some (cFULL, 0x0010) else none
        | _ => none
    | none => none

/-- Check 4 of R201: an index run past s63. -/
def tRunFault (b : Block) (r : TRegs) : Option Nat :=
  let n := indexRun (tShape b r)
  let past : Option SReg → Option Nat := fun x =>
    match x with
    | some x => if 64 < x.toNat + n then some x.toNat else none
    | none => none
  match past r.run, past r.run2 with
  | some v, _ => some v
  | none, o => o

/-- The token blocks of a binding, as `sbind` captured them (R165). -/
def stepBlocks (g : GCell) : Nat := dExt g.inDesc 2

/-- Whether a value breaks R210's limits on the target word of `xcopy`. -/
def badTarget (v : Nat) : Bool := bits v 8 24 != 0 || bits v 50 14 != 0 || bits v 32 18 % 8 != 0

/-- Check 5 of R201: level offsets, the target word and the token block. -/
def tValueFault (b : Block) (i : Instr) (r : TRegs) : Option Nat :=
  let vx := (rdS b (r.sx.getD 0)).toNat
  let vo := (rdS b (r.so.getD 0)).toNat
  let odd (v : Nat) : Option Nat := if v % 16 != 0 then some v else none
  match i with
  | .fetch .. | .put .. | .putAdd .. => odd vx
  | .relay .. => (odd vx).orElse (fun _ => odd vo)
  | .xcopy .. => if badTarget vx then some vx else none
  | .fetchStep _ _ g _ _ _ _ => if stepBlocks (b.gCell g) ≤ vx then some vx else none
  | .sreuse _ g _ _ => if stepBlocks (b.gCell g) ≤ vo then some vo else none
  | _ => none

/-- The entries of a list descriptor (R206). -/
def listCount (d : BitVec 128) : Nat := (tRowb d + 1) / 4

/-- Whether an F or P command takes draws (R201 step 6). -/
def tTakesDraws (b : Block) (c : Cmd) : Bool :=
  !c.off && RMode.of b.rm == .sr
    && (match c.instr with | .fetch .. | .fetchIx .. | .fetchStep .. | .put .. => true | _ => false)

/-- The draws of an F or P command: one for each tile position of its full geometry, under SR (R201 step 6); a shape that R86
refuses has no geometry, and the count is free; a list that breaks R206 counts floor((ROWB + 1) / 4) entries, the model's choice
(log 33). -/
def tDraws (s : State) (c : Cmd) : Nat :=
  if !tTakesDraws s.blk c then 0
  else if !qOkShape c.shape then Config.openDraws s.fresh
  else
    match c.instr with
    | .fetchIx .. => prod (qExts c.shape) * listCount c.dB
    | _ => prod (qExts c.shape)

/-- The fresh counter behind a free count of draws. -/
def tFresh (s : State) (c : Cmd) : State :=
  if tTakesDraws s.blk c && !qOkShape c.shape then { s with fresh := s.fresh + 1 } else s

/-- The queue entry of an F or P command: its operands, the taint set of its scalars, its predicate and CTL_TAINT, and the
required stamp and waits of its accesses (R201, R225). -/
def tCmd (b : Block) (i : Instr) : Cmd :=
  let h := hdrOfCmd i
  let r := tRegs i
  let q := tShape b r
  let n := indexRun q
  let t := (tScalars b r).foldl (fun t x => t ||| taintS b x) (taintP b h.p ||| b.ctl)
  let d : Option (BitVec 4) → BitVec 128 := fun x => match x with | some d => (b.dCell d).v | none => 0
  let hv : Option (BitVec 4) → DWord := fun x => match x with | some h => (b.hCell h).v | none => 0
  let ix : Option SReg → List DWord := fun x => match x with | some x => (runRegs x n).map (rdS b) | none => []
  { newCmd b i with
    off := !(predOf b h).getLsbD 0
    sx := rdS b (r.sx.getD 0)
    si := (match r.so with | some x => [rdS b x] | none => ix r.run)
    sy := ix r.run2
    dA := d r.dA, dB := d r.dB, shape := q, ha := hv r.ha, hb := hv r.hb
    g := (match bindingOf i with | some g => b.gCell g | none => GCell.zero)
    taint := t, wtaint := t, req := b.reqStamp t, waits := b.waitLoads t }

/-- Dispatch an F or P command (R201). -/
def dispatchT (nb : Option PReg) (i : Instr) (s : State) : Out :=
  let b := s.blk
  let r := tRegs i
  dispatchStart i s
    (withRegs (tScalars b r) [(hdrOfCmd i).p] [] nb.toList s
      (liveOthers (r.dA.toList ++ r.dB.toList) (r.ha.toList ++ r.hb.toList) r.q.toList s
        (match tHandleFault b i r with
         | some (cause, v) => strandTrap cause v s
         | none =>
           unlessFault ((tRunFault b r).map (fun d => (cOPERAND, d))) s
             (unlessFault ((tValueFault b i r).map (fun d => (cOPERAND, d))) s
               (let c := tCmd b i
                enqueue nb c (tDraws s c) (tFresh s c))))))

/-! ## Footprints in the block's own squares (R33, R199) -/

/-- The address of a `vld` or `vst` (R149). -/
def Cmd.vAddr (c : Cmd) : Nat :=
  match c.instr with
  | .vld _ off _ _ => c.sx.toNat + off.toNat
  | .vst _ _ off _ _ => c.sx.toNat + off.toNat
  | _ => 0

/-- The byte ranges that a command touches in its block's squares (R33); `me` is the block's cluster-local core, for an `xcopy`
to the sender's own core. -/
def Cmd.spRanges (c : Cmd) (me : Nat) : List (Nat × Nat) :=
  if c.off then []
  else
    match c.instr with
    | .vld .. | .vst .. => [(c.vAddr, 128)]
    | .mmul .. | .mmulG .. => tRanges c.dA ++ tRanges c.dB
    | .mmulS .. => tRanges c.dA ++ tRanges c.dB ++ tRanges c.dX
    | .mxpack .. | .poolCmp .. | .sreuse .. | .fetchStep .. => tRanges c.dA
    | .fetch .. | .put .. | .putAdd .. => tRangesAt c.dA (tLevels c.instr).1
    | .fetchIx .. => tRanges c.dA ++ tRanges c.dB
    | .relay .. => tRangesAt c.dA (tLevels c.instr).2 ++ tRangesAt c.dB (tLevels c.instr).1
    | .xcopy .. =>
      tRanges c.dA
        ++ (if bits c.sx.toNat 0 8 == me then tRanges c.dB ++ [(bits c.sx.toNat 32 18, 8)] else [])
    | _ => []

/-- Whether a command's footprint holds a byte of a square (R199). -/
def Cmd.touches (c : Cmd) (me sq : Nat) : Bool := (rangeSquares (c.spRanges me)).contains sq

/-- Whether a command names a bank (R164). -/
def Cmd.namesBank (c : Cmd) (t : Nat) : Bool := (banksOf c.instr).contains t

/-- Whether a command names a step binding (R168). -/
def Cmd.namesBinding (c : Cmd) (g : BitVec 3) : Bool := bindingOf c.instr == some g

/-- A block's cluster-local core index (R14, R210). -/
def Block.localCore (b : Block) : Nat := b.core.toNat % 256

end Sys2Proof.Machine
end

