-- ==== Sys2Proof/Machine/Squares.lean ====
section
/-! DEFINITION. Square ownership and guard flips (R33, R177, R199). -/

namespace Sys2Proof.Machine

/-- A flip of square n: ILLEGAL_OPERAND for a square the block does not hold (R199). -/
def squareOp (sq : BitVec 6) (s : State) (k : Out) : Out := if s.blk.nsq ≤ sq.toNat then badOperand sq.toNat s else k

/-- Set a square's owner; a 1 is the strand (R177). -/
def Block.setOwner (b : Block) (sq : BitVec 6) (strand : Bool) : Block :=
  { b with owner := if strand then b.owner ||| ((1 : BitVec 64) <<< sq.toNat) else b.owner &&& ~~~((1 : BitVec 64) <<< sq.toNat) }

/-- Set a square's guard mode (R177). -/
def Block.setGuard (b : Block) (sq : BitVec 6) (g : Bool) : Block :=
  { b with guarded := if g then b.guarded ||| ((1 : BitVec 64) <<< sq.toNat) else b.guarded &&& ~~~((1 : BitVec 64) <<< sq.toNat) }

/-- `give` (R33, R199): the strand's earlier stores are performed before any later command reads. -/
def execGive (sq : BitVec 6) (s : State) : Out :=
  squareOp sq s (let s := performStores s; doneB s (s.blk.setOwner sq false) 4)

/-- `take` (R33, R199): it waits for the block's commands whose footprint holds a byte of the square. -/
def execTake (sq : BitVec 6) (s : State) : Out :=
  let b := s.blk
  let hits : List Cmd → Bool := fun cs => cs.any (fun c => c.touches b.localCore sq.toNat)
  squareOp sq s
    (if b.frozen && hits b.queued then badOperand 0 s
     else if hits b.cmds then waitS s .take
     else doneB s (b.setOwner sq true) 4)

/-- `guard` (R199). -/
def execGuard (sq : BitVec 6) (s : State) : Out := squareOp sq s (doneB s (s.blk.setGuard sq true) 4)

/-- `unguard` (R199). -/
def execUnguard (sq : BitVec 6) (s : State) : Out := squareOp sq s (doneB s (s.blk.setGuard sq false) 4)

end Sys2Proof.Machine
end

