-- ==== Sys2Proof/Machine/Queues.lean ====
section
/-! DEFINITION. Engine queues and tokens as the strand uses them (R240-R245, R316-R318), and `launch` (R255). -/

namespace Sys2Proof.Machine

/-- `slip` (R242). -/
def execSlip (n : BitVec 6) (s : State) : Out := doneB s { s.blk with slip := n.toNat } 4

/-- The engines that a mask names: bit 0 F, bit 1 V, bit 2 M, bit 3 P (R244). -/
def maskEngines (mask : BitVec 4) : List Engine :=
  (if mask.getLsbD 0 then [.F] else []) ++ (if mask.getLsbD 1 then [.V] else []) ++ (if mask.getLsbD 2 then [.M] else [])
    ++ (if mask.getLsbD 3 then [.P] else [])

/-- `drain` (R244). -/
def execDrain (mask : BitVec 4) (s : State) : Out :=
  let b := s.blk
  let es := maskEngines mask
  if b.frozen && es.any (fun e => !(b.eng e).q.isEmpty) then badOperand 0 s
  else if es.any (fun e => !(b.eng e).q.isEmpty || !(b.eng e).started.isEmpty) then waitS s .drain
  else doneS s 4

/-- `exit` (R22, R245): the strand stops; in handler mode the block terminates with the first trap's cause (R100). -/
def execExit (s : State) : Out :=
  let b := s.blk
  if b.handler then nextB s (b.terminate (bits b.trapCause.toNat 0 8))
  else nextB s { b.adv 4 with phase := .exited }

/-- Whether a command names a token as its wait or signal token (R317). -/
def Cmd.namesToken (c : Cmd) (k : BitVec 4) : Bool := c.hdr.wait == some k || c.hdr.sig == some k

/-- `tokw` (R318). -/
def execTokw (k : BitVec 4) (s : State) : Out :=
  let b := s.blk
  if !mayPop b k .S then strandTrap cPAIRING (BitVec.ofNat 64 (pairInfo k .S false)) s
  else if (b.token k).count == 0 then
    if b.frozen && !b.running.any (fun c => c.hdr.sig == some k) then badOperand 0 s else waitS s .token
  else doneB s (b.pop k) 4

/-- `toks` (R318). -/
def execToks (k : BitVec 4) (s : State) : Out :=
  if !mayPush s.blk k .S then strandTrap cPAIRING (BitVec.ofNat 64 (pairInfo k .S true)) s
  else if (s.blk.token k).count == 255 then badOperand k.toNat s
  else
    let s := performStores s
    doneB s (s.blk.push k) 4

/-- The IMM18 of `tokset` (R302). -/
def toksetImm (prod cons : Agent) (n : BitVec 8) : Nat := prod.code + cons.code * 8 + n.toNat * 64

/-- `tokset` (R317). -/
def execTokset (k : BitVec 4) (prod cons : Agent) (n : BitVec 8) (s : State) : Out :=
  let b := s.blk
  if prod == cons then badOperand (toksetImm prod cons n) s
  else if b.frozen && b.queued.any (fun c => c.namesToken k) then badOperand 0 s
  else if b.cmds.any (fun c => c.namesToken k) then waitS s .tokset
  else doneB s (b.setToken k ⟨n, prod, cons, true⟩) 8

/-- Check 2 of `launch` (R255). -/
def launchFault (s : State) (off : Nat) : Option (Nat × Nat) :=
  let b := s.blk
  if off % 16 != 0 || b.spBound ≤ off + 127 then some (cRANGE, rangeInfo .sp off)
  else (strandOwnFault b off 128).map (fun sq => (cOWNER, sq))

/-- Check 3 of `launch` on a queue's record (R255). -/
def launchable (r : Option (List Nat)) : Bool :=
  match r with
  | none => false
  | some r => qProducer r && !qErr r

/-- `launch` (R255): the block's covered accesses are performed, and the record is appended at the queue's dispatcher. -/
def execLaunch (sd sa sb : SReg) (s : State) : Out :=
  let b := s.blk
  let off := (rdS b sa).toNat
  let q := (rdS b sb).toNat
  withRegs [sa, sb] [] [sd] [] s
    (checked (launchFault s off) s
      (match queueLook s b.fn q with
       | .error g => strandParks none s 0 g.write false g.meet
       | .ok r =>
         if !launchable r then badOperand q s
         else if b.atomicsOut then waitS s .writes
         else
           let s := performStores s
           match appendRecord s b.fn q (recordOf (Memory.chip s.mem (b.spA off) 128)) with
           | .error g => strandParks none s 0 g.write false g.meet
           | .ok (slot, s) =>
             let b := s.blk.spill (taintS b sa ||| taintS b sb)
             let v : DWord := match slot with | some t => t.setWidth 64 | none => BitVec.allOnes 64
             doneB s (wrS b sd v 0) 8))

end Sys2Proof.Machine
end

