-- ==== Sys2Proof/Machine/Clearboard.lean ====
section
/-! DEFINITION. Clearboard tokens (R339, R340) and `cbtok` (R342). -/

namespace Sys2Proof.Machine

/-- The k low bytes of a number, highest first (R339 SIGR and SIGS). -/
def beBytes (k n : Nat) : List Byte := (leBytes k n).reverse

/-- The bytes 0x00-0x9F of a token (R339). -/
def CbToken.signed (s : State) (t : CbToken) : List Byte :=
  leBytes 8 (2 ^ 48 + t.part.toNat * 2 ^ 44 + t.cause.toNat * 2 ^ 40 + t.lostd.toNat * 2 ^ 36)
  ++ leBytes 8 t.frame.toNat ++ leBytes 8 t.count.toNat ++ leBytes 8 t.time.toNat ++ leBytes 48 t.odigest.toNat
  ++ leBytes 8 (t.oworld.toNat * 2 ^ 50 + t.iworld.toNat * 2 ^ 36 + t.cleared.toNat)
  ++ leBytes 8 t.fillmark.toNat ++ leBytes 8 t.pendmark.toNat ++ leBytes 16 (Config.nonce s.wo.bootn).toNat
  ++ List.replicate 40 0

/-- The 256 bytes of a token (R339): the fields, and the signature over the SHA-384 digest of bytes 0x00-0x9F, a free value (R340; log 28). -/
def CbToken.bytes (s : State) (t : CbToken) : List Byte :=
  let sig := (Config.signature t.sig (Config.sha384 (t.signed s))).toNat
  t.signed s ++ beBytes 48 (bits sig 384 384) ++ beBytes 48 (bits sig 0 384)

/-- The latest token of a partition, if the token of its latest scrub exists (R341, R342). -/
def latestToken (s : State) (part : BitVec 4) : Option CbToken :=
  let w := switchOf s part
  if w.pendingToken.isSome then none else w.token

/-- The checks 2 to 4 of `cbtok` (R342). -/
def cbtokFault (s : State) (a : Nat) : Option (Nat × Nat) :=
  if a % 64 != 0 then some (cOPERAND, a)
  else if s.blk.spBound ≤ a + 255 then some (cRANGE, rangeInfo .sp a)
  else (strandOwnFault s.blk a 256).map (fun q => (cOWNER, q))

/-- `cbtok` (R342): the token's bytes are strand stores, and COUNT goes to the scalar. -/
def execCbtok (sd sa : SReg) (imm : BitVec 18) (s : State) : Out :=
  let b := s.blk
  let a := immAddr b sa imm
  withRegs [sa] [] [sd] [] s
    (checked (cbtokFault s a) s
      (match latestToken s b.part with
       | none => waitS s .clearboard
       | some t =>
         if 32 ≤ b.storesInFlight then waitS s .store
         else
           let b := b.spill (taintS b sa)
           let b := { b with posted := b.posted ++ [.store .sp (levelAddr s b .sp a) (t.bytes s)] }
           doneB s (wrS b sd t.count 0) 8))

end Sys2Proof.Machine
end

