-- ==== Sys2Proof/Machine/ObjAccess.lean ====
section
/-! DEFINITION. Single elements of objects and counter words (R192-R197, R223-R227), their completion, and the performance of
posted writes (R191, R194, R228). -/

namespace Sys2Proof.Machine

/-! ## Issue -/

/-- The taint set T of an access: its registers', the W predicate's and CTL_TAINT (R225, R226). -/
def Block.accessT (b : Block) (t : Taint) : Taint := t ||| b.wrapT ||| b.ctl

/-- Issue an object load (R194, R225): it takes a load tag, fixes its required stamp and its waits, and lets the strand go on. -/
def Block.issueLoad (b : Block) (op : LoadOp) (sd : SReg) (h : DWord) (index : Nat) (x y : DWord) (t : Taint) : Block :=
  let (tag, b) := b.takeTag
  let all := b.accessT t
  let id := b.nextLoad
  let l : ObjLoad :=
    { id := id, addr := b.pc, op := op, dst := sd, handle := h, index := index, b := x, c := y, taint := t ||| tagBit tag,
      req := b.reqStamp all, waits := b.waitLoads all, folded := false, park := none, remote := none, reply := none }
  { b with nextLoad := id + 1, loads := b.loads ++ [l], tags := b.tags ++ [⟨tag, id, false, 0⟩] }

/-- Which kinds an object load or atomic takes (R192, R324, R326). -/
def LoadOp.kindOk (op : LoadOp) (k : Nat) : Bool :=
  match op with
  | .elem => k == kTensor || k == kStream || k == kCode || k == kStep
  | .version => true
  | .skipWord _ => k == kStep
  | _ => k == kCounter

/-- Steps 4 and 5 of R193 for an object load or atomic: the cause. -/
def loadRightsFault (op : LoadOp) (d : BitVec 512) (world : BitVec 14) : Option Nat :=
  if op.isAtomic && dKind d == kCode then some cRIGHTS
  else if !op.kindOk (dKind d) then some cKIND
  else if op.isAtomic then (if canWrite d world then none else some cRIGHTS)
  else if canRead d world then none else some cRIGHTS

/-- Steps 4 and 5 of R193 for a `sto`: the cause. -/
def stoRightsFault (d : BitVec 512) (world : BitVec 14) : Option Nat :=
  if dKind d == kCode then some cRIGHTS
  else if !(dKind d == kTensor || dKind d == kStep) then some cKIND
  else if canWrite d world then none else some cRIGHTS

/-- The formats of R193 step 6. -/
def wordFormat (f : Nat) : Bool := f ≤ 7 || (8 ≤ f && f ≤ 0xC)

/-- A cause with the handle as detail, or on. -/
def unlessCause (f : Option Nat) (h : DWord) (s : State) (k : Out) : Out :=
  match f with
  | some c => strandTrap c h s
  | none => k

/-- Step 7 of R193: an index within the object. -/
def withIndex (i : Int) (d : BitVec 512) (s : State) (k : Nat → Out) : Out :=
  if i < 0 || (dCount d : Int) ≤ i then strandTrap cOPERAND (BitVec.ofInt 64 i) s else k i.toNat

/-- The stamp at the head of a peer's reply, and its values (log 14). -/
def replyStamp (bs : List Byte) : DWord := leDWord (bs.take 8)
/-- Value k of a peer's reply (log 14). -/
def replyValue (bs : List Byte) (k : Nat) : Nat := leNat ((bs.drop (8 + 16 * k)).take 16)

/-- The number of a strand's load, and of an engine command, among the reads that another package's lease table notes (log 14). -/
def loadAccess (id : Nat) : Nat := 2 * id
/-- The number of a command's reads. -/
def cmdAccess (n : Nat) : Nat := 2 * n + 1

/-- The body of a request to check and note reads of ranges at the object's home (R217, R218; log 14). -/
def readBody (id : BId) (access : Nat) (rs : List (Nat × Nat)) : List Byte :=
  blockBody wRead id ++ leBytes 8 access ++ rs.flatMap (fun r => leBytes 8 r.1 ++ leBytes 8 r.2)

/-- Tell the home of an object on another package that a noted read is complete (R218). -/
def tellDone (s : State) (h : DWord) (id : BId) (access : Nat) : State :=
  if hHome h == s.pl.pkg.toNat then s else tell s (hHome h) h (blockBody wReadDone id ++ leBytes 8 access)

/-- The block remembers that another package has noted a read of an object of its (R218). -/
def Block.note (b : Block) (h : DWord) : Block := if b.noted.any (fun x => hObj x == hObj h) then b else { b with noted := h :: b.noted }

/-- What an open lease of another block does to a read of the strand (R217). -/
def raceStop (h : DWord) (s : State) : Out :=
  let s := { s with blk := { s.blk with reply := none } }
  if subscribed s.blk h then waitS s .race else strandTrap cRACE h s

/-- The race check of an object read by the strand, at the object's home (R217). -/
def readRace (f : DWord) (s : State) (h : DWord) (d : BitVec 512) (i : Nat) (k : State → Out) : Out :=
  let b := s.blk
  if !(dKind d == kTensor || dKind d == kStep) then k s
  else if hHome h == s.pl.pkg.toNat then (if leaseBars s b.id h i then raceStop h s else k s)
  else
    match b.reply with
    | some bs => if replyValue bs 0 == 1 then k { s with blk := { s.blk.note h with reply := none } } else raceStop h s
    | none => strandAsks (some f) s (hHome h) opAtomic h 0 none (readBody b.id (loadAccess b.nextLoad) [(i, i)])

/-- Issue of an object load whose checks have passed; a load beyond 255 outstanding ones waits (R94). -/
def issue (op : LoadOp) (sd : SReg) (h : DWord) (i : Nat) (x y : DWord) (t : Taint) (s : State) : Out :=
  if 255 ≤ s.blk.loads.length then waitS s .load255 else doneB s (s.blk.issueLoad op sd h i x y t) 8

/-- `ldo` (R193-R195). -/
def execLdo (sd : SReg) (h : BitVec 4) (sa : SReg) (imm : BitVec 18) (s : State) : Out :=
  let b := s.blk
  let t := taintS b sa
  let hv := (b.hCell h).v
  let f := b.reqStamp (b.accessT t)
  withRegs [sa] [] [sd] [] s
    (liveOthers [] [h] [] s
      (withHandle h f s (fun d s =>
        unlessCause (loadRightsFault .elem d b.world) hv s
          (if !wordFormat (dFmt d) then badOperand (dFmt d) s
           else
             withIndex (elemIndex b sa imm) d s (fun i =>
               readRace f s hv d i (issue .elem sd hv i 0 0 t))))))

/-- An atomic (R193, R194, R196), behind those that a fence has put before it (R229). -/
def atomOp (op : LoadOp) (sd : SReg) (h : BitVec 4) (sa : SReg) (imm : BitVec 18) (rs : List SReg) (x y : SReg)
    (s : State) : Out :=
  let b := s.blk
  let t := rs.foldl (fun t r => t ||| taintS b r) 0
  let hv := (b.hCell h).v
  withRegs rs [] [sd] [] s
    (liveOthers [] [h] [] s
      (withHandleFor true true h (b.reqStamp (b.accessT t)) s (fun d s =>
        unlessCause (loadRightsFault op d b.world) hv s
          (withIndex (elemIndex b sa imm) d s (fun i =>
            if b.fenceHeld then waitS s .writes else issue op sd hv i (rdS b x) (rdS b y) t s)))))

/-- `atom.add` (R196). -/
def execAtomAdd (sd : SReg) (h : BitVec 4) (sa : SReg) (imm : BitVec 18) (sb : SReg) (s : State) : Out :=
  atomOp .add sd h sa imm [sa, sb] sb 0 s
/-- `atom.min.i64` (R196). -/
def execAtomMinI64 (sd : SReg) (h : BitVec 4) (sa : SReg) (imm : BitVec 18) (sb : SReg) (s : State) : Out :=
  atomOp .minI sd h sa imm [sa, sb] sb 0 s
/-- `atom.min.n64` (R196). -/
def execAtomMinN64 (sd : SReg) (h : BitVec 4) (sa : SReg) (imm : BitVec 18) (sb : SReg) (s : State) : Out :=
  atomOp .minN sd h sa imm [sa, sb] sb 0 s
/-- `atom.max.i64` (R196). -/
def execAtomMaxI64 (sd : SReg) (h : BitVec 4) (sa : SReg) (imm : BitVec 18) (sb : SReg) (s : State) : Out :=
  atomOp .maxI sd h sa imm [sa, sb] sb 0 s
/-- `atom.max.n64` (R196). -/
def execAtomMaxN64 (sd : SReg) (h : BitVec 4) (sa : SReg) (imm : BitVec 18) (sb : SReg) (s : State) : Out :=
  atomOp .maxN sd h sa imm [sa, sb] sb 0 s
/-- `atom.xchg` (R196). -/
def execAtomXchg (sd : SReg) (h : BitVec 4) (sa : SReg) (imm : BitVec 18) (sb : SReg) (s : State) : Out :=
  atomOp .xchg sd h sa imm [sa, sb] sb 0 s
/-- `atom.cas` (R196). -/
def execAtomCas (sd : SReg) (h : BitVec 4) (sa : SReg) (imm : BitVec 18) (sb sc : SReg) (s : State) : Out :=
  atomOp .cas sd h sa imm [sa, sb, sc] sb sc s
/-- `atom.incb` (R196). -/
def execAtomIncb (sd : SReg) (h : BitVec 4) (sa : SReg) (imm : BitVec 18) (sb : SReg) (s : State) : Out :=
  atomOp .incb sd h sa imm [sa, sb] sb 0 s

/-- The outstanding loads of an element, which a later `sto` to it comes after (R194). -/
def Block.loadsOf (b : Block) (h : DWord) (i : Nat) : List Nat :=
  (b.loads.filter (fun l => l.op == .elem && hObj l.handle == hObj h && l.index == i)).map (·.id)

/-- Post a `sto` with the spill fold (R194, R195, R227). -/
def Block.postSto (b : Block) (h : DWord) (i : Nat) (v : DWord) (t : Taint) : Block :=
  let all := b.accessT t
  let x : Posted := .sto b.pc h i v (b.reqStamp all) (b.waitLoads all ++ b.loadsOf h i) none none
  let b := b.spill t
  { b with posted := b.posted ++ [x] }

/-- `sto` (R193-R195, R216). -/
def execSto (h : BitVec 4) (sa : SReg) (imm : BitVec 18) (sb : SReg) (s : State) : Out :=
  let b := s.blk
  let t := taintS b sa ||| taintS b sb
  let hv := (b.hCell h).v
  withRegs [sa, sb] [] [] [] s
    (liveOthers [] [h] [] s
      (withHandleFor true false h (b.reqStamp (b.accessT t)) s (fun d s =>
        unlessCause (stoRightsFault d b.world) hv s
          (if !wordFormat (dFmt d) then badOperand (dFmt d) s
           else
             withIndex (elemIndex b sa imm) d s (fun i =>
               if leaseCovers s b.id hv false i then doneB s (s.blk.postSto hv i (rdS b sb) t) 8
               else strandTrap cRACE hv s)))))

/-! ## Completion of object loads -/

/-- A trap of an access that the strand has gone past: it is precise to the access's own instruction (R120, R283). -/
def lateTrap (addr : Word) (cause : Nat) (info : DWord) (s : State) : State :=
  { abandonWait s s.blk.id with blk := s.blk.takeTrap addr (causeWord 0 0 cause) info cause false false }

/-- Replace the load at a place. -/
def Block.setLoad (b : Block) (k : Nat) (l : ObjLoad) : Block := { b with loads := b.loads.set k l }

/-- A load that a trap ends leaves with its tag and no result. -/
def Block.dropLoad (b : Block) (l : ObjLoad) : Block := { b.finishLoad l 0 with tags := b.tags.filter (fun r => r.load != l.id) }

/-- Whether a load that completes writes its scalar: not behind `exit` (R245; log 61). -/
def Block.takesResults (b : Block) : Bool := !b.hasExited && b.phase != .terminated

/-- A load completes: its tag's stamp is recorded and its scalar written (R94, R194, R227, R245). -/
def Block.completeLoad (b : Block) (l : ObjLoad) (v stamp : DWord) : Block :=
  let b' := b.finishLoad l stamp
  if b.takesResults then wrS b' l.dst v l.taint else b'

/-- An element as a scalar: sign-extended from a signed integer format, otherwise zero-extended (R195). -/
def scalarOf (fmt v : Nat) : DWord :=
  match fmtOf fmt with
  | some (.int true w) => BitVec.ofInt 64 (intVal true w v)
  | _ => BitVec.ofNat 64 v

/-- The fields of an element by its linear index. -/
def indexFields (d : BitVec 512) (i : Nat) : Nat × List Field := elemFields d (coordsOf (dExts d) i)

/-- The field of word w of a step cache's skip map, in its side area (R165). -/
def skipField (d : BitVec 512) (w : Nat) : Field := ⟨sideBase d + 8 * w, 0, 64⟩

/-- What performing an access at its object answers: the value with its stamp, a park, a request to a peer, or a trap's cause. -/
inductive Done where
  | value (v stamp : DWord)
  | park (m : Meet)
  | ask (pkg op off : Nat) (desc : Bool) (body : List Byte)
  | trap (cause : Nat)
  deriving DecidableEq, Repr

/-- An atomic at the home atomic unit of this package (R181, R196, R328): the old value, and the word and watches after it. -/
def atomicHere (s : State) (h : DWord) (d : BitVec 512) (op : LoadOp) (i : Nat) (x y : DWord) : DWord × State :=
  let v := counterRead s d i
  let v' := atomicNew op v x.toNat y.toNat
  let s := if op.isAtomic then counterWrite s d i v' else s
  let s := if atomicFires op v x.toNat then fireWatches s h i (BitVec.ofNat 64 v') else s
  (BitVec.ofNat 64 v, s)

/-- The body of an atomic request: operation, index, operands (log 14). -/
def atomicBody (op : LoadOp) (i : Nat) (x y : DWord) : List Byte :=
  leBytes 1 op.wire ++ leBytes 8 i ++ leBytes 8 x.toNat ++ leBytes 8 y.toNat

/-- Perform an object load at its object, with the descriptor resolved (R195, R196, R223, R324). -/
def performLoad (s : State) (l : ObjLoad) (d : BitVec 512) : Done × State :=
  let who := s.blk.who 0
  let away := hHome l.handle != s.pl.pkg.toNat
  let fields (sh : Nat) (fs : List Field) (f : Nat → DWord) : Done × State :=
    match objRead s who l.handle d l.req sh fs with
    | (.ok vs st, s) => (.value (f (vs.getD 0 0)) st, s)
    | (.park m, s) => (.park m, s)
    | (.peer pkg, s) => (.ask pkg opRead ((fs.head?.map Field.off).getD 0) false (fieldBody sh fs), s)
  match l.op with
  | .elem => fields (indexFields d l.index).1 (indexFields d l.index).2 (scalarOf (dFmt d))
  | .skipWord w => fields 0 [skipField d w] (BitVec.ofNat 64)
  | .version =>
    if away then (.ask (hHome l.handle) opAtomic 0 false (atomicBody l.op 0 0 0), s)
    else
      match readDesc s (hIndex l.handle) with
      | .error m => (.park m, s)
      | .ok d => let s := mergeClock s l.req; (.value (BitVec.ofNat 64 (dVersion d)) s.tm.pclk, s)
  | op =>
    if away then (.ask (hHome l.handle) opAtomic (8 * l.index) false (atomicBody op l.index l.b l.c), s)
    else
      let s := mergeClock s l.req
      let (v, s) := atomicHere s l.handle d op l.index l.b l.c
      (.value v s.tm.pclk, s)

/-- The value of a peer's reply to a load. -/
def replyResult (l : ObjLoad) (d : BitVec 512) (bs : List Byte) : DWord :=
  match l.op with
  | .elem => scalarOf (dFmt d) (replyValue bs 0)
  | _ => BitVec.ofNat 64 (replyValue bs 0)

/-- Resolve the handle of a load anew, make its kind and rights checks, and perform it or take its reply. -/
def resolveLoad (s : State) (l : ObjLoad) : Done × State :=
  match resolve s (s.blk.who 0) l.handle l.req with
  | (.trap c, s) => (.trap c, s)
  | (.park m, s) => (.park m, s)
  | (.ask pkg, s) => (.ask pkg opRead descOffset true [], s)
  | (.ok d _, s) =>
    match loadRightsFault l.op d s.blk.world with
    | some c => (.trap c, s)
    | none =>
      match l.reply with
      | some bs => (.value (replyResult l d bs) (replyStamp bs), s)
      | none => performLoad s l d

/-- Resolve the handle of a load anew, make its kind and rights checks, and perform it; a reply that has come is its value, and an atomic's
reply is never dropped, since the home has performed it (R196). -/
def attemptLoad (s : State) (l : ObjLoad) : Done × State :=
  match l.op, l.reply with
  | .elem, _ | _, none => resolveLoad s l
  | _, some bs => (.value (BitVec.ofNat 64 (replyValue bs 0)) (replyStamp bs), s)

/-- Whether an earlier access of the strand to the same element must come first: its own `sto` before an `ldo` (R194), or an
earlier atomic on the word (R197). -/
def loadHeld (b : Block) (k : Nat) (l : ObjLoad) : Bool :=
  (l.op == .elem && b.posted.any (fun p =>
    match p with
    | .sto _ h i _ _ ws _ _ => hObj h == hObj l.handle && i == l.index && !ws.contains l.id
    | _ => false))
  || (l.op.isAtomic && (b.loads.take k).any (fun x =>
    x.op.isAtomic && hObj x.handle == hObj l.handle && x.index == l.index))

/-- Whether a load can be attempted: its waits are over, no park holds it unreleased, and no reply is awaited. -/
def loadReady (b : Block) (k : Nat) (l : ObjLoad) : Bool :=
  l.waits.isEmpty && !loadHeld b k l && b.strandTurn l.park && l.remote.isNone

/-- An `ldo` that the home of its object on another package has noted is complete there (R218). -/
def tellLoad (l : ObjLoad) (s : State) : State := if l.op == .elem then tellDone s l.handle s.blk.id (loadAccess l.id) else s

/-- The state after an attempt of the load at place k: completed, parked, asked of a peer, or trapped (R94, R194, R282, R283). -/
def loadOutcome (k : Nat) (l : ObjLoad) (r : Done × State) : State :=
  let s := r.2
  match r.1 with
  | .value v st => tellLoad l { s with blk := s.blk.completeLoad l v st }
  | .trap c => tellLoad l (lateTrap l.addr c l.handle { s with blk := s.blk.dropLoad l })
  | .park m =>
    let (p, s) := park s (s.blk.who 0) l.handle l.op.isAtomic l.op.isAtomic m
    { s with blk := s.blk.setLoad k { l with park := some p, reply := none } }
  | .ask pkg op off desc body =>
    match sendRequest s pkg op l.handle off (if desc then some l.handle else none) body with
    | some (rm, s) => { s with blk := s.blk.setLoad k { l with remote := some rm, park := none } }
    | none =>
      let (p, s) := park s (s.blk.who 0) l.handle l.op.isAtomic l.op.isAtomic (noPath op off body)
      { s with blk := s.blk.setLoad k { l with park := some p, reply := none } }

/-- OBJECT_LOAD_COMPLETION of the outstanding load at place k (R94, R194, R227). -/
def execObjectLoadCompletion (k : Nat) (s : State) : Out :=
  match s.blk.loads[k]? with
  | none => .next s
  | some l => if loadReady s.blk k l then .next (loadOutcome k l (attemptLoad s l)) else .next s

/-! ## Performing posted writes (R191, R194, R228) -/

/-- Whether an earlier store of the strand reaches a bank that this one reaches (R191). -/
def storeHeld (b : Block) (k : Nat) (lv : Level) (a n : Nat) : Bool :=
  (b.posted.take k).any (fun p =>
    match p with
    | .store lv' a' bs' => (bankKeys lv' a' bs'.length).any (fun x => (bankKeys lv a n).contains x)
    | _ => false)

/-- Remove the posted write at a place. -/
def Block.dropPosted (b : Block) (k : Nat) : Block := { b with posted := b.posted.eraseIdx k }

/-- Replace the posted write at a place. -/
def Block.setPosted (b : Block) (k : Nat) (p : Posted) : Block := { b with posted := b.posted.set k p }

/-- A low mask of an element's width. -/
def lowPart (w v : Nat) : Nat := v % 2 ^ w

/-- Write one element at its object: a park, a peer, or done; a write that `fires` says fires its watches at the home (R195, R328). -/
def writeIndex (fires : Bool) (s : State) (who : Who) (h : DWord) (d : BitVec 512) (f : DWord) (i v : Nat) : Done × State :=
  let (sh, fs) := indexFields d i
  let w := dWidth d
  match objWrite s who h d f sh (fs.take 1) [lowPart w v] [] with
  | (.ok _ st, s) => (.value 0 st, if fires then fireWatches s h i (scalarOf (dFmt d) (lowPart w v)) else s)
  | (.park m, s) => (.park m, s)
  | (.peer pkg, s) =>
    (.ask pkg opWrite ((fs.head?.map Field.off).getD 0) false (writeBody fires sh [] (fs.take 1) [lowPart w v]), s)

/-- Resolve the handle of a posted `sto` anew, make its kind and rights checks, and perform it. -/
def attemptSto (s : State) (h : DWord) (i : Nat) (v req : DWord) : Done × State :=
  match resolve s (s.blk.who 0) h req with
  | (.trap c, s) => (.trap c, s)
  | (.park m, s) => (.park m, s)
  | (.ask pkg, s) => (.ask pkg opRead descOffset true [], s)
  | (.ok d _, s) =>
    match stoRightsFault d s.blk.world with
    | some c => (.trap c, s)
    | none => writeIndex true s (s.blk.who 0) h d req i v.toNat

/-- The fields of the skip-map bit and of the consecutive-skip count of token block j (R165); the order of the side area's parts, and that a
sharded object's side area stands in shard 0, are the model's (log 34). -/
def gateFields (d : BitVec 512) (j : Nat) : List Field :=
  let words := cdiv (dExt d 2) 64
  [⟨sideBase d + j / 8, j % 8, 1⟩, ⟨sideBase d + 8 * words + j, 0, 8⟩]

/-- The coordinates of the elements of token block j, in element order (R165). -/
def blockCoords (d : BitVec 512) (j : Nat) : List (List Nat) :=
  (List.range (dExt d 0 * dExt d 1)).map (fun i => [i % dExt d 0, i / dExt d 0, j])

/-- A list in pieces of n, at most m of them. -/
def piecesOf {α : Type} (n : Nat) : Nat → List α → List (List α)
  | 0, _ => []
  | m + 1, xs => if xs.isEmpty then [] else xs.take n :: piecesOf n m (xs.drop n)

/-- The bits of each line that fields cover are all of it (R183): the lines, by shard and offset, that some fields fill. -/
def fullLines (fs : List (Nat × Field)) : List (Nat × Nat) :=
  let all := fs.eraseDups
  let lines := (all.flatMap (fun x => (linesOf x.2.off x.2.len).map (fun l => (x.1, l)))).eraseDups
  lines.filter (fun l =>
    let n := all.foldl (fun n x =>
      let lo := max (8 * x.2.off + x.2.lo) (512 * l.2)
      let hi := min (8 * x.2.off + x.2.lo + x.2.n) (512 * l.2 + 512)
      if x.1 == l.1 && lo < hi then n + (hi - lo) else n) 0
    n == 512)

/-- A field of an object that another package holds, by shard, with the value to be written. -/
structure FarField where
  pkg : Nat
  sh : Nat
  f : Field
  v : Nat
  deriving DecidableEq, Repr

/-- Write fields, given with their shards, where this package holds them: what other packages hold is left, or the stop is given. `whole` are
the lines written in full. -/
def writeNear (who : Who) (h : DWord) (d : BitVec 512) (req : DWord) (whole : List (Nat × Nat)) :
    List ((Nat × Field) × Nat) → State → Except Meet (List FarField) × State
  | [], s => (.ok [], s)
  | ((sh, f), v) :: xs, s =>
    let lines := (whole.filter (fun l => l.1 == sh)).map (·.2)
    match objWrite s who h d req sh [f] [v] lines with
    | (.park m, s) => (.error m, s)
    | (.ok _ _, s) => writeNear who h d req whole xs s
    | (.peer p, s) =>
      match writeNear who h d req whole xs s with
      | (.ok ys, s) => (.ok (⟨p, sh, f, v⟩ :: ys), s)
      | r => r

/-- The write requests for fields that other packages hold: package, offset and body, at most 128 fields to a frame (log 14). -/
def farBodies (whole : List (Nat × Nat)) (xs : List FarField) : List (Nat × Nat × List Byte) :=
  ((xs.map (fun x => (x.pkg, x.sh))).eraseDups).flatMap (fun k =>
    let ys := xs.filter (fun x => x.pkg == k.1 && x.sh == k.2)
    (piecesOf 128 ys.length ys).map (fun p =>
      let near := (p.flatMap (fun x => linesOf x.f.off x.f.len)).eraseDups
      let lines := (whole.filter (fun l => l.1 == k.2 && near.contains l.2)).map (·.2)
      (k.1, (p.head?.map (fun x => x.f.off)).getD 0, writeBody false k.2 lines (p.map (·.f)) (p.map (·.v)))))

/-- The elements of a tile as bytes of whole-byte width. -/
def cutBytes (w : Nat) (n : Nat) (bs : List Byte) : List Nat := (List.range n).map (fun i => leNat ((bs.drop (w * i)).take w))

/-- The fields that an `sgate` update of token block j writes, with their values (R165, R169). -/
def gateWrites (d : BitVec 512) (j count : Nat) (skip : Bool) (x : List Byte) : List ((Nat × Field) × Nat) :=
  let side := (gateFields d j).zip [b2n skip, if skip then count + 1 else 0]
  let xs := if skip then [] else (blockCoords d j).map (elemFields d)
  side.map (fun y => ((0, y.1), y.2))
    ++ (xs.zip (cutBytes (dWidth d / 8) xs.length x)).flatMap (fun y => (y.1.2.take 1).map (fun f => ((y.1.1, f), y.2)))

/-- Write what this package holds of an `sgate` update, the skip map and the count with it, in one step: all of it or nothing (R169, R172). -/
def writeGate (s : State) (who : Who) (h : DWord) (d : BitVec 512) (req : DWord) (j count : Nat) (skip : Bool) (x : List Byte) :
    Except Meet (List FarField) × State :=
  let ws := gateWrites d j count skip x
  match writeNear who h d req (fullLines (ws.map (·.1))) ws s with
  | (.error m, t) => (.error m, { t with mem := s.mem })
  | r => r

/-- The parts of an `sgate` update that other packages hold: those of the payload before that of the skip map and the count (R169). -/
def gateParted (d : BitVec 512) (j count : Nat) (skip : Bool) (x : List Byte) (far : List FarField) : List FarPart :=
  let whole := fullLines ((gateWrites d j count skip x).map (·.1))
  let (side, payload) := far.partition (fun y => y.sh == 0 && (gateFields d j).contains y.f)
  let parts (b : Bool) (ys : List FarField) : List FarPart := (farBodies whole ys).map (fun y => ⟨y.1, y.2.1, y.2.2, b⟩)
  parts false payload ++ parts true side

/-- What an `sgate` update comes to next: it is performed, it stops, or the first of some parts at other packages is to be written. -/
inductive GateDo where
  | done
  | stop (m : Meet)
  | ask (p : FarPart) (rest : List FarPart)
  deriving DecidableEq, Repr

/-- An `sgate` update goes on (R169, R172): the parts of the payload at other packages are written and acknowledged one after another, then what
this package holds in one step, and behind that the skip map and the count where another package holds them. -/
def gateGo (s : State) (who : Who) (h : DWord) (d : BitVec 512) (req : DWord) (j count : Nat) (skip : Bool) (x : List Byte)
    (far : Option (List FarPart)) : GateDo × State :=
  let near (after : GateDo) (s : State) : GateDo × State :=
    match writeGate s who h d req j count skip x with
    | (.error m, s) => (.stop m, s)
    | (.ok _, s) => (after, s)
  let go (ps : List FarPart) (s : State) : GateDo × State :=
    match ps with
    | [] => near .done s
    | p :: rest => if p.side then near (.ask p rest) s else (.ask p rest, s)
  match far with
  | some ps => go ps s
  | none =>
    match writeGate s who h d req j count skip x with
    | (.error m, s) => (.stop m, s)
    | (.ok ys, t) => go (gateParted d j count skip x ys) { t with mem := s.mem }

/-- The state after an attempt of the posted write p at place k. -/
def postedOutcome (k : Nat) (addr : Word) (h : DWord) (p : Posted) (withRemote : Remote → Posted) (r : Done × State) : State :=
  let s := r.2
  match r.1 with
  | .value _ _ => { s with blk := s.blk.dropPosted k }
  | .trap c => lateTrap addr c h { s with blk := s.blk.dropPosted k }
  | .park m =>
    let (q, s) := park s (s.blk.who 0) h true false m
    { s with blk := s.blk.setPosted k (p.setPark (some q)) }
  | .ask pkg op off desc body =>
    match sendRequest s pkg op h off (if desc then some h else none) body with
    | some (rm, s) => { s with blk := s.blk.setPosted k (withRemote rm) }
    | none =>
      let (q, s) := park s (s.blk.who 0) h true false (noPath op off body)
      { s with blk := s.blk.setPosted k (p.setPark (some q)) }

/-- The posted `sgate` update at place k goes on, with its handle resolved anew (R169, R172). -/
def gateOutcome (k : Nat) (u : GateUpdate) (s : State) : State :=
  let out (u : GateUpdate) (r : Done × State) : State :=
    postedOutcome k u.addr u.handle (.gate u) (fun r => .gate { u with park := none, remote := some r }) r
  match resolve s (s.blk.who 0) u.handle u.req with
  | (.trap c, s) => out u (.trap c, s)
  | (.park m, s) => out u (.park m, s)
  | (.ask pkg, s) => out u (.ask pkg opRead descOffset true [], s)
  | (.ok d _, s) =>
    match gateGo s (s.blk.who 0) u.handle d u.req u.j u.count u.skip u.x u.far with
    | (.done, s) => out u (.value 0 0, s)
    | (.stop m, s) => out u (.park m, s)
    | (.ask p rest, s) => out { u with far := some (p :: rest) } (.ask p.pkg opWrite p.off false p.body, s)

/-- Whether an earlier `sto` of the strand to the same element stands before the one at place k. -/
def stoHeld (b : Block) (k : Nat) (h : DWord) (i : Nat) : Bool :=
  (b.posted.take k).any (fun p => match p with | .sto _ h' i' _ _ _ _ _ => hObj h' == hObj h && i' == i | _ => false)

/-- Whether a park no longer holds an access. -/
def parkOver (p : Option Park) : Bool := match p with | some p => p.released | none => true

/-- POSTED_STORE_PERFORMED of the posted write at place k (R191, R194, R228). -/
def execPostedStorePerformed (k : Nat) (s : State) : Out :=
  match s.blk.posted[k]? with
  | none => .next s
  | some (.store lv a bs) =>
    if storeHeld s.blk k lv a bs.length then .next s
    else .next { s with mem := Memory.writeAll s.mem a bs, blk := s.blk.dropPosted k }
  | some (.sto pc h i v req ws pk rm) =>
    if !ws.isEmpty || stoHeld s.blk k h i || !s.blk.strandTurn pk || rm.isSome then .next s
    else
      .next (postedOutcome k pc h (.sto pc h i v req ws pk rm) (fun r => .sto pc h i v req ws none (some r))
        (attemptSto s h i v req))
  | some (.gate u) => if !s.blk.strandTurn u.park || u.remote.isSome then .next s else .next (gateOutcome k u s)

end Sys2Proof.Machine
end

