-- ==== Sys2Proof/Machine/Handles.lean ====
section
/-! DEFINITION. Handle registers (R83, R293, R294). -/

namespace Sys2Proof.Machine

/-- Wait for the loads that an access's taint set names, then go on with its required stamp (R225). -/
def withTaint (t : Taint) (s : State) (k : DWord → Out) : Out :=
  let all := s.blk.accessT t
  if (s.blk.waitLoads all).isEmpty then k (s.blk.reqStamp all) else waitS s .taint

/-- Resolve a handle value for an instruction that holds the strand (R275, R282); `write` is that of the access (R284). -/
def resolveFor (write : Bool) (v f : DWord) (s : State) (k : BitVec 512 → DWord → State → Out) : Out :=
  match resolve s (s.blk.who 0) v f with
  | (.trap cause, s) => strandTrap cause v s
  | (.park m, s) => strandParks (some f) s v write false m
  | (.ask pkg, s) => strandAsksFor write false (some f) s pkg opRead v descOffset (some v) []
  | (.ok d st, s) => k d st s

/-- Resolve a handle value for an instruction that reads. -/
def resolveS (v f : DWord) (s : State) (k : BitVec 512 → DWord → State → Out) : Out := resolveFor false v f s k

/-- `hopen` (R293): the handle resolved, with read or write rights, and its descriptor in the hidden copy. -/
def execHopen (h : BitVec 4) (sa : SReg) (s : State) : Out :=
  let v := rdS s.blk sa
  let t := taintS s.blk sa
  withRegs [sa] [] [] [] s
    (withTaint t s (fun f =>
      resolveS v f s (fun d st s =>
        let b := s.blk
        if !(canRead d b.world || canWrite d b.world) then strandTrap cRIGHTS v s
        else doneB s ((b.foldSet t).setH h ⟨v, d, st, false, false⟩) 8)))

/-- `hget` (R293). -/
def execHget (sd : SReg) (h : BitVec 4) (s : State) : Out :=
  withRegs [] [] [sd] [] s (liveOthers [] [h] [] s (doneB s (putS s.blk sd (s.blk.hCell h).v 0) 8))

/-- `hdrop` (R293). -/
def execHdrop (h : BitVec 4) (s : State) : Out := doneB s (s.blk.setH h ⟨0, 0, 0, false, false⟩) 8

/-- A word of the hidden copy as `hstat` shows it (R294). -/
def shownWord (d : BitVec 512) (w : Nat) (world : BitVec 14) : DWord :=
  let v := dWord d w
  match w with
  | 3 => BitVec.ofNat 64 (setBits v 32 14 0)
  | 4 =>
    BitVec.ofNat 64 ((List.range 4).foldl (fun v k => if bits v (16 * k) 14 == world.toNat then v else setBits v (16 * k) 16 0) v)
  | 7 => if dOwner d == world then BitVec.ofNat 64 v else 0
  | _ => BitVec.ofNat 64 v

/-- A result that comes with a load tag whose load has completed at a stamp (R194, R294, R326). -/
def Block.taggedResult (b : Block) (sd : SReg) (v : DWord) (t : Taint) (stamp : DWord) : Block :=
  let (tag, b) := b.takeTag
  let b := { b with nextLoad := b.nextLoad + 1, tags := b.tags ++ [⟨tag, b.nextLoad, true, stamp⟩] }
  putS b sd v (t ||| tagBit tag)

/-- `hstat` (R294): a word of the hidden copy; with `.r` the descriptor is resolved anew first and the result takes a load tag. -/
def execHstat (sd : SReg) (h : BitVec 4) (r : Bool) (word : BitVec 3) (s : State) : Out :=
  let c := s.blk.hCell h
  withRegs [] [] [sd] [] s
    (liveOthers [] [h] [] s
      (if c.v == 0 then strandTrap cINVALIDH 0 s
       else if r then
         withTaint 0 s (fun f =>
           resolveS c.v f s (fun d st s =>
             let b := s.blk.setH h { c with desc := d, stamp := st, refresh := false }
             doneB s (b.taggedResult sd (shownWord d word.toNat b.world) 0 st) 8))
       else
         withHandle h 0 s (fun d s => doneB s (putS s.blk sd (shownWord d word.toNat s.blk.world) 0) 8)))

end Sys2Proof.Machine
end

