-- ==== Sys2Proof/Machine/Tiles.lean ====
section
/-! DEFINITION. The geometry of F and P commands (R202, R206): tile positions, the object elements they name, and which elements
of which objects a command reads and writes (R216, R217). -/

namespace Sys2Proof.Machine

/-- The tile positions of a command's shape. -/
def Cmd.tileCount (c : Cmd) : Nat := prod (qExts c.shape)

/-- The object coordinates of tile position p at an origin (R202). -/
def Cmd.coordsAt (c : Cmd) (si : List DWord) (p : Nat) : List Nat :=
  List.zipWith (· + ·) (originOf si (qRank c.shape)) (coordsOf (qExts c.shape) p)

/-- Whether an object element exists at coordinates (R202). -/
def insideObj (d : BitVec 512) (xs : List Nat) : Bool :=
  xs.length == dRank d && (xs.zip (dExts d)).all (fun x => x.1 < x.2)

/-- Add x to the last coordinate (R206). -/
def addLast : List Nat → Nat → List Nat
  | [], _ => []
  | [y], x => [y + x]
  | y :: ys, x => y :: addLast ys x

/-- The object element at every position of a command's tile, in the order of R202; `none` where the position is clipped, or lies
in an entry of a `fetch.ix` list with bit 31 set. -/
def Cmd.positions (c : Cmd) (d : BitVec 512) (si : List DWord) : List (Option (List Nat)) :=
  let one (x : Nat) : List (Option (List Nat)) :=
    (List.range c.tileCount).map (fun p =>
      let xs := addLast (c.coordsAt si p) x
      if insideObj d xs then some xs else none)
  match c.instr with
  | .fetchIx .. =>
    c.dest.flatMap (fun x => if bitAt x 31 then List.replicate c.tileCount none else one x)
  | _ => one 0

/-- The linear indices of the elements that the positions name. -/
def linears (d : BitVec 512) (ps : List (Option (List Nat))) : List Nat := ps.filterMap (Option.map (linearOf (dExts d)))

/-- The positions of a two-object pool command where both elements exist (R211). -/
def Cmd.pairs (c : Cmd) (dDst dSrc : BitVec 512) : List (Option (List Nat × List Nat)) :=
  ((c.positions dDst c.si).zip (c.positions dSrc c.sy)).map (fun x =>
    match x with
    | (some a, some b) => some (a, b)
    | _ => none)

/-- The linear indices of token block j of a step cache (R165). -/
def blockLinears (d : BitVec 512) (j : Nat) : List Nat :=
  let n := dExt d 0 * dExt d 1
  (List.range n).map (fun i => j * n + i)

/-- The object elements that a command reads, by object (R217); `dOf` gives descriptors. -/
def Cmd.reads (c : Cmd) (dOf : DWord → BitVec 512) : List (DWord × List Nat) :=
  if c.off then []
  else
    match c.instr with
    | .fetch .. | .fetchIx .. => [(c.ha, linears (dOf c.ha) (c.positions (dOf c.ha) c.si))]
    | .fetchStep .. =>
      [(c.ha, linears (dOf c.ha) (c.positions (dOf c.ha) c.si)), (c.g.inH, blockLinears (dOf c.g.inH) c.sx.toNat)]
    | .sreuse .. => [(c.g.outH, blockLinears (dOf c.g.outH) (c.si.getD 0 0).toNat)]
    | .poolCmp .. =>
      let ps := (c.pairs (dOf c.ha) (dOf c.hb)).filterMap id
      [(c.ha, ps.map (fun x => linearOf (dExts (dOf c.ha)) x.1)), (c.hb, ps.map (fun x => linearOf (dExts (dOf c.hb)) x.2))]
    | .poolCopy .. | .poolRed .. =>
      [(c.hb, ((c.pairs (dOf c.ha) (dOf c.hb)).filterMap id).map (fun x => linearOf (dExts (dOf c.hb)) x.2))]
    | _ => []

/-- The object elements that a command writes, and whether an add lease suffices (R216). -/
def Cmd.writes (c : Cmd) (dOf : DWord → BitVec 512) : Option (List Nat × Bool) :=
  if c.off then none
  else
    match c.instr with
    | .put .. | .poolFill .. => some (linears (dOf c.ha) (c.positions (dOf c.ha) c.si), false)
    | .putAdd .. => some (linears (dOf c.ha) (c.positions (dOf c.ha) c.si), true)
    | .poolCopy .. | .poolRed .. =>
      some (((c.pairs (dOf c.ha) (dOf c.hb)).filterMap id).map (fun x => linearOf (dExts (dOf c.ha)) x.1),
        (match c.instr with | .poolRed .. => true | _ => false))
    | _ => none

/-- Whether a command writes an object (R221). -/
def Cmd.writesObj (c : Cmd) (h : DWord) : Bool :=
  !c.off && (match c.instr with | .put .. | .putAdd .. | .poolFill .. | .poolCopy .. | .poolRed .. => true | _ => false)
    && hObj c.ha == hObj h

/-- Whether a command is an `xcopy` (R221). -/
def Cmd.isXcopy (c : Cmd) : Bool := !c.off && (match c.instr with | .xcopy .. => true | _ => false)

/-- The descriptor that a handle resolves to as things stand, or zero. -/
def descNow (s : State) (who : Who) (h : DWord) : BitVec 512 :=
  match (resolve s who h 0).1 with
  | .ok d _ => d
  | _ => 0

/-- Whether a block has a read under way, past its race check, of an element of a range (R218). -/
def Block.readsRange (s : State) (b : Block) (h : DWord) (lo hi : Nat) : Bool :=
  b.loads.any (fun l => l.op == .elem && hObj l.handle == hObj h && lo ≤ l.index && l.index ≤ hi)
  || b.running.any (fun c =>
    (c.reads (descNow s (b.who c.eng.agent.code))).any (fun r => hObj r.1 == hObj h && r.2.any (fun i => lo ≤ i && i ≤ hi)))

/-- The checks of R85 on a descriptor at a level offset: DESCRIPTOR with the register's number, FORMAT with the code, or
ADDRESS_RANGE, of its element rows before its scale rows. -/
def descFault (d : BitVec 128) (n : Nat) (lv : Level) (off bound : Nat) : Option (Nat × Nat) :=
  if !tWellFormed d then some (cDESC, n)
  else if (fmtOf (tFmt d)).isNone then some (cFORMAT, tFmt d)
  else
    ((tBeyond d off bound).orElse (fun _ => tScaleBeyond d off bound)).map (fun o => (cRANGE, rangeInfo lv o))

end Sys2Proof.Machine
end

