-- ==== Sys2Proof/Machine/Leases.lean ====
section
/-! DEFINITION. Leases (R215-R219, R290-R292). -/

namespace Sys2Proof.Machine

/-- Whether two lease kinds exclude each other: all but two add leases (R215). -/
def excludes (add add' : Bool) : Bool := !(add && add')

/-- Whether a lease is of the block that makes a request. -/
def Lease.byAsker (l : Lease) (r : LeaseReq) : Bool := l.pkg == r.pkg && l.holder == r.holder

/-- Whether an open lease of another block bars a request (R215). -/
def leaseTaken (s : State) (r : LeaseReq) : Bool :=
  s.tb.leases.any (fun l => !l.byAsker r && hObj l.handle == hObj r.handle && overlaps l.lo l.hi r.lo r.hi && excludes l.add r.add)

/-- Whether an earlier waiting request of another block bars a request (R215). -/
def leaseBehind (earlier : List LeaseReq) (r : LeaseReq) : Bool :=
  earlier.any (fun q =>
    !(q.pkg == r.pkg && q.holder == r.holder) && hObj q.handle == hObj r.handle && overlaps q.lo q.hi r.lo r.hi && excludes q.add r.add)

/-- The blocks that stand in save slots. -/
def savedBlocks (s : State) : List Block := s.wo.saves.flatMap (·.blocks)

/-- Whether another block's read of the range is under way, be the block saved meanwhile or of another package (R218). -/
def leaseRead (s : State) (r : LeaseReq) : Bool :=
  (allBlocks s ++ savedBlocks s).any (fun b => !(r.pkg == s.pl.pkg && b.id == r.holder) && b.readsRange s r.handle r.lo r.hi)
  || s.tb.awayReads.any (fun x =>
    !(x.pkg == r.pkg && x.holder == r.holder) && hObj x.handle == hObj r.handle && overlaps x.lo x.hi r.lo r.hi)

/-- Whether a request may be granted, behind the given earlier ones (R215, R218). -/
def grantable (s : State) (earlier : List LeaseReq) (r : LeaseReq) : Bool :=
  !leaseTaken s r && !leaseBehind earlier r && !leaseRead s r

/-- The free lease-table entry with the lowest index (R290). -/
def freeEntry (s : State) : Nat :=
  let used := s.tb.leases.map (·.entry)
  ((List.range (used.length + 1)).find? (fun k => !used.contains k)).getD 0

/-- The generation of a lease-table entry (R290). -/
def entryGen (s : State) (k : Nat) : BitVec 16 := ((s.tb.leaseGen.find? (fun x => x.1 == k)).map (·.2)).getD 0

/-- A lease's identifier (R290). -/
def Lease.ident (l : Lease) : DWord := BitVec.ofNat 64 (l.entry + l.gen.toNat * 2 ^ 16)

/-- The number of a request from another package. -/
def LeaseReq.number (r : LeaseReq) : Nat := match r.frame with | some f => leNat (f.payload.take 8) | none => 0

/-- Open a lease: its identifier and the state with it (R290); `since` is the number of commands that its holder has dispatched. -/
def openLease (s : State) (r : LeaseReq) (since : Nat) : DWord × State :=
  let k := freeEntry s
  let l : Lease :=
    { entry := k, gen := entryGen s k, handle := r.handle, lo := r.lo, hi := r.hi, add := r.add, pkg := r.pkg, holder := r.holder,
      core := r.core, half := r.half, since := since, req := r.number }
  (l.ident, trackLeases { s with tb := { s.tb with leases := s.tb.leases ++ [l] } } r.handle)

/-- Whether the lease table is full (R290). -/
def leaseTableFull (s : State) : Bool := 16384 ≤ s.tb.leases.length + s.tb.leaseWait.length

/-- The body of a lease request to the home on another package (log 14). -/
def leaseBody (r : LeaseReq) (nowait : Bool) : List Byte :=
  blockBody wLease r.holder ++ leBytes 2 r.core.toNat ++ leBytes 1 (b2n r.half + 2 * b2n r.add + 4 * b2n nowait)
    ++ leBytes 8 r.lo ++ leBytes 8 r.hi

/-- A `lease` whose checks have passed, at its object's home on this package (R215, R291). -/
def leaseHere (r : LeaseReq) (nowait : Bool) (s : State) : Out :=
  if leaseTableFull s then strandTrap cFULL 0x0020 s
  else if grantable s s.tb.leaseWait r then
    let (v, s) := openLease s r s.blk.dispN
    doneB s (wrS s.blk r.sd v 0) 8
  else if nowait then strandTrap cLEASE r.handle s
  else waitS { s with tb := { s.tb with leaseWait := s.tb.leaseWait ++ [r] } } (.lease s.tb.leaseWait.length)

/-- The same at a home on another package: the request is sent, and a refusal traps; a grant completes the instruction where it arrives
(R290, R291; log 14); its required stamp is f. -/
def leaseAway (r : LeaseReq) (nowait : Bool) (f : DWord) (s : State) : Out :=
  let t := { s with blk := { s.blk with reply := none } }
  match s.blk.reply with
  | some bs => if replyValue bs 0 == 3 then strandTrap cFULL 0x0020 t else strandTrap cLEASE r.handle t
  | none =>
    match sendRequest s (hHome r.handle) opAtomic r.handle 0 none (leaseBody r nowait) with
    | some (rm, s) => waitS s (.leaseAway rm r.handle r.lo r.hi r.add r.sd f)
    | none => strandParks (some f) s r.handle true false (noPath opAtomic 0 [])

/-- `lease` (R215, R291): granted at once, refused with LEASE_CONFLICT, or entered among the waiting requests of the object's home. -/
def execLease (sd : SReg) (h : BitVec 4) (sa sb : SReg) (add nowait : Bool) (s : State) : Out :=
  let b := s.blk
  let lo := (rdS b sa).toNat
  let hi := (rdS b sb).toNat
  let hv := (b.hCell h).v
  withRegs [sa, sb] [] [sd] [] s
    (liveOthers [] [h] [] s
      (withTaint (taintS b sa ||| taintS b sb) s (fun f =>
        withHandle h f s (fun d s =>
          if !(dKind d == kTensor || dKind d == kStep) then strandTrap cKIND hv s
          else if !canWrite d b.world then strandTrap cRIGHTS hv s
          else if hi < lo || dCount d ≤ hi then badOperand hi s
          else if 16 ≤ (heldLeases s b.id).length then strandTrap cFULL 0x0021 s
          else
            let r : LeaseReq := ⟨hv, lo, hi, add, s.pl.pkg, b.id, b.core, b.half, sd, none⟩
            if hHome hv == s.pl.pkg.toNat then leaseHere r nowait s else leaseAway r nowait f s))))

/-- Whether the holder of a waiting request still waits for it, and no stall wire holds it (R291, R314); one of another package does until
it withdraws. -/
def leaseAwaited (s : State) (r : LeaseReq) : Bool :=
  r.frame.isSome
  || (match findBlock s r.holder with
      | some b => b.phase == .running && (match b.wait with | some (.lease _) => true | _ => false) && !stallWire s b
      | none => false)

/-- A frame that answers a request of another package with values (R360; log 14). -/
def replyFrame (s : State) (f : PeerFrame) (vs : List Nat) : State :=
  sendOn s f.port.toNat f.spkg.toNat opAtomicReply 0 f.handle f.offset (f.payload.take 8 ++ vs.flatMap (leBytes 16))

/-- LEASE_GRANT: the waiting request at place k is granted and its `lease` completes (R215, R291). -/
def execLeaseGrant (k : Nat) (s : State) : Out :=
  match s.tb.leaseWait[k]? with
  | none => .next s
  | some r =>
    if grantable s (s.tb.leaseWait.take k) r && leaseAwaited s r then
      let s := { s with tb := { s.tb with leaseWait := s.tb.leaseWait.eraseIdx k } }
      match r.frame, findBlock s r.holder with
      | some f, _ => let (v, s) := openLease s r 0; .next (replyFrame s f [1, v.toNat])
      | none, some b =>
        let (v, s) := openLease s r b.dispN
        .next (updBlock s r.holder (fun b => { wrS b r.sd v 0 with pc := b.pc + 8, wait := none }))
      | none, none => .next s
    else .next s

/-! ## At the home of another package's leases and reads (R217, R218, R290; log 14) -/

/-- The block that a request names behind its code. -/
def bodyBlock (bs : List Byte) : BId := ⟨leNat ((bs.drop 1).take 4), leNat ((bs.drop 5).take 4)⟩

/-- A lease request from another package. -/
def leaseFor (s : State) (f : PeerFrame) (bs : List Byte) : State :=
  let w := leNat ((bs.drop 11).take 1)
  let r : LeaseReq :=
    { handle := f.handle, lo := leNat ((bs.drop 12).take 8), hi := leNat ((bs.drop 20).take 8), add := bitAt w 1, pkg := f.spkg,
      holder := bodyBlock bs, core := BitVec.ofNat 12 (leNat ((bs.drop 9).take 2)), half := bitAt w 0, sd := 0, frame := some f }
  if leaseTableFull s then replyFrame s f [3]
  else if grantable s s.tb.leaseWait r then let (v, s) := openLease s r 0; replyFrame s f [1, v.toNat]
  else if bitAt w 2 then replyFrame s f [2]
  else { s with tb := { s.tb with leaseWait := s.tb.leaseWait ++ [r] } }

/-- A read of ranges by a block of another package: noted where no open lease bars it. -/
def readFor (s : State) (f : PeerFrame) (bs : List Byte) : State :=
  let id := bodyBlock bs
  let rs := (List.range ((bs.length - 17) / 16)).map (fun k =>
    (leNat ((bs.drop (17 + 16 * k)).take 8), leNat ((bs.drop (25 + 16 * k)).take 8)))
  if rs.any (fun r => leaseBarsRange s f.spkg id f.handle r.1 r.2) then replyFrame s f [0]
  else
    let xs := rs.map (fun r => (⟨f.spkg, id, leNat ((bs.drop 9).take 8), f.handle, r.1, r.2⟩ : AwayRead))
    replyFrame { s with tb := { s.tb with awayReads := s.tb.awayReads ++ xs } } f [1]

/-- Whether a lease is of a block of another package on a frame's object. -/
def Lease.ofFrame (l : Lease) (f : PeerFrame) (id : BId) : Bool := l.pkg == f.spkg && l.holder == id && hObj l.handle == hObj f.handle

/-- Close a block's leases on a frame's object and forget its reads there (R219). -/
def closeFor (s : State) (f : PeerFrame) (id : BId) : State :=
  let s := trackLeases (closeLeases s (fun l => l.ofFrame f id)) f.handle
  { s with tb := { s.tb with
      awayReads := s.tb.awayReads.filter (fun x => !(x.pkg == f.spkg && x.holder == id && hObj x.handle == hObj f.handle)) } }

/-- A request that ends leases or reads of another package's block, by its code: `unlease`, a withdrawn request, whose grant is closed if it
was under way, a completed read, or all that the block has on the object. -/
def endFor (s : State) (f : PeerFrame) (code : Nat) (bs : List Byte) : State :=
  let id := bodyBlock bs
  let s :=
    if code == wUnlease then
      let v := leDWord ((bs.drop 9).take 8)
      trackLeases (closeLeases s (fun l => l.ofFrame f id && l.ident == v)) f.handle
    else if code == wWithdraw then
      let n := leNat ((bs.drop 1).take 8)
      let s := trackLeases (closeLeases s (fun l => l.pkg == f.spkg && l.req == n)) f.handle
      { s with tb := { s.tb with leaseWait := s.tb.leaseWait.filter (fun r => !(r.pkg == f.spkg && r.number == n)) } }
    else if code == wReadDone then
      let n := leNat ((bs.drop 9).take 8)
      { s with tb := { s.tb with
          awayReads := s.tb.awayReads.filter (fun x =>
            !(x.pkg == f.spkg && x.holder == id && x.access == n && hObj x.handle == hObj f.handle)) } }
    else closeFor s f id
  replyFrame s f [1]

/-- Whether the block has an object write to h that is posted or outstanding (R221). -/
def Block.writesPosted (b : Block) (h : DWord) : Bool :=
  b.posted.any (fun p =>
    match p with
    | .sto _ h' _ _ _ _ _ _ => hObj h' == hObj h
    | .gate u => hObj u.handle == hObj h
    | _ => false)
  || b.loads.any (fun l => l.op.isAtomic && hObj l.handle == hObj h)

/-- Step 1 of R221: go on once the block's writes to h have completed, and, for `publish`, its `xcopy` commands; a held command
makes the handler's instruction illegal (R122). -/
def afterWrites (h : DWord) (xcopies : Bool) (s : State) (k : Out) : Out :=
  let b := s.blk
  let hit : Cmd → Bool := fun c => c.writesObj h || (xcopies && c.isXcopy)
  if b.frozen && b.queued.any hit then badOperand 0 s
  else if b.cmds.any hit || b.writesPosted h then waitS s .writes
  else k

/-- `unlease` (R219, R292), at the object's home. -/
def execUnlease (h : BitVec 4) (sa : SReg) (s : State) : Out :=
  let b := s.blk
  let v := rdS b sa
  let hv := (b.hCell h).v
  let f := b.reqStamp (b.accessT (taintS b sa))
  let names : Lease → Bool := fun l => l.heldBy s b.id && hObj l.handle == hObj hv && l.ident == v
  withRegs [sa] [] [] [] s
    (liveOthers [] [h] [] s
      (withHandle h f s (fun _ s =>
        if !(heldLeases s b.id).any names then strandTrap cOPERAND v s
        else
          afterWrites hv false s
            (if hHome hv == s.pl.pkg.toNat then doneS (trackLeases (closeLeases s names) hv) 8
             else
               match s.blk.reply with
               | none => strandAsksFor true false (some f) s (hHome hv) opAtomic hv 0 none (blockBody wUnlease b.id ++ leBytes 8 v.toNat)
               | some _ =>
                 doneB { s with tb := { s.tb with away := s.tb.away.filter (fun l => !names l) } } { s.blk with reply := none } 8))))

end Sys2Proof.Machine
end

