-- ==== Sys2Proof/Machine/Counters.lean ====
section
/-! DEFINITION. Time, turns, barriers, versions, monitors and watches as the strand uses them (R303, R305-R308, R319-R329). -/

namespace Sys2Proof.Machine

/-! ## Time and turns -/

/-- A read of device time: it has advanced by an amount that the spec leaves open, and never decreases (R303, R305; log 3). -/
def readTime (s : State) : DWord × State :=
  let t := BitVec.ofNat 64 (min (s.tm.dtime.toNat + Config.elapsed s.fresh) (2 ^ 64 - 1))
  (t, { s with fresh := s.fresh + 1, tm := { s.tm with dtime := t } })

/-- `tick` (R305). -/
def execTick (sd : SReg) (s : State) : Out :=
  withRegs [] [] [sd] [] s
    (let (t, s) := readTime s
     doneB s (putS s.blk sd t 0) 4)

/-- A dependence counter (R325). -/
def depCounter (s : State) (i : Nat) : Nat := ((s.tm.dc.find? (fun x => x.1 == i)).map (·.2)).getD 0

/-- Set a dependence counter, saturating at 4,096 (R325). -/
def setDep (s : State) (i v : Nat) : State :=
  { s with tm := { s.tm with dc := (i, min v 4096) :: s.tm.dc.filter (fun x => x.1 != i) } }

/-- A function's range of dependence counters: CBASE and CCOUNT (R298). -/
def depRange (s : State) (fn : BitVec 6) : Nat × Nat :=
  let w := hubWord s 4 fn.toNat 0
  (bits w 0 12, bits w 12 13)

/-- `tick.dc` (R325). -/
def execTickDc (sd sa : SReg) (s : State) : Out :=
  let b := s.blk
  let i := (rdS b sa).toNat
  let (base, n) := depRange s b.fn
  withRegs [sa] [] [sd] [] s
    (if base ≤ i && i < base + n then doneB s (putS b sd (BitVec.ofNat 64 (depCounter s i)) 0) 4 else badOperand i s)

/-- The launch of the running block. -/
def ownLaunch (s : State) : Option Launch := findLaunch s s.blk.id.launch

/-- The turn of the block: GTURN in a locked gang and PTURN otherwise (R308). -/
def blockTurn (s : State) : DWord :=
  match ownLaunch s with
  | some l => if l.locked then l.gturn else (partOf s s.blk.part).pturn
  | none => (partOf s s.blk.part).pturn

/-- `turn` (R308). -/
def execTurn (sd : SReg) (s : State) : Out :=
  withRegs [] [] [sd] [] s (doneB s (putS s.blk sd (blockTurn s) 0) 4)

/-- `turnw` (R308). -/
def execTurnw (sa : SReg) (s : State) : Out :=
  withRegs [sa] [] [] [] s (if (rdS s.blk sa).toNat ≤ (blockTurn s).toNat then doneS s 4 else waitS s .turn)

/-! ## Barriers (R319, R320) -/

/-- The extent level of a locked gang of n blocks (R21). -/
def extentScope (n : Nat) : Scope := if n ≤ 4 then .quad else if n ≤ 256 then .clus else if n ≤ 1024 then .die else .pkg

/-- Whether the block may name a scope in a barrier (R20, R21). -/
def scopeAllowed (s : State) (sc : Scope) : Bool :=
  sc == .core
    || (match ownLaunch s with
        | some l => l.locked && sc.code ≤ (extentScope l.record.blocks).code
        | none => false)

/-- The unit of a scope that holds a core (R14). -/
def unitOf (sc : Scope) (c : Core) : Nat :=
  match sc with
  | .lane | .core => c.toNat
  | .quad => c.toNat / 4
  | .clus => c.toNat / 256
  | .die => c.toNat / 1024
  | .pkg | .pod => 0

/-- Whether a block still lives as a member of its gang (R319). -/
def Block.alive (b : Block) : Bool :=
  b.phase == .running || b.phase == .parked || b.phase == .saved || b.phase == .held || b.phase == .exited || b.phase == .ending

/-- The live members of an instance (R319). -/
def membersOf (s : State) (launch : Nat) (sc : Scope) (unit : Nat) : List Block :=
  (allBlocks s).filter (fun b => b.id.launch == launch && b.alive && unitOf sc b.core == unit)

/-- The counter of an instance, COUNT 0 and PHASE 0 when it has not been used. -/
def barrierOf (s : State) (launch : Nat) (sc : Scope) (unit : Nat) : Barrier :=
  (s.dp.barriers.find? (fun x => x.launch == launch && x.scope == sc.code && x.unit == unit)).getD
    ⟨launch, sc.code, unit, 0, false⟩

/-- Replace the counter of an instance. -/
def setBarrier (s : State) (x : Barrier) : State :=
  let rest := s.dp.barriers.filter (fun y => !(y.launch == x.launch && y.scope == x.scope && y.unit == x.unit))
  { s with dp := { s.dp with barriers := x :: rest } }

/-- The members that have arrived for the present phase. -/
def arrivedOf (ms : List Block) (sc : Scope) (phase : Bool) : Nat :=
  (ms.filter (fun b => b.arrPend.getLsbD sc.code && b.arrPhase.getLsbD sc.code == phase)).length

/-- Bring an instance's COUNT up to date: it changes phase when every live member has arrived (R319, R320). -/
def settleBarrier (s : State) (launch : Nat) (sc : Scope) (unit : Nat) : State :=
  let x := barrierOf s launch sc unit
  let ms := membersOf s launch sc unit
  let n := arrivedOf ms sc x.phase
  if n == ms.length && n != 0 then setBarrier s { x with count := 0, phase := !x.phase } else setBarrier s { x with count := n }

/-- Set or clear a scope's PEND. -/
def Block.setPend (b : Block) (sc : Scope) (v : Bool) : Block :=
  { b with arrPend := if v then b.arrPend ||| ((1 : BitVec 8) <<< sc.code) else b.arrPend &&& ~~~((1 : BitVec 8) <<< sc.code) }

/-- Set a scope's MYPH. -/
def Block.setPhase (b : Block) (sc : Scope) (v : Bool) : Block :=
  { b with
    arrPhase := if v then b.arrPhase ||| ((1 : BitVec 8) <<< sc.code) else b.arrPhase &&& ~~~((1 : BitVec 8) <<< sc.code) }

/-- The arrival of the block at its instance: its covered accesses are performed first (R320). -/
def arriveAt (s : State) (sc : Scope) : State :=
  let s := performStores s
  let b := s.blk
  let x := barrierOf s b.id.launch sc (unitOf sc b.core)
  let s := { s with blk := (b.setPend sc true).setPhase sc x.phase }
  settleBarrier s b.id.launch sc (unitOf sc b.core)

/-- `arrive` (R320): the block's atomics are covered accesses, so it waits for them. -/
def execArrive (sc : Scope) (s : State) : Out :=
  if !scopeAllowed s sc then strandTrap cSCOPE (BitVec.ofNat 64 sc.code) s
  else if s.blk.arrPend.getLsbD sc.code then badOperand sc.code s
  else if s.blk.atomicsOut then waitS s .writes
  else doneS (arriveAt s sc) 4

/-- Whether the phase of the block's instance has changed since its arrival. -/
def phasePassed (s : State) (sc : Scope) : Bool :=
  (barrierOf s s.blk.id.launch sc (unitOf sc s.blk.core)).phase != s.blk.arrPhase.getLsbD sc.code

/-- `bwait` (R320): the instance is brought up to date first, since a member that was terminated counts as arrived (R319, R330). -/
def execBwait (sc : Scope) (s : State) : Out :=
  if !scopeAllowed s sc then strandTrap cSCOPE (BitVec.ofNat 64 sc.code) s
  else if !s.blk.arrPend.getLsbD sc.code && s.blk.atomicsOut then waitS s .writes
  else
    let s := if s.blk.arrPend.getLsbD sc.code then settleBarrier s s.blk.id.launch sc (unitOf sc s.blk.core) else arriveAt s sc
    if phasePassed s sc then doneB s (s.blk.setPend sc false) 4 else waitS s .barrier

/-! ## Versions (R221-R224, R322-R324) -/

/-- The checks of `publish`, `subscribe` and `ver` on kind and rights: the cause (R322-R324). -/
def versionFault (d : BitVec 512) (world : BitVec 14) (any write : Bool) : Option Nat :=
  if !(any || dKind d == kTensor || dKind d == kStep || dKind d == kCounter) then some cKIND
  else if write then (if canWrite d world then none else some cRIGHTS)
  else if canRead d world then none else some cRIGHTS

/-- Raise an object's version at its home and stamp it, after merging a carried clock (R220, R221): the version and the stamp. -/
def publishHere (s : State) (h f : DWord) (v : Nat → Nat) : Except Meet (DWord × DWord × State) :=
  match readDesc s (hIndex h) with
  | .error m => .error m
  | .ok d =>
    let s := mergeClock s f
    let s := { s with tm := { s.tm with pclk := s.tm.pclk + 1 } }
    let v' := v (dVersion d) % 2 ^ 64
    let s := writeDesc s (hIndex h) (dSetWord (dSetWord d 5 v') 6 s.tm.pclk.toNat)
    .ok (BitVec.ofNat 64 v', s.tm.pclk, s)

/-- Close the block's leases on an object; the home on another package has closed its own. -/
def closeOwn (s : State) (h : DWord) : State :=
  let mine (l : Lease) : Bool := l.heldBy s s.blk.id && hObj l.handle == hObj h
  let s := trackLeases (closeLeases s mine) h
  { s with tb := { s.tb with away := s.tb.away.filter (fun l => !mine l) } }

/-- Steps 2 and 3 of R221 once the version and stamp are known. -/
def publishDone (sd : SReg) (h v stamp : DWord) (s : State) : Out :=
  let s := closeOwn s h
  let b := { s.blk with floor := maxStamp s.blk.floor stamp, reply := none }
  doneB s (wrS b sd v 0) 8

/-- `publish` (R221, R322). -/
def execPublish (sd : SReg) (h : BitVec 4) (s : State) : Out :=
  let hv := (s.blk.hCell h).v
  withRegs [] [] [sd] [] s
    (match s.blk.reply with
     | some bs => publishDone sd hv (BitVec.ofNat 64 (replyValue bs 0)) (replyStamp bs) s
     | none =>
       liveOthers [] [h] [] s
         (withTaint 0 s (fun f =>
           withHandle h f s (fun d s =>
             unlessCause (versionFault d s.blk.world false true) hv s
               (afterWrites hv true s
                 (let s := performStores s
                  if hHome hv != s.pl.pkg.toNat then strandAsksFor true false (some f) s (hHome hv) opPublish hv 0 none (blockBody wClose s.blk.id)
                  else
                    match publishHere s hv f (· + 1) with
                    | .error m => strandParks (some f) s hv true false m
                    | .ok (v, st, s) => publishDone sd hv v st s))))))

/-- Record a subscription (R222, R323). -/
def Block.subscribe (b : Block) (h : DWord) : Block := if subscribed b h then b else { b with subs := b.subs ++ [h] }

/-- The end of `subscribe`: it returns once the version is at least v, and waits otherwise (R222). -/
def subscribeDone (sd : SReg) (h v ver stamp : DWord) (s : State) : Out :=
  if ver.toNat < v.toNat then waitS { s with blk := { s.blk with reply := none } } .subscribe
  else
    let b := { s.blk with floor := maxStamp s.blk.floor stamp, reply := none }
    doneB s (wrS (b.subscribe h) sd ver 0) 8

/-- `subscribe` (R222, R323). -/
def execSubscribe (sd : SReg) (h : BitVec 4) (sa : SReg) (s : State) : Out :=
  let hv := (s.blk.hCell h).v
  let v := rdS s.blk sa
  let t := taintS s.blk sa
  withRegs [sa] [] [sd] [] s
    (match s.blk.reply with
     | some bs => subscribeDone sd hv v (BitVec.ofNat 64 (replyValue bs 0)) (BitVec.ofNat 64 (replyValue bs 1)) s
     | none =>
       liveOthers [] [h] [] s
         (withTaint t s (fun f =>
           withHandle h f s (fun d s =>
             unlessCause (versionFault d s.blk.world false false) hv s
               (if !subscribed s.blk hv && 32 ≤ s.blk.subs.length then strandTrap cFULL 0x0040 s
                else if hHome hv != s.pl.pkg.toNat then
                  strandAsks (some f) s (hHome hv) opAtomic hv 0 none (atomicBody .version 0 0 0)
                else
                  match readDesc s (hIndex hv) with
                  | .error m => strandParks (some f) s hv false false m
                  | .ok d => subscribeDone sd hv v (BitVec.ofNat 64 (dVersion d)) (BitVec.ofNat 64 (dStamp d)) (mergeClock s f))))))

/-- `ver` (R324): an object load of the home copy's version. -/
def execVer (sd : SReg) (h : BitVec 4) (s : State) : Out :=
  let hv := (s.blk.hCell h).v
  withRegs [] [] [sd] [] s
    (liveOthers [] [h] [] s
      (withHandle h (s.blk.reqStamp (s.blk.accessT 0)) s (fun d s =>
        unlessCause (versionFault d s.blk.world true false) hv s (issue .version sd hv 0 0 0 0 s))))

/-! ## Monitors and watches (R326-R329) -/

/-- A monitored read: it returns a value that differs, and the strand waits on otherwise (R326). -/
def monitorRead (addr : Nat) (v b : DWord) (s : State) (done : Block → Out) : Out :=
  if v == b then waitS { s with blk := { s.blk with monitor := some addr, reply := none } } (.monitor addr)
  else done { s.blk with monitor := none, reply := none }

/-- `mwait` on an on-chip word (R326); each read is a load, behind the strand's earlier stores to its banks (R228). -/
def mwaitLevel (sd : SReg) (lv : Level) (sa : SReg) (imm : BitVec 18) (sb : SReg) (s : State) : Out :=
  let b := s.blk
  let a := immAddr b sa imm
  withRegs [sa, sb] [] [sd] [] s
    (checked (accessFault s lv a 8) s (covered lv s
      (let addr := levelAddr s b lv a
       let s := performStoresTo s lv addr 8
       let v := leDWord (Memory.chip s.mem addr 8)
       monitorRead addr v (rdS b sb) s (fun b' => doneB s (wrS b' sd v (taintS b sa)) 8))))

/-- Whether an atomic of the block on element i of an object is still to be performed: a later read of the word waits for it (R228). -/
def Block.atomicOn (b : Block) (h : DWord) (i : Nat) : Bool :=
  b.loads.any (fun l => l.op.isAtomic && hObj l.handle == hObj h && l.index == i)

/-- `mwait` on a counter object word (R326). -/
def mwaitObject (sd : SReg) (h : BitVec 4) (sa : SReg) (imm : BitVec 18) (sb : SReg) (s : State) : Out :=
  let b := s.blk
  let t := taintS b sa ||| taintS b sb
  let hv := (b.hCell h).v
  withRegs [sa, sb] [] [sd] [] s
    (liveOthers [] [h] [] s
      (withTaint t s (fun f =>
        withHandle h f s (fun d s =>
          unlessCause (loadRightsFault .counterRead d b.world) hv s
            (withIndex (elemIndex b sa imm) d s (fun i =>
              let addr := counterAddr d i
              let give (v stamp : DWord) (s : State) : Out :=
                monitorRead addr v (rdS b sb) s (fun b' => doneB s (b'.taggedResult sd v t stamp) 8)
              if s.blk.atomicOn hv i then waitS s .writes
              else match s.blk.reply with
              | some bs => give (BitVec.ofNat 64 (replyValue bs 0)) (replyStamp bs) s
              | none =>
                if hHome hv != s.pl.pkg.toNat then
                  strandAsks (some f) s (hHome hv) opAtomic hv (8 * i) none (atomicBody .counterRead i 0 0)
                else
                  let s := mergeClock s f
                  give (BitVec.ofNat 64 (counterRead s d i)) s.tm.pclk s))))))

/-- `mwait` (R326). -/
def execMwait (sd : SReg) (loc : MwaitLoc) (sa : SReg) (imm : BitVec 18) (sb : SReg) (s : State) : Out :=
  match loc with
  | .level lv => mwaitLevel sd lv sa imm sb s
  | .object h => mwaitObject sd h sa imm sb s

/-- The watch-table entry n of a partition, by its number among all entries (R299). -/
def watchNo (part : BitVec 4) (n : Nat) : Nat := 256 * part.toNat + n

/-- Whether a watch entry is armed (R299). -/
def watchArmed (s : State) (part : BitVec 4) (n : Nat) : Bool := bitAt (hubWord s 5 (watchNo part n) 2) 63

/-- The object checks 3 to 6 of `watch` (R327): the cause and detail. -/
def watchFault (s : State) (h : DWord) (d : BitVec 512) (i : Int) : Option (Nat × DWord) :=
  if !(dKind d == kCounter || (dKind d == kTensor && wordFormat (dFmt d))) then some (cKIND, h)
  else if !canRead d s.blk.world then some (cRIGHTS, h)
  else if i < 0 || (dCount d : Int) ≤ i then some (cOPERAND, BitVec.ofInt 64 i)
  else if dSaxis d != 15 || hHome h != s.pl.pkg.toNat || !(dRes d == 0 || dRes d == 1 || dRes d == 5) then some (cOPERAND, h)
  else none

/-- Whether the queue operand of `watch` is refused; reading the queue's record may stop (R282, R327 step 7). -/
def watchQueueBad (s : State) (v : Nat) : Except GuestStop Bool :=
  if bits v 6 2 != 0 || v / 2 ^ 16 != 0 then .ok true
  else (queueLook s s.blk.fn (bits v 8 8)).map (fun r => match r with | some r => !qProducer r | none => true)

/-- `watch` (R299, R327). -/
def execWatch (sd : SReg) (h : BitVec 4) (sa : SReg) (imm : BitVec 18) (sb : SReg) (s : State) : Out :=
  let b := s.blk
  let v := rdS b sb
  let i := elemIndex b sa imm
  let hv := (b.hCell h).v
  withRegs [sa, sb] [] [sd] [] s
    (liveOthers [] [h] [] s
      (withTaint (taintS b sa ||| taintS b sb) s (fun f =>
        withHandle h f s (fun d s =>
          match watchFault s hv d i with
          | some (cause, info) => strandTrap cause info s
          | none =>
            match watchQueueBad s v.toNat with
            | .error g => strandParks (some f) s 0 g.write false g.meet
            | .ok true => strandTrap cOPERAND v s
            | .ok false =>
              match (List.range 256).find? (fun n => !watchArmed s b.part n) with
              | none => strandTrap cFULL 0x0030 s
              | some n =>
                let e := watchNo b.part n
                let w := 2 ^ 63 + bits v.toNat 8 8 * 2 ^ 48 + bits v.toNat 0 6 * 2 ^ 42 + b.fn.toNat * 2 ^ 36
                let s := setHub (setHub (setHub s 5 e 0 hv) 5 e 1 (BitVec.ofInt 64 i)) 5 e 2 (BitVec.ofNat 64 w)
                doneB s (wrS s.blk sd (BitVec.ofNat 64 n) 0) 8))))

/-- Whether a firing of a watch entry is still to be appended: it has parked at its dispatcher, or stands behind one that has (R328). -/
def firingLeft (s : State) (e : Nat) : Bool :=
  s.dp.jobs.any (fun j => match j.work with | .fire e' _ _ => e' == e | _ => false)

/-- `unwatch` (R329): it waits until every firing of the entry is appended. -/
def execUnwatch (sa : SReg) (s : State) : Out :=
  let b := s.blk
  let v := rdS b sa
  withRegs [sa] [] [] [] s
    (let e := watchNo b.part v.toNat
     let w := hubWord s 5 e 2
     if v.toNat < 256 && bitAt w 63 && bits w 36 6 == b.fn.toNat then
       if firingLeft s e then waitS s .firing else doneS (setHub s 5 e 2 (BitVec.ofNat 64 (w % 2 ^ 63))) 8
     else strandTrap cOPERAND v s)

end Sys2Proof.Machine
end

