-- ==== Sys2Proof/Machine/Cells.lean ====
section
/-! DEFINITION. The cells of a core's, a cluster's and a die's stores: taken, scrubbed and put back (R103, R187, R260, R332). -/

namespace Sys2Proof.Machine

/-- Ranges of model addresses. -/
abbrev Ranges := List (Nat × Nat)

/-- Whether an address lies in one of the ranges. -/
def inRanges (rs : Ranges) (a : Nat) : Bool := rs.any (fun r => r.1 ≤ a && a < r.2)

/-- A core's scratchpad and accumulator file. -/
def coreRanges (c : Core) : Ranges := [(spAddr c 0, spAddr c 0 + 2 ^ 18), (accAddr c 0, accAddr c 0 + 2 ^ 16)]

/-- The cells and the empty words of ranges. -/
def takeCells (s : State) (rs : Ranges) : List Host.Cell × List Nat :=
  (s.mem.filter (fun c => inRanges rs c.1), s.empties.filter (fun w => inRanges rs (8 * w)))

/-- Make ranges zero and full (R187). -/
def scrubCells (s : State) (rs : Ranges) : State :=
  { s with
    mem := s.mem.filter (fun c => !inRanges rs c.1)
    empties := s.empties.filter (fun w => !inRanges rs (8 * w)) }

/-- Write cells and empty words back over ranges. -/
def putCells (s : State) (rs : Ranges) (cells : List Host.Cell) (empties : List Nat) : State :=
  let s := scrubCells s rs
  { s with
    mem := cells.foldl (fun m c => Memory.write m c.1 c.2) s.mem
    empties := empties.foldl (fun l w => insertSorted w l) s.empties }

/-! ## A victim saved to memory (R260) -/

/-- The number under which a saved victim's cells are kept. -/
def victimSlot (c : Core) : Nat := 2 ^ 16 + c.toNat

/-- Whether a slot holds what a world's victim on a core left in the stores. -/
def SaveSlot.isVictim (v : SaveSlot) (c : Core) (world : BitVec 14) : Bool := v.frame == victimSlot c && v.world == world

/-- Do something to the stores of a core as a saved victim has them: its background transfers move them, and not those of the core's present
block (R260). -/
def inSaved (s : State) (c : Core) (world : BitVec 14) (f : State → State) : State :=
  match s.wo.saves.find? (fun v => v.isVictim c world) with
  | none => f s
  | some v =>
    let rs := coreRanges c
    let (cells, empties) := takeCells s rs
    let s := f (putCells s rs v.cells v.empties)
    let (cells', empties') := takeCells s rs
    let keep (x : SaveSlot) : SaveSlot := if x.isVictim c world then { x with cells := cells', empties := empties' } else x
    putCells { s with wo := { s.wo with saves := s.wo.saves.map keep } } rs cells empties

end Sys2Proof.Machine
end

