-- ==== Sys2Proof/Machine/StepSeq.lean ====
section
/-! DEFINITION. `lend` (R90, R91, R164) and the timestep sequencer's strand instructions (R165-R172). -/

namespace Sys2Proof.Machine

/-! ## Moving banks -/

/-- Whether a bank's row is w. -/
def inBank (t : BitVec 4) (w : Nat) : Bool := w / 32 == t.toNat

/-- A bank's taint set (R91). -/
def Block.bankT (b : Block) (t : Nat) : Taint := (b.bankTaint[t]?).getD 0

/-- The union of the taint sets of a bank's rows (R91). -/
def Block.rowsT (b : Block) (t : BitVec 4) : Taint :=
  (List.range 32).foldl (fun x j => x ||| (b.wCell (BitVec.ofNat 9 (32 * t.toNat + j))).t) 0

/-- A bank moved to a side (R91): to the matrix side its dead rows become live, holding zero, and its set is the union of its
rows' sets; to the vector side each row takes the bank's set. -/
def Block.moveBank (b : Block) (t : BitVec 4) (vec : Bool) : Block :=
  let bit := (1 : BitVec 16) <<< t.toNat
  let set (c : Taint) : Vector WCell 512 := b.w.mapIdx (fun i x => if inBank t i then ⟨c, false⟩ else x)
  if vec then
    { b with bankSide := b.bankSide ||| bit, w := set (b.bankT t.toNat), bankTaint := b.bankTaint.setIfInBounds t.toNat 0 }
  else
    { b with bankSide := b.bankSide &&& ~~~bit, w := set 0, bankTaint := b.bankTaint.setIfInBounds t.toNat (b.rowsT t) }

/-- `lend` (R164). -/
def execLend (t : BitVec 4) (vec : Bool) (s : State) : Out :=
  let b := s.blk
  if !ownsBank b t.toNat then badOperand t.toNat s
  else if b.frozen && b.queued.any (fun c => c.namesBank t.toNat) then badOperand 0 s
  else if b.cmds.any (fun c => c.namesBank t.toNat) then waitS s .lend
  else if vectorSide b t.toNat == vec then doneS s 8
  else doneB s (b.moveBank t vec) 8

/-! ## Binding -/

/-- Whether a 32-bit pattern is a finite FP32 value not below -0 (R168). -/
def thetaOk (v : Nat) : Bool := bits v 23 8 != 255 && (!bitAt v 31 || bits v 0 31 == 0)

/-- The checks 3 to 8 of `sbind`: the cause and detail (R168). -/
def sbindFault (s : State) (hin hout : DWord) (din dout : BitVec 512) (th st : DWord) (maxskip : Nat) : Option (Nat × DWord) :=
  let w := s.blk.world
  if dKind din != kStep then some (cKIND, hin)
  else if dKind dout != kStep then some (cKIND, hout)
  else if !(canRead din w && canWrite din w) then some (cRIGHTS, hin)
  else if !canRead dout w then some (cRIGHTS, hout)
  else if dExt din 2 != dExt dout 2 then some (cOPERAND, BitVec.ofNat 64 (dExt dout 2))
  else if th.toNat / 2 ^ 32 != 0 then some (cOPERAND, th)
  else if st.toNat / 2 ^ 32 != 0 then some (cOPERAND, st)
  else if !thetaOk th.toNat then some (cOPERAND, th)
  else if !(1 ≤ maxskip && maxskip ≤ 255) then some (cOPERAND, BitVec.ofNat 64 maxskip)
  else none

/-- `sbind` (R168). -/
def execSbind (g : BitVec 3) (hin hout : BitVec 4) (sth sst : SReg) (maxskip : BitVec 18) (s : State) : Out :=
  let b := s.blk
  let th := rdS b sth
  let st := rdS b sst
  let vin := (b.hCell hin).v
  let vout := (b.hCell hout).v
  let f := b.reqStamp (b.accessT 0)
  withRegs [sth, sst] [] [] [] s
    (liveOthers [] [hin, hout] [] s
      (withHandle hin f s (fun din s =>
        withHandle hout f s (fun dout s =>
          match sbindFault s vin vout din dout th st maxskip.toNat with
          | some (cause, info) => strandTrap cause info s
          | none =>
            let b := s.blk
            if b.frozen && b.queued.any (fun c => c.namesBinding g) then badOperand 0 s
            else if b.cmds.any (fun c => c.namesBinding g) then waitS s .sbind
            else if (b.gCell g).queue.length != 0 then badOperand (b.gCell g).queue.length s
            else
              let x : GCell :=
                { inH := vin, outH := vout, theta := th.setWidth 32, step := st.setWidth 32,
                  maxskip := maxskip.setWidth 8, skipped := 0, decided := 0, inDesc := din, outDesc := dout, queue := [] }
              doneB s ((b.foldSet (taintS b sth ||| taintS b sst)).setG g x) 8))))

/-! ## Deciding -/

/-- Whether an `sgate` update of a token block of an object is still to be performed (R172). -/
def gatePending (s : State) (h : DWord) (j : Nat) : Bool :=
  (allBlocks s).any (fun b => b.posted.any (fun p =>
    match p with
    | .gate u => hObj u.handle == hObj h && u.j == j
    | _ => false))
  || s.pe.gateJobs.any (fun g => hObj g.frame.handle == hObj h && g.j == j)

/-- Whether the strand of another block has asked for the count of a token block, or may have (R169, R172): it has a request or an unused
reply, and the block's result stands first in one of its queues. -/
def gateClaimed (s : State) (me : BId) (h : DWord) (j : Nat) : Bool :=
  (allBlocks s).any (fun b =>
    b.id != me && (b.reply.isSome || (match b.wait with | some (.remote ..) => true | _ => false))
      && b.g.toList.any (fun x => hObj x.inH == hObj h && (match x.queue with | r :: _ => r.done && r.j == j | [] => false)))

/-- The request for an `sgate` update at IN's home, in parts of at most 4,096 bytes of the payload: the token block, the condition, MAXSKIP,
the length of the payload, and a part's place in it (R169; log 14). -/
def gateBodies (r : CmpResult) (maxskip : Byte) : List (List Byte) :=
  let n := r.x.length
  (List.range (max 1 (cdiv n 4096))).map (fun k =>
    leBytes 1 14 ++ leBytes 8 r.j ++ leBytes 1 (b2n r.cond) ++ [maxskip] ++ leBytes 8 n ++ leBytes 8 (4096 * k)
      ++ (r.x.drop (4096 * k)).take 4096)

/-- The decision of `sgate` with the count read at IN's home (R169); `post` says that the update is still to be made, and otherwise IN's home,
on another package, has made it. -/
def gateDone (post : Bool) (pd : PReg) (sj : SReg) (g : BitVec 3) (r : CmpResult) (rest : List CmpResult) (count : Nat) (s : State) : Out :=
  let b := s.blk
  let x := b.gCell g
  let skip := r.cond && count < x.maxskip.toNat
  let x := { x with
    queue := rest, decided := x.decided + 1, skipped := if skip then x.skipped + 1 else x.skipped }
  let u : Posted := .gate
    { addr := b.pc, g := g, handle := x.inH, j := r.j, count := count, skip := skip, x := if skip then [] else r.x,
      req := b.reqStamp (b.accessT 0), far := none, park := none, remote := none }
  let b := { (b.setG g x) with posted := if post then b.posted ++ [u] else b.posted, reply := none }
  doneB s (wrS (wrP b pd (condP skip) r.taint) sj (BitVec.ofNat 64 r.j) r.taint) 8

/-- `sgate` (R169). -/
def execSgate (pd : PReg) (sj : SReg) (g : BitVec 3) (s : State) : Out :=
  let b := s.blk
  let x := b.gCell g
  withRegs [] [] [sj] [pd] s
    (if x.inH == 0 || x.outH == 0 then strandTrap cINVALIDH 0 s
     else
       match x.queue with
       | [] => badOperand g.toNat s
       | r :: rest =>
         if !r.done then
           if b.frozen && b.queued.any (fun c => c.n == r.cmd) then badOperand 0 s else waitS s .sgate
         else if gatePending s x.inH r.j || (b.reply.isNone && gateClaimed s b.id x.inH r.j) then waitS s .stepUpdates
         else
           let away := hHome x.inH != s.pl.pkg.toNat
           match b.reply with
           | some bs => gateDone (!away) pd sj g r rest (replyValue bs 0) s
           | none =>
             withTaint 0 s (fun f =>
               resolveFor true x.inH f s (fun d _ s =>
                 if away then strandSends (some f) s (hHome x.inH) opAtomic x.inH (gateBodies r x.maxskip)
                 else
                   match objReadFrom true s (s.blk.who 0) x.inH d f 0 ((gateFields d r.j).drop 1) with
                   | (.ok vs _, s) => gateDone true pd sj g r rest (vs.getD 0 0) s
                   | (.park m, s) => strandParks (some f) s x.inH true false m
                   | (.peer pkg, s) =>
                     strandAsks (some f) s pkg opRead x.inH (sideBase d) none (fieldBody 0 ((gateFields d r.j).drop 1)))))

/-! ## Reading and advancing -/

/-- What `smap` returns for selectors 0 to 5 (R171). -/
def smapField (x : GCell) (k : Nat) : DWord :=
  match k with
  | 0 => x.inH
  | 1 => x.outH
  | 2 => x.theta.setWidth 64
  | 3 => x.step.setWidth 64
  | 4 => x.skipped ++ x.decided
  | _ => x.maxskip.setWidth 64

/-- The skip-map words of a binding's IN (R165). -/
def mapWords (x : GCell) : Nat := cdiv (stepBlocks x) 64

/-- `smap` (R171). An unbound binding has no token blocks, so that selector 6 finds every word beyond its map: the model's choice, since R87
names only `fetch.step`, `sgate` and `sreuse` (log 70). -/
def execSmap (sd : SReg) (g : BitVec 3) (sel : BitVec 18) (sa : SReg) (s : State) : Out :=
  let b := s.blk
  let x := b.gCell g
  if 7 ≤ sel.toNat then badOperand sel.toNat s
  else if sel.toNat < 6 then withRegs [] [] [sd] [] s (doneB s (putS b sd (smapField x sel.toNat) 0) 8)
  else
    withRegs [sa] [] [sd] [] s
      (let w := rdS b sa
       let t := taintS b sa
       if mapWords x ≤ w.toNat then strandTrap cOPERAND w s
       else
         resolveS x.inH (b.reqStamp (b.accessT t)) s (fun d _ s =>
           unlessCause (loadRightsFault (.skipWord w.toNat) d b.world) x.inH s (issue (.skipWord w.toNat) sd x.inH 0 0 0 t s)))

/-- The binding after `sstep` (R87, R171). -/
def GCell.advance (x : GCell) : GCell := { x with step := x.step + 1, skipped := 0, decided := 0 }

/-- The end of `sstep`. -/
def sstepDone (g : BitVec 3) (s : State) : Out :=
  let b := s.blk
  doneB s { (b.setG g (b.gCell g).advance) with reply := none } 8

/-- `sstep` (R171): IN's version is raised to the new STEP, where that is greater, and the object stamped. -/
def execSstep (g : BitVec 3) (s : State) : Out :=
  let b := s.blk
  let x := b.gCell g
  let next := x.advance.step.toNat
  if x.queue.length != 0 then badOperand x.queue.length s
  else if b.posted.any (fun p => match p with | .gate u => u.g == g | _ => false) then waitS s .stepUpdates
  else
    match b.reply with
    | some _ => sstepDone g s
    | none =>
      let f := b.reqStamp (b.accessT 0)
      resolveFor true x.inH f s (fun _ _ s =>
        if hHome x.inH != s.pl.pkg.toNat then strandAsksFor true false (some f) s (hHome x.inH) opPublish x.inH 0 none (leBytes 8 next)
        else
          match readDesc s (hIndex x.inH) with
          | .error m => strandParks (some f) s x.inH true false m
          | .ok d =>
            if dVersion d < next then
              match publishHere s x.inH f (fun _ => next) with
              | .error m => strandParks (some f) s x.inH true false m
              | .ok (_, _, s) => sstepDone g s
            else sstepDone g s)

end Sys2Proof.Machine
end

