-- ==== Sys2Proof/Machine/Vector.lean ====
section
/-! DEFINITION. The vector engine (R127-R150): the dispatch of each V command, and what a command does when it completes. -/

namespace Sys2Proof.Machine

/-! ## Dispatch of the V commands (R128) -/

/-- `vadd` (R135). -/
def execVadd (h : Hdr) (o : VaOp) (s : State) : Out := dispatchV none (.vadd h o) s
/-- `vsub` (R135). -/
def execVsub (h : Hdr) (o : VaOp) (s : State) : Out := dispatchV none (.vsub h o) s
/-- `vmul` (R135). -/
def execVmul (h : Hdr) (o : VaOp) (s : State) : Out := dispatchV none (.vmul h o) s
/-- `vfma` (R136). -/
def execVfma (h : Hdr) (o : VaOp) (s : State) : Out := dispatchV none (.vfma h o) s
/-- `vmax`, float and signed (R135). -/
def execVmax (h : Hdr) (o : VaOp) (s : State) : Out := dispatchV none (.vmax h o) s
/-- `vmin`, float and signed (R135). -/
def execVmin (h : Hdr) (o : VaOp) (s : State) : Out := dispatchV none (.vmin h o) s
/-- `vmax`, unsigned (R135). -/
def execVmaxN (h : Hdr) (o : VaOp) (s : State) : Out := dispatchV none (.vmaxN h o) s
/-- `vmin`, unsigned (R135). -/
def execVminN (h : Hdr) (o : VaOp) (s : State) : Out := dispatchV none (.vminN h o) s
/-- `vabs` (R137). -/
def execVabs (h : Hdr) (o : VaOp) (s : State) : Out := dispatchV none (.vabs h o) s
/-- `vneg` (R137). -/
def execVneg (h : Hdr) (o : VaOp) (s : State) : Out := dispatchV none (.vneg h o) s
/-- `vexp2` (R59, R138). -/
def execVexp2 (h : Hdr) (o : VaOp) (s : State) : Out := dispatchV none (.vexp2 h o) s
/-- `vrcp` (R138). -/
def execVrcp (h : Hdr) (o : VaOp) (s : State) : Out := dispatchV none (.vrcp h o) s
/-- `vrsqrt` (R138). -/
def execVrsqrt (h : Hdr) (o : VaOp) (s : State) : Out := dispatchV none (.vrsqrt h o) s
/-- `vand` (R135). -/
def execVand (h : Hdr) (o : VaOp) (s : State) : Out := dispatchV none (.vand h o) s
/-- `vor` (R135). -/
def execVor (h : Hdr) (o : VaOp) (s : State) : Out := dispatchV none (.vor h o) s
/-- `vxor` (R135). -/
def execVxor (h : Hdr) (o : VaOp) (s : State) : Out := dispatchV none (.vxor h o) s
/-- `vshl` (R135). -/
def execVshl (h : Hdr) (o : VaOp) (s : State) : Out := dispatchV none (.vshl h o) s
/-- `vshr` (R135). -/
def execVshr (h : Hdr) (o : VaOp) (s : State) : Out := dispatchV none (.vshr h o) s
/-- `vsar` (R135). -/
def execVsar (h : Hdr) (o : VaOp) (s : State) : Out := dispatchV none (.vsar h o) s
/-- `vsel` (R140). -/
def execVsel (h : Hdr) (o : VaOp) (s : State) : Out := dispatchV none (.vsel h o) s
/-- `vcmp.eq` (R139). -/
def execVcmpEq (h : Hdr) (o : VaOp) (s : State) : Out := dispatchV none (.vcmpEq h o) s
/-- `vcmp.ne` (R139). -/
def execVcmpNe (h : Hdr) (o : VaOp) (s : State) : Out := dispatchV none (.vcmpNe h o) s
/-- `vcmp.lt`, float and signed (R139). -/
def execVcmpLt (h : Hdr) (o : VaOp) (s : State) : Out := dispatchV none (.vcmpLt h o) s
/-- `vcmp.ge`, float and signed (R139). -/
def execVcmpGe (h : Hdr) (o : VaOp) (s : State) : Out := dispatchV none (.vcmpGe h o) s
/-- `vcmp.lt`, unsigned (R139). -/
def execVcmpLtN (h : Hdr) (o : VaOp) (s : State) : Out := dispatchV none (.vcmpLtN h o) s
/-- `vcmp.ge`, unsigned (R139). -/
def execVcmpGeN (h : Hdr) (o : VaOp) (s : State) : Out := dispatchV none (.vcmpGeN h o) s
/-- `vred.add`, float and signed (R141). -/
def execVredAdd (h : Hdr) (o : VaOp) (s : State) : Out := dispatchV none (.vredAdd h o) s
/-- `vred.add`, unsigned (R141). -/
def execVredAddN (h : Hdr) (o : VaOp) (s : State) : Out := dispatchV none (.vredAddN h o) s
/-- `vred.max`, float and signed (R141). -/
def execVredMax (h : Hdr) (o : VaOp) (s : State) : Out := dispatchV none (.vredMax h o) s
/-- `vred.min`, float and signed (R141). -/
def execVredMin (h : Hdr) (o : VaOp) (s : State) : Out := dispatchV none (.vredMin h o) s
/-- `vred.max`, unsigned (R141). -/
def execVredMaxN (h : Hdr) (o : VaOp) (s : State) : Out := dispatchV none (.vredMaxN h o) s
/-- `vred.min`, unsigned (R141). -/
def execVredMinN (h : Hdr) (o : VaOp) (s : State) : Out := dispatchV none (.vredMinN h o) s
/-- `vmov` (R137). -/
def execVmov (h : Hdr) (o : VaOp) (s : State) : Out := dispatchV none (.vmov h o) s
/-- `vadd.sat`, signed (R135). -/
def execVaddSat (h : Hdr) (o : VaOp) (s : State) : Out := dispatchV none (.vaddSat h o) s
/-- `vadd.sat`, unsigned (R135). -/
def execVaddSatN (h : Hdr) (o : VaOp) (s : State) : Out := dispatchV none (.vaddSatN h o) s
/-- `vsub.sat`, signed (R135). -/
def execVsubSat (h : Hdr) (o : VaOp) (s : State) : Out := dispatchV none (.vsubSat h o) s
/-- `vsub.sat`, unsigned (R135). -/
def execVsubSatN (h : Hdr) (o : VaOp) (s : State) : Out := dispatchV none (.vsubSatN h o) s
/-- `vld` (R149). -/
def execVld (h : Hdr) (off : BitVec 15) (sa : SReg) (wd : WReg) (s : State) : Out := dispatchV none (.vld h off sa wd) s
/-- `vst` (R149). -/
def execVst (h : Hdr) (dead : Bool) (off : BitVec 15) (sa : SReg) (ws : WReg) (s : State) : Out :=
  dispatchV none (.vst h dead off sa ws) s
/-- `vcvt` (R145). -/
def execVcvt (h : Hdr) (dead : Bool) (part : BitVec 2) (sf df : BitVec 5) (wa wd : WReg) (s : State) : Out :=
  dispatchV none (.vcvt h dead part sf df wa wd) s
/-- `vbcast` (R142). -/
def execVbcast (h : Hdr) (t : ElemT) (sa : SReg) (wd : WReg) (s : State) : Out := dispatchV none (.vbcast h t sa wd) s
/-- `vxset` (R146). -/
def execVxset (h : Hdr) (dead : Bool) (wa : WReg) (c : BitVec 3) (s : State) : Out := dispatchV none (.vxset h dead wa c) s
/-- `vperm` (R147). -/
def execVperm (h : Hdr) (dead : Bool) (t : ElemT) (c : BitVec 3) (wa wd : WReg) (s : State) : Out :=
  dispatchV none (.vperm h dead t c wa wd) s
/-- `vtopk` (R148). -/
def execVtopk (h : Hdr) (dead : Bool) (t : ElemT) (k : BitVec 8) (wa wd : WReg) (s : State) : Out :=
  dispatchV none (.vtopk h dead t k wa wd) s
/-- `vext` (R143). -/
def execVext (h : Hdr) (dead : Bool) (t : ElemT) (lane : BitVec 7) (wa : WReg) (sd : SReg) (s : State) : Out :=
  dispatchV none (.vext h dead t lane wa sd) s
/-- `vins` (R144). -/
def execVins (h : Hdr) (t : ElemT) (lane : BitVec 7) (sa : SReg) (wd : WReg) (s : State) : Out :=
  dispatchV none (.vins h t lane sa wd) s

/-! ## Lanes -/

/-- The floating-point format of an element type (R127). -/
def elemFmt? : ElemT → Option FFmt
  | .f32 => some fp32 | .f16 => some fp16 | .bf16 => some bf16 | _ => none

/-- A value and its flags rounded to a format (R132). -/
def rounded (f : FFmt) (mode : RMode) (r : Val × Flags) : Nat × Flags :=
  let (c, fl) := roundTo f mode 0 r.1
  (c, r.2 ||| fl)

/-- A lane result in a float type (R135-R138): a, b and the former destination d. -/
def floatLane (i : Instr) (f : FFmt) (mode : RMode) (a b d : Nat) : Nat × Flags :=
  let x := f.decode a
  let y := f.decode b
  match i with
  | .vadd .. => rounded f mode (vAdd mode x y)
  | .vsub .. => rounded f mode (vAdd mode x (vNegate y))
  | .vmul .. => rounded f mode (vMul x y)
  | .vfma .. => rounded f mode (vFma mode x y (f.decode d))
  | .vmax .. => rounded f mode (vMaxMin true x y)
  | .vmin .. => rounded f mode (vMaxMin false x y)
  | .vabs .. => roundTo f mode 0 (vAbsolute x)
  | .vneg .. => roundTo f mode 0 (vNegate x)
  | .vexp2 .. => vExp2 x
  | .vrcp .. => vRcp mode x
  | .vrsqrt .. => vRsqrt mode x
  | _ => (a, 0)

/-- A lane result in an integer type of width w (R135, R137). -/
def intLane (i : Instr) (w a b : Nat) : Nat × Flags :=
  let ai := intVal true w a
  let bi := intVal true w b
  match i with
  | .vadd .. => (wrap w (ai + bi), 0)
  | .vsub .. => (wrap w (ai - bi), 0)
  | .vmul .. => (wrap w (ai * bi), 0)
  | .vmax .. => (if ai < bi then b else a, 0)
  | .vmin .. => (if bi < ai then b else a, 0)
  | .vmaxN .. => (max a b, 0)
  | .vminN .. => (min a b, 0)
  | .vabs .. => (wrap w (Int.natAbs ai), 0)
  | .vneg .. => (wrap w (-ai), 0)
  | .vand .. => (a &&& b, 0)
  | .vor .. => (a ||| b, 0)
  | .vxor .. => (a ^^^ b, 0)
  | .vshl .. => (if b < w then wrap w (a * 2 ^ b) else 0, 0)
  | .vshr .. => (if b < w then a / 2 ^ b else 0, 0)
  | .vsar .. => (wrap w (ai / (2 : Int) ^ min b w), 0)
  | .vaddSat .. => sat true w (ai + bi)
  | .vaddSatN .. => sat false w ((a : Int) + b)
  | .vsubSat .. => sat true w (ai - bi)
  | .vsubSatN .. => sat false w ((a : Int) - b)
  | _ => (a, 0)

/-- A lane result in the type of a command; `vmov` copies bit patterns. -/
def laneOp (i : Instr) (t : ElemT) (mode : RMode) (a b d : Nat) : Nat × Flags :=
  match i, elemFmt? t with
  | .vmov .., _ => (a, 0)
  | i, some f => floatLane i f mode a b d
  | i, none => intLane i (elemWidth t) a b

/-- A lane comparison with its flags (R139). -/
def laneCmp (i : Instr) (t : ElemT) (a b : Nat) : Bool × Flags :=
  let w := elemWidth t
  match elemFmt? t with
  | some f =>
    let x := f.decode a
    let y := f.decode b
    let nan := x.isNan || y.isNan
    let quiet := flagIf (x.snan || y.snan) fINVALID
    match i with
    | .vcmpEq .. => (!nan && vEqual x y, quiet)
    | .vcmpNe .. => (nan || !vEqual x y, quiet)
    | .vcmpLt .. => (!nan && vLess x y, flagIf nan fINVALID)
    | _ => (!nan && !vLess x y, flagIf nan fINVALID)
  | none =>
    match i with
    | .vcmpEq .. => (a == b, 0)
    | .vcmpNe .. => (a != b, 0)
    | .vcmpLt .. => (intVal true w a < intVal true w b, 0)
    | .vcmpGe .. => (intVal true w b ≤ intVal true w a, 0)
    | .vcmpLtN .. => (a < b, 0)
    | _ => (b ≤ a, 0)

/-! ## Reductions (R58, R141) -/

/-- One level of the halving tree. -/
def halve (op : Nat → Nat → Nat × Flags) (xs : List Nat) : List Nat × Flags :=
  let h := xs.length / 2
  let rs := List.zipWith op (xs.take h) (xs.drop h)
  (rs.map (·.1), rs.foldl (fun f r => f ||| r.2) 0)

/-- The halving tree over 2^k lanes (R58). -/
def treeFold (op : Nat → Nat → Nat × Flags) : Nat → List Nat → Nat × Flags
  | 0, xs => (xs.headD 0, 0)
  | k + 1, xs =>
    let (ys, f) := halve op xs
    let (r, g) := treeFold op k ys
    (r, f ||| g)

/-- The identity of a float reduction (R58). -/
def redIdentity (i : Instr) (f : FFmt) : Nat :=
  match i with
  | .vredAdd .. => f.withSign true 0
  | .vredMax .. => f.withSign true f.infCode
  | _ => f.withSign false f.infCode

/-- A step of a float reduction. -/
def redStep (i : Instr) (f : FFmt) (mode : RMode) (a b : Nat) : Nat × Flags :=
  match i with
  | .vredAdd .. => rounded f mode (vAdd mode (f.decode a) (f.decode b))
  | .vredMax .. => rounded f mode (vMaxMin true (f.decode a) (f.decode b))
  | _ => rounded f mode (vMaxMin false (f.decode a) (f.decode b))

/-- An integer reduction over the on lanes (R58, R141). -/
def intReduce (i : Instr) (w : Nat) (xs : List Nat) : Nat × Flags :=
  let signed := xs.map (intVal true w)
  match i with
  | .vredAdd .. => sat true w (signed.foldl (· + ·) 0)
  | .vredAddN .. => sat false w ((xs.foldl (· + ·) 0 : Nat) : Int)
  | .vredMax .. => (wrap w (signed.foldl max (intMin true w)), 0)
  | .vredMin .. => (wrap w (signed.foldl min (intMax true w)), 0)
  | .vredMaxN .. => (xs.foldl max 0, 0)
  | _ => (xs.foldl min (2 ^ w - 1), 0)

/-- The value of a reduction: the lanes with their mask bits (R141). -/
def reduce (i : Instr) (t : ElemT) (mode : RMode) (xs : List (Nat × Bool)) : Nat × Flags :=
  match elemFmt? t with
  | some f =>
    treeFold (redStep i f mode) (Nat.log2 xs.length) (xs.map (fun x => if x.2 then x.1 else redIdentity i f))
  | none => intReduce i (elemWidth t) ((xs.filter (·.2)).map (·.1))

/-! ## Ranking (R148) -/

/-- Whether lane value a ranks strictly before b in `vtopk`. -/
def ranksBefore (t : ElemT) (a b : Nat) : Bool :=
  match elemFmt? t with
  | some f =>
    let x := f.decode a
    let y := f.decode b
    !x.isNan && (y.isNan || vLess y x)
  | none => intVal true (elemWidth t) b < intVal true (elemWidth t) a

/-- Insert a candidate behind those that rank before it or equal it. -/
def rankInsert (t : ElemT) (c : Nat × Nat) : List (Nat × Nat) → List (Nat × Nat)
  | [] => [c]
  | x :: xs => if ranksBefore t c.2 x.2 then c :: x :: xs else x :: rankInsert t c xs

/-- The candidates in rank order: lane indices with their values, lower lane first among equals. -/
def ranked (t : ElemT) (xs : List (Nat × Nat)) : List (Nat × Nat) := xs.foldl (fun l c => rankInsert t c l) []

/-! ## Rows -/

/-- The lanes of a row. -/
def lanesOf (w : Nat) (bs : List Byte) : List Nat := unpackElems w (1024 / w) (leNat bs)

/-- The bytes of lanes. -/
def bytesOfLanes (w : Nat) (xs : List Nat) : List Byte := leBytes 128 (packElems w xs)

/-- The union of the taint sets of vector registers (R130). -/
def rowsTaint (b : Block) (ws : List WReg) : Taint := ws.foldl (fun t w => t ||| (b.wCell w).t) 0

/-- A vector register written by a V command (R91, R130): `kept` says that some byte keeps its former value. -/
def putRow (s : State) (w : WReg) (bs : List Byte) (t : Taint) (kept : Bool) : State :=
  let t := if kept then t ||| (s.blk.wCell w).t else t
  let s := wrRow s w bs
  { s with blk := s.blk.setW w ⟨t, false⟩ }

/-- A vector register made dead: its contents are lost and its taint set is empty (R95). -/
def killRow (s : State) (w : WReg) : State :=
  let s := wrRow s w (List.replicate 128 0)
  { s with blk := s.blk.setW w ⟨0, true⟩ }

/-- The vector register that a V command writes. -/
def vDestW (i : Instr) : Option WReg :=
  match vaOf? i with
  | some (_, .cmp) => none
  | some (o, _) => some o.wd
  | none =>
    match i with
    | .vld _ _ _ wd => some wd
    | .vcvt _ _ _ _ _ _ wd => some wd
    | .vbcast _ _ _ wd => some wd
    | .vperm _ _ _ _ _ wd => some wd
    | .vtopk _ _ _ _ _ wd => some wd
    | .vins _ _ _ _ wd => some wd
    | _ => none

/-- The vector sources whose dead mark is set (R66, R131, R159). -/
def deadMarks (i : Instr) : List WReg :=
  match vaOf? i with
  | some (o, _) => (if o.deadA then [o.wa] else []) ++ (if o.deadB then [o.wb] else [])
  | none =>
    match i with
    | .vst _ true _ _ ws => [ws]
    | .vcvt _ true _ _ _ wa _ => [wa]
    | .vxset _ true wa _ => [wa]
    | .vperm _ true _ _ wa _ => [wa]
    | .vtopk _ true _ _ wa _ => [wa]
    | .vext _ true _ _ wa _ => [wa]
    | .mmulG _ _ true wi => [wi]
    | _ => []

/-- The dead marks of a command that completes (R95, R131). -/
def applyMarks (i : Instr) (s : State) : State :=
  ((deadMarks i).filter (fun w => vDestW i != some w)).foldl killRow s

/-! ## Effects at completion -/

/-- Put results into on lanes; the other lanes keep their former values. -/
def maskLanes (mask : BitVec 128) (new old : List Nat) : List Nat :=
  (List.range old.length).map (fun k => if mask.getLsbD k then new.getD k 0 else old.getD k 0)

/-- Whether every one of n mask bits is on. -/
def allOn (mask : BitVec 128) (n : Nat) : Bool := (List.range n).all (fun k => mask.getLsbD k)

/-- The flags of the on lanes. -/
def laneFlags (mask : BitVec 128) (rs : List (Nat × Flags)) : Flags :=
  (List.range rs.length).foldl (fun f k => if mask.getLsbD k then f ||| (rs.getD k (0, 0)).2 else f) 0

/-- The element-wise commands of template VA (R135-R138). -/
def vLanewise (c : Cmd) (o : VaOp) (s : State) : Flags × State :=
  let b := s.blk
  let w := elemWidth o.t
  let n := elemLanes o.t
  let xa := lanesOf w (rdRow s o.wa)
  let xb := lanesOf w (rdRow s o.wb)
  let xd := lanesOf w (rdRow s o.wd)
  let mode := (RMode.of c.rm).arith
  let on : Nat → Bool := fun k => c.mask.getLsbD k
  let rs := (List.range n).map (fun k =>
    if on k then laneOp c.instr o.t mode (xa.getD k 0) (xb.getD k 0) (xd.getD k 0) else (0, 0))
  let t := rowsTaint b (vSources c.instr) ||| c.wtaint
  (laneFlags c.mask rs, putRow s o.wd (bytesOfLanes w (maskLanes c.mask (rs.map (·.1)) xd)) t (!allOn c.mask n))

/-- `vsel` (R140). -/
def vSelect (c : Cmd) (o : VaOp) (s : State) : Flags × State :=
  let w := elemWidth o.t
  let xs := maskLanes c.mask (lanesOf w (rdRow s o.wa)) (lanesOf w (rdRow s o.wb))
  (0, putRow s o.wd (bytesOfLanes w xs) (rowsTaint s.blk [o.wa, o.wb] ||| c.wtaint) false)

/-- `vcmp` (R139): the bits of on lanes, the former bits of off lanes, and zeros above. -/
def vCompare (c : Cmd) (o : VaOp) (s : State) : Flags × State :=
  let b := s.blk
  let w := elemWidth o.t
  let n := elemLanes o.t
  let xa := lanesOf w (rdRow s o.wa)
  let xb := lanesOf w (rdRow s o.wb)
  let pd : PReg := o.wd.setWidth 6
  let old := (b.pCell pd).v
  let rs := (List.range n).map (fun k => laneCmp c.instr o.t (xa.getD k 0) (xb.getD k 0))
  let v := (List.range n).foldl
    (fun a k => a + b2n (if c.mask.getLsbD k then (rs.getD k (false, 0)).1 else old.getLsbD k) * 2 ^ k) 0
  let f := laneFlags c.mask (rs.map (fun r => (0, r.2)))
  let t := rowsTaint b [o.wa, o.wb] ||| c.wtaint ||| (if allOn c.mask n then 0 else taintP b pd)
  (f, { s with blk := wrP b pd (BitVec.ofNat 128 v) t })

/-- `vred` (R141). -/
def vReduce (c : Cmd) (o : VaOp) (s : State) : Flags × State :=
  let w := elemWidth o.t
  let xa := lanesOf w (rdRow s o.wa)
  let lanes := (List.range xa.length).map (fun k => (xa.getD k 0, c.mask.getLsbD k))
  let (r, f) := reduce c.instr o.t (RMode.of c.rm).arith lanes
  (f, putRow s o.wd (bytesOfLanes w (List.replicate xa.length r)) (rowsTaint s.blk [o.wa] ||| c.wtaint) false)

/-- `vld` (R149). -/
def vLoad (c : Cmd) (wd : WReg) (s : State) : Flags × State :=
  let b := s.blk
  let old := rdRow s wd
  let bs := (List.range 128).map (fun k =>
    if c.mask.getLsbD k then (Memory.read s.mem (b.spA (c.vAddr + k))).getD 0 else old.getD k 0)
  (0, putRow s wd bs c.wtaint (!allOn c.mask 128))

/-- `vst` (R149). -/
def vStore (c : Cmd) (ws : WReg) (s : State) : Flags × State :=
  let b := s.blk
  let bs := rdRow s ws
  let m := (List.range 128).foldl
    (fun m k => if c.mask.getLsbD k then Memory.write m (b.spA (c.vAddr + k)) (bs.getD k 0) else m) s.mem
  (0, { s with mem := m })

/-- One conversion of `vcvt` (R145). -/
def vConv (sf df : BitVec 5) (mode : RMode) (l x : Nat) : Nat × Flags :=
  match fmtOf sf.toNat, fmtOf df.toNat with
  | some a, some b =>
    let (v, f) := a.value 0 x
    let (r, g) := convert a.isInt b mode l v
    (r, f ||| g)
  | _, _ => (0, 0)

/-- `vcvt` (R145). -/
def vConvert (c : Cmd) (part : BitVec 2) (sf df : BitVec 5) (wa wd : WReg) (s : State) : Flags × State :=
  let ws := codeWidth sf.toNat
  let wt := codeWidth df.toNat
  let n := vcvtCount sf df
  let src := lanesOf ws (rdRow s wa)
  let old := lanesOf wt (rdRow s wd)
  let mode := RMode.of c.rm
  let srcLane : Nat → Nat := fun e => if ws < wt then part.toNat * n + e else e
  let dstLane : Nat → Nat := fun e => if wt < ws then part.toNat * n + e else e
  let rs := (List.range n).map (fun e =>
    if c.mask.getLsbD e then vConv sf df mode (lfsrDraws (e + 1) c.draw).toNat (src.getD (srcLane e) 0) else (0, 0))
  let new := (List.range n).foldl
    (fun l e => if c.mask.getLsbD e then l.set (dstLane e) (rs.getD e (0, 0)).1 else l) old
  let kept := wt < ws || !allOn c.mask n
  (laneFlags c.mask rs, putRow s wd (bytesOfLanes wt new) (rowsTaint s.blk [wa] ||| c.wtaint) kept)

/-- `vbcast` (R142). -/
def vBroadcast (c : Cmd) (t : ElemT) (wd : WReg) (s : State) : Flags × State :=
  let w := elemWidth t
  let old := lanesOf w (rdRow s wd)
  let xs := maskLanes c.mask (List.replicate old.length (bits c.sx.toNat 0 w)) old
  (0, putRow s wd (bytesOfLanes w xs) c.wtaint (!allOn c.mask old.length))

/-- A crossbar word (R88). -/
def Block.cCell (b : Block) (c : BitVec 3) : CCell := (b.c[c.toNat]?).getD ⟨identityRow, 0⟩

/-- `vxset` (R146). -/
def vCrossSet (c : Cmd) (wa : WReg) (x : BitVec 3) (s : State) : Flags × State :=
  let b := s.blk
  let old := b.cCell x
  let bs := maskLanes c.mask ((rdRow s wa).map (·.toNat)) ((rowBytes old.v).map (·.toNat))
  let t := rowsTaint b [wa] ||| c.wtaint ||| (if allOn c.mask 128 then 0 else old.t)
  (0, { s with blk := { b with c := b.c.setIfInBounds x.toNat ⟨bytesRow (bs.map (BitVec.ofNat 8)), t⟩ } })

/-- `vperm` (R147). -/
def vPermute (c : Cmd) (t : ElemT) (x : BitVec 3) (wa wd : WReg) (s : State) : Flags × State :=
  let b := s.blk
  let e := elemWidth t / 8
  let ctl := (rowBytes (b.cCell x).v).map (·.toNat)
  let src := rdRow s wa
  let old := rdRow s wd
  let bs := (List.range 128).map (fun k =>
    if c.mask.getLsbD (k / e) then
      let m := ctl.getD k 0
      if bitAt m 7 then 0 else src.getD (m % 128) 0
    else old.getD k 0)
  (0, putRow s wd bs (rowsTaint b [wa] ||| (b.cCell x).t ||| c.wtaint) (!allOn c.mask (elemLanes t)))

/-- `vtopk` (R148). -/
def vTopk (c : Cmd) (t : ElemT) (k : Nat) (wa wd : WReg) (s : State) : Flags × State :=
  let w := elemWidth t
  let xa := lanesOf w (rdRow s wa)
  let cs := ((List.range xa.length).filter (fun j => c.mask.getLsbD j)).map (fun j => (j, xa.getD j 0))
  let top := ((ranked t cs).take k).map (·.1)
  let xs := (List.range xa.length).map (fun j => top.getD j (2 ^ w - 1))
  (0, putRow s wd (bytesOfLanes w xs) (rowsTaint s.blk [wa] ||| c.wtaint) false)

/-- `vext` (R143). -/
def vExtract (c : Cmd) (t : ElemT) (lane : Nat) (wa : WReg) (sd : SReg) (s : State) : Flags × State :=
  let b := s.blk
  let w := elemWidth t
  let x := (lanesOf w (rdRow s wa)).getD lane 0
  let v : DWord := if (elemFmt? t).isSome then BitVec.ofNat 64 x else BitVec.ofInt 64 (intVal true w x)
  if c.mask.getLsbD lane then (0, { s with blk := wrS b sd v (rowsTaint b [wa] ||| c.wtaint) }) else (0, s)

/-- `vins` (R144). -/
def vInsert (c : Cmd) (t : ElemT) (lane : Nat) (wd : WReg) (s : State) : Flags × State :=
  let w := elemWidth t
  let old := lanesOf w (rdRow s wd)
  if c.mask.getLsbD lane then
    (0, putRow s wd (bytesOfLanes w (old.set lane (bits c.sx.toNat 0 w))) c.wtaint true)
  else (0, s)

/-- What a V command writes when it completes, with its flags; dead marks are applied afterwards (R131). -/
def vEffect (c : Cmd) (s : State) : Flags × State :=
  match c.instr with
  | .vsel _ o => vSelect c o s
  | .vcmpEq _ o | .vcmpNe _ o | .vcmpLt _ o | .vcmpGe _ o | .vcmpLtN _ o | .vcmpGeN _ o => vCompare c o s
  | .vredAdd _ o | .vredAddN _ o | .vredMax _ o | .vredMin _ o | .vredMaxN _ o | .vredMinN _ o => vReduce c o s
  | .vld _ _ _ wd => vLoad c wd s
  | .vst _ _ _ _ ws => vStore c ws s
  | .vcvt _ _ part sf df wa wd => vConvert c part sf df wa wd s
  | .vbcast _ t _ wd => vBroadcast c t wd s
  | .vxset _ _ wa x => vCrossSet c wa x s
  | .vperm _ _ t x wa wd => vPermute c t x wa wd s
  | .vtopk _ _ t k wa wd => vTopk c t k.toNat wa wd s
  | .vext _ _ t lane wa sd => vExtract c t lane.toNat wa sd s
  | .vins _ t lane _ wd => vInsert c t lane.toNat wd s
  | i => match vaOf? i with | some (o, _) => vLanewise c o s | none => (0, s)

/-! ## Checks at start (R131, R149, R150) -/

/-- The dead-read fault of a command's vector sources under the captured mode (R131, R154). -/
def deadRowFault (b : Block) (c : Cmd) (ws : List WReg) : Option (Nat × Nat) :=
  if c.deadMode then (ws.find? (fun w => (b.wCell w).dead)).map (fun w => (cDEAD, deadInfo 5 w.toNat)) else none

/-- The footprint faults of `vld` and `vst` (R149). -/
def vRangeFault (b : Block) (c : Cmd) : Option (Nat × Nat) :=
  match c.instr with
  | .vld .. | .vst .. =>
    if b.spBound ≤ c.vAddr + 127 then some (cRANGE, rangeInfo .sp c.vAddr)
    else (engineOwnFault b c.vAddr 128).map (fun q => (cOWNER, q))
  | _ => none

/-- The first fault of a V command at its start. That a dead source of a `vst` comes before its range and ownership is the model's choice:
R131 and R149 give no order (log 67). -/
def vStartFault (b : Block) (c : Cmd) : Option (Nat × Nat) := (deadRowFault b c (vSources c.instr)).orElse (fun _ => vRangeFault b c)

end Sys2Proof.Machine
end

