-- ==== Sys2Proof/Machine/Matrix.lean ====
section
/-! DEFINITION. The matrix engine (R54-R57, R151-R163): the dispatch of each M command, its checks at start and what it does when
it completes. -/

namespace Sys2Proof.Machine

/-! ## Dispatch (R153) -/

/-- `mmul` (R158). -/
def execMmul (h : Hdr) (o : MatOp) (s : State) : Out := dispatchM none (.mmul h o) s
/-- `mmul.g` (R159). -/
def execMmulG (h : Hdr) (o : MatOp) (dead : Bool) (wi : WReg) (s : State) : Out := dispatchM none (.mmulG h o dead wi) s
/-- `mmul.s` (R161). -/
def execMmulS (h : Hdr) (o : MatOp) (dsx : BitVec 4) (s : State) : Out := dispatchM none (.mmulS h o dsx) s
/-- `mzero` (R162). -/
def execMzero (h : Hdr) (td : BitVec 4) (s : State) : Out := dispatchM none (.mzero h td) s
/-- `mxpack` (R163). -/
def execMxpack (h : Hdr) (af i32 : Bool) (dd td : BitVec 4) (s : State) : Out := dispatchM none (.mxpack h af i32 dd td) s

/-! ## Classes and geometry (R151, R152) -/

/-- The operand classes of the matrix engine (R151). -/
inductive MClass where
  | f8 | f4 | i8 | h
  deriving DecidableEq, Repr

/-- The class of a format code (R151). -/
def mClass (code : Nat) : Option MClass :=
  if code == 0x00 || code == 0x04 then some .i8
  else if code == 0x09 || code == 0x0A then some .h
  else if code == 0x0F || code == 0x14 then some .f4
  else if (0x0B ≤ code && code ≤ 0x0E) || (0x10 ≤ code && code ≤ 0x13) || code == 0x15 then some .f8
  else none

/-- Whether two classes pair (R151). -/
def mPairs (a b : MClass) : Bool :=
  match a, b with
  | .i8, .i8 => true
  | .h, .h => true
  | .i8, _ | .h, _ | _, .i8 | _, .h => false
  | _, _ => true

/-- K of a product (R152). -/
def mK (cls : MClass) (kq : BitVec 5) : Nat := (kq.toNat + 1) * (if cls == .h then 16 else 32)

/-- N of a product (R152). -/
def mN (af : Bool) : Nat := if af then 64 else 32

/-- The bytes of n elements of a descriptor's format. -/
def elemsBytes (d : BitVec 128) (n : Nat) : Nat := cdiv (n * codeWidth (tFmt d)) 8

/-- The elements of A's stored rows: half of K where A is compressed (R152). -/
def storedK (i : Instr) (k : Nat) : Nat := match i with | .mmulS .. => k / 2 | _ => k

/-! ## Checks at start (R154) -/

/-- Step 4: the format pairing, AF with class I8, and an MX code in the A of `mmul.s` (R151, R152, R161). -/
def pairingFault (c : Cmd) (af : Bool) : Option (Nat × Nat) :=
  let fa := tFmt c.dA
  let fb := tFmt c.dB
  match mClass fa, mClass fb with
  | none, _ => some (cFORMAT, fa)
  | some _, none => some (cFORMAT, fb)
  | some a, some b =>
    if !mPairs a b then some (cFORMAT, fb)
    else if (match c.instr with | .mmulS .. => mxCode fa | _ => false) then some (cFORMAT, fa)
    else if af && a == .i8 then some (cFORMAT, fa)
    else none

/-- Step 3: META, and the layout of a metadata tile (R160). -/
def metaFault (c : Cmd) (o : MatOp) : Option (Nat × Nat) :=
  let k := ((mClass (tFmt c.dA)).map (fun cls => mK cls o.kq)).getD 0
  if tMeta c.dA then some (cDESC, o.dsa.toNat)
  else if tMeta c.dB then some (cDESC, o.dsb.toNat)
  else
    match c.instr with
    | .mmulS _ _ dsx =>
      if !tMeta c.dX || tFmt c.dX != 4 || tRows c.dX != 31 || tRowb c.dX + 1 < cdiv k 8 || tBase c.dX % 64 != 0
          || tPitch c.dX % 64 != 0 then some (cDESC, dsx.toNat)
      else none
    | _ => none

/-- Step 5: the geometry of R152. -/
def geometryFault (c : Cmd) (o : MatOp) : Option (Nat × Nat) :=
  match mClass (tFmt c.dA) with
  | none => none
  | some cls =>
    let k := mK cls o.kq
    let rowsBad := match c.instr with | .mmulG .. => false | _ => tRows c.dA != 31
    if rowsBad || tRowb c.dA + 1 < elemsBytes c.dA (storedK c.instr k) then some (cDESC, o.dsa.toNat)
    else if tRows c.dB + 1 != mN o.af || tRowb c.dB + 1 < elemsBytes c.dB k then some (cDESC, o.dsb.toNat)
    else none

/-- The row indices of `mmul.g` (R159). -/
def gatherIndices (s : State) (wi : WReg) : List Nat := lanesOf 32 (rdRow s wi)

/-- Step 6: an index beyond the region (R159). -/
def gatherFault (s : State) (c : Cmd) : Option (Nat × Nat) :=
  match c.instr with
  | .mmulG _ _ _ wi =>
    ((gatherIndices s wi).find? (fun x => !bitAt x 31 && tRows c.dA < x)).map
      (fun x => (cRANGE, rangeInfo .sp (tBase c.dA + x * tPitch c.dA)))
  | _ => none

/-- Byte n of row k of a tile in the block's squares. -/
def tileByte (s : State) (d : BitVec 128) (k n : Nat) : Nat :=
  ((Memory.read s.mem (s.blk.spA (tBase d + k * tPitch d + n))).getD 0).toNat

/-- The two positions of a group in a metadata row (R160). -/
def groupPos (s : State) (d : BitVec 128) (i g : Nat) : Nat × Nat :=
  let b := tileByte s d i (g / 2)
  (bits b (4 * (g % 2)) 2, bits b (4 * (g % 2) + 2) 2)

/-- Step 7: a group whose first position is not below its second (R160). -/
def sparseFault (s : State) (c : Cmd) (o : MatOp) : Option (Nat × Nat) :=
  match c.instr, mClass (tFmt c.dA) with
  | .mmulS _ _ dsx, some cls =>
    let bad (i g : Nat) : Bool := let p := groupPos s c.dX i g; p.2 ≤ p.1
    if (List.range 32).any (fun i => (List.range (mK cls o.kq / 4)).any (bad i)) then some (cDESC, dsx.toNat) else none
  | _, _ => none

/-- OWNERSHIP: the lowest guarded square of a command's footprints that the strand owns (R33, R154 step 8). -/
def footprintFault (b : Block) (rs : List (Nat × Nat)) : Option (Nat × Nat) :=
  let sq := rangeSquares rs
  ((List.range 64).find? (fun q => sq.contains q && b.guarded.getLsbD q && b.owner.getLsbD q)).map (fun q => (cOWNER, q))

/-- The faults of `mxpack`'s destination (R163). -/
def packFault (c : Cmd) (af : Bool) (dd : BitVec 4) : Option (Nat × Nat) :=
  if tMeta c.dA then some (cDESC, dd.toNat)
  else if !mxCode (tFmt c.dA) then some (cFORMAT, tFmt c.dA)
  else if tRows c.dA != 31 || tRowb c.dA + 1 < elemsBytes c.dA (mN af) then some (cDESC, dd.toNat)
  else none

/-- The faults of a product, in the order of R154. -/
def productFault (s : State) (c : Cmd) (o : MatOp) : Option (Nat × Nat) :=
  let b := s.blk
  let wi : Option (Nat × Nat) := match indexOf? c.instr with | some w => deadRowFault b c [w] | none => none
  let dx : Option (Nat × Nat) :=
    match c.instr with | .mmulS _ _ dsx => descFault c.dX dsx.toNat .sp 0 b.spBound | _ => none
  [wi, descFault c.dA o.dsa.toNat .sp 0 b.spBound, descFault c.dB o.dsb.toNat .sp 0 b.spBound, dx, metaFault c o,
   pairingFault c o.af, geometryFault c o, gatherFault s c, sparseFault s c o,
   footprintFault b (c.spRanges b.localCore)].findSome? id

/-- The first fault of an M command at its start (R154). -/
def mStartFault (s : State) (c : Cmd) : Option (Nat × Nat) :=
  match c.instr with
  | .mzero .. => none
  | .mxpack _ af _ dd _ =>
    [descFault c.dA dd.toNat .sp 0 s.blk.spBound, packFault c af dd,
     footprintFault s.blk (c.spRanges s.blk.localCore)].findSome? id
  | i => match matOf? i with | some o => productFault s c o | none => none

/-! ## Operands (R39, R50, R152) -/

/-- The codes of the first n elements of a tile row. -/
def rowCodes (s : State) (d : BitVec 128) (k n : Nat) : List Nat :=
  let w := codeWidth (tFmt d)
  unpackElems w n (leNat (Memory.chip s.mem (s.blk.spA (tBase d + k * tPitch d)) (cdiv (n * w) 8)))

/-- The scale byte of block b of a tile row. -/
def rowScale (s : State) (d : BitVec 128) (k b : Nat) : Nat :=
  ((Memory.read s.mem (s.blk.spA (tSbase d + k * tSpitch d + b))).getD 0).toNat

/-- The values of the first n elements of a tile row, scales applied, with the flags of decoding them. -/
def rowVals (s : State) (d : BitVec 128) (k n : Nat) : List (Val × Flags) :=
  match fmtOf (tFmt d) with
  | none => []
  | some fm =>
    (rowCodes s d k n).mapIdx (fun e x => fm.value (if fm.isMx then rowScale s d k (e / 32) else 0) x)

/-- An exact zero (R159, R160). -/
def zeroVal : Val × Flags := (.fin false 0 0, 0)

/-- A compressed row expanded by its metadata row (R160). -/
def expandRow (s : State) (dx : BitVec 128) (i k : Nat) (xs : List (Val × Flags)) : List (Val × Flags) :=
  (List.range (k / 4)).flatMap (fun g =>
    let p := groupPos s dx i g
    (List.range 4).map (fun j =>
      if j == p.1 then xs.getD (2 * g) zeroVal else if j == p.2 then xs.getD (2 * g + 1) zeroVal else zeroVal))

/-- A started `mmul.g` reads the lanes of its index row once, with that row's taint set (R156, R159). -/
def mCapture (s : State) (c : Cmd) : Cmd :=
  match c.instr with
  | .mmulG _ _ _ wi => { c with dest := gatherIndices s wi, taint := (s.blk.wCell wi).t }
  | _ => c

/-- Row i of A as the product takes it (R152, R159, R160). -/
def rowOfA (s : State) (c : Cmd) (k i : Nat) : List (Val × Flags) :=
  match c.instr with
  | .mmulG .. =>
    let x := c.dest.getD i 0
    if bitAt x 31 then List.replicate k zeroVal else rowVals s c.dA x k
  | .mmulS _ _ _ => expandRow s c.dX i k (rowVals s c.dA i (k / 2))
  | _ => rowVals s c.dA i k

/-! ## Sums (R54-R57) -/

/-- The exact sum of the finite values of a block. -/
def exactSum (vs : List Val) : Val :=
  vs.foldl (fun a v => match v with | .fin .. => (vAdd .rne a v).1 | _ => a) (.fin false 0 0)

/-- Whether a value is an infinity of a sign. -/
def Val.isInf (neg : Bool) : Val → Bool
  | .inf n => n == neg
  | _ => false

/-- The exact sum of a block of products with its special values (R54, R57). -/
def blockSum (as bs : List Val) : Val × Flags :=
  let ps := List.zipWith vMul as bs
  let vs := ps.map (·.1)
  let fl := ps.foldl (fun f p => f ||| p.2) 0
  let up := vs.any (Val.isInf false)
  let down := vs.any (Val.isInf true)
  let fl := fl ||| flagIf (up && down) fINVALID
  if vs.any Val.isNan || (up && down) then (.nan false, fl)
  else if up then (.inf false, fl)
  else if down then (.inf true, fl)
  else (exactSum vs, fl)

/-- Cut a list into blocks of n. -/
def blocksOf {α : Type} (n count : Nat) (xs : List α) : List (List α) :=
  (List.range count).map (fun b => (xs.drop (n * b)).take n)

/-- The integer of an exact integer value. -/
def Val.toInt : Val → Int
  | .fin n m e => scaled n m e 0
  | _ => 0

/-- C + one block, for a float tile: r is rounded to FP32, and the sum to the tile's format (R54). -/
def accFloat (f : FFmt) (c : Nat) (s : Val × Flags) : Nat × Flags :=
  let (r, f1) := roundTo fp32 .rne 0 s.1
  let (x, f2) := vAdd .rne (f.decode c) (fp32.decode r)
  let (y, f3) := roundTo f .rne 0 x
  (y, s.2 ||| f1 ||| f2 ||| f3)

/-- C + one block, for class I8 (R56). -/
def accInt (c : Nat) (s : Val × Flags) : Nat × Flags := sat true 32 (intVal true 32 c + s.1.toInt)

/-- One element of C over all blocks, in increasing K order. -/
def accumulate (step : Nat → Val × Flags → Nat × Flags) (c : Nat) (as bs : List (List Val)) : Nat × Flags :=
  (as.zip bs).foldl (fun r ab => let (y, f) := step r.1 (blockSum ab.1 ab.2); (y, r.2 ||| f)) (c, 0)

/-! ## Effects at completion -/

/-- Replace a bank's taint set. -/
def Block.setBankT (b : Block) (t : BitVec 4) (x : Taint) : Block :=
  { b with bankTaint := b.bankTaint.setIfInBounds t.toNat x }

/-- The flags of decoded rows. -/
def rowsFlags (rs : List (List (Val × Flags))) : Flags := rs.foldl (fun f r => r.foldl (fun f x => f ||| x.2) f) 0

/-- The tile after a product, with the flags (R152, R158). -/
def productTile (s : State) (c : Cmd) (o : MatOp) (cls : MClass) : List Byte × Flags :=
  let n := mN o.af
  let k := mK cls o.kq
  let g := if cls == .h then 16 else 32
  let ra := (List.range 32).map (rowOfA s c k)
  let rb := (List.range n).map (fun j => rowVals s c.dB j k)
  let ba := ra.map (fun r => blocksOf g (k / g) (r.map (·.1)))
  let bb := rb.map (fun r => blocksOf g (k / g) (r.map (·.1)))
  let w := 1024 / n
  let step : Nat → Val × Flags → Nat × Flags :=
    if cls == .i8 then accInt else accFloat (if o.af then fp16 else fp32)
  let old := rdBank s o.td
  let rows := ba.mapIdx (fun i a =>
    let cs := lanesOf w ((old.drop (128 * i)).take 128)
    (List.range n).map (fun j => accumulate step (cs.getD j 0) a (bb.getD j [])))
  (rows.flatMap (fun r => bytesOfLanes w (r.map (·.1))),
   rows.foldl (fun f r => r.foldl (fun f x => f ||| x.2) f) (rowsFlags ra ||| rowsFlags rb))

/-- A product's effect: the tile and its bank's taint set (R158, R159). -/
def mProduct (c : Cmd) (o : MatOp) (s : State) : Flags × State :=
  match mClass (tFmt c.dA) with
  | none => (0, s)
  | some cls =>
    let (bs, f) := productTile s c o cls
    let t := s.blk.bankT o.td.toNat ||| c.wtaint ||| c.taint
    let s := wrBank s o.td bs
    (f, { s with blk := s.blk.setBankT o.td t })

/-- `mzero`'s effect (R162). -/
def mClear (c : Cmd) (td : BitVec 4) (s : State) : Flags × State :=
  let t := s.blk.bankT td.toNat ||| c.wtaint
  let s := wrBank s td (List.replicate 4096 0)
  (0, { s with blk := s.blk.setBankT td t })

/-- n draws in order, from a state (R48). -/
def drawList : Nat → Word → List Nat
  | 0, _ => []
  | n + 1, w => let x := lfsrDraw w; x.toNat :: drawList n x

/-- One MX block converted: its scale byte and element codes, with the flags (R51). -/
def packBlock (fm : Fmt) (mode : RMode) (vs : List Val) (ls : List Nat) : Nat × List Nat × Flags :=
  let (code, f) := mxScale fm vs
  let es := vs.mapIdx (fun e v => mxElem fm mode (ls.getD e 0) code v)
  (code, es.map (·.1), es.foldl (fun f x => f ||| x.2) f)

/-- Write a row of codes and its scale bytes to a tile; the row's bits behind the last element are zero (R39). -/
def wrTileRow (s : State) (d : BitVec 128) (k : Nat) (codes scales : List Nat) : State :=
  let w := codeWidth (tFmt d)
  let bs := leBytes (tRowb d + 1) (packElems w codes)
  let m := Memory.writeAll s.mem (s.blk.spA (tBase d + k * tPitch d)) bs
  { s with mem := Memory.writeAll m (s.blk.spA (tSbase d + k * tSpitch d)) (scales.map (BitVec.ofNat 8)) }

/-- The values of a bank's row as `mxpack` reads them (R163). -/
def packSource (af i32 : Bool) (bs : List Byte) : List Val :=
  if af then (lanesOf 16 bs).map fp16.decode
  else if i32 then (lanesOf 32 bs).map (fun x => valOfInt (intVal true 32 x))
  else (lanesOf 32 bs).map fp32.decode

/-- `mxpack`'s effect (R163). -/
def mPack (c : Cmd) (af i32 : Bool) (td : BitVec 4) (s : State) : Flags × State :=
  match fmtOf (tFmt c.dA) with
  | none => (0, s)
  | some fm =>
    let n := mN af
    let bank := rdBank s td
    let mode := RMode.of c.rm
    let ls := if mode == .sr then drawList (32 * n) c.draw else []
    (List.range 32).foldl (fun (r : Flags × State) i =>
      let vs := packSource af i32 ((bank.drop (128 * i)).take 128)
      let blks := (List.range (n / 32)).map (fun b =>
        packBlock fm mode ((vs.drop (32 * b)).take 32) ((ls.drop (i * n + 32 * b)).take 32))
      (blks.foldl (fun f x => f ||| x.2.2) r.1,
       wrTileRow r.2 c.dA i (blks.flatMap (fun x => x.2.1)) (blks.map (·.1)))) (0, s)

/-- What an M command does when it completes, with its flags. -/
def mEffect (c : Cmd) (s : State) : Flags × State :=
  match c.instr with
  | .mzero _ td => mClear c td s
  | .mxpack _ af i32 _ td => mPack c af i32 td s
  | i => match matOf? i with | some o => mProduct c o s | none => (0, s)

end Sys2Proof.Machine
end

