-- ==== Sys2Proof/Machine/Transfer.lean ====
section
/-! DEFINITION. The fetch and put engines (R165-R167, R170, R200-R212): the dispatch of each F and P command and its checks at
start. -/

namespace Sys2Proof.Machine

/-! ## Dispatch (R201) -/

/-- `fetch` (R205). -/
def execFetch (h : Hdr) (o : TileOp) (s : State) : Out := dispatchT none (.fetch h o) s
/-- `fetch.ix` (R206). -/
def execFetchIx (h : Hdr) (dl : BitVec 4) (si : SReg) (q : BitVec 3) (ds ha : BitVec 4) (s : State) : Out :=
  dispatchT none (.fetchIx h dl si q ds ha) s
/-- `fetch.step` (R207). -/
def execFetchStep (h : Hdr) (sj : SReg) (g : BitVec 3) (si : SReg) (q : BitVec 3) (ds ha : BitVec 4) (s : State) : Out :=
  dispatchT none (.fetchStep h sj g si q ds ha) s
/-- `relay` (R208). -/
def execRelay (h : Hdr) (lvs : Level) (sx : SReg) (dd : BitVec 4) (lvd : Level) (si : SReg) (ds : BitVec 4) (s : State) : Out :=
  dispatchT none (.relay h lvs sx dd lvd si ds) s
/-- `put` (R209). -/
def execPut (h : Hdr) (o : TileOp) (s : State) : Out := dispatchT none (.put h o) s
/-- `put.add` (R209). -/
def execPutAdd (h : Hdr) (o : TileOp) (s : State) : Out := dispatchT none (.putAdd h o) s
/-- `xcopy` (R210). -/
def execXcopy (h : Hdr) (sx : SReg) (dd : BitVec 4) (si : SReg) (ds : BitVec 4) (s : State) : Out :=
  dispatchT none (.xcopy h sx dd si ds) s
/-- `pool.fill` (R211). -/
def execPoolFill (h : Hdr) (sx si : SReg) (q : BitVec 3) (ha : BitVec 4) (s : State) : Out :=
  dispatchT none (.poolFill h sx si q ha) s
/-- `pool.copy` (R211). -/
def execPoolCopy (h : Hdr) (sx : SReg) (hsrc : BitVec 4) (si : SReg) (q : BitVec 3) (ha : BitVec 4) (s : State) : Out :=
  dispatchT none (.poolCopy h sx hsrc si q ha) s
/-- `pool.cmp` (R211). -/
def execPoolCmp (h : Hdr) (sx : SReg) (h2 : BitVec 4) (si : SReg) (q : BitVec 3) (ds ha : BitVec 4) (s : State) : Out :=
  dispatchT none (.poolCmp h sx h2 si q ds ha) s
/-- `pool.red` (R211). -/
def execPoolRed (h : Hdr) (op : RedOp) (sx : SReg) (hsrc : BitVec 4) (si : SReg) (q : BitVec 3) (ha : BitVec 4)
    (s : State) : Out := dispatchT none (.poolRed h op sx hsrc si q ha) s
/-- `sreuse` (R170). -/
def execSreuse (h : Hdr) (g : BitVec 3) (si : SReg) (ds : BitVec 4) (s : State) : Out := dispatchT none (.sreuse h g si ds) s

/-! ## The objects of a command (R204 step 1) -/

/-- An object that a command names: its handle, the register that a fault's detail names, whether it is written, and whether it
must reside in the pool. `reg` is nothing for an object that a step binding names. -/
structure ObjUse where
  h : DWord
  reg : Option (BitVec 4)
  write : Bool
  pool : Bool
  deriving DecidableEq, Repr

/-- The objects of a command, in the order of their checks: the one in HA first. -/
def Cmd.objUses (c : Cmd) : List ObjUse :=
  match c.instr with
  | .fetch _ o => [⟨c.ha, some o.ha, false, false⟩]
  | .fetchIx _ _ _ _ _ ha => [⟨c.ha, some ha, false, false⟩]
  | .fetchStep _ _ _ _ _ _ ha => [⟨c.ha, some ha, false, false⟩, ⟨c.g.inH, none, false, false⟩]
  | .put _ o | .putAdd _ o => [⟨c.ha, some o.ha, true, false⟩]
  | .poolFill _ _ _ _ ha => [⟨c.ha, some ha, true, true⟩]
  | .poolCopy _ _ hb _ _ ha => [⟨c.ha, some ha, true, true⟩, ⟨c.hb, some hb, false, true⟩]
  | .poolRed _ _ _ hb _ _ ha => [⟨c.ha, some ha, true, true⟩, ⟨c.hb, some hb, false, true⟩]
  | .poolCmp _ _ hb _ _ _ ha => [⟨c.ha, some ha, false, true⟩, ⟨c.hb, some hb, false, true⟩]
  | .sreuse .. => [⟨c.g.outH, none, false, false⟩]
  | _ => []

/-- Why a command cannot go on: an engine fault, a park, a descriptor to ask of a peer, a race check to ask of an object's home, or a wait
at its start. -/
inductive Stop where
  | send (c : Cmd) (h : DWord) (body : List Byte)
  | fault (cause detail : Nat)
  | park (h : DWord) (write : Bool) (m : Meet)
  | ask (pkg : Nat) (h : DWord) (write : Bool)
  | hold
  deriving DecidableEq, Repr

/-- Whether the kind of an object, and for a pool command its residency, take the access, before any look at the rights (R165, R204, R205, R209,
R211; log 74). -/
def ObjUse.kindOk (u : ObjUse) (d : BitVec 512) : Bool :=
  (!u.pool || dRes d == 3)
    && (if u.reg.isNone then dKind d == kStep
        else if u.write && !u.pool then dKind d == kTensor || dKind d == kStep || dKind d == kCode
        else dKind d != kCounter)

/-- Whether the world may make the access; an object of kind code is never written (R62, R204). -/
def ObjUse.rightsOk (u : ObjUse) (d : BitVec 512) (world : BitVec 14) : Bool :=
  if u.write then dKind d != kCode && canWrite d world else canRead d world

/-- The detail of a fault on an object: its handle register, or, for an object of a binding, a register number that the spec does
not state (log 19). -/
def ObjUse.detail (u : ObjUse) (s : State) : Nat :=
  match u.reg with
  | some r => r.toNat
  | none => (Config.openRegister s.fresh).toNat

/-- Resolve and check the objects of a command (R204 step 1, R275, R283); `again` is 2^8 on the replay of a command that has moved
elements. -/
def resolveUses (s : State) (c : Cmd) (again : Nat) : List ObjUse → Except Stop (List (BitVec 512)) × State
  | [] => (.ok [], s)
  | u :: us =>
    match resolve s (s.blk.who c.eng.agent.code) u.h c.req with
    | (.trap cause, s) => (.error (.fault cause (u.detail s + again)), s)
    | (.park m, s) => (.error (.park u.h u.write m), s)
    | (.ask pkg, s) => (.error (.ask pkg u.h u.write), s)
    | (.ok d _, s) =>
      if !u.kindOk d then (.error (.fault cKIND (u.detail s + again)), s)
      else if !u.rightsOk d s.blk.world then (.error (.fault cRIGHTS (u.detail s + again)), s)
      else
        match resolveUses s c again us with
        | (.ok ds, s) => (.ok (d :: ds), s)
        | r => r

/-- The object of a resolved list. -/
def objAt (ds : List (BitVec 512)) (k : Nat) : BitVec 512 := ds.getD k 0

/-! ## Checks at start (R204 steps 2 to 6) -/

/-- The receiver of an `xcopy`: the block of the gang that holds the target core and has not retired (R210). -/
def receiverOf (s : State) (c : Cmd) : Option Block :=
  (allBlocks s).find? (fun b =>
    b.id.launch == s.blk.id.launch && b.phase != .none && b.core.toNat / 256 == s.blk.core.toNat / 256
      && b.core.toNat % 256 == bits c.sx.toNat 0 8)

/-- The landing word's offset (R210). -/
def landing (c : Cmd) : Nat := bits c.sx.toNat 32 18

/-- The bound of an `xcopy` receiver's squares; 0 where no block is there (R210). -/
def receiverBound (rb : Option Block) : Nat := match rb with | some b => b.spBound | none => 0

/-- Step 2: descriptors, DS before XB, and the landing word's range. -/
def tDescFault (s : State) (c : Cmd) (rb : Option Block) : Option (Nat × Nat) :=
  let own := s.blk.spBound
  match c.instr with
  | .fetch _ o | .put _ o | .putAdd _ o => descFault c.dA o.ds.toNat o.lv c.sx.toNat (levelBound s o.lv)
  | .fetchIx _ dl _ _ ds _ =>
    (descFault c.dA ds.toNat .sp 0 own).orElse (fun _ => descFault c.dB dl.toNat .sp 0 own)
  | .fetchStep _ _ _ _ _ ds _ => descFault c.dA ds.toNat .sp 0 own
  | .sreuse _ _ _ ds => descFault c.dA ds.toNat .sp 0 own
  | .poolCmp _ _ _ _ _ ds _ => descFault c.dA ds.toNat .sp 0 own
  | .relay _ lvs _ dd lvd _ ds =>
    (descFault c.dA ds.toNat lvs (c.si.getD 0 0).toNat (levelBound s lvs)).orElse
      (fun _ => descFault c.dB dd.toNat lvd c.sx.toNat (levelBound s lvd))
  | .xcopy _ _ dd _ ds =>
    ((descFault c.dA ds.toNat .sp 0 own).orElse (fun _ => descFault c.dB dd.toNat .sp 0 (receiverBound rb))).orElse
      (fun _ => if receiverBound rb ≤ landing c + 7 then some (cRANGE, rangeInfo .sp (landing c)) else none)
  | _ => none

/-- Step 3: the shape, and its rank against the objects'. -/
def tShapeFault (c : Cmd) (ds : List (BitVec 512)) : Option (Nat × Nat) :=
  match (tRegs c.instr).q with
  | none => none
  | some q =>
    let n := match c.instr with | .fetchStep .. => 1 | _ => 2
    if !qOkShape c.shape || (ds.take n).any (fun d => dRank d != qRank c.shape) then some (cSHAPE, q.toNat) else none

/-- The rows of one tile of a shape (R202). -/
def tileRows (c : Cmd) : Nat := prod ((qExts c.shape).drop 1)

/-- Whether EXT(0) elements do not fit in a row, or the rows are not n (R204). -/
def tileMisfit (c : Cmd) (n : Nat) : Bool := tRows c.dA + 1 != n || tRowb c.dA + 1 < elemsBytes c.dA (qExt c.shape 0)

/-- Whether a list descriptor breaks R206. -/
def badList (d : BitVec 128) : Bool :=
  tFmt d != 6 || tRows d != 0 || (tRowb d + 1) % 4 != 0 || 1024 < listCount d

/-- Whether an 8-byte word meets a byte range. -/
def wordIn (a : Nat) (r : Nat × Nat) : Bool := a < r.1 + r.2 && r.1 < a + 8

/-- Step 4: the geometry of the command's own rule. -/
def tGeometryFault (c : Cmd) (ds : List (BitVec 512)) : Option (Nat × Nat) :=
  match c.instr with
  | .fetch _ o | .put _ o | .putAdd _ o => if tileMisfit c (tileRows c) then some (cDESC, o.ds.toNat) else none
  | .fetchIx _ dl _ _ dd _ =>
    if badList c.dB then some (cDESC, dl.toNat)
    else if tileMisfit c (tileRows c * listCount c.dB) then some (cDESC, dd.toNat)
    else none
  | .fetchStep _ _ _ _ _ dd _ =>
    let d := objAt ds 1
    if tileMisfit c (tileRows c) || tRows c.dA + 1 != dExt d 1 || qExt c.shape 0 != dExt d 0 || tileRows c != dExt d 1
        || tFmt c.dA != dFmt d then some (cDESC, dd.toNat) else none
  | .relay _ _ _ dd _ _ _ => if tRows c.dA != tRows c.dB || tRowb c.dA != tRowb c.dB then some (cDESC, dd.toNat) else none
  | .xcopy _ _ dd _ _ =>
    if tRows c.dA != tRows c.dB || tRowb c.dA != tRowb c.dB || (tRanges c.dB).any (wordIn (landing c)) then
      some (cDESC, dd.toNat) else none
  | .poolCmp _ _ _ _ _ dd _ => if tFmt c.dA != 7 || tRows c.dA != 0 || tRowb c.dA != 7 then some (cDESC, dd.toNat) else none
  | .sreuse _ _ _ dd =>
    let d := objAt ds 0
    if tRows c.dA + 1 != dExt d 1 || tRowb c.dA + 1 < elemsBytes c.dA (dExt d 0) || tFmt c.dA != dFmt d then
      some (cDESC, dd.toNat) else none
  | _ => none

/-- Whether a format code names an integer format. -/
def intCode (code : Nat) : Bool := match fmtOf code with | some f => f.isInt | none => false

/-- Whether the origin's c0 or EXT(0) is no multiple of 32 (R203; log 78). -/
def mxMisaligned (c : Cmd) : Bool :=
  (originOf c.si (qRank c.shape)).headD 0 % 32 != 0 || qExt c.shape 0 % 32 != 0

/-- The formats that `pool.red` takes (R211). -/
def redFormat (code : Nat) : Bool := intCode code || (8 ≤ code && code ≤ 0xA)

/-- A code of an object that no element takes, in the order of the objects (R38, R203). -/
def badObjFormat (ds : List (BitVec 512)) : Option (Nat × Nat) :=
  ((ds.map dFmt).find? (fun f => (fmtOf f).isNone)).map (fun f => (cFORMAT, f))

/-- Step 5 behind the objects' own codes: formats (R203, R208, R209, R210, R211; log 77). -/
def tMixFault (c : Cmd) (ds : List (BitVec 512)) : Option (Nat × Nat) :=
  let fo := dFmt (objAt ds 0)
  let ft := tFmt c.dA
  match c.instr with
  | .fetch .. | .fetchIx .. | .fetchStep .. | .put .. =>
    if (mxCode fo || mxCode ft) && mxMisaligned c then some (cFORMAT, fo) else none
  | .putAdd .. => if mxCode fo || mxCode ft || intCode fo != intCode ft then some (cFORMAT, fo) else none
  | .relay .. | .xcopy .. =>
    if mxCode ft then some (cFORMAT, ft) else if mxCode (tFmt c.dB) then some (cFORMAT, tFmt c.dB) else none
  | .poolFill .. => if mxCode fo || codeWidth fo % 8 != 0 then some (cFORMAT, fo) else none
  | .poolCopy .. => if fo != dFmt (objAt ds 1) then some (cFORMAT, fo) else none
  | .poolRed .. => if fo != dFmt (objAt ds 1) || !redFormat fo then some (cFORMAT, fo) else none
  | _ => none

/-- Step 5: formats. -/
def tFormatFault (c : Cmd) (ds : List (BitVec 512)) : Option (Nat × Nat) := (badObjFormat ds).orElse (fun _ => tMixFault c ds)

/-- Step 6: OWNERSHIP, the receiver's squares behind the sender's (R33, R210). -/
def tOwnerFault (s : State) (c : Cmd) (rb : Option Block) : Option (Nat × Nat) :=
  match c.instr, rb with
  | .xcopy .., some b =>
    (footprintFault s.blk (tRanges c.dA)).orElse (fun _ => footprintFault b (tRanges c.dB ++ [(landing c, 8)]))
  | _, _ => footprintFault s.blk (c.spRanges s.blk.localCore)

/-- The entries of a `fetch.ix` list, as they stand in the block's squares (R206). -/
def listEntries (s : State) (c : Cmd) : List Nat :=
  match c.instr with
  | .fetchIx .. => cutBytes 4 (listCount c.dB) (Memory.chip s.mem (s.blk.spA (tBase c.dB)) (tRowb c.dB + 1))
  | _ => []

/-- The descriptor of a command's handle among the resolved ones. -/
def descOf (uses : List ObjUse) (ds : List (BitVec 512)) (h : DWord) : BitVec 512 :=
  match (uses.zip ds).find? (fun x => x.1.h == h) with
  | some x => x.2
  | none => 0

/-- The register that a fault on an object names. -/
def useDetail (s : State) (uses : List ObjUse) (h : DWord) : Nat := ((uses.find? (fun u => u.h == h)).map (fun u => u.detail s)).getD 0

/-- Whether reads of an object are race-checked (R217). -/
def raceKind (d : BitVec 512) : Bool := dKind d == kTensor || dKind d == kStep

/-- Step 7: the lease check of what is written, and the race checks of what is read of this package's objects, in the order of the
objects (R216, R217). -/
def tRace (s : State) (c : Cmd) (ds : List (BitVec 512)) : Option Stop :=
  let b := s.blk
  let uses := c.objUses
  let dOf := descOf uses ds
  let unleased := match c.writes dOf with
    | some (is, add) => is.any (fun i => !leaseCoversCmd s b.id c.n c.ha add i)
    | none => false
  if unleased then some (.fault cRACE (useDetail s uses c.ha))
  else
    ((c.reads dOf).findSome? (fun r =>
      if raceKind (dOf r.1) && hHome r.1 == s.pl.pkg.toNat && r.2.any (leaseBars s b.id r.1) then
        some (if subscribed b r.1 then Stop.hold else .fault cRACE (useDetail s uses r.1))
      else none))

/-- The runs of consecutive numbers in a list. -/
def runsOf : List Nat → List (Nat × Nat)
  | [] => []
  | x :: xs =>
    match runsOf xs with
    | (lo, hi) :: rs => if lo == x + 1 then (x, hi) :: rs else (x, x) :: (lo, hi) :: rs
    | [] => [(x, x)]

/-- The checks of a command's reads of other packages' objects, one request each (R217; 400 ranges to a frame, log 14). -/
def awayChecks (s : State) (c : Cmd) (ds : List (BitVec 512)) : List (DWord × List (Nat × Nat)) :=
  let dOf := descOf c.objUses ds
  (c.reads dOf).flatMap (fun r =>
    if raceKind (dOf r.1) && hHome r.1 != s.pl.pkg.toNat then
      let rs := runsOf r.2
      (piecesOf 400 rs.length rs).map (fun p => (r.1, p))
    else [])

/-- Every other package that has noted a read of a command learns that it is complete, or that it ends (R218). -/
def tellCmd (s : State) (c : Cmd) : State :=
  if c.checked == 0 then s
  else ((c.objUses.map (·.h)).eraseDups).foldl (fun s h => tellDone s h s.blk.id (cmdAccess c.n)) s

/-- Step 7 at the homes of the objects on other packages: each request's answer, and the next request (R217). -/
def awayRace (s : State) (c : Cmd) (ds : List (BitVec 512)) : Except Stop Cmd × State :=
  let checks := awayChecks s c ds
  let send (c : Cmd) (s : State) : Except Stop Cmd × State :=
    match checks[c.checked]? with
    | none => (.ok c, s)
    | some (h, rs) => (.error (.send c h (readBody s.blk.id (cmdAccess c.n) rs)), s)
  match checks[c.checked]?, c.reply with
  | some (h, _), some bs =>
    if replyValue bs 0 == 1 then send { c with reply := none, checked := c.checked + 1 } { s with blk := s.blk.note h }
    else if subscribed s.blk h then (.error .hold, s)
    else (.error (.fault cRACE (useDetail s c.objUses h)), tellCmd s c)
  | _, _ => send c s

/-- The first fault of steps 2 to 6. -/
def tFault (s : State) (c : Cmd) (ds : List (BitVec 512)) (rb : Option Block) : Option (Nat × Nat) :=
  [tDescFault s c rb, tShapeFault c ds, tGeometryFault c ds, tFormatFault c ds, tOwnerFault s c rb].findSome? id

/-- Start an F or P command: the stop it meets, or the command with its list or its receiver's half captured (R204, R206, R210).
A receiver that is saved holds the command. -/
def startT (s : State) (c : Cmd) : Except Stop Cmd × State :=
  match resolveUses s c 0 c.objUses with
  | (.error e, s) => (.error e, s)
  | (.ok ds, s) =>
    let rb := match c.instr with | .xcopy .. => receiverOf s c | _ => none
    if rb.any (fun b => b.phase == .saved) then (.error .hold, s)
    else
      match tFault s c ds rb with
      | some (cause, d) => (.error (.fault cause d), s)
      | none =>
        let half : List Nat := match rb with | some b => [b2n b.half] | none => []
        let c := { c with dest := if !c.dest.isEmpty then c.dest else match c.instr with | .fetchIx .. => listEntries s c | _ => half }
        match tRace s c ds with
        | some e => (.error e, s)
        | none => awayRace s c ds

end Sys2Proof.Machine
end

