-- ==== Sys2Proof/Machine/Moves.lean ====
section
/-! DEFINITION. What a started F or P command moves (R165-R167, R170, R188, R202-R212, R282, R283): line by line, so that a park
or a request to a peer leaves it at the elements where it stopped. -/

namespace Sys2Proof.Machine

/-! ## Tiles in on-chip levels -/

/-- The level and level offset of an F or P command's tile DS (R204). -/
def tilePlace (c : Cmd) : Level × Nat :=
  match c.instr with
  | .fetch _ o | .put _ o | .putAdd _ o => (o.lv, c.sx.toNat)
  | .relay _ lvs _ _ _ _ _ => (lvs, (c.si.getD 0 0).toNat)
  | _ => (.sp, 0)

/-- The model address of row k of a tile at a level. -/
def rowAddr (s : State) (lv : Level) (off : Nat) (d : BitVec 128) (k : Nat) : Nat :=
  levelAddr s s.blk lv (off + tBase d + k * tPitch d)

/-- The model address of scale row k of a tile at a level (R84, R85, log 45). -/
def scaleAddr (s : State) (lv : Level) (off : Nat) (d : BitVec 128) (k : Nat) : Nat :=
  levelAddr s s.blk lv (off + tSbase d + k * tSpitch d)

/-- Element e of row k of a tile: its code and, for an MX format, its scale byte. -/
def tileElem (s : State) (lv : Level) (off : Nat) (d : BitVec 128) (k e : Nat) : Nat × Nat :=
  let w := codeWidth (tFmt d)
  let bs := Memory.chip s.mem (rowAddr s lv off d k + e * w / 8) ((e * w % 8 + w + 7) / 8)
  let sc := if mxCode (tFmt d) then leNat (Memory.chip s.mem (scaleAddr s lv off d k + e / 32) 1) else 0
  (bits (leNat bs) (e * w % 8) w, sc)

/-- Write element e of row k of a tile of n elements a row; behind the last element the row's bits are zero (R39, log 21). -/
def putTileElem (s : State) (lv : Level) (off : Nat) (d : BitVec 128) (n k e code : Nat) : State :=
  let w := codeWidth (tFmt d)
  let a := rowAddr s lv off d k + e * w / 8
  let last := e + 1 == n
  let len := if last then tRowb d + 1 - e * w / 8 else (e * w % 8 + w + 7) / 8
  let old := if last then Memory.chip s.mem a 1 ++ List.replicate (len - 1) 0 else Memory.chip s.mem a len
  let v := if last then bits (leNat old) 0 (e * w % 8) else leNat old
  { s with mem := Memory.writeAll s.mem a (leBytes len (setBits v (e * w % 8) w code)) }

/-- Write the scale byte of block b of row k. -/
def putTileScale (s : State) (lv : Level) (off : Nat) (d : BitVec 128) (k b code : Nat) : State :=
  { s with mem := Memory.write s.mem (scaleAddr s lv off d k + b) (BitVec.ofNat 8 code) }

/-! ## Conversion (R203) -/

/-- Convert a block of source elements (code, scale) to a target format: its elements and scale byte, with the flags. Equal formats
copy bits; an MX target takes MXScale and MXElem over the block. -/
def convertBlock (sf tf : Nat) (mode : RMode) (xs : List (Nat × Nat)) (ls : List Nat) : List (Nat × Nat) × Flags :=
  if sf == tf then
    let sc := (xs.head?.map (·.2)).getD 0
    (xs.map (fun x => (x.1, sc)), 0)
  else
    match fmtOf sf, fmtOf tf with
    | some a, some b =>
      let vs := xs.map (fun x => a.value x.2 x.1)
      let fl : Flags := vs.foldl (fun f v => f ||| v.2) 0
      if b.isMx then
        let (code, es, f) := packBlock b mode (vs.map (·.1)) ls
        (es.map (fun e => (e, code)), fl ||| f)
      else
        let rs := vs.mapIdx (fun i v => convert a.isInt b mode (ls.getD i 0) v.1)
        (rs.map (fun r => (r.1, 0)), rs.foldl (fun f r => f ||| r.2) fl)
    | _, _ => (xs, 0)

/-- The draws of positions i to i + n - 1 of a command, under SR (R49, R203). -/
def posDraws (c : Cmd) (i n : Nat) : List Nat :=
  if RMode.of c.rm == .sr then drawList n (lfsrDraws i c.draw) else []

/-- Op(y, x) of `put.add` and `pool.red` in the object's format (R209, R211). -/
def combine (op : RedOp) (fo ft : Nat) (mode : RMode) (y x : Nat) : Nat × Flags :=
  match fmtOf fo, fmtOf ft with
  | some (.int sg w), some b =>
    let yi := intVal sg w y
    let xi := (b.value 0 x).1.toInt
    match op with
    | .add => sat sg w (yi + xi)
    | .min => (if xi < yi then x else y, 0)
    | .max => (if yi < xi then x else y, 0)
  | some (.flt f), some b =>
    let yv := f.decode y
    let xv := (b.value 0 x).1
    let r := match op with
      | .add => vAdd mode.arith yv xv
      | .min => vMaxMin false yv xv
      | .max => vMaxMin true yv xv
    rounded f mode.arith r
  | _, _ => (y, 0)

/-! ## The job of a running command -/

/-- What a command moves: its resolved objects, the object elements of its positions (of the second object, too, for the
two-object forms), the lines of each of them by shard, and the lines of the written object that it writes in full. -/
structure Job where
  uses : List ObjUse
  ds : List (BitVec 512)
  pos : List (Option (List Nat))
  pos2 : List (Option (List Nat))
  keys : List (Option (Nat × Nat))
  keys2 : List (Option (Nat × Nat))
  whole : List (Nat × Nat)
  deriving DecidableEq, Repr

/-- The fields of elements by shard. -/
def fieldsOf (d : BitVec 512) (ps : List (Option (List Nat))) : List (Nat × Field) :=
  (ps.filterMap id).flatMap (fun xs => let (k, fs) := elemFields d xs; fs.map (fun f => (k, f)))

/-- The bytes of an object that move together (R188): a 64-byte line; of 6-bit elements, which no line holds a whole number of, and of MX
elements, whose scale bytes stand eight to a word, those of 256 elements. -/
def moveBytes (d : BitVec 512) : Nat := if dIsMx d || 64 % dWidth d != 0 then 32 * dWidth d else 64

/-- The line, or lines, that an element moves with: its shard and their number there. -/
def lineKey (d : BitVec 512) (xs : List Nat) : Nat × Nat :=
  let (k, fs) := elemFields d xs
  (k, (fs.head?.map Field.off).getD 0 / moveBytes d)

/-- A job from its positions: the first object's, written in full lines where `writes`, and the second's. -/
def mkJob (uses : List ObjUse) (ds : List (BitVec 512)) (writes : Bool) (ps ps2 : List (Option (List Nat))) : Job :=
  { uses := uses, ds := ds, pos := ps, pos2 := ps2, keys := ps.map (Option.map (lineKey (objAt ds 0))),
    keys2 := ps2.map (Option.map (lineKey (objAt ds 1))), whole := if writes then fullLines (fieldsOf (objAt ds 0) ps) else [] }

/-- The job of a command whose objects are resolved. The payload of a `fetch.step` stands behind the positions of its tile. -/
def jobOf (c : Cmd) (ds : List (BitVec 512)) : Job :=
  let d0 := objAt ds 0
  let d1 := objAt ds 1
  let uses := c.objUses
  match c.instr with
  | .fetch .. | .fetchIx .. => mkJob uses ds false (c.positions d0 c.si) []
  | .fetchStep .. =>
    let ps := c.positions d0 c.si
    mkJob uses ds false ps (ps.map (fun _ => none) ++ (blockCoords d1 c.sx.toNat).map some)
  | .sreuse .. => mkJob uses ds false ((blockCoords d0 (c.si.getD 0 0).toNat).map some) []
  | .put .. | .putAdd .. | .poolFill .. => mkJob uses ds true (c.positions d0 c.si) []
  | .poolCopy .. | .poolRed .. | .poolCmp .. =>
    let ps := c.pairs d0 d1
    mkJob uses ds true (ps.map (Option.map (·.1))) (ps.map (Option.map (·.2)))
  | _ => mkJob uses ds false [] []

/-- What moving on answers: the command after it, the end, a park, or a request to a peer. -/
inductive Moved where
  | on (c : Cmd)
  | done (c : Cmd)
  | park (c : Cmd) (h : DWord) (write : Bool) (m : Meet)
  | ask (c : Cmd) (pkg op : Nat) (h : DWord) (off : Nat) (body : List Byte)
  deriving DecidableEq, Repr

/-! ## The buffer of a command: the positions from its first element not moved on -/

/-- The place of position p. -/
def Cmd.slot (c : Cmd) (p : Nat) : Slot := (c.buf[p - c.moved]?).getD .empty

/-- Set the places of positions. -/
def Cmd.setSlots (c : Cmd) (xs : List (Nat × Slot)) : Cmd :=
  let n := xs.foldl (fun n x => max n (x.1 + 1 - c.moved)) 0
  let buf := c.buf ++ List.replicate (n - c.buf.length) Slot.empty
  { c with buf := xs.foldl (fun b x => b.set (x.1 - c.moved) x.2) buf }

/-- The command behind n more positions. -/
def Cmd.behind (c : Cmd) (n : Nat) : Cmd := { c with moved := c.moved + n, buf := c.buf.drop n }

/-- The element in a place, with its scale byte. -/
def Slot.elem : Slot → Nat × Nat
  | .full x sc => (x, sc)
  | _ => (0, 0)

/-- Whether a place holds an element that is still to be moved. -/
def Slot.isFull : Slot → Bool
  | .full _ _ => true
  | _ => false

/-- The positions from p on that stand in p's line and that a test on their places takes: an aligned word, and the part of a line that a
command reads or writes, is read or written whole (R188). -/
def lineGroup (ks : List (Option (Nat × Nat))) (c : Cmd) (ok : Slot → Bool) (p : Nat) : List Nat :=
  match ks[p]? with
  | some (some k) => (ks.zipIdx.filter (fun x => p ≤ x.2 && x.1 == some k && ok (c.slot x.2))).map (·.2)
  | _ => []

/-- The first position from the first element not moved on whose place has not been read. -/
def firstUnread (c : Cmd) (n : Nat) : Option Nat :=
  let k := (c.buf.findIdx? (· == .empty)).getD c.buf.length
  if c.moved + k < n then some (c.moved + k) else none

/-- The shard and fields of the elements at positions, in order. -/
def groupFields (d : BitVec 512) (ps : List (Option (List Nat))) (ms : List Nat) : Nat × List Field :=
  let xs := ms.filterMap (fun p => (ps[p]?).join)
  ((xs.head?.map (fun x => (elemFields d x).1)).getD 0, xs.flatMap (fun x => (elemFields d x).2))

/-- The elements of n positions from their fields fs and the values of the different ones among these: a code, and for an MX object its
scale byte. -/
def elemsOf (d : BitVec 512) (fs us : List Field) (vs : List Nat) (n : Nat) : List (Nat × Nat) :=
  if dIsMx d then
    let all := us.zip vs
    let val (k : Nat) : Nat := ((fs[k]?).bind (fun f => List.lookup f all)).getD 0
    (List.range n).map (fun k => (val (2 * k), val (2 * k + 1)))
  else (vs.take n).map (fun v => (v, 0))

/-- The different ones of the fields of elements: those of an MX block have one scale byte. -/
def ownFields {α : Type} [BEq α] (d : BitVec 512) (fs : List α) : List α := if dIsMx d then fs.reverse.eraseDups.reverse else fs

/-- Read the elements at positions that move together of an object, or take them from a peer's reply (R188, R202, R223). -/
def readGroup (s : State) (c : Cmd) (home : Bool) (h : DWord) (d : BitVec 512) (ps : List (Option (List Nat))) (ms : List Nat)
    (k : List (Nat × (Nat × Nat)) → Cmd → Cmd) : Moved × State :=
  let (sh, all) := groupFields d ps ms
  let fs := ownFields d all
  let take (vs : List Nat) (c : Cmd) : Moved := .on (k (ms.zip (elemsOf d all fs vs ms.length)) c)
  match c.reply with
  | some bs => (take ((List.range fs.length).map (replyValue bs)) { c with reply := none }, s)
  | none =>
    match objReadFrom home s (s.blk.who c.eng.agent.code) h d c.req sh fs with
    | (.ok vs _, s) => (take vs c, s)
    | (.park m, s) => (.park c h false m, s)
    | (.peer pkg, s) => (.ask c pkg opRead h ((fs.head?.map Field.off).getD 0) (fieldBody sh fs), s)

/-- The elements read go to their places. -/
def fillSlots (xs : List (Nat × (Nat × Nat))) (c : Cmd) : Cmd := c.setSlots (xs.map (fun x => (x.1, .full x.2.1 x.2.2)))

/-- Positions whose elements have been moved; the command's first write is noted. -/
def doneSlots (ms : List Nat) (c : Cmd) : Cmd := { c.setSlots (ms.map (fun p => (p, .done))) with dest := [1] }

/-- Write the elements at positions that move together of an object from their places, or take a peer's acknowledgement (R188, R209, R211); `fires`
says that the write fires watches (R328). -/
def writeGroup (s : State) (c : Cmd) (fires : Bool) (j : Job) (ms : List Nat) : Moved × State :=
  let d := objAt j.ds 0
  let (sh, all) := groupFields d j.pos ms
  let put := ownFields d (all.zip (ms.flatMap (fun p => let x := (c.slot p).elem; if dIsMx d then [x.1, x.2] else [x.1])))
  let fs := put.map (·.1)
  let vs := put.map (·.2)
  let fire (s : State) : State :=
    if fires then
      ms.foldl (fun s p =>
        match (j.pos[p]?).join with
        | some xs => fireWatches s c.ha (linearOf (dExts d) xs) (scalarOf (dFmt d) (c.slot p).elem.1)
        | none => s) s
    else s
  match c.reply with
  | some _ => (.on (doneSlots ms { c with reply := none }), s)
  | none =>
    let lines := (j.whole.filter (fun l => l.1 == sh)).map (·.2)
    match objWrite s (s.blk.who c.eng.agent.code) c.ha d c.req sh fs vs lines with
    | (.ok _ _, s) => (.on (doneSlots ms c), fire s)
    | (.park m, s) => (.park c c.ha true m, s)
    | (.peer pkg, s) =>
      let near := (fs.flatMap (fun f => linesOf f.off f.len)).eraseDups
      (.ask c pkg opWrite c.ha ((fs.head?.map Field.off).getD 0) (writeBody fires sh (lines.filter near.contains) fs vs), s)

/-- The body of a request to combine elements at their home (log 14). -/
def combineBody (op : RedOp) (ft : Nat) (mode : BitVec 3) (fires : Bool) (xs : List (Nat × Nat)) : List Byte :=
  leBytes 1 13 ++ leBytes 8 (op.code + ft * 2 ^ 8 + mode.toNat * 2 ^ 16 + b2n fires * 2 ^ 20)
    ++ xs.flatMap (fun x => leBytes 8 x.1 ++ leBytes 8 x.2)

/-- How a shard's fields are read and written. -/
structure Access where
  read : State → Nat → List Field → Acc (List Nat) × State
  write : State → Nat → List Field → List Nat → Acc Unit × State

/-- The accesses of an agent of this package at an object's home copy. -/
def homeAccess (who : Who) (h : DWord) (d : BitVec 512) (f : DWord) : Access :=
  ⟨fun s sh fs => objReadFrom true s who h d f sh fs, fun s sh fs vs => objWrite s who h d f sh fs vs []⟩

/-- Combine elements, by linear index, with values at their home, indivisibly (R188, R209, R211): the flags, or the stop, which leaves the
memory as it was. -/
def combineBy (a : Access) (s : State) (h : DWord) (d : BitVec 512) (op : RedOp) (ft : Nat) (mode : RMode) (fires : Bool)
    (xs : List (Nat × Nat)) : Acc Flags × State :=
  let sh := (xs.head?.map (fun x => (indexFields d x.1).1)).getD 0
  let fs := xs.flatMap (fun x => (indexFields d x.1).2.take 1)
  match a.read s sh fs with
  | (.park m, s) => (.park m, s)
  | (.peer p, s) => (.peer p, s)
  | (.ok vs _, s) =>
    let rs := List.zipWith (fun y (x : Nat × Nat) => combine op (dFmt d) ft mode y x.2) vs xs
    match a.write s sh fs (rs.map (·.1)) with
    | (.park m, s) => (.park m, s)
    | (.peer p, s) => (.peer p, s)
    | (.ok _ st, s) =>
      let s := if fires then (xs.zip rs).foldl (fun s x => fireWatches s h x.1.1 (scalarOf (dFmt d) x.2.1)) s else s
      (.ok (rs.foldl (fun fl r => fl ||| r.2) 0) st, s)

/-- Combine the elements at positions of one line with those in their places (R209, R211). -/
def combineGroup (s : State) (c : Cmd) (op : RedOp) (ft : Nat) (fires : Bool) (j : Job) (ms : List Nat) : Moved × State :=
  let d := objAt j.ds 0
  let xs := ms.map (fun p => (linearOf (dExts d) (((j.pos[p]?).join).getD []), (c.slot p).elem.1))
  let finish (f : Flags) (c : Cmd) : Moved := .on (doneSlots ms { c with flags := c.flags ||| f })
  match c.reply with
  | some bs => (finish (BitVec.ofNat 7 (replyValue bs 0)) { c with reply := none }, s)
  | none =>
    match combineBy (homeAccess (s.blk.who c.eng.agent.code) c.ha d c.req) s c.ha d op ft (RMode.of c.rm) fires xs with
    | (.ok f _, s) => (finish f c, s)
    | (.park m, s) => (.park c c.ha true m, s)
    | (.peer pkg, s) => (.ask c pkg opAtomic c.ha 0 (combineBody op ft c.rm fires xs), s)

/-! ## Filling a tile -/

/-- The elements of one on-chip row. -/
def rowLength (c : Cmd) (d : BitVec 512) : Nat := match c.instr with | .sreuse .. => dExt d 0 | _ => qExt c.shape 0

/-- The elements of a row that are converted together: a block of 32 where a side is MX, and otherwise those of an aligned word (R188, R203). -/
def landUnit (fo ft : Nat) : Nat := if mxCode fo || mxCode ft || 64 % codeWidth ft != 0 then 32 else 64 / codeWidth ft

/-- Convert and write elements to the tile, from the first position not moved on (R202, R203). -/
def landBlock (s : State) (c : Cmd) (d : BitVec 512) (xs : List (Nat × Nat)) : Cmd × State :=
  let (lv, off) := tilePlace c
  let n := max 1 (rowLength c d)
  let i := c.moved
  let (ys, f) := convertBlock (dFmt d) (tFmt c.dA) (RMode.of c.rm) xs (posDraws c i xs.length)
  let put : State → Nat × Nat → State := fun s y => putTileElem s lv off c.dA n ((i + y.1) / n) ((i + y.1) % n) y.2
  let s := (ys.mapIdx (fun j y => (j, y.1))).foldl put s
  let s := if mxCode (tFmt c.dA) then
      putTileScale s lv off c.dA (i / n) (i % n / 32) ((ys.head?.map (·.2)).getD 0) else s
  let keep := match c.instr with | .fetchStep .. => ys.map (·.1) | _ => []
  ({ c.behind xs.length with flags := c.flags ||| f, dest := c.dest ++ keep }, s)

/-- The elements that land together from the first position not moved on, in rows of n: those that are converted together and, in an MX tile,
those whose scale bytes stand in one word (R188). -/
def landSpan (s : State) (c : Cmd) (fo n : Nat) : Nat :=
  let (lv, off) := tilePlace c
  let i := c.moved
  let all := if mxCode (tFmt c.dA) then 32 * (8 - (scaleAddr s lv off c.dA (i / n) + i % n / 32) % 8) else landUnit fo (tFmt c.dA)
  min all (n - i % n)

/-- Read the line of the first position not read of the object that a command reads; a clipped position is an exact zero (R202, R203). -/
def readNext (s : State) (c : Cmd) (p : Nat) (h : DWord) (d : BitVec 512) (ps : List (Option (List Nat)))
    (ks : List (Option (Nat × Nat))) : Moved × State :=
  match ps[p]? with
  | some (some _) => readGroup s c false h d ps (lineGroup ks c (· == .empty) p) fillSlots
  | some none => (.on (c.setSlots [(p, .full 0 0)]), s)
  | none => (.done c, s)

/-- A command that fills a tile moves on: elements that land together land, or a line is read. -/
def moveIn (j : Job) (s : State) (c : Cmd) : Moved × State :=
  let d := objAt j.ds 0
  let n := max 1 (rowLength c d)
  let g := landSpan s c (dFmt d) n
  if j.pos.length ≤ c.moved then (.done c, s)
  else
    let xs := c.buf.take g
    if xs.length == g && xs.all Slot.isFull then
      let (c, s) := landBlock s c d ((xs.take (landUnit (dFmt d) (tFmt c.dA))).map Slot.elem)
      (.on c, s)
    else
      match firstUnread c j.pos.length with
      | some p => readNext s c p ((j.uses.head?.map (·.h)).getD 0) d j.pos j.keys
      | none => (.done c, s)

/-- Read the previous step's payload (R207), from the home copy, which the block's own `sgate` updates reach (R172). -/
def movePayload (j : Job) (s : State) (c : Cmd) : Moved × State :=
  if j.pos2.length ≤ c.moved then (.done c, s)
  else
    match c.slot c.moved with
    | .full x _ => (.on { c.behind 1 with dest := c.dest ++ [x] }, s)
    | _ => readGroup s c true c.g.inH (objAt j.ds 1) j.pos2 (lineGroup j.keys2 c (· == .empty) c.moved) fillSlots

/-! ## Writing an object -/

/-- The elements of a tile at the positions from i on, n of them, converted to the object's format together (R203, R209). -/
def loadBlock (s : State) (c : Cmd) (d : BitVec 512) (pos : List (Option (List Nat))) (i n : Nat) : List (Nat × Nat) × Flags :=
  let (lv, off) := tilePlace c
  let r := max 1 (qExt c.shape 0)
  let xs := (List.range n).map (fun k =>
    match pos[i + k]? with
    | some (some _) => tileElem s lv off c.dA ((i + k) / r) ((i + k) % r)
    | _ => (0, 0))
  match c.instr with
  | .put .. => convertBlock (tFmt c.dA) (dFmt d) (RMode.of c.rm) xs (posDraws c i n)
  | _ => (xs, 0)

/-- Load every element that a `put` or `put.add` moves from its tile: each word of the tile is read once, whole (R188). -/
def loadTile (j : Job) (s : State) (c : Cmd) : Cmd :=
  let d := objAt j.ds 0
  let g := if mxCode (dFmt d) then 32 else 1
  let (es, f) := (List.range (cdiv (j.pos.length - c.moved) g)).foldl
    (fun (r : List (List (Nat × Nat)) × Flags) k => let (es, f) := loadBlock s c d j.pos (c.moved + g * k) g; (es :: r.1, r.2 ||| f)) ([], 0)
  { c with flags := c.flags ||| f, buf := es.reverse.flatten.map (fun x => .full x.1 x.2) }

/-- Fetch the element of a position that a command writes: from its tile, from its scalar, or from the second object. -/
def fillSource (j : Job) (s : State) (c : Cmd) (p : Nat) : Moved × State :=
  match c.instr with
  | .poolFill .. => (.on { c with buf := (j.pos.drop c.moved).map (fun _ => .full (bits c.sx.toNat 0 (dWidth (objAt j.ds 0))) 0) }, s)
  | .poolCopy .. | .poolRed .. => readNext s c p c.hb (objAt j.ds 1) j.pos2 j.keys2
  | _ => (.on (loadTile j s c), s)

/-- A command that writes an object moves on: moved and clipped positions go, the elements of a line are fetched, or the line is written or
combined (R209, R211). -/
def moveOut (j : Job) (s : State) (c : Cmd) : Moved × State :=
  match j.pos[c.moved]? with
  | none => (.done c, s)
  | some none => (.on (c.behind 1), s)
  | some (some _) =>
    if c.slot c.moved == .done then (.on (c.behind 1), s)
    else
      let ms := lineGroup j.keys c (· != .done) c.moved
      match ms.find? (fun p => c.slot p == .empty) with
      | some p => fillSource j s c p
      | none =>
        match c.instr with
        | .putAdd .. => combineGroup s c .add (tFmt c.dA) true j ms
        | .poolRed _ op _ _ _ _ _ => combineGroup s c op (dFmt (objAt j.ds 1)) false j ms
        | .put .. => writeGroup s c true j ms
        | _ => writeGroup s c false j ms

/-- `pool.cmp` moves on (R211; log 79): the elements of the first object are read into their places, and a line of the second compared with them. -/
def moveCmp (j : Job) (s : State) (c : Cmd) : Moved × State :=
  match j.pos[c.moved]? with
  | none => (.done c, s)
  | some none => (.on (c.behind 1), s)
  | some (some _) =>
    match c.slot c.moved with
    | .done => (.on (c.behind 1), s)
    | .differs => (.done { c with dest := [c.moved] }, s)
    | _ =>
      let ms := lineGroup j.keys2 c (fun x => x == .empty || x.isFull) c.moved
      match ms.find? (fun p => c.slot p == .empty) with
      | some p => readNext s c p c.ha (objAt j.ds 0) j.pos j.keys
      | none =>
        readGroup s c false c.hb (objAt j.ds 1) j.pos2 ms
          (fun xs c => c.setSlots (xs.map (fun x => (x.1, if (c.slot x.1).elem == x.2 then .done else .differs))))

/-- A command moves on. -/
def moveOne (j : Job) (s : State) (c : Cmd) : Moved × State :=
  match c.instr with
  | .fetch .. | .fetchIx .. | .sreuse .. => moveIn j s c
  | .fetchStep .. => if j.pos.length ≤ c.moved then movePayload j s c else moveIn j s c
  | .put .. | .putAdd .. | .poolFill .. | .poolCopy .. | .poolRed .. => moveOut j s c
  | .poolCmp .. => moveCmp j s c
  | _ => (.done c, s)

/-- Move on until the end or a stop. -/
def moveAll (j : Job) : Nat → State → Cmd → Moved × State
  | 0, s, c => (.done c, s)
  | n + 1, s, c =>
    match moveOne j s c with
    | (.on c, s) => moveAll j n s c
    | r => r

/-- The number of steps that a job takes at most: three to a position. -/
def jobFuel (j : Job) : Nat := 3 * (j.pos.length + j.pos2.length) + 3

/-! ## Reading ahead of an earlier command (R26) -/

/-- The bytes of the rows of a tile. -/
def tileRowsOf (s : State) (c : Cmd) : List Byte :=
  let (lv, off) := tilePlace c
  (List.range (tRows c.dA + 1)).flatMap (fun k => Memory.chip s.mem (rowAddr s lv off c.dA k) (tRowb c.dA + 1))

/-- The source bytes of a `relay` or `xcopy`: those read ahead, or those in the tile. -/
def sourceRows (s : State) (c : Cmd) : List (List Byte) :=
  let n := tRowb c.dA + 1
  let bs := if c.buf.isEmpty then tileRowsOf s c else c.buf.map (fun x => BitVec.ofNat 8 x.elem.1)
  (List.range (tRows c.dA + 1)).map (fun k => (bs.drop (n * k)).take n)

/-- Read one line more of what a command reads, where nothing stops it. -/
def aheadOne (j : Job) (s : State) (c : Cmd) : Option (Cmd × State) :=
  let go (r : Moved × State) : Option (Cmd × State) := match r with | (.on c, s) => some (c, s) | _ => none
  match c.instr, firstUnread c j.pos.length with
  | .fetch .., some p | .fetchIx .., some p | .fetchStep .., some p | .sreuse .., some p =>
    go (readNext s c p ((j.uses.head?.map (·.h)).getD 0) (objAt j.ds 0) j.pos j.keys)
  | .poolCopy .., some p | .poolRed .., some p => go (readNext s c p c.hb (objAt j.ds 1) j.pos2 j.keys2)
  | .poolCmp .., some p => go (readNext s c p c.ha (objAt j.ds 0) j.pos j.keys)
  | .put .., some _ | .putAdd .., some _ => some (loadTile j s c, s)
  | .relay .., _ | .xcopy .., _ =>
    if c.buf.isEmpty then some ({ c with buf := (tileRowsOf s c).map (fun b => .full b.toNat 0) }, s) else none
  | _, _ => none

/-- The data movement of a command that starts behind another one begins: what it reads is read as far as nothing stops it (R26). -/
def readAhead (j : Job) : Nat → State → Cmd → Cmd × State
  | 0, s, c => (c, s)
  | n + 1, s, c =>
    match aheadOne j s c with
    | some (c, s) => readAhead j n s c
    | none => (c, s)

/-! ## The end of a command -/

/-- |x| rounded to FP32; flags are not set (R167). -/
def roundF32 (v : Val) : Val := fp32.decode (roundTo fp32 .rne 0 v).1

/-- The sums d and l of one row (R167). -/
def rowDistance (ps : List (Val × Val)) : Val × Val :=
  ps.foldl (fun (a : Val × Val) (x : Val × Val) =>
    let diff := roundF32 (vAdd .rne x.1 (vNegate x.2)).1
    (roundF32 (vAdd .rne a.1 (vAbsolute diff)).1, roundF32 (vAdd .rne a.2 (vAbsolute x.2)).1))
    (.fin false 0 0, .fin false 0 0)

/-- The comparator's d and l over rows of n elements (R167). -/
def stepDistance (n : Nat) (rows : Nat) (ps : List (Val × Val)) : Val × Val :=
  (blocksOf n rows ps).foldl (fun (a : Val × Val) r =>
    let (dr, lr) := rowDistance r
    (roundF32 (vAdd .rne a.1 dr).1, roundF32 (vAdd .rne a.2 lr).1)) (.fin false 0 0, .fin false 0 0)

/-- The skip condition (R167). -/
def skipCond (fm : Fmt) (theta : Word) (n rows : Nat) (xs ps : List Nat) : Bool :=
  if bits theta.toNat 0 31 == 0 then xs == ps
  else
    let vs := (xs.zip ps).map (fun x => ((fm.value 0 x.1).1, (fm.value 0 x.2).1))
    let (d, l) := stepDistance n rows vs
    let t := roundF32 (vMul (fp32.decode theta.toNat) l).1
    !d.isNan && !t.isNan && !vLess t d

/-- A `fetch.step`'s result takes its place in the comparator queue (R166, R207). -/
def stepResult (c : Cmd) (g : BitVec 3) (d : BitVec 512) (b : Block) : Block :=
  let n := dExt d 0
  let rows := dExt d 1
  let xs := c.dest.take (n * rows)
  let ps := c.dest.drop (n * rows)
  let cond := match fmtOf (dFmt d) with | some fm => skipCond fm c.g.theta n rows xs ps | none => false
  let r : CmpResult :=
    ⟨c.n, true, c.sx.toNat, cond, c.wtaint, xs.flatMap (leBytes (dWidth d / 8))⟩
  let x := b.gCell g
  b.setG g { x with queue := x.queue.map (fun q => if q.cmd == c.n && !q.done then r else q) }

/-- `relay` (R208): every source byte is read before any destination byte is written. -/
def relayRows (c : Cmd) (lvd : Level) (s : State) : State :=
  let m := ((sourceRows s c).mapIdx (fun k r => (k, r))).foldl
    (fun m (x : Nat × List Byte) => Memory.writeAll m (rowAddr s lvd c.sx.toNat c.dB x.1) x.2) s.mem
  { s with mem := m }

/-- The model address of an offset in the receiver's physical squares (R92, R210). -/
def receiverAddr (s : State) (c : Cmd) (off : Nat) : Nat :=
  let core : Core := BitVec.ofNat 12 (s.blk.core.toNat / 256 * 256 + bits c.sx.toNat 0 8)
  spAddr core (if c.dest.headD 0 == 1 then (off + 2 ^ 17) % 2 ^ 18 else off)

/-- `xcopy` (R179, R210): the payload, all of it read before any of it is written, which is the model's choice for a sender's own core (log 71),
and then the landing word, which becomes full and lets its waiters through. -/
def xcopyRows (c : Cmd) (s : State) : State :=
  let m := ((sourceRows s c).mapIdx (fun k r => (k, r))).foldl
    (fun m (x : Nat × List Byte) => Memory.writeAll m (receiverAddr s c (tBase c.dB + x.1 * tPitch c.dB)) x.2) s.mem
  let a := receiverAddr s c (landing c)
  serveWaiters a s.feWait.length (setFull { s with mem := Memory.writeAll m a (leBytes 8 (c.si.getD 0 0).toNat) } a true)

/-- What a command whose elements are all moved still writes, and its flags. -/
def tFinish (j : Job) (c : Cmd) (s : State) : Flags × State :=
  match c.instr with
  | .fetchStep _ _ g _ _ _ _ => (c.flags, { s with blk := stepResult c g (objAt j.ds 1) s.blk })
  | .relay _ _ _ _ lvd _ _ => (c.flags, relayRows c lvd s)
  | .xcopy .. => (c.flags, xcopyRows c s)
  | .poolCmp .. =>
    let v := match c.dest with | p :: _ => p | [] => 2 ^ 64 - 1
    (c.flags, { s with mem := Memory.writeAll s.mem (rowAddr s .sp 0 c.dA 0) (leBytes 8 v) })
  | _ => (c.flags, s)

/-- Whether a command has moved an element that stands (R283); a command that writes an object notes its first write. -/
def Cmd.hasMoved (c : Cmd) : Bool :=
  match c.instr with
  | .put .. | .putAdd .. | .poolFill .. | .poolCopy .. | .poolRed .. => !c.dest.isEmpty
  | _ => c.moved != 0

end Sys2Proof.Machine
end

