-- ==== Sys2Proof/Machine/EngineEvents.lean ====
section
/-! DEFINITION. The events of the engines: the start of the command at a queue's head and the completion of the running one (R26,
R27, R30, R53, R121, R131, R154, R204, R227, R240, R282, R283). -/

namespace Sys2Proof.Machine

/-! ## Start -/

/-- Whether the slip depth lets a command start: every command numbered n - D or lower has started (R240). -/
def slipOk (b : Block) (c : Cmd) : Bool := b.queued.all (fun x => x.popped || c.n < x.n + c.depth)

/-- Whether the block's engines start commands: its queues are not frozen, it runs or has exited, no frame edge has stopped its partition
(R22, R121, R260, R332, R334), and no reply of another package is to come first (log 14). -/
def engineStarts (s : State) : Bool :=
  !s.blk.frozen && (s.blk.phase == .running || s.blk.phase == .exited) && (switchOf s s.blk.part).edge == .run
    && !s.blk.abroad

/-- Whether the command at a queue's head may start (R26, R30, R225, R240): its token is there, the slip depth lets it, the loads
its captured sets name have completed, and no park or request holds it. -/
def headReady (b : Block) (c : Cmd) : Bool :=
  (c.popped || ((match c.hdr.wait with | some k => (b.token k).count != 0 | none => true) && slipOk b c))
    && (c.off || c.waits.isEmpty) && parkOver c.park && c.remote.isNone

/-- The wait token popped, once (R30). -/
def popWait (b : Block) (c : Cmd) : Block :=
  match c.popped, c.hdr.wait with
  | false, some k => b.pop k
  | _, _ => b

/-- The command as it starts: a retried one begins anew, but for the elements it has moved (R126, R283) and for a race check under way at
another package. -/
def Cmd.fresh (c : Cmd) : Cmd :=
  let c := { c with popped := true, park := none, remote := none, noPush := c.skipEnd && c.noPush }
  if c.hasMoved || c.reply.isSome || c.checked != 0 then c else { c with moved := 0, buf := [], flags := 0, dest := [] }

/-- The sets that a command folds at its start (R149, R163, R227). -/
def startFold (b : Block) (c : Cmd) : Taint :=
  match c.instr with
  | .vst _ _ _ _ ws => (b.wCell ws).t ||| c.wtaint
  | .mxpack _ _ _ _ td => b.bankT td.toNat ||| c.wtaint
  | .mmulG .. => 0
  | _ => c.taint

/-- The stop that a command meets at its start, or the command as it runs (R131, R154, R204); a predicated-off command, the
completed push of a skipped one and the resumption of one that has moved elements make no checks (R27, R30, R283). -/
def startChecks (s : State) (c : Cmd) : Except Stop Cmd × State :=
  if c.off || c.skipEnd || c.hasMoved then (.ok c, s)
  else
    match c.eng with
    | .V => (match vStartFault s.blk c with | some (x, d) => .error (.fault x d) | none => .ok c, s)
    | .M => (match mStartFault s c with | some (x, d) => .error (.fault x d) | none => .ok (mCapture s c), s)
    | _ => startT s c

/-- A descriptor asked of a peer for a command that writes the object as given; nothing where no path is up. -/
def askDesc (s : State) (pkg : Nat) (h : DWord) (write : Bool) : Option (Remote × State) :=
  (sendRequest s pkg opRead h descOffset (some h) []).map (fun x => ({ x.1 with write := write }, x.2))

/-- The park of a command whose path is down (R184, R361). -/
def downPark (s : State) (c : Cmd) (h : DWord) (write : Bool) (m : Meet) : Park × State :=
  park s (s.blk.who c.eng.agent.code) h write false m

/-- Whether the stall wire holds a command that names a wait token (R314). -/
def stallHolds (s : State) (c : Cmd) : Bool := !c.popped && c.hdr.wait.isSome && stallWire s s.blk

/-- Whether an engine takes a further command: V and M run one at a time, and F and P overlap the commands that neither a park nor a request
holds (R25, R26, R282). -/
def EngineQ.takes (q : EngineQ) (e : Engine) : Bool :=
  match e with
  | .V | .M => q.started.isEmpty
  | _ => q.started.all (fun c => parkOver c.park && c.remote.isNone)

/-- The engine with a command started: it runs, or stands behind those that run (R26). -/
def EngineQ.start (q : EngineQ) (c : Cmd) : EngineQ := if q.run.isNone then { q with run := some c } else { q with trail := q.trail ++ [c] }

/-- The queue of an engine replaced. -/
def putQueue (s : State) (e : Engine) (cs : List Cmd) : State :=
  { s with blk := s.blk.setEng e { s.blk.eng e with q := cs } }

/-- The data movement of a command that starts behind another one (R26). -/
def overlap (e : Engine) (c : Cmd) (s : State) : Cmd × State :=
  if (s.blk.eng e).run.isNone || c.off || c.skipEnd || c.hasMoved then (c, s)
  else
    match resolveUses s c 0 c.objUses with
    | (.ok ds, s) => let j := jobOf c ds; readAhead j (jobFuel j) s c
    | _ => (c, s)

/-- The command as it starts in its engine, with the sets that it folds (R26, R227). -/
def startCmd (e : Engine) (c : Cmd) (s : State) : State :=
  let (c, s) := overlap e c s
  let s := { s with blk := s.blk.setEng e ((s.blk.eng e).start c) }
  { s with blk := if c.off || c.skipEnd then s.blk else s.blk.foldSet (startFold s.blk c) }

/-- A command at its queue's head starts, stops, or takes an engine fault: `take` says what a fault does (R26, R30, R121, R204). -/
def attemptStart (e : Engine) (c : Cmd) (rest : List Cmd) (take : Cmd → Nat → Nat → State → State) (s : State) : State :=
  let c := c.fresh
  match startChecks (putQueue s e (c :: rest)) c with
  | (.ok c, s) => startCmd e c (putQueue s e rest)
  | (.error (.fault cause d), s) =>
    let u := if (c.objUses.any (fun u => u.reg.isNone)) then 1 else 0
    take c cause d { (putQueue s e rest) with fresh := s.fresh + u }
  | (.error .hold, s) => putQueue s e ({ c with reply := none } :: rest)
  | (.error (.park h w m), s) =>
    let (p, s) := park s (s.blk.who c.eng.agent.code) h w false m
    putQueue s e ({ c with park := some p } :: rest)
  | (.error (.ask pkg h w), s) =>
    match askDesc s pkg h w with
    | some (r, s) => putQueue s e ({ c with remote := some r } :: rest)
    | none =>
      let (p, s) := downPark s c h w (noPath opRead descOffset [])
      putQueue s e ({ c with park := some p } :: rest)
  | (.error (.send c h body), s) =>
    match sendRequest s (hHome h) opAtomic h 0 none body with
    | some (r, s) => putQueue s e ({ c with remote := some { r with write := false } } :: rest)
    | none =>
      let (p, s) := downPark s c h false (noPath opAtomic 0 body)
      putQueue s e ({ c with park := some p } :: rest)

/-- A command whose fault arises in the cycle of another one that was dispatched earlier: the fault waits at its queue's head (R124). -/
def pendFault (c : Cmd) (cause d : Nat) (s : State) : State :=
  let c := { c with fault := some (cause, BitVec.ofNat 32 d), popped := true, pend := true, reply := none, checked := 0 }
  { s with blk := s.blk.returnCmd c }

/-- The command whose fault the block has just taken: it stands at the head of its engine's queue (R100, R121). -/
def takenFault (b : Block) : Option Cmd :=
  match bits b.trapCause.toNat 8 4 with
  | 0 => none
  | a => (b.eng (agentEngine a)).q.head?

/-- Whether a command of an engine can fault in the cycle of the fault that has just been taken: of another engine, dispatched later, and
the strand has executed nothing since (R124). -/
def sameCycle (b : Block) (c : Cmd) : Bool :=
  b.frozen && b.faultNow && b.handler && !c.pend
    && (match takenFault b with | some x => x.eng != c.eng && x.n < c.n | none => false)

/-- ENGINE_COMMAND_START: the command at the head of an engine's queue starts, or stops where its checks say (R26, R30, R121,
R204, R314); in the cycle of an earlier fault only its own fault comes of it, and waits (R124). -/
def execEngineCommandStart (e : Engine) (s : State) : Out :=
  let b := s.blk
  match (b.eng e).q with
  | [] => .next s
  | c :: rest =>
    if !(b.eng e).takes e || !headReady b c || stallHolds s c then .next s
    else
      let s' := { s with blk := popWait b c }
      if engineStarts s then .next (attemptStart e c rest (fun c cause d s => engFault c cause d s) s')
      else if sameCycle b c then
        match startChecks s' c.fresh with
        | (.error (.fault cause d), u) => .next (pendFault c.fresh cause d (putQueue u e rest))
        | _ => .next s
      else .next s

/-! ## Completion -/

/-- A running command's fault: taken, or, in the cycle of an earlier command's fault, left at its queue's head (R121, R124). -/
def runFault (c : Cmd) (cause d : Nat) (s : State) : State :=
  if sameCycle s.blk c then pendFault c cause d s else engFault c cause d s

/-- The end of a command whose effects are made: its flags merge and its signal token is pushed; a push at 255 is an engine fault
that merges no flags (R30, R53, R121). -/
def finishCmd (e : Engine) (c : Cmd) (f : Flags) (s : State) : State :=
  let s := tellCmd s c
  let b := s.blk.setEng e (s.blk.eng e).advance
  match c.hdr.sig with
  | none => { s with blk := b.mergeFlags f }
  | some k =>
    if (b.token k).count == 255 then
      runFault { c with noPush := true, moved := 0, buf := [], flags := 0, dest := [] } cTOKOVER k.toNat s
    else { s with blk := (b.push k).mergeFlags f }

/-- A V or M command's effect, with its dead marks behind it (R95, R131, R159). -/
def vmEffect (c : Cmd) (s : State) : Flags × State :=
  let (f, s) := match c.eng with | .V => vEffect c s | _ => mEffect c s
  (f, applyMarks c.instr s)

/-- Replace the running command of an engine. -/
def setRun (e : Engine) (c : Cmd) (s : State) : State :=
  { s with blk := s.blk.setEng e { s.blk.eng e with run := some c } }

/-- The running command of an F or P engine moves on as far as it can, and completes behind its last element (R204, R282,
R283). -/
def runT (e : Engine) (c : Cmd) (s : State) : State :=
  let stop (c : Cmd) (h : DWord) (w : Bool) (m : Meet) (s : State) : State :=
    let (p, s) := park s (s.blk.who c.eng.agent.code) h w false m
    setRun e { c with park := some p, oldDesc := false } s
  let wait (c : Cmd) (h : DWord) (w : Bool) (r : Option (Remote × State)) (m : Meet) (s : State) : State :=
    match r with
    | some (rm, s) => setRun e { c with remote := some { rm with write := w } } s
    | none => let (p, s) := downPark s c h w m; setRun e { c with park := some p, oldDesc := false } s
  match resolveUses s c (if c.hasMoved then 256 else 0) c.objUses with
  | (.error (.fault cause d), s) =>
    runFault c cause d { (tellCmd s c) with fresh := s.fresh + 1 }
  | (.error .hold, s) | (.error (.send ..), s) => s
  | (.error (.park h w m), s) => stop c h w m s
  | (.error (.ask pkg h w), s) => wait c h w (askDesc s pkg h w) (noPath opRead descOffset []) s
  | (.ok ds, s) =>
    let j := jobOf c ds
    match moveAll j (jobFuel j) s c with
    | (.park c h w m, s) => stop c h w m s
    | (.ask c pkg op h off body, s) => wait c h (op != opRead) (sendRequest s pkg op h off none body) (noPath op off body) s
    | (.on c, s) => setRun e c s
    | (.done c, s) =>
      let (f, s) := tFinish j c s
      finishCmd e c f s

/-- Whether a running command waits for an `sgate` update that its block made earlier to a token block it compares (R172). -/
def awaitsGate (b : Block) (c : Cmd) : Bool :=
  match c.instr with
  | .fetchStep .. =>
    b.posted.any (fun p =>
      match p with
      | .gate u => hObj u.handle == hObj c.g.inH && u.j == c.sx.toNat
      | _ => false)
  | _ => false

/-- ENGINE_COMMAND_COMPLETION: the running command of an engine makes its effects and completes (R26, R30, R53). -/
def execEngineCommandCompletion (e : Engine) (s : State) : Out :=
  match (s.blk.eng e).run with
  | none => .next s
  | some c =>
    if s.blk.abroad then .next s
    else if c.off || c.skipEnd then .next (finishCmd e c 0 s)
    else
      match e with
      | .V | .M => let (f, s) := vmEffect c s; .next (finishCmd e c f s)
      | _ =>
        if !parkOver c.park || c.remote.isSome || awaitsGate s.blk c then .next s
        else if s.blk.phase == .saved then .next (inSaved s s.blk.core s.blk.world (runT e { c with park := none }))
        else .next (runT e { c with park := none } s)

end Sys2Proof.Machine
end

