-- ==== Sys2Proof/Machine/Settle.lean ====
section
/-! DEFINITION. Events that name a block which does not move next: bringing it to the front, letting its outstanding work
complete, parking, saving and resuming it (R92, R103, R260), and its save cells. -/

namespace Sys2Proof.Machine

/-- The state that an outcome goes on with; a stop changes nothing. -/
def after (s : State) (o : Out) : State :=
  match o with
  | .next s => s
  | _ => s

/-- Make the block of an identity the one that moves next. -/
def focus (s : State) (id : BId) : State :=
  if s.blk.phase != .none && s.blk.id == id then s
  else
    match s.others.find? (fun b => b.id == id) with
    | none => s
    | some b =>
      let rest := s.others.filter (fun x => x.id != id)
      { s with blk := b, others := if s.blk.phase == .none then rest else s.blk :: rest }

/-- Do something to a block where it moves next, and put back the block that did. -/
def onBlock (s : State) (id : BId) (f : State → State) : State :=
  let home := s.blk
  let s := f (focus s id)
  if home.phase != .none then focus s home.id
  else if s.blk.phase == .none then s
  else { s with blk := home, others := s.blk :: s.others }

/-- Put a block behind the one that moves next, or in front where none stands. -/
def addBlock (s : State) (b : Block) : State :=
  if s.blk.phase == .none then { s with blk := b } else { s with others := s.others ++ [b] }

/-- Take the blocks away that a predicate names; the next one moves in front. -/
def dropBlocks (s : State) (p : Block → Bool) : State :=
  let s := { s with others := s.others.filter (fun b => !p b) }
  if s.blk.phase == .none || !p s.blk then s
  else
    match s.others with
    | b :: bs => { s with blk := b, others := bs }
    | [] => { s with blk := .clear }

/-! ## Letting outstanding work complete -/

/-- Attempt the entries of a list one after another, at most n times. -/
def sweep (f : Nat → State → Out) (size : State → Nat) : Nat → Nat → State → State
  | 0, _, s => s
  | n + 1, k, s =>
    let s' := after s (f k s)
    sweep f size n (if size s' < size s then k else k + 1) s'

/-- The started commands of some engines' queues, the loads and the posted writes of the block that moves next complete as far as they can:
what a park or another package holds stays (R103, R260, R332). -/
def settleBy (goes : Engine → EngineQ → Bool) (s : State) : State :=
  let go (e : Engine) (s : State) : State := if goes e (s.blk.eng e) then after s (execEngineCommandCompletion e s) else s
  let s := [.F, .V, .M, .P].foldl (fun s e => (List.range (s.blk.eng e).started.length).foldl (fun s _ => go e s) s) s
  let s := performStores s
  let s := sweep execPostedStorePerformed (fun s => s.blk.posted.length) s.blk.posted.length 0 s
  sweep execObjectLoadCompletion (fun s => s.blk.loads.length) s.blk.loads.length 0 s

/-- The same in every engine. -/
def settle (s : State) : State := settleBy (fun _ _ => true) s

/-- V and M commands run to completion, at a pre-emption as at a frame edge (R133, R155, R260). -/
def issuesOps (e : Engine) (_ : EngineQ) : Bool := e == .V || e == .M

/-- What completes at a frame edge: V and M commands and a started `xcopy`, with the commands of its queue before it; every other F or P command
stops where it is (R26, R212, R332, R333; log 48). -/
def edgeOps (e : Engine) (q : EngineQ) : Bool := issuesOps e q || q.started.any Cmd.isXcopy

/-! ## Pre-emption (R92, R103, R260) -/

/-- Stop a block's issue: its unfinished instruction is abandoned unless a park holds it, and its monitor disarmed (R243, R261, R326). -/
def Block.halt (b : Block) (p : Phase) : Block := { b.abandon with phase := p, back := b.phase, monitor := none }

/-- Park a block as its core's parked half (R92). -/
def parkHalf (s : State) (id : BId) : State := updBlock (abandonWait s id) id (fun b => b.halt .parked)

/-- Step 2 of R103 on a block, its monitor disarmed (R330). -/
def Block.saveFold (b : Block) : Block := { b.foldAll with monitor := none }

/-- Save a victim to memory (R103, R260). -/
def saveVictim (s : State) (id : BId) : State :=
  match findBlock s id with
  | none => s
  | some b =>
    let (cells, empties) := takeCells s (coreRanges b.core)
    let slot : SaveSlot := ⟨b.part, victimSlot b.core, b.world, [], cells, empties⟩
    let s := updBlock (abandonWait s id) id (fun b => b.saveFold.halt .saved)
    { s with wo := { s.wo with saves := slot :: s.wo.saves } }

/-- Whether a victim can be saved: every object load has completed, its V and M commands have run to completion and its strand's stores are
performed; its F and P commands run on in the background (R103, R133, R155, R260). -/
def Block.saveable (b : Block) : Bool :=
  b.loads.isEmpty && b.eV.started.isEmpty && b.eM.started.isEmpty
    && b.posted.all (fun p => match p with | .store .. => false | _ => true)

/-- A halted block goes on where it stood. -/
def Block.goOn (b : Block) : Block := { b with phase := b.back, back := .none }

/-- The victim of a world on a core resumes, restored first where it was saved (R260). -/
def resumeVictim (s : State) (c : Core) (world : BitVec 14) : State :=
  let drop (s : State) : State := { s with wo := { s.wo with saves := s.wo.saves.filter (fun v => !v.isVictim c world) } }
  match (allBlocks s).find? (fun b => b.core == c && b.world == world && (b.phase == .parked || b.phase == .saved)) with
  | none => drop s
  | some b =>
    let s :=
      if b.phase == .saved then
        match s.wo.saves.find? (fun v => v.isVictim c world) with
        | some v => putCells s (coreRanges c) v.cells v.empties
        | none => s
      else s
    updBlock (drop s) b.id Block.goOn

/-! ## Device time -/

/-- Device time reaches at least a value (R303; log 26). -/
def reachTime (s : State) (t : Nat) : State :=
  { s with tm := { s.tm with dtime := BitVec.ofNat 64 (min (max s.tm.dtime.toNat t) (2 ^ 64 - 1)) } }

end Sys2Proof.Machine
end

