-- ==== Sys2Proof/Machine/Launches.lean ====
section
/-! DEFINITION. Launches at the dispatchers: the checks of a record (R18, R251), completion records, the CWORD atomic and STATUS
bytes (R252-R254), and the fair rule's bookkeeping (R258). -/

namespace Sys2Proof.Machine

/-! ## Reading the record (R18, R19, R250) -/

/-- The alignment unit A in cores (R18). -/
def LaunchRec.unit (r : LaunchRec) : Nat := [1, 4, 256, 1024].getD r.align 1

/-- The cores of a partition. -/
def partCores (s : State) (part : BitVec 4) : Nat :=
  256 * ((List.range 16).filter (fun i => bitAt (partClusters s part) i)).length

/-- Check 1 of R251. -/
def badFields (r : LaunchRec) : Bool :=
  bits (r.w 0) 30 2 != 0 || bits (r.w 0) 0 10 != 0 || bits (r.w 3) 48 16 != 0 || bits (r.w 6) 0 32 != 0
  || bits (r.w 7) 32 19 != 0 || bits (r.w 7) 0 19 != 0 || (List.range 7).any (fun k => r.w (9 + k) != 0)
  || r.cls == 3 || r.rs == 0 || r.rs == 7 || (r.cls != 1 && r.prio != 0) || (r.cls != 0 && r.deadline != 0)

/-- The gang limits of R18. -/
def badGang (s : State) (part : BitVec 4) (r : LaunchRec) : Bool :=
  let n := r.blocks
  n == 0
  || (if r.locked then 4096 < n || partCores s part < n || r.align == 0 || n % r.unit != 0 else 2 ^ 24 < n)

/-- Whether a dependence counter lies outside a function's range (R249, R298). -/
def outsideDeps (s : State) (fn : BitVec 6) (i : Nat) : Bool :=
  let (base, n) := depRange s fn
  !(base ≤ i && i < base + n)

/-- The reason of the first of checks 1 to 5 that fails; 0 where none does (R251). -/
def recordReason (s : State) (fn : BitVec 6) (part : BitVec 4) (r : LaunchRec) : Nat :=
  if badFields r then 1
  else if r.cls == 0 && r.deadline == 0 then 2
  else if badGang s part r then 3
  else if (r.preempt && 32 < r.nsq) || (r.timed && !r.locked) then 4
  else if (r.wv && outsideDeps s fn r.wctr) || (r.sv && outsideDeps s fn r.sctr) then 5
  else 0

/-- Check 7 of R251. -/
def badEntry (r : LaunchRec) (d : BitVec 512) : Bool :=
  r.entry % 4 != 0 || r.trapv % 4 != 0 || dCount d ≤ r.entry || dCount d ≤ r.trapv

/-- The blocks that have been placed: groups are placed in order (R20). -/
def Launch.placedCount (l : Launch) : Nat := min l.record.blocks (l.nextGroup * l.record.unit)

/-- Whether some group still waits for its place. -/
def Launch.unplaced (l : Launch) : Bool := l.closed.isNone && l.placedCount < l.record.blocks

/-- Whether every block has retired or been reported (R253). -/
def Launch.allReported (l : Launch) : Bool := !l.unplaced && l.reports.length == l.placedCount

/-! ## Eligibility and the fair rule (R256, R258) -/

/-- Whether a launch is eligible: it has passed its checks, has a group to place, and waits for no dependence counter (R256). -/
def waitsToPlace (s : State) (l : Launch) : Bool := l.counted && l.unplaced && (!l.record.wv || depCounter s l.record.wctr == 0)

/-- Whether a dispatcher may place a launch's next group: the launch is eligible, its world is the one that its partition runs, and no frame
edge holds the partition's placements (R256, R332, R334). -/
def eligible (s : State) (l : Launch) : Bool :=
  waitsToPlace s l && partWorld s l.part == some l.world && (switchOf s l.part).edge == .run

/-- A function's weight (R298); the range of W begins at 1. -/
def weight (s : State) (fn : Nat) : Nat := max 1 (bits (hubWord s 4 fn 0) 38 8)

/-- The least common multiple of the weights 1 to 255: virtual times are kept in units of its reciprocal, so that R258 is
exact. -/
def fairScale : Nat := (List.range 255).foldl (fun a k => Nat.lcm a (k + 1)) 1

/-- A function's virtual time. -/
def vtimeOf (s : State) (fn : Nat) : Nat := (s.dp.vtime[fn]?).getD 0

/-- Set a function's virtual time. -/
def setVtime (s : State) (fn v : Nat) : State := { s with dp := { s.dp with vtime := s.dp.vtime.setIfInBounds fn v } }

/-- Whether a function holds an eligible launch of class B (R256, R258). -/
def holdsB (s : State) (fn : Nat) : Bool := s.dp.launches.any (fun l => l.fn.toNat == fn && l.cls == 2 && waitsToPlace s l)

/-- The least of a list. -/
def leastOf : List Nat → Option Nat
  | [] => none
  | x :: xs => match leastOf xs with | some y => some (min x y) | none => some x

/-- Bring the fair rule up to date: a function that gains an eligible class B launch after holding none catches up with the least
virtual time of the others that hold one (R258). -/
def settleFair (s : State) : State :=
  let holds := (List.range 64).filter (holdsB s)
  let old := holds.filter (fun f => s.dp.holdB.getLsbD f)
  let catchUp (s : State) (f : Nat) : State :=
    match leastOf (old.map (vtimeOf s)) with
    | some v => setVtime s f (max (vtimeOf s f) v)
    | none => s
  let s := (holds.filter (fun f => !s.dp.holdB.getLsbD f)).foldl catchUp s
  { s with dp := { s.dp with holdB := BitVec.ofNat 64 (holds.foldl (fun a f => a + 2 ^ f) 0) } }

/-! ## Completion (R252, R253) -/

/-- The number of reports with a status. -/
def countStatus (rs : List Report) (code : Nat) : Nat := (rs.filter (fun r => r.status == code)).length

/-- The report of the lowest index among those not DONE. -/
def firstBad (rs : List Report) : Option Report :=
  rs.foldl (fun a r =>
    if r.status == 0 then a
    else match a with | none => some r | some b => if r.lin < b.lin then some r else some b) none

/-- The 64 bytes of a completion record (R253); the blocks never placed have the status with which the
launch was closed, NOT_RUN where its record was refused. -/
def completionBytes (l : Launch) (reason : Nat) (time : DWord) : List Byte :=
  let rs := l.reports
  let unplaced := l.record.blocks - l.placedCount
  let code := l.closed.getD 5
  let count (k : Nat) : Nat := countStatus rs k + (if code == k then unplaced else 0)
  let rest : Option Report := if unplaced == 0 then none else some ⟨l.placedCount, code, 0, 0⟩
  let first := match firstBad rs with | some r => some r | none => rest
  let gstat := if reason != 0 then 2 else if first.isSome then 1 else 0
  let fstat := (first.map (·.status)).getD 0
  let trapped := fstat == 1
  let fcause := if trapped then (first.map (fun r => r.cause.toNat)).getD 0 else 0
  let fpc := if trapped then (first.map (fun r => r.pc.toNat)).getD 0 else 0
  let lin := (first.map (·.lin)).getD (2 ^ 32 - 1)
  leBytes 8 (reason * 2 ^ 40 + gstat * 2 ^ 32 + l.seq.toNat)
  ++ leBytes 8 (count 1 * 2 ^ 32 + count 0)
  ++ leBytes 8 (count 3 * 2 ^ 32 + count 2)
  ++ leBytes 8 (count 5 * 2 ^ 32 + count 4)
  ++ leBytes 8 (l.dieMask.toNat * 2 ^ 48 + fcause * 2 ^ 40 + fstat * 2 ^ 32 + lin)
  ++ leBytes 8 fpc ++ leBytes 8 time.toNat ++ leBytes 8 0

/-- The dies of a partition that live. -/
def partDies (s : State) (part : BitVec 4) : List Nat :=
  (List.range 4).filter (fun d => !s.dp.dead.getLsbD d && bits (partClusters s part) (4 * d) 4 != 0)

/-- The leader of a partition's dispatchers: the live one with the lowest die number (R264, R265). -/
def leaderOf (s : State) (part : BitVec 4) : Nat := ((partDies s part).head?).getD (lowDie s)

/-- The die whose dispatcher holds a launch: its queue's, or the partition's leader where that is lost (R246, R264, R265). -/
def launchDie (s : State) (l : Launch) : Nat :=
  let d := match queueCtx s l.fn l.queue.toNat with
    | some c => c.die.toNat
    | none => match queueRec s l.fn l.queue.toNat with | some r => qDie r | none => leaderOf s l.part
  if s.dp.dead.getLsbD d then leaderOf s l.part else d

/-- A CWORD atomic that waits for its park or request. -/
def keepCword (s : State) (c : CwordOp) : State := { s with dp := { s.dp with cwords := s.dp.cwords ++ [c] } }

/-- Attempt a CWORD atomic: performed, skipped with ERR set, parked, or sent to the counter's home, whose reply ends it (R253). -/
def performCword (s : State) (c : CwordOp) : State :=
  let who := dispWho c.die (fnWorld s c.fn)
  let parks (m : Meet) (s : State) : State :=
    let (p, s) := park s who c.handle true true m
    keepCword s { c with park := some p, remote := none }
  let asks (pkg op off : Nat) (desc : Option DWord) (body : List Byte) (s : State) : State :=
    match sendRequest s pkg op c.handle off desc body with
    | some (r, s) => keepCword s { c with park := none, remote := some r }
    | none => parks (noPath op off body) s
  match resolve s who c.handle 0 with
  | (.trap _, s) => setErrFlag s c.fn c.queue
  | (.park m, s) => parks m s
  | (.ask pkg, s) => asks pkg opRead descOffset (some c.handle) [] s
  | (.ok d _, s) =>
    if dKind d != kCounter || !canWrite d who.world then setErrFlag s c.fn c.queue
    else if hHome c.handle == s.pl.pkg.toNat then (atomicHere s c.handle d .add 0 1 0).2
    else asks (hHome c.handle) opAtomic 0 none (atomicBody .add 0 1 0) s

/-- The park of a launch at its dispatcher. -/
def parkLaunch (s : State) (l : Launch) (h : DWord) (write : Bool) (m : Meet) : State :=
  let (p, s) := park s (dispWho (launchDie s l) l.world) h write false m
  { s with dp := { s.dp with parked := s.dp.parked ++ [⟨l.slot, p⟩] } }

/-- The end of a launch whose completion record is written: its SV counter falls, its slot, its reservation and its barrier counters are free,
the bound events go out, and the CWORD atomic follows (R252, R253, R356). -/
def endCompletion (s : State) (l : Launch) (cword : Nat) : State :=
  let s := if l.counted && l.record.sv then setDep s l.record.sctr (depCounter s l.record.sctr - 1) else s
  let die := launchDie s l
  let s := touchQueue s l.fn l.queue.toNat
  let s := { s with dp := { s.dp with
    launches := s.dp.launches.filter (fun x => x.slot != l.slot)
    reserved := s.dp.reserved.filter (fun x => x.slot != l.slot)
    barriers := s.dp.barriers.filter (fun x => x.launch != l.slot)
    parked := s.dp.parked.filter (fun x => x.slot != l.slot) } }
  let events := (s.ho.eventBinds.filter (fun b => b.1 == l.fn && b.2.1 == l.queue)).map (fun b => (l.fn, b.2.2))
  let s := { s with ho := { s.ho with events := s.ho.events ++ events } }
  settleFair (if cword == 0 then s else performCword s ⟨die, l.fn, l.queue, BitVec.ofNat 64 cword, none, none⟩)

/-- The completion of a launch under a reason (R252, R253): its record is written and its end follows; where the write parks the launch waits
with its reason (R282). -/
def completeLaunch (s : State) (l : Launch) (reason : Nat) : State :=
  let (t, s) := readTime s
  let wait (g : GuestStop) : State := parkLaunch (updLaunch s l.slot (fun _ => { l with ending := some reason })) l 0 g.write g.meet
  match queueLook s l.fn l.queue.toNat with
  | .error g => wait g
  | .ok none => endCompletion s l 0
  | .ok (some r) =>
    match guestWrite s (launchDie s l) l.fn (r.getD 3 0 + 64 * (l.seq.toNat % qSize r)) (completionBytes l reason t) with
    | .error g => wait g
    | .ok s => endCompletion s l (r.getD 4 0)

/-! ## The dispatcher's accesses for a launch (R251, R254) -/

/-- Send a request for a launch; without a path it parks (R184). -/
def askForLaunch (s : State) (l : Launch) (pkg op : Nat) (h : DWord) (off : Nat) (desc : Bool) (body : List Byte) : State :=
  match sendRequest s pkg op h off (if desc then some h else none) body with
  | some (r, s) => updLaunch s l.slot (fun x => { x with remote := some r })
  | none => parkLaunch s l h (op != opRead) (noPath op off body)

/-- What a resolved check answers: it passes, the launch is refused, or it waits with the state as it then is. -/
inductive Checked where
  | pass (d : BitVec 512) (s : State)
  | reject (s : State)
  | wait (s : State)
  deriving DecidableEq, Repr

/-- Resolve an object of a launch record and check it (R251 check 6). -/
def checkObject (s : State) (l : Launch) (h : DWord) (good : BitVec 512 → Bool) : Checked :=
  match resolve s (dispWho (launchDie s l) l.world) h 0 with
  | (.trap _, s) => .reject s
  | (.park m, s) => .wait (parkLaunch s l h false m)
  | (.ask pkg, s) => .wait (askForLaunch s l pkg opRead h descOffset true [])
  | (.ok d _, s) => if good d then .pass d s else .reject s

/-- Write the STATUS bytes that are due, in order, and complete the launch once all are written and every block is reported
(R253, R254). -/
def advanceStatus : Nat → State → Nat → State
  | 0, s, _ => s
  | n + 1, s, slot =>
    match findLaunch s slot with
    | none => s
    | some l =>
      if l.remote.isSome || s.dp.parked.any (fun p => p.slot == slot) then s
      else
        match l.statusDue with
        | [] => if l.allReported then completeLaunch s l 0 else s
        | (i, code) :: rest =>
          let go (s : State) : State := advanceStatus n (updLaunch s slot (fun x => { x with statusDue := rest })) slot
          let who := dispWho (launchDie s l) l.world
          match resolve s who l.record.status 0 with
          | (.trap _, s) => go s
          | (.park m, s) => parkLaunch s l l.record.status true m
          | (.ask pkg, s) => askForLaunch s l pkg opRead l.record.status descOffset true []
          | (.ok d _, s) =>
            match writeIndex false s who l.record.status d 0 i code with
            | (.park m, s) => parkLaunch s l l.record.status true m
            | (.ask pkg op off _ body, s) => askForLaunch s l pkg op l.record.status off false body
            | (_, s) => go s

/-- Whether some die of a partition lives. -/
def partLives (s : State) (part : BitVec 4) : Bool :=
  (List.range 16).any (fun i => bitAt (partClusters s part) i && !s.dp.dead.getLsbD (i / 4))

/-- A launch places no further group: the blocks not placed have a status, and their STATUS bytes fall due (R254, R265, R345). -/
def Launch.close (l : Launch) (code : Nat) : Launch :=
  if l.closed.isSome then l
  else
    let rest := (List.range (l.record.blocks - l.placedCount)).map (fun i => (l.placedCount + i, code))
    { l with closed := some code, statusDue := if l.record.status == 0 then l.statusDue else l.statusDue ++ rest }

/-- The launch has passed every check: an SV launch adds 1 to its counter, and it may be placed; where no die of its partition is left, every
block is reported NOT_RUN (R252, R256, R265). -/
def acceptLaunch (s : State) (l : Launch) : State :=
  let s := updLaunch s l.slot (fun x => { x with counted := true })
  let s := settleFair (if l.record.sv then setDep s l.record.sctr (depCounter s l.record.sctr + 1) else s)
  if partLives s l.part then s
  else advanceStatus (l.record.blocks + 1) (updLaunch s l.slot (fun x => x.close 5)) l.slot

/-- The checks of R251 in their order, from the record alone and then on its objects. -/
def checkLaunch (s : State) (l : Launch) : State :=
  let r := l.record
  let reason := recordReason s l.fn l.part r
  if reason != 0 then completeLaunch s l reason
  else
    match checkObject s l r.code (fun d => dKind d == kCode && canRead d l.world) with
    | .wait s => s
    | .reject s => completeLaunch s l 6
    | .pass d s =>
      let status : Checked :=
        if r.status == 0 then .pass d s
        else checkObject s l r.status
          (fun d => dKind d == kTensor && dFmt d == 4 && r.blocks ≤ dCount d && canWrite d l.world)
      match status with
      | .wait s => s
      | .reject s => completeLaunch s l 6
      | .pass _ s => if badEntry r d then completeLaunch s l 7 else acceptLaunch s l

/-- A launch goes on: the completion that a park held, its checks, or its STATUS bytes and its completion. -/
def advanceLaunch (s : State) (slot : Nat) : State :=
  match findLaunch s slot with
  | none => s
  | some l =>
    let held := l.remote.isSome || s.dp.parked.any (fun p => p.slot == slot)
    match l.ending with
    | some reason => if held then s else completeLaunch s l reason
    | none =>
      if l.counted then advanceStatus (l.statusDue.length + 1) s slot
      else if held then s
      else checkLaunch s l

/-- Report a block of a launch with a status (R23, R253, R254). -/
def reportBlock (s : State) (slot : Nat) (r : Report) : State :=
  let s := updLaunch s slot (fun l =>
    { l with
      reports := l.reports ++ [r]
      statusDue := if l.record.status == 0 then l.statusDue else l.statusDue ++ [(r.lin, r.status)] })
  advanceLaunch s slot

/-- Place no further group of a launch: every block not placed is reported with a status (R254, R265, R345). -/
def closeLaunch (s : State) (slot code : Nat) : State :=
  let s := match findLaunch s slot with | some l => touchQueue s l.fn l.queue.toNat | none => s
  settleFair (advanceLaunch (updLaunch s slot (fun l => l.close code)) slot)

/-! ## Admission (R249, R251) -/

/-- Whether a function may take one more slot (R249). -/
def slotFree (s : State) (fn : BitVec 6) : Bool :=
  (s.dp.launches.filter (fun l => l.fn == fn)).length < bits (hubWord s 4 fn.toNat 0) 25 13 && s.dp.launches.length < 4096

/-- Admit a record: it takes a slot with its world tag, and is checked (R249, R251). A refused move completes with reason 8
(R310). -/
def admitRecord (s : State) (fn : BitVec 6) (q : Nat) (seq : Word) (r : LaunchRec) (late : Option MoveRef) (bad : Bool) :
    State :=
  let slot := s.dp.nextSlot
  let l : Launch :=
    { slot := slot, fn := fn, queue := BitVec.ofNat 8 q, seq := seq, record := r, world := fnWorld s fn, part := fnPart s fn,
      cls := r.cls, deadline := BitVec.ofNat 64 r.deadline, nextGroup := 0, reports := [], dieMask := 0, gturn := 0,
      closed := none, ending := none, statusDue := [], remote := none, counting := none, ran := 0, passedOver := none, late := late,
      counted := false }
  let s := { s with dp := { s.dp with nextSlot := slot + 1, launches := s.dp.launches ++ [l] } }
  if bad then completeLaunch s l 8 else checkLaunch s l

/-- Whether work at guest memory about a queue has parked at the dispatcher. -/
def queueHeld (s : State) (fn : BitVec 6) (q : BitVec 8) : Bool := s.dp.jobs.any (fun j => j.work.key == (DispWork.admission fn q).key)

/-- LAUNCH_ADMISSION: the next record of a mapped queue, in slot order; a slot that cannot be read parks (R183, R247, R249, R251). -/
def execLaunchAdmission (fn : BitVec 6) (q : BitVec 8) (s : State) : Out :=
  match queueCtx s fn q.toNat, queueLook s fn q.toNat with
  | some c, .ok (some r) =>
    if c.head == c.tail || !slotFree s fn || queueHeld s fn q then .next s
    else
      match guestRead s c.die.toNat fn (r.getD 0 0 + 128 * (c.head.toNat % qSize r)) 128 with
      | .error g => .next (parkWork s (.admission fn q) g)
      | .ok bs =>
        let s := updCtx s fn q.toNat (fun x => { x with head := c.head + 1, busyAt := s.tm.dtime })
        .next (admitRecord s fn q.toNat c.head (recordOf bs) none false)
  | some _, .error g => .next (if queueHeld s fn q then s else parkWork s (.admission fn q) g)
  | _, _ => .next s

/-- LAUNCH_NOTIFY: a write of a queue's notify word with a new TAIL (R247, R248). -/
def execLaunchNotify (fn : BitVec 6) (q : BitVec 8) (tail : BitVec 32) (s : State) : Out := .next (notify s fn q.toNat tail)

/-- Whether an admitted launch of a queue still waits. -/
def queueBusy (s : State) (fn : BitVec 6) (q : BitVec 8) : Bool :=
  s.dp.launches.any (fun l => l.fn == fn && l.queue == q && (!l.counted || l.unplaced))

/-- The ns of device time for which a queue is idle before it is unmapped (R248). -/
def idleTime : Nat := 10000

/-- QUEUE_UNMAP: when a queue has been idle for 10 µs, its HEAD and TAIL go back to its record, and MAPPED is cleared (R248). -/
def execQueueUnmap (fn : BitVec 6) (q : BitVec 8) (s : State) : Out :=
  match queueCtx s fn q.toNat with
  | none => .next s
  | some c =>
    if c.head != c.tail || queueBusy s fn q || queueHeld s fn q then .next s
    else
      let s := reachTime s (c.busyAt.toNat + idleTime)
      let s := { s with dp := { s.dp with ctxs := s.dp.ctxs.filter (fun x => !(x.fn == fn && x.queue == q)) } }
      .next (doWork s (.unmap fn q c.head c.tail))

/-- PENDING_SCAN: a die's dispatcher maps the unmapped queues whose record has PENDING (R248). -/
def execPendingScan (die : BitVec 2) (s : State) : Out := .next (scanPending s die.toNat)

end Sys2Proof.Machine
end

