-- ==== Sys2Proof/Machine/Dispatcher.lean ====
section
/-! DEFINITION. The dispatcher's picks: placement, reservations, pre-emption and block start (R17-R21, R92, R256-R260), and the
retirement of blocks (R22, R23, R245), the watchdog (R254) and the loss of a die (R265, R266). -/

namespace Sys2Proof.Machine

/-! ## Units (R14, R19, R21) -/

/-- Whether the dispatcher may use a core for a launch's partition at all. -/
def coreUsable (s : State) (part : BitVec 4) (c : Nat) : Bool :=
  bitAt (partClusters s part) (c / 256) && !s.dp.dead.getLsbD (c / 1024) && !s.dp.fenced.contains (BitVec.ofNat 12 c)

/-- The blocks that a core holds, in either half. -/
def onCore (s : State) (c : Nat) : List Block := (allBlocks s).filter (fun b => b.core.toNat == c)

/-- Whether another launch's reservation keeps a core from a launch of its class (R257). -/
def reservedFor (s : State) (l : Launch) (c : Nat) : Bool :=
  s.dp.reserved.any (fun r =>
    r.slot != l.slot && r.first ≤ c && c < r.first + r.size
      && (match findLaunch s r.slot with | some x => x.cls ≤ l.cls | none => false))

/-- Whether a core is free for a launch (R19). -/
def coreFree (s : State) (l : Launch) (c : Nat) : Bool :=
  coreUsable s l.part c && (onCore s c).isEmpty && !reservedFor s l c

/-- The class and priority of a block's launch. -/
def blockRank (s : State) (b : Block) : Nat × Nat :=
  match findLaunch s b.id.launch with
  | some l => (l.cls, l.record.prio)
  | none => (2, 0)

/-- The victim on a core, if pre-emption may take the core (R259): it holds one block, of class L or B. -/
def victimOn (s : State) (c : Nat) : Option Block :=
  match onCore s c with
  | [b] => if (blockRank s b).1 != 0 && (b.phase == .running || b.phase == .exited || b.phase == .held || b.phase == .ending) then some b else none
  | _ => none

/-- Whether a core is free for a class D launch or could be pre-empted for it (R259). -/
def coreOpen (s : State) (l : Launch) (c : Nat) : Bool :=
  coreUsable s l.part c && ((onCore s c).isEmpty || (victimOn s c).isSome) && !reservedFor s l c

/-- The size of the extent level of a locked gang of n blocks (R21). -/
def extentSize (n : Nat) : Nat := if n ≤ 4 then 4 else if n ≤ 256 then 256 else if n ≤ 1024 then 1024 else 4096

/-- The cores from a first one on. -/
def span (first size : Nat) : List Nat := (List.range size).map (fun i => first + i)

/-- A group's blocks on a unit: linear index and core (R19). -/
def groupOn (l : Launch) (g first : Nat) : List (Nat × Nat) :=
  let a := l.record.unit
  (List.range (min a (l.record.blocks - a * g))).map (fun i => (a * g + i, first + i))

/-- The blocks of a locked gang in a unit of its extent level, on the first alignment units whose cores suit (R21). -/
def gangIn (ok : Nat → Bool) (l : Launch) (first size : Nat) : Option (List (Nat × Nat)) :=
  let a := l.record.unit
  let n := l.record.blocks / a
  let units := ((List.range (size / a)).map (fun i => first + a * i)).filter (fun u => (span u a).all ok)
  if units.length < n then none
  else some (((List.range n).zip units).flatMap (fun x => groupOn l x.1 x.2))

/-- The unit that a launch has reserved (R257). -/
def reservationOf (s : State) (l : Launch) : Option Nat := (s.dp.reserved.find? (fun r => r.slot == l.slot)).map (·.first)

/-- Every placement of a launch's next group, or of a locked gang, on cores that suit, by rising first core (R19, R21). -/
def placements (s : State) (ok : Nat → Bool) (l : Launch) : List (List (Nat × Nat)) :=
  if l.record.locked then
    let size := extentSize l.record.blocks
    let firsts := match reservationOf s l with
      | some f => [f]
      | none => (List.range (4096 / size)).map (size * ·)
    firsts.filterMap (fun f => gangIn ok l f size)
  else
    let a := l.record.unit
    let firsts := (List.range (4096 / a)).map (a * ·)
    firsts.filterMap (fun f =>
      let p := groupOn l l.nextGroup f
      if p.all (fun x => ok x.2) then some p else none)

/-- The cores of the unit that a choice of cores is part of: a last group that does not fill its alignment unit still takes the unit's place
(R19, R259). -/
def unitCores (l : Launch) (p : List (Nat × Nat)) : List Nat :=
  let a := l.record.unit
  if l.record.locked then p.map (·.2) else span (((p.head?.map (·.2)).getD 0) / a * a) a

/-- The order of R259 on a choice of cores: a unit whose every core is free or could be pre-empted before others, and among those the class L
blocks on the unit, their highest priority, and the later placement first. -/
def preemptKey (s : State) (l : Launch) (p : List (Nat × Nat)) : List Nat :=
  let cores := unitCores l p
  let vs := cores.flatMap (onCore s)
  let ls := (vs.map (blockRank s)).filter (fun x => x.1 == 1)
  let recent := vs.foldl (fun a b => max a b.placeNo) 0
  [b2n (!cores.all (coreOpen s l)), ls.length, ls.foldl (fun a x => max a (x.2 + 1)) 0, s.dp.placeSeq - recent]

/-- Whether a key comes before another. -/
def keyLess : List Nat → List Nat → Bool
  | x :: xs, y :: ys => x < y || (x == y && keyLess xs ys)
  | _, _ => false

/-- The first of a list with the least key. -/
def leastBy {α : Type} (key : α → List Nat) : List α → Option α
  | [] => none
  | x :: xs =>
    match leastBy key xs with
    | some y => if keyLess (key y) (key x) then some y else some x
    | none => some x

/-! ## Block start (R17, R48, R80, R97, R341) -/

/-- The coordinates of a linear index, as BLOCK_ID holds them (R19, R98). -/
def blockIdOf (r : LaunchRec) (i : Nat) : BitVec 48 :=
  BitVec.ofNat 48 (i % r.x + i / r.x % r.y * 2 ^ 16 + i / (r.x * r.y) * 2 ^ 32)

/-- SRLFSR at a block's first instruction (R48). -/
def startLfsr (r : LaunchRec) (i : Nat) : Word :=
  let v := BitVec.ofNat 32 (r.seed ^^^ i)
  if v == 0 then 1 else v

/-- A function's service ring of a side (R355). -/
def svcRingOf (s : State) (fn : BitVec 6) (host : Bool) : Option SvcRing :=
  s.ho.rings.find? (fun r => r.fn == fn && r.host == host)

/-- A block at its first instruction (R17, R80, R97). -/
def startBlock (s : State) (l : Launch) (i core : Nat) (half : Bool) : Block :=
  let r := l.record
  let ring := svcRingOf s l.fn false
  let held := r.cbwait && (latestToken s l.part).isNone
  { Block.clear with
    phase := if held then .held else .running
    placeNo := s.dp.placeSeq, id := ⟨l.slot, i⟩, core := BitVec.ofNat 12 core, half := half
    world := l.world, fn := l.fn, part := l.part, nsq := r.nsq, preempt := r.preempt
    pc := BitVec.ofNat 32 r.entry
    s := (Block.clear.s.setIfInBounds 1 ⟨r.arg, 0, false⟩).setIfInBounds 2 ⟨BitVec.ofNat 64 i, 0, false⟩
    lfsr := startLfsr r i, blockId := blockIdOf r i
    gangDim := BitVec.ofNat 48 (r.x + r.y * 2 ^ 16 + r.z * 2 ^ 32)
    trapVec := BitVec.ofNat 32 r.trapv
    svcRing := (ring.map (·.ring)).getD 0, svcCtr := (ring.map (·.ctr)).getD 0
    code := r.code }

/-! ## One pick (R256-R260) -/

/-- Insert into a list that a key keeps in order, behind its equals. -/
def insertBy {α : Type} (key : α → List Nat) (x : α) : List α → List α
  | [] => [x]
  | y :: ys => if keyLess (key x) (key y) then x :: y :: ys else y :: insertBy key x ys

/-- The order of R257 on eligible launches. -/
def pickKey (s : State) (l : Launch) : List Nat :=
  match l.cls with
  | 0 => [0, l.deadline.toNat, l.slot, 0]
  | 1 => [1, 7 - l.record.prio, l.slot, 0]
  | _ => [2, vtimeOf s l.fn.toNat, l.fn.toNat, l.slot]

/-- The dies on which a partition has clusters, the lost ones among them. -/
def partSpread (s : State) (part : BitVec 4) : List Nat := (List.range 4).filter (fun d => bits (partClusters s part) (4 * d) 4 != 0)

/-- Whether the dispatchers of several dies serve a launch together: a free gang whose partition has clusters on more than one die, and a locked
gang whose extent level is the package (R264); the loss of a die leaves it to those that survive (R265). -/
def shared (s : State) (l : Launch) : Bool :=
  if l.record.locked then 1024 < l.record.blocks else 1 < (partSpread s l.part).length

/-- Whether a die's dispatcher picks for a launch. Each die that a shared free gang may use asks the leader for the gang's next group; the leader
records the hand-out with every live member and the group is placed in the same step, so that no hand-out is ever lost with a die; a shared
locked gang is handed out whole, by the leader (R264, R265; log 24). -/
def serves (s : State) (l : Launch) (die : Nat) : Bool :=
  if shared s l then (if l.record.locked then leaderOf s l.part == die else (partDies s l.part).contains die) else launchDie s l == die

/-- Whether a die's dispatcher uses a core for a launch: of a shared free gang it places groups on its own units (R264). -/
def ownUnit (s : State) (l : Launch) (die c : Nat) : Bool := l.record.locked || !shared s l || c / 1024 == die

/-- The eligible launches of a die's dispatcher in the order of R257. -/
def pickOrder (s : State) (die : Nat) : List Launch :=
  (s.dp.launches.filter (fun l => eligible s l && serves s l die)).foldl (fun acc l => insertBy (pickKey s) l acc) []

/-- Whether a choice of cores is a die's dispatcher's to place (R264). -/
def ownPlace (s : State) (l : Launch) (die : Nat) (p : List (Nat × Nat)) : Bool := p.all (fun x => ownUnit s l die x.2)

/-- Where a launch's next group goes: a free unit, or for class D, where no unit of the partition is free, the unit that R259 pre-empts, which
the dispatcher of its die does. -/
def choosePlace (s : State) (die : Nat) (l : Launch) : Option (List (Nat × Nat)) :=
  match placements s (coreFree s l) l with
  | [] =>
    if l.cls == 0 then (leastBy (preemptKey s l) (placements s (coreOpen s l) l)).filter (ownPlace s l die) else none
  | ps => ps.find? (ownPlace s l die)

/-- The first launch in the order that has a place. -/
def firstPlaceable (s : State) (die : Nat) : List Launch → Option (Launch × List (Nat × Nat))
  | [] => none
  | l :: ls =>
    match choosePlace s die l with
    | some p => some (l, p)
    | none => firstPlaceable s die ls

/-- Whether a victim stays as the parked half of a launch that pre-empts it (R260). -/
def staysParked (l : Launch) (b : Block) : Bool := b.preempt && l.record.preempt

/-- Make a victim give way (R92, R103, R260). -/
def giveWay (l : Launch) (s : State) (b : Block) : State :=
  if staysParked l b then parkHalf s b.id else saveVictim s b.id

/-- Start the block of linear index i on a core (R17): beside a parked victim it takes the other half (R92). -/
def startOn (l : Launch) (s : State) (x : Nat × Nat) : State :=
  let half := match (onCore s x.2).find? (fun b => b.phase == .parked) with | some b => !b.half | none => false
  addBlock s (startBlock s l x.1 x.2 half)

/-- A locked gang reserves the unit of its extent level with the most free cores among those in which it could be placed and which no other
reservation holds (R257). -/
def reserveFor (s : State) (l : Launch) : State :=
  let size := extentSize l.record.blocks
  let taken (f : Nat) : Bool := s.dp.reserved.any (fun r => r.first < f + size && f < r.first + r.size)
  let units := ((List.range (4096 / size)).map (size * ·)).filter
    (fun f => !taken f && (gangIn (coreUsable s l.part) l f size).isSome)
  let busy (f : Nat) : List Nat := [((span f size).filter (fun c => !(onCore s c).isEmpty || !coreUsable s l.part c)).length]
  match leastBy busy units with
  | some f => { s with dp := { s.dp with reserved := s.dp.reserved ++ [⟨l.slot, f, size⟩] } }
  | none => s

/-- Whether a locked gang has been passed over for 100 µs and holds no reservation (R257). -/
def reserves (s : State) (l : Launch) : Bool :=
  l.record.locked && eligible s l && (reservationOf s l).isNone
    && (match l.passedOver with | some t => t.toNat + 100000 ≤ s.tm.dtime.toNat | none => false)

/-- The gangs whose 100 µs have ended and which hold no reservation choose their units, in the order of R257. -/
def settleReserved (s : State) : State :=
  ((s.dp.launches.filter (reserves s)).foldl (fun acc l => insertBy (pickKey s) l acc) []).foldl reserveFor s

/-- Place a group, or a locked gang, on chosen cores; the unit that the gang had reserved is free for the gangs that wait for one (R19, R21, R257,
R258). -/
def placeOn (s : State) (l : Launch) (p : List (Nat × Nat)) : State :=
  let s := (p.filterMap (fun x => victimOn s x.2)).foldl (giveWay l) s
  let s := { s with dp := { s.dp with placeSeq := s.dp.placeSeq + 1, reserved := s.dp.reserved.filter (fun r => r.slot != l.slot) } }
  let s := p.foldl (startOn l) s
  let (t, s) := readTime s
  let groups := if l.record.locked then l.record.blocks / l.record.unit else 1
  let s := touchQueue s l.fn l.queue.toNat
  let s := updLaunch s l.slot (fun x =>
    { x with nextGroup := x.nextGroup + groups, passedOver := none, counting := (x.counting.orElse (fun _ => some t)) })
  let f := l.fn.toNat
  let s := if l.cls == 2 then setVtime s f (vtimeOf s f + p.length * 256 * fairScale / weight s f) else s
  settleReserved (settleFair s)

/-- Locked gangs of class L or B that a pick passes over begin their 100 µs (R257). -/
def markPassed (s : State) (ls : List Launch) : State :=
  ls.foldl
    (fun s l =>
      if l.record.locked && l.cls != 0 && l.passedOver.isNone then
        updLaunch s l.slot (fun x => { x with passedOver := some s.tm.dtime })
      else s) s

/-- DISPATCHER_PICK of a die (R256-R260): the victims' loads, stores and V and M commands come first, their F and P commands run on in the
background, and a victim that cannot be saved yet holds the placement. -/
def execDispatcherPick (die : BitVec 2) (s : State) : Out :=
  if s.dp.dead.getLsbD die.toNat then .next s
  else
    let order := pickOrder s die.toNat
    match firstPlaceable s die.toNat order with
    | none => .next (markPassed s order)
    | some (l, p) =>
      let s := markPassed s (order.takeWhile (fun x => x.slot != l.slot))
      let s := (p.filterMap (fun x => victimOn s x.2)).foldl (fun s b => onBlock s b.id (settleBy issuesOps)) s
      let ready := (p.filterMap (fun x => victimOn s x.2)).all (fun b => !b.abroad && (staysParked l b || b.saveable))
      .next (if ready then placeOn s l p else s)

/-- GANG_RESERVATION: when the 100 µs of a locked gang end, it and every other gang whose 100 µs have ended choose their units in the order of
R257. -/
def execGangReservation (slot : Nat) (s : State) : Out :=
  match findLaunch s slot with
  | none => .next s
  | some l =>
    match l.passedOver with
    | none => .next s
    | some t =>
      if !l.record.locked || !eligible s l || (reservationOf s l).isSome then .next s
      else
        let s := reachTime s (t.toNat + 100000)
        .next (settleReserved s)

/-! ## Retirement (R22, R23, R245) -/

/-- Whether a command at its queue's head can never start behind `exit`: it waits for a token that nothing can push any more (R22), or that only
commands push which the slip depth holds behind it, or the slip depth holds it behind such a command. Where R22 item 3 asks that no queued
command signals the token, R241 applies the orphan-wait case to its own deadlock too, and the model follows R241 there (log 73). -/
def neverStarts (b : Block) (c : Cmd) : Bool :=
  !c.popped
    && (!slipOk b c
        || (match c.hdr.wait with
            | some k =>
              (b.token k).count == 0 && !b.running.any (fun x => x.hdr.sig == some k)
                && b.queued.all (fun x => x.hdr.sig != some k || c.n + c.depth ≤ x.n)
            | none => false))

/-- Whether the commands that are left can never start (R22, R241). -/
def orphanWait (b : Block) : Bool :=
  !b.queued.isEmpty
  && [b.eF, b.eV, b.eM, b.eP].all (fun e => match e.q.head? with | none => true | some c => neverStarts b c)

/-- Whether a block's posted writes and loads are all performed and its engines idle. -/
def Block.quiet (b : Block) : Bool := b.running.isEmpty && b.posted.isEmpty && b.loads.isEmpty

/-- The status with which a block retires; nothing while it cannot (R22, R23, R245). -/
def retireStatus (b : Block) : Option Nat :=
  if !b.quiet then none
  else if b.phase == .terminated then some b.endStatus
  else if b.phase == .exited then
    if b.queued.isEmpty then some 0 else if orphanWait b then some 2 else none
  else none

/-- The report of a block with a status (R253). -/
def Block.report (b : Block) (status : Nat) : Report := ⟨b.id.lin, status, b.endCause, b.trapPc⟩

/-- The barrier instances of a launch are settled again: a member that has gone counts as arrived (R266, R319). -/
def settleLaunchBarriers (s : State) (launch : Nat) : State :=
  (s.dp.barriers.filter (fun x => x.launch == launch)).foldl
    (fun s x =>
      match [Scope.core, .quad, .clus, .die, .pkg].find? (fun sc => sc.code == x.scope) with
      | some sc => settleBarrier s launch sc x.unit
      | none => s) s

/-- Take a block away with a report: its leases close, its waits end, and the victim on its core resumes (R219, R245, R260). -/
def removeBlock (s : State) (b : Block) (status : Nat) : State :=
  let s := closeAll (abandonWait s b.id) b.id
  let s := dropBlocks s (fun x => x.id == b.id)
  let s := settleLaunchBarriers s b.id.launch
  reportBlock (resumeVictim s b.core b.world) b.id.launch (b.report status)

/-- Take a block away that a save slot held, with a report: its leases close (R219, R265, R346). -/
def removeSaved (s : State) (b : Block) (status : Nat) : State :=
  reportBlock (closeAll s b.id) b.id.launch (b.report status)

/-- Take the blocks that a predicate names out of every save slot. -/
def dropSaved (s : State) (p : Block → Bool) : List Block × State :=
  (s.wo.saves.flatMap (fun v => v.blocks.filter p),
   { s with wo := { s.wo with saves := s.wo.saves.map (fun v => { v with blocks := v.blocks.filter (fun b => !p b) }) } })

/-- BLOCK_RETIREMENT of the block that moves next (R22, R245). -/
def execBlockRetirement (s : State) : Out :=
  match retireStatus s.blk with
  | some status => .next (removeBlock s s.blk status)
  | none => .next s

/-! ## The watchdog (R123, R254) -/

/-- Terminate a block by an event: the trap registers are written unless a handler runs (R123). -/
def Block.endBy (b : Block) (cause : Nat) : Block :=
  let b := if b.handler then b else { b with trapPc := b.pc, trapCause := causeWord 0 0 cause, trapInfo := 0 }
  { b.terminate cause with back := .none }

/-- Whether a block still lives. -/
def Block.live (b : Block) : Bool := b.phase != .terminated && b.phase != .none

/-- WATCHDOG_EXPIRY of a launch (R254): a gang's limit counts only while its world runs (R332). -/
def execWatchdogExpiry (slot : Nat) (s : State) : Out :=
  match findLaunch s slot with
  | none => .next s
  | some l =>
    match l.counting with
    | none => .next s
    | some t =>
      if l.record.watchdog == 0 then .next s
      else
        let s := reachTime s (t.toNat + (1000 * l.record.watchdog - l.ran))
        let victims := (allBlocks s).filter (fun b => b.id.launch == slot && b.live)
        let s := victims.foldl (fun s b => updBlock (abandonWait s b.id) b.id (fun b => b.endBy cWATCHDOG)) s
        .next (closeLaunch (settleLaunchBarriers s slot) slot 5)

/-! ## The loss of a die (R265, R266) -/

/-- A scrub whose token is still to be signed loses a die of its partition (R338). -/
def loseScrub (die : BitVec 2) (s : State) (p : Nat) : State :=
  let part := BitVec.ofNat 4 p
  let w := switchOf s part
  match w.pendingToken with
  | some t =>
    if bits (partClusters s part) (4 * die.toNat) 4 == 0 then s
    else setSwitch s part { w with pendingToken := some { t with lostd := t.lostd ||| ((1 : BitVec 4) <<< die.toNat) } }
  | none => s

/-- DIE_FAILURE (R265): every launch under way has lost the die, its blocks are reported DIE_LOST, and launches whose partition has no die left
place nothing more. -/
def execDieFailure (die : BitVec 2) (s : State) : Out :=
  if s.dp.dead.getLsbD die.toNat then .next s
  else
    let on : Block → Bool := fun b => dieOf b.core == die.toNat
    let here := (allBlocks s).filter on
    let (saved, s) := dropSaved s on
    let lose (l : Launch) : Launch := { l with dieMask := l.dieMask ||| ((1 : BitVec 4) <<< die.toNat) }
    let s := (List.range 16).foldl (loseScrub die) s
    let s := { s with dp := { s.dp with dead := s.dp.dead ||| ((1 : BitVec 4) <<< die.toNat), launches := s.dp.launches.map lose } }
    let s := here.foldl (fun s b => removeBlock s b 3) s
    let s := saved.foldl (fun s b => removeSaved s b 3) s
    let gone := s.dp.launches.filter (fun l => !partLives s l.part)
    .next (gone.foldl (fun s l => closeLaunch s l.slot 5) s)

end Sys2Proof.Machine
end

