-- ==== Sys2Proof/Machine/Ras.lean ====
section
/-! DEFINITION. What a system core reaches (R181-R183), the RAS log (R347, R348), and the fencing of a core (R348). -/

namespace Sys2Proof.Machine

/-- Whether a system core may access bytes: mapped, and in no die-store unit that a partition holds (R181, R182). -/
def systemReach (s : State) (addr len : Nat) : Bool :=
  (List.range len).all (fun i => isDram (addr + i) || inSystemRegion s (addr + i))

/-- The part of a write that falls into one line: a poisoned line that it does not cover in full stays as it is (R183). -/
def storeLine (addr : Nat) (data : List Byte) (m : Memory) (line : Nat) : Memory :=
  let lo := max addr (64 * line)
  let hi := min (addr + data.length) (64 * line + 64)
  if m.poisoned line && hi - lo < 64 then m else m.writeAll lo ((data.drop (lo - addr)).take (hi - lo))

/-- Write one record of the RAS log (R347, R348). -/
def rasRecord (s : State) (kind : Nat) (core : Core) : State :=
  let (t, s) := readTime s
  let a := s.wo.rasBase.toNat + 16 * (s.wo.rasTail.toNat % 64)
  let bs := leBytes 8 t.toNat ++ leBytes 8 (kind * 2 ^ 56 + dieOf core * 2 ^ 48 + core.toNat)
  let s := { s with mem := if systemReach s a 16 then storeLine a bs s.mem (a / 64) else s.mem }
  { s with wo := { s.wo with rasTail := s.wo.rasTail + 1 } }

/-- Fence a core: nothing is placed on it until reset (R348). -/
def fence (s : State) (core : Core) : State :=
  if s.dp.fenced.contains core then s else { s with dp := { s.dp with fenced := s.dp.fenced ++ [core] } }

/-- A core's test has ended at the present device time: its time is kept, and a core that fails is fenced (R348, R349). -/
def testEnds (s : State) (core : Core) (pass : Bool) : State :=
  let s := { s with pl := { s.pl with tested := (core, s.tm.dtime) :: s.pl.tested.filter (fun x => x.1 != core) } }
  if pass then s else rasRecord (fence s core) 6 core

end Sys2Proof.Machine
end

