-- ==== Sys2Proof/Machine/Worlds.lean ====
section
/-! DEFINITION. World switching: Clearboard scrubs and their tokens (R337-R341, R347), and the steps of a frame edge (R332-R334, R349). -/

namespace Sys2Proof.Machine

/-! ## Scrubs (R187, R337, R338) -/

/-- The live clusters of a partition. -/
def partClusterList (s : State) (part : BitVec 4) : List Nat :=
  (List.range 16).filter (fun i => bitAt (partClusters s part) i && !s.dp.dead.getLsbD (i / 4))

/-- The scratchpads and accumulator files of a cluster's cores. -/
def clusterCoreRanges (i : Nat) : Ranges :=
  [(spBase + i * 2 ^ 26, spBase + (i + 1) * 2 ^ 26), (accBase + i * 2 ^ 24, accBase + (i + 1) * 2 ^ 24)]

/-- The cluster stores and die-store shares of a partition. -/
def sharedRanges (s : State) (part : BitVec 4) : Ranges :=
  (partClusterList s part).map (fun i => (clBase + i * 2 ^ 25, clBase + (i + 1) * 2 ^ 25))
  ++ ((List.range 4).filter (fun d => !s.dp.dead.getLsbD d)).map (fun d =>
      let (base, len) := shareOf s part d
      (dsAddr d (base * 2 ^ 20), dsAddr d ((base + len) * 2 ^ 20)))

/-- Every on-chip store of a partition. -/
def partRanges (s : State) (part : BitVec 4) : Ranges :=
  (partClusterList s part).flatMap clusterCoreRanges ++ sharedRanges s part

/-- The worlds that a partition names. -/
def partWorlds (s : State) (part : BitVec 4) : List Nat :=
  bits (hubWord s 1 part.toNat 0) 50 14
    :: (List.range (frameCount s part)).map (fun k => bits (hubWord s 3 part.toNat (2 + k)) 50 14)

/-- DIGEST of a world (R296). -/
def worldDigest (s : State) (w : Nat) : BitVec 384 :=
  BitVec.ofNat 384 ((List.range 6).foldr (fun k a => hubWord s 2 w (2 + k) + 2 ^ 64 * a) 0)

/-- The latest scrub's token is signed and stored (R339, R340): COUNT rises by 1, and the signature is a fresh draw. -/
def signToken (s : State) (part : BitVec 4) : State :=
  let w := switchOf s part
  match w.pendingToken with
  | none => s
  | some t =>
    let (n, s) := freshNat s
    let s := setSwitch s part { w with token := some { t with count := s.wo.count + 1, sig := n }, pendingToken := none }
    { s with wo := { s.wo with count := s.wo.count + 1 } }

/-- The translations and descriptors that a scrub removes; the outgoing world is one of the partition's worlds (R337). -/
def scrubCaches (s : State) (part : BitVec 4) (out : Option (BitVec 14)) : State :=
  let cl := partClusterList s part
  let ws := partWorlds s part ++ (out.map BitVec.toNat).toList
  { s with tb := { s.tb with
      tlb := s.tb.tlb.filter (fun e => !cl.contains (e.place / 256))
      nested := s.tb.nested.filter (fun e => !ws.contains e.world.toNat)
      g2 := s.tb.g2.filter (fun e => !ws.contains e.world.toNat)
      hcache := s.tb.hcache.filter (fun e => !cl.contains e.cluster) } }

/-- A scrub's words are zero and full: it lets the waiting `ld.ff` and `ld.fe` through, before any later access (R32, R179, R187). -/
def scrubWords (s : State) (rs : Ranges) : State :=
  let s := scrubCells s rs
  ((s.feWait.map (fun w => w.addr)).eraseDups.filter (inRanges rs)).foldl (fun s a => serveWaiters a s.feWait.length s) s

/-- CLEARED of a scrub that clears every structure in full (R337). -/
def clearedAll : BitVec 16 := 0x7FF

/-- CLEARED of a scrub beside blocks that run on: the cluster stores, the shares, the TLBs and the handle caches (R337, R345). -/
def clearedShared : BitVec 16 := 0xD8

/-- A Clearboard scrub of ranges of a partition, with the token that is to be signed and its CLEARED (R337-R339). -/
def scrub (s : State) (part : BitVec 4) (cause : Nat) (out inc : Option (BitVec 14)) (rs : Ranges) (cleared : BitVec 16) : State :=
  let s := signToken s part
  let s := scrubCaches (scrubWords s rs) part out
  let (t, s) := readTime s
  let w := switchOf s part
  let tok : CbToken :=
    { part := part, cause := BitVec.ofNat 4 cause, lostd := 0, frame := w.edges, count := 0, time := t,
      odigest := match out with | some o => worldDigest s o.toNat | none => 0
      oworld := out.getD 0, iworld := inc.getD 0, cleared := cleared, fillmark := s.wo.fillmark, pendmark := s.wo.fillmark,
      sig := 0 }
  setSwitch s part { w with pendingToken := some tok }

/-! ## The token becomes available (R339, R341, R345) -/

/-- CLEARBOARD_TOKEN: the token is signed, the blocks it holds back may issue, and a function reset that waits for it ends. -/
def execClearboardToken (part : BitVec 4) (s : State) : Out :=
  if (switchOf s part).pendingToken.isNone then .next s
  else
    let s := signToken s part
    let go : Block → Block := fun b =>
      if b.part != part then b
      else { b with phase := b.phase.freed, back := b.back.freed }
    let s := mapBlocks s go
    let ends := s.wo.vfHold.isNone && fnPart s s.wo.vfLast == part && !(switchOf s part).vfWait.contains s.wo.vfLast
    .next (if ends then { s with wo := { s.wo with vfBusy := false } } else s)

/-- TOKCOPY: the latest token of the selected partition is copied to a system-physical address (R347). -/
def execTokcopy (addr : BitVec 64) (s : State) : Out :=
  match (switchOf s s.wo.cbpart).token with
  | none => .next s
  | some t =>
    let a := addr.toNat
    if a % 256 == 0 && (isDram a || inSystemRegion s a) then .next { s with mem := Memory.writeAll s.mem a (t.bytes s) } else .next s

/-! ## Saves and restores (R103, R187, R332-R334, R347) -/

/-- A load leaves the tags for the save: its tag folds at the clock of the edge, and its scalar stays interlocked (R333). -/
def Block.withdrawLoad (b : Block) (clock : DWord) (l : ObjLoad) : Block :=
  let b := if l.folded then { b with pend := b.pend - 1 } else b
  { b with
    floor := maxStamp b.floor clock
    tags := b.tags.filter (fun r => r.load != l.id)
    loads := b.loads.map (fun x => if x.id == l.id then { x with folded := false } else x) }

/-- A block as a frame edge saves it (R103, R333): its unfinished instruction is abandoned unless it is parked, the loads that a park holds back
are withdrawn, and its tags are folded. -/
def Block.edgeSave (b : Block) (clock : DWord) : Block :=
  (b.loads.foldl (fun b l => b.withdrawLoad clock l) b).saveFold.abandon

/-- Whether a frame edge can save a block: its strand waits for no write at another package, every load that is left is parked or waits behind
what is parked, no V or M command runs, and no `xcopy` that has started is left, but for one behind a parked command; the other F and P commands
stop at an element boundary (R103, R261, R332, R333; log 48). -/
def Block.edgeReady (b : Block) : Bool :=
  !b.abroad && b.loads.zipIdx.all (fun x => x.1.remote.isNone && !loadReady b x.2 x.1) && b.eV.run.isNone && b.eM.run.isNone
    && (b.eP.started.all (fun c => !c.isXcopy) || b.eP.run.any (fun c => !parkOver c.park))

/-- The blocks of a partition that stand in cores. -/
def partBlocks (s : State) (part : BitVec 4) : List Block := (allBlocks s).filter (fun b => b.part == part)

/-- The stores that a save of blocks of a partition holds: those of their cores, the cluster stores and the shares (R187, R332). -/
def saveRanges (s : State) (part : BitVec 4) (bs : List Block) : Ranges :=
  ((bs.map (·.core)).eraseDups).flatMap coreRanges ++ sharedRanges s part

/-- Bsave of a partition with so many cores that hold blocks (R332). -/
def saveBytes (s : State) (part : BitVec 4) (cores : Nat) : Nat :=
  331776 * cores + 2 ^ 25 * ((List.range 16).filter (fun i => bitAt (partClusters s part) i)).length
    + 2 ^ 20 * (List.range 4).foldl (fun n d => n + (shareOf s part d).2) 0

/-- SAVESTRIDE of a partition (R347). -/
def saveStride (s : State) (part : BitVec 4) : Nat := up64K (saveBytes s part (partCores s part))

/-- The save slot that holds a world's state in a partition. -/
def savedState (s : State) (part : BitVec 4) (w : BitVec 14) : Option SaveSlot :=
  s.wo.saves.find? (fun v => v.part == part && v.world == w && v.frame < 2 ^ 16)

/-- The lines of the frame's save slot once a save is sealed there: under the memory key they read as poisoned (R335, R336, R347; log 27). -/
def sealSlot (s : State) (part : BitVec 4) (frame cores : Nat) : State :=
  let a := (switchOf s part).saveBase.toNat + frame * saveStride s part
  { s with mem := Memory.dropRange s.mem a (a + saveBytes s part cores) }

/-- Save the outgoing world of a partition: its blocks, as an edge stops them or, in a frame that issued nothing, as they were restored, with
the stores (R332 steps 1 and 2, R334). -/
def saveWorld (s : State) (part : BitVec 4) (w : BitVec 14) (still : Bool) : State :=
  let bs := partBlocks s part
  let frame := (switchOf s part).frame
  let s := if still then s else bs.foldl (fun s b => abandonWait s b.id) s
  let (cells, empties) := takeCells s (saveRanges s part bs)
  let slot : SaveSlot :=
    ⟨part, frame, w, if still then bs else bs.map (fun b => b.edgeSave (switchOf s part).edgeClock), cells, empties⟩
  let rest := s.wo.saves.filter (fun v => !(v.part == part && v.world == w && v.frame < 2 ^ 16))
  let s := sealSlot s part frame ((bs.map (·.core)).eraseDups).length
  dropBlocks { s with wo := { s.wo with saves := slot :: rest } } (fun b => b.part == part)

/-- A restored block: a launch with CBWAIT waits for the edge's token again (R341). -/
def restoreBlock (s : State) (b : Block) : State :=
  let waits := match findLaunch s b.id.launch with | some l => l.record.cbwait | none => false
  let hold : Phase → Phase := fun p => if waits then p.stopped else p
  addBlock s { b with phase := hold b.phase, back := hold b.back }

/-- Restore the incoming world of a partition exactly, if it has a saved state, and leave every other store as scrubbed (R187, R332 step 5);
where a block was lost or discarded meanwhile, its victim goes on and its gang counts it as arrived (R260, R266, R346). -/
def restoreWorld (s : State) (part : BitVec 4) (w : BitVec 14) : State :=
  match savedState s part w with
  | none => s
  | some v =>
    let rs := saveRanges s part v.blocks
    let s := putCells s rs (v.cells.filter (fun c => inRanges rs c.1)) (v.empties.filter (fun e => inRanges rs (8 * e)))
    let s := { s with wo := { s.wo with saves := s.wo.saves.filter (fun x => x != v) } }
    let s := v.blocks.foldl restoreBlock s
    let alone (s : State) (b : Block) : Bool :=
      (b.phase == .parked || b.phase == .saved) && (onCore s b.core.toNat).length == 1
    let s := v.blocks.foldl (fun s b => if alone s b then resumeVictim s b.core w else s) s
    ((v.blocks.map (fun b => b.id.launch)).eraseDups).foldl settleLaunchBarriers s

/-! ## Frame edges (R297, R332-R334, R349) -/

/-- The length of a frame in ns (R297). -/
def frameLen (s : State) (part : BitVec 4) (k : Nat) : Nat := 1000 * bits (hubWord s 3 part.toNat (2 + k)) 0 32

/-- FRAME of a partition that has not come to its first edge, which begins frame k. -/
def beforeFrame (k : Nat) : Nat := 2 ^ 16 + k

/-- The frame that begins at the next edge (R297). -/
def nextFrame (s : State) (part : BitVec 4) : Nat :=
  let k := (switchOf s part).frame
  if beforeFrame 0 ≤ k then k - beforeFrame 0 else if k + 1 < frameCount s part then k + 1 else 0

/-- The device time of a partition's first edge not before now, and the frame that it begins (R297). -/
def firstEdge (s : State) (part : BitVec 4) : Nat × Nat :=
  let epoch := hubWord s 3 part.toNat 0
  let n := frameCount s part
  let start (k : Nat) : Nat := (List.range k).foldl (fun a i => a + frameLen s part i) 0
  let now := s.tm.dtime.toNat
  if now ≤ epoch || start n == 0 then (epoch, 0)
  else
    let off := (now - epoch) % start n
    let k := ((List.range (n + 1)).find? (fun k => off ≤ start k)).getD n
    (now - off + start k, k % max 1 n)

/-- At E the partition's blocks issue nothing any more, its gangs' limits stop counting, and PCLK is the stamp of the loads that the save
withdraws (R332, R333). -/
def stopPart (s : State) (part : BitVec 4) : State :=
  let stop (l : Launch) : Launch :=
    match l.counting with
    | some t => if l.part == part then { l with counting := none, ran := l.ran + (s.tm.dtime - t).toNat } else l
    | none => l
  let s := setSwitch s part { switchOf s part with edge := .stopping, edgeClock := s.tm.pclk }
  { s with dp := { s.dp with launches := s.dp.launches.map stop } }

/-- The in-field tests that wait for this edge, between steps 3 and 5 (R349). -/
def edgeTests (s : State) (part : BitVec 4) : State :=
  let mine (x : Core × Bool) : Bool := bitAt (partClusters s part) (clusterOf x.1)
  match s.pl.testDue.filter mine with
  | [] => s
  | ts =>
    let s := reachTime s (s.tm.dtime.toNat + 15000)
    let s := ts.foldl (fun s x => testEnds s x.1 x.2) s
    { s with pl := { s.pl with testDue := s.pl.testDue.filter (fun x => !mine x) } }

/-- Step 6: the incoming world issues, unless the partition's next edge has come before it, and its gangs' limits count (R332, R334). -/
def startPart (s : State) (part : BitVec 4) : State :=
  let (t, s) := readTime s
  let w := switchOf s part
  if w.due ≤ t.toNat then setSwitch s part { w with edge := .mute }
  else
    let s := setSwitch s part { w with edge := .run }
    let start (l : Launch) : Launch :=
      if l.part == part && l.nextGroup != 0 && partWorld s part == some l.world then { l with counting := some t } else l
    { s with dp := { s.dp with launches := s.dp.launches.map start } }

/-- Steps 2 to 6 of a frame edge (R332-R334). -/
def passEdge (s : State) (part : BitVec 4) : State :=
  let w := switchOf s part
  let out := partWorld s part
  let k := nextFrame s part
  let inc := if k < frameCount s part then frameWorld s part k else none
  let s := match out with | some o => saveWorld s part o (w.edge == .mute) | none => s
  let s := setSwitch s part { w with edges := w.edges + 1 }
  let s := edgeTests (scrub s part 1 out inc (partRanges s part) clearedAll) part
  let w := switchOf s part
  let s := setSwitch s part
    { w with frame := k, due := w.due + frameLen s part k, vfWait := w.vfWait.filter (fun f => out != some (fnWorld s f)) }
  let s := match inc with | some i => restoreWorld s part i | none => s
  settleFair (startPart s part)

/-- A frame edge from E on: it comes at its device time, the blocks' outstanding work completes as far as step 1 lets it, and once every block
can be saved the other steps follow; a frame that issued nothing has no such work (R332, R334). -/
def frameEdge (s : State) (part : BitVec 4) : State :=
  let w := switchOf s part
  let s := if w.edge == .stopping then s else reachTime s w.due
  if w.edge == .mute then passEdge s part
  else
    let s := if w.edge == .run then stopPart s part else s
    let s := (partBlocks s part).foldl (fun s b => onBlock s b.id (settleBy edgeOps)) s
    if (partBlocks s part).all Block.edgeReady then passEdge s part else s

end Sys2Proof.Machine
end

