-- ==== Sys2Proof/Machine/Functions.lean ====
section
/-! DEFINITION. Descriptors as Lolen writes them: DESC_SYNC (R276), the making of an object (R183, R356), and what is made with a function:
its queue table and service rings (R246, R298, R355). -/

namespace Sys2Proof.Machine

/-! ## DESC_SYNC (R276) -/

/-- Whether a handle names object index i of this package. -/
def namesIndex (s : State) (i : Nat) (h : DWord) : Bool := hHome h == s.pl.pkg.toNat && hIndex h == i

/-- A started command that captured the object's copy is marked; DESC_SYNC completes when it has completed. -/
def EngineQ.markOld (q : EngineQ) (p : DWord → Bool) : EngineQ :=
  let mark (c : Cmd) : Cmd := if c.objUses.any (fun u => p u.h) then { c with oldDesc := true } else c
  { q with run := q.run.map mark, trail := q.trail.map mark }

/-- A block's handle registers, code handle and commands after DESC_SYNC of an object (R276). -/
def Block.descSync (p : DWord → Bool) (b : Block) : Block :=
  { b with
    h := b.h.map (fun c => if p c.v then { c with refresh := true } else c)
    codeRefresh := b.codeRefresh || p b.code
    codeBuf := if p b.code then [] else b.codeBuf
    eF := b.eF.markOld p, eP := b.eP.markOld p }

/-- This package's handle caches and handle registers lose the old descriptor of the objects that a predicate names (R276). -/
def syncHere (s : State) (p : DWord → Bool) : State :=
  mapBlocks { s with tb := { s.tb with hcache := s.tb.hcache.filter (fun e => !p e.handle) } } (Block.descSync p)

/-- The wire code that has a share-group member synchronise its copies of an object's descriptor (log 14). -/
def wSync : Nat := 26

/-- The bytes of a descriptor. -/
def descBytes (d : BitVec 512) : List Byte := leBytes 64 d.toNat

/-- A member of a share group is asked to synchronise, unless it is lost: then nothing waits for it (R276, R365). -/
def askSync (a : List SyncAsk × State) (x : SyncAsk) : List SyncAsk × State :=
  let (xs, s) := a
  if x.remote.isSome then (xs ++ [x], s)
  else if lostMember s x.handle x.pkg.toNat then (xs, s)
  else
    match sendRequest s x.pkg.toNat opAtomic x.handle 0 none (leBytes 1 wSync ++ descBytes x.desc) with
    | some (r, s) => (xs ++ [{ x with remote := some r }], s)
    | none => (xs ++ [x], s)

/-- Whether a started command still uses the old copy of a descriptor of an object that a predicate names: a parked one does not, since its replay
repeats the checks (R276, R283; log 75). -/
def oldInUse (s : State) (p : DWord → Bool) : Bool :=
  (allBlocks s).any (fun b => b.running.any (fun c => c.oldDesc && c.park.isNone && c.objUses.any (fun u => p u.h)))

/-- A home's request to synchronise is answered, once no started command here uses the old copy (R276). -/
def answerSync (a : List PeerFrame × State) (f : PeerFrame) : List PeerFrame × State :=
  if oldInUse a.2 (fun h => hObj h == hObj f.handle) then (a.1 ++ [f], a.2) else (a.1, replyFrame a.2 f [1])

/-- What DESC_SYNCs wait for goes on: the requests to members, and the answers to the homes of others (R276). -/
def settleSyncs (s : State) : State :=
  let (xs, s) := s.tb.syncs.foldl askSync ([], s)
  let (fs, s) := s.tb.syncFrames.foldl answerSync ([], s)
  { s with tb := { s.tb with syncs := xs, syncFrames := fs } }

/-- DESC_SYNC of an object of this package, here and at the packages of its share group (R276). -/
def descSync (s : State) (i : Nat) : State :=
  let h := handleOf s.pl.pkg.toNat i 0
  let others := (s.pe.groups.filter (fun g => hObj g.index == hObj h)).flatMap (fun g => g.members.filter (· != s.pl.pkg))
  let d := match readDesc s i with | .ok d => d | .error _ => 0
  let s := syncHere s (namesIndex s i)
  let asks : List SyncAsk := others.map (fun p => ⟨p, h, d, none⟩)
  settleSyncs { s with tb := { s.tb with syncs := s.tb.syncs ++ asks } }

/-- DESC_SYNC of an object of another package, as its home asks for it: the answer waits for the started commands that use the old copy
(R276). -/
def syncFor (s : State) (f : PeerFrame) (bs : List Byte) : State :=
  let s := hostDesc (syncHere s (fun h => hObj h == hObj f.handle)) f.handle (BitVec.ofNat 512 (leNat ((bs.drop 1).take 64)))
  settleSyncs { s with tb := { s.tb with syncFrames := s.tb.syncFrames ++ [f] } }

/-! ## Making an object (R183, R356) -/

/-- Zero-fill a slab frame; FILLMARK counts it (R183, R339). -/
def zeroSlab (s : State) (a : Nat) : State :=
  { s with mem := Memory.zeroFill s.mem a 65536, wo := { s.wo with fillmark := s.wo.fillmark + 1 } }

/-- A descriptor image with the fields that Lolen fills in: GEN, ROOT or the counter's address, and zero lease state, version,
stamp and MIG. -/
def createdDesc (ws : List Nat) (gen root : Nat) : BitVec 512 :=
  let w0 := setBits (setBits (ws.getD 0 0) 48 16 gen) 0 1 0
  let w3 := setBits (setBits (ws.getD 3 0) 48 15 0) 32 14 0
  let all := [w0, ws.getD 1 0, ws.getD 2 0, w3, ws.getD 4 0, 0, 0, root]
  BitVec.ofNat 512 (all.foldr (fun w a => w % 2 ^ 64 + 2 ^ 64 * a) 0)

/-- Make a new object: its descriptor is written and its slabs, or its counter words, are zero. -/
def makeObject (s : State) (i : Nat) (d : BitVec 512) (frames : List Nat) : State :=
  let s := writeDesc s i d
  if dKind d == kCounter then { s with mem := Memory.zeroFill s.mem (counterAddr d 0) (8 * dCount d) }
  else
    frames.foldl
      (fun s gpa =>
        match g2Frame s (lowDie s) (dOwner d) gpa true with
        | (.ok a, s) => zeroSlab s a
        | _ => s) s

/-- A free descriptor of a generation. -/
def freeDesc (gen : Nat) : BitVec 512 := BitVec.ofNat 512 (gen % 2 ^ 16 * 2 ^ 48)

/-! ## A function's queue table and service rings (R246, R298, R355; log 18) -/

/-- Read and write rights of a world, as a word of RGT. -/
def ownRights (world : BitVec 14) : Nat := world.toNat + 2 ^ 14 + 2 ^ 15

/-- The descriptor image of a service ring: an `.n64` tensor of extents (8, 64) in HBM (R355). -/
def ringImage (world : BitVec 14) : List Nat :=
  [kTensor * 2 ^ 44 + 2 * 2 ^ 40 + 7 * 2 ^ 35 + 15 * 2 ^ 28, 8 + 64 * 2 ^ 16, 0, 0, ownRights world]

/-- The descriptor image of a ring's counter object: TAIL, RESV and DONE (R355). -/
def ringCtrImage (world : BitVec 14) : List Nat :=
  [kCounter * 2 ^ 44 + 1 * 2 ^ 40 + 7 * 2 ^ 35 + 5 * 2 ^ 32 + 15 * 2 ^ 28, 3, 0, 0, ownRights world]

/-- GEN of an index, 0 where its descriptor cannot be read. -/
def genAt (s : State) (i : Nat) : Nat := match readDesc s i with | .ok d => dGen d | .error _ => 0

/-- Make a service ring with its one slab, and its counter object. -/
def makeRing (fn : BitVec 6) (host privileged : Bool) (p : RingPlace) (s : State) : State :=
  let world := fnWorld s fn
  let (i, j) := (p.index.toNat, p.ctrIndex.toNat)
  let (g, k) := (genAt s i, genAt s j)
  let s := match g2Translate s (lowDie s) world p.root true with
    | (.ok a, s) => { s with mem := Memory.writeAll s.mem a (leBytes 8 (2 ^ 62 + p.frame / 65536 * 65536)) }
    | _ => s
  let s := makeObject s i (createdDesc (ringImage world) g p.root) [p.frame]
  let s := makeObject s j (createdDesc (ringCtrImage world) k p.words) []
  let r : SvcRing :=
    { fn := fn, host := host, ring := handleOf s.pl.pkg.toNat i g, ctr := handleOf s.pl.pkg.toNat j k, served := 0,
      privileged := privileged, remote := none, reply := none, want := [], got := [] }
  { s with ho := { s.ho with rings := r :: s.ho.rings } }

/-- Make a function: the hypervisor places its queue table, and Lolen makes ring H and ring P (R246, R355). -/
def makeFunction (s : State) (fn : BitVec 6) : State :=
  let (n, s) := freshNat s
  let p := Config.newFunction n
  let s := { s with dp := { s.dp with tables := ⟨fn, p.tableBase, min p.queues 256⟩ :: s.dp.tables } }
  makeRing fn false false p.program (makeRing fn true p.privileged p.host s)

/-- The indices of a function's rings and counter objects. -/
def ringIndices (s : State) (fn : BitVec 6) : List Nat :=
  (s.ho.rings.filter (fun r => r.fn == fn)).flatMap (fun r => [hIndex r.ring, hIndex r.ctr])

/-- End a function: its rings are destroyed and its queue table goes. -/
def endFunction (s : State) (fn : BitVec 6) : State :=
  let s := (ringIndices s fn).foldl (fun s i => descSync (writeDesc s i (freeDesc (genAt s i + 1))) i) s
  { s with
    dp := { s.dp with tables := s.dp.tables.filter (fun t => t.fn != fn) }
    ho := { s.ho with rings := s.ho.rings.filter (fun r => r.fn != fn) } }

/-- The rings of a function grant its new world their rights. -/
def regrantRings (s : State) (fn : BitVec 6) : State :=
  (ringIndices s fn).foldl
    (fun s i =>
      match readDesc s i with
      | .ok d => descSync (writeDesc s i (dSetWord d 4 (ownRights (fnWorld s fn)))) i
      | .error _ => s) s

/-- The effects of a TWRITE of a function's quota entry: a function is made with its first entry that is not zero, ends with a zero one, and
its rings follow its world. -/
def quotaEffect (s : State) (f old : Nat) : State :=
  let fn := BitVec.ofNat 6 f
  let new := hubWord s 4 f 0
  if old == 0 && new != 0 then makeFunction s fn
  else if old != 0 && new == 0 then endFunction s fn
  else if bits old 50 14 != bits new 50 14 then regrantRings s fn
  else s

end Sys2Proof.Machine
end

