-- ==== Sys2Proof/Machine/Tables.lean ====
section
/-! DEFINITION. The table commands of the system cores (R268, R269, R276, R281, R286, R289, R295-R299) and the write of FBHEAD
(R285). A command takes its arguments from TARG0 to TARG2. -/

namespace Sys2Proof.Machine

/-! ## Issue (R268) -/

/-- TARG0. -/
def targ0 (s : State) : Nat := s.tb.targ0.toNat
/-- TARG1. -/
def targ1 (s : State) : Nat := s.tb.targ1.toNat
/-- TARG2. -/
def targ2 (s : State) : Nat := s.tb.targ2.toNat

/-- Set or clear TSTAT.ERR. -/
def setErr (s : State) (e : Bool) : State := { s with tb := { s.tb with err := e } }

/-- TSTAT.BUSY: a started command that captured a descriptor's old copy still runs, or a member of the object's share group has not answered
(R276). -/
def tableBusy (s : State) : Bool := oldInUse s (fun _ => true) || !s.tb.syncs.isEmpty

/-- A table command: refused with ERR while BUSY or where its arguments are refused, which changes nothing (R268, R269). -/
def tableCommand (s : State) (ok : Bool) (effect : State → State) : Out :=
  if tableBusy s || !ok then .next (setErr s true) else .next (effect (setErr s false))

/-! ## DESC_SYNC, SHOOT, G2_SHOOT, FB_FLUSH (R276, R281, R286) -/

/-- DESC_SYNC (R276). -/
def execDescSync (s : State) : Out := tableCommand s (targ0 s < 2 ^ 32) (fun s => descSync s (targ0 s))

/-- Raise the shoot-down generation of every die (R281). -/
def raiseShoot (s : State) : State := { s with tb := { s.tb with shootGen := s.tb.shootGen.map (· + 1) } }

/-- Whether a slab translation is in a range of an object's shard. -/
def TlbEntry.inShoot (e : TlbEntry) (i shard first count : Nat) : Bool :=
  hIndex e.handle == i && e.shard == shard && first ≤ e.slab && e.slab < first + count

/-- The slab translations of a range leave every TLB (R281). -/
def shoot (s : State) (i shard first count : Nat) : State :=
  let s := raiseShoot s
  { s with tb := { s.tb with
      tlb := s.tb.tlb.filter (fun e => !e.inShoot i shard first count)
      nested := s.tb.nested.filter (fun e => !e.inShoot i shard first count) } }

/-- SHOOT (R269, R281). -/
def execShoot (s : State) : Out :=
  let x := targ1 s
  tableCommand s (targ0 s < 2 ^ 32 && bits x 36 20 == 0)
    (fun s => shoot s (targ0 s) (bits x 56 8) (bits x 0 36) (targ2 s))

/-- G2_SHOOT (R269, R281): the range's second-stage translations leave, and with them the slab translations of the world, which
were made through second-stage ones. -/
def execG2Shoot (s : State) : Out :=
  let w := targ0 s
  let base := targ1 s
  let len := targ2 s
  tableCommand s (w < 2 ^ 14 && base % 4096 == 0 && len % 4096 == 0)
    (fun s =>
      let s := raiseShoot s
      let keep : TlbEntry → Bool := fun e => e.world.toNat != w
      { s with tb := { s.tb with
          g2 := s.tb.g2.filter (fun e => !(e.world.toNat == w && base ≤ 4096 * e.page && 4096 * e.page < base + len))
          tlb := s.tb.tlb.filter keep
          nested := s.tb.nested.filter keep } })

/-- FB_FLUSH (R286): a generation other than FBGEN is refused. -/
def execFbFlush (s : State) : Out :=
  let die := targ0 s
  tableCommand s (die < 4 && targ1 s == (fbGenOf s die).toNat) (fun s => fbFlush s die)

/-- FBHEAD_WRITE (R285). -/
def execFbheadWrite (die : BitVec 2) (v : BitVec 32) (s : State) : Out := .next (fbConsume s die.toNat v)

/-! ## COUNTER_MOVE (R289) -/

/-- The descriptor of a counter object that may be moved. -/
def movable (s : State) (i a stage : Nat) : Option (BitVec 512) :=
  match readDesc s i with
  | .error _ => none
  | .ok d =>
    let n := 8 * dCount d
    if dKind d == kCounter && !dMig d && a % 8 == 0 && inSystemRegion s a && inSystemRegion s (a + n - 1)
        && isHbm stage && isHbm (stage + n - 1) then some d
    else none

/-- COUNTER_MOVE: the words pass through the staging area to the new atomic unit, ROOT takes the new address, and the handle caches
are synchronised; no atomic comes between its steps (R289, log 24). -/
def execCounterMove (s : State) : Out :=
  let i := targ0 s
  tableCommand s (i < 2 ^ 32 && (movable s i (targ1 s) (targ2 s)).isSome)
    (fun s =>
      match movable s i (targ1 s) (targ2 s) with
      | none => s
      | some d =>
        let ws := Memory.chip s.mem (counterAddr d 0) (8 * dCount d)
        let s := { s with mem := Memory.writeAll (Memory.writeAll s.mem (targ2 s) ws) (targ1 s) ws }
        descSync (writeDesc s i (dSetWord d 7 (targ1 s))) i)

/-! ## TWRITE and TREAD (R269, R295-R299) -/

/-- The entries and words of a hub-resident table by its code (R267, R269, R295-R299). -/
def tableShape (t : Nat) : Nat × Nat :=
  match t with
  | 1 => (16, 4)
  | 2 => (16384, 16)
  | 3 => (16, 66)
  | 4 => (64, 2)
  | 5 => (4096, 4)
  | 6 => (1024, 16)
  | 7 => (16384, 256)
  | _ => (0, 0)

/-- The clusters that partitions other than p hold. -/
def othersClusters (s : State) (p : Nat) : Nat :=
  ((List.range 16).filter (· != p)).foldl (fun a q => a ||| bits (hubWord s 1 q 0) 0 16) 0

/-- Whether word 0 of a partition entry may be written (R295, R347). -/
def partWordOk (s : State) (p v : Nat) : Bool :=
  let base := ((s.wo.parts[p]?).getD .reset).saveBase
  bits v 16 32 == 0 && bits v 48 2 != 3 && bits v 0 16 &&& othersClusters s p == 0 && (bits v 48 2 != 2 || base != 0)

/-- Whether the shares of word 1 may be written: in range, and apart from every other partition's (R295). -/
def sharesOk (s : State) (p v : Nat) : Bool :=
  (List.range 4).all (fun d =>
    let base := bits v (16 * d) 7
    let len := bits v (16 * d + 8) 8
    !bitAt v (16 * d + 7) && len ≤ 127 && base + len ≤ 127
      && ((List.range 16).filter (· != p)).all (fun q =>
        let (b', l') := shareOf s (BitVec.ofNat 4 q) d
        len == 0 || l' == 0 || base + len ≤ b' || b' + l' ≤ base))

/-- Whether a partition has placed or parked blocks (R295). -/
def partBusy (s : State) (p : Nat) : Bool := (allBlocks s).any (fun b => b.part.toNat == p)

/-- Whether a TWRITE of a partition entry is accepted (R295). -/
def partitionOk (s : State) (p w v : Nat) : Bool :=
  !partBusy s p
    && (match w with
        | 0 => partWordOk s p v
        | 1 => sharesOk s p v
        | 2 => 1000 ≤ v && v ≤ 100000000
        | _ => v == 0)

/-- Whether a partition names a world, in fixed mode or in its frame table (R296). -/
def worldNamed (s : State) (w : Nat) : Bool :=
  (List.range 16).any (fun p =>
    let q := BitVec.ofNat 4 p
    (partMode s q == 1 && bits (hubWord s 1 p 0) 50 14 == w)
      || (List.range (frameCount s q)).any (fun k => bits (hubWord s 3 p (2 + k)) 50 14 == w))

/-- Whether a TWRITE of a world entry is accepted (R296). -/
def worldOk (s : State) (e w v : Nat) : Bool :=
  !worldNamed s e && (w != 1 || (bits v 62 2 ≤ 1 && bits v 0 56 == 0)) && (w < 8 || v == 0)

/-- Whether a TWRITE of a frame table is accepted (R297). -/
def frameOk (s : State) (p w v : Nat) : Bool :=
  partMode s (BitVec.ofNat 4 p) != 2
    && (match w with
        | 0 => true
        | 1 => 1 ≤ v && v ≤ 64
        | _ => bits v 32 18 == 0 && 1000 ≤ bits v 0 32)

/-- Whether two ranges of dependence counters are apart. -/
def depsApart (a b : Nat × Nat) : Bool := a.2 == 0 || b.2 == 0 || a.1 + a.2 ≤ b.1 || b.1 + b.2 ≤ a.1

/-- Whether a TWRITE of a quota entry is accepted (R298). -/
def quotaOk (s : State) (f w v : Nat) : Bool :=
  if w != 0 then v == 0
  else
    let others := (List.range 64).filter (· != f)
    let qs := bits v 25 13
    let mine := (bits v 0 12, bits v 12 13)
    qs + others.foldl (fun a g => a + bits (hubWord s 4 g 0) 25 13) 0 ≤ 4096
      && mine.1 + mine.2 ≤ 4096
      && others.all (fun g => depsApart mine (depRange s (BitVec.ofNat 6 g)))
      && (bits (hubWord s 4 f 0) 25 13 ≤ qs || (s.dp.launches.filter (fun l => l.fn.toNat == f)).length ≤ qs)

/-- Whether a TWRITE of a watch entry is accepted (R299). -/
def watchOk (w v : Nat) : Bool :=
  match w with
  | 2 => bits v 56 7 == 0 && bits v 0 36 == 0
  | 3 => v == 0
  | _ => true

/-- Whether a TWRITE is accepted; the lease table may be read only (R269). -/
def twriteOk (s : State) (t e w v : Nat) : Bool :=
  e < (tableShape t).1 && w < (tableShape t).2
    && (match t with
        | 1 => partitionOk s e w v
        | 2 => worldOk s e w v
        | 3 => frameOk s e w v
        | 4 => quotaOk s e w v
        | 5 => watchOk w v
        | 6 => true
        | _ => false)

/-- The effects of a TWRITE of word 0 of a partition entry besides the word: its frame edges begin anew, and setting MODE from 0, or changing
WORLD, scrubs the partition (R297, R338). -/
def partModeEffect (s : State) (p old : Nat) (out : Option (BitVec 14)) : State :=
  let part := BitVec.ofNat 4 p
  let new := hubWord s 1 p 0
  let (due, k) := firstEdge s part
  let s := setSwitch s part
    { switchOf s part with frame := if bits new 48 2 == 2 then beforeFrame k else 0, due := due, edge := .run }
  if (bits old 48 2 == 0 && bits new 48 2 != 0) || bits old 50 14 != bits new 50 14 then
    scrub s part 2 out (partWorld s part) (partRanges s part) clearedAll
  else s

/-- The effects of a TWRITE of STATE: a world that becomes live draws its key; one that becomes free loses it, and its save slots
with it (R296, R335, R336). -/
def worldStateEffect (s : State) (w old : Nat) : State :=
  let was := bits old 62 2 == 1
  let is := worldLive s w
  if !was && is then
    let (n, s) := freshNat s
    { s with wo := { s.wo with worldKeys := (w, n) :: s.wo.worldKeys } }
  else if was && !is then
    { s with wo := { s.wo with
        worldKeys := s.wo.worldKeys.filter (fun x => x.1 != w)
        saves := s.wo.saves.filter (fun v => v.world.toNat != w) } }
  else s

/-- A TWRITE with its effects (R269, R295, R296, R298, R306, R338). -/
def twrite (s : State) (t e w : Nat) (v : DWord) : State :=
  let old := hubWord s t e w
  let out := partWorld s (BitVec.ofNat 4 e)
  let s := setHub s t e w v
  settleFair
    (match t, w with
     | 1, 0 => partModeEffect s e old out
     | 1, 2 =>
       let part := BitVec.ofNat 4 e
       setPart s part { partOf s part with next := s.tm.dtime + v }
     | 2, 1 => worldStateEffect s e old
     | 4, 0 => quotaEffect s e old
     | _, _ => s)

/-- TWRITE (R269). -/
def execTwrite (s : State) : Out :=
  let x := targ0 s
  tableCommand s (twriteOk s (bits x 56 8) (bits x 8 48) (bits x 0 8) (targ1 s))
    (fun s => twrite s (bits x 56 8) (bits x 8 48) (bits x 0 8) s.tb.targ1)

/-- TREAD (R269): a word of the lease table is an open value, for R290 gives its entry no layout (log 29). -/
def execTread (s : State) : Out :=
  let x := targ0 s
  let t := bits x 56 8
  let e := bits x 8 48
  let w := bits x 0 8
  tableCommand s (e < (tableShape t).1 && w < (tableShape t).2)
    (fun s =>
      let (n, s) := if t == 7 then freshNat s else (0, s)
      let v := if t == 7 then Config.leaseWord n e else BitVec.ofNat 64 (hubWord s t e w)
      { s with tb := { s.tb with targ1 := v } })

end Sys2Proof.Machine
end

