-- ==== Sys2Proof/Machine/TimeEvents.lean ====
section
/-! DEFINITION. Turns, stalls and the timetable walker (R306, R307, R309-R315), dependence counters (R325) and PTP event frames
(R304). -/

namespace Sys2Proof.Machine

/-- DCVAL_WRITE: the selected dependence counter (R325). -/
def execDcvalWrite (v : BitVec 64) (s : State) : Out := .next (settleFair (setDep s s.tm.dcidx.toNat v.toNat))

/-! ## The timetable walker (R309-R311) -/

/-- EN of a TTCTL value. -/
def ttEn (v : DWord) : Bool := v.getLsbD 63
/-- VF. -/
def ttVf (v : DWord) : BitVec 6 := BitVec.ofNat 6 (bits v.toNat 56 6)
/-- QUEUE. -/
def ttQueue (v : DWord) : Nat := bits v.toNat 48 8
/-- COUNT. -/
def ttCount (v : DWord) : Nat := bits v.toNat 32 16
/-- CYCLE. -/
def ttCycle (v : DWord) : Nat := bits v.toNat 0 32

/-- Whether a write of TTCTL is refused: its reserved bit, or a COUNT of 0 (R9, R304). -/
def ttBad (v : DWord) : Bool := v.getLsbD 62 || (ttEn v && ttCount v == 0)

/-- TTCTL_WRITE of the selected partition (R309, R311): ignored while EN is 1 unless it clears EN; a write that sets EN starts the
walker at turn PTURN + 1. -/
def execTtctlWrite (v : BitVec 64) (s : State) : Out :=
  let p := partOf s s.tm.psel
  if ttBad v || (ttEn p.ttctl && ttEn v) then .next s
  else if ttEn v then
    .next (setPart s s.tm.psel
      { p with ttctl := v, base := p.pturn + 1, pass := 0, move := 0, park := none, remote := none, reply := none })
  else .next (setPart s s.tm.psel { p with ttctl := v })

/-- What reading a move answers: its words, a park, a request, or an object that is no timetable. -/
inductive MoveRead where
  | words (ws : List Nat)
  | park (h : DWord) (m : Meet)
  | ask (pkg off : Nat) (desc : Bool) (body : List Byte)
  | refused
  deriving DecidableEq, Repr

/-- Read the 20 words of move m through TTOBJ with the rights of the function's world (R309, R310). -/
def readMove (s : State) (p : Part) : MoveRead × State :=
  let who := dispWho (lowDie s) (fnWorld s (ttVf p.ttctl))
  match resolve s who p.ttobj 0 with
  | (.trap _, s) => (.refused, s)
  | (.park m, s) => (.park p.ttobj m, s)
  | (.ask pkg, s) => (.ask pkg descOffset true [], s)
  | (.ok d _, s) =>
    if dKind d != kTensor || dFmt d != 7 || dExts d != [20, ttCount p.ttctl] || !canRead d who.world then (.refused, s)
    else
      match p.reply with
      | some bs => (.words (replyValues 20 (bs.drop 8)), s)
      | none =>
        let fs := (List.range 20).map (fun j => elemFields d [j, p.move])
        let sh := (fs.head?.map (·.1)).getD 0
        let fields := fs.flatMap (fun x => x.2.take 1)
        match objRead s who p.ttobj d 0 sh fields with
        | (.ok vs _, s) => (.words vs, s)
        | (.park m, s) => (.park p.ttobj m, s)
        | (.peer pkg, s) => (.ask pkg ((fields.head?.map Field.off).getD 0) false (fieldBody sh fields), s)

/-- The walker behind its move: the next move, the next pass, or EN cleared (R311). -/
def Part.nextMove (p : Part) : Part :=
  let p := { p with park := none, remote := none, reply := none }
  if p.move + 1 < ttCount p.ttctl then { p with move := p.move + 1 }
  else if ttCycle p.ttctl == 0 then { p with ttctl := p.ttctl &&& ~~~((1 : DWord) <<< 63), move := p.move + 1 }
  else { p with move := 0, pass := p.pass + 1 }

/-- Release a move at its turn: class D with its deadline, or, where R310 refuses it, completed with reason 8 (R310-R312). -/
def releaseMove (s : State) (part : BitVec 4) (p : Part) (ws : List Nat) : State :=
  let fn := ttVf p.ttctl
  let a := p.base.toNat + p.pass * ttCycle p.ttctl + ws.getD 0 0
  let due := max (a + ws.getD 1 0) p.pturn.toNat
  let r : LaunchRec := ⟨(ws.drop 4).map (BitVec.ofNat 64)⟩
  let bad := ws.getD 2 0 != 0 || ws.getD 3 0 != 0 || r.cls != 0 || r.prio != 0 || r.deadline != 0
  let r := if bad then r else r.set 5 (p.next.toNat + (due - p.pturn.toNat) * partTper s part)
  let (n, s) := freshNat (setPart s part p.nextMove)
  admitRecord s fn (ttQueue p.ttctl) (Config.moveSeq n) r (some ⟨part, BitVec.ofNat 64 due, p.pass, p.move⟩) bad

/-- Whether the walker may look at its next move: EN in fixed-world mode, no stall, no park, no request, and a slot of its
function's quota free (R249, R309, R311, R312). -/
def walkerReady (s : State) (part : BitVec 4) (p : Part) : Bool :=
  ttEn p.ttctl && partMode s part == 1 && p.stalled.isNone && (match p.park with | some k => k.released | none => true)
    && p.remote.isNone && slotFree s (ttVf p.ttctl)

/-- TIMETABLE_RELEASE of a partition's walker (R311). -/
def execTimetableRelease (part : BitVec 4) (s : State) : Out :=
  let p := partOf s part
  if !walkerReady s part p then .next s
  else
    match readMove s p with
    | (.refused, s) => .next s
    | (.park h m, s) =>
      let (k, s) := park s (dispWho (lowDie s) (fnWorld s (ttVf p.ttctl))) h false false m
      .next (setPart s part { p with park := some k })
    | (.ask pkg off desc body, s) =>
      match sendRequest s pkg opRead p.ttobj off (if desc then some p.ttobj else none) body with
      | some (r, s) => .next (setPart s part { p with park := none, remote := some r })
      | none =>
        let (k, s) := park s (dispWho (lowDie s) (fnWorld s (ttVf p.ttctl))) p.ttobj false false (noPath opRead off body)
        .next (setPart s part { p with park := some k })
    | (.words ws, s) =>
      if p.pturn.toNat < p.base.toNat + p.pass * ttCycle p.ttctl + ws.getD 0 0 then .next s
      else .next (releaseMove s part p ws)

/-! ## Turn boundaries (R306, R307, R312-R315) -/

/-- The released moves of a partition whose deadline turn is n and which have not completed (R312). -/
def lateMoves (s : State) (part : BitVec 4) (n : DWord) : List MoveRef :=
  s.dp.launches.filterMap (fun l => match l.late with | some m => if m.part == part && m.turn == n then some m else none | none => none)

/-- PTP time at a device time, in ns (R304). -/
def ptpTime (s : State) (t : DWord) : Nat := (t + s.tm.ptpoff).toNat

/-- The bytes of a slip record, with DUR open (R313). -/
def slipBytes (s : State) (part : BitVec 4) (p : Part) (m : MoveRef) : List Byte :=
  let t := ptpTime s p.next
  leBytes 8 m.turn.toNat ++ leBytes 8 (t / 1000000000)
    ++ leBytes 8 (t % 1000000000 * 2 ^ 32 + part.toNat * 2 ^ 28 + m.index % 2 ^ 16)
    ++ leBytes 8 (m.pass % 2 ^ 32 * 2 ^ 32 + (2 ^ 32 - 1))

/-- Write bytes to a line of HBM in part: a poisoned line stays as it is (R183). -/
def patchHbm (s : State) (a : Nat) (bs : List Byte) : State :=
  if isHbm a && isHbm (a + bs.length - 1) && (Memory.writePoison s.mem a bs.length).isNone then
    { s with mem := Memory.writeAll s.mem a bs }
  else s

/-- Write one slip record at SLIPTAIL (R313). -/
def writeSlip (part : BitVec 4) (s : State) (m : MoveRef) : State :=
  let p := partOf s part
  let s := patchHbm s (p.slipBase.toNat + 32 * (p.slipTail.toNat % 256)) (slipBytes s part p m)
  setPart s part { p with slipTail := p.slipTail + 1 }

/-- A stall begins: one slip record for each late move (R312, R313). -/
def beginStall (s : State) (part : BitVec 4) (ms : List MoveRef) : State :=
  let p := partOf s part
  ms.foldl (writeSlip part) (setPart s part { p with stalled := some p.next, stallRec := p.slipTail })

/-- Write DUR into the records of a stall that lasted d ns, where fewer than 256 have been written since (R313). -/
def endSlips (s : State) (p : Part) (d : Nat) : State :=
  let n := (p.slipTail - p.stallRec).toNat
  (List.range n).foldl
    (fun s i =>
      if n - 1 - i < 256 then
        patchHbm s (p.slipBase.toNat + 32 * ((p.stallRec.toNat + i) % 256) + 24) (leBytes 4 (min d (2 ^ 32 - 2)))
      else s) s

/-- Whether a posted write is a send: a store at `cl:` or `ds:`, or an object write (R228, R315). -/
def Posted.isSend : Posted → Bool
  | .store lv _ _ => lv != .sp
  | .sto .. => true
  | .gate _ => false

/-- Whether a strand waits for an access that is a send: a full/empty one at `cl:` or `ds:`, or a write at another package (R228, R315). -/
def Block.sendWaits (b : Block) : Bool :=
  match b.wait with
  | some (.fullEmpty a) => a < spBase
  | some (.remote _ write _ _) => write
  | _ => false

/-- Whether a member's sends of its gang turn have all completed (R315). -/
def Block.delivered (b : Block) : Bool :=
  !b.posted.any Posted.isSend && !b.sendWaits && !b.loads.any (fun l => l.op.isAtomic)
    && b.eF.q.isEmpty && b.eF.started.isEmpty && b.eP.q.isEmpty && b.eP.started.isEmpty

/-- Whether a locked gang's GTURN advances at a boundary of a partition (R307). -/
def gangAdvances (s : State) (part : BitVec 4) (l : Launch) : Bool :=
  let ms := (allBlocks s).filter (fun b => b.id.launch == l.slot)
  l.part == part && l.record.locked && l.counted && !l.unplaced && ms.all (fun b => !([b.phase, b.back].any Phase.waitsForToken))
    && !ms.any Block.isParked && (!l.record.timed || ms.all Block.delivered) && partWorld s part == some l.world

/-- PTURN passes to the next turn, with the gangs of the partition (R306, R307). -/
def passTurn (s : State) (part : BitVec 4) (next : DWord) : State :=
  let p := partOf s part
  let ls := s.dp.launches.map (fun l => if gangAdvances s part l then { l with gturn := l.gturn + 1 } else l)
  let s := setPart s part { p with pturn := p.pturn + 1, next := next, stalled := none }
  { s with dp := { s.dp with launches := ls } }

/-- TURN_BOUNDARY of a partition: PTURN advances, or a late move stalls it, or the stall of moves that have completed ends (R306,
R312). -/
def execTurnBoundary (part : BitVec 4) (s : State) : Out :=
  let p := partOf s part
  let tper := BitVec.ofNat 64 (partTper s part)
  let ms := lateMoves s part p.pturn
  match p.stalled with
  | some since =>
    if !ms.isEmpty then .next s
    else
      let te := s.tm.dtime
      .next (passTurn (endSlips s p (te - since).toNat) part (te + tper))
  | none =>
    let s := reachTime s p.next.toNat
    if ms.isEmpty then .next (passTurn s part (p.next + tper)) else .next (beginStall s part ms)

/-! ## PTP (R304, R358) -/

/-- The EtherType of a frame. -/
def etherType (bs : List Byte) : Nat := (bs.getD 12 0).toNat * 256 + (bs.getD 13 0).toNat

/-- Whether a scale-out port is up: its link is, and it has trained since the last write of PORTCFG (R358). -/
def portUp (s : State) (p : ScalePort) : Bool := p.linkUp && p.upAt.toNat ≤ s.tm.dtime.toNat

/-- Whether a port takes part in the time service with a frame (R358). -/
def ptpTaken (s : State) (port : BitVec 5) (bs : List Byte) : Bool :=
  match s.pe.ports[port.toNat]? with
  | some p => p.ptpen && portUp s p && (p.mode == 1 || p.mode == 2) && etherType bs == 0x88F7
  | none => false

/-- Whether a PTP frame is an IEEE 1588 event message: its message type is below 4 (R304). -/
def isEventMessage (bs : List Byte) : Bool := bits (bs.getD 14 0).toNat 0 4 < 4

/-- A frame that the time service sends or receives; an event message is timestamped against DTIME at the port (R304). -/
def giveTimeService (s : State) (port : BitVec 5) (sent : Bool) (bs : List Byte) : State :=
  let f : PtpFrame := ⟨port, sent, if isEventMessage bs then some s.tm.dtime else none, bs⟩
  { s with tm := { s.tm with ptpLog := s.tm.ptpLog ++ [f] } }

/-- PTP_EVENT_FRAME: a frame that a port receives for the time service, or sends for it (R304, R358). -/
def execPtpEventFrame (port : BitVec 5) (f : TimeFrame) (s : State) : Out :=
  let (_, s) := readTime s
  .next (if ptpTaken s port f.bytes then giveTimeService s port f.sent f.bytes else s)

end Sys2Proof.Machine
end

