-- ==== Sys2Proof/Machine/Boot.lean ====
section
/-! DEFINITION. Package reset, boot and recovery (R187, R343, R344, R370-R373). -/

namespace Sys2Proof.Machine

/-! ## Package reset (R8, R187, R343) -/

/-- The machine after a package reset: every field as `State.reset` has it, but for what R343, R347 and R373 keep: new keys and a
new BOOTN, ALARMCAUSE, the flash, and the package's number, which comes from the boot image. -/
def resetMachine (s : State) : State :=
  let r := State.reset
  { r with
    agenda := s.agenda
    fresh := s.fresh + 1
    wo := { r.wo with bootn := s.fresh, keyGen := s.wo.keyGen + 1, alarm := s.wo.alarm }
    pl := { r.pl with flash := s.pl.flash, pkg := s.pl.pkg } }

/-- PACKAGE_RESET (R343). -/
def execPackageReset (s : State) : Out := .next (resetMachine s)

/-- POWER_LOSS: nothing in progress leaves a token, and every volatile store is lost; at power-on the machine is as after a package
reset, and it has not booted (R8, R187, R343, R373). -/
def execPowerLoss (s : State) : Out :=
  let r := resetMachine s
  .next { r with wo := { r.wo with alarm := 0 } }

/-! ## Images (R371) -/

/-- The largest image: 32 MiB. -/
def imageLimit : Nat := 2 ^ 25

/-- The body length that an image's header gives. -/
def imageLen (bs : List Byte) : Nat := leNat ((bs.drop 0x0C).take 4)

/-- What the signature and BOOTMEAS cover: the header bytes 0x00-0x3F and the body. -/
def imageSigned (bs : List Byte) : List Byte := bs.take 0x40 ++ (bs.drop 0xA0).take (imageLen bs)

/-- Whether an image passes every check of R371. -/
def imageOk (bs : List Byte) : Bool :=
  0xA0 ≤ bs.length && leNat (bs.take 8) == 0x4E4C4F4441484C4B && Config.minSvn ≤ leNat ((bs.drop 8).take 4)
  && imageLen bs % 4096 == 0 && 0xA0 + imageLen bs ≤ imageLimit && 0xA0 + imageLen bs ≤ bs.length
  && ((bs.drop 0x18).take 40).all (· == 0)
  && Config.signatureValid (bs.take (0xA0 + imageLen bs))

/-- An image that has been verified starts: BOOTMEAS, VERIFIED and READY (R370, R371). -/
def startImage (s : State) (bs : List Byte) : State :=
  { s with pl := { s.pl with
      meas := Config.sha384 (imageSigned bs), verified := true, recovery := false, ready := true } }

/-- BOOT: the SRAM is cleared and keys are drawn, and the image in flash is verified; a failing one enters recovery, which only
RECOVERY_START or a package reset ends (R370, R372). -/
def execBoot (s : State) : Out :=
  if s.pl.ready || s.pl.recovery then .next s
  else
    let s := resetMachine s
    .next (if imageOk s.pl.flash then startImage s s.pl.flash else { s with pl := { s.pl with recovery := true } })

/-- The bytes of the recovery buffer, units 0-31 of die 0's store (R372). -/
def recoveryImage (s : State) : List Byte :=
  let header := Memory.chip s.mem (dsAddr 0 0) 0xA0
  Memory.chip s.mem (dsAddr 0 0) (min imageLimit (0xA0 + imageLen header))

/-- RECOVERY_START: the store of 1 verifies the image in the buffer and runs it; a failing one leaves the part in recovery
(R372). -/
def execRecoveryStart (s : State) : Out :=
  if s.pl.recovery && imageOk (recoveryImage s) then .next (startImage s (recoveryImage s)) else .next s

end Sys2Proof.Machine
end

