-- ==== Sys2Proof/Machine/HostPort.lean ====
section
/-! DEFINITION. Host requests over Galith (R350-R353, R355, R357, R372, R415). -/

namespace Sys2Proof.Machine

/-! ## Ports and completions (R350, R351) -/

/-- A Galith port. -/
def portState (s : State) (port : Bool) : GPort := if port then s.ho.port1 else s.ho.port0

/-- Replace a Galith port. -/
def setPort (s : State) (port : Bool) (p : GPort) : State :=
  { s with ho := if port then { s.ho with port1 := p } else { s.ho with port0 := p } }

/-- OK. -/
def gOK : Nat := 0
/-- POISON. -/
def gPOISON : Nat := 1
/-- RIGHTS. -/
def gRIGHTS : Nat := 2
/-- UNMAPPED. -/
def gUNMAPPED : Nat := 3
/-- TIMEOUT. -/
def gTIMEOUT : Nat := 4
/-- WINDOW. -/
def gWINDOW : Nat := 5
/-- INVALID. -/
def gINVALID : Nat := 6

/-- Send the completion of a request (R350). -/
def hostDone (s : State) (port : Bool) (tag : BitVec 12) (status : Nat) (data : List Byte) : State :=
  let p := portState s port
  setPort s port { p with done := p.done ++ [⟨tag, status, data⟩] }

/-- The outstanding requests of a port (R350). -/
def portReqs (s : State) (port : Bool) : List HostReq := s.ho.reqs.filter (fun q => q.port == port)

/-- The bytes that a port's outstanding requests hold, each from its arrival until its completion is sent (R351). -/
def heldBytes (s : State) (port : Bool) : Nat :=
  (portReqs s port).foldl (fun a q => a + q.len) 0

/-! ## The address layout of a function (R352) -/

/-- A place in a function's address range. -/
inductive HostPlace where
  | notify (q : Nat)
  | service
  | ring
  | ringCtr
  | desc (o : Nat)
  | aperture (a o : Nat)
  | nothing
  deriving DecidableEq, Repr

/-- The place of an access of a length at an offset (R352). -/
def hostPlace (o len : Nat) (write : Bool) : HostPlace :=
  if o < 0x800 then (if write && len == 8 then .notify (o / 8) else .nothing)
  else if o == 0x1000 then (if write && len == 8 then .service else .nothing)
  else if o == 0x1008 then (if !write && len == 8 then .ring else .nothing)
  else if o == 0x1010 then (if !write && len == 8 then .ringCtr else .nothing)
  else if 0x2000 ≤ o && o + len ≤ 0x2100 then .desc (o - 0x2000)
  else if 2 ^ 32 ≤ o && o < 17 * 2 ^ 32 then .aperture (o / 2 ^ 32 - 1) (o % 2 ^ 32)
  else .nothing

/-- The key of a word of an aperture descriptor. -/
def apKey (fn : BitVec 6) (a w : Nat) : Nat := (fn.toNat * 16 + a) * 2 + w

/-- A word of an aperture descriptor (R352). -/
def apWord (s : State) (fn : BitVec 6) (a w : Nat) : Nat :=
  ((s.ho.apertures.find? (fun x => x.1 == apKey fn a w)).map (fun x => x.2.toNat)).getD 0

/-- Set a word of an aperture descriptor. -/
def setApWord (s : State) (fn : BitVec 6) (a w : Nat) (v : DWord) : State :=
  let rest := s.ho.apertures.filter (fun x => x.1 != apKey fn a w)
  { s with ho := { s.ho with apertures := (apKey fn a w, v) :: rest } }

/-- Whether words for aperture descriptors from an offset on have a reserved bit set (R352). -/
def badDescWords (o : Nat) (bs : List Byte) : Bool :=
  (List.range (bs.length / 8)).any (fun i =>
    (o / 8 + i) % 2 == 1 && bits (leNat ((bs.drop (8 * i)).take 8)) 1 15 != 0)

/-- The place of a request. -/
def HostReq.place (q : HostReq) : HostPlace := hostPlace (q.addr.toNat % 2 ^ 40) q.len q.data.isSome

/-- Step 2 of R415: a reserved bit, a length or an alignment. -/
def HostReq.invalid (q : HostReq) : Bool :=
  !([8, 64, 128, 256, 512].contains q.len) || q.addr.toNat % q.len != 0
    || (match q.place, q.data with | .desc o, some bs => badDescWords o bs | _, _ => false)

/-- Steps 1 to 3 of R415, up to the aperture's EN: WINDOW, INVALID, UNMAPPED. -/
def requestFault (s : State) (q : HostReq) : Option Nat :=
  let f := q.addr.toNat / 2 ^ 40
  if 262144 < heldBytes s q.port + q.len then some gWINDOW
  else if q.invalid then some gINVALID
  else if !(portState s q.port).session || 64 ≤ f || s.ho.vfport.getLsbD f != q.port || q.place == .nothing then some gUNMAPPED
  else none

/-! ## Access through an aperture (R353) -/

/-- What an attempt of a host access answers. -/
inductive HostRes where
  | done (status : Nat) (data : List Byte)
  | park (h : DWord) (m : Meet)
  | ask (h : DWord) (pkg op off : Nat) (desc : Bool) (body : List Byte)
  deriving DecidableEq, Repr

/-- A Galith host access as an agent (R284). -/
def hostWho (s : State) (fn : BitVec 6) : Who := ⟨0, lowDie s, fnWorld s fn, 6, false⟩

/-- A stop of object memory as a host access meets it: a poisoned line completes POISON, anything else parks (R183, R353). -/
def hostStop (h : DWord) (m : Meet) : HostRes := if m.kind == .poison then .done gPOISON [] else .park h m

/-- Bytes of a shard as fields. -/
def byteFields (off len : Nat) : List Field := (List.range len).map (fun i => ⟨off + i, 0, 8⟩)

/-- The 8-byte words of a shard as fields; a host access is aligned to its size of 8 bytes or more (R350). -/
def wordFields (off len : Nat) : List Field := (List.range (len / 8)).map (fun i => ⟨off + 8 * i, 0, 64⟩)

/-- Bytes of a shard as fields of 16 bytes, and of one byte behind the last 16. -/
def blobFields (off len : Nat) : List Field :=
  (List.range (len / 16)).map (fun i => ⟨off + 16 * i, 0, 128⟩)
    ++ (List.range (len % 16)).map (fun i => ⟨off + len / 16 * 16 + i, 0, 8⟩)

/-- The bytes of such fields. -/
def blobBytes (len : Nat) (vs : List Nat) : List Byte :=
  (vs.take (len / 16)).flatMap (leBytes 16) ++ (vs.drop (len / 16)).map (BitVec.ofNat 8)

/-- The bytes of words. -/
def wordBytes (vs : List Nat) : List Byte := vs.flatMap (leBytes 8)

/-- The words of bytes. -/
def bytesWords (bs : List Byte) : List Nat := (List.range (bs.length / 8)).map (fun i => leNat ((bs.drop (8 * i)).take 8))

/-- The 64-byte lines of a shard that a store covers in full. -/
def coveredLines (off len : Nat) : List Nat :=
  (List.range (len / 64 + 1)).map (fun i => off / 64 + i) |>.filter (fun l => off ≤ 64 * l && 64 * l + 64 ≤ off + len)

/-- Fire the watches of the elements that a write of bytes of a shard touches (R328). -/
def fireTouched (s : State) (who : Who) (h : DWord) (d : BitVec 512) (sh off len : Nat) : State :=
  let watched := ((armedWatches s).filter (fun e => tlbHandle (BitVec.ofNat 64 (hubWord s 5 e 0)) == tlbHandle h)).map
    (fun e => hubWord s 5 e 1)
  watched.eraseDups.foldl
    (fun s i =>
      let (k, fs) := indexFields d i
      match fs with
      | f :: _ =>
        if k == sh && f.off < off + len && off < f.off + f.len then
          match objReadFrom true s who h d 0 k [f] with
          | (.ok vs _, s) => fireWatches s h i (scalarOf (dFmt d) (vs.getD 0 0))
          | (_, s) => s
        else s
      | [] => s) s

/-- Attempt a host access of a request through an aperture: steps 3 to 7 of R415 from the aperture on (R353). -/
def hostChecked (s : State) (q : HostReq) (a o : Nat) : HostRes × State :=
  let h := BitVec.ofNat 64 (apWord s q.fn a 0)
  let w1 := apWord s q.fn a 1
  let who := hostWho s q.fn
  let write := q.data.isSome
  if w1 % 2 == 0 then (.done gUNMAPPED [], s)
  else
    match resolve s who h 0 with
    | (.trap _, s) => (.done gINVALID [], s)
    | (.park m, s) => (hostStop h m, s)
    | (.ask pkg, s) => (.ask h pkg opRead descOffset true [], s)
    | (.ok d _, s) =>
      let stride := up64K (payloadBytes d)
      let at_ := w1 / 65536 * 65536 + o
      let counter := dKind d == kCounter
      let shards := if dSaxis d == 15 then 1 else dScnt d + 1
      let sh := if counter then 0 else at_ / max 1 stride
      let off := if counter then at_ else at_ % max 1 stride
      let bound := if counter then 8 * dCount d else payloadBytes d
      if (if write then dKind d == kCode || counter || !canWrite d who.world else !canRead d who.world) then (.done gRIGHTS [], s)
      else if shards ≤ sh || bound < off + q.len then (.done gUNMAPPED [], s)
      else
        match q.reply, q.data with
        | some bs, none => (.done gOK (wordBytes (replyValues (q.len / 8) (bs.drop 8))), s)
        | none, none =>
          if counter then
            if hHome h == s.pl.pkg.toNat then (.done gOK (Memory.chip s.mem (counterAddr d 0 + off) q.len), s)
            else (.ask h (hHome h) opRead off false (fieldBody 0 (wordFields off q.len)), s)
          else
            match objReadFrom true s who h d 0 sh (wordFields off q.len) with
            | (.ok vs _, s) => (.done gOK (wordBytes vs), s)
            | (.park m, s) => (hostStop h m, s)
            | (.peer pkg, s) => (.ask h pkg opRead off false (fieldBody sh (wordFields off q.len)), s)
        | _, some bs =>
          let fs := wordFields off q.len
          let lines := coveredLines off q.len
          match objWrite s who h d 0 sh fs (bytesWords bs) lines with
          | (.ok _ _, s) => (.done gOK [], fireTouched s who h d sh off q.len)
          | (.park m, s) => (hostStop h m, s)
          | (.peer pkg, s) => (.ask h pkg opWrite off false (writeBody true sh lines fs (bytesWords bs)), s)

/-- The same, but for a store that another package has performed, which is over (R353). -/
def hostAttempt (s : State) (q : HostReq) (a o : Nat) : HostRes × State :=
  if q.data.isSome && q.reply.isSome then (.done gOK [], s) else hostChecked s q a o

/-! ## The other places of a function (R247, R352, R355) -/

/-- Write words of aperture descriptors from an offset on. -/
def setDescWords (s : State) (fn : BitVec 6) (o : Nat) (bs : List Byte) : State :=
  (List.range (bs.length / 8)).foldl
    (fun s i => setApWord s fn ((o + 8 * i) / 16) ((o / 8 + i) % 2) (leDWord ((bs.drop (8 * i)).take 8))) s

/-- The words of aperture descriptors from an offset on. -/
def descWords (s : State) (fn : BitVec 6) (o len : Nat) : List Byte :=
  (List.range (len / 8)).flatMap (fun i => leBytes 8 (apWord s fn ((o + 8 * i) / 16) ((o / 8 + i) % 2)))

/-- The service notify word: `atom.max` of the value on TAIL of ring H (R355). -/
def serviceTail (s : State) (fn : BitVec 6) (v : DWord) : HostRes × State :=
  match svcRingOf s fn true with
  | none => (.done gUNMAPPED [], s)
  | some r =>
    match readDesc s (hIndex r.ctr) with
    | .error m => (hostStop r.ctr m, s)
    | .ok d => (.done gOK [], (atomicHere s r.ctr d .maxN 0 v 0).2)

/-- The handle of a service ring or of its counter object, where the function has one (R355). -/
def ringReply (s : State) (fn : BitVec 6) (get : SvcRing → DWord) : HostRes :=
  match svcRingOf s fn true with
  | some r => .done gOK (leBytes 8 (get r).toNat)
  | none => .done gUNMAPPED []

/-- Attempt a request at its place (R352). -/
def hostServe (s : State) (q : HostReq) : HostRes × State :=
  let bs := q.data.getD []
  match q.place with
  | .notify n => (.done gOK [], notify s q.fn n (BitVec.ofNat 32 (leNat bs)))
  | .service => serviceTail s q.fn (leDWord bs)
  | .ring => (ringReply s q.fn (·.ring), s)
  | .ringCtr => (ringReply s q.fn (·.ctr), s)
  | .desc o => if q.data.isSome then (.done gOK [], setDescWords s q.fn o bs) else (.done gOK (descWords s q.fn o q.len), s)
  | .aperture a o => hostAttempt s q a o
  | .nothing => (.done gUNMAPPED [], s)

/-! ## The order of requests (R353, R355) -/

/-- The apertures whose descriptors or bytes a request reaches. -/
def HostReq.apertures (q : HostReq) : List Nat :=
  match q.place with
  | .aperture a _ => [a]
  | .desc o => if q.data.isSome then (List.range (q.len / 8)).map (fun i => (o + 8 * i) / 16) else []
  | _ => []

/-- Whether a request is one for bytes through an aperture. -/
def HostReq.isAccess (q : HostReq) : Bool := match q.place with | .aperture _ _ => true | _ => false

/-- Whether two requests reach one 64-byte line. -/
def HostReq.sameLine (q x : HostReq) : Bool :=
  x.addr.toNat / 64 ≤ (q.addr.toNat + q.len - 1) / 64 && q.addr.toNat / 64 ≤ (x.addr.toNat + x.len - 1) / 64

/-- Whether an earlier request x of the same function and port comes before q: requests for one 64-byte line in order of arrival, an access
and a write of its descriptor, and every store before the service notify word (R353, R355). -/
def HostReq.after (q x : HostReq) : Bool :=
  x.port == q.port && x.fn == q.fn
    && (q.sameLine x
        || (q.isAccess != x.isAccess && q.apertures.any x.apertures.contains)
        || (q.place == .service && x.data.isSome))

/-- Whether a held request's flush has come, and it parked before another one (R286). -/
def sooner (no : Nat) (x : HostReq) : Bool := match x.park with | some p => p.released && p.no < no | none => false

/-- Whether the request at place k can be attempted: it is neither parked nor asked of a peer, and no earlier one comes before it. -/
def hostFree (s : State) (k : Nat) (q : HostReq) : Bool :=
  (match q.park with
   | some p => p.released && (s.ho.reqs.zipIdx).all (fun x => !sooner p.no x.1 || (s.ho.reqs.take x.2).any x.1.after)
   | none => true)
    && q.remote.isNone && !(s.ho.reqs.take k).any q.after

/-- Replace the request at a place. -/
def setReq (s : State) (k : Nat) (q : HostReq) : State := { s with ho := { s.ho with reqs := s.ho.reqs.set k q } }

/-- The request at place k parks; the time of its first park stays (R353). -/
def hostParks (s : State) (k : Nat) (q : HostReq) (h : DWord) (m : Meet) : State :=
  let (p, s) := park s (hostWho s q.fn) h q.data.isSome false m
  let (t, s) := match q.since with | some t => (t, s) | none => readTime s
  setReq s k { q with park := some p, since := some t, remote := none, reply := none }

/-- The request at place k completes. -/
def hostEnds (s : State) (k : Nat) (q : HostReq) (status : Nat) (data : List Byte) : State :=
  hostDone { s with ho := { s.ho with reqs := s.ho.reqs.eraseIdx k } } q.port q.tag status data

/-- The state after an attempt of the request at place k: completed, or held by its park or its request to a peer. -/
def hostOutcome (k : Nat) (q : HostReq) (r : HostRes × State) : State :=
  let s := r.2
  match r.1 with
  | .done status data => hostEnds s k q status data
  | .park h m => hostParks s k q h m
  | .ask h pkg op off desc body =>
    match sendRequest s pkg op h off (if desc then some h else none) body with
    | some (rm, s) => setReq s k { q with park := none, remote := some rm, reply := none }
    | none => hostParks s k q h (noPath op off body)

/-- The requests that wait only for earlier ones are attempted, oldest first (R353). -/
def hostDrain : Nat → State → State
  | 0, s => s
  | n + 1, s =>
    match (s.ho.reqs.zipIdx).find? (fun x => x.1.park.isNone && hostFree s x.2 x.1) with
    | some (q, k) => hostDrain n (hostOutcome k q (hostServe s q))
    | none => s

/-- Attempt the held request at place k, unless something holds it, and those that waited for it. -/
def hostAgain (s : State) (k : Nat) : State :=
  match s.ho.reqs[k]? with
  | none => s
  | some q => if hostFree s k q then hostDrain s.ho.reqs.length (hostOutcome k q (hostServe s q)) else s

/-! ## The events -/

/-- A request arrives (R350, R351, R415): it is refused, or takes its place and is attempted. A port never has more than 4,096 outstanding,
each with a tag of its own; the model lets no further one arrive (log 72). -/
def hostArrives (s : State) (q : HostReq) : State :=
  if 4096 ≤ (portReqs s q.port).length || (portReqs s q.port).any (fun x => x.tag == q.tag) then s
  else
    match requestFault s q with
    | some status => hostDone s q.port q.tag status []
    | none => hostAgain { s with ho := { s.ho with reqs := s.ho.reqs ++ [q] } } s.ho.reqs.length

/-- A new request. -/
def newReq (port : Bool) (tag : BitVec 12) (addr : BitVec 64) (len : Nat) (data : Option (List Byte)) : HostReq :=
  { port := port, tag := tag, fn := BitVec.ofNat 6 (addr.toNat / 2 ^ 40), addr := addr, len := len, data := data, since := none,
    park := none, remote := none, reply := none }

/-- A frame arrives at a Galith port: one whose tag fails is dropped and counted (R336). -/
def atPort (f : HostFrame) (s : State) (k : Bool → State) : Out :=
  .next
    (if f.good then k f.port
     else if (portState s f.port).up then
       setPort s f.port { portState s f.port with dropped := (portState s f.port).dropped + 1 }
     else s)

/-- HOST_LOAD (R350-R353, R415). -/
def execHostLoad (f : HostFrame) (tag : BitVec 12) (addr : BitVec 64) (len : Nat) (s : State) : Out :=
  atPort f s (fun port => hostArrives s (newReq port tag addr len none))

/-- The recovery stores of R372, which need no session: the buffer, and the store that starts the image. -/
def recoveryStore (s : State) (port : Bool) (addr : Nat) (data : List Byte) : Option State :=
  if !s.pl.recovery || port || (portState s port).session then none
  else if addr + data.length ≤ imageLimit then some { s with mem := Memory.writeAll s.mem (dsAddr 0 addr) data }
  else if addr == 0x02000000 && leNat data == 1 then some (after s (execRecoveryStart s))
  else none

/-- A store arrives; one that has no session may be the recovery traffic of R372. -/
def storeArrives (port : Bool) (tag : BitVec 12) (addr : BitVec 64) (data : List Byte) (s : State) : State :=
  let q := newReq port tag addr data.length (some data)
  match (if requestFault s q == some gUNMAPPED then recoveryStore s port addr.toNat data else none) with
  | some s => hostDone s port tag gOK []
  | none => hostArrives s q

/-- HOST_STORE (R350-R353, R355, R372, R415). -/
def execHostStore (f : HostFrame) (tag : BitVec 12) (addr : BitVec 64) (data : List Byte) (s : State) : Out :=
  atPort f s (fun port => storeArrives port tag addr data s)

/-- The limit on a parked request, in device time: 1 ms (R353). -/
def hostLimit : Nat := 1000000

/-- HOST_REQUEST_TIMEOUT: 1 ms after its first park a request is withdrawn and completes TIMEOUT, unless a replay has begun to perform it at
another package (R353). -/
def execHostRequestTimeout (k : Nat) (s : State) : Out :=
  match s.ho.reqs[k]? with
  | none => .next s
  | some q =>
    match q.since with
    | none => .next s
    | some t =>
      if (match q.remote with | some r => r.desc.isNone | none => false) then .next s
      else
        let n := s.ho.reqs.length
        let s := hostEnds (reachTime s (t.toNat + hostLimit)) k q gTIMEOUT []
        .next (hostDrain n s)

/-- APERTURE_DESCRIPTOR_WRITE of one word: a store at its place (R352, R353). -/
def execApertureDescriptorWrite (f : HostFrame) (tag : BitVec 12) (fn : BitVec 6) (a : BitVec 4) (word : Bool) (v : BitVec 64)
    (s : State) : Out :=
  let o := 16 * a.toNat + 8 * b2n word
  atPort f s (fun port => hostArrives s (newReq port tag (BitVec.ofNat 64 (fn.toNat * 2 ^ 40 + 0x2000 + o)) 8 (some (leBytes 8 v.toNat))))

/-- SERVICE_NOTIFY: a store at its place (R355). -/
def execServiceNotify (f : HostFrame) (tag : BitVec 12) (fn : BitVec 6) (v : BitVec 64) (s : State) : Out :=
  atPort f s (fun port => hostArrives s (newReq port tag (BitVec.ofNat 64 (fn.toNat * 2 ^ 40 + 0x1000)) 8 (some (leBytes 8 v.toNat))))

/-- The SPDM exchange of a link-up: the measurements that Lolen answers with, signed by the device key (R340, R357). -/
def spdmExchange (s : State) : Spdm × State :=
  let (n, s) := freshNat s
  let boot := leBytes 48 s.pl.meas.toNat
  (⟨boot, Config.fusedIdentity, Config.signature n (Config.sha384 (boot ++ Config.fusedIdentity))⟩, s)

/-- HOST_LINK_UP: the link trains, and Lolen's SPDM session seals the port (R357); a port that is down until package reset stays so
(R336). -/
def execHostLinkUp (port : Bool) (s : State) : Out :=
  if s.pl.linksDown.contains (.galith port) then .next s
  else if !s.pl.ready then .next (setPort s port { portState s port with up := true, session := false, spdm := none })
  else
    let (x, s) := spdmExchange s
    .next (setPort s port { portState s port with up := true, session := true, spdm := some x })

/-- The link of a Galith port drops: the session and the outstanding requests are lost (R357). -/
def dropPort (s : State) (port : Bool) : State :=
  let s := { s with ho := { s.ho with reqs := s.ho.reqs.filter (fun q => q.port != port) } }
  setPort s port { portState s port with up := false, session := false, spdm := none, done := [] }

/-- HOST_LINK_DOWN (R357). -/
def execHostLinkDown (port : Bool) (s : State) : Out := .next (dropPort s port)

end Sys2Proof.Machine
end

