-- ==== Sys2Proof/Machine/Residence.lean ====
section
/-! DEFINITION. The slabs of an object as Lolen keeps them: where they stand (R273, R277, R278), their release and zero-fill (R183, R356), and
their moves, on this package and between packages (R184, R223, R287, R289). -/

namespace Sys2Proof.Machine

/-! ## Slabs (R183, R277, R287) -/

/-- The bytes of a shard with a step cache's side area (R165, R272). -/
def shardBytes (d : BitVec 512) : Nat :=
  if dKind d == kStep then sideBase d + 8 * cdiv (dExt d 2) 64 + dExt d 2 else payloadBytes d

/-- The slabs of a shard. -/
def shardSlabs (d : BitVec 512) : Nat := cdiv (shardBytes d) 65536

/-- The shards or copies of an object that this package holds, with their slab tables. -/
def localHolders (s : State) (h : DWord) (d : BitVec 512) : List Holder :=
  if dRes d == 4 || dSaxis d != 15 then
    (List.range (dScnt d + 1)).filterMap (fun k =>
      match mapEntry s d k with
      | .ok e => if e.pkg == s.pl.pkg.toNat then some e else none
      | .error _ => none)
  else if hHome h == s.pl.pkg.toNat then [⟨0, hHome h, bits (dWord d 7) 12 38 * 4096, bits (dWord d 7) 10 2 + 1, 0⟩]
  else []

/-- The system-physical address of a slab's leaf entry. -/
def leafAddr (s : State) (world : BitVec 14) (sl : Nat) : Nat → Nat → Option Nat
  | 0, _ => none
  | r + 1, node =>
    match g2Translate s (lowDie s) world node false with
    | (.ok a, _) =>
      let here := a + 8 * bits sl (9 * r) 9
      if r == 0 then some here
      else
        match Memory.readAll s.mem here 8 with
        | some bs => if bits (leNat bs) 62 2 == 2 then leafAddr s world sl r (bits (leNat bs) 12 38 * 4096) else none
        | none => none
    | _ => none

/-- The copies of an object whose slabs stand in this package's tables, those of an object that has slabs here and its home elsewhere
included (R277, R278). -/
def heldHere (s : State) (h : DWord) (d : BitVec 512) : List Holder :=
  if dRes d == 4 || dSaxis d != 15 then localHolders s h d
  else [⟨0, hHome h, bits (dWord d 7) 12 38 * 4096, bits (dWord d 7) 10 2 + 1, 0⟩]

/-- A slab of an object in this package's tables: shard, slab, and where its leaf entry stands. -/
structure SlabAt where
  shard : Nat
  slab : Nat
  leaf : Nat
  deriving DecidableEq, Repr

/-- The slabs of an object in this package's tables, with what a walk of each answers. -/
def walkedSlabs (s : State) (h : DWord) (d : BitVec 512) : List (SlabAt × SlabRes) :=
  (heldHere s h d).flatMap (fun e =>
    (List.range (shardSlabs d)).filterMap (fun sl =>
      (leafAddr s (dOwner d) sl e.depth e.root).map (fun leaf =>
        (⟨e.shard, sl, leaf⟩, (slabWalk s (lowDie s) (dOwner d) sl false 0 e.depth e.root).1))))

/-- The slabs of an object on this package, with their frames. -/
def localSlabs (s : State) (h : DWord) (d : BitVec 512) : List (SlabAt × Nat) :=
  (walkedSlabs s h d).filterMap (fun x => match x.2 with | .frame a => some (x.1, a) | _ => none)

/-- The slabs of an object that other packages hold for this one (R184), with their packages. -/
def peerSlabs (s : State) (h : DWord) (d : BitVec 512) : List (SlabAt × Nat) :=
  (walkedSlabs s h d).filterMap (fun x => match x.2 with | .peer p => some (x.1, p) | _ => none)

/-- The other packages of an object's shard map (R273). -/
def otherHolders (s : State) (d : BitVec 512) : List Nat :=
  if dRes d == 4 || dSaxis d != 15 then
    ((List.range (dScnt d + 1)).filterMap (fun k =>
      match mapEntry s d k with
      | .ok e => if e.pkg == s.pl.pkg.toNat then none else some e.pkg
      | .error _ => none)).eraseDups
  else []

/-- FB_FLUSH of every live die. -/
def flushAll (s : State) : State := ((List.range 4).filter (fun d => !s.dp.dead.getLsbD d)).foldl fbFlush s

/-- Copy a slab line by line; a poisoned line stays poisoned in the copy. -/
def copySlab (m : Memory) (src dst : Nat) : Memory :=
  (Memory.slice m src (src + 65536)).foldl (fun m c => m.write (dst + (c.1 - src)) c.2) (Memory.dropRange m dst (dst + 65536))

/-- Write a leaf entry. -/
def setLeaf (s : State) (leaf v : Nat) : State := { s with mem := Memory.writeAll s.mem leaf (leBytes 8 v) }

/-- The leaf entry of a frame on this package. -/
def frameLeaf (gpa : Nat) : Nat := 2 ^ 62 + gpa / 65536 * 65536

/-- The leaf entry of a slab on another package. -/
def peerLeaf (pkg : Nat) : Nat := 2 ^ 62 + 2 ^ 58 + pkg % 256 * 2 ^ 16

/-- Move a slab to the frame at a guest-physical address: the leaf is written behind the copy, the frame that it leaves is zero-filled, and no
access comes between (R183, R287, log 24). -/
def moveSlab (s : State) (world : BitVec 14) (x : SlabAt × Nat) (gpa : Nat) : State :=
  match g2Frame s (lowDie s) world gpa true with
  | (.ok a, s) =>
    if a == x.2 then setLeaf s x.1.leaf (frameLeaf gpa)
    else zeroSlab (setLeaf { s with mem := copySlab s.mem x.2 a } x.1.leaf (frameLeaf gpa)) x.2
  | _ => s

/-- An object's translations leave every TLB, as SHOOT of all its slabs does. -/
def shootObject (s : State) (h : DWord) : State :=
  let keep : TlbEntry → Bool := fun e => hObj e.handle != hObj h
  let s := raiseShoot s
  { s with tb := { s.tb with tlb := s.tb.tlb.filter keep, nested := s.tb.nested.filter keep } }

/-! ## Release (R183, R356) -/

/-- The wire code that has a home destroy its object (log 14). -/
def wDestroy : Nat := 30
/-- The code that has a home move the slabs of its object. -/
def wReside : Nat := 31
/-- The code that has a package release its slabs of an object. -/
def wRelease : Nat := 32
/-- The code that has a package move its slabs of an object. -/
def wMove : Nat := 33

/-- An object that is gone has no lost shards any more (R366). -/
def forgetLost (s : State) (h : DWord) : State :=
  { s with pe := { s.pe with lostShards := s.pe.lostShards.filter (fun x => hObj x.1 != hObj h) } }

/-- Release this package's slabs of an object: those of one slab of a shard, or all. -/
def releaseHere (s : State) (h : DWord) (d : BitVec 512) (one : Option (Nat × Nat)) : State :=
  let mine (x : SlabAt) : Bool := match one with | some p => x.shard == p.1 && x.slab == p.2 | none => true
  let frames := ((localSlabs s h d).filter (fun x => mine x.1)).map (·.2)
  let s := frames.foldl zeroSlab (shootObject s h)
  if one.isNone then
    let s := forgetLost s h
    { s with tb := { s.tb with hosted := s.tb.hosted.filter (fun x => hObj x.1 != hObj h) } }
  else s

/-- Tell another package to release its slabs of an object. -/
def tellRelease (h : DWord) (d : BitVec 512) (one : Option (Nat × Nat)) (s : State) (pkg : Nat) : State :=
  let which := match one with | some p => leBytes 1 1 ++ leBytes 1 p.1 ++ leBytes 8 p.2 | none => leBytes 10 0
  tell s pkg h (leBytes 1 wRelease ++ which ++ descBytes d)

/-- DESTROY of an object of this package: GEN rises, the cached copies go, and the slabs are released and zero-filled wherever they stand. -/
def destroyHere (s : State) (h : DWord) (d : BitVec 512) : State :=
  let chip := dKind d == kCounter
  let away := if chip then [] else (otherHolders s d ++ (peerSlabs s h d).map (·.2)).eraseDups
  let s := away.foldl (tellRelease h d none) s
  let frames := if chip then [] else (localSlabs s h d).map (·.2)
  let s := descSync (writeDesc s (hIndex h) (freeDesc (dGen d + 1))) (hIndex h)
  let s := forgetLost (frames.foldl zeroSlab (shootObject s h)) h
  { s with pe := { s.pe with groups := s.pe.groups.filter (fun x => hObj x.index != hObj h) } }

/-! ## Data between packages (R184, R287) -/

/-- The fields of a 64-byte line at an offset of a shard. -/
def lineFields (off : Nat) : List Field := (List.range 4).map (fun i => ⟨off + 16 * i, 0, 128⟩)

/-- The lines of a frame, 16 to a group, that are not poisoned: offset in the slab and the four values. -/
def lineGroups (m : Memory) (a : Nat) : List (List (Nat × List Nat)) :=
  (List.range 64).map (fun g => (List.range 16).filterMap (fun i =>
    let o := 64 * (16 * g + i)
    (Memory.readAll m (a + o) 64).map (fun bs => (o, (List.range 4).map (fun j => leNat ((bs.drop (16 * j)).take 16))))))

/-- Send the data of a frame to another package as the slab of a shard or replica, in whole lines; a poisoned line is not sent (R183, R184). -/
def sendSlab (s : State) (h : DWord) (pkg shard slab a : Nat) : State :=
  (lineGroups s.mem a).foldl
    (fun s g =>
      let at_ (o : Nat) : Nat := 65536 * slab + o
      let body := writeBody false shard (g.map (fun x => at_ x.1 / 64)) (g.flatMap (fun x => lineFields (at_ x.1))) (g.flatMap (·.2))
      if g.isEmpty then s
      else
        match sendRequest s pkg opWrite h (65536 * slab) none body with
        | some (_, s) => s
        | none => s) s

/-- Ask for the next line of a slab that is moving here. -/
def askLine (s : State) (p : SlabPull) : SlabPull × State :=
  let off := 65536 * p.slab + 64 * p.line
  match sendRequest s p.pkg opRead p.handle (65536 * p.slab) none (fieldBody p.shard (lineFields off)) with
  | some (r, s) => ({ p with remote := some r }, s)
  | none => ({ p with remote := none }, s)

/-- Begin to move a slab here from another package: its leaf is frozen, and its first line asked for (R287). -/
def startPull (h : DWord) (d : BitVec 512) (s : State) (x : (SlabAt × Nat) × Nat) : State :=
  match g2Frame s (lowDie s) (dOwner d) x.2 true with
  | (.ok a, s) =>
    let s := shootObject (setLeaf s x.1.1.leaf (peerLeaf x.1.2 + 2 ^ 61)) h
    let (p, s) := askLine s ⟨h, x.1.1.shard, x.1.1.slab, x.1.1.leaf, a, x.2, x.1.2, 0, none⟩
    { s with pe := { s.pe with pulls := s.pe.pulls ++ [p] } }
  | _ => s

/-- The pulls that a path has left without an answer ask again. -/
def resumePulls (s : State) (h : DWord) : State :=
  let ask (a : List SlabPull × State) (p : SlabPull) : List SlabPull × State :=
    let (p, s) := if p.remote.isNone && hObj p.handle == hObj h then askLine a.2 p else (p, a.2)
    (a.1 ++ [p], s)
  let (ps, s) := s.pe.pulls.foldl ask ([], s)
  { s with pe := { s.pe with pulls := ps } }

/-! ## RESIDE (R183, R271, R287, R289, R356) -/

/-- Whether a frame's place suits a residency (R182, R271). -/
def suitsRes (res a : Nat) : Bool :=
  match res with
  | 0 | 4 => isHbm a
  | 1 => isDram a && !isHbm a && !isPool a
  | 3 => isPool a
  | _ => false

/-- Whether every new frame stands where a residency has its slabs. -/
def framesSuit (s : State) (world : BitVec 14) (res : Nat) (frames : List Nat) : Bool :=
  frames.all (fun gpa =>
    match g2Frame s (lowDie s) world gpa true with
    | (.ok a, _) => suitsRes res a
    | _ => false)

/-- Set RES of an object, and let its cached copies go; an object that is neither sharded nor replicated has SCNT 0 (R271). -/
def setRes (s : State) (h : DWord) (d : BitVec 512) (res : Nat) : State :=
  let w := setBits (dWord d 0) 32 3 res
  let w := if dSaxis d == 15 && res != 4 then setBits w 20 8 0 else w
  descSync (writeDesc s (hIndex h) (dSetWord d 0 w)) (hIndex h)

/-- What a move of an object's slabs comes to: done, arguments that R271 or R327 refuse, no place, or to be attempted later. -/
inductive Resided where
  | moved | refused | noSpace | later
  deriving DecidableEq, Repr

/-- Move this package's slabs of an object to frames of a residency, those that other packages hold for it first (R287). -/
def moveHere (s : State) (h : DWord) (d : BitVec 512) (res : Nat) (frames : List Nat) : Resided × State :=
  let away := peerSlabs s h d
  let stay := (localSlabs s h d).filter (fun x => !suitsRes res x.2)
  if s.pe.pulls.any (fun p => hObj p.handle == hObj h) then (.later, resumePulls s h)
  else if !away.isEmpty then
    if frames.length < away.length then (.noSpace, s)
    else if !framesSuit s (dOwner d) res (frames.take away.length) then (.later, s)
    else (.later, (away.zip frames).foldl (startPull h d) s)
  else if frames.length < stay.length then (.noSpace, s)
  else if !framesSuit s (dOwner d) res (frames.take stay.length) then (.later, s)
  else
    let s := (stay.zip frames).foldl (fun s x => moveSlab s (dOwner d) x.1 x.2) (shootObject s h)
    (.moved, flushAll s)

/-- Move this package's slabs of an object to other packages, slab by slab (R184). -/
def moveAway (s : State) (h : DWord) (d : BitVec 512) (pkgs : List Nat) : Resided × State :=
  let slabs := localSlabs s h d
  let pkgs := pkgs.take slabs.length
  if pkgs.length < slabs.length then (.noSpace, s)
  else if pkgs.any (fun p => p == s.pl.pkg.toNat || (openPorts s p).isEmpty) then (.later, s)
  else
    let one (s : State) (x : (SlabAt × Nat) × Nat) : State :=
      zeroSlab (setLeaf (sendSlab s h x.2 x.1.1.shard x.1.1.slab x.1.2) x.1.1.leaf (peerLeaf x.2)) x.1.2
    (.moved, flushAll ((slabs.zip pkgs).foldl one (shootObject s h)))

/-- Write entry k of a shard map (R273). -/
def setMapEntry (s : State) (smap k w : Nat) (stamp : DWord) : State :=
  { s with mem := Memory.writeAll s.mem (s.tb.smapbase.toNat + 4096 * smap + 16 * k) (leBytes 8 w ++ leBytes 8 stamp.toNat) }

/-- Replicate an object: entry 0 of its shard map is the home copy, and every other entry's package receives the data (R223, R273). No
write lease may be open on it. -/
def replicate (s : State) (h : DWord) (d : BitVec 512) (smap : Nat) (words : List Nat) : Resided × State :=
  let pkgs := words.map (fun w => bits w 56 8)
  if dSaxis d != 15 || dRes d == 4 then (if dRes d == 4 then .moved else .refused, s)
  else if 4096 ≤ smap || words.isEmpty || 256 ≤ words.length then (.noSpace, s)
  else if !(peerSlabs s h d).isEmpty || (localSlabs s h d).any (fun x => !isHbm x.2)
      || s.tb.leases.any (fun l => hObj l.handle == hObj h) || pkgs.any (fun p => (openPorts s p).isEmpty) then (.later, s)
  else
    let slabs := localSlabs s h d
    let stamp := s.tm.pclk
    let s := setMapEntry s smap 0 (s.pl.pkg.toNat * 2 ^ 56 + bits (dWord d 7) 10 40 * 2 ^ 10) stamp
    let one (s : State) (x : Nat × Nat) : State :=
      slabs.foldl (fun s y => sendSlab s h (bits x.1 56 8) (x.2 + 1) y.1.slab y.2) (setMapEntry s smap (x.2 + 1) x.1 stamp)
    let s := words.zipIdx.foldl one s
    let w := setBits (setBits (setBits (dWord d 0) 32 3 4) 20 8 words.length) 8 12 smap
    (.moved, descSync (writeDesc s (hIndex h) (dSetWord d 0 w)) (hIndex h))

/-- Move a counter object to a new address (R289). -/
def moveCounter (s : State) (h : DWord) (d : BitVec 512) (a : Nat) : Resided × State :=
  if inSystemRegion s a && inSystemRegion s (a + 8 * dCount d - 1) && a % 8 == 0 then
    let ws := Memory.chip s.mem (counterAddr d 0) (8 * dCount d)
    let s := { s with mem := Memory.writeAll s.mem a ws }
    (.moved, descSync (writeDesc s (hIndex h) (dSetWord d 7 a)) (hIndex h))
  else (.noSpace, s)

/-- Whether a watch entry is armed on an element of an object. -/
def isWatched (s : State) (h : DWord) : Bool :=
  (armedWatches s).any (fun e => tlbHandle (BitVec.ofNat 64 (hubWord s 5 e 0)) == tlbHandle h)

/-- RESIDE of an object of this package (R287, R289, R356): a counter object stays in die stores, a watched one moves only between HBM and
spill DRAM (R327; log 51), and the packages that hold its other shards move theirs. -/
def resideHere (s : State) (h : DWord) (d : BitVec 512) (res : Nat) (places : List Nat) : Resided × State :=
  if (dKind d == kCounter) != (res == 5) || (isWatched s h && dKind d != kCounter && 2 ≤ res) then (.refused, s)
  else if res == 5 then moveCounter s h d (places.getD 0 0)
  else if res == 4 then replicate s h d (places.getD 0 0) (places.drop 1)
  else
    match (if res == 2 then moveAway s h d places else moveHere s h d res places) with
    | (.moved, s) =>
      let s := (otherHolders s d).foldl (fun s p => tell s p h (leBytes 1 wMove ++ leBytes 1 res ++ descBytes d)) s
      (.moved, setRes s h d res)
    | r => r

/-- A slab has come whole: the leaf takes its frame, the package that held it releases it, and what parked on it is released (R287). -/
def endPull (s : State) (p : SlabPull) : State :=
  let s := setLeaf s p.leaf (frameLeaf p.gpa)
  flushAll (match readDesc s (hIndex p.handle) with | .ok d => tellRelease p.handle d (some (p.shard, p.slab)) s p.pkg | .error _ => s)

/-- A line of a slab that is moving here has come, or is poisoned there: the next one is asked for. -/
def takeLine (s : State) (p : SlabPull) (bs : Option (List Byte)) : State :=
  let a := p.frame + 64 * p.line
  let m := match bs with | some bs => Memory.writeAll s.mem a (bs.take 64) | none => Memory.dropRange s.mem a (a + 64)
  let s := { s with mem := m }
  let others := s.pe.pulls.filter (· != p)
  if p.line + 1 < 1024 then
    let (q, s) := askLine s { p with line := p.line + 1 }
    { s with pe := { s.pe with pulls := others ++ [q] } }
  else endPull { s with pe := { s.pe with pulls := others } } p

/-! ## At the request of another package (R356; log 14) -/

/-- The frames that Lolen chooses for a request of another package. -/
def chosenFrames (s : State) : List Nat × State := let (n, s) := freshNat s; (Config.chosenFrames n, s)

/-- The answer that has the other package ask again: what holds a move is not over yet (log 14). -/
def againLater : Nat := 255

/-- A request of another package about an object's slabs, by its code: the status of R356 that answers it. -/
def slabsFor (s : State) (h : DWord) (code : Nat) (bs : List Byte) : Nat × State :=
  let body := bs.drop 1
  if code == wRelease then
    let one := if leNat (body.take 1) == 1 then some (leNat ((body.drop 1).take 1), leNat ((body.drop 2).take 8)) else none
    (0, releaseHere s h (BitVec.ofNat 512 (leNat ((body.drop 10).take 64))) one)
  else if code == wMove then
    let (frames, s) := chosenFrames s
    let d := BitVec.ofNat 512 (leNat ((body.drop 1).take 64))
    (0, (moveHere (hostDesc s h d) h d (leNat (body.take 1)) frames).2)
  else
    match readDesc s (hIndex h) with
    | .error _ => (3, s)
    | .ok d =>
      if dKind d == 0 || dGen d != hGen h then (1, s)
      else if code == wDestroy then (0, destroyHere s h d)
      else
        let (frames, s) := chosenFrames s
        match resideHere s h d (leNat (body.take 1)) frames with
        | (.refused, s) => (1, s)
        | (.noSpace, s) => (3, s)
        | (.later, s) => (againLater, s)
        | (.moved, s) => (0, s)

end Sys2Proof.Machine
end

