-- ==== Sys2Proof/Machine/Services.lean ====
section
/-! DEFINITION. Lolen's services on the service rings (R354-R356, R362, R365, R366, R373). -/

namespace Sys2Proof.Machine

/-! ## Service requests (R355, R356) -/

/-- OK. -/
def svOK : Nat := 0
/-- BAD_REQUEST. -/
def svBAD : Nat := 1
/-- RIGHTS. -/
def svRIGHTS : Nat := 2
/-- NO_SPACE. -/
def svNOSPACE : Nat := 3
/-- ABORTED. -/
def svABORTED : Nat := 4
/-- VF_RESET. -/
def svVFRESET : Nat := 5
/-- MEMBER_REFUSED. -/
def svREFUSED : Nat := 6
/-- IMAGE_INVALID. -/
def svIMAGE : Nat := 7

/-- Lolen as the agent of an access for a function. -/
def lolen (s : State) (fn : BitVec 6) : Who := hostWho s fn

/-- A reply of another package at a ring: the argument fields that it asked for have come, or it is kept for the request (R356). -/
def SvcRing.answered (r : SvcRing) (bs : List Byte) : SvcRing :=
  if r.want.isEmpty then { r with remote := none, reply := some bs }
  else { r with remote := none, want := [], got := r.want.zip ((List.range r.want.length).map (replyValue bs)) ++ r.got }

/-- Replace a service ring. -/
def setRing (s : State) (r : SvcRing) : State :=
  { s with ho := { s.ho with rings := s.ho.rings.map (fun x => if x.fn == r.fn && x.host == r.host then r else x) } }

/-- A word of a ring's counter object. -/
def ringWord (s : State) (r : SvcRing) (i : Nat) : Nat :=
  match readDesc s (hIndex r.ctr) with
  | .ok d => counterRead s d i
  | .error _ => 0

/-- Read words of an `n64` object by coordinates, at its home copy. -/
def readWords (s : State) (who : Who) (h : DWord) (d : BitVec 512) (xs : List (List Nat)) : Option (List Nat) :=
  let fs := xs.map (elemFields d)
  match objReadFrom true s who h d 0 ((fs.head?.map (·.1)).getD 0) (fs.flatMap (fun x => x.2.take 1)) with
  | (.ok vs _, _) => some vs
  | _ => none

/-- The eight words of slot n mod 64 of a ring. -/
def ringSlot (s : State) (r : SvcRing) (n : Nat) : Option (List Nat) :=
  match readDesc s (hIndex r.ring) with
  | .ok d => readWords s (lolen s r.fn) r.ring d ((List.range 8).map (fun j => [j, n % 64]))
  | .error _ => none

/-- The fields of STATUS and RESULT of slot n. -/
def slotEnd (d : BitVec 512) (n : Nat) : List Field := (elemFields d [6, n % 64]).2.take 1 ++ (elemFields d [7, n % 64]).2.take 1

/-- Write STATUS and RESULT of the slot that a ring serves. -/
def writeSlot (s : State) (r : SvcRing) (status v : Nat) : Acc Unit × State :=
  match readDesc s (hIndex r.ring) with
  | .ok d => objWrite s (lolen s r.fn) r.ring d 0 0 (slotEnd d r.served.toNat) [status, v] []
  | .error m => (.park m, s)

/-- Whether the slot that a ring serves can be written; until it can, its request waits. -/
def slotOpen (s : State) (r : SvcRing) : Bool := match (writeSlot s r 0 0).1 with | .ok _ _ => true | _ => false

/-- Write STATUS and RESULT of slot n, publish the ring and count DONE (R355). A RESULT that R356 does not state is an open value
(log 36). -/
def finishRequest (s : State) (r : SvcRing) (status : Nat) (result : Option DWord) : State :=
  let (k, s) := freshNat s
  let (_, s) := writeSlot s r status (result.getD (Config.openResult k)).toNat
  let s := match publishHere s r.ring 0 (· + 1) with | .ok (_, _, s) => s | .error _ => s
  let s :=
    match readDesc s (hIndex r.ctr) with
    | .ok d => (atomicHere s r.ctr d .add 2 1 0).2
    | .error _ => s
  setRing s { r with served := r.served + 1, remote := none, reply := none, want := [], got := [] }

/-- What serving a request answers: a status with its result, or a wait with the state as it then is. -/
inductive Served where
  | status (code : Nat) (result : Option DWord) (s : State)
  | wait (s : State)
  deriving DecidableEq, Repr

/-- Serve the next request of a ring, if it is one of the operation (R355): a slot overwritten by a later request, a reserved field
or an unassigned operation completes BAD_REQUEST. -/
def serveNext (q : SvcReq) (op : Nat) (s : State) (k : SvcRing → List Nat → State → Served) : Out :=
  match svcRingOf s q.fn q.host with
  | none => .next s
  | some r =>
    let n := r.served.toNat
    if ringWord s r 0 ≤ n || r.remote.isSome || !slotOpen s r then .next s
    else
      match ringSlot s r n with
      | none => .next s
      | some ws =>
        let w0 := ws.getD 0 0
        let seq := bits w0 32 32
        let code := bits w0 16 16
        if seq < (n + 1) % 2 ^ 32 then .next s
        else if (n + 1) % 2 ^ 32 < seq || bits w0 0 16 != 0 || bits (ws.getD 6 0) 16 48 != 0 || code == 0 || 8 < code then
          .next (finishRequest s r svBAD none)
        else if code != op then .next s
        else
          match k r (ws.drop 1) s with
          | .status st res s => .next (finishRequest s ((svcRingOf s q.fn q.host).getD r) st res)
          | .wait s => .next s

/-- Resolve a handle argument (R356): an invalid or stale one completes BAD_REQUEST, and a park is waited out. -/
def withObject (r : SvcRing) (h : Nat) (s : State) (k : BitVec 512 → State → Served) : Served :=
  let v := BitVec.ofNat 64 h
  match resolve s (lolen s r.fn) v 0 with
  | (.trap _, s) => .status svBAD none s
  | (.park _, s) => .wait s
  | (.ask pkg, s) =>
    match sendRequest s pkg opRead v descOffset (some v) [] with
    | some (m, s) => .wait (setRing s { r with remote := some m })
    | none => .wait s
  | (.ok d _, s) => k d s

/-- Have the home of an object on another package serve a request: its answer is the status (log 14). -/
def forward (g : SvcRing) (h : DWord) (body : List Byte) (s : State) : Served :=
  match sendRequest s (hHome h) opAtomic h 0 none body with
  | some (m, s) => .wait (setRing s { g with remote := some m, reply := none })
  | none => .wait s

/-- The status that the home of an object has answered, or on; a home whose move is not over is asked again. -/
def unlessAnswered (g : SvcRing) (s : State) (k : Served) : Served :=
  match g.reply with
  | some bs => if replyValue bs 0 == againLater then k else .status (replyValue bs 0) none s
  | none => k

/-- Go on where a world has a right, and complete RIGHTS otherwise. -/
def needRight (ok : Bool) (s : State) (k : Served) : Served := if ok then k else .status svRIGHTS none s

/-- Go on where arguments are good, and complete BAD_REQUEST otherwise. -/
def needGood (ok : Bool) (s : State) (k : Served) : Served := if ok then k else .status svBAD none s

/-! ## CREATE and DESTROY (R356, R365) -/

/-- What reading the fields of an argument object comes to: their values, a package that holds some of them, or a stop that is waited out. -/
inductive ArgRead where
  | all (vs : List Nat)
  | away (pkg : Nat) (fs : List ArgField)
  | stop
  deriving DecidableEq, Repr

/-- The most fields that one request for an argument asks for (R360). -/
def argPart : Nat := 64

/-- Read fields of an argument object: those that have come from another package, and the others where they stand (R184, R356). -/
def readArg (g : SvcRing) (h : DWord) (d : BitVec 512) : List (Nat × Field) → List Nat → State → ArgRead × State
  | [], vs, s => (.all vs.reverse, s)
  | (sh, f) :: fs, vs, s =>
    match g.got.find? (fun x => x.1 == ⟨h, sh, f⟩) with
    | some x => readArg g h d fs (x.2 :: vs) s
    | none =>
      match objReadFrom true s (lolen s g.fn) h d 0 sh [f] with
      | (.ok v _, s) => readArg g h d fs (v.getD 0 0 :: vs) s
      | (.park _, s) => (.stop, s)
      | (.peer p, s) =>
        let here := ((sh, f) :: fs).filter (fun x => x.1 == sh)
        let left := (here.map (fun x => (⟨h, x.1, x.2⟩ : ArgField))).filter (fun x => !g.got.any (fun y => y.1 == x))
        (.away p (left.take argPart), s)

/-- Go on with the fields of an argument object, asking another package for those that it holds (R184, R356). -/
def withFields (g : SvcRing) (h : DWord) (d : BitVec 512) (fs : List (Nat × Field)) (s : State) (k : List Nat → State → Served) : Served :=
  match readArg g h d fs [] s with
  | (.all vs, s) => k vs s
  | (.stop, s) => .wait s
  | (.away p xs, s) =>
    let sh := (xs.head?.map (·.shard)).getD 0
    let off := (xs.head?.map (·.field.off)).getD 0
    match sendRequest s p opRead h off none (fieldBody sh (xs.map (·.field))) with
    | some (m, s) => .wait (setRing s { g with remote := some m, want := xs })
    | none => .wait s

/-- The fields of the first n elements of an object, by shard. -/
def firstFields (d : BitVec 512) (n : Nat) : List (Nat × Field) :=
  (List.range n).flatMap (fun i => ((indexFields d i).2.take 1).map (fun f => ((indexFields d i).1, f)))

/-- An optional `.n8` argument of at least n elements: none for handle 0. -/
def withBytes (r : SvcRing) (h n : Nat) (s : State) (k : Option (List Byte) → State → Served) : Served :=
  if h == 0 then k none s
  else
    withObject r h s (fun d s =>
      needRight (canRead d (fnWorld s r.fn)) s
        (needGood (dKind d == kTensor && dFmt d == 4 && n ≤ dCount d) s
          (withFields r (BitVec.ofNat 64 h) d (firstFields d n) s (fun vs s => k (some (vs.map (BitVec.ofNat 8))) s))))

/-- Whether a package's measurement index 1, as its SPDM session shows it, equals the policy of a group (R365; log 28). -/
def meets (policy : List Byte) (s : State) : Bool × State :=
  let (n, s) := freshNat s
  (Config.measured n == policy, s)

/-- The other packages of a list that do not meet the policy of a group (R365). -/
def refused (policy : List Byte) (s : State) : List Byte → List Byte × State
  | [] => ([], s)
  | p :: ps =>
    if p == s.pl.pkg then refused policy s ps
    else
      let (ok, s) := meets policy s
      let (xs, s) := refused policy s ps
      (if ok then xs else p :: xs, s)

/-- Send a control frame about an object's share group (R360, R365, R366; log 14). -/
def control (h : DWord) (epoch : Word) (body : List Byte) (s : State) (pkg : Byte) : State :=
  match sendRequest s pkg.toNat opControl h epoch.toNat none body with
  | some (_, s) => s
  | none => s

/-- The code of a control frame in which a member reports its part of a collective done (log 14). -/
def kDone : Nat := 1
/-- A package attests. -/
def kAttest : Nat := 2
/-- The coordinator has recorded a commit. -/
def kCommit : Nat := 3
/-- A share group is formed. -/
def kGroup : Nat := 4
/-- The coordinator has found no commit and aborts. -/
def kAbort : Nat := 5
/-- A member has no commit of a collective recorded, and asks for its outcome. -/
def kAsk : Nat := 6
/-- The coordinator asks whether a member has a commit recorded. -/
def kQuery : Nat := 7

/-- A new group of an object (R365). -/
def Group.new (h : DWord) (members : List Byte) (epoch : Word) (lost policy : List Byte) : Group :=
  { index := h, members := members, epoch := epoch, lost := lost, policy := policy, next := 0, done := [], asks := [], commit := none,
    aborted := none }

/-- Enter a group. -/
def addGroup (s : State) (g : Group) : State :=
  { s with pe := { s.pe with groups := g :: s.pe.groups.filter (fun x => hObj x.index != hObj g.index) } }

/-- Form the share group of an object: its epoch is raised at each admission, and every member hears of it, with the policy, the descriptor and
what it is to zero-fill (R356, R365). -/
def formGroup (s : State) (h : DWord) (members policy : List Byte) (d : BitVec 512) : State :=
  let ms := members.eraseDups
  let g := Group.new h ms (BitVec.ofNat 32 ms.length) [] policy
  (ms.filter (· != s.pl.pkg)).foldl (control h g.epoch (leBytes 1 kGroup ++ policy ++ descBytes d ++ ms)) (addGroup s g)

/-- CREATE (R356): `index`, `root` and `frames` are what Lolen has chosen for the object (log 15). -/
def execCreate (r : SvcReq) (index : BitVec 32) (root : Nat) (frames : List Nat) (s : State) : Out :=
  serveNext r 1 s (fun g args s =>
    withObject g (args.getD 0 0) s (fun di s =>
      needRight (canRead di (fnWorld s g.fn)) s
        (needGood (dKind di == kTensor && dFmt di == 7 && 8 ≤ dCount di) s
          (withFields g (BitVec.ofNat 64 (args.getD 0 0)) di (firstFields di 8) s (fun ws s =>
           match readDesc s index.toNat with
           | .ok old =>
             let d := createdDesc ws (dGen old) root
             let shared := dRes d == 4 || dSaxis d != 15
             if dKind old != 0 || index == 0 then .wait s
             else
               needGood (dOk s s.pl.pkg.toNat d && dKind d != 0 && dRes d != 6 && (!shared || (args.getD 1 0 != 0 && args.getD 2 0 != 0))) s
                 (withBytes g (args.getD 1 0) (dScnt d + 1) s (fun members s =>
                   withBytes g (args.getD 2 0) 48 s (fun digest s =>
                     let ms := members.getD [s.pl.pkg]
                     let mine := (ms.filter (· == s.pl.pkg)).length
                     if dKind d != kCounter && frames.length < mine * shardSlabs d then .status svNOSPACE none s
                     else
                       let policy := (digest.getD []).take 48
                       let (bad, s) := if shared then refused policy s ms else ([], s)
                       if !bad.isEmpty then .status svREFUSED none s
                       else
                         let h := handleOf s.pl.pkg.toNat index.toNat (dGen d)
                         let s := makeObject s index.toNat d frames
                         .status svOK (some h) (if shared then formGroup s h ms policy d else s))))
           | .error _ => .wait s)))))

/-- DESTROY (R356): GEN rises, the cached copies go, and the slabs are released and zero-filled, at the object's home. -/
def execDestroy (r : SvcReq) (s : State) : Out :=
  serveNext r 2 s (fun g args s =>
    let h := BitVec.ofNat 64 (args.getD 0 0)
    unlessAnswered g s
      (withObject g (args.getD 0 0) s (fun d s =>
        needRight (canWrite d (fnWorld s g.fn)) s
          (if hHome h == s.pl.pkg.toNat then .status svOK none (destroyHere s h d) else forward g h (leBytes 1 wDestroy) s))))

/-! ## RESIDE (R287, R289, R356) -/

/-- RESIDE (R356): `frames` are the places that Lolen has chosen, slab by slab: guest-physical frames, packages for RES 2, the shard map's
number and entries for RES 4, or a counter object's new address (log 15). At another package's object its home moves the slabs. -/
def execReside (r : SvcReq) (frames : List Nat) (s : State) : Out :=
  serveNext r 3 s (fun g args s =>
    let h := BitVec.ofNat 64 (args.getD 0 0)
    let res := args.getD 1 0
    unlessAnswered g s
      (withObject g (args.getD 0 0) s (fun d s =>
        needRight (canWrite d (fnWorld s g.fn)) s
          (needGood (res ≤ 5) s
            (if hHome h != s.pl.pkg.toNat then forward g h (leBytes 1 wReside ++ leBytes 1 res) s
             else
               match resideHere s h d res frames with
               | (.moved, s) => .status svOK none s
               | (.refused, s) => .status svBAD none s
               | (.noSpace, s) => .status svNOSPACE none s
               | (.later, s) => .wait s)))))

/-! ## PUBLISH (R354, R356) -/

/-- PUBLISH: R221 step 2. The notify word behind which Lolen reads the request has waited for the function's earlier host stores. -/
def execPublishService (r : SvcReq) (s : State) : Out :=
  serveNext r 4 s (fun g args s =>
    let h := BitVec.ofNat 64 (args.getD 0 0)
    match g.reply with
    | some bs => .status svOK (some (BitVec.ofNat 64 (replyValue bs 0))) s
    | none =>
      withObject g (args.getD 0 0) s (fun d s =>
        needGood (dKind d == kTensor || dKind d == kStep || dKind d == kCounter) s
          (needRight (canWrite d (fnWorld s g.fn)) s
            (if hHome h != s.pl.pkg.toNat then
               match sendRequest s (hHome h) opPublish h 0 none [] with
               | some (m, s) => .wait (setRing s { g with remote := some m })
               | none => .wait s
             else
               match publishHere s h 0 (· + 1) with
               | .ok (v, _, s) => .status svOK (some v) s
               | .error _ => .wait s))))

/-! ## COLLECTIVE (R366) -/

/-- The share group of an object; an object without one has this package alone. -/
def groupOf (s : State) (h : DWord) : Group := (s.pe.groups.find? (fun g => hObj g.index == hObj h)).getD (Group.new h [s.pl.pkg] 0 [] [])

/-- Change the group of an object. -/
def updGroup (s : State) (h : DWord) (g : Group → Group) : State :=
  { s with pe := { s.pe with groups := s.pe.groups.map (fun x => if hObj x.index == hObj h then g x else x) } }

/-- The members of a group that are not lost (R365). -/
def Group.active (g : Group) : List Byte := g.members.filter (fun m => !g.lost.contains m)

/-- The coordinator of a group: its lowest-numbered member (R366). -/
def Group.coordinator (g : Group) : Byte := g.active.foldl (fun a m => if m.toNat < a.toNat then m else a) (g.active.headD 0)

/-- A group whose epoch rises: its collectives are numbered anew (R365). -/
def Group.raise (g : Group) : Group := { g with epoch := g.epoch + 1, next := 0, done := [] }

/-- The body of a control frame about a round. -/
def roundBody (code : Nat) (r : Round) : List Byte := leBytes 1 code ++ leBytes 4 r.epoch.toNat ++ leBytes 4 r.no.toNat

/-- Send a control frame about a round of an object's group. -/
def tellRound (h : DWord) (code : Nat) (r : Round) (s : State) (pkg : Byte) : State := control h r.epoch (roundBody code r) s pkg

/-- The other members of a group that are not lost. -/
def Group.others (g : Group) (s : State) : List Byte := g.active.filter (· != s.pl.pkg)

/-- The shards of an object that a package holds. -/
def shardsAt (s : State) (h : DWord) (pkg : Byte) : List (DWord × Nat) :=
  let known := if hHome h == s.pl.pkg.toNat then (readDesc s (hIndex h)).toOption
    else (s.tb.hosted.find? (fun e => hObj e.1 == hObj h)).map (·.2)
  match known with
  | none => []
  | some d =>
    if dSaxis d == 15 then []
    else
      (List.range (dScnt d + 1)).filterMap (fun k =>
        match mapEntry s d k with
        | .ok e => if e.pkg == pkg.toNat then some (h, k) else none
        | .error _ => none)

/-- The shards of the destination of a committed collective that members hold which have been lost since are lost (R366). -/
def loseShards (s : State) (h : DWord) (members : List Byte) : State :=
  let gone := ((groupOf s h).lost.filter members.contains).flatMap (shardsAt s h)
  { s with pe := { s.pe with lostShards := s.pe.lostShards ++ gone.filter (fun x => !s.pe.lostShards.contains x) } }

/-- A commit is recorded here (R366). -/
def recordCommit (s : State) (h : DWord) (r : Round) : State :=
  let s := updGroup s h (fun g => { g with commit := some r, done := [], asks := [] })
  match s.pe.colls.find? (fun c => hObj c.dst == hObj h && c.round == r) with
  | some c => loseShards s h c.members
  | none => s

/-- The coordinator notes a member's report, and records the commit once every member has reported the round at the group's epoch; the members hear
of it (R366). -/
def noteDone (s : State) (h : DWord) (pkg : Byte) (r : Round) : State :=
  let s := updGroup s h (fun g => { g with done := (pkg, r) :: g.done.filter (fun x => x.1 != pkg) })
  let g := groupOf s h
  if g.coordinator == s.pl.pkg && r.epoch == g.epoch && g.aborted != some r && g.active.all (fun m => g.done.contains (m, r)) then
    (g.others s).foldl (tellRound h kCommit r) (recordCommit s h r)
  else s

/-- A member reports its part of a round done to the coordinator (R366). -/
def reportDone (s : State) (h : DWord) (r : Round) : State :=
  let g := groupOf s h
  if g.coordinator == s.pl.pkg then noteDone s h s.pl.pkg r else tellRound h kDone r s g.coordinator

/-- The coordinator hears that a member has no commit of a round recorded: it tells the one that it has, or asks the others, and aborts the round
once no member that is left has it (R366; log 14). -/
def noteAsk (s : State) (h : DWord) (pkg : Byte) (r : Round) : State :=
  let g := groupOf s h
  if g.commit == some r then (if pkg == s.pl.pkg then s else tellRound h kCommit r s pkg)
  else
    let first := !g.asks.contains (s.pl.pkg, r)
    let s := updGroup s h (fun g => { g with asks := ([(pkg, r), (s.pl.pkg, r)] ++ g.asks.filter (fun x => x.2 == r)).eraseDups })
    let s := if first then (g.others s).foldl (tellRound h kQuery r) s else s
    let g := groupOf s h
    if g.active.all (fun m => g.asks.contains (m, r)) then
      (g.others s).foldl (tellRound h kAbort r) (updGroup s h (fun g => { g with aborted := some r, asks := [] }))
    else s

/-- A member whose round the group's epoch has overtaken asks for its outcome (R366). -/
def askOutcome (s : State) (h : DWord) (r : Round) : State :=
  let g := groupOf s h
  if g.coordinator == s.pl.pkg then noteAsk s h s.pl.pkg r else tellRound h kAsk r s g.coordinator

/-- Whether the commit of a collective is recorded; an object without a group needs none (R366). -/
def committed (s : State) (c : Coll) : Bool :=
  match s.pe.groups.find? (fun g => hObj g.index == hObj c.dst) with
  | some g => g.commit == some c.round
  | none => true

/-- One element of an all-reduce: exact where the format is an integer's and the result is in its range; every other result is an
open value (R366, log 36). -/
def reduceElem (draw kind fmt w : Nat) (xs : List Nat) : Nat :=
  match fmtOf fmt with
  | some (.int sg _) =>
    let vs := xs.map (intVal sg w)
    let v := match kind, vs with
      | 1, v :: vs => vs.foldl min v
      | 2, v :: vs => vs.foldl max v
      | _, vs => vs.foldl (· + ·) 0
    let lo : Int := if sg then -(2 ^ (w - 1)) else 0
    let hi : Int := if sg then 2 ^ (w - 1) else 2 ^ w
    if lo ≤ v && v < hi then (v % (2 ^ w)).toNat else Config.openReduce draw kind fmt xs % 2 ^ w
  | some _ => Config.openReduce draw kind fmt xs % 2 ^ w
  | none => 0

/-- The bits of an item of a part: the element and, in a microscaling format, its scale (R366, log 36). -/
def itemWidth (d : BitVec 512) : Nat := dWidth d + (if dIsMx d then 8 else 0)

/-- The items of a part, each in whole bytes. -/
def itemsOf (d : BitVec 512) (p : List Byte) : List Nat :=
  let b := cdiv (itemWidth d) 8
  (List.range (p.length / b)).map (fun i => leNat ((p.drop (b * i)).take b))

/-- The elements that a collective leaves in the destination, from the members' parts. -/
def collectiveElems (draw kind : Nat) (d : BitVec 512) (parts : List (List Byte)) : List Nat :=
  let cols := parts.map (itemsOf d)
  if kind == 3 then cols.flatten.take (dCount d)
  else
    let n := cols.foldl (fun n c => min n c.length) (dCount d)
    (List.range n).map (fun i => reduceElem draw kind (dFmt d) (itemWidth d) (cols.map (fun c => c.getD i 0)))

/-- Read item i of a source through the holders on this package. -/
def readItem (s : State) (who : Who) (h : DWord) (d : BitVec 512) (es : List Holder) (i : Nat) : Acc Nat :=
  let (k, fs) := indexFields d i
  match es.find? (fun e => dRes d == 4 || e.shard == k) with
  | none => .peer 0
  | some e =>
    match byteAddrs s who h d e false (fieldOffs fs) with
    | (.park m, _) => .park m
    | (.peer p, _) => .peer p
    | (.ok as _, s) =>
      match as.mapM (Memory.read s.mem) with
      | none => .park ⟨.poison, e.shard, 0, 0, 0⟩
      | some bs => let vs := cutFields fs bs; .ok (vs.getD 0 0 + 2 ^ dWidth d * vs.getD 1 0) 0

/-- This package's part of a collective (R366): the elements of the shards or of the replica of the source that it holds, in linear
order. Words of a slab whose residency is peer are those that the other package sends (log 15). -/
def ownPart (s : State) (who : Who) (h : DWord) (d : BitVec 512) (sent : List Nat) : Option (List Byte) :=
  let es := localHolders s h d
  let mine := (List.range (dCount d)).filter (fun i => es.any (fun e => dRes d == 4 || e.shard == (indexFields d i).1))
  (mine.mapM (fun i =>
    match readItem s who h d es i with
    | .ok v _ => some (leBytes (cdiv (itemWidth d) 8) v)
    | .peer _ => some (leBytes (cdiv (itemWidth d) 8) (sent.getD i 0))
    | .park _ => none)).map List.flatten

/-- Write elements of a destination; those of a shard or replica that another package has are written there by that member, and those of this
package's own shards that stand elsewhere are sent there (R184, R366). Nothing where an access would park. -/
def writeElems (s : State) (who : Who) (h : DWord) (d : BitVec 512) (vs : List Nat) : Option State :=
  let ws := vs.zipIdx.flatMap (fun x =>
    let (sh, fs) := indexFields d x.2
    (fs.zip [x.1 % 2 ^ dWidth d, x.1 / 2 ^ dWidth d]).map (fun y => ((sh, y.1), y.2)))
  let whole := fullLines (ws.map (·.1))
  match writeNear who h d 0 whole ws s with
  | (.error _, _) => none
  | (.ok far, s) =>
    let own (x : FarField) : Bool := match holderOf s h d x.sh 0 true with | .ok e => e.pkg == s.pl.pkg.toNat | .error _ => false
    let send (s : State) (x : Nat × Nat × List Byte) : State :=
      match sendRequest s x.1 opWrite h x.2.1 none x.2.2 with
      | some (_, s) => s
      | none => s
    some ((farBodies whole (far.filter own)).foldl send s)

/-- The end of a member's collective: the destination is published at its home (R221, R366). -/
def endCollective (g : SvcRing) (h : DWord) (s : State) : Served :=
  if hHome h != s.pl.pkg.toNat then
    match sendRequest s (hHome h) opPublish h 0 none [] with
    | some (m, s) => .wait (setRing s { g with remote := some m })
    | none => .status svOK none s
  else
    match publishHere s h 0 (· + 1) with
    | .ok (_, _, s) => .status svOK none s
    | .error _ => .wait s

/-- COLLECTIVE (R356, R366): the first step stages this member's part and reports it done; once the coordinator's commit is recorded the
destination is written and published; where the epoch has changed, no member having the commit recorded, it aborts. `parts` are the members' parts as the packages exchange them,
this package's own being the one it has staged (log 15). -/
def execCollective (r : SvcReq) (parts : List (List Byte)) (s : State) : Out :=
  serveNext r 5 s (fun g args s =>
    let kind := args.getD 0 0
    let hs := BitVec.ofNat 64 (args.getD 1 0)
    let hd := BitVec.ofNat 64 (args.getD 2 0)
    match g.reply with
    | some _ => .status svOK none s
    | none =>
      withObject g (args.getD 1 0) s (fun ds s =>
        withObject g (args.getD 2 0) s (fun d s =>
          needRight (canRead ds (fnWorld s g.fn) && canWrite d (fnWorld s g.fn)) s
            (needGood (kind ≤ 3 && dKind ds != kCounter && dKind d != kCounter && dKind d != kCode && dFmt ds == dFmt d) s
              (let gr := groupOf s hd
               let mine : Coll → Bool := fun c => c.fn == g.fn && c.host == g.host && c.seq == g.served
               let drop (s : State) : State := { s with pe := { s.pe with colls := s.pe.colls.filter (fun c => !mine c) } }
               match s.pe.colls.find? mine with
               | none =>
                 match ownPart s (lolen s g.fn) hs ds (itemsOf ds (parts.headD [])) with
                 | none => .wait s
                 | some bs =>
                   let r : Round := ⟨gr.epoch, gr.next⟩
                   let c : Coll := ⟨g.fn, g.host, g.served, hd, r, gr.active, bs, false⟩
                   let s := updGroup s hd (fun x => { x with next := x.next + 1 })
                   .wait (reportDone { s with pe := { s.pe with colls := s.pe.colls ++ [c] } } hd r)
               | some c =>
                 if !committed s c then
                   if c.round.epoch == gr.epoch then .wait s
                   else
                     let ask (x : Coll) : Coll := if mine x then { x with asked := true } else x
                     let s := if c.asked then s else askOutcome { s with pe := { s.pe with colls := s.pe.colls.map ask } } hd c.round
                     if (groupOf s hd).aborted == some c.round then .status svABORTED none (drop s) else .wait s
                 else if parts.length != c.members.length
                   || (c.members.contains s.pl.pkg && parts.getD (c.members.idxOf s.pl.pkg) [] != c.staging) then .wait s
                 else
                   let (n, s') := freshNat (drop s)
                   match writeElems s' (lolen s' g.fn) hd d (collectiveElems n kind d parts) with
                   | none => .wait s
                   | some t => endCollective g hd t)))))

/-! ## EVENT_BIND, STREAM_BIND, FLASH_WRITE (R356, R362, R373) -/

/-- EVENT_BIND (R356). -/
def execEventBind (r : SvcReq) (s : State) : Out :=
  serveNext r 6 s (fun g args s =>
    let q := args.getD 0 0
    let v := args.getD 1 0
    needGood (q < 256 && (v < 16 || v == 0xFFFF)) s
      (let rest := s.ho.eventBinds.filter (fun b => !(b.1 == g.fn && b.2.1.toNat == q))
       let binds := if v == 0xFFFF then rest else (g.fn, BitVec.ofNat 8 q, v) :: rest
       .status svOK none { s with ho := { s.ho with eventBinds := binds } }))

/-- The checks of R362 on a stream and its counter object. -/
def streamOk (s : State) (h : DWord) (d dc : BitVec 512) (slot : Nat) : Bool :=
  let n := dExt d 0 / slot
  dKind d == kStream && dFmt d == 4 && dRank d == 1 && dExt d 0 % slot == 0
    && [16, 32, 64, 128, 256, 512, 1024, 2048, 4096, 8192, 16384, 32768, 65536].contains n
    && hHome h == s.pl.pkg.toNat && dRes d == 0 && dSaxis d == 15
    && dKind dc == kCounter && 4 ≤ dCount dc

/-- STREAM_BIND (R362): the lowest free stream number; the port's filter points at it. -/
def execStreamBind (r : SvcReq) (s : State) : Out :=
  serveNext r 7 s (fun g args s =>
    let h := BitVec.ofNat 64 (args.getD 0 0)
    let hc := BitVec.ofNat 64 (args.getD 1 0)
    let lg := args.getD 2 0
    let port := bits (args.getD 3 0) 0 5
    let filter := bits (args.getD 3 0) 8 4
    needGood (lg ≤ 7 && port < 24 && args.getD 3 0 == port + filter * 2 ^ 8) s
      (withObject g (args.getD 0 0) s (fun d s =>
        withObject g (args.getD 1 0) s (fun dc s =>
          needRight (canWrite d (fnWorld s g.fn) && canWrite dc (fnWorld s g.fn)) s
            (needGood (streamOk s h d dc (2 ^ (7 + lg))) s
              (match (List.range 64).find? (fun k => s.pe.streams.all (fun x => x.k != k)), s.pe.ports[port]? with
               | some k, some p =>
                 let f := (p.filters[filter]?).getD ⟨0, 0⟩
                 let f := { f with ctl := BitVec.ofNat 64 (setBits f.ctl.toNat 0 6 k) }
                 let p := { p with filters := p.filters.setIfInBounds filter f }
                 .status svOK none { s with pe := { s.pe with
                   streams := s.pe.streams ++ [⟨k, h, hc, 2 ^ (7 + lg), port, filter⟩]
                   ports := s.pe.ports.setIfInBounds port p } }
               | _, _ => .status svNOSPACE none s))))))

/-- FLASH_WRITE (R373): a verified image erases the flash, which is invalid until the image is written, compared and the request complete; another
ring's request waits for that. -/
def execFlashWrite (r : SvcReq) (s : State) : Out :=
  serveNext r 8 s (fun g args s =>
    needRight (g.host && g.privileged) s
      (match s.pl.flashing with
       | some x =>
         if x.fn == g.fn && x.host == g.host then .status svOK none { s with pl := { s.pl with flash := x.image, flashing := none } }
         else .wait s
       | none =>
         withObject g (args.getD 0 0) s (fun d s =>
           needRight (canRead d (fnWorld s g.fn)) s
             (let n := min (payloadBytes d) imageLimit
              withFields g (BitVec.ofNat 64 (args.getD 0 0)) d ((blobFields 0 n).map (fun f => (0, f))) s (fun vs s =>
                let bs := blobBytes n vs
                if imageOk bs then
                  .wait { s with pl := { s.pl with flash := [], flashing := some ⟨g.fn, g.host, bs.take (0xA0 + imageLen bs)⟩ } }
                else .status svIMAGE none s)))))

end Sys2Proof.Machine
end

