-- ==== Sys2Proof/Machine/Ingress.lean ====
section
/-! DEFINITION. Ingress: filters, streams and the stream unit (R358, R359, R362-R364), and the port configuration (R8, R9, R358). -/

namespace Sys2Proof.Machine

/-! ## Filters (R359) -/

/-- The destination MAC of a frame as IFMATCH holds it. -/
def destMac (bs : List Byte) : Nat := leNat ((bs.take 6).reverse)

/-- The VLAN identifier of a tagged frame. -/
def vlanOf (bs : List Byte) : Option Nat :=
  if etherType bs == 0x8100 then some (((bs.getD 14 0).toNat * 256 + (bs.getD 15 0).toNat) % 4096) else none

/-- The EtherType behind a VLAN tag. -/
def innerType (bs : List Byte) : Nat :=
  if etherType bs == 0x8100 then (bs.getD 16 0).toNat * 256 + (bs.getD 17 0).toNat else etherType bs

/-- Whether an enabled filter matches a frame (R359). -/
def filterMatches (f : Filter) (bs : List Byte) : Bool :=
  let c := f.ctl.toNat
  let m := f.mac.toNat
  bitAt c 63 && (bitAt c 62 || destMac bs == m / 2 ^ 16) && (bitAt c 61 || innerType bs == m % 2 ^ 16)
    && (bitAt c 60 || vlanOf bs == some (bits c 48 12))

/-- Count a dropped frame of a port. -/
def dropFrame (s : State) (port : Nat) : State :=
  match s.pe.ports[port]? with
  | some p => { s with pe := { s.pe with ports := s.pe.ports.setIfInBounds port { p with dropped := p.dropped + 1 } } }
  | none => s

/-! ## The stream unit (R363, R364) -/

/-- The record of a frame at the head of a slot (R363). -/
def ingressBytes (slot n port : Nat) (time : Nat) (bs : List Byte) : List Byte :=
  let flen := bs.length
  let len := min flen (slot - 32)
  let trunc := b2n (slot - 32 < flen)
  leBytes 8 (time / 1000000000)
  ++ leBytes 8 (trunc * 2 ^ 53 + port * 2 ^ 48 + len * 2 ^ 32 + time % 1000000000)
  ++ leBytes 8 n ++ leBytes 8 (flen % 2 ^ 16) ++ bs.take len

/-- What one step of the stream unit with a frame comes to: the next step, the frame's end, an object that is gone, a park, or a request to
another package. -/
inductive StreamDo where
  | next (step : StreamStep)
  | done
  | gone
  | park (h : DWord) (write atomic : Bool) (m : Meet)
  | ask (h : DWord) (pkg op off : Nat) (desc : Bool) (body : List Byte)
  deriving DecidableEq, Repr

/-- The stream unit as the agent of an access (R284; log 83). -/
def streamWho (s : State) : Who := ⟨0, lowDie s, 0, 6, false⟩

/-- Resolve a handle for the stream unit. -/
def streamResolve (s : State) (h : DWord) (write atomic : Bool) (k : BitVec 512 → State → StreamDo × State) : StreamDo × State :=
  match resolve s (streamWho s) h 0 with
  | (.trap _, s) => (.gone, s)
  | (.park m, s) => (.park h write atomic m, s)
  | (.ask pkg, s) => (.ask h pkg opRead descOffset true [], s)
  | (.ok d _, s) => k d s

/-- Add 1 to word i of a stream's counter object at its home, or take the reply of its home. -/
def streamAdd (s : State) (x : Stream) (f : StreamFrame) (i : Nat) (k : StreamDo) : StreamDo × State :=
  if f.reply.isSome then (k, s)
  else
    streamResolve s x.ctr true true (fun d s =>
      if hHome x.ctr != s.pl.pkg.toNat then (.ask x.ctr (hHome x.ctr) opAtomic (8 * i) false (atomicBody .add i 1 0), s)
      else (k, (atomicHere s x.ctr d .add i 1 0).2))

/-- The step behind the look at APPENDED and CONSUMED (R363). -/
def streamLook (d : BitVec 512) (x : Stream) (n c : Nat) : StreamStep :=
  if dExt d 0 / x.slot ≤ (n + 2 ^ 64 - c) % 2 ^ 64 then .drop else .write n 0

/-- The bytes of a record that are written in one step: what one request to another package carries (R360). -/
def recordPart : Nat := 2048

/-- The values of those fields. -/
def blobValues (bs : List Byte) : List Nat :=
  (List.range (bs.length / 16)).map (fun i => leNat ((bs.drop (16 * i)).take 16)) ++ (bs.drop (bs.length / 16 * 16)).map (·.toNat)

/-- One step of the stream unit with a frame (R363). -/
def streamDo (s : State) (x : Stream) (f : StreamFrame) : StreamDo × State :=
  match f.step with
  | .look =>
    streamResolve s x.stream true false (fun d s =>
      streamResolve s x.ctr false false (fun dc s =>
        match f.reply with
        | some bs => (.next (streamLook d x (replyValue bs 0) (replyValue bs 1)), s)
        | none =>
          if hHome x.ctr != s.pl.pkg.toNat then
            (.ask x.ctr (hHome x.ctr) opRead 0 false (fieldBody 0 [⟨0, 0, 64⟩, ⟨8, 0, 64⟩]), s)
          else (.next (streamLook d x (counterRead s dc 0) (counterRead s dc 1)), s)))
  | .drop => streamAdd s x f 2 .done
  | .write n from_ =>
    streamResolve s x.stream true false (fun d s =>
      let bs := ingressBytes x.slot n f.port f.time f.bytes
      let part := (bs.drop from_).take recordPart
      let off := n % max 1 (dExt d 0 / x.slot) * x.slot + from_
      let next : StreamDo :=
        .next (if from_ + recordPart < bs.length then .write n (from_ + recordPart)
          else if x.slot - 32 < f.bytes.length then .trunc else .count)
      if f.reply.isSome then (next, s)
      else
        match objWrite s (streamWho s) x.stream d 0 0 (blobFields off part.length) (blobValues part) (coveredLines off part.length) with
        | (.ok _ _, s) => (next, s)
        | (.park m, s) => (.park x.stream true false m, s)
        | (.peer pkg, s) => (.ask x.stream pkg opWrite off false
            (writeBody false 0 (coveredLines off part.length) (blobFields off part.length) (blobValues part)), s))
  | .trunc => streamAdd s x f 3 (.next .count)
  | .count => streamAdd s x f 0 .done

/-- Replace the frame at a place of the stream unit. -/
def setFrame (s : State) (k : Nat) (f : StreamFrame) : State := { s with pe := { s.pe with frames := s.pe.frames.set k f } }

/-- A frame's park at the stream unit. -/
def frameParks (s : State) (k : Nat) (f : StreamFrame) (h : DWord) (write atomic : Bool) (m : Meet) : State :=
  let (p, s) := park s (streamWho s) h write atomic m
  setFrame s k { f with park := some p, remote := none, reply := none }

/-- The stream unit goes on with the oldest frame of a stream as far as it can, and then with the next one (R363). -/
def streamGo (stream : Nat) : Nat → State → State
  | 0, s => s
  | n + 1, s =>
    match s.pe.frames.findIdx? (fun f => f.k == stream), s.pe.streams.find? (fun x => x.k == stream) with
    | some k, some x =>
      match s.pe.frames[k]? with
      | none => s
      | some f =>
        let drop (s : State) : State := { s with pe := { s.pe with frames := s.pe.frames.eraseIdx k } }
        if f.remote.isSome || !parkOver f.park then s
        else
          match streamDo s x f with
          | (.next step, s) => streamGo stream n (setFrame s k { f with step := step, park := none, reply := none })
          | (.done, s) => streamGo stream n (drop s)
          | (.gone, s) => streamGo stream n (dropFrame (drop s) f.port)
          | (.park h w a m, s) => frameParks s k f h w a m
          | (.ask h pkg op off desc body, s) =>
            match sendRequest s pkg op h off (if desc then some h else none) body with
            | some (r, s) => setFrame s k { f with park := none, remote := some r, reply := none }
            | none => frameParks s k f h (op != opRead) (op == opAtomic) (noPath op off body)
    | _, _ => s

/-- The stream unit goes on with a stream: each frame takes at most nine steps. -/
def streamOn (s : State) (stream : Nat) : State := streamGo stream (10 * s.pe.frames.length + 10) s

/-! ## The events (R358, R362) -/

/-- A frame of a bound stream arrives at the stream unit, timestamped (R363). -/
def streamArrives (s : State) (x : Stream) (port : Nat) (bs : List Byte) : State :=
  let f : StreamFrame :=
    { k := x.k, port := port, time := ptpTime s s.tm.dtime, bytes := bs, step := .look, park := none, remote := none, reply := none }
  streamOn { s with pe := { s.pe with frames := s.pe.frames ++ [f] } } x.k

/-- INGRESS_FRAME: a frame at a port, without its FCS, which is good or not (R358, R362, R363). -/
def execIngressFrame (port : BitVec 5) (x : PortFrame) (s : State) : Out :=
  let (_, s) := readTime s
  let bytes := x.bytes
  match s.pe.ports[port.toNat]? with
  | none => .next s
  | some p =>
    if !portUp s p || p.mode == 0 || bytes.length < 60 || 9212 < bytes.length then .next s
    else if !x.good then .next (dropFrame s port.toNat)
    else if ptpTaken s port bytes then .next (giveTimeService s port false bytes)
    else if p.mode != 2 then .next s
    else
      match p.filters.toList.find? (fun f => filterMatches f bytes) with
      | none => .next (dropFrame s port.toNat)
      | some f =>
        match s.pe.streams.find? (fun x => x.k == bits f.ctl.toNat 0 6) with
        | some x => .next (streamArrives s x port.toNat bytes)
        | none => .next (dropFrame s port.toNat)

/-- The longest time in ns that a port takes to train again (R358). -/
def retrainLimit : Nat := 100000000

/-- PORTCFG_WRITE of the selected port: the port goes down and trains again, which takes a time that the spec bounds; the read-only bits are
ignored, and a reserved mode is refused (R8, R9, R358, R359). -/
def execPortcfgWrite (v : BitVec 64) (s : State) : Out :=
  match s.pe.ports[s.pe.portsel.toNat]? with
  | none => .next s
  | some p =>
    let mode := v.setWidth 2
    if mode == 3 then .next s
    else
      let (n, s) := freshNat s
      let up := mode != 0 && !s.pl.linksDown.contains (.scaleOut s.pe.portsel)
      let ready := s.tm.dtime + BitVec.ofNat 64 (min (Config.retrain n) retrainLimit)
      let p := { p with mode := mode, ptpen := v.getLsbD 3, linkUp := up, upAt := ready }
      .next { s with pe := { s.pe with ports := s.pe.ports.setIfInBounds s.pe.portsel.toNat p } }

end Sys2Proof.Machine
end

