-- ==== Sys2Proof/Machine/Answers.lean ====
section
/-! DEFINITION. What a peer's answer does to the access that asked (R184, R282, R283, R360, R365; log 14). -/

namespace Sys2Proof.Machine

/-- A peer's answer: data with its stamp first, or a condition that parks the access, with the offset in the shard and the address of the line
that a poisoned one names (R284). -/
inductive Answer where
  | data (bs : List Byte)
  | fail (k : ParkKind) (off addr : Nat)
  deriving DecidableEq, Repr

/-- Reply to a request frame of another package. -/
def replyBack (s : State) (f : PeerFrame) (op : Nat) (stat : Byte) (body : List Byte) : State :=
  sendOn s f.port.toNat f.spkg.toNat (op + 1) stat f.handle f.offset (f.payload.take 8 ++ body)

/-- Hand a failure on to the package whose request it stops. -/
def replyFail (s : State) (f : PeerFrame) (op : Nat) (a : Answer) : State :=
  match a with
  | .fail .poison off addr => replyBack s f op 2 (leBytes 8 off ++ leBytes 8 addr)
  | _ => replyBack s f op 1 []

/-- Whether a request is the one that is answered. -/
def asked (r : Option Remote) (id : Nat) : Bool := match r with | some x => x.id == id | none => false

/-- Whether a request asked for a descriptor. -/
def askedDesc (r : Option Remote) : Bool := match r with | some x => x.desc.isSome | none => false

/-- Enter the descriptor that an answer brings in a cluster's handle cache, at the answer's stamp (R223). -/
def learn (s : State) (cluster : Nat) (r : Option Remote) (a : Answer) : State :=
  match r, a with
  | some x, .data bs =>
    match x.desc with
    | some h => cacheDesc s cluster h (BitVec.ofNat 512 (leNat ((bs.drop 8).take 64))) (leDWord (bs.take 8))
    | none => s
  | _, _ => s

/-- What a failed answer says of the request's access (R284). -/
def failMeet (r : Option Remote) (k : ParkKind) (off addr : Nat) : Meet :=
  match k, r with
  | .poison, some x => ⟨.poison, x.shard, off, 0, addr⟩
  | k, some x => ⟨k, x.shard, x.off, 0, 0⟩
  | k, none => ⟨k, 0, off, 0, addr⟩

/-- The handle that a request is about. -/
def askedHandle (r : Option Remote) : DWord := match r with | some x => x.handle | none => 0

/-- The park that a failed answer to a request makes, of an access that writes or is an atomic as given (R282, R284). -/
def failPark (s : State) (who : Who) (r : Option Remote) (write atomic : Bool) (m : Meet) : Park × State :=
  park s who (askedHandle r) write atomic m

/-- Map over a list with the state. -/
def mapState {α : Type} (f : α → State → α × State) : List α → State → List α × State
  | [], s => ([], s)
  | x :: xs, s =>
    let (x, s) := f x s
    let (xs, s) := mapState f xs s
    (x :: xs, s)

/-- The answer at an object load. -/
def answerLoad (b : Block) (id : Nat) (a : Answer) (l : ObjLoad) (s : State) : ObjLoad × State :=
  if !asked l.remote id then (l, s)
  else
    let s := learn s (clusterOf b.core) l.remote a
    match a with
    | .data bs => ({ l with remote := none, reply := if askedDesc l.remote then none else some bs }, s)
    | .fail k off addr =>
      let (p, s) := failPark s (b.who 0) l.remote l.op.isAtomic l.op.isAtomic (failMeet l.remote k off addr)
      ({ l with remote := none, park := some p }, s)

/-- The request of a posted write. -/
def Posted.remote? : Posted → Option Remote
  | .store .. => none
  | .sto _ _ _ _ _ _ _ r => r
  | .gate u => u.remote

/-- A posted write with its park set and its request gone. -/
def Posted.answered (x : Posted) (p : Option Park) : Posted :=
  match x with
  | .sto pc h i v req ws _ _ => .sto pc h i v req ws p none
  | .gate u => .gate { u with park := p, remote := none }
  | x => x

/-- A posted write with an acknowledged request: an `sgate` update goes on behind the part that has been written, and anything else is performed
(R169, R172). -/
def Posted.acked (x : Posted) : Option Posted :=
  match x with
  | .gate u =>
    match u.far with
    | some (p :: rest) => if p.side then none else some (.gate { u with far := some rest, park := none, remote := none })
    | _ => none
  | _ => none

/-- The answer at the posted writes: an acknowledged write has been performed. -/
def answerPosted (b : Block) (id : Nat) (a : Answer) : List Posted → State → List Posted × State
  | [], s => ([], s)
  | x :: xs, s =>
    let (ys, s) := answerPosted b id a xs s
    if !asked x.remote? id then (x :: ys, s)
    else
      let s := learn s (clusterOf b.core) x.remote? a
      match a with
      | .data _ => if askedDesc x.remote? then (x.answered none :: ys, s) else (x.acked.toList ++ ys, s)
      | .fail k off addr =>
        let (p, s) := failPark s (b.who 0) x.remote? true false (failMeet x.remote? k off addr)
        (x.answered (some p) :: ys, s)

/-- The answer at a command. -/
def answerCmd (b : Block) (id : Nat) (a : Answer) (c : Cmd) (s : State) : Cmd × State :=
  if !asked c.remote id then (c, s)
  else
    let s := learn s (clusterOf b.core) c.remote a
    match a with
    | .data bs => ({ c with remote := none, reply := if askedDesc c.remote then c.reply else some bs }, s)
    | .fail k off addr =>
      let write := match c.remote with | some x => x.write | none => false
      let (p, s) := failPark s (b.who c.eng.agent.code) c.remote write false (failMeet c.remote k off addr)
      ({ c with remote := none, park := some p }, s)

/-- The answer at an engine. -/
def answerEngine (b : Block) (id : Nat) (a : Answer) (q : EngineQ) (s : State) : EngineQ × State :=
  let (r, s) := mapState (answerCmd b id a) q.run.toList s
  let (os, s) := mapState (answerCmd b id a) q.trail s
  let (cs, s) := mapState (answerCmd b id a) q.q s
  ({ q with run := r.head?, trail := os, q := cs }, s)

/-- A lease that the home of its object on another package has granted to a block, by its identifier (R290; log 14). -/
def awayLease (b : Block) (pkg : Byte) (v h : DWord) (lo hi : Nat) (add : Bool) : Lease :=
  { entry := bits v.toNat 0 14, gen := BitVec.ofNat 16 (bits v.toNat 16 16), handle := h, lo := lo, hi := hi, add := add, pkg := pkg,
    holder := b.id, core := b.core, half := b.half, since := b.dispN, req := 0 }

/-- The answer at a `lease` that waits for another package: a grant completes it, and anything else goes to the instruction (R291). -/
def answerLease (b : Block) (h : DWord) (lo hi : Nat) (add : Bool) (sd : SReg) (bs : List Byte) (s : State) : Block × State :=
  if replyValue bs 0 == 1 then
    let v := BitVec.ofNat 64 (replyValue bs 1)
    ({ wrS b sd v 0 with pc := b.pc + 8, wait := none },
     { s with tb := { s.tb with away := s.tb.away ++ [awayLease b s.pl.pkg v h lo hi add] } })
  else ({ b with wait := none, reply := some bs }, s)

/-- The bytes of the code object at some addresses that another package has sent (log 14). -/
def Block.keepCode (b : Block) (xs : List Nat) (bs : List Byte) : Block :=
  { b with codeBuf := xs.zip ((List.range xs.length).map (fun i => BitVec.ofNat 8 (replyValue bs i))) ++ b.codeBuf.filter (fun c => !xs.contains c.1) }

/-- The answer at the strand: a descriptor goes to the handle cache, fetched bytes to the fetch buffer, a granted lease completes its
instruction, and any other value goes to the unfinished instruction. -/
def answerStrand (b : Block) (id : Nat) (a : Answer) (s : State) : Block × State :=
  let parks (r : Remote) (f : Option DWord) (write atomic : Bool) (m : Meet) (s : State) : Block × State :=
    let (p, s) := failPark s (b.who 0) (some r) write atomic m
    ({ b with wait := some (.park { p with req := f }) }, s)
  match b.wait with
  | some (.remote r w at_ f) =>
    if r.id != id then (b, s)
    else
      let s := learn s (clusterOf b.core) (some r) a
      match a with
      | .fail k off addr => parks r f w at_ (failMeet (some r) k off addr) s
      | .data bs => (if r.desc.isSome then { b with wait := none } else { b with wait := none, reply := some bs }, s)
  | some (.fetch r xs) =>
    if r.id != id then (b, s)
    else
      match a with
      | .fail k off addr => parks r none false false (failMeet (some r) k off addr) s
      | .data bs => ({ b.keepCode xs bs with wait := none }, s)
  | some (.leaseAway r h lo hi add sd f) =>
    if r.id != id then (b, s)
    else
      match a with
      | .fail k off addr => parks r (some f) true false (failMeet (some r) k off addr) s
      | .data bs => answerLease b h lo hi add sd bs s
  | _ => (b, s)

/-- The answer at a block. -/
def answerBlock (id : Nat) (a : Answer) (b : Block) (s : State) : Block × State :=
  let (b, s) := answerStrand b id a s
  let (ls, s) := mapState (answerLoad b id a) b.loads s
  let (ps, s) := answerPosted b id a b.posted s
  let (qF, s) := answerEngine b id a b.eF s
  let (qV, s) := answerEngine b id a b.eV s
  let (qM, s) := answerEngine b id a b.eM s
  let (qP, s) := answerEngine b id a b.eP s
  ({ b with loads := ls, posted := ps, eF := qF, eV := qV, eM := qM, eP := qP }, s)

/-- The answer at the blocks, those in save slots included. -/
def answerBlocks (id : Nat) (a : Answer) (s : State) : State :=
  let (b, s) := answerBlock id a s.blk s
  let (bs, s) := mapState (answerBlock id a) s.others s
  let one (v : SaveSlot) (s : State) : SaveSlot × State :=
    let (xs, s) := mapState (answerBlock id a) v.blocks s
    ({ v with blocks := xs }, s)
  let (vs, s) := mapState one s.wo.saves s
  { s with blk := b, others := bs, wo := { s.wo with saves := vs } }

/-- The answer at a dispatcher: the launch goes on. -/
def answerLaunch (id : Nat) (a : Answer) (s : State) : State :=
  match s.dp.launches.find? (fun l => asked l.remote id) with
  | none => s
  | some l =>
    let s := learn s 0 l.remote a
    let wrote := !askedDesc l.remote && l.counted
    let s := updLaunch s l.slot (fun x => { x with remote := none })
    match a with
    | .fail k off addr => parkLaunch s l (askedHandle l.remote) l.counted (failMeet l.remote k off addr)
    | .data _ =>
      let s := if wrote then updLaunch s l.slot (fun x => { x with statusDue := x.statusDue.drop 1 }) else s
      advanceLaunch s l.slot

/-- The answer at the CWORD atomics. -/
def answerCwords (id : Nat) (a : Answer) (s : State) : State :=
  match s.dp.cwords.find? (fun c => asked c.remote id) with
  | none => s
  | some c =>
    let s := learn s 0 c.remote a
    let s := { s with dp := { s.dp with cwords := s.dp.cwords.filter (fun x => x != c) } }
    match a with
    | .data _ => if askedDesc c.remote then performCword s { c with remote := none } else s
    | .fail k off addr =>
      let (p, s) := failPark s (dispWho c.die (fnWorld s c.fn)) c.remote true true (failMeet c.remote k off addr)
      keepCword s { c with park := some p, remote := none }

/-- The answer at a timetable walker. -/
def answerWalkers (id : Nat) (a : Answer) (s : State) : State :=
  (List.range 16).foldl
    (fun s i =>
      let part := BitVec.ofNat 4 i
      let p := partOf s part
      if !asked p.remote id then s
      else
        let s := learn s 0 p.remote a
        match a with
        | .data bs => setPart s part { p with remote := none, reply := if askedDesc p.remote then none else some bs }
        | .fail k off addr =>
          let (q, s) := failPark s (dispWho (lowDie s) (fnWorld s (ttVf p.ttctl))) p.remote false false (failMeet p.remote k off addr)
          setPart s part { p with remote := none, park := some q }) s

/-- The place of the first of a list whose request is the one that is answered. -/
def askedAt {α : Type} (get : α → Option Remote) (id : Nat) (xs : List α) : Option (Nat × α) :=
  (xs.zipIdx.find? (fun x => asked (get x.1) id)).map (fun x => (x.2, x.1))

/-- The answer at a held host request, which is attempted again (R350, R353). -/
def answerHost (id : Nat) (a : Answer) (s : State) : State :=
  match askedAt HostReq.remote id s.ho.reqs with
  | none => s
  | some (k, q) =>
    let s := learn s 0 q.remote a
    match a with
    | .data bs => hostAgain (setReq s k { q with remote := none, reply := if askedDesc q.remote then none else some bs }) k
    | .fail .poison _ _ => let n := s.ho.reqs.length; hostDrain n (hostEnds s k q gPOISON [])
    | .fail kind off addr => hostParks s k q (askedHandle q.remote) (failMeet q.remote kind off addr)

/-- The answer at an `sgate` update of another package: its next part, or the failure, which goes back to that package (R169, R172; log 14). -/
def answerGates (id : Nat) (a : Answer) (s : State) : State :=
  match askedAt GateJob.remote id s.pe.gateJobs with
  | none => s
  | some (k, g) =>
    let set (s : State) (g : GateJob) : State := { s with pe := { s.pe with gateJobs := s.pe.gateJobs.set k g } }
    let s := learn s 0 g.remote a
    match a with
    | .data _ => set s { g with far := if askedDesc g.remote then g.far else g.far.drop 1, remote := none }
    | .fail .. => replyFail { s with pe := { s.pe with gateJobs := s.pe.gateJobs.eraseIdx k } } g.frame opAtomic a

/-- The answer to a request of another package that was passed on: it goes back to that package; and the answer to a request for the descriptor
that such a request needs, operation 0 (R278). -/
def answerRelays (id : Nat) (a : Answer) (s : State) : State :=
  match s.pe.relays.find? (fun r => r.id == id) with
  | none => s
  | some r =>
    let s := { s with pe := { s.pe with relays := s.pe.relays.filter (fun x => x.id != id) } }
    match a with
    | .data bs => if r.op == 0 then learn s 0 (some (remoteOf id (hHome r.frame.handle) opRead r.frame.handle descOffset (some r.frame.handle) [])) a else replyBack s r.frame r.op 0 (bs.drop 8)
    | .fail .. => if r.op == 0 then s else replyFail s r.frame r.op a

/-- The answer at the stream unit (R363). -/
def answerFrames (id : Nat) (a : Answer) (s : State) : State :=
  match askedAt StreamFrame.remote id s.pe.frames with
  | none => s
  | some (k, f) =>
    let s := learn s 0 f.remote a
    match a with
    | .data bs => streamOn (setFrame s k { f with remote := none, reply := if askedDesc f.remote then none else some bs }) f.k
    | .fail kind off addr =>
      frameParks s k f (askedHandle f.remote) (f.step != .look) (match f.step with | .look | .write .. => false | _ => true)
        (failMeet f.remote kind off addr)

/-- The answer at a slab that is moving here: its next line, a line that is poisoned there, or a path that is down (R183, R287). -/
def answerPulls (id : Nat) (a : Answer) (s : State) : State :=
  match askedAt SlabPull.remote id s.pe.pulls with
  | none => s
  | some (k, p) =>
    match a with
    | .data bs => takeLine s p (some ((List.range 4).flatMap (fun j => leBytes 16 (replyValue bs j))))
    | .fail .poison _ _ => takeLine s p none
    | .fail .. => { s with pe := { s.pe with pulls := s.pe.pulls.set k { p with remote := none } } }

/-- The answer at the service rings. -/
def answerRings (id : Nat) (a : Answer) (s : State) : State :=
  s.ho.rings.foldl
    (fun s r =>
      if !asked r.remote id then s
      else
        let s := learn s 0 r.remote a
        match a with
        | .data bs => setRing s (if askedDesc r.remote then { r with remote := none } else (r.answered bs))
        | .fail .. => setRing s { r with remote := none }) s

/-- The answer of a member of a share group to a DESC_SYNC: its copies are gone; where no answer comes it is asked again (R276). -/
def answerSyncs (id : Nat) (a : Answer) (s : State) : State :=
  match askedAt SyncAsk.remote id s.tb.syncs with
  | none => s
  | some (k, x) =>
    { s with tb := { s.tb with
        syncs := match a with | .data _ => s.tb.syncs.eraseIdx k | .fail .. => s.tb.syncs.set k { x with remote := none } } }

/-- A peer's answer reaches the access that asked, whoever made it. -/
def answer (s : State) (id : Nat) (a : Answer) : State :=
  let s := answerRelays id a (answerHost id a (answerWalkers id a (answerCwords id a (answerLaunch id a (answerBlocks id a s)))))
  answerSyncs id a (answerGates id a (answerPulls id a (answerFrames id a (answerRings id a s))))

end Sys2Proof.Machine
end

