-- ==== Sys2Proof/Machine/Peers.lean ====
section
/-! DEFINITION. Peer frames (R184, R220, R360, R361, R365, R366). The layout of a peer frame's payload is the model's own (log 14). -/

namespace Sys2Proof.Machine

/-! ## Receiving a frame (R220, R336, R360, R361) -/

/-- The key of a port and package. -/
def peerKey (port : BitVec 5) (pkg : Byte) : Nat := port.toNat * 256 + pkg.toNat

/-- The next sequence number expected from a package on a port. -/
def expectedSeq (s : State) (port : BitVec 5) (pkg : Byte) : Word :=
  ((s.pe.recvSeq.find? (fun x => x.1 == peerKey port pkg)).map (·.2)).getD 0

/-- Whether a frame reaches this package: it is for it, with a payload that R360 allows, on a port in peer mode that is up. -/
def frameHere (s : State) (f : PeerFrame) : Bool :=
  f.dpkg == s.pl.pkg && f.payload.length ≤ 8192
    && (match s.pe.ports[f.port.toNat]? with | some p => p.mode == 1 && portUp s p | none => false)

/-- Whether a frame is taken: its tag is good, and it is next in its sequence (R336, R361). -/
def frameTaken (s : State) (f : PeerFrame) : Bool := f.good && frameHere s f && f.seq == expectedSeq s f.port f.spkg

/-- On receipt PCLK := Max(PCLK, carried) + 1 (R220). -/
def mergePeer (s : State) (carried : DWord) : State :=
  { s with tm := { s.tm with pclk := maxStamp s.tm.pclk carried + 1 } }

/-- A frame that another one repeats counts as taken on its own port (R361; log 14). -/
def takeAgain (s : State) (f : PeerFrame) : State :=
  match f.again with
  | none => s
  | some (port, seq) =>
    if (seq - expectedSeq s port f.spkg).toNat < 2 ^ 31 then
      let key := peerKey port f.spkg
      { s with pe := { s.pe with recvSeq := (key, seq + 1) :: s.pe.recvSeq.filter (fun x => x.1 != key) } }
    else s

/-- Whether a frame repeats one that was taken on its own port: nothing is performed again (R361; log 14). -/
def takenBefore (s : State) (f : PeerFrame) : Bool :=
  match f.again with
  | none => false
  | some (port, seq) => !((seq - expectedSeq s port f.spkg).toNat < 2 ^ 31)

/-- The cumulative acknowledgement of a frame (R361). -/
def ackOf (s : State) (f : PeerFrame) : PeerFrame :=
  { good := true, port := f.port, dpkg := f.spkg, spkg := s.pl.pkg, stat := 0, seq := f.seq, pclk := s.tm.pclk, handle := 0,
    offset := f.seq.setWidth 64, payload := [], again := none }

/-- Take a frame: its clock is merged, and the acknowledgement that goes back to its package on its port names it (R361). -/
def takeFrame (s : State) (f : PeerFrame) : State :=
  let key := peerKey f.port f.spkg
  let s := takeAgain (mergePeer s f.pclk) f
  { s with pe := { s.pe with
      recvSeq := (key, f.seq + 1) :: s.pe.recvSeq.filter (fun x => x.1 != key)
      acks := ackOf s f :: s.pe.acks.filter (fun a => !(a.port == f.port && a.dpkg == f.spkg)) } }

/-- A frame arrives: one whose tag fails is dropped and counted, another that is not taken is ignored, and its sender retransmits it
(R336, R361). -/
def onFrame (s : State) (f : PeerFrame) (k : State → State) : Out :=
  .next
    (if !f.good && frameHere s f then dropFrame s f.port.toNat
     else if !frameTaken s f then s
     else if takenBefore s f then takeFrame s f
     else k s)

/-- The identifier of a request or reply. -/
def frameId (f : PeerFrame) : Nat := leNat (f.payload.take 8)

/-- The body behind the identifier. -/
def frameBody (f : PeerFrame) : List Byte := f.payload.drop 8

/-- Reply to a frame on its port. -/
def replyTo (s : State) (f : PeerFrame) (op : Nat) (stat : Byte) (body : List Byte) : State :=
  sendOn s f.port.toNat f.spkg.toNat op stat f.handle f.offset (f.payload.take 8 ++ body)

/-- A value of a reply: 16 bytes. -/
def wireValue (v : Nat) : List Byte := leBytes 16 v

/-- Whether a package may reach an object: a group's object only its members that are not lost (R365). -/
def admitted (s : State) (h : DWord) (pkg : Byte) : Bool :=
  match s.pe.groups.find? (fun g => hObj g.index == hObj h) with
  | some g => g.members.contains pkg && !g.lost.contains pkg
  | none => true

/-- A peer as the agent of an access on this package. -/
def peerWho (s : State) (d : BitVec 512) : Who := ⟨0, lowDie s, dOwner d, 6, false⟩

/-- The answer to a stop of object memory at the owner. -/
def stopStat (m : Meet) : Byte := if m.kind == .poison then 2 else 1

/-- The body of such an answer: where a poisoned line stands (R284; log 14). -/
def stopBody (m : Meet) : List Byte := if m.kind == .poison then leBytes 8 m.off ++ leBytes 8 m.addr else []

/-- Ask the home of a frame's object for its descriptor, which this package needs to serve the frame; one request at a time. -/
def wantDesc (s : State) (f : PeerFrame) (pkg : Nat) : State :=
  if s.pe.relays.any (fun r => r.op == 0 && r.frame.handle == f.handle) then s
  else
    match sendRequest s pkg opRead f.handle descOffset (some f.handle) [] with
    | some (m, s) => { s with pe := { s.pe with relays := s.pe.relays ++ [⟨m.id, 0, f⟩] } }
    | none => s

/-- Pass a request on to the package that holds the slab, whose answer goes back to the requester (R278). -/
def passOn (s : State) (f : PeerFrame) (op pkg : Nat) : State :=
  match sendRequest s pkg op f.handle f.offset.toNat none (frameBody f) with
  | some (m, s) => { s with pe := { s.pe with relays := s.pe.relays ++ [⟨m.id, op, f⟩] } }
  | none => replyTo s f (op + 1) 1 []

/-- Serve a request that is next in its sequence with its object's descriptor: a package that is not admitted receives REFUSED, and a frame
whose object's descriptor is not here yet is not taken, so that its sender retransmits it. The reply's operation code follows the request's. -/
def serveTaken (s : State) (f : PeerFrame) (op : Nat) (k : BitVec 512 → State → State) : State :=
  if !admitted s f.handle f.spkg then replyTo (takeFrame s f) f (op + 1) 1 []
  else
    match resolve s ⟨0, lowDie s, 0, 6, false⟩ f.handle 0 with
    | (.ok d _, s) => k d (takeFrame s f)
    | (.trap _, s) => replyTo (takeFrame s f) f (op + 1) 1 []
    | (.park m, s) => replyTo (takeFrame s f) f (op + 1) (stopStat m) (stopBody m)
    | (.ask pkg, s) => wantDesc s f pkg

/-- Serve a request frame. -/
def servePeer (s : State) (f : PeerFrame) (op : Nat) (k : BitVec 512 → State → State) : Out :=
  onFrame s f (fun s => serveTaken s f op k)

/-- The answer to an access of object memory: its values, a stop, or the package that holds the slab. -/
def replyAcc {α : Type} (s : State) (f : PeerFrame) (op : Nat) (r : Acc α) (values : α → List Byte) : State :=
  match r with
  | .ok v _ => replyTo s f (op + 1) 0 (values v)
  | .park m => replyTo s f (op + 1) (stopStat m) (stopBody m)
  | .peer pkg => passOn s f op pkg

/-! ## Requests (R360) -/

/-- The fields of a request body: 11 bytes each. -/
def bodyFields : Nat → List Byte → List Field
  | 0, _ => []
  | n + 1, bs =>
    if bs.length < 11 then []
    else ⟨leNat (bs.take 8), leNat ((bs.drop 8).take 1), leNat ((bs.drop 9).take 2)⟩ :: bodyFields n (bs.drop 11)

/-- The fields and values of a write body: 27 bytes each. -/
def bodyWrites : Nat → List Byte → List (Field × Nat)
  | 0, _ => []
  | n + 1, bs =>
    if bs.length < 27 then []
    else
      (⟨leNat (bs.take 8), leNat ((bs.drop 8).take 1), leNat ((bs.drop 9).take 2)⟩, leNat ((bs.drop 11).take 16))
        :: bodyWrites n (bs.drop 27)

/-- Little-endian words of 8 bytes, n of them. -/
def bodyWords (n : Nat) (bs : List Byte) : List Nat := (List.range n).map (fun i => leNat ((bs.drop (8 * i)).take 8))

/-- PEER_READ: a descriptor, words of a counter object, or fields of a shard, with this package's clock as stamp (R184, R223, R365). -/
def execPeerRead (f : PeerFrame) (s : State) : Out :=
  if f.offset.toNat == descOffset then
    onFrame s f (fun s =>
      let ok := admitted s f.handle f.spkg
      let s := takeFrame s f
      if !ok then replyTo s f opReadReply 1 []
      else
        match readDesc s (hIndex f.handle) with
        | .ok d => replyTo s f opReadReply 0 (leBytes 64 d.toNat)
        | .error m => replyTo s f opReadReply (stopStat m) (stopBody m))
  else
    servePeer s f opRead (fun d s =>
      let body := frameBody f
      let sh := leNat (body.take 1)
      let fs := bodyFields body.length (body.drop 1)
      if dKind d == kCounter then
        replyTo s f opReadReply 0 (fs.flatMap (fun x => wireValue (leNat (Memory.chip s.mem (counterAddr d 0 + x.off) x.len))))
      else
        let (r, s) := objReadFor s (peerWho s d) f.handle d sh fs
        replyAcc s f opRead r (fun vs => vs.flatMap wireValue))

/-- PEER_WRITE: fields of a shard, or of a replica that the home brings up to date, with the lines that are written in full and the watches
that the write fires (R183, R184, R223, R328). -/
def execPeerWrite (f : PeerFrame) (s : State) : Out :=
  servePeer s f opWrite (fun d s =>
    let body := frameBody f
    let sh := leNat (body.take 1)
    let c := leNat ((body.drop 1).take 1)
    let whole := bodyWords (c % 128) (body.drop 2)
    let rest := body.drop (2 + 8 * (c % 128))
    let xs := bodyWrites rest.length rest
    let who := peerWho s d
    let (r, s) := objWriteFor s who f.handle d sh (xs.map (·.1)) (xs.map (·.2)) whole
    let fire (s : State) (x : Field × Nat) : State := fireTouched s who f.handle d sh x.1.off x.1.len
    let s := match r with | .ok _ _ => if 128 ≤ c then xs.foldl fire s else s | _ => s
    replyAcc s f opWrite r (fun _ => []))

/-- Combine elements for a peer (R209, R211): `w` holds the operation, the format of x, the rounding mode and whether watches fire, and the
values follow with their elements' linear indices. -/
def combineFor (s : State) (f : PeerFrame) (d : BitVec 512) (bs : List Byte) : State :=
  let who := peerWho s d
  let w := leNat (bs.take 8)
  let op : RedOp := match bits w 0 8 with | 1 => .min | 2 => .max | _ => .add
  let ws := bodyWords (bs.length / 8 - 1) (bs.drop 8)
  let xs := (List.range (ws.length / 2)).map (fun i => (ws.getD (2 * i) 0, ws.getD (2 * i + 1) 0))
  let a : Access := ⟨fun s sh fs => objReadFor s who f.handle d sh fs, fun s sh fs vs => objWriteFor s who f.handle d sh fs vs []⟩
  let (r, s) := combineBy a s f.handle d op (bits w 8 8) (RMode.of (BitVec.ofNat 3 (bits w 16 3))) (bitAt w 20) xs
  replyAcc s f opAtomic r (fun fl => wireValue fl.toNat)

/-! ## An `sgate` update of another package (R169, R172; log 14) -/

/-- The token block that a part of an update names. -/
def gateBlock (bs : List Byte) : Nat := leNat ((bs.drop 1).take 8)

/-- The parts of an update that have come, with a further one. -/
def gateParts (s : State) (f : PeerFrame) (bs : List Byte) : List Byte :=
  match s.pe.gates.find? (fun g => g.pkg == f.spkg && g.id == frameId f) with
  | some g => g.bytes ++ bs.drop 27
  | none => bs.drop 27

/-- Whether this is the last part of an update. -/
def gateWhole (s : State) (f : PeerFrame) (bs : List Byte) : Bool := leNat ((bs.drop 11).take 8) ≤ (gateParts s f bs).length

/-- Replace the parts of a request's update. -/
def setGates (s : State) (f : PeerFrame) (g : List GatePart) : State :=
  { s with pe := { s.pe with gates := g ++ s.pe.gates.filter (fun g => !(g.pkg == f.spkg && g.id == frameId f)) } }

/-- An `sgate` update of another package goes on: its next part at a further package, or its end, whose reply is the count read (R169, R172). -/
def gateJobGo (s : State) (g : GateJob) : Option GateJob × State :=
  let f := g.frame
  let who (d : BitVec 512) : Who := peerWho s d
  match resolve s ⟨0, lowDie s, 0, 6, false⟩ f.handle 0 with
  | (.trap _, s) => (none, replyTo s f opAtomicReply 1 [])
  | (.park m, s) => (none, replyTo s f opAtomicReply (stopStat m) (stopBody m))
  | (.ask .., s) => (some g, s)
  | (.ok d _, s) =>
    match gateGo s (who d) f.handle d 0 g.j g.count g.skip g.x (some g.far) with
    | (.done, s) => (none, replyTo s f opAtomicReply 0 (wireValue g.count))
    | (.stop m, s) => (none, replyTo s f opAtomicReply (stopStat m) (stopBody m))
    | (.ask p rest, s) =>
      match sendRequest s p.pkg opWrite f.handle p.off none p.body with
      | some (r, s) => (some { g with far := p :: rest, remote := some r }, s)
      | none => (none, replyTo s f opAtomicReply 1 [])

/-- The updates of other packages that wait for no answer go on. -/
def settleGates (s : State) : State :=
  let go (a : List GateJob × State) (g : GateJob) : List GateJob × State :=
    if g.remote.isSome then (a.1 ++ [g], a.2)
    else let (x, s) := gateJobGo a.2 g; (a.1 ++ x.toList, s)
  let (gs, s) := s.pe.gateJobs.foldl go ([], s)
  { s with pe := { s.pe with gateJobs := gs } }

/-- Perform an update whose parts have all come: the count is read, and what this package holds of the block is written, in one step where no
further package holds a part; the reply is the count read (R169, R172). -/
def gateFor (s : State) (f : PeerFrame) (d : BitVec 512) (bs : List Byte) : State :=
  let j := gateBlock bs
  let x := gateParts s f bs
  let who := peerWho s d
  let s := setGates s f []
  match objReadFrom true s who f.handle d 0 0 ((gateFields d j).drop 1) with
  | (.park m, s) => replyTo s f opAtomicReply (stopStat m) (stopBody m)
  | (.peer _, s) => replyTo s f opAtomicReply 1 []
  | (.ok vs _, s) =>
    let c := vs.getD 0 0
    let skip := leNat ((bs.drop 9).take 1) == 1 && c < leNat ((bs.drop 10).take 1)
    match writeGate s who f.handle d 0 j c skip x with
    | (.error m, s) => replyTo s f opAtomicReply (stopStat m) (stopBody m)
    | (.ok ys, t) =>
      if ys.isEmpty then replyTo t f opAtomicReply 0 (wireValue c)
      else
        let g : GateJob := ⟨f, j, c, skip, x, gateParted d j c skip x ys, none⟩
        settleGates { s with pe := { s.pe with gateJobs := s.pe.gateJobs ++ [g] } }

/-- A part of an update arrives; the last one waits, untaken, for the updates of its token block that are under way here. -/
def execGatePart (f : PeerFrame) (bs : List Byte) (s : State) : Out :=
  onFrame s f (fun s =>
    if !gateWhole s f bs then
      let s := setGates s f [⟨f.spkg, frameId f, gateParts s f bs⟩]
      takeFrame s f
    else if gatePending s f.handle (gateBlock bs) || gateClaimed s ⟨2 ^ 64, 0⟩ f.handle (gateBlock bs) then s
    else serveTaken s f opAtomic (fun d s => gateFor s f d bs))

/-! ## Atomics and publishes (R181, R196, R221, R360) -/

/-- A request that needs no descriptor: the end of leases and reads, the slabs of an object, its synchronisation, or its loss (R218, R219,
R276, R287, R356; log 14). -/
def plainRequest (code : Nat) : Bool := [21, 22, 24, 25, 26, 30, 31, 32, 33, 34].contains code

/-- The wire code that tells a home that a slab of its object is lost with a pool extent (R185; log 14). -/
def wLost : Nat := 34

/-- Mark an object of this package lost (R185). -/
def loseObject (s : State) (h : DWord) : State :=
  match readDesc s (hIndex h) with
  | .ok d => if dKind d == 0 || dGen d != hGen h then s else setRes (shootObject s h) h d 6
  | .error _ => s

/-- Serve such a request. -/
def servePlain (s : State) (f : PeerFrame) (code : Nat) (bs : List Byte) : State :=
  if code == wSync then syncFor s f bs
  else if code == wLost then replyFrame (loseObject s f.handle) f [1]
  else if 30 ≤ code then
    let (st, s) := slabsFor s f.handle code bs
    replyFrame s f [st]
  else endFor s f code bs

/-- PEER_ATOMIC: an atomic at the home atomic unit, a read of a version, the combination of elements, a lease or race check, an `sgate`
update, or what Lolen asks of another package (R169, R181, R196, R215, R217, R360). -/
def execPeerAtomic (f : PeerFrame) (s : State) : Out :=
  let bs := frameBody f
  let code := leNat (bs.take 1)
  if code == 14 then execGatePart f bs s
  else if plainRequest code then
    onFrame s f (fun s =>
      if admitted s f.handle f.spkg then servePlain (takeFrame s f) f code bs else replyTo (takeFrame s f) f opAtomicReply 1 [])
  else
    servePeer s f opAtomic (fun d s =>
      if code == 13 then combineFor s f d (bs.drop 1)
      else if code == wLease then leaseFor s f bs
      else if code == wRead then readFor s f bs
      else if code == 9 then
        match readDesc s (hIndex f.handle) with
        | .ok d => replyTo s f opAtomicReply 0 (wireValue (dVersion d) ++ wireValue (dStamp d))
        | .error m => replyTo s f opAtomicReply (stopStat m) (stopBody m)
      else
        let i := leNat ((bs.drop 1).take 8)
        let (v, s) := atomicHere s f.handle d (wireOp code) i (leDWord ((bs.drop 9).take 8)) (leDWord ((bs.drop 17).take 8))
        replyTo s f opAtomicReply 0 (wireValue v.toNat))

/-- PEER_PUBLISH at the object's home: `publish`, which closes the block's leases on the object, the version that an `sstep` asks for in 8
bytes, or a publish of Lolen's (R171, R219, R221, R360). -/
def execPeerPublish (f : PeerFrame) (s : State) : Out :=
  servePeer s f opAtomic (fun d s =>
    let bs := frameBody f
    let next := leNat bs
    let step := bs.length == 8
    if step && next ≤ dVersion d then replyTo s f opAtomicReply 0 (wireValue (dVersion d))
    else
      match publishHere s f.handle 0 (fun v => if step then next else v + 1) with
      | .error m => replyTo s f opAtomicReply (stopStat m) (stopBody m)
      | .ok (v, _, s) =>
        let s := if bs.length == 9 then closeFor s f (bodyBlock bs) else s
        replyTo s f opAtomicReply 0 (wireValue v.toNat))

/-! ## Replies and acknowledgements (R360, R361) -/

/-- A reply with its status as the answer to its access: the sender's clock is the stamp (R184, R360). -/
def answerOf (f : PeerFrame) : Answer :=
  let bs := frameBody f
  if f.stat == 0 then .data (leBytes 8 f.pclk.toNat ++ bs)
  else if f.stat == 2 then .fail .poison (leNat (bs.take 8)) (leNat ((bs.drop 8).take 8))
  else .fail .missing 0 0

/-- Take a reply frame and hand it to the access that asked. -/
def takeReply (f : PeerFrame) (s : State) : Out :=
  onFrame s f (fun s => settleGates (answer (takeFrame s f) (frameId f) (answerOf f)))

/-- PEER_READ_REPLY (R360). -/
def execPeerReadReply (f : PeerFrame) (s : State) : Out := takeReply f s
/-- PEER_WRITE_ACK (R360). -/
def execPeerWriteAck (f : PeerFrame) (s : State) : Out := takeReply f s
/-- PEER_ATOMIC_REPLY (R360). -/
def execPeerAtomicReply (f : PeerFrame) (s : State) : Out := takeReply f s

/-- PEER_CUMULATIVE_ACK: the frames up to the acknowledged number are released (R361). -/
def execPeerCumulativeAck (f : PeerFrame) (s : State) : Out :=
  if !frameHere s f then .next s
  else if !f.good then .next (dropFrame s f.port.toNat)
  else
    let acked := f.offset.setWidth 32
    let done : OutFrame → Bool := fun o => o.f.port == f.port && o.f.dpkg == f.spkg && (acked - o.f.seq).toNat < 2 ^ 31
    .next (mergePeer { s with pe := { s.pe with out := s.pe.out.filter (fun o => !done o) } } f.pclk)

/-- The requests among a list of frames fail as on a path that is down (R361). -/
def failRequests (s : State) (fs : List OutFrame) : State :=
  (fs.filter (fun o => [opRead, opWrite, opAtomic, opPublish].contains o.op)).foldl
    (fun s o => answer s (frameId o.f) (.fail .missing 0 0)) s

/-- Send a frame of a path that is down again on an open port of the route, chosen as for a request; it names the frame that it repeats (R361;
log 14). -/
def sendAgain (s : State) (ports : List Nat) (o : OutFrame) : State :=
  match ports[Config.portHash o.f.handle (o.f.offset.toNat / 65536) % max 1 ports.length]? with
  | none => s
  | some port =>
    let pkg := o.f.dpkg.toNat
    let seq := nextSeq s port pkg
    let again := match o.f.again with | some x => some x | none => some (o.f.port, o.f.seq)
    let s := sendOn s port pkg o.op o.f.stat o.f.handle o.f.offset o.f.payload
    let mark (x : OutFrame) : OutFrame :=
      if x.f.port.toNat == port && x.f.dpkg == o.f.dpkg && x.f.seq == seq then { x with f := { x.f with again := again } } else x
    { s with pe := { s.pe with out := s.pe.out.map mark } }

/-- PEER_RETRANSMIT of a port's oldest unacknowledged frames to a package; after 16 times the path is down: the frames go to another port of the
route, and where every path is down the accesses that wait on them park with kind MISSING (R361). -/
def execPeerRetransmit (port : BitVec 5) (dst : BitVec 8) (s : State) : Out :=
  let mine : OutFrame → Bool := fun o => o.f.port == port && o.f.dpkg == dst
  let fs := s.pe.out.filter mine
  if fs.isEmpty then .next s
  else if fs.any (fun o => 16 ≤ o.tries) then
    let s := { s with pe := { s.pe with
      out := s.pe.out.filter (fun o => !mine o), pathDown := (port.toNat, dst.toNat) :: s.pe.pathDown } }
    let ports := openPorts s dst.toNat
    .next (if ports.isEmpty then failRequests s fs else fs.foldl (fun s o => sendAgain s ports o) s)
  else .next { s with pe := { s.pe with out := s.pe.out.map (fun o => if mine o then { o with tries := o.tries + 1 } else o) } }

/-! ## Share groups (R365, R366) -/

/-- The service requests that wait for a package which a group refuses complete MEMBER_REFUSED: those that have a request to it under way about
the group's object (R365; log 28). -/
def refuseRings (s : State) (h : DWord) (pkg : Byte) : State :=
  let waits (r : SvcRing) : Bool := match r.remote with | some m => m.pkg == pkg.toNat && hObj m.handle == hObj h | none => false
  (s.ho.rings.filter waits).foldl (fun s r => finishRequest s r svREFUSED none) s

/-- A member attests anew: it is admitted, and the epoch rises, where its measurement equals the policy, and is refused otherwise (R365;
log 28). -/
def attest (s : State) (h : DWord) (pkg : Byte) : State :=
  let g := groupOf s h
  if !g.members.contains pkg then s
  else
    let (ok, s) := meets g.policy s
    if ok then updGroup s h (fun g => { g.raise with lost := g.lost.filter (· != pkg) }) else refuseRings s h pkg

/-- A group that another package has formed, with this one among its members: the members that do not meet the policy are not admitted here, and
this package's slabs of the object are zero-filled (R356, R365). -/
def joinGroup (s : State) (f : PeerFrame) (bs : List Byte) : State :=
  let policy := bs.take 48
  let d : BitVec 512 := BitVec.ofNat 512 (leNat ((bs.drop 48).take 64))
  let members := bs.drop 112
  let (bad, s) := refused policy s members
  let s := addGroup (hostDesc s f.handle d) (Group.new f.handle members (f.offset.setWidth 32) bad policy)
  ((localSlabs s f.handle d).map (·.2)).foldl zeroSlab s

/-- What a member does about a round of a collective, by the code of a control frame (R366; log 14). -/
def roundFor (s : State) (f : PeerFrame) (code : Nat) (r : Round) : State :=
  let h := f.handle
  let g := groupOf s h
  if !g.active.contains f.spkg then s
  else if code == kDone then noteDone s h f.spkg r
  else if code == kAsk then noteAsk s h f.spkg r
  else if code == kQuery then tellRound h (if g.commit == some r then kCommit else kAsk) r s f.spkg
  else if code == kAbort then (if g.coordinator == f.spkg then updGroup s h (fun g => { g with aborted := some r }) else s)
  else if code == kCommit && g.coordinator == f.spkg then recordCommit s h r
  else if code == kCommit && g.coordinator == s.pl.pkg && g.commit != some r then
    ((g.others s).filter (· != f.spkg)).foldl (tellRound h kCommit r) (recordCommit s h r)
  else s

/-- PEER_CONTROL: what a member or the coordinator says about a collective, an attestation, the forming of a group, or only a sign that the member
lives (R365, R366; log 14). -/
def execPeerControl (f : PeerFrame) (s : State) : Out :=
  onFrame s f (fun s =>
    let s := takeFrame s f
    let bs := frameBody f
    let code := leNat (bs.take 1)
    if code == kAttest then attest s f.handle f.spkg
    else if code == kGroup then joinGroup s f (bs.drop 1)
    else roundFor s f code ⟨BitVec.ofNat 32 (leNat ((bs.drop 1).take 4)), BitVec.ofNat 32 (leNat ((bs.drop 5).take 4))⟩)

/-- SHARE_MEMBER_LOST: the groups of a silent member lose it, and their epochs rise; a collective whose commit is recorded goes on, and the lost
member's shard of its destination is lost (R365, R366). -/
def execShareMemberLost (pkg : BitVec 8) (s : State) : Out :=
  let loses (g : Group) : Bool := g.members.contains pkg && !g.lost.contains pkg && pkg != s.pl.pkg
  let hit := s.pe.groups.filter loses
  let lose (g : Group) : Group := if loses g then { g.raise with lost := pkg :: g.lost } else g
  let s := { s with pe := { s.pe with groups := s.pe.groups.map lose } }
  let settle (s : State) (g : Group) : State :=
    let s := (s.pe.colls.filter (fun c => hObj c.dst == hObj g.index)).foldl
      (fun s c => if committed s c then loseShards s c.dst c.members else s) s
    let anew (c : Coll) : Coll := if hObj c.dst == hObj g.index then { c with asked := false } else c
    let s := { s with pe := { s.pe with colls := s.pe.colls.map anew } }
    let x := groupOf s g.index
    match x.asks with
    | (_, r) :: _ => if x.coordinator == s.pl.pkg then noteAsk s g.index s.pl.pkg r else s
    | [] => s
  .next (settleSyncs (hit.foldl settle s))

end Sys2Proof.Machine
end

