-- ==== Sys2Proof/Machine/Pool.lean ====
section
/-! DEFINITION. The CXL pool: extents offered, withdrawn and released (R182, R185, R367, R368). -/

namespace Sys2Proof.Machine

/-- The CXL port whose pool window holds an address (R182): the windows are the two upper quarters of the 52-bit space. -/
def poolPort (a : Nat) : Bool := a / 2 ^ 50 == 3

/-- POOL_EXTENT_OFFER: Lolen accepts an extent of 2 MiB multiples in the pool window of a port that is up, of a device with the vendor DVSEC,
and refuses every other (R182, R185, R367). -/
def execPoolExtentOffer (base len : Nat) (dvsec : Bool) (s : State) : Out :=
  let ok := dvsec && len != 0 && base % 2 ^ 21 == 0 && len % 2 ^ 21 == 0 && isPool base && isPool (base + len - 1)
    && poolPort base == poolPort (base + len - 1) && !s.pl.linksDown.contains (.cxl (poolPort base))
    && s.pe.extents.all (fun e => base + len ≤ e.1 || e.1 + e.2 ≤ base)
  .next (if ok then { s with pe := { s.pe with extents := s.pe.extents ++ [(base, len)] } } else s)

/-! ## The objects in an extent -/

/-- The package's live objects: the descriptors of the directory's present pages, with their handles. -/
def liveObjects (s : State) : List (DWord × BitVec 512) :=
  let lo := s.tb.otdir.toNat
  let home := s.pl.pkg.toNat
  let pages := ((Memory.slice s.mem lo (lo + 2 ^ 25)).map (fun c => (c.1 - lo) / 8)).eraseDups
  pages.flatMap (fun k => (List.range 1024).filterMap (fun j =>
    match readDesc s (k * 1024 + j) with
    | .ok d => if dKind d != 0 && dOk s home d then some (handleOf home (k * 1024 + j) (dGen d), d) else none
    | .error _ => none))

/-- The slabs of an object that lie in an extent. -/
def slabsIn (s : State) (base len : Nat) (x : DWord × BitVec 512) : List (SlabAt × Nat) :=
  if dKind x.2 == kCounter then []
  else (localSlabs s x.1 x.2).filter (fun y => base ≤ y.2 && y.2 < base + len)

/-- The objects with a slab in an extent, those of other packages among them (R185, R368; log 15). -/
def objectsIn (s : State) (base len : Nat) : List (DWord × BitVec 512) :=
  (liveObjects s ++ s.tb.hosted).filter (fun x => !(slabsIn s base len x).isEmpty)

/-! ## Requests in flight to a withdrawn extent (R185) -/

/-- Where an access to fields of a shard meets an extent: a poisoned line. -/
def meetsExtent (s : State) (base len : Nat) (who : Who) (h : DWord) (d : BitVec 512) (write : Bool) (x : Nat × List Field) :
    Option Meet :=
  match holderOf s h d x.1 0 write with
  | .error _ => none
  | .ok e =>
    if e.pkg != s.pl.pkg.toNat then none
    else
      match (byteAddrs s who h d e write (fieldOffs x.2)).1 with
      | .ok as _ =>
        (as.find? (fun a => base ≤ a && a < base + len)).map
          (fun a => ⟨.poison, e.shard, (x.2.head?.map Field.off).getD 0, 0, a / 64 * 64⟩)
      | _ => none

/-- The descriptor that an access under way uses. -/
def heldDesc (s : State) (who : Who) (h : DWord) : Option (BitVec 512) := match (resolve s who h 0).1 with | .ok d _ => some d | _ => none

/-- Where an access of an object under way meets an extent. -/
def flightMeets (s : State) (base len : Nat) (who : Who) (h : DWord) (write : Bool) (fields : BitVec 512 → List (Nat × List Field)) :
    Option Meet :=
  (heldDesc s who h).bind (fun d => (fields d).findSome? (meetsExtent s base len who h d write))

/-- An outstanding load whose request is in flight to the extent parks as at a poisoned line. -/
def cutLoad (base len : Nat) (b : Block) (l : ObjLoad) (s : State) : ObjLoad × State :=
  let fields (d : BitVec 512) : List (Nat × List Field) :=
    match l.op with
    | .elem => [indexFields d l.index]
    | .skipWord w => [(0, [skipField d w])]
    | _ => []
  if l.park.isSome || l.remote.isSome || l.reply.isSome || !l.waits.isEmpty then (l, s)
  else
    match flightMeets s base len (b.who 0) l.handle false fields with
    | some m => let (p, s) := park s (b.who 0) l.handle false false m; ({ l with park := some p }, s)
    | none => (l, s)

/-- The same of a posted write: its data are discarded, and it is replayed once its record is resolved. -/
def cutPosted (base len : Nat) (b : Block) (x : Posted) (s : State) : Posted × State :=
  let one (h : DWord) (fields : BitVec 512 → List (Nat × List Field)) : Posted × State :=
    match flightMeets s base len (b.who 0) h true fields with
    | some m => let (p, s) := park s (b.who 0) h true false m; (x.setPark (some p), s)
    | none => (x, s)
  match x with
  | .sto _ h i _ _ [] none none => one h (fun d => [((indexFields d i).1, (indexFields d i).2.take 1)])
  | .gate u =>
    if u.park.isSome || u.remote.isSome then (x, s)
    else one u.handle (fun d => (gateWrites d u.j u.count u.skip u.x).map (fun y => (y.1.1, [y.1.2])))
  | x => (x, s)

/-- The elements that a started command has still to move: of its first and of its second object. -/
def leftFields (c : Cmd) (j : Job) : List (Nat × List Field) × List (Nat × List Field) :=
  let of (d : BitVec 512) (ps : List (Option (List Nat))) : List (Nat × List Field) :=
    ((ps.drop c.moved).filterMap id).map (elemFields d)
  (of (objAt j.ds 0) j.pos, of (objAt j.ds 1) j.pos2)

/-- The same of a started command. -/
def cutCmd (base len : Nat) (b : Block) (c : Cmd) (s : State) : Cmd × State :=
  let who := b.who c.eng.agent.code
  if c.park.isSome || c.remote.isSome || c.off || c.skipEnd then (c, s)
  else
    match (resolveUses { s with blk := b } c 256 c.objUses).1 with
    | .error _ => (c, s)
    | .ok ds =>
      let j := jobOf c ds
      let left := leftFields c j
      let at_ (k : Nat) (xs : List (Nat × List Field)) : Option (DWord × Bool × Meet) :=
        match c.objUses[k]? with
        | some u => (xs.findSome? (meetsExtent s base len who u.h (objAt ds k) u.write)).map (fun m => (u.h, u.write, m))
        | none => none
      match (at_ 0 left.1).orElse (fun _ => at_ 1 left.2) with
      | some (h, w, m) => let (p, s) := park s who h w false m; ({ c with park := some p }, s)
      | none => (c, s)

/-- The same of an engine's started commands. -/
def cutEngine (base len : Nat) (b : Block) (q : EngineQ) (s : State) : EngineQ × State :=
  let (r, s) := mapState (cutCmd base len b) q.run.toList s
  let (os, s) := mapState (cutCmd base len b) q.trail s
  ({ q with run := r.head?, trail := os }, s)

/-- The same of a block. -/
def cutBlock (base len : Nat) (b : Block) (s : State) : Block × State :=
  let (ls, s) := mapState (cutLoad base len b) b.loads s
  let (ps, s) := mapState (cutPosted base len b) b.posted s
  let (qF, s) := cutEngine base len b b.eF s
  let (qP, s) := cutEngine base len b b.eP s
  ({ b with loads := ls, posted := ps, eF := qF, eP := qP }, s)

/-- The handle of a host request's aperture. -/
def HostReq.handle (s : State) (q : HostReq) : DWord :=
  match q.place with
  | .aperture a _ => BitVec.ofNat 64 (apWord s q.fn a 0)
  | _ => 0

/-- The host requests in flight to an extent complete POISON (R185, R415). -/
def cutHost (base len : Nat) (s : State) : State :=
  let hits (q : HostReq) : Bool :=
    match q.place with
    | .aperture a o =>
      let h := q.handle s
      let fields (d : BitVec 512) : List (Nat × List Field) :=
        let at_ := apWord s q.fn a 1 / 65536 * 65536 + o
        let stride := max 1 (up64K (payloadBytes d))
        [(at_ / stride, wordFields (at_ % stride) q.len)]
      q.park.isNone && q.remote.isNone && (flightMeets s base len (hostWho s q.fn) h q.data.isSome fields).isSome
    | _ => false
  let gone := s.ho.reqs.filter hits
  gone.foldl (fun s q => hostDone s q.port q.tag gPOISON []) { s with ho := { s.ho with reqs := s.ho.reqs.filter (fun q => !hits q) } }

/-- Every request in flight to an extent completes poisoned (R185). -/
def cutFlight (s : State) (base len : Nat) : State :=
  let (b, s) := cutBlock base len s.blk s
  let (bs, s) := mapState (cutBlock base len) s.others s
  cutHost base len { s with blk := b, others := bs }

/-! ## Withdrawal and release (R185, R368) -/

/-- An extent leaves the pool regions, its lines are gone, and it is acknowledged. -/
def endExtent (s : State) (base len : Nat) : State :=
  { s with
    mem := Memory.dropRange s.mem base (base + len)
    pe := { s.pe with extents := s.pe.extents.filter (· != (base, len)), poolAcks := s.pe.poolAcks ++ [(base, len)] } }

/-- Withdraw an extent: requests in flight complete poisoned, and every object with a slab there is lost; the homes of other packages' objects
hear of it (R185). -/
def withdrawExtent (s : State) (e : Nat × Nat) : State :=
  let hit := objectsIn s e.1 e.2
  let s := cutFlight s e.1 e.2
  let lose (s : State) (x : DWord × BitVec 512) : State :=
    if hHome x.1 == s.pl.pkg.toNat then setRes (shootObject s x.1) x.1 x.2 6
    else tell (shootObject s x.1) (hHome x.1) x.1 (leBytes 1 wLost)
  endExtent (hit.foldl lose s) e.1 e.2

/-- POOL_EXTENT_WITHDRAWN: a forced release (R185, R368). -/
def execPoolExtentWithdrawn (base len : Nat) (s : State) : Out :=
  .next (if s.pe.extents.contains (base, len) then withdrawExtent s (base, len) else s)

/-- The extents of a CXL port are withdrawn when its link goes down (R368). -/
def cxlDown (s : State) (port : Bool) : State := (s.pe.extents.filter (fun e => poolPort e.1 == port)).foldl withdrawExtent s

/-- Whether frames of a world stand in HBM or spill DRAM. -/
def framesLocal (s : State) (world : BitVec 14) (frames : List Nat) : Bool :=
  frames.all (fun gpa => framesSuit s world 0 [gpa] || framesSuit s world 1 [gpa])

/-- The slabs of objects with the frames that they move to: an object's slabs take the next frames. -/
def pairFrames : List ((DWord × BitVec 512) × List (SlabAt × Nat)) → List Nat → List ((DWord × BitVec 512) × List ((SlabAt × Nat) × Nat))
  | [], _ => []
  | (x, ys) :: xs, fs => (x, ys.zip fs) :: pairFrames xs (fs.drop ys.length)

/-- Move an object's slabs out of an extent; one of this package that has none left in a pool region is no pool object any more (R287). -/
def leaveExtent (s : State) (x : (DWord × BitVec 512) × List ((SlabAt × Nat) × Nat)) : State :=
  let ((h, d), ys) := x
  let s := ys.foldl (fun s y => moveSlab s (dOwner d) y.1 y.2) (shootObject s h)
  if hHome h != s.pl.pkg.toNat || dRes d != 3 || (localSlabs s h d).any (fun y => isPool y.2) then s
  else setRes s h d (if framesSuit s (dOwner d) 0 (ys.map (·.2)) then 0 else 1)

/-- POOL_RELEASE_REQUEST: Lolen moves the extent's slabs to HBM or spill DRAM and then acknowledges (R287, R368); `frames` are the
guest-physical frames that it has chosen, and until they suit it serves nothing (log 15). -/
def execPoolReleaseRequest (base len : Nat) (frames : List Nat) (s : State) : Out :=
  let slabs := (objectsIn s base len).map (fun x => (x, slabsIn s base len x))
  let need := slabs.foldl (fun n x => n + x.2.length) 0
  let moves := pairFrames slabs frames
  if !s.pe.extents.contains (base, len) || frames.length < need
      || moves.any (fun x => !framesLocal s (dOwner x.1.2) (x.2.map (·.2))) then .next s
  else .next (endExtent (flushAll (moves.foldl leaveExtent s)) base len)

end Sys2Proof.Machine
end

