-- ==== Sys2Proof/Machine/Resets.lean ====
section
/-! DEFINITION. Frame edges as an event (R332-R334), virtual-function reset (R345-R347) and the security alarm (R344). -/

namespace Sys2Proof.Machine

/-! ## Virtual-function reset (R345, R346) -/

/-- HEAD := TAIL in a queue's record, and the queue is unmapped (R345 step 1). -/
def discardQueue (fn : BitVec 6) (s : State) (q : Nat) : State :=
  let k := BitVec.ofNat 8 q
  match queueCtx s fn q with
  | some c => doWork { s with dp := { s.dp with ctxs := s.dp.ctxs.filter (fun c => !(c.fn == fn && c.queue == k)) } } (.unmap fn k c.tail c.tail)
  | none => doWork s (.discard fn k)

/-- Every queue of a function is emptied (R345 step 1). -/
def discardQueues (s : State) (fn : BitVec 6) : State :=
  match s.dp.tables.find? (fun t => t.fn == fn) with
  | some t => (List.range t.count).foldl (discardQueue fn) s
  | none => s

/-- A block that VF_RESET ends while a park still holds object writes that have left its core: they alone are left of it (R345 step 2). -/
def Block.resetRest (b : Block) (writes : List Posted) : Block :=
  { b.terminate 0 with
    back := .none, endStatus := 4, loads := [], posted := writes, subs := [], eF := .empty, eV := .empty, eM := .empty, eP := .empty }

/-- End a block with VF_RESET: it retires at once, or, with object writes that a park holds, once they are performed (R345 step 2). -/
def endBlock (s : State) (id : BId) : State :=
  match findBlock s id with
  | none => s
  | some b =>
    let writes := b.posted.filter (fun p => !p.isStore)
    if writes.isEmpty then removeBlock s b 4
    else settleLaunchBarriers (updBlock (closeAll (abandonWait s id) id) id (fun b => b.resetRest writes)) id.launch

/-- The function's blocks that stand in cores end with VF_RESET; what has left a core is performed first (R345 step 2). -/
def endBlocks (s : State) (fn : BitVec 6) : State :=
  let mine := (allBlocks s).filter (fun b => b.fn == fn)
  let s := mine.foldl (fun s b => onBlock s b.id settle) s
  mine.foldl (fun s b => endBlock s b.id) s

/-- The function's blocks in save slots are discarded and reported VF_RESET (R345 step 2, R346). -/
def endSaved (s : State) (fn : BitVec 6) : State :=
  let (saved, s) := dropSaved s (fun b => b.fn == fn)
  saved.foldl (fun s b => removeSaved s b 4) s

/-- A launch of the function places nothing more, and completes FAILED (R345 step 3). -/
def endLaunch (s : State) (l : Launch) : State :=
  if l.ending.isSome then s
  else if l.counted then closeLaunch s l.slot 4
  else completeLaunch s { l with closed := some 4 } 0

/-- Every launch of the function ends (R345 step 3). -/
def endLaunches (s : State) (fn : BitVec 6) : State :=
  (s.dp.launches.filter (fun l => l.fn == fn)).foldl endLaunch s

/-- The function's watch entries are cleared, and the firings of them that are still to be appended go with them (R330, R345 step 4). -/
def clearWatches (s : State) (fn : BitVec 6) : State :=
  let mine (j : DispJob) : Bool := match j.work with | .fire _ w _ => bits w.toNat 36 6 == fn.toNat | _ => false
  let s := { s with dp := { s.dp with jobs := s.dp.jobs.filter (fun j => !mine j) } }
  (armedWatches s).foldl
    (fun s e =>
      let w := hubWord s 5 e 2
      if bits w 36 6 == fn.toNat then setHub s 5 e 2 (BitVec.ofNat 64 (setBits w 63 1 0)) else s) s

/-- The pending service requests of one of the function's rings complete VF_RESET; a collective is given up, and a flash
write leaves the flash invalid (R345 step 5, R366, R373). -/
def abortRing (fn : BitVec 6) (s : State) (host : Bool) : State :=
  match svcRingOf s fn host with
  | none => s
  | some r =>
    let s := (List.range (ringWord s r 0 - r.served.toNat)).foldl
      (fun s _ => match svcRingOf s fn host with | some r => finishRequest s r svVFRESET none | none => s) s
    { s with
      pe := { s.pe with colls := s.pe.colls.filter (fun c => !(c.fn == fn && c.host == host)) }
      pl := { s.pl with flashing := s.pl.flashing.filter (fun x => !(x.fn == fn && x.host == host)) } }

/-- The stores of a core that a function's reset scrubs: all of it where no block runs on, the other half's beside a block in pre-emptible
mode, and nothing beside any other block; a block of the function, which the reset has ended, runs on no more (R92, R187, R345 step 6). -/
def freeRanges (s : State) (fn : BitVec 6) (c : Nat) : Ranges :=
  let core : Core := BitVec.ofNat 12 c
  match (onCore s c).filter (fun b => b.fn != fn) with
  | [] => coreRanges core
  | [b] =>
    if b.preempt then
      let lo := if b.half then 0 else 1
      [(spAddr core (lo * 2 ^ 17), spAddr core ((lo + 1) * 2 ^ 17)), (accAddr core (lo * 256), accAddr core ((lo + 1) * 256))]
    else []
  | _ => []

/-- The stores that a function's reset scrubs in its partition (R187, R345 step 6). -/
def resetRanges (s : State) (part : BitVec 4) (fn : BitVec 6) : Ranges :=
  ((partClusterList s part).flatMap (fun i => (List.range 256).flatMap (fun k => freeRanges s fn (256 * i + k))))
  ++ sharedRanges s part

/-- Steps 1 to 5 of R345. -/
def resetFunction (s : State) (fn : BitVec 6) : State :=
  let s := endSaved (endBlocks (discardQueues s fn) fn) fn
  let s := clearWatches (endLaunches s fn) fn
  [false, true].foldl (abortRing fn) s

/-- CLEARED of a function's reset: every structure where no block of another function is left in the partition (R337, R345 step 6). -/
def resetCleared (s : State) (part : BitVec 4) (fn : BitVec 6) : BitVec 16 :=
  if (partBlocks s part).all (fun b => b.fn == fn) then clearedAll else clearedShared

/-- A function's reset begins: steps 1 to 5, and then the scrub of step 6 at once, or, where the function's world is not the one that its
partition runs, as that world's next edge (R345, R346). -/
def beginVfreset (s : State) (fn : BitVec 6) : State :=
  let s := resetFunction { s with wo := { s.wo with vfHold := none } } fn
  let part := fnPart s fn
  let w := some (fnWorld s fn)
  settleFair
    (if partMode s part == 2 && partWorld s part != w then
      let x := switchOf s part
      setSwitch s part { x with vfWait := x.vfWait ++ [fn] }
    else scrub s part 3 w w (resetRanges s part fn) (resetCleared s part fn))

/-- A function's reset that has waited for the end of a frame edge begins: the partition's step 6 is reached, which an edge that the next one
overtakes does not (R334, R346). -/
def releaseReset (s : State) : State :=
  match s.wo.vfHold with
  | some fn => if (switchOf s (fnPart s fn)).edge == .run then beginVfreset s fn else s
  | none => s

/-- VFRESET: ignored while BUSY; during a frame edge of the function's partition the reset waits for the edge's step 6 (R345-R347). -/
def execVfreset (fn : BitVec 6) (s : State) : Out :=
  if s.wo.vfBusy then .next s
  else
    let s := { s with wo := { s.wo with vfBusy := true, vfLast := fn } }
    .next
      (releaseReset { s with wo := { s.wo with vfHold := some fn } })

/-- FRAME_EDGE of a partition in frame-table mode, behind whose step 6 a function's reset begins that has waited for it (R332-R334, R346). -/
def execFrameEdge (part : BitVec 4) (s : State) : Out :=
  if partMode s part != 2 || frameCount s part == 0 then .next s
  else .next (releaseReset (frameEdge s part))

/-! ## The security alarm (R344) -/

/-- A port that an alarm takes down. -/
def ScalePort.off (p : ScalePort) : ScalePort := { p with linkUp := false }

/-- SECURITY_ALARM: the keys are erased, and with them every line and save slot; issue stops on every core; every interface goes
down; the SRAM is cleared as at reset, without a token; ALARMCAUSE is set, and the part is locked until package reset
(R336, R344). -/
def execSecurityAlarm (cause : BitVec 5) (s : State) : Out :=
  let r := State.reset
  .next
    { s with
      blk := r.blk, others := r.others, feWait := r.feWait, mem := r.mem, empties := r.empties
      tb := { r.tb with targ0 := s.tb.targ0, targ1 := s.tb.targ1, targ2 := s.tb.targ2, err := s.tb.err, otdir := s.tb.otdir,
                        smapbase := s.tb.smapbase }
      dp := { r.dp with dead := s.dp.dead, fenced := s.dp.fenced }
      wo := { s.wo with
        parts := s.wo.parts.map (fun w => { w with token := none, pendingToken := none, vfWait := [], edge := .run })
        saves := [], worldKeys := [], vfBusy := false, vfHold := none, alarm := s.wo.alarm ||| cause, locked := true }
      ho := { s.ho with
        port0 := { s.ho.port0 with up := false, session := false, spdm := none }
        port1 := { s.ho.port1 with up := false, session := false, spdm := none }
        reqs := [] }
      pe := { s.pe with ports := s.pe.ports.map ScalePort.off, out := [], colls := [], relays := [], frames := [], gates := [], gateJobs := [], pulls := [] }
      pl := { s.pl with ready := false, flashing := none, testDue := [] } }

end Sys2Proof.Machine
end

