-- ==== Sys2Proof/Machine/Platform.lean ====
section
/-! DEFINITION. The platform: operating points and power (R374, R375), the system cores' CSRs (R8, R268, R304, R347, R359) and accesses
(R182, R183), in-field tests and single faults (R348, R349), and links that go down (R336, R348). -/

namespace Sys2Proof.Machine

/-! ## Operating points and power (R374, R375) -/

/-- The target point of a die in a PWRTGT value. -/
def targetOf (v : BitVec 16) (die : Nat) : BitVec 4 := BitVec.ofNat 4 (bits v.toNat (4 * die) 4)

/-- Change the point of every die. -/
def mapPoints (s : State) (f : Nat → BitVec 4 → BitVec 4) : State :=
  let p (d : Nat) : BitVec 4 := f d ((s.pl.point[d]?).getD 0)
  { s with pl := { s.pl with point := #v[p 0, p 1, p 2, p 3] } }

/-- A point one lower. -/
def pointDown (p : BitVec 4) : BitVec 4 := if p == 0 then 0 else p - 1

/-- PWRTGT_WRITE: a value whose points are not 0 to 4 is refused (R9, R375); each die moves to its target, which while CAPPED holds
can only lower its point (R375, log 40). -/
def execPwrtgtWrite (v : BitVec 64) (s : State) : Out :=
  let t := v.setWidth 16
  if v.toNat / 2 ^ 16 != 0 || (List.range 4).any (fun d => 4 < (targetOf t d).toNat) then .next s
  else
    let s := { s with pl := { s.pl with pwrtgt := t } }
    .next (mapPoints s (fun d p => if s.pl.capped && p.toNat < (targetOf t d).toNat then p else targetOf t d))

/-- The limit of the package in W (R374). -/
def packageLimit : Nat := 1950

/-- The limit of the module in W (R374). -/
def moduleLimit : Nat := 2200

/-- POWER_CAP: the average of the package or of the module exceeds its limit, so every die goes down one point and CAPPED is set (R374,
R375). -/
def execPowerCap (w : Watts) (s : State) : Out :=
  let s := { s with pl := { s.pl with watts := w.ofPackage } }
  if w.ofPackage.toNat ≤ packageLimit && w.ofModule.toNat ≤ moduleLimit then .next s
  else .next (mapPoints { s with pl := { s.pl with capped := true } } (fun _ p => pointDown p))

/-- POWER_RESTORE: after 10 ms below 95 % of both limits every die goes one point up toward its target; CAPPED ends when all are there
(R374, R375, log 40). -/
def execPowerRestore (w : Watts) (s : State) : Out :=
  let s := { s with pl := { s.pl with watts := w.ofPackage } }
  if 95 * packageLimit ≤ 100 * w.ofPackage.toNat || 95 * moduleLimit ≤ 100 * w.ofModule.toNat then .next s
  else
    let s := mapPoints s
      (fun d p => if p.toNat < (targetOf s.pl.pwrtgt d).toNat then p + 1 else p)
    let there := (List.range 4).all (fun d => (s.pl.point[d]?).getD 0 == targetOf s.pl.pwrtgt d)
    .next { s with pl := { s.pl with capped := s.pl.capped && !there } }

/-! ## Writes of the system cores' CSRs (R8, R268, R304, R347, R359) -/

/-- A CSR field of the low n bits: a write of 1 to a bit above it is refused (R9, log 37). -/
def lowField (v : DWord) (n : Nat) (s : State) (f : State) : State := if v.toNat / 2 ^ n == 0 then f else s

/-- A CSR that holds a multiple: another value is refused (R9, log 37). -/
def multipleOf (v : DWord) (n : Nat) (s : State) (f : State) : State := if v.toNat % n == 0 then f else s

/-- PTPADJ: a value beyond the range is stored as the nearer limit (R304). -/
def clampAdj (v : Word) : Word :=
  if v.toInt < -200000 then BitVec.ofInt 32 (-200000) else if 200000 < v.toInt then 200000 else v

/-- TCMD: the table command in [7:0], or ERR for a code that is not assigned; the other bits are dropped (R9, R268, R269; log 37). -/
def tableWrite (v : DWord) (s : State) : Out :=
  match v.toNat % 256 with
  | 0x01 => execDescSync s
  | 0x02 => execShoot s
  | 0x03 => execG2Shoot s
  | 0x04 => execFbFlush s
  | 0x05 => execCounterMove s
  | 0x10 => execTwrite s
  | 0x11 => execTread s
  | _ => tableCommand s false id

/-- Change the selected scale-out port; no port is selected by the values 24 to 31 (R359). -/
def onPort (s : State) (f : ScalePort → ScalePort) : State :=
  { s with pe := { s.pe with ports := s.pe.ports.mapIdx (fun i p => if i == s.pe.portsel.toNat then f p else p) } }

/-- Change the selected filter of the selected port (R359). -/
def onFilter (s : State) (f : Filter → Filter) : State :=
  onPort s (fun p => { p with filters := p.filters.mapIdx (fun i x => if i == s.pe.ifsel.toNat then f x else x) })

/-- The counter CSRs of R304 that have no behaviour of their own. -/
def csrCounters (csr : Nat) (v : DWord) (s : State) : State :=
  match csr with
  | 0x7E1 => { s with tm := { s.tm with ptpoff := v } }
  | 0x7E2 => { s with tm := { s.tm with ptpadj := clampAdj (v.setWidth 32) } }
  | 0x7E5 => lowField v 12 s { s with tm := { s.tm with dcidx := v.setWidth 12 } }
  | 0x7E8 => lowField v 4 s { s with tm := { s.tm with psel := v.setWidth 4 } }
  | 0x7E9 =>
    let p := partOf s s.tm.psel
    if ttEn p.ttctl then s else setPart s s.tm.psel { p with ttobj := v }
  | 0x7EC => multipleOf v 8192 s (setPart s s.tm.psel { partOf s s.tm.psel with slipBase := v })
  | _ => s

/-- The table and switching CSRs of R268 and R347 that have no behaviour of their own; of a write of ALARMCAUSE the bits above [4] are dropped (R9;
log 37). -/
def csrTables (csr : Nat) (v : DWord) (s : State) : State :=
  match csr with
  | 0x7C1 => { s with tb := { s.tb with targ0 := v } }
  | 0x7C2 => { s with tb := { s.tb with targ1 := v } }
  | 0x7C3 => { s with tb := { s.tb with targ2 := v } }
  | 0x7C5 => multipleOf v (2 ^ 25) s { s with tb := { s.tb with otdir := v } }
  | 0x7C6 => multipleOf v (2 ^ 24) s { s with tb := { s.tb with smapbase := v } }
  | 0x7F0 => lowField v 4 s { s with wo := { s.wo with cbpart := v.setWidth 4 } }
  | 0x7F1 => multipleOf v 65536 s (setSwitch s s.wo.cbpart { switchOf s s.wo.cbpart with saveBase := v })
  | 0x7F6 => { s with wo := { s.wo with alarm := s.wo.alarm &&& ~~~(v.setWidth 5) } }
  | 0x7F8 => { s with wo := { s.wo with rasBase := v } }
  | _ => s

/-- Whether PORTSEL names a port (R359). -/
def portChosen (s : State) : Bool := s.pe.portsel.toNat < 24

/-- The CSRs of the selected scale-out port that have no behaviour of their own; a PORTSEL of 24 to 31 selects nothing (R359). -/
def csrPort (csr : Nat) (v : DWord) (s : State) : State :=
  if !portChosen s then s
  else
    match csr with
    | 0xBC3 =>
      let k := bits v.toNat 56 8
      if bits v.toNat 24 32 != 0 then s
      else { s with pe := { s.pe with route := s.pe.route.setIfInBounds k (v.setWidth 24), routeSel := BitVec.ofNat 8 k } }
    | 0xBC4 => lowField v 4 s { s with pe := { s.pe with ifsel := v.setWidth 4 } }
    | 0xBC5 => onFilter s (fun x => { x with mac := v })
    | 0xBC6 => if bits v.toNat 6 42 != 0 then s else onFilter s (fun x => { x with ctl := v })
    | _ => s

/-- The other interface CSRs of R359 that have no behaviour of their own. -/
def csrInterfaces (csr : Nat) (v : DWord) (s : State) : State :=
  match csr with
  | 0xBC0 => lowField v 5 s { s with pe := { s.pe with portsel := v.setWidth 5 } }
  | 0xBC7 => { s with ho := { s.ho with vfport := v } }
  | n => csrPort n v s

/-! ## Reads of the system cores' CSRs (R8, R268, R304, R347, R359) -/

/-- The table and fault-buffer CSRs as they read (R268). -/
def readTables (s : State) (csr : Nat) : Nat :=
  match csr with
  | 0x7C1 => targ0 s
  | 0x7C2 => targ1 s
  | 0x7C3 => targ2 s
  | 0x7C4 => b2n (tableBusy s) + 2 * b2n s.tb.err
  | 0x7C5 => s.tb.otdir.toNat
  | 0x7C6 => s.tb.smapbase.toNat
  | 0x7D0 | 0x7D1 | 0x7D2 | 0x7D3 => (fbHeadOf s (csr - 0x7D0)).toNat
  | 0x7D4 | 0x7D5 | 0x7D6 | 0x7D7 => (fbTailOf s (csr - 0x7D4)).toNat
  | 0x7D8 | 0x7D9 | 0x7DA | 0x7DB => (fbGenOf s (csr - 0x7D8)).toNat
  | _ => 0

/-- The counter CSRs as they read (R304); DTIME is read at the access. -/
def readCounters (s : State) (csr : Nat) : Nat :=
  let p := partOf s s.tm.psel
  match csr with
  | 0x7E0 => s.tm.dtime.toNat
  | 0x7E1 => s.tm.ptpoff.toNat
  | 0x7E2 => s.tm.ptpadj.toNat
  | 0x7E4 => s.tm.pclk.toNat
  | 0x7E5 => s.tm.dcidx.toNat
  | 0x7E6 => depCounter s s.tm.dcidx.toNat
  | 0x7E8 => s.tm.psel.toNat
  | 0x7E9 => p.ttobj.toNat
  | 0x7EA => p.ttctl.toNat
  | 0x7EB => p.pass % 2 ^ 32 * 2 ^ 32 + p.move % 2 ^ 16
  | 0x7EC => p.slipBase.toNat
  | 0x7ED => p.slipTail.toNat
  | 0x7EE => p.wmiss.toNat
  | 0x7EF => p.pturn.toNat
  | _ => 0

/-- The switching and sealing CSRs as they read (R347). -/
def readSwitching (s : State) (csr : Nat) : Nat :=
  match csr with
  | 0x7F0 => s.wo.cbpart.toNat
  | 0x7F1 => (switchOf s s.wo.cbpart).saveBase.toNat
  | 0x7F2 => saveStride s s.wo.cbpart
  | 0x7F5 => s.wo.vfLast.toNat + b2n s.wo.vfBusy * 2 ^ 63
  | 0x7F6 => s.wo.alarm.toNat
  | 0x7F8 => s.wo.rasBase.toNat
  | 0x7F9 => s.wo.rasTail.toNat
  | _ => 0

/-- The CSRs of the selected scale-out port as they read: 0 where PORTSEL selects nothing (R359). -/
def readPort (s : State) (csr : Nat) : Nat :=
  match s.pe.ports[s.pe.portsel.toNat]? with
  | none => 0
  | some p =>
    let f := (p.filters[s.pe.ifsel.toNat]?).getD ⟨0, 0⟩
    match csr with
    | 0xBC1 => p.mode.toNat + b2n p.ptpen * 2 ^ 3
    | 0xBC2 => b2n (portUp s p) + p.dropped.toNat * 2 ^ 32
    | 0xBC3 => ((s.pe.route[s.pe.routeSel.toNat]?).getD 0).toNat + s.pe.routeSel.toNat * 2 ^ 56
    | 0xBC4 => s.pe.ifsel.toNat
    | 0xBC5 => f.mac.toNat
    | 0xBC6 => f.ctl.toNat
    | _ => 0

/-- The interface CSRs as they read (R359). -/
def readInterfaces (s : State) (csr : Nat) : Nat :=
  match csr with
  | 0xBC0 => s.pe.portsel.toNat
  | 0xBC7 => s.ho.vfport.toNat
  | 0xBC8 => s.pl.pwrtgt.toNat
  | 0xBC9 => ((List.range 4).foldl (fun a d => a + ((s.pl.point[d]?).getD 0).toNat * 2 ^ (4 * d)) 0)
      + b2n s.pl.capped * 2 ^ 16 + s.pl.watts.toNat * 2 ^ 32
  | 0xBCA => b2n s.pl.ready + 2 * b2n s.pl.verified + 4 * b2n s.pl.recovery
  | 0xBD0 | 0xBD1 | 0xBD2 | 0xBD3 | 0xBD4 | 0xBD5 => bits s.pl.meas.toNat (64 * (csr - 0xBD0)) 64
  | _ => readPort s csr

/-- The value that a CSR reads as; a write-only one reads as zero (R8). -/
def csrRead (s : State) (csr : Nat) : DWord :=
  BitVec.ofNat 64
    (if csr < 0x7E0 then readTables s csr
     else if csr < 0x7F0 then readCounters s csr
     else if csr < 0x800 then readSwitching s csr
     else readInterfaces s csr)

/-- A write of a CSR: the CSRs with a behaviour of their own are their own events, and the others hold what is written; a write of a
read-only CSR is ignored (R8, R268, R304, R347, R359). -/
def csrWrite (csr : BitVec 12) (v : DWord) (s : State) : Out :=
  match csr.toNat with
  | 0x7C0 => tableWrite v s
  | 0x7D0 => execFbheadWrite 0 (v.setWidth 32) s
  | 0x7D1 => execFbheadWrite 1 (v.setWidth 32) s
  | 0x7D2 => execFbheadWrite 2 (v.setWidth 32) s
  | 0x7D3 => execFbheadWrite 3 (v.setWidth 32) s
  | 0x7E6 => execDcvalWrite v s
  | 0x7EA => execTtctlWrite v s
  | 0x7F3 => execTokcopy v s
  | 0x7F4 => if v.toNat < 64 then execVfreset (v.setWidth 6) s else .next s
  | 0xBC1 => execPortcfgWrite v s
  | 0xBC8 => execPwrtgtWrite v s
  | n => .next (csrInterfaces n v (csrTables n v (csrCounters n v s)))

/-- SYSTEM_CSR_WRITE: a machine-level access of a custom CSR writes it, or, where no value is given, reads it; from a lower privilege it raises
the illegal-instruction exception and does nothing else (R369). -/
def execSystemCsrWrite (csr : BitVec 12) (a : CsrAccess) (s : State) : Out :=
  let s := { s with pl := { s.pl with illegal := !a.machine } }
  if !a.machine then .next s
  else
    match a.value with
    | some v => csrWrite csr v s
    | none => let (_, s) := readTime s; .next { s with pl := { s.pl with busData := leBytes 8 (csrRead s csr.toNat).toNat } }

/-! ## Accesses of the system cores (R181-R183) -/

/-- SYSTEM_CORE_ACCESS: a load leaves what it read, which a poisoned line does not give; a store is written line by line; an
address that is not mapped, or that a partition holds, ends in a bus error (R181-R183). -/
def execSystemCoreAccess (addr len : Nat) (data : Option (List Byte)) (s : State) : Out :=
  let n := match data with | some bs => bs.length | none => len
  if !systemReach s addr n then .fault .busError
  else
    match data with
    | some bs => .next { s with mem := (linesOf addr n).foldl (storeLine addr bs) s.mem }
    | none => .next { s with pl := { s.pl with busData := (Memory.readAll s.mem addr n).getD s.pl.busData } }

/-! ## Single faults (R348, R349) -/

/-- A residue check fails in the running command of a core's V or M engine: its block terminates with DATAPATH_ERROR (R118, R133,
R155, R348). -/
def residueFault (e : Engine) (core : Core) (s : State) : State :=
  match (allBlocks s).find? (fun b => b.core == core && (b.eng e).run.isSome) with
  | none => s
  | some b =>
    match (b.eng e).run with
    | none => s
    | some c =>
      let s := updBlock (abandonWait s b.id) b.id (fun b => b.engineFault c cDATAPATH 0 true)
      rasRecord (settleLaunchBarriers s b.id.launch) 4 core

/-- SINGLE_FAULT_DETECTION (R348): masked, but for a line that ECC cannot correct, which is poisoned, a command that ends its block, a die that
is lost and a core that is fenced. -/
def execSingleFaultDetection (kind : FaultKind) (core : Core) (s : State) : Out :=
  match kind with
  | .sram => .next (rasRecord s 1 core)
  | .dram line corrected =>
    let drop := isDram (64 * line) && !corrected
    let s := if drop then { s with mem := Memory.dropRange s.mem (64 * line) (64 * line + 64) } else s
    .next (rasRecord s 2 core)
  | .link => .next (rasRecord s 3 core)
  | .residue e => .next (if e == .V || e == .M then residueFault e core s else s)
  | .checker => .next (after s (execDieFailure (BitVec.ofNat 2 (dieOf core)) (rasRecord s 5 core)))
  | .inField => .next (rasRecord (fence s core) 6 core)

/-- Whether a core stands in a partition in frame-table mode. -/
def inFrameTable (s : State) (core : Core) : Bool :=
  (List.range 16).any (fun p => partMode s (BitVec.ofNat 4 p) == 2 && bitAt (partClusters s (BitVec.ofNat 4 p)) (clusterOf core))

/-- The device time from which on a core's block is pre-empted for a test: 90 ms without one (R349). -/
def testFrom (s : State) (core : Core) : Nat :=
  ((s.pl.tested.find? (fun x => x.1 == core)).map (fun x => x.2.toNat)).getD 0 + 90000000

/-- A block that a test pre-empts and that resumes behind it: saved under R103 and restored exactly (R349). -/
def testBlock (s : State) (b : Block) : State :=
  updBlock (abandonWait s b.id) b.id (fun b => b.saveFold.abandon)

/-- A test of a core, of 15 µs. -/
def testCore (s : State) (core : Core) (pass : Bool) : State := testEnds (reachTime s (s.tm.dtime.toNat + 15000)) core pass

/-- IN_FIELD_TEST of a core (R349). In frame-table mode it waits for the window of the next frame edge. In fixed-world mode a core without a
block is tested at once, and the block of another one is pre-empted after 90 ms without a test, once its started work is complete, and
resumes behind the test; a core that fails is fenced. -/
def execInFieldTest (core : Core) (pass : Bool) (s : State) : Out :=
  let bs (s : State) : List Block := onCore s core.toNat
  if inFrameTable s core then
    .next { s with pl := { s.pl with testDue := s.pl.testDue.filter (fun x => x.1 != core) ++ [(core, pass)] } }
  else if (bs s).isEmpty then .next (testCore s core pass)
  else
    let s := (bs s).foldl (fun s b => onBlock s b.id settle) (reachTime s (testFrom s core))
    if !(bs s).all (fun b => b.saveable && !b.abroad) then .next s
    else .next (testCore ((bs s).foldl testBlock s) core pass)

/-! ## Links (R336, R348, R357, R368) -/

/-- LINK_DOWN: the link is down until package reset (R336, R348); a Galith port loses its session and requests (R357), and the extents of a CXL
port are withdrawn (R368). -/
def execLinkDown (link : Link) (s : State) : Out :=
  let down := if s.pl.linksDown.contains link then s.pl.linksDown else s.pl.linksDown ++ [link]
  let s := { s with pl := { s.pl with linksDown := down } }
  match link with
  | .scaleOut port =>
    .next { s with pe := { s.pe with ports := s.pe.ports.mapIdx (fun i p => if i == port.toNat then p.off else p) } }
  | .dieToDie _ => .next s
  | .galith port => .next (dropPort s port)
  | .cxl port => .next (cxlDown s port)

end Sys2Proof.Machine
end

