-- ==== Sys2Proof/Machine/Scalar.lean ====
section
/-! DEFINITION. Integer and address arithmetic, constants, predicates and `sel` (R104-R112). -/

namespace Sys2Proof.Machine

/-! ## Arithmetic functions (R106, R107) -/

/-- The signed 64-bit reading. -/
def sgn (x : DWord) : Int := x.toInt

/-- `mulh`: bits [127:64] of an exact product (R106). -/
def mulHigh (p : Int) : DWord := BitVec.ofInt 64 (p / 2 ^ 64)

/-- Quotient and remainder of R107 on exact integers. -/
def divRem (x y : Int) (signed : Bool) : Int × Int :=
  if y == 0 then (-1, x)
  else if signed && x == -(2 : Int) ^ 63 && y == -1 then (-(2 : Int) ^ 63, 0)
  else (Int.tdiv x y, x - Int.tdiv x y * y)

/-- The quotient narrowed to 64 bits (R107). -/
def divS (a b : DWord) : DWord := BitVec.ofInt 64 (divRem (sgn a) (sgn b) true).1
/-- The unsigned quotient (R107). -/
def divN (a b : DWord) : DWord := BitVec.ofInt 64 (divRem a.toNat b.toNat false).1
/-- The remainder narrowed to 64 bits (R107). -/
def remS (a b : DWord) : DWord := BitVec.ofInt 64 (divRem (sgn a) (sgn b) true).2
/-- The unsigned remainder (R107). -/
def remN (a b : DWord) : DWord := BitVec.ofInt 64 (divRem a.toNat b.toNat false).2

/-- The shift count b[5:0] (R106). -/
def shiftCount (b : DWord) : Nat := b.toNat % 64

/-- The lesser or greater of two scalars, by a strict order. -/
def pick (less : Bool) (a b : DWord) : DWord := if less then a else b

/-! ## The register and immediate forms (R106, R108) -/

/-- A scalar result from two scalars (R104, R106). -/
def scalarOp (f : DWord → DWord → DWord) (sd sa sb : SReg) (s : State) : Out :=
  withRegs [sa, sb] [] [sd] [] s
    (doneB s (putS s.blk sd (f (rdS s.blk sa) (rdS s.blk sb)) (taintS s.blk sa ||| taintS s.blk sb)) 4)

/-- A scalar result from a scalar and an immediate (R108). -/
def immOp (f : DWord → DWord) (sd sa : SReg) (s : State) : Out :=
  withRegs [sa] [] [sd] [] s (doneB s (putS s.blk sd (f (rdS s.blk sa)) (taintS s.blk sa)) 4)

/-- `add` (R106). -/
def execAdd (sd sa sb : SReg) (s : State) : Out := scalarOp (fun a b => a + b) sd sa sb s
/-- `sub` (R106). -/
def execSub (sd sa sb : SReg) (s : State) : Out := scalarOp (fun a b => a - b) sd sa sb s
/-- `mul` (R106). -/
def execMul (sd sa sb : SReg) (s : State) : Out := scalarOp (fun a b => a * b) sd sa sb s
/-- `mulh.i64` (R106). -/
def execMulhI64 (sd sa sb : SReg) (s : State) : Out := scalarOp (fun a b => mulHigh (sgn a * sgn b)) sd sa sb s
/-- `mulh.n64` (R106). -/
def execMulhN64 (sd sa sb : SReg) (s : State) : Out :=
  scalarOp (fun a b => mulHigh ((a.toNat * b.toNat : Nat) : Int)) sd sa sb s
/-- `div.i64` (R107). -/
def execDivI64 (sd sa sb : SReg) (s : State) : Out := scalarOp divS sd sa sb s
/-- `div.n64` (R107). -/
def execDivN64 (sd sa sb : SReg) (s : State) : Out := scalarOp divN sd sa sb s
/-- `rem.i64` (R107). -/
def execRemI64 (sd sa sb : SReg) (s : State) : Out := scalarOp remS sd sa sb s
/-- `rem.n64` (R107). -/
def execRemN64 (sd sa sb : SReg) (s : State) : Out := scalarOp remN sd sa sb s
/-- `and` (R106). -/
def execAnd (sd sa sb : SReg) (s : State) : Out := scalarOp (fun a b => a &&& b) sd sa sb s
/-- `or` (R106). -/
def execOr (sd sa sb : SReg) (s : State) : Out := scalarOp (fun a b => a ||| b) sd sa sb s
/-- `xor` (R106). -/
def execXor (sd sa sb : SReg) (s : State) : Out := scalarOp (fun a b => a ^^^ b) sd sa sb s
/-- `shl` (R106). -/
def execShl (sd sa sb : SReg) (s : State) : Out := scalarOp (fun a b => a <<< shiftCount b) sd sa sb s
/-- `shr` (R106). -/
def execShr (sd sa sb : SReg) (s : State) : Out := scalarOp (fun a b => a >>> shiftCount b) sd sa sb s
/-- `sar` (R106). -/
def execSar (sd sa sb : SReg) (s : State) : Out := scalarOp (fun a b => a.sshiftRight (shiftCount b)) sd sa sb s
/-- `min.i64` (R106). -/
def execMinI64 (sd sa sb : SReg) (s : State) : Out := scalarOp (fun a b => pick (a.slt b) a b) sd sa sb s
/-- `min.n64` (R106). -/
def execMinN64 (sd sa sb : SReg) (s : State) : Out := scalarOp (fun a b => pick (a.ult b) a b) sd sa sb s
/-- `max.i64` (R106). -/
def execMaxI64 (sd sa sb : SReg) (s : State) : Out := scalarOp (fun a b => pick (b.slt a) a b) sd sa sb s
/-- `max.n64` (R106). -/
def execMaxN64 (sd sa sb : SReg) (s : State) : Out := scalarOp (fun a b => pick (b.ult a) a b) sd sa sb s

/-- `add` with an immediate (R108). -/
def execAddImm (sd sa : SReg) (imm : BitVec 12) (s : State) : Out := immOp (fun a => a + imm.signExtend 64) sd sa s
/-- `and` with an immediate (R108). -/
def execAndImm (sd sa : SReg) (imm : BitVec 12) (s : State) : Out := immOp (fun a => a &&& imm.signExtend 64) sd sa s
/-- `or` with an immediate (R108). -/
def execOrImm (sd sa : SReg) (imm : BitVec 12) (s : State) : Out := immOp (fun a => a ||| imm.signExtend 64) sd sa s
/-- `xor` with an immediate (R108). -/
def execXorImm (sd sa : SReg) (imm : BitVec 12) (s : State) : Out := immOp (fun a => a ^^^ imm.signExtend 64) sd sa s
/-- `shl` with an immediate count (R108). -/
def execShlImm (sd sa : SReg) (count : BitVec 6) (s : State) : Out := immOp (fun a => a <<< count.toNat) sd sa s
/-- `shr` with an immediate count (R108). -/
def execShrImm (sd sa : SReg) (count : BitVec 6) (s : State) : Out := immOp (fun a => a >>> count.toNat) sd sa s
/-- `sar` with an immediate count (R108). -/
def execSarImm (sd sa : SReg) (count : BitVec 6) (s : State) : Out := immOp (fun a => a.sshiftRight count.toNat) sd sa s

/-! ## Constants (R109) -/

/-- `li` in format U: an empty taint set, but for a format W predicate's (R109, R226). -/
def execLi (sd : SReg) (imm : BitVec 18) (s : State) : Out :=
  withRegs [] [] [sd] [] s (doneB s (putS s.blk sd (imm.signExtend 64) 0) 4)

/-- `li` in format L (R109). -/
def execLiImm32 (sd : SReg) (imm : BitVec 32) (s : State) : Out :=
  withRegs [] [] [sd] [] s (doneB s (putS s.blk sd (imm.signExtend 64) 0) 8)

/-- `lui`, which reads its destination (R109). -/
def execLui (sd : SReg) (imm : BitVec 32) (s : State) : Out :=
  withRegs [sd] [] [sd] [] s
    (doneB s (putS s.blk sd (imm ++ (rdS s.blk sd).setWidth 32) (taintS s.blk sd)) 8)

/-! ## Predicates (R110, R111) and `sel` (R112) -/

/-- A comparison of two scalars into a predicate (R110). -/
def psetOp (c : DWord → DWord → Bool) (pd : PReg) (sa sb : SReg) (s : State) : Out :=
  withRegs [sa, sb] [] [] [pd] s
    (doneB s (putP s.blk pd (condP (c (rdS s.blk sa) (rdS s.blk sb))) (taintS s.blk sa ||| taintS s.blk sb)) 4)

/-- `pset.eq` (R110). -/
def execPsetEq (pd : PReg) (sa sb : SReg) (s : State) : Out := psetOp (fun a b => a == b) pd sa sb s
/-- `pset.ne` (R110). -/
def execPsetNe (pd : PReg) (sa sb : SReg) (s : State) : Out := psetOp (fun a b => a != b) pd sa sb s
/-- `pset.lt.i64` (R110). -/
def execPsetLtI64 (pd : PReg) (sa sb : SReg) (s : State) : Out := psetOp (fun a b => a.slt b) pd sa sb s
/-- `pset.lt.n64` (R110). -/
def execPsetLtN64 (pd : PReg) (sa sb : SReg) (s : State) : Out := psetOp (fun a b => a.ult b) pd sa sb s
/-- `pset.ge.i64` (R110). -/
def execPsetGeI64 (pd : PReg) (sa sb : SReg) (s : State) : Out := psetOp (fun a b => b.sle a) pd sa sb s
/-- `pset.ge.n64` (R110). -/
def execPsetGeN64 (pd : PReg) (sa sb : SReg) (s : State) : Out := psetOp (fun a b => b.ule a) pd sa sb s

/-- A bitwise operation on two predicates (R111). -/
def plogOp (f : BitVec 128 → BitVec 128 → BitVec 128) (pd pa pb : PReg) (s : State) : Out :=
  withRegs [] [pa, pb] [] [pd] s
    (doneB s (putP s.blk pd (f (rdP s.blk pa) (rdP s.blk pb)) (taintP s.blk pa ||| taintP s.blk pb)) 4)

/-- `pand` (R111). -/
def execPand (pd pa pb : PReg) (s : State) : Out := plogOp (fun a b => a &&& b) pd pa pb s
/-- `por` (R111). -/
def execPor (pd pa pb : PReg) (s : State) : Out := plogOp (fun a b => a ||| b) pd pa pb s
/-- `pxor` (R111). -/
def execPxor (pd pa pb : PReg) (s : State) : Out := plogOp (fun a b => a ^^^ b) pd pa pb s
/-- `pnot` (R111). -/
def execPnot (pd pa : PReg) (s : State) : Out :=
  withRegs [] [pa] [] [pd] s (doneB s (putP s.blk pd (~~~(rdP s.blk pa)) (taintP s.blk pa)) 4)
/-- `pandn` (R111). -/
def execPandn (pd pa pb : PReg) (s : State) : Out := plogOp (fun a b => a &&& ~~~b) pd pa pb s

/-- `sel` (R112). -/
def execSel (p : PReg) (sd sa sb : SReg) (s : State) : Out :=
  let b := s.blk
  withRegs [sa, sb] [p] [sd] [] s
    (doneB s (putS b sd (if (rdP b p).getLsbD 0 then rdS b sa else rdS b sb)
      (taintP b p ||| taintS b sa ||| taintS b sb)) 4)

end Sys2Proof.Machine
end

