-- ==== Sys2Proof/Machine/Predicated.lean ====
section
/-! DEFINITION. Format W predication (R65, R113, R226) and the non-blocking form of the engine commands (R28, R67). -/

namespace Sys2Proof.Machine

/-- A wrapped instruction (R65): the meaning it has alone; nothing else can be wrapped. -/
def execWrapped (i : Instr) (s : State) : Out :=
  match i with
  | .add sd sa sb => execAdd sd sa sb s
  | .sub sd sa sb => execSub sd sa sb s
  | .mul sd sa sb => execMul sd sa sb s
  | .mulhI64 sd sa sb => execMulhI64 sd sa sb s
  | .mulhN64 sd sa sb => execMulhN64 sd sa sb s
  | .divI64 sd sa sb => execDivI64 sd sa sb s
  | .divN64 sd sa sb => execDivN64 sd sa sb s
  | .remI64 sd sa sb => execRemI64 sd sa sb s
  | .remN64 sd sa sb => execRemN64 sd sa sb s
  | .and sd sa sb => execAnd sd sa sb s
  | .or sd sa sb => execOr sd sa sb s
  | .xor sd sa sb => execXor sd sa sb s
  | .shl sd sa sb => execShl sd sa sb s
  | .shr sd sa sb => execShr sd sa sb s
  | .sar sd sa sb => execSar sd sa sb s
  | .minI64 sd sa sb => execMinI64 sd sa sb s
  | .minN64 sd sa sb => execMinN64 sd sa sb s
  | .maxI64 sd sa sb => execMaxI64 sd sa sb s
  | .maxN64 sd sa sb => execMaxN64 sd sa sb s
  | .psetEq pd sa sb => execPsetEq pd sa sb s
  | .psetNe pd sa sb => execPsetNe pd sa sb s
  | .psetLtI64 pd sa sb => execPsetLtI64 pd sa sb s
  | .psetLtN64 pd sa sb => execPsetLtN64 pd sa sb s
  | .psetGeI64 pd sa sb => execPsetGeI64 pd sa sb s
  | .psetGeN64 pd sa sb => execPsetGeN64 pd sa sb s
  | .pand pd pa pb => execPand pd pa pb s
  | .por pd pa pb => execPor pd pa pb s
  | .pxor pd pa pb => execPxor pd pa pb s
  | .pnot pd pa => execPnot pd pa s
  | .pandn pd pa pb => execPandn pd pa pb s
  | .sel p sd sa sb => execSel p sd sa sb s
  | .addImm sd sa imm => execAddImm sd sa imm s
  | .andImm sd sa imm => execAndImm sd sa imm s
  | .orImm sd sa imm => execOrImm sd sa imm s
  | .xorImm sd sa imm => execXorImm sd sa imm s
  | .shlImm sd sa count => execShlImm sd sa count s
  | .shrImm sd sa count => execShrImm sd sa count s
  | .sarImm sd sa count => execSarImm sd sa count s
  | .li sd imm => execLi sd imm s
  | .ldI8 sd lv sa off => execLdI8 sd lv sa off s
  | .ldI16 sd lv sa off => execLdI16 sd lv sa off s
  | .ldI32 sd lv sa off => execLdI32 sd lv sa off s
  | .ldI64 sd lv sa off => execLdI64 sd lv sa off s
  | .ldN8 sd lv sa off => execLdN8 sd lv sa off s
  | .ldN16 sd lv sa off => execLdN16 sd lv sa off s
  | .ldN32 sd lv sa off => execLdN32 sd lv sa off s
  | .stI8 sd lv sa off => execStI8 sd lv sa off s
  | .stI16 sd lv sa off => execStI16 sd lv sa off s
  | .stI32 sd lv sa off => execStI32 sd lv sa off s
  | .stI64 sd lv sa off => execStI64 sd lv sa off s
  | .ldFf sd lv sa off => execLdFf sd lv sa off s
  | .ldFe sd lv sa off => execLdFe sd lv sa off s
  | .stEf sd lv sa off => execStEf sd lv sa off s
  | .ret => execRet s
  | .bp sa => execBp sa s
  | .callr sa => execCallr sa s
  | .tret => execTret s
  | .tretSkip => execTretSkip s
  | .nop => execNop s
  | .getc sd cr => execGetc sd cr s
  | .setc cr sa => execSetc cr sa s
  | .trap code => execTrap code s
  | .fence sc => execFence sc s
  | .xfence => execXfence s
  | .untaint sa => execUntaint sa s
  | .tfold => execTfold s
  | .give sq => execGive sq s
  | .take sq => execTake sq s
  | .guard sq => execGuard sq s
  | .unguard sq => execUnguard sq s
  | .slip n => execSlip n s
  | .drain mask => execDrain mask s
  | .exit => execExit s
  | .tokw k => execTokw k s
  | .toks k => execToks k s
  | .tick sd => execTick sd s
  | .tickDc sd sa => execTickDc sd sa s
  | .turn sd => execTurn sd s
  | .turnw sa => execTurnw sa s
  | .arrive sc => execArrive sc s
  | .bwait sc => execBwait sc s
  | _ => strandTrap cILLEGAL 0 s

/-- An outcome with the wrapped instruction left. -/
def unwrap (o : Out) : Out :=
  match o with
  | .next s => .next { s with blk := { s.blk with wrap := none } }
  | o => o

/-- Whether a wrapped instruction gives CTL_TAINT its predicate's set even when it does not execute (R113). -/
def jumpsByRegister : Instr → Bool
  | .ret | .bp _ | .callr _ => true
  | _ => false

/-- `(p) instruction` in format W (R65). -/
def execPredicatedInstruction (n : Bool) (p : PReg) (i : Instr) (s : State) : Out :=
  let b := s.blk
  let t := taintP b p
  withRegs [] [p] [] [] s
    (if (rdP b p).getLsbD 0 != n then unwrap (execWrapped i { s with blk := { b with wrap := some t } })
     else
       let ctl := if jumpsByRegister i then b.ctl ||| t else b.ctl
       .next { s with blk := { b with pc := b.pc + 8, wait := none, ctl := ctl } })

/-- The `.nb` form of an engine command (R28, R67). -/
def execNonblockingDispatch (p : PReg) (c : Instr) (s : State) : Out :=
  match engineOfCmd c with
  | .V => dispatchV (some p) c s
  | .M => dispatchM (some p) c s
  | .F | .P => dispatchT (some p) c s

end Sys2Proof.Machine
end

