-- ==== Sys2Proof/Machine/Replay.lean ====
section
/-! DEFINITION. The replay of a parked access that a flush has released (R282, R283, R286): each agent's accesses in the order in
which they parked. -/

namespace Sys2Proof.Machine

/-! ## The strand's and the engines' accesses -/

/-- The strand's parked instruction executes anew (R243, R283). -/
def replayStrand (s : State) : Out :=
  match s.blk.wait with
  | some (.park p) => .next (if s.blk.strandTurn (some p) then { s with blk := s.blk.replay p } else s)
  | _ => .next s

/-- A parked load goes on, if it is parked and released. -/
def replayLoad (k : Nat) (s : State) : Out :=
  match s.blk.loads[k]? with
  | some l => if l.park.isSome then execObjectLoadCompletion k s else .next s
  | none => .next s

/-- A parked posted write goes on, if it is parked and released. -/
def replayPosted (k : Nat) (s : State) : Out :=
  match s.blk.posted[k]? with
  | some p => if p.park?.isSome then execPostedStorePerformed k s else .next s
  | none => .next s

/-- A parked engine command goes on: at the head of its queue it starts again, and a running one resumes at its first element not
moved (R204, R283). -/
def replayEngine (e : Engine) (s : State) : Out :=
  match (s.blk.eng e).run, (s.blk.eng e).q with
  | some c, _ => if c.park.isSome then execEngineCommandCompletion e s else .next s
  | none, c :: _ => if c.park.isSome then execEngineCommandStart e s else .next s
  | none, [] => .next s

/-! ## The dispatchers' accesses -/

/-- The parks of the dispatchers: of launches, CWORD atomics and work at guest memory. -/
def dispParks (s : State) : List Park :=
  s.dp.parked.map (·.park) ++ s.dp.cwords.filterMap (·.park) ++ s.dp.jobs.filterMap (·.park)

/-- Whether a dispatcher's parked access goes on now: its flush has come, and no released access of the same dispatcher has parked before
it (R286). -/
def dispTurn (s : State) (p : Park) : Bool :=
  p.released && (dispParks s).all (fun q => !q.released || q.die != p.die || p.no ≤ q.no)

/-- A launch's parked check, STATUS write or completion is attempted again (R251, R253). -/
def replayLaunch (p : DispPark) (s : State) : State :=
  if dispTurn s p.park then
    advanceLaunch { s with dp := { s.dp with parked := s.dp.parked.filter (· != p) } } p.slot
  else s

/-- A parked CWORD atomic is attempted again (R253). -/
def replayCword (i : Nat) (c : CwordOp) (s : State) : State :=
  match c.park with
  | some p =>
    if dispTurn s p then performCword { s with dp := { s.dp with cwords := s.dp.cwords.eraseIdx i } } { c with park := none } else s
  | none => s

/-- Parked work at guest memory is attempted again, behind the earlier work about the same queue or watch entry; what parks again keeps its
place. -/
def replayJob (k : Nat) (j : DispJob) (s : State) : State :=
  if !(match j.park with | some p => dispTurn s p | none => true) || (s.dp.jobs.take k).any (fun x => x.work.key == j.work.key) then s
  else drainWork j.work.key s.dp.jobs.length { s with dp := { s.dp with jobs := s.dp.jobs.set k { j with park := none } } }

/-- A timetable walker's parked read is attempted again. -/
def replayWalker (part : BitVec 4) (s : State) : State :=
  if (partOf s part).park.isSome then after s (execTimetableRelease part s) else s

/-- The parked accesses of the dispatchers by number: the launches', the CWORD atomics, the work at guest memory, and the 16 walkers. -/
def replayDispatcher (k : Nat) (s : State) : State :=
  let n := s.dp.parked.length
  let m := n + s.dp.cwords.length
  let j := m + s.dp.jobs.length
  if k < n then (match s.dp.parked[k]? with | some p => replayLaunch p s | none => s)
  else if k < m then (match s.dp.cwords[k - n]? with | some c => replayCword (k - n) c s | none => s)
  else if k < j then (match s.dp.jobs[k - m]? with | some x => replayJob (k - m) x s | none => s)
  else if k < j + 16 then replayWalker (BitVec.ofNat 4 (k - j)) s
  else s

/-! ## The host's accesses and the stream unit's -/

/-- A held host request by its place, and behind those the frames at the stream unit. -/
def replayHost (k : Nat) (s : State) : State :=
  if k < s.ho.reqs.length then hostAgain s k
  else
    match s.pe.frames[k - s.ho.reqs.length]? with
    | some f => streamOn s f.k
    | none => s

/-- ACCESS_REPLAY of the access at a site (R283, R286). -/
def execAccessReplay (site : Site) (s : State) : Out :=
  match site with
  | .strand => replayStrand s
  | .load k => replayLoad k s
  | .posted k => replayPosted k s
  | .engine e => replayEngine e s
  | .dispatcher k => .next (replayDispatcher k s)
  | .host k => .next (replayHost k s)

end Sys2Proof.Machine
end

