-- ==== Sys2Proof/Machine/Dispatch.lean ====
section
/-! DEFINITION. The meaning of every instruction and event: one arm for each constructor. -/

namespace Sys2Proof.Machine

/-- What an instruction or event does in a state. -/
def exec (i : Instr) (s : State) : Host.Outcome State Fault Refusal :=
  match i with
  | .add sd sa sb => Sys2Proof.Machine.execAdd sd sa sb s
  | .sub sd sa sb => Sys2Proof.Machine.execSub sd sa sb s
  | .mul sd sa sb => Sys2Proof.Machine.execMul sd sa sb s
  | .mulhI64 sd sa sb => Sys2Proof.Machine.execMulhI64 sd sa sb s
  | .mulhN64 sd sa sb => Sys2Proof.Machine.execMulhN64 sd sa sb s
  | .divI64 sd sa sb => Sys2Proof.Machine.execDivI64 sd sa sb s
  | .divN64 sd sa sb => Sys2Proof.Machine.execDivN64 sd sa sb s
  | .remI64 sd sa sb => Sys2Proof.Machine.execRemI64 sd sa sb s
  | .remN64 sd sa sb => Sys2Proof.Machine.execRemN64 sd sa sb s
  | .and sd sa sb => Sys2Proof.Machine.execAnd sd sa sb s
  | .or sd sa sb => Sys2Proof.Machine.execOr sd sa sb s
  | .xor sd sa sb => Sys2Proof.Machine.execXor sd sa sb s
  | .shl sd sa sb => Sys2Proof.Machine.execShl sd sa sb s
  | .shr sd sa sb => Sys2Proof.Machine.execShr sd sa sb s
  | .sar sd sa sb => Sys2Proof.Machine.execSar sd sa sb s
  | .minI64 sd sa sb => Sys2Proof.Machine.execMinI64 sd sa sb s
  | .minN64 sd sa sb => Sys2Proof.Machine.execMinN64 sd sa sb s
  | .maxI64 sd sa sb => Sys2Proof.Machine.execMaxI64 sd sa sb s
  | .maxN64 sd sa sb => Sys2Proof.Machine.execMaxN64 sd sa sb s
  | .psetEq pd sa sb => Sys2Proof.Machine.execPsetEq pd sa sb s
  | .psetNe pd sa sb => Sys2Proof.Machine.execPsetNe pd sa sb s
  | .psetLtI64 pd sa sb => Sys2Proof.Machine.execPsetLtI64 pd sa sb s
  | .psetLtN64 pd sa sb => Sys2Proof.Machine.execPsetLtN64 pd sa sb s
  | .psetGeI64 pd sa sb => Sys2Proof.Machine.execPsetGeI64 pd sa sb s
  | .psetGeN64 pd sa sb => Sys2Proof.Machine.execPsetGeN64 pd sa sb s
  | .pand pd pa pb => Sys2Proof.Machine.execPand pd pa pb s
  | .por pd pa pb => Sys2Proof.Machine.execPor pd pa pb s
  | .pxor pd pa pb => Sys2Proof.Machine.execPxor pd pa pb s
  | .pnot pd pa => Sys2Proof.Machine.execPnot pd pa s
  | .pandn pd pa pb => Sys2Proof.Machine.execPandn pd pa pb s
  | .sel p sd sa sb => Sys2Proof.Machine.execSel p sd sa sb s
  | .addImm sd sa imm => Sys2Proof.Machine.execAddImm sd sa imm s
  | .andImm sd sa imm => Sys2Proof.Machine.execAndImm sd sa imm s
  | .orImm sd sa imm => Sys2Proof.Machine.execOrImm sd sa imm s
  | .xorImm sd sa imm => Sys2Proof.Machine.execXorImm sd sa imm s
  | .shlImm sd sa count => Sys2Proof.Machine.execShlImm sd sa count s
  | .shrImm sd sa count => Sys2Proof.Machine.execShrImm sd sa count s
  | .sarImm sd sa count => Sys2Proof.Machine.execSarImm sd sa count s
  | .li sd imm => Sys2Proof.Machine.execLi sd imm s
  | .liImm32 sd imm => Sys2Proof.Machine.execLiImm32 sd imm s
  | .lui sd imm => Sys2Proof.Machine.execLui sd imm s
  | .ldI8 sd lv sa off => Sys2Proof.Machine.execLdI8 sd lv sa off s
  | .ldI16 sd lv sa off => Sys2Proof.Machine.execLdI16 sd lv sa off s
  | .ldI32 sd lv sa off => Sys2Proof.Machine.execLdI32 sd lv sa off s
  | .ldI64 sd lv sa off => Sys2Proof.Machine.execLdI64 sd lv sa off s
  | .ldN8 sd lv sa off => Sys2Proof.Machine.execLdN8 sd lv sa off s
  | .ldN16 sd lv sa off => Sys2Proof.Machine.execLdN16 sd lv sa off s
  | .ldN32 sd lv sa off => Sys2Proof.Machine.execLdN32 sd lv sa off s
  | .stI8 sd lv sa off => Sys2Proof.Machine.execStI8 sd lv sa off s
  | .stI16 sd lv sa off => Sys2Proof.Machine.execStI16 sd lv sa off s
  | .stI32 sd lv sa off => Sys2Proof.Machine.execStI32 sd lv sa off s
  | .stI64 sd lv sa off => Sys2Proof.Machine.execStI64 sd lv sa off s
  | .ldFf sd lv sa off => Sys2Proof.Machine.execLdFf sd lv sa off s
  | .ldFe sd lv sa off => Sys2Proof.Machine.execLdFe sd lv sa off s
  | .stEf sd lv sa off => Sys2Proof.Machine.execStEf sd lv sa off s
  | .fullEmptyRelease addr => Sys2Proof.Machine.execFullEmptyRelease addr s
  | .br n p off => Sys2Proof.Machine.execBr n p off s
  | .loop sc off => Sys2Proof.Machine.execLoop sc off s
  | .call off => Sys2Proof.Machine.execCall off s
  | .ret => Sys2Proof.Machine.execRet s
  | .bp sa => Sys2Proof.Machine.execBp sa s
  | .callr sa => Sys2Proof.Machine.execCallr sa s
  | .tret => Sys2Proof.Machine.execTret s
  | .tretSkip => Sys2Proof.Machine.execTretSkip s
  | .nop => Sys2Proof.Machine.execNop s
  | .getc sd cr => Sys2Proof.Machine.execGetc sd cr s
  | .setc cr sa => Sys2Proof.Machine.execSetc cr sa s
  | .trap code => Sys2Proof.Machine.execTrap code s
  | .kill cls mask => Sys2Proof.Machine.execKill cls mask s
  | .predicatedInstruction n p body => Sys2Proof.Machine.execPredicatedInstruction n p body s
  | .fence sc => Sys2Proof.Machine.execFence sc s
  | .xfence => Sys2Proof.Machine.execXfence s
  | .untaint sa => Sys2Proof.Machine.execUntaint sa s
  | .tfold => Sys2Proof.Machine.execTfold s
  | .give sq => Sys2Proof.Machine.execGive sq s
  | .take sq => Sys2Proof.Machine.execTake sq s
  | .guard sq => Sys2Proof.Machine.execGuard sq s
  | .unguard sq => Sys2Proof.Machine.execUnguard sq s
  | .slip n => Sys2Proof.Machine.execSlip n s
  | .drain mask => Sys2Proof.Machine.execDrain mask s
  | .exit => Sys2Proof.Machine.execExit s
  | .tokw k => Sys2Proof.Machine.execTokw k s
  | .toks k => Sys2Proof.Machine.execToks k s
  | .tick sd => Sys2Proof.Machine.execTick sd s
  | .tickDc sd sa => Sys2Proof.Machine.execTickDc sd sa s
  | .turn sd => Sys2Proof.Machine.execTurn sd s
  | .turnw sa => Sys2Proof.Machine.execTurnw sa s
  | .arrive sc => Sys2Proof.Machine.execArrive sc s
  | .bwait sc => Sys2Proof.Machine.execBwait sc s
  | .ldo sd h sa imm => Sys2Proof.Machine.execLdo sd h sa imm s
  | .sto h sa imm sb => Sys2Proof.Machine.execSto h sa imm sb s
  | .atomAdd sd h sa imm sb => Sys2Proof.Machine.execAtomAdd sd h sa imm sb s
  | .atomMinI64 sd h sa imm sb => Sys2Proof.Machine.execAtomMinI64 sd h sa imm sb s
  | .atomMinN64 sd h sa imm sb => Sys2Proof.Machine.execAtomMinN64 sd h sa imm sb s
  | .atomMaxI64 sd h sa imm sb => Sys2Proof.Machine.execAtomMaxI64 sd h sa imm sb s
  | .atomMaxN64 sd h sa imm sb => Sys2Proof.Machine.execAtomMaxN64 sd h sa imm sb s
  | .atomXchg sd h sa imm sb => Sys2Proof.Machine.execAtomXchg sd h sa imm sb s
  | .atomCas sd h sa imm sb sc => Sys2Proof.Machine.execAtomCas sd h sa imm sb sc s
  | .atomIncb sd h sa imm sb => Sys2Proof.Machine.execAtomIncb sd h sa imm sb s
  | .objectLoadCompletion k => Sys2Proof.Machine.execObjectLoadCompletion k s
  | .dld d sa imm => Sys2Proof.Machine.execDld d sa imm s
  | .dst d sa imm => Sys2Proof.Machine.execDst d sa imm s
  | .qld q sa imm => Sys2Proof.Machine.execQld q sa imm s
  | .qst q sa imm => Sys2Proof.Machine.execQst q sa imm s
  | .hopen h sa => Sys2Proof.Machine.execHopen h sa s
  | .hget sd h => Sys2Proof.Machine.execHget sd h s
  | .hdrop h => Sys2Proof.Machine.execHdrop h s
  | .hstat sd h r word => Sys2Proof.Machine.execHstat sd h r word s
  | .lease sd h sa sb add nowait => Sys2Proof.Machine.execLease sd h sa sb add nowait s
  | .leaseGrant k => Sys2Proof.Machine.execLeaseGrant k s
  | .unlease h sa => Sys2Proof.Machine.execUnlease h sa s
  | .publish sd h => Sys2Proof.Machine.execPublish sd h s
  | .subscribe sd h sa => Sys2Proof.Machine.execSubscribe sd h sa s
  | .ver sd h => Sys2Proof.Machine.execVer sd h s
  | .tokset k prod cons n => Sys2Proof.Machine.execTokset k prod cons n s
  | .mwait sd loc sa imm sb => Sys2Proof.Machine.execMwait sd loc sa imm sb s
  | .watch sd h sa imm sb => Sys2Proof.Machine.execWatch sd h sa imm sb s
  | .unwatch sa => Sys2Proof.Machine.execUnwatch sa s
  | .launch sd sa sb => Sys2Proof.Machine.execLaunch sd sa sb s
  | .lend t vec => Sys2Proof.Machine.execLend t vec s
  | .sbind g hin hout sth sst maxskip => Sys2Proof.Machine.execSbind g hin hout sth sst maxskip s
  | .sgate pd sj g => Sys2Proof.Machine.execSgate pd sj g s
  | .smap sd g sel sa => Sys2Proof.Machine.execSmap sd g sel sa s
  | .sstep g => Sys2Proof.Machine.execSstep g s
  | .cbtok sd sa imm => Sys2Proof.Machine.execCbtok sd sa imm s
  | .nonblockingDispatch p c => Sys2Proof.Machine.execNonblockingDispatch p c s
  | .engineCommandStart e => Sys2Proof.Machine.execEngineCommandStart e s
  | .engineCommandCompletion e => Sys2Proof.Machine.execEngineCommandCompletion e s
  | .vadd h o => Sys2Proof.Machine.execVadd h o s
  | .vsub h o => Sys2Proof.Machine.execVsub h o s
  | .vmul h o => Sys2Proof.Machine.execVmul h o s
  | .vfma h o => Sys2Proof.Machine.execVfma h o s
  | .vmax h o => Sys2Proof.Machine.execVmax h o s
  | .vmin h o => Sys2Proof.Machine.execVmin h o s
  | .vmaxN h o => Sys2Proof.Machine.execVmaxN h o s
  | .vminN h o => Sys2Proof.Machine.execVminN h o s
  | .vabs h o => Sys2Proof.Machine.execVabs h o s
  | .vneg h o => Sys2Proof.Machine.execVneg h o s
  | .vexp2 h o => Sys2Proof.Machine.execVexp2 h o s
  | .vrcp h o => Sys2Proof.Machine.execVrcp h o s
  | .vrsqrt h o => Sys2Proof.Machine.execVrsqrt h o s
  | .vand h o => Sys2Proof.Machine.execVand h o s
  | .vor h o => Sys2Proof.Machine.execVor h o s
  | .vxor h o => Sys2Proof.Machine.execVxor h o s
  | .vshl h o => Sys2Proof.Machine.execVshl h o s
  | .vshr h o => Sys2Proof.Machine.execVshr h o s
  | .vsar h o => Sys2Proof.Machine.execVsar h o s
  | .vsel h o => Sys2Proof.Machine.execVsel h o s
  | .vcmpEq h o => Sys2Proof.Machine.execVcmpEq h o s
  | .vcmpNe h o => Sys2Proof.Machine.execVcmpNe h o s
  | .vcmpLt h o => Sys2Proof.Machine.execVcmpLt h o s
  | .vcmpGe h o => Sys2Proof.Machine.execVcmpGe h o s
  | .vcmpLtN h o => Sys2Proof.Machine.execVcmpLtN h o s
  | .vcmpGeN h o => Sys2Proof.Machine.execVcmpGeN h o s
  | .vredAdd h o => Sys2Proof.Machine.execVredAdd h o s
  | .vredAddN h o => Sys2Proof.Machine.execVredAddN h o s
  | .vredMax h o => Sys2Proof.Machine.execVredMax h o s
  | .vredMin h o => Sys2Proof.Machine.execVredMin h o s
  | .vredMaxN h o => Sys2Proof.Machine.execVredMaxN h o s
  | .vredMinN h o => Sys2Proof.Machine.execVredMinN h o s
  | .vmov h o => Sys2Proof.Machine.execVmov h o s
  | .vaddSat h o => Sys2Proof.Machine.execVaddSat h o s
  | .vaddSatN h o => Sys2Proof.Machine.execVaddSatN h o s
  | .vsubSat h o => Sys2Proof.Machine.execVsubSat h o s
  | .vsubSatN h o => Sys2Proof.Machine.execVsubSatN h o s
  | .vld h off sa wd => Sys2Proof.Machine.execVld h off sa wd s
  | .vst h dead off sa ws => Sys2Proof.Machine.execVst h dead off sa ws s
  | .vcvt h dead part sf df wa wd => Sys2Proof.Machine.execVcvt h dead part sf df wa wd s
  | .vbcast h t sa wd => Sys2Proof.Machine.execVbcast h t sa wd s
  | .vxset h dead wa c => Sys2Proof.Machine.execVxset h dead wa c s
  | .vperm h dead t c wa wd => Sys2Proof.Machine.execVperm h dead t c wa wd s
  | .vtopk h dead t k wa wd => Sys2Proof.Machine.execVtopk h dead t k wa wd s
  | .vext h dead t lane wa sd => Sys2Proof.Machine.execVext h dead t lane wa sd s
  | .vins h t lane sa wd => Sys2Proof.Machine.execVins h t lane sa wd s
  | .mmul h o => Sys2Proof.Machine.execMmul h o s
  | .mmulG h o deadI wi => Sys2Proof.Machine.execMmulG h o deadI wi s
  | .mmulS h o dsx => Sys2Proof.Machine.execMmulS h o dsx s
  | .mzero h td => Sys2Proof.Machine.execMzero h td s
  | .mxpack h af i32 dd td => Sys2Proof.Machine.execMxpack h af i32 dd td s
  | .fetch h o => Sys2Proof.Machine.execFetch h o s
  | .fetchIx h dl si q ds ha => Sys2Proof.Machine.execFetchIx h dl si q ds ha s
  | .fetchStep h sj g si q ds ha => Sys2Proof.Machine.execFetchStep h sj g si q ds ha s
  | .relay h lvs sx dd lvd si ds => Sys2Proof.Machine.execRelay h lvs sx dd lvd si ds s
  | .put h o => Sys2Proof.Machine.execPut h o s
  | .putAdd h o => Sys2Proof.Machine.execPutAdd h o s
  | .xcopy h sx dd si ds => Sys2Proof.Machine.execXcopy h sx dd si ds s
  | .poolFill h sx si q ha => Sys2Proof.Machine.execPoolFill h sx si q ha s
  | .poolCopy h sx hsrc si q ha => Sys2Proof.Machine.execPoolCopy h sx hsrc si q ha s
  | .poolCmp h sx h2 si q ds ha => Sys2Proof.Machine.execPoolCmp h sx h2 si q ds ha s
  | .poolRed h op sx hsrc si q ha => Sys2Proof.Machine.execPoolRed h op sx hsrc si q ha s
  | .sreuse h g si ds => Sys2Proof.Machine.execSreuse h g si ds s
  | .accessReplay site => Sys2Proof.Machine.execAccessReplay site s
  | .blockRetirement => Sys2Proof.Machine.execBlockRetirement s
  | .launchNotify fn q tail => Sys2Proof.Machine.execLaunchNotify fn q tail s
  | .launchAdmission fn q => Sys2Proof.Machine.execLaunchAdmission fn q s
  | .queueUnmap fn q => Sys2Proof.Machine.execQueueUnmap fn q s
  | .pendingScan die => Sys2Proof.Machine.execPendingScan die s
  | .dispatcherPick die => Sys2Proof.Machine.execDispatcherPick die s
  | .gangReservation slot => Sys2Proof.Machine.execGangReservation slot s
  | .watchdogExpiry slot => Sys2Proof.Machine.execWatchdogExpiry slot s
  | .dieFailure die => Sys2Proof.Machine.execDieFailure die s
  | .descSync => Sys2Proof.Machine.execDescSync s
  | .shoot => Sys2Proof.Machine.execShoot s
  | .g2Shoot => Sys2Proof.Machine.execG2Shoot s
  | .fbFlush => Sys2Proof.Machine.execFbFlush s
  | .counterMove => Sys2Proof.Machine.execCounterMove s
  | .twrite => Sys2Proof.Machine.execTwrite s
  | .tread => Sys2Proof.Machine.execTread s
  | .fbheadWrite die v => Sys2Proof.Machine.execFbheadWrite die v s
  | .dcvalWrite v => Sys2Proof.Machine.execDcvalWrite v s
  | .ttctlWrite v => Sys2Proof.Machine.execTtctlWrite v s
  | .timetableRelease part => Sys2Proof.Machine.execTimetableRelease part s
  | .turnBoundary part => Sys2Proof.Machine.execTurnBoundary part s
  | .ptpEventFrame port f => Sys2Proof.Machine.execPtpEventFrame port f s
  | .frameEdge part => Sys2Proof.Machine.execFrameEdge part s
  | .clearboardToken part => Sys2Proof.Machine.execClearboardToken part s
  | .tokcopy addr => Sys2Proof.Machine.execTokcopy addr s
  | .vfreset fn => Sys2Proof.Machine.execVfreset fn s
  | .securityAlarm cause => Sys2Proof.Machine.execSecurityAlarm cause s
  | .packageReset => Sys2Proof.Machine.execPackageReset s
  | .boot => Sys2Proof.Machine.execBoot s
  | .recoveryStart => Sys2Proof.Machine.execRecoveryStart s
  | .inFieldTest core pass => Sys2Proof.Machine.execInFieldTest core pass s
  | .singleFaultDetection kind core => Sys2Proof.Machine.execSingleFaultDetection kind core s
  | .hostLoad port tag addr len => Sys2Proof.Machine.execHostLoad port tag addr len s
  | .hostStore port tag addr data => Sys2Proof.Machine.execHostStore port tag addr data s
  | .hostRequestTimeout k => Sys2Proof.Machine.execHostRequestTimeout k s
  | .apertureDescriptorWrite port tag fn a word v => Sys2Proof.Machine.execApertureDescriptorWrite port tag fn a word v s
  | .serviceNotify port tag fn v => Sys2Proof.Machine.execServiceNotify port tag fn v s
  | .hostLinkUp port => Sys2Proof.Machine.execHostLinkUp port s
  | .hostLinkDown port => Sys2Proof.Machine.execHostLinkDown port s
  | .create r index root frames => Sys2Proof.Machine.execCreate r index root frames s
  | .destroy r => Sys2Proof.Machine.execDestroy r s
  | .reside r frames => Sys2Proof.Machine.execReside r frames s
  | .publishService r => Sys2Proof.Machine.execPublishService r s
  | .collective r parts => Sys2Proof.Machine.execCollective r parts s
  | .eventBind r => Sys2Proof.Machine.execEventBind r s
  | .streamBind r => Sys2Proof.Machine.execStreamBind r s
  | .flashWrite r => Sys2Proof.Machine.execFlashWrite r s
  | .peerRead f => Sys2Proof.Machine.execPeerRead f s
  | .peerReadReply f => Sys2Proof.Machine.execPeerReadReply f s
  | .peerWrite f => Sys2Proof.Machine.execPeerWrite f s
  | .peerWriteAck f => Sys2Proof.Machine.execPeerWriteAck f s
  | .peerAtomic f => Sys2Proof.Machine.execPeerAtomic f s
  | .peerAtomicReply f => Sys2Proof.Machine.execPeerAtomicReply f s
  | .peerPublish f => Sys2Proof.Machine.execPeerPublish f s
  | .peerCumulativeAck f => Sys2Proof.Machine.execPeerCumulativeAck f s
  | .peerControl f => Sys2Proof.Machine.execPeerControl f s
  | .peerRetransmit port dst => Sys2Proof.Machine.execPeerRetransmit port dst s
  | .shareMemberLost pkg => Sys2Proof.Machine.execShareMemberLost pkg s
  | .ingressFrame port f => Sys2Proof.Machine.execIngressFrame port f s
  | .portcfgWrite v => Sys2Proof.Machine.execPortcfgWrite v s
  | .poolExtentWithdrawn base len => Sys2Proof.Machine.execPoolExtentWithdrawn base len s
  | .poolReleaseRequest base len frames => Sys2Proof.Machine.execPoolReleaseRequest base len frames s
  | .pwrtgtWrite v => Sys2Proof.Machine.execPwrtgtWrite v s
  | .powerCap w => Sys2Proof.Machine.execPowerCap w s
  | .powerRestore w => Sys2Proof.Machine.execPowerRestore w s
  | .systemCsrWrite csr a => Sys2Proof.Machine.execSystemCsrWrite csr a s
  | .illegalInstruction w0 w1 => Sys2Proof.Machine.execIllegalInstruction w0 w1 s
  | .fetchFault addr => Sys2Proof.Machine.execFetchFault addr s
  | .postedStorePerformed k => Sys2Proof.Machine.execPostedStorePerformed k s
  | .systemCoreAccess addr len data => Sys2Proof.Machine.execSystemCoreAccess addr len data s
  | .poolExtentOffer base len dvsec => Sys2Proof.Machine.execPoolExtentOffer base len dvsec s
  | .powerLoss => Sys2Proof.Machine.execPowerLoss s
  | .linkDown link => Sys2Proof.Machine.execLinkDown link s

end Sys2Proof.Machine
end

