-- ==== Sys2Proof/Machine/Schedule.lean ====
section
/-! DEFINITION. What happens in one step (R5, R16, R24, R25, R36, R61, R243, R314, R332, R334, R344): the head of the agenda, or, where it
names nothing, in turn the next instruction of the block that moves next, one of the outstanding operations of its core, one of the package's,
and the turn of the next block (log 1). -/

namespace Sys2Proof.Machine

/-- Whether a row is an event that the agenda may name: neither an instruction of a strand's stream nor an outcome of a fetch. -/
def isEvent : Instr → Bool
  | .predicatedInstruction .. | .nonblockingDispatch .. | .illegalInstruction .. | .fetchFault .. => false
  | i => !i.encoded

/-- Whether a locked part refuses an event: only a package reset or a loss of power ends the lock (R344). -/
def lockedOut (s : State) (i : Instr) : Bool :=
  s.wo.locked && !(match i with | .packageReset | .powerLoss => true | _ => false)

/-- Whether a frame edge lets the strand of the block that moves next issue: none has stopped it, or it finishes the instruction whose reply
has come (R332, R334; log 14). -/
def edgeIssues (s : State) : Bool :=
  match (switchOf s s.blk.part).edge with
  | .run => true
  | .stopping => s.blk.reply.isSome
  | .mute => false

/-- Whether the strand of the block that moves next issues: it runs, waits for nothing, and neither a stall wire nor a frame edge holds it
(R314, R332). -/
def issues (s : State) : Bool := s.blk.phase == .running && s.blk.ready && !stallWire s s.blk && edgeIssues s

/-- Whether the block that moves next stands restored in a frame that its partition's next edge has overtaken: nothing of it moves (R334). -/
def muted (s : State) : Bool := (switchOf s s.blk.part).edge == .mute && s.blk.phase != .none

/-- Whether a row moves the block that moves next. -/
def ofBlock : Instr → Bool
  | .engineCommandStart _ | .engineCommandCompletion _ | .objectLoadCompletion _ | .postedStorePerformed _ | .blockRetirement => true
  | .accessReplay site => match site with | .dispatcher _ | .host _ => false | _ => true
  | _ => false

/-- What a step does: an instruction or event in a state, or an outcome reached without one. -/
inductive Choice where
  | run (i : Instr) (s : State)
  | stay (s : State)
  deriving DecidableEq, Repr

/-! ## The strand's next instruction (R61, R73, R119) -/

/-- The strand executes: no fault of an engine falls in the cycle of the last one any more (R124). -/
def strandMoves (s : State) : State := { s with blk := { s.blk with faultNow := false } }

/-- Fetch and decode at the pc: the instruction, or the event that stands for what is not one (R61, R73, R119). -/
def fetchNext (s : State) : Choice :=
  let s := strandMoves s
  match fetchInstr s s.blk.pc.toNat with
  | (.word w0, w1, s') =>
    match decodeWords w0 w1 with
    | .ok i => .run i s'
    | .error _ => .run (.illegalInstruction w0 w1) s'
  | _ => .run (.fetchFault s.blk.pc) s

/-! ## The outstanding operations of the block that moves next -/

/-- The wait of a full/empty instruction or a `lease` may end (R179, R291). -/
def wakeStrand (s : State) : Out :=
  match s.blk.wait with
  | some (.fullEmpty a) => execFullEmptyRelease a s
  | some (.lease _) =>
    match s.tb.leaseWait.findIdx? (fun r => r.holder == s.blk.id) with
    | some k => execLeaseGrant k s
    | none => .next s
  | _ => .next s

/-- The outstanding operations: completions, starts, loads, posted writes, retirement. -/
def outstanding (s : State) : List (State → Out) :=
  [wakeStrand,
   execEngineCommandCompletion .F, execEngineCommandCompletion .V, execEngineCommandCompletion .M, execEngineCommandCompletion .P,
   execEngineCommandStart .F, execEngineCommandStart .V, execEngineCommandStart .M, execEngineCommandStart .P]
  ++ (List.range s.blk.loads.length).map execObjectLoadCompletion
  ++ (List.range s.blk.posted.length).map execPostedStorePerformed
  ++ [execBlockRetirement]

/-- The state behind the first operation of a list that changes it. -/
def firstChange (s : State) : List (State → Out) → Option State
  | [] => none
  | f :: fs => if after s (f s) == s then firstChange s fs else some (after s (f s))

/-- The outstanding operations, from one place on and around: each of them comes first in its turn (R36; log 1). -/
def rotated (n : Nat) (fs : List (State → Out)) : List (State → Out) := fs.drop (n % fs.length) ++ fs.take (n % fs.length)

/-- The rounds of the schedule so far: in one, every block has its turn. -/
def rounds (s : State) : Nat := s.beat / (4 * (s.others.length + 1))

/-- The state behind the first outstanding operation in its turn that changes it. -/
def turnMoves (s : State) : Option State := firstChange s (rotated (rounds s) (outstanding s))

/-- The strand's unfinished instruction executes again (R243), unless it waits for what comes to it. -/
def retry (s : State) : State :=
  match s.blk.wait with
  | some (.fullEmpty _) | some (.lease _) | some (.leaseAway ..) | some (.remote ..) | some (.fetch ..) | some (.replay _) => s
  | some (.park p) => if s.blk.strandTurn (some p) then { s with blk := s.blk.replay p } else s
  | _ => { s with blk := { s.blk with wait := none } }

/-- Whether a wait is abandoned while the stall wire is high (R314): a parked access stays parked. -/
def stallAbandons (s : State) : Bool :=
  stallWire s s.blk && (match s.blk.wait with | none | some (.park _) | some (.replay _) | some (.remote ..) | some (.fetch ..) => false | _ => true)

/-- The turn of a strand that does not issue. -/
def idle (s : State) : State :=
  if stallAbandons s then
    let s := abandonWait s s.blk.id
    { s with blk := { s.blk with wait := none, wrap := none } }
  else
    match turnMoves s with
    | some s => s
    | none => retry s

/-- The turn of the core's outstanding operations; where none can move, the strand's. -/
def moveCore (s : State) : Choice :=
  match turnMoves s with
  | some s => .stay s
  | none => if issues s then fetchNext s else .stay (retry s)

/-- The turn goes to the next block. -/
def nextBlock (s : State) : State :=
  match s.others with
  | [] => s
  | b :: bs => { s with blk := b, others := if s.blk.phase == .none then bs else bs ++ [s.blk] }

/-! ## The package's own moves (R36) -/

/-- What the dispatchers and the released accesses of the package can do: picks, admissions, reservations, and the parked accesses of the
dispatchers, the host and the stream unit. -/
def packageOps (s : State) : List (State → Out) :=
  (List.range 4).map (fun d => execDispatcherPick (BitVec.ofNat 2 d))
  ++ s.dp.ctxs.map (fun c => execLaunchAdmission c.fn c.queue)
  ++ [fun s => .next (settleReserved s), fun s => .next (releaseReset s), fun s => .next (settleSyncs s), fun s => .next (settleGates s)]
  ++ (List.range (s.dp.parked.length + s.dp.cwords.length + s.dp.jobs.length + 16)).map (fun k => execAccessReplay (.dispatcher k))
  ++ (List.range (s.ho.reqs.length + s.pe.frames.length)).map (fun k => execAccessReplay (.host k))

/-- The state behind the first of them in its turn that changes it: each comes first in its turn (R36; log 1). -/
def packageMoves (s : State) : State := (firstChange s (rotated (rounds s) (packageOps s))).getD s

/-! ## The choice (log 1) -/

/-- A step that the agenda does not name. -/
def ownStep (s : State) : Choice :=
  let s' := { s with beat := s.beat + 1 }
  match s.beat % 4 with
  | 0 => if muted s then .stay s' else if issues s then fetchNext s' else .stay (idle s')
  | 1 => if muted s then .stay s' else moveCore s'
  | 2 => .stay (packageMoves s')
  | _ => .stay (nextBlock s')

/-- What the next step does. -/
def choose (s : State) : Choice :=
  match s.agenda with
  | .event i :: rest =>
    let s := { s with agenda := rest }
    if !isEvent i || lockedOut s i || (ofBlock i && muted s) then .stay s else .run i s
  | .turnTo id :: rest => .stay (focus { s with agenda := rest } id)
  | [] => if s.wo.locked then .stay s else ownStep s

/-! ## Placing an instruction where the next step fetches it (log 4) -/

/-- The handle of the code object that holds a placed instruction. -/
def placedCode (s : State) : DWord := handleOf s.pl.pkg.toNat 1 0

/-- The descriptor of that object: code of bytes, three dimensions that cover every address of a strand, readable by the block's
world. -/
def placedDesc (world : BitVec 14) : BitVec 512 :=
  BitVec.ofNat 512
    (kCode * 2 ^ 44 + 3 * 2 ^ 40 + 4 * 2 ^ 35 + 15 * 2 ^ 28
      + (65535 + 65535 * 2 ^ 16 + 2 * 2 ^ 32) * 2 ^ 64
      + (2 ^ 14 + world.toNat) * 2 ^ 256)

/-- The state in which the next step fetches the instruction of two words: a running block at its pc, whose code object holds
them, in a partition that runs, and the strand's turn. -/
def placeInstr (s : State) (w0 w1 : Word) : State :=
  let bs := bytesOf w0 ++ bytesOf w1
  let cells := (List.range 8).map (fun i => (s.blk.pc.toNat + i, bs.getD i 0))
  let s := setSwitch s s.blk.part { switchOf s s.blk.part with edge := .run }
  { s with
    agenda := [], beat := 0
    blk := { s.blk with
      phase := .running, wait := none, code := placedCode s, codeDesc := placedDesc s.blk.world, codeRefresh := false,
      codeBuf := cells }
    wo := { s.wo with locked := false } }

end Sys2Proof.Machine
end

