-- ==== Sys2Proof/Machine/Step.lean ====
section
/-! DEFINITION. One step of the machine (log 1), and the state in which a given instruction is the next one (log 4). -/

namespace Sys2Proof.Machine

/-- One step: what the schedule chooses, by its meaning. -/
def step (s : State) : Host.Outcome State Fault Refusal :=
  match choose s with
  | .run i s' => exec i s'
  | .stay s' => .next s'

/-- The state in which the next step fetches and runs the instruction whose bits are w, the bits above nbits zero (log 4). -/
def State.withFetchWord (s : State) (nbits w : Nat) : State :=
  let v := w % 2 ^ nbits
  placeInstr s (BitVec.ofNat 32 v) (BitVec.ofNat 32 (v / 2 ^ 32))

end Sys2Proof.Machine
end

