-- ==== Sys2Proof/Safety.lean ====
section
/-! DEFINITION. What the statements call a safe run: no stop, a canonical memory, and what an instruction leaves alone. -/

namespace Sys2Proof.Safety

open Sys2Proof Sys2Proof.Machine

/-- The step answers a state. -/
def Goes (s t : State) : Prop := step s = .next t

/-- A state is reached by steps that go on. -/
inductive Reaches : State → State → Prop where
  | refl (s : State) : Reaches s s
  | step (s t u : State) : Goes s t → Reaches t u → Reaches s u

/-- The memory is in its canonical form. -/
def Canonical (s : State) : Prop := Memory.wf s.mem = true

/-- Every byte of memory reads as before. -/
def SameMemory (s t : State) : Prop := ∀ a, Memory.read t.mem a = Memory.read s.mem a

/-- Every byte outside n bytes from an address reads as before. -/
def SameMemoryBut (s t : State) (a n : Nat) : Prop := ∀ x, x < a ∨ a + n ≤ x → Memory.read t.mem x = Memory.read s.mem x

/-- Everything beside the block that moves next is as before. -/
def OnlyBlock (s t : State) : Prop := t = { s with blk := t.blk }

/-- A strand instruction that reads the scalars rs and predicates ps and writes the scalars ds and predicates dp is ready: no command
or load will still write one of them, and under DEAD_MODE.MODE = 1 none that it reads is dead (R25, R96). -/
def Ready (b : Block) (rs : List SReg) (ps : List PReg) (ds : List SReg) (dp : List PReg) : Prop :=
  (∀ r ∈ rs ++ ds, busyS b r = false) ∧ (∀ p ∈ ps ++ dp, busyP b p = false)
    ∧ (b.deadMode = true → (∀ r ∈ rs, deadS b r = false) ∧ (∀ p ∈ ps, deadP b p = false))

/-- A handle register is live where DEAD_MODE asks for it, and its hidden copy serves an access at required stamp f (R83, R96, R223,
R276). -/
def LiveHandle (b : Block) (h : BitVec 4) (f : DWord) : Prop :=
  hLow (b.hCell h).v = 0 ∧ hIndex (b.hCell h).v ≠ 0 ∧ (b.hCell h).refresh = false
    ∧ f.toNat ≤ (b.hCell h).stamp.toNat ∧ dGen (b.hCell h).desc = hGen (b.hCell h).v ∧ dKind (b.hCell h).desc ≠ 0
    ∧ dRes (b.hCell h).desc ≠ 6 ∧ (b.deadMode = true → (b.hCell h).dead = false)

/-- The access of an instruction whose registers carry the taint set t waits for no load, so that its required stamp is known
(R225). -/
def Settled (b : Block) (t : Taint) : Prop := b.waitLoads (b.accessT t) = []

/-- An access of w bytes at offset a of a level that R190 lets through: aligned, within the bound, and in no square that a guard keeps
from the strand; and no atomic that a fence has put before it is outstanding (R229). -/
def OnChip (s : State) (lv : Level) (a w : Nat) : Prop :=
  a % w = 0 ∧ a + w - 1 < levelBound s lv ∧ (lv = .sp → strandOwnFault s.blk a w = none) ∧ (lv ≠ .sp → s.blk.fenceHeld = false)

/-- No armed watch names element i of an object, in its generation (R299, R328). -/
def Unwatched (s : State) (h : DWord) (i : Nat) : Prop :=
  ∀ e ∈ armedWatches s, ¬ (tlbHandle (BitVec.ofNat 64 (hubWord s 5 e 0)) = tlbHandle h ∧ hubWord s 5 e 1 = i)

/-- Every dead scalar and predicate holds zero with an empty taint set (R95). -/
def DeadClear (b : Block) : Prop :=
  (∀ i, (h : i < 64) → b.s[i].dead = true → b.s[i].v = 0 ∧ b.s[i].t = 0)
    ∧ (∀ i, (h : i < 48) → b.p[i].dead = true → b.p[i].v = 0 ∧ b.p[i].t = 0)

/-- A command with only the bits of m left in the sets that it writes later; an F or P command keeps the set that it captured where `keep`
says so (R236, R237). -/
def cleanCmd (m : Taint) (keep : Bool) (c : Cmd) : Cmd :=
  { c with wtaint := c.wtaint &&& m, taint := if keep = true ∧ c.eng ≠ .M then c.taint else c.taint &&& m }

/-- Block t is block b with only the bits of m left in every taint set: of the scalars, predicates, crossbar words, vector registers, banks,
comparator results and the later writes of its commands, and in CTL_TAINT. Its values, queues and other registers are as before. -/
def Cleaned (b t : Block) (m : Taint) (keep : Bool) : Prop :=
  t.ctl = b.ctl &&& m
    ∧ (∀ r : SReg, t.sCell r = { b.sCell r with t := (b.sCell r).t &&& m })
    ∧ (∀ p : PReg, t.pCell p = { b.pCell p with t := (b.pCell p).t &&& m })
    ∧ (∀ w : WReg, t.wCell w = { b.wCell w with t := (b.wCell w).t &&& m })
    ∧ t.c = b.c.map (fun c => { c with t := c.t &&& m })
    ∧ t.bankTaint = b.bankTaint.map (· &&& m)
    ∧ (∀ g : BitVec 3, t.gCell g = { b.gCell g with queue := (b.gCell g).queue.map (fun r => { r with taint := r.taint &&& m }) })
    ∧ (∀ e, t.eng e = { b.eng e with
        q := (b.eng e).q.map (cleanCmd m keep), run := (b.eng e).run.map (cleanCmd m keep), trail := (b.eng e).trail.map (cleanCmd m keep) })
    ∧ t.h = b.h ∧ t.d = b.d ∧ t.q = b.q ∧ t.tok = b.tok ∧ t.posted = b.posted ∧ t.fpstat = b.fpstat ∧ t.rm = b.rm

/-- A running command of an engine that runs no other one, whose signal token, if it has one, can be pushed (R30), on a block whose strand
has no answer of another package to use. -/
def RunsIn (s : State) (e : Engine) (c : Cmd) : Prop :=
  (s.blk.eng e).run = some c ∧ (s.blk.eng e).trail = [] ∧ c.eng = e ∧ c.off = false ∧ c.skipEnd = false ∧ c.checked = 0
    ∧ (∀ k, c.hdr.sig = some k → (s.blk.token k).count ≠ 255) ∧ s.blk.abroad = false ∧ Memory.wf s.mem = true

/-- The same of an F or P command that neither a park nor a request holds and that has moved nothing yet. -/
def RunsT (s : State) (e : Engine) (c : Cmd) : Prop :=
  RunsIn s e c ∧ c.park = none ∧ c.remote = none ∧ c.reply = none ∧ c.moved = 0 ∧ c.buf = [] ∧ c.flags = 0 ∧ s.blk.phase ≠ .saved
    ∧ awaitsGate s.blk c = false

/-- All n positions of a job move together, in the same 64-byte line of their object, and none is clipped (R188, R202). -/
def OneLine (ks : List (Option (Nat × Nat))) (n : Nat) : Prop := 0 < n ∧ ks.length = n ∧ ∃ k, ∀ x ∈ ks, x = some k

/-- What the completion of a command leaves beside memory: its engine is free, the caches and the clock may have been used, and no register
but FPSTAT and its signal token has changed. -/
def MovedOnly (s : State) (e : Engine) (t : State) : Prop :=
  t = { s with mem := t.mem, tb := t.tb, tm := t.tm, blk := t.blk } ∧ (t.blk.eng e).run = none ∧ (t.blk.eng e).q = (s.blk.eng e).q
    ∧ t.blk.s = s.blk.s ∧ t.blk.p = s.blk.p ∧ t.blk.h = s.blk.h ∧ t.blk.d = s.blk.d ∧ t.blk.w = s.blk.w ∧ t.blk.pc = s.blk.pc

/-- Whether a V command has lanes off among the first n. -/
def someOff (c : Cmd) (n : Nat) : Bool := !(List.range n).all (fun k => c.mask.getLsbD k)

/-- Whether some byte of what a V command writes keeps its former value (R129, R130): where lanes are off, and in the part of a narrowing `vcvt`
and around the lane of a `vins`. -/
def keepsOld (c : Cmd) : Bool :=
  match c.instr with
  | .vld .. | .vxset .. => someOff c 128
  | .vcvt _ _ _ sf df _ _ => decide (codeWidth df.toNat < codeWidth sf.toNat) || someOff c (vcvtCount sf df)
  | .vbcast _ t _ _ | .vperm _ _ t _ _ _ => someOff c (elemLanes t)
  | .vins .. => true
  | .vtopk .. | .vsel .. | .vredAdd .. | .vredAddN .. | .vredMax .. | .vredMin .. | .vredMaxN .. | .vredMinN .. => false
  | i => match vaOf? i with | some (o, _) => someOff c (elemLanes o.t) | none => false

/-- The union of the taint sets of what a V command reads: its vector registers, `vperm`'s crossbar word, and the scalar and the predicate that
it captured (R130). -/
def readTaint (b : Block) (c : Cmd) : Taint :=
  rowsTaint b (vSources c.instr) ||| (match c.instr with | .vperm _ _ _ x _ _ => (b.cCell x).t | _ => 0) ||| c.wtaint

/-- A finite value. -/
def IsFin : Val → Prop
  | .fin _ _ _ => True
  | _ => False

/-- The rational number that a finite value is (R41). -/
def ratOf : Val → Rat
  | .fin n m e => (if n then -1 else 1) * (m : Rat) * (2 : Rat) ^ e
  | _ => 0

/-- Where the count that `sgate` reads comes from, and the state behind the read: the reply of IN's home or of the package that has its slab,
or IN on this package. -/
def SkipCount (s : State) (x : GCell) (j n : Nat) (u : State) : Prop :=
  (∃ bs, s.blk.reply = some bs ∧ n = replyValue bs 0 ∧ u = s)
    ∨ (s.blk.reply = none ∧ hHome x.inH = s.pl.pkg.toNat ∧ u.blk = s.blk ∧ ∃ f d st w vs st', f = s.blk.reqStamp (s.blk.accessT 0)
        ∧ resolve s (s.blk.who 0) x.inH f = (.ok d st, w) ∧ w.blk = s.blk
        ∧ objReadFrom true w (w.blk.who 0) x.inH d f 0 ((gateFields d j).drop 1) = (.ok vs st', u) ∧ n = vs.getD 0 0)

/-- A request of the host's as its event brings it, in a frame whose tag is right (R336, R350, R352, R355). -/
def IsRequest (i : Instr) (q : HostReq) : Prop :=
  (∃ port tag addr len, i = .hostLoad ⟨port, true⟩ tag addr len ∧ q = newReq port tag addr len none)
    ∨ (∃ port tag addr data, i = .hostStore ⟨port, true⟩ tag addr data ∧ q = newReq port tag addr data.length (some data))
    ∨ (∃ port tag fn a word v, i = .apertureDescriptorWrite ⟨port, true⟩ tag fn a word v
        ∧ q = newReq port tag (BitVec.ofNat 64 (fn.toNat * 2 ^ 40 + 0x2000 + (16 * a.toNat + 8 * b2n word))) 8 (some (leBytes 8 v.toNat)))
    ∨ (∃ port tag fn v, i = .serviceNotify ⟨port, true⟩ tag fn v
        ∧ q = newReq port tag (BitVec.ofNat 64 (fn.toNat * 2 ^ 40 + 0x1000)) 8 (some (leBytes 8 v.toNat)))

/-- A port has room for a request, whose tag no outstanding one has (R350). -/
def Arrives (s : State) (q : HostReq) : Prop :=
  (portReqs s q.port).length < 4096 ∧ ∀ x ∈ portReqs s q.port, x.tag ≠ q.tag

/-- No outstanding request of the host's could go on now. -/
def HostWaits (s : State) : Prop := ∀ (k : Nat) x, s.ho.reqs[k]? = some x → x.park = none → hostFree s k x = false

/-- A request that no outstanding one holds up arrives where none of those could go on (R353). -/
def HostTurn (s : State) (q : HostReq) : Prop := Arrives s q ∧ HostWaits s ∧ ∀ x ∈ s.ho.reqs, q.after x = false

/-- A frame is taken that repeats none taken before (R361). -/
def TakesFrame (s : State) (f : PeerFrame) : Prop := frameTaken s f = true ∧ takenBefore s f = false

/-- The next request of a service ring is there, well formed, and of an operation, with its seven argument words (R355). -/
def Pending (s : State) (q : SvcReq) (op : Nat) (r : SvcRing) (args : List Nat) : Prop :=
  svcRingOf s q.fn q.host = some r ∧ r.remote = none ∧ slotOpen s r = true ∧ r.served.toNat < ringWord s r 0
    ∧ ∃ w0, ringSlot s r r.served.toNat = some (w0 :: args) ∧ bits w0 32 32 = (r.served.toNat + 1) % 2 ^ 32
      ∧ bits w0 16 16 = op ∧ bits w0 0 16 = 0 ∧ bits (args.getD 5 0) 16 48 = 0

/-- A service has completed with a status and a result in state t (R355). -/
def Finished (s : State) (q : SvcReq) (r : SvcRing) (i : Instr) (t : State) (status : Nat) (result : Option DWord) : Prop :=
  exec i s = .next (finishRequest t ((svcRingOf t q.fn q.host).getD r) status result)

end Sys2Proof.Safety
end

