-- ==== Sys2Proof/Certificates/Slice0/Obligations.lean ====
section
/-! DEFINITION. The statements for the provers, from the numbered rules of the spec. A result statement says that the instruction
completes, what it writes, and by naming the whole next state what it leaves alone. -/

open Sys2Proof Sys2Proof.Machine Sys2Proof.Safety

/-! ## Reset, decoding and the step -/

/-- The machine after reset: the registers as R81, R82, R88, R44, R48, R52 and R96 have them, the on-chip stores zero and full and
the memory behind them poisoned (R187, log 17), the memory in its canonical form, PTURN 0 and NEXT at TPER (R306, R330), and no lock;
the registers that the spec gives no reset value are zero by the model's choice (log 5). -/
def Obligations.ResetState : Prop :=
  (∀ r, rdS State.reset.blk r = 0 ∧ taintS State.reset.blk r = 0 ∧ deadS State.reset.blk r = false)
  ∧ (∀ p, rdP State.reset.blk p = if p = 0 then BitVec.allOnes 128 else 0)
  ∧ readCReg State.reset .fpctl = 0 ∧ readCReg State.reset .fpstat = 0 ∧ readCReg State.reset .srlfsr = 1
  ∧ readCReg State.reset .deadMode = 0 ∧ readCReg State.reset .slipDepth = 16 ∧ readCReg State.reset .bankSide = 0
  ∧ (∀ a, isDram a = true → Memory.read State.reset.mem a = none)
  ∧ (∀ a, isDram a = false → Memory.read State.reset.mem a = some 0)
  ∧ (∀ a, isFull State.reset a = true)
  ∧ Memory.wf State.reset.mem = true
  ∧ State.reset.blk.phase = .none ∧ State.reset.others = [] ∧ State.reset.wo.locked = false
  ∧ (∀ p, (partOf State.reset p).pturn = 0 ∧ (partOf State.reset p).next = 1000000)

/-- Words written out from the encoding rules decode to the instruction they stand for (R63-R68, R157, R200, R302). -/
def Obligations.DecodeWords : Prop :=
  decodeWords 0x01124404 0 = .ok (.add 4 9 17)
  ∧ decodeWords 0x0410C54C 0 = .ok (.ldI64 5 .cl 3 0x10)
  ∧ decodeWords 0xFFFE8580 0 = .ok (.br false 5 0x1FFFD)
  ∧ decodeWords 0x1000008C 0 = .ok .nop
  ∧ decodeWords 0x000140A4 0 = .ok (.give 5)
  ∧ decodeWords 0x00000798 0 = .ok (.trap 7)
  ∧ decodeWords 0x1851051B 0x00000003 = .ok (.watch 4 3 5 0 6)
  ∧ decodeWords 0x0000031B 0x00228005 = .ok (.tokset 5 .V .F 2)

/-- Decoding what an instruction encodes to gives the instruction back, whatever its operands (R63-R73): no bit of an encoding is
dropped. -/
def Obligations.EncodeDecode : Prop :=
  ∀ i : Instr, i.wf = true → i.encoded = true → decodeList (encode i) = .ok i

/-- One step runs the instruction that the words at the program counter decode to; words that decode to none run
ILLEGAL_INSTRUCTION with them, and a fetch that gives no word runs FETCH_FAULT (R61, R73, R119): on the strand's turn where it issues,
and on its core's turn where nothing outstanding moves. The head of the agenda comes first; of every four steps of the model's order the first
is the strand's, the second its core's, the third the package's own moves, and the fourth gives the turn to the next block (log 1). -/
def Obligations.StepRunsDecoded : Prop :=
  (∀ s u, s.agenda = [] → s.wo.locked = false → muted s = false → issues s = true →
    s.beat % 4 = 0 ∨ (s.beat % 4 = 1 ∧ turnMoves { s with beat := s.beat + 1 } = none) →
    u = { s with beat := s.beat + 1, blk := { s.blk with faultNow := false } } →
      (∀ w0 w1 i s', fetchInstr u s.blk.pc.toNat = (.word w0, w1, s') → decodeWords w0 w1 = .ok i → step s = exec i s')
      ∧ (∀ w0 w1 e s', fetchInstr u s.blk.pc.toNat = (.word w0, w1, s') → decodeWords w0 w1 = .error e →
          step s = exec (.illegalInstruction w0 w1) s')
      ∧ (∀ f w1 s', fetchInstr u s.blk.pc.toNat = (f, w1, s') → (∀ w, f ≠ .word w) → step s = exec (.fetchFault s.blk.pc) u))
  ∧ (∀ s i rest, s.agenda = .event i :: rest → isEvent i = true → s.wo.locked = false → (ofBlock i = true → muted s = false) →
    step s = exec i { s with agenda := rest })
  ∧ (∀ s b bs, s.agenda = [] → s.wo.locked = false → s.beat % 4 = 3 → s.others = b :: bs → s.blk.phase ≠ .none →
    step s = .next { s with beat := s.beat + 1, blk := b, others := bs ++ [s.blk] })
  ∧ (∀ s, s.agenda = [] → s.wo.locked = false → s.beat % 4 = 2 → step s = .next (packageMoves { s with beat := s.beat + 1 }))

/-- The machine never stops: every step answers a next state, but where the agenda names a SYSTEM_CORE_ACCESS, which alone can end
in a bus error (R118, R181, R182). -/
def Obligations.NeverStops : Prop :=
  ∀ s, (∀ a n d rest, s.agenda ≠ .event (.systemCoreAccess a n d) :: rest) → ∃ t, step s = .next t

/-- A locked part stays locked, and nothing moves in it but the agenda and the choice of the block in focus, until a package reset
or a loss of power comes (R344). -/
def Obligations.LockHolds : Prop :=
  ∀ s t, s.wo.locked = true → (∀ rest, s.agenda ≠ .event .packageReset :: rest) → (∀ rest, s.agenda ≠ .event .powerLoss :: rest) →
    step s = .next t →
      t.wo = s.wo ∧ t.mem = s.mem ∧ t.empties = s.empties ∧ t.tb = s.tb ∧ t.dp = s.dp ∧ t.tm = s.tm ∧ t.ho = s.ho ∧ t.pe = s.pe
        ∧ t.pl = s.pl ∧ t.agenda = s.agenda.tail ∧ t.beat = s.beat ∧ t.fresh = s.fresh
        ∧ (t.blk = s.blk ∧ t.others = s.others ∨ ∃ id rest, s.agenda = .turnTo id :: rest)

/-! ## Register files -/

/-- A scalar or predicate reads what was last written to it, a write leaves every other register alone, s0 discards writes and reads
zero, and p0 reads all ones and is never written (R69, R81, R82, R95). A byte of memory reads what was last written to it, a write leaves
every other byte alone, and the memory stays in its canonical form (R174, R175). -/
def Obligations.RegisterFiles : Prop :=
  ((∀ b r q v t,
    rdS (wrS b r v t) q = (if q = 0 then 0 else if q = r then v else rdS b q)
    ∧ taintS (wrS b r v t) q = (if q = 0 then 0 else if q = r then t else taintS b q)
    ∧ deadS (wrS b r v t) q = (if q = r then false else deadS b q)
    ∧ wrS b 0 v t = b)
  ∧ (∀ b p q v t, p.toNat < 48 →
    rdP (wrP b p v t) q = (if q = 0 then BitVec.allOnes 128 else if q = p then v else rdP b q)
    ∧ taintP (wrP b p v t) q = (if q = 0 then 0 else if q = p then t else taintP b q)
    ∧ deadP (wrP b p v t) q = (if q = p then false else deadP b q)
    ∧ wrP b 0 v t = b))
  ∧ (∀ m a b x, Memory.wf m = true →
    Memory.read (Memory.write m a b) a = some b
    ∧ (x ≠ a → Memory.read (Memory.write m a b) x = Memory.read m x)
    ∧ Memory.wf (Memory.write m a b) = true)

/-! ## Integer and predicate instructions -/

/-- The arithmetic of R106: each instruction completes with its result, the union of its sources' taint sets and the next address,
and changes nothing else. -/
def Obligations.IntegerArithmetic : Prop :=
  ∀ s sd sa sb, Ready s.blk [sa, sb] [] [sd] [] →
    ∀ a b t, a = rdS s.blk sa → b = rdS s.blk sb → t = taintS s.blk sa ||| taintS s.blk sb →
      exec (.add sd sa sb) s = .next { s with blk := (putS s.blk sd (a + b) t).adv 4 }
      ∧ exec (.sub sd sa sb) s = .next { s with blk := (putS s.blk sd (a - b) t).adv 4 }
      ∧ exec (.mul sd sa sb) s = .next { s with blk := (putS s.blk sd (a * b) t).adv 4 }
      ∧ exec (.mulhI64 sd sa sb) s = .next { s with blk := (putS s.blk sd (BitVec.ofInt 64 (a.toInt * b.toInt / 2 ^ 64)) t).adv 4 }
      ∧ exec (.mulhN64 sd sa sb) s = .next { s with blk := (putS s.blk sd (BitVec.ofNat 64 (a.toNat * b.toNat / 2 ^ 64)) t).adv 4 }
      ∧ exec (.and sd sa sb) s = .next { s with blk := (putS s.blk sd (a &&& b) t).adv 4 }
      ∧ exec (.or sd sa sb) s = .next { s with blk := (putS s.blk sd (a ||| b) t).adv 4 }
      ∧ exec (.xor sd sa sb) s = .next { s with blk := (putS s.blk sd (a ^^^ b) t).adv 4 }
      ∧ exec (.shl sd sa sb) s = .next { s with blk := (putS s.blk sd (a <<< (b.toNat % 64)) t).adv 4 }
      ∧ exec (.shr sd sa sb) s = .next { s with blk := (putS s.blk sd (a >>> (b.toNat % 64)) t).adv 4 }
      ∧ exec (.sar sd sa sb) s = .next { s with blk := (putS s.blk sd (a.sshiftRight (b.toNat % 64)) t).adv 4 }
      ∧ exec (.minI64 sd sa sb) s = .next { s with blk := (putS s.blk sd (if a.toInt < b.toInt then a else b) t).adv 4 }
      ∧ exec (.minN64 sd sa sb) s = .next { s with blk := (putS s.blk sd (if a.toNat < b.toNat then a else b) t).adv 4 }
      ∧ exec (.maxI64 sd sa sb) s = .next { s with blk := (putS s.blk sd (if b.toInt < a.toInt then a else b) t).adv 4 }
      ∧ exec (.maxN64 sd sa sb) s = .next { s with blk := (putS s.blk sd (if b.toNat < a.toNat then a else b) t).adv 4 }

/-- Division of R107: truncation toward zero, all ones and the dividend for a zero divisor, and -2^63 with remainder 0 for the one
signed quotient that does not fit. -/
def Obligations.Division : Prop :=
  ∀ s sd sa sb, Ready s.blk [sa, sb] [] [sd] [] →
    ∀ a b t, a = rdS s.blk sa → b = rdS s.blk sb → t = taintS s.blk sa ||| taintS s.blk sb →
      exec (.divI64 sd sa sb) s = .next { s with blk := (putS s.blk sd
        (if b = 0 then BitVec.allOnes 64
         else if a.toInt = -2 ^ 63 ∧ b.toInt = -1 then a
         else BitVec.ofInt 64 (Int.tdiv a.toInt b.toInt)) t).adv 4 }
      ∧ exec (.divN64 sd sa sb) s = .next { s with blk := (putS s.blk sd
        (if b = 0 then BitVec.allOnes 64 else BitVec.ofNat 64 (a.toNat / b.toNat)) t).adv 4 }
      ∧ exec (.remI64 sd sa sb) s = .next { s with blk := (putS s.blk sd
        (if b = 0 then a
         else if a.toInt = -2 ^ 63 ∧ b.toInt = -1 then 0
         else BitVec.ofInt 64 (a.toInt - Int.tdiv a.toInt b.toInt * b.toInt)) t).adv 4 }
      ∧ exec (.remN64 sd sa sb) s = .next { s with blk := (putS s.blk sd
        (if b = 0 then a else BitVec.ofNat 64 (a.toNat % b.toNat)) t).adv 4 }

/-- The immediate forms of R108 and the constants of R109; a dead destination of `lui` under DEAD_MODE.MODE = 1 is among DeadReadTraps. -/
def Obligations.Immediates : Prop :=
  (∀ s sd sa imm count, Ready s.blk [sa] [] [sd] [] →
    ∀ a t, a = rdS s.blk sa → t = taintS s.blk sa →
      exec (.addImm sd sa imm) s = .next { s with blk := (putS s.blk sd (a + imm.signExtend 64) t).adv 4 }
      ∧ exec (.andImm sd sa imm) s = .next { s with blk := (putS s.blk sd (a &&& imm.signExtend 64) t).adv 4 }
      ∧ exec (.orImm sd sa imm) s = .next { s with blk := (putS s.blk sd (a ||| imm.signExtend 64) t).adv 4 }
      ∧ exec (.xorImm sd sa imm) s = .next { s with blk := (putS s.blk sd (a ^^^ imm.signExtend 64) t).adv 4 }
      ∧ exec (.shlImm sd sa count) s = .next { s with blk := (putS s.blk sd (a <<< count.toNat) t).adv 4 }
      ∧ exec (.shrImm sd sa count) s = .next { s with blk := (putS s.blk sd (a >>> count.toNat) t).adv 4 }
      ∧ exec (.sarImm sd sa count) s = .next { s with blk := (putS s.blk sd (a.sshiftRight count.toNat) t).adv 4 })
  ∧ (∀ s sd (imm : BitVec 18), Ready s.blk [] [] [sd] [] →
      exec (.li sd imm) s = .next { s with blk := (putS s.blk sd (imm.signExtend 64) 0).adv 4 })
  ∧ (∀ s sd (imm : BitVec 32), Ready s.blk [] [] [sd] [] →
      exec (.liImm32 sd imm) s = .next { s with blk := (putS s.blk sd (imm.signExtend 64) 0).adv 8 })
  ∧ (∀ s sd (imm : BitVec 32), Ready s.blk [sd] [] [sd] [] →
      exec (.lui sd imm) s = .next { s with blk :=
        (putS s.blk sd (BitVec.ofNat 64 (imm.toNat * 2 ^ 32 + (rdS s.blk sd).toNat % 2 ^ 32)) (taintS s.blk sd)).adv 8 })

/-- The comparisons of R110, the logic of R111 and `sel` of R112. -/
def Obligations.Predicates : Prop :=
  (∀ s pd sa sb, Ready s.blk [sa, sb] [] [] [pd] →
    ∀ a b t, a = rdS s.blk sa → b = rdS s.blk sb → t = taintS s.blk sa ||| taintS s.blk sb →
      exec (.psetEq pd sa sb) s = .next { s with blk := (putP s.blk pd (condP (decide (a = b))) t).adv 4 }
      ∧ exec (.psetNe pd sa sb) s = .next { s with blk := (putP s.blk pd (condP (decide (a ≠ b))) t).adv 4 }
      ∧ exec (.psetLtI64 pd sa sb) s = .next { s with blk := (putP s.blk pd (condP (decide (a.toInt < b.toInt))) t).adv 4 }
      ∧ exec (.psetLtN64 pd sa sb) s = .next { s with blk := (putP s.blk pd (condP (decide (a.toNat < b.toNat))) t).adv 4 }
      ∧ exec (.psetGeI64 pd sa sb) s = .next { s with blk := (putP s.blk pd (condP (decide (b.toInt ≤ a.toInt))) t).adv 4 }
      ∧ exec (.psetGeN64 pd sa sb) s = .next { s with blk := (putP s.blk pd (condP (decide (b.toNat ≤ a.toNat))) t).adv 4 })
  ∧ (∀ s pd pa pb, Ready s.blk [] [pa, pb] [] [pd] →
    ∀ a b t, a = rdP s.blk pa → b = rdP s.blk pb → t = taintP s.blk pa ||| taintP s.blk pb →
      exec (.pand pd pa pb) s = .next { s with blk := (putP s.blk pd (a &&& b) t).adv 4 }
      ∧ exec (.por pd pa pb) s = .next { s with blk := (putP s.blk pd (a ||| b) t).adv 4 }
      ∧ exec (.pxor pd pa pb) s = .next { s with blk := (putP s.blk pd (a ^^^ b) t).adv 4 }
      ∧ exec (.pandn pd pa pb) s = .next { s with blk := (putP s.blk pd (a &&& ~~~b) t).adv 4 })
  ∧ (∀ s pd pa, Ready s.blk [] [pa] [] [pd] →
      exec (.pnot pd pa) s = .next { s with blk := (putP s.blk pd (~~~(rdP s.blk pa)) (taintP s.blk pa)).adv 4 })
  ∧ (∀ s p sd sa sb, Ready s.blk [sa, sb] [p] [sd] [] →
      exec (.sel p sd sa sb) s = .next { s with blk :=
        (putS s.blk sd (if (rdP s.blk p).getLsbD 0 = true then rdS s.blk sa else rdS s.blk sb)
          (taintP s.blk p ||| taintS s.blk sa ||| taintS s.blk sb)).adv 4 })

/-! ## Traps and the handler -/

/-- A dead register that an instruction reads under DEAD_MODE.MODE = 1 raises DEAD_READ, before anything is written, with the register as
detail; under MODE = 0 it reads as zero with an empty taint set, like any other register (R95, R96): `add`, `mul`, `div.i64`, `sel`, `bp`,
`pand`, and `lui`, which reads its destination (R109). Of several dead operands the first in the order of the fields is reported, a scalar
before a predicate: the model's choice (log 30). -/
def Obligations.DeadReadTraps : Prop :=
  (∀ s sd sa sb p imm, s.blk.deadMode = true → s.blk.frozen = false →
    (∀ r ∈ [sa, sb, sd], busyS s.blk r = false) → busyP s.blk p = false → deadS s.blk sa = true →
      ∀ t, t = strandTrap cDEAD (BitVec.ofNat 64 sa.toNat) s →
        exec (.add sd sa sb) s = t ∧ exec (.mul sd sa sb) s = t ∧ exec (.divI64 sd sa sb) s = t ∧ exec (.sel p sd sa sb) s = t
        ∧ exec (.bp sa) s = t ∧ exec (.lui sa imm) s = t)
  ∧ (∀ s pd pa pb, s.blk.deadMode = true → s.blk.frozen = false → (∀ p ∈ [pa, pb, pd], busyP s.blk p = false) → deadP s.blk pa = true →
      exec (.pand pd pa pb) s = strandTrap cDEAD (BitVec.ofNat 64 (2 ^ 28 + pa.toNat)) s)
  ∧ (∀ s sd sa sb p (imm : BitVec 32), s.blk.deadMode = false → (∀ r ∈ [sa, sb, sd], busyS s.blk r = false) → busyP s.blk p = false →
    DeadClear s.blk → deadS s.blk sa = true → s.blk.wrap = none →
      exec (.add sd sa sb) s = .next { s with blk := (wrS s.blk sd (rdS s.blk sb) (taintS s.blk sb)).adv 4 }
      ∧ exec (.mul sd sa sb) s = .next { s with blk := (wrS s.blk sd 0 (taintS s.blk sb)).adv 4 }
      ∧ exec (.sel p sd sa sb) s = .next { s with blk := (wrS s.blk sd (if (rdP s.blk p).getLsbD 0 = true then 0 else rdS s.blk sb)
          (taintP s.blk p ||| taintS s.blk sb)).adv 4 }
      ∧ exec (.bp sa) s = .next { s with blk := { s.blk with pc := 0, wait := none } }
      ∧ exec (.lui sa imm) s = .next { s with blk := (wrS s.blk sa (BitVec.ofNat 64 (imm.toNat * 2 ^ 32)) 0).adv 8 })

/-- A dead scalar or predicate holds zero with an empty taint set, and every instruction of the strand keeps it so, whatever it writes
and whatever trap it takes (R80, R95, R117); it holds at reset. -/
def Obligations.DeadRegistersStayClear : Prop :=
  DeadClear State.reset.blk ∧ ∀ i s t, isEvent i = false → DeadClear s.blk → exec i s = .next t → DeadClear t.blk

/-- A strand trap where the block has a handler and is not in it: the trap registers take the instruction's address, the cause with
AGENT 0 and QPOS 0, and the detail; the handler is entered at TRAP_VEC; no register, flag or byte of memory is written (R100,
R120). -/
def Obligations.TrapEntersHandler : Prop :=
  ∀ cause info s, cause < 256 → s.blk.phase = .running → s.blk.hasExited = false → s.blk.handler = false → s.blk.trapVec ≠ 0 →
    ∃ t, strandTrap cause info s = .next t
      ∧ t.blk = { s.blk with
          trapPc := s.blk.pc, trapCause := BitVec.ofNat 16 cause, trapInfo := info, handler := true, pc := s.blk.trapVec,
          wait := none, wrap := none, monitor := none, reply := none }
      ∧ t.mem = s.mem ∧ t.empties = s.empties ∧ t.others = s.others ∧ t.dp = s.dp ∧ t.tm = s.tm

/-- A trap without a handler terminates the block with its cause, and a trap in handler mode with DOUBLE_TRAP, the trap registers of
the first trap kept; every queued command is discarded (R123). -/
def Obligations.TrapTerminates : Prop :=
  (∀ cause info s, cause < 256 → s.blk.phase = .running → s.blk.handler = false → s.blk.trapVec = 0 →
    ∃ t, strandTrap cause info s = .next t ∧ t.blk.phase = .terminated ∧ t.blk.endCause = BitVec.ofNat 8 cause
      ∧ t.blk.trapPc = s.blk.pc ∧ t.blk.trapInfo = info ∧ t.blk.queued = [] ∧ t.blk.running = s.blk.running ∧ t.mem = s.mem
      ∧ t.blk.s = s.blk.s ∧ t.blk.p = s.blk.p ∧ t.others = s.others)
  ∧ (∀ cause info s, s.blk.phase = .running → s.blk.handler = true →
    ∃ t, strandTrap cause info s = .next t ∧ t.blk.phase = .terminated ∧ t.blk.endCause = BitVec.ofNat 8 cDOUBLE
      ∧ t.blk.trapPc = s.blk.trapPc ∧ t.blk.trapCause = s.blk.trapCause ∧ t.blk.trapInfo = s.blk.trapInfo ∧ t.blk.queued = []
      ∧ t.mem = s.mem)

/-- `trap` raises SOFTWARE with its code (R125), words that are no instruction raise ILLEGAL_INSTRUCTION with the words (R73), and a
fetch beyond the code object raises FETCH_FAULT with its address (R119): each completes by taking its trap. A word that begins inside the
object and ends beyond it is such a fetch by the model's choice (log 69). -/
def Obligations.TrapCauses : Prop :=
  (∀ code s, exec (.trap code) s = strandTrap cSOFTWARE (code.setWidth 64) s)
  ∧ (∀ w0 w1 s, exec (.illegalInstruction w0 w1) s = strandTrap cILLEGAL (BitVec.ofNat 64 (w0.toNat + w1.toNat * 2 ^ 32)) s)
  ∧ (∀ addr s, s.blk.codeRefresh = false → dKind s.blk.codeDesc = kCode → dGen s.blk.codeDesc = hGen s.blk.code →
      dRes s.blk.codeDesc ≠ 6 → codeLen s.blk.codeDesc < addr.toNat + 4 →
      exec (.fetchFault addr) s = strandTrap cFETCH (BitVec.ofNat 64 addr.toNat) s)

/-- `tret` leaves handler mode: after a strand trap at TRAP_PC, and after an engine fault at RESUME with the queues unfrozen and the
faulting command at the head of its queue to start again. `tret.skip` goes on behind the instruction at TRAP_PC, whose length its first word
gives; after an engine fault it takes the command out of its queue, pushes its signal token, and takes the result of a `fetch.step` that is
not there yet out of its comparator queue; a push at 255 is a new trap of that command. A target that is not a multiple of 4 and a fetch
that faults are traps in the handler. A fault that waits behind the handler is then taken at once (R124). Outside a handler both raise
ILLEGAL_OPERAND (R126). -/
def Obligations.HandlerReturn : Prop :=
  (∀ s, s.blk.handler = true → s.blk.trapCause.toNat / 2 ^ 8 % 16 = 0 → s.blk.trapPc.toNat % 4 = 0 →
    exec .tret s = .next { s with blk := { s.blk with handler := false, wait := none, pc := s.blk.trapPc } })
  ∧ (∀ s e c rest b, s.blk.handler = true → s.blk.trapCause.toNat / 2 ^ 8 % 16 = engCode e → (s.blk.eng e).q = c :: rest →
    (∀ e, ∀ x ∈ (s.blk.eng e).q, x.pend = false) →
      (b = s.blk.setEng e { s.blk.eng e with q := { c with fault := none } :: rest } →
        exec .tret s = .next { s with blk := { b with
          handler := false, frozen := false, wait := none, pc := BitVec.ofNat 32 (s.blk.trapInfo.toNat / 2 ^ 32) } })
      ∧ ((∀ h sj g si q d ha, c.instr ≠ .fetchStep h sj g si q d ha) ∧ b = s.blk.setEng e { s.blk.eng e with q := rest }
          ∨ (∃ h sj g si q d ha, c.instr = .fetchStep h sj g si q d ha ∧ b = (s.blk.setEng e { s.blk.eng e with q := rest }).setG g
              { s.blk.gCell g with queue := (s.blk.gCell g).queue.filter (fun r => r.cmd != c.n || r.done) }) →
        ((hdrOfCmd c.instr).sig = none ∨ c.noPush = true →
          exec .tretSkip s = .next { s with blk := { b with
            handler := false, frozen := false, wait := none, pc := BitVec.ofNat 32 (s.blk.trapInfo.toNat / 2 ^ 32) } })
        ∧ (∀ k, (hdrOfCmd c.instr).sig = some k → c.noPush = false → (s.blk.token k).count.toNat < 255 →
          exec .tretSkip s = .next { s with blk := { b.setToken k { s.blk.token k with count := (s.blk.token k).count + 1 } with
            handler := false, frozen := false, wait := none, pc := BitVec.ofNat 32 (s.blk.trapInfo.toNat / 2 ^ 32) } })
        ∧ (∀ k, (hdrOfCmd c.instr).sig = some k → c.noPush = false → (s.blk.token k).count = 255 → s.blk.trapVec ≠ 0 →
          s.blk.phase = .running → s.blk.hasExited = false →
            ∃ t, exec .tretSkip s = .next t ∧ t.blk.handler = true ∧ t.blk.frozen = true ∧ t.blk.pc = s.blk.trapVec ∧ t.blk.trapPc = c.addr
              ∧ t.blk.trapCause = causeWord (engCode e) c.qno cTOKOVER ∧ t.blk.tok = s.blk.tok
              ∧ ∃ x, (t.blk.eng e).q = x :: rest ∧ x = { c with noPush := true, skipEnd := true, fault := x.fault })))
  ∧ (∀ s w s', s.blk.handler = true → s.blk.trapCause.toNat / 2 ^ 8 % 16 = 0 → s.blk.trapPc.toNat % 4 = 0 →
    fetchWord s s.blk.trapPc.toNat = (.word w, s') → s.blk.trapPc.toNat + lengthOf w < 2 ^ 32 →
      exec .tretSkip s = .next { s' with blk := { s'.blk with
        handler := false, wait := none, pc := s.blk.trapPc + BitVec.ofNat 32 (lengthOf w) } })
  ∧ (∀ s cause info s', s.blk.handler = true → s.blk.trapCause.toNat / 2 ^ 8 % 16 = 0 →
    fetchWord s s.blk.trapPc.toNat = (.trap cause info, s') →
      exec .tretSkip s = strandTrap cause info s' ∧ s'.blk.handler = true)
  ∧ (∀ s, s.blk.handler = true → s.blk.trapCause.toNat / 2 ^ 8 % 16 = 0 → s.blk.trapPc.toNat % 4 ≠ 0 →
    exec .tret s = strandTrap cMISALIGNED (s.blk.trapPc.setWidth 64) s)
  ∧ (∀ s c rest x xs cause d, s.blk.handler = true → s.blk.trapCause.toNat / 2 ^ 8 % 16 = 2 → s.blk.eV.q = c :: rest →
    s.blk.eF.q = x :: xs → x.eng = .F → x.pend = true → x.fault = some (cause, d) → c.pend = false →
    (∀ y ∈ s.blk.eM.q ++ s.blk.eP.q, y.pend = false) → s.blk.trapVec ≠ 0 → s.blk.phase = .running → s.blk.hasExited = false →
      ∃ t, exec .tret s = .next t ∧ t.blk.handler = true ∧ t.blk.frozen = true ∧ t.blk.pc = s.blk.trapVec ∧ t.blk.trapPc = x.addr
        ∧ t.blk.trapCause = causeWord 1 x.qno cause
        ∧ t.blk.trapInfo.toNat = s.blk.trapInfo.toNat / 2 ^ 32 * 2 ^ 32 + d.toNat
        ∧ t.blk.eF.q = { x with pend := false } :: xs ∧ t.blk.eV.q = { c with fault := none } :: rest)
  ∧ (∀ s, s.blk.handler = false → exec .tret s = badOperand 0 s ∧ exec .tretSkip s = badOperand 0 s)

/-! ## Control transfer and control registers -/

/-- The transfers of R113 and R114: the target, the link in s63, and the taint set that CTL_TAINT takes. A jump through a register to an
address that is not a multiple of 4, or above 2^32, traps and jumps nowhere (R61, R113); where both hold, the high half is reported, the
model's choice (log 68). -/
def Obligations.ControlTransfer : Prop :=
  ((∀ s n p (off : BitVec 17), Ready s.blk [] [p] [] [] →
    exec (.br n p off) s = .next { s with blk := { s.blk with
      pc := if (rdP s.blk p).getLsbD 0 = !n then s.blk.pc + off.signExtend 32 * 4 else s.blk.pc + 4
      ctl := s.blk.ctl ||| taintP s.blk p ||| s.blk.wrap.getD 0, wait := none } })
  ∧ (∀ s sc (off : BitVec 17), Ready s.blk [sc] [] [sc] [] →
    exec (.loop sc off) s = .next { s with blk := { (if rdS s.blk sc = 0 then s.blk
          else wrS s.blk sc (rdS s.blk sc - 1) (taintS s.blk sc)) with
      pc := if rdS s.blk sc = 0 ∨ rdS s.blk sc = 1 then s.blk.pc + 4 else s.blk.pc + off.signExtend 32 * 4
      ctl := s.blk.ctl ||| taintS s.blk sc ||| s.blk.wrap.getD 0, wait := none } })
  ∧ (∀ s (off : BitVec 24), Ready s.blk [] [] [63] [] → s.blk.wrap = none →
    exec (.call off) s = .next { s with blk := { wrS s.blk 63 ((s.blk.pc + 4).setWidth 64) 0 with
      pc := s.blk.pc + off.signExtend 32 * 4, wait := none } })
  ∧ (∀ s, Ready s.blk [63] [] [] [] → (rdS s.blk 63).toNat < 2 ^ 32 → (rdS s.blk 63).toNat % 4 = 0 →
    exec .ret s = .next { s with blk := { s.blk with
      pc := (rdS s.blk 63).setWidth 32, ctl := s.blk.ctl ||| taintS s.blk 63 ||| s.blk.wrap.getD 0, wait := none } })
  ∧ (∀ s sa, Ready s.blk [sa] [] [] [] → (rdS s.blk sa).toNat < 2 ^ 32 → (rdS s.blk sa).toNat % 4 = 0 →
    exec (.bp sa) s = .next { s with blk := { s.blk with
      pc := (rdS s.blk sa).setWidth 32, ctl := s.blk.ctl ||| taintS s.blk sa ||| s.blk.wrap.getD 0, wait := none } })
  ∧ (∀ s sa, Ready s.blk [sa] [] [63] [] → s.blk.wrap = none → (rdS s.blk sa).toNat < 2 ^ 32 → (rdS s.blk sa).toNat % 4 = 0 →
    exec (.callr sa) s = .next { s with blk := { wrS s.blk 63 ((s.blk.pc + 4).setWidth 64) 0 with
      pc := (rdS s.blk sa).setWidth 32, ctl := s.blk.ctl ||| taintS s.blk sa, wait := none } })
  ∧ (∀ s, exec .nop s = .next { s with blk := s.blk.adv 4 }))
  ∧ (∀ s sa, Ready s.blk [sa] [] [63] [] →
    (2 ^ 32 ≤ (rdS s.blk sa).toNat → exec (.bp sa) s = strandTrap cOPERAND (rdS s.blk sa) s
      ∧ exec (.callr sa) s = strandTrap cOPERAND (rdS s.blk sa) s)
    ∧ ((rdS s.blk sa).toNat < 2 ^ 32 → (rdS s.blk sa).toNat % 4 ≠ 0 → exec (.bp sa) s = strandTrap cMISALIGNED (rdS s.blk sa) s
      ∧ exec (.callr sa) s = strandTrap cMISALIGNED (rdS s.blk sa) s))
  ∧ (∀ s, Ready s.blk [63] [] [] [] →
    (2 ^ 32 ≤ (rdS s.blk 63).toNat → exec .ret s = strandTrap cOPERAND (rdS s.blk 63) s)
    ∧ ((rdS s.blk 63).toNat < 2 ^ 32 → (rdS s.blk 63).toNat % 4 ≠ 0 → exec .ret s = strandTrap cMISALIGNED (rdS s.blk 63) s))

/-- `getc` reads a control register with an empty taint set (R115); `setc` writes the writable fields of FPCTL, SRLFSR, DEAD_MODE and
TRAP_PC, clears the FPSTAT bits written as 1, leaves a read-only register alone, folds the tags of its source into TAINT_FLOOR, and refuses
a reserved bit or value (R44, R48, R52, R116). `kill` marks the named scalars, predicates, handle, descriptor and shape registers dead, zero
and without taint, and leaves the others alone; a mask that names s0 or p0 is no instruction (R64, R95, R117). -/
def Obligations.ControlRegisters : Prop :=
  ((∀ s sd cr, Ready s.blk [] [] [sd] [] → exec (.getc sd cr) s = .next { s with blk := (putS s.blk sd (readCReg s cr) 0).adv 4 })
  ∧ (∀ s cr sa b, Ready s.blk [sa] [] [] [] → setcRefused cr (rdS s.blk sa) = false →
    b = s.blk.foldSet (taintS s.blk sa ||| s.blk.wrap.getD 0) →
    ∃ t, exec (.setc cr sa) s = .next t ∧ OnlyBlock s t
      ∧ t.blk = { s.blk with
          floor := b.floor, pend := b.pend, loads := b.loads, pc := s.blk.pc + s.blk.len 4, wait := none
          rm := if cr = .fpctl then (rdS s.blk sa).setWidth 3 else s.blk.rm
          fpstat := if cr = .fpstat then s.blk.fpstat &&& ~~~((rdS s.blk sa).setWidth 7) else s.blk.fpstat
          lfsr := if cr = .srlfsr then (if rdS s.blk sa = 0 then 1 else (rdS s.blk sa).setWidth 32) else s.blk.lfsr
          deadMode := if cr = .deadMode then decide (rdS s.blk sa = 1) else s.blk.deadMode
          trapPc := if cr = .trapPc then (rdS s.blk sa).setWidth 32 else s.blk.trapPc })
  ∧ (∀ s cr sa, Ready s.blk [sa] [] [] [] → setcRefused cr (rdS s.blk sa) = true →
    exec (.setc cr sa) s = strandTrap cOPERAND (rdS s.blk sa) s)
  ∧ (∀ s, readCReg s .fpctl = s.blk.rm.setWidth 64 ∧ readCReg s .fpstat = s.blk.fpstat.setWidth 64
    ∧ readCReg s .coreId = BitVec.ofNat 64 (s.blk.core.toNat + s.pl.pkg.toNat * 2 ^ 12)
    ∧ readCReg s .worldId = s.blk.world.setWidth 64 ∧ readCReg s .trapPc = s.blk.trapPc.setWidth 64))
  ∧ (∀ s (mask : BitVec 32), (∀ r : SReg, busyS s.blk r = false) →
    (mask.getLsbD 0 = false → ∃ t, exec (.kill .sLow mask) s = .next t ∧ t = { s with blk := { s.blk.adv 8 with s := t.blk.s } }
      ∧ ∀ r : SReg, t.blk.sCell r = if r.toNat < 32 ∧ mask.getLsbD r.toNat = true then ⟨0, 0, true⟩ else s.blk.sCell r)
    ∧ (∃ t, exec (.kill .sHigh mask) s = .next t ∧ t = { s with blk := { s.blk.adv 8 with s := t.blk.s } }
      ∧ ∀ r : SReg, t.blk.sCell r =
          if 32 ≤ r.toNat ∧ mask.getLsbD (r.toNat - 32) = true then ⟨0, 0, true⟩ else s.blk.sCell r))
  ∧ (∀ s (mask : BitVec 32), (∀ p : PReg, busyP s.blk p = false) →
    (mask.getLsbD 0 = false → ∃ t, exec (.kill .pLow mask) s = .next t ∧ t = { s with blk := { s.blk.adv 8 with p := t.blk.p } }
      ∧ ∀ p : PReg, t.blk.pCell p = if p.toNat < 32 ∧ mask.getLsbD p.toNat = true then ⟨0, 0, true⟩ else s.blk.pCell p)
    ∧ (∃ t, exec (.kill .pHigh mask) s = .next t ∧ t = { s with blk := { s.blk.adv 8 with p := t.blk.p } }
      ∧ ∀ p : PReg, t.blk.pCell p =
          if 32 ≤ p.toNat ∧ p.toNat < 48 ∧ mask.getLsbD (p.toNat - 32) = true then ⟨0, 0, true⟩ else s.blk.pCell p))
  ∧ (∀ s (mask : BitVec 32),
    (∃ t, exec (.kill .h mask) s = .next t ∧ t = { s with blk := { s.blk.adv 8 with h := t.blk.h } }
      ∧ ∀ r : BitVec 4, t.blk.hCell r = if mask.getLsbD r.toNat = true then ⟨0, 0, 0, false, true⟩ else s.blk.hCell r)
    ∧ (∃ t, exec (.kill .d mask) s = .next t ∧ t = { s with blk := { s.blk.adv 8 with d := t.blk.d } }
      ∧ ∀ r : BitVec 4, t.blk.dCell r = if mask.getLsbD r.toNat = true then ⟨0, true⟩ else s.blk.dCell r)
    ∧ (∃ t, exec (.kill .q mask) s = .next t ∧ t = { s with blk := { s.blk.adv 8 with q := t.blk.q } }
      ∧ ∀ r : BitVec 3, t.blk.qCell r = if mask.getLsbD r.toNat = true then ⟨0, true⟩ else s.blk.qCell r))
  ∧ (∀ mask : Word, mask.getLsbD 0 = true → (decodeWords 0x0000000B mask).toOption = none ∧ (decodeWords 0x0000020B mask).toOption = none)

/-- An instruction that completes advances the program counter by its length, by 8 inside format W, and its results take the W
predicate's taint set (R61, R65, R226). Format W executes its instruction where bit 0 of the predicate holds, and else only advances
by 8; `ret`, `bp` and `callr` in it give CTL_TAINT the predicate's set even then (R113). Executed in it: `add` and `nop`. -/
def Obligations.Predication : Prop :=
  (∀ b n r p v u t,
    Block.adv b n = { b with pc := b.pc + (if b.wrap.isSome then 8 else BitVec.ofNat 32 n), wait := none }
    ∧ putS b r v t = wrS b r v (t ||| b.wrap.getD 0) ∧ putP b p u t = wrP b p u (t ||| b.wrap.getD 0))
  ∧ (∀ s n p i, Ready s.blk [] [p] [] [] → (rdP s.blk p).getLsbD 0 = n → i ≠ .ret → (∀ sa, i ≠ .bp sa ∧ i ≠ .callr sa) →
    exec (.predicatedInstruction n p i) s = .next { s with blk := { s.blk with pc := s.blk.pc + 8, wait := none } })
  ∧ (∀ s n p i, Ready s.blk [] [p] [] [] → (rdP s.blk p).getLsbD 0 = n → i = .ret ∨ (∃ sa, i = .bp sa ∨ i = .callr sa) →
    exec (.predicatedInstruction n p i) s = .next { s with blk := { s.blk with
      pc := s.blk.pc + 8, wait := none, ctl := s.blk.ctl ||| taintP s.blk p } })
  ∧ (∀ s n p sd sa sb, Ready s.blk [sa, sb] [p] [sd] [] → s.blk.wrap = none → (rdP s.blk p).getLsbD 0 = !n →
    exec (.predicatedInstruction n p (.add sd sa sb)) s = .next { s with blk := { (wrS s.blk sd (rdS s.blk sa + rdS s.blk sb)
      (taintS s.blk sa ||| taintS s.blk sb ||| taintP s.blk p)) with pc := s.blk.pc + 8, wait := none } })
  ∧ (∀ s n p, Ready s.blk [] [p] [] [] → s.blk.wrap = none → (rdP s.blk p).getLsbD 0 = !n →
    exec (.predicatedInstruction n p .nop) s = .next { s with blk := { s.blk with pc := s.blk.pc + 8, wait := none } })

/-! ## On-chip words -/

/-- The loads of R189 at the three levels: the bytes at the address, sign- or zero-extended, with the address register's taint set. The
block's own stores that reach a bank of the access are performed before it, and no other changes (R191, R228). -/
def Obligations.OnChipLoads : Prop :=
  (∀ s sd lv sa (off : BitVec 10) a, Ready s.blk [sa] [] [sd] [] → a = (rdS s.blk sa + off.signExtend 64).toNat →
    ∀ at_ u t, at_ = levelAddr s s.blk lv a → t = taintS s.blk sa →
      (OnChip s lv a 1 → u = performStoresTo s lv at_ 1 → ∀ v, v = leNat (Memory.chip u.mem at_ 1) →
        exec (.ldI8 sd lv sa off) s = .next { u with blk := (putS u.blk sd ((BitVec.ofNat 8 v).signExtend 64) t).adv 4 }
        ∧ exec (.ldN8 sd lv sa off) s = .next { u with blk := (putS u.blk sd (BitVec.ofNat 64 v) t).adv 4 })
      ∧ (OnChip s lv a 2 → u = performStoresTo s lv at_ 2 → ∀ v, v = leNat (Memory.chip u.mem at_ 2) →
        exec (.ldI16 sd lv sa off) s = .next { u with blk := (putS u.blk sd ((BitVec.ofNat 16 v).signExtend 64) t).adv 4 }
        ∧ exec (.ldN16 sd lv sa off) s = .next { u with blk := (putS u.blk sd (BitVec.ofNat 64 v) t).adv 4 })
      ∧ (OnChip s lv a 4 → u = performStoresTo s lv at_ 4 → ∀ v, v = leNat (Memory.chip u.mem at_ 4) →
        exec (.ldI32 sd lv sa off) s = .next { u with blk := (putS u.blk sd ((BitVec.ofNat 32 v).signExtend 64) t).adv 4 }
        ∧ exec (.ldN32 sd lv sa off) s = .next { u with blk := (putS u.blk sd (BitVec.ofNat 64 v) t).adv 4 })
      ∧ (OnChip s lv a 8 → u = performStoresTo s lv at_ 8 →
        exec (.ldI64 sd lv sa off) s = .next { u with blk := (putS u.blk sd (leDWord (Memory.chip u.mem at_ 8)) t).adv 4 }))
  ∧ (∀ s lv at_ n u, u = performStoresTo s lv at_ n →
    u = { s with mem := u.mem, blk := { s.blk with posted := u.blk.posted } }
    ∧ (∀ p ∈ u.blk.posted, p ∈ s.blk.posted ∧ ∀ k ∈ p.banks, k ∉ bankKeys lv at_ n)
    ∧ ((∀ p ∈ s.blk.posted, ∀ k ∈ p.banks, k ∉ bankKeys lv at_ n) → u = s)
    ∧ (∀ a bs, s.blk.posted = [.store lv a bs] → (∃ k ∈ bankKeys lv a bs.length, k ∈ bankKeys lv at_ n) →
        u.mem = Memory.writeAll s.mem a bs ∧ u.blk.posted = []))

/-- The stores of R189: the low bytes of the source join the posted stores, in the order of the strand, and no byte of memory changes
yet; the tags of the address, the source and CTL_TAINT are folded (R191, R227). -/
def Obligations.OnChipStores : Prop :=
  ∀ s sd lv sa (off : BitVec 10) a, Ready s.blk [sa, sd] [] [] [] → a = (rdS s.blk sa + off.signExtend 64).toNat →
    s.blk.storesInFlight < 32 →
    ∀ b at_ v, b = s.blk.foldSet (taintS s.blk sa ||| taintS s.blk sd ||| s.blk.wrap.getD 0 ||| s.blk.ctl) →
      at_ = levelAddr s s.blk lv a → v = (rdS s.blk sd).toNat →
      (OnChip s lv a 1 → exec (.stI8 sd lv sa off) s = .next { s with blk :=
        (Block.adv ({ b with posted := b.posted ++ [Posted.store lv at_ (leBytes 1 v)] }) 4) })
      ∧ (OnChip s lv a 2 → exec (.stI16 sd lv sa off) s = .next { s with blk :=
        (Block.adv ({ b with posted := b.posted ++ [Posted.store lv at_ (leBytes 2 v)] }) 4) })
      ∧ (OnChip s lv a 4 → exec (.stI32 sd lv sa off) s = .next { s with blk :=
        (Block.adv ({ b with posted := b.posted ++ [Posted.store lv at_ (leBytes 4 v)] }) 4) })
      ∧ (OnChip s lv a 8 → exec (.stI64 sd lv sa off) s = .next { s with blk :=
        (Block.adv ({ b with posted := b.posted ++ [Posted.store lv at_ (leBytes 8 v)] }) 4) })

/-- A posted store is performed: its bytes are written at its address, every other byte of memory and every register is as before, and
it leaves the posted ones (R191, R228). -/
def Obligations.StorePerformed : Prop :=
  ∀ k s lv a bs, s.blk.posted[k]? = some (.store lv a bs) → storeHeld s.blk k lv a bs.length = false → Memory.wf s.mem = true →
    ∃ t, exec (.postedStorePerformed k) s = .next t
      ∧ (∀ i, (h : i < bs.length) → Memory.read t.mem (a + i) = some bs[i])
      ∧ (∀ x, x < a ∨ a + bs.length ≤ x → Memory.read t.mem x = Memory.read s.mem x)
      ∧ t = { s with mem := t.mem, blk := { s.blk with posted := s.blk.posted.eraseIdx k } }

/-- The faults of R190 on a strand access, in their order: a misaligned address raises ILLEGAL_OPERAND with it, one beyond the level's
bound ADDRESS_RANGE, and a guarded square of the engines OWNERSHIP; memory and registers stay (R118, R190). -/
def Obligations.AccessFaults : Prop :=
  ∀ s sd lv sa (off : BitVec 10) a, Ready s.blk [sa, sd] [] [sd] [] → a = (rdS s.blk sa + off.signExtend 64).toNat →
    (a % 8 ≠ 0 → exec (.ldI64 sd lv sa off) s = badOperand a s ∧ exec (.stI64 sd lv sa off) s = badOperand a s
      ∧ exec (.ldFf sd lv sa off) s = badOperand a s)
    ∧ (a % 8 = 0 → levelBound s lv ≤ a + 7 → ∀ t, t = strandTrap cRANGE (BitVec.ofNat 64 (lv.code * 2 ^ 28 + a % 2 ^ 27)) s →
      exec (.ldI64 sd lv sa off) s = t ∧ exec (.stI64 sd lv sa off) s = t ∧ exec (.ldFf sd lv sa off) s = t)
    ∧ (a % 8 = 0 → lv = .sp → a + 7 < levelBound s .sp → ∀ q, strandOwnFault s.blk a 8 = some q →
      ∀ t, t = strandTrap cOWNER (BitVec.ofNat 64 q) s →
        exec (.ldI64 sd lv sa off) s = t ∧ exec (.stI64 sd lv sa off) s = t ∧ exec (.ldFf sd lv sa off) s = t)

/-- The full/empty accesses of R32 on a word whose bit allows them, no older request before them and no posted store to the word:
`ld.ff` reads it, `ld.fe` reads it and sets it empty, and `st.ef` writes it and sets it full. One whose bit does not allow it waits among
the requests on its word and changes neither the word nor a register (R32, R178); the release of the word's oldest waiter completes a
waiting `ld.fe` with the word and sets it empty, and no waiter whom the bit then lets through is left (R179). -/
def Obligations.FullEmptyAccess : Prop :=
  (∀ s sd lv sa (off : BitVec 10) a at_, s.blk.phase = .running → s.blk.wrap = none → s.blk.posted = [] → s.feWait = [] →
    a = (rdS s.blk sa + off.signExtend 64).toNat → OnChip s lv a 8 → at_ = levelAddr s s.blk lv a →
      (Ready s.blk [sa] [] [sd] [] → isFull s at_ = true →
        exec (.ldFf sd lv sa off) s = .next { s with blk :=
          { wrS s.blk sd (leDWord (Memory.chip s.mem at_ 8)) (taintS s.blk sa) with pc := s.blk.pc + 4, wait := none } }
        ∧ ∃ t, exec (.ldFe sd lv sa off) s = .next t ∧ isFull t at_ = false ∧ (∀ x, x / 8 ≠ at_ / 8 → isFull t x = isFull s x)
          ∧ t = { s with empties := t.empties, blk :=
              { wrS s.blk sd (leDWord (Memory.chip s.mem at_ 8)) (taintS s.blk sa) with pc := s.blk.pc + 4, wait := none } })
      ∧ (Ready s.blk [sa, sd] [] [] [] → isFull s at_ = false →
        ∃ t, exec (.stEf sd lv sa off) s = .next t ∧ isFull t at_ = true ∧ (∀ x, x / 8 ≠ at_ / 8 → isFull t x = isFull s x)
          ∧ t = { s with empties := t.empties, mem := Memory.writeAll s.mem at_ (leBytes 8 (rdS s.blk sd).toNat), blk :=
              { s.blk.foldSet (taintS s.blk sa ||| taintS s.blk sd ||| s.blk.ctl) with pc := s.blk.pc + 4, wait := none } }))
  ∧ (∀ s sd lv sa (off : BitVec 10) a at_, s.blk.wrap = none → s.blk.posted = [] →
    a = (rdS s.blk sa + off.signExtend 64).toNat → OnChip s lv a 8 → at_ = levelAddr s s.blk lv a →
      (Ready s.blk [sa] [] [sd] [] → isFull s at_ = false → ∀ w, w = (⟨s.blk.id, at_, .fe, sd, taintS s.blk sa, rdS s.blk sd, 4⟩ : FeWaiter) →
        exec (.ldFe sd lv sa off) s = .next { s with
          feWait := s.feWait ++ [w], blk := { s.blk with wait := some (.fullEmpty at_) } }
        ∧ exec (.ldFf sd lv sa off) s = .next { s with
          feWait := s.feWait ++ [{ w with op := .ff }], blk := { s.blk with wait := some (.fullEmpty at_) } })
      ∧ (Ready s.blk [sa, sd] [] [] [] → isFull s at_ = true →
        exec (.stEf sd lv sa off) s = .next { s with
          feWait := s.feWait ++ [⟨s.blk.id, at_, .ef, sd, taintS s.blk sa ||| taintS s.blk sd, rdS s.blk sd, 4⟩]
          blk := { s.blk with wait := some (.fullEmpty at_) } }))
  ∧ (∀ s a w, feOldest s a = some w → w.op = .fe → w.id = s.blk.id → s.blk.phase = .running →
    (∀ x ∈ s.feWait, x ≠ w → x.addr / 8 ≠ a / 8) → s.feWait.count w = 1 →
    ∃ t, exec (.fullEmptyRelease a) s = .next t ∧ isFull t w.addr = false ∧ (∀ x, x / 8 ≠ w.addr / 8 → isFull t x = isFull s x)
      ∧ t = { s with empties := t.empties, feWait := s.feWait.erase w, blk :=
          { wrS s.blk w.sd (leDWord (Memory.chip s.mem w.addr 8)) w.taint with
            pc := s.blk.pc + BitVec.ofNat 32 w.len, wait := none } })
  ∧ (∀ s a, ∃ t, exec (.fullEmptyRelease a) s = .next t ∧ feOldest t a = none)

/-- The register images of R198: `dld` and `qld` take 16 and 32 bytes from the scratchpad, behind the block's own stores to their banks
(R191), and `dst` and `qst` post them. -/
def Obligations.RegisterImages : Prop :=
  ∀ s (d : BitVec 4) (q : BitVec 3) sa (imm : BitVec 18) a u, Ready s.blk [sa] [] [] [] → s.blk.wrap = none →
    a = (rdS s.blk sa + imm.signExtend 64).toNat → taintS s.blk sa = 0 → s.blk.ctl = 0 → s.blk.deadMode = false →
    s.blk.storesInFlight < 32 →
      (OnChip s .sp a 16 → u = performStoresTo s .sp (s.blk.spA a) 16 → exec (.dld d sa imm) s = .next { u with blk := { u.blk with
          d := u.blk.d.setIfInBounds d.toNat ⟨BitVec.ofNat 128 (leNat (Memory.chip u.mem (s.blk.spA a) 16)), false⟩
          pc := s.blk.pc + 8, wait := none } }
        ∧ exec (.dst d sa imm) s = .next { s with blk := { s.blk with
          posted := s.blk.posted ++ [.store .sp (s.blk.spA a) (leBytes 16 (s.blk.dCell d).v.toNat)]
          pc := s.blk.pc + 8, wait := none } })
      ∧ (OnChip s .sp a 32 → u = performStoresTo s .sp (s.blk.spA a) 32 → exec (.qld q sa imm) s = .next { u with blk := { u.blk with
          q := u.blk.q.setIfInBounds q.toNat ⟨BitVec.ofNat 256 (leNat (Memory.chip u.mem (s.blk.spA a) 32)), false⟩
          pc := s.blk.pc + 8, wait := none } }
        ∧ exec (.qst q sa imm) s = .next { s with blk := { s.blk with
          posted := s.blk.posted ++ [.store .sp (s.blk.spA a) (leBytes 32 (s.blk.qCell q).v.toNat)]
          pc := s.blk.pc + 8, wait := none } })

/-! ## Ordering, squares, queues, tokens, time and barriers -/

/-- `fence` and `xfence` complete with the block's earlier stores performed (R229-R232); `fence.pkg` and `fence.pod` wait for the block's
atomics, and behind a fence of another scope the block's later covered accesses wait for them (R229, R231). That the stores are performed in
the fence's own step, and that later accesses rather than the fence wait for atomics, is the model's choice (log 25). `untaint` takes its mask
out of every taint set of the block, of the later writes of its commands, of its comparator results and of its outstanding loads' results, and
orders nothing (R236); which captured sets of commands it takes them out of is the model's reading (log 38). `tfold` folds every tag in use into TAINT_FLOOR or TAINT_PEND and empties all these sets and LOAD_TAGS (R227, R237). -/
def Obligations.Fences : Prop :=
  ((∀ s u, u = performStores s →
    u = { s with mem := u.mem, blk := { s.blk with posted := u.blk.posted } }
    ∧ (∀ p, p ∈ u.blk.posted ↔ p ∈ s.blk.posted ∧ p.isStore = false)
    ∧ (∀ lv a bs, s.blk.posted = [.store lv a bs] → u.mem = Memory.writeAll s.mem a bs)
    ∧ exec .xfence s = .next { u with blk := u.blk.adv 4 }
    ∧ ∀ sc, (s.blk.atomicsOut = false ∨ (sc ≠ .pkg ∧ sc ≠ .pod) →
        exec (.fence sc) s = .next { u with blk := { u.blk with fenced := s.blk.atomicIds }.adv 4 })
      ∧ (s.blk.atomicsOut = true → sc = .pkg ∨ sc = .pod →
        exec (.fence sc) s = .next { u with blk := { u.blk with wait := some .writes } }))
  ∧ (∀ s sd lv sa (off : BitVec 10), s.blk.fenceHeld = true → lv ≠ .sp → Ready s.blk [sa, sd] [] [sd] [] →
    accessFault s lv (rdS s.blk sa + off.signExtend 64).toNat 8 = none → ∀ t, t = ({ s with blk := { s.blk with wait := some .writes } } : State) →
      exec (.ldI64 sd lv sa off) s = .next t ∧ exec (.stI64 sd lv sa off) s = .next t ∧ exec (.ldFe sd lv sa off) s = .next t))
  ∧ (∀ s sa m, Ready s.blk [sa] [] [] [] → (rdS s.blk sa).toNat < 2 ^ 16 → m = ~~~((rdS s.blk sa).setWidth 16) →
    ∃ t, exec (.untaint sa) s = .next t ∧ OnlyBlock s t ∧ Cleaned s.blk t.blk m true
      ∧ t.blk.tags = s.blk.tags ∧ t.blk.floor = s.blk.floor ∧ t.blk.pend = s.blk.pend
      ∧ t.blk.loads = s.blk.loads.map (fun l => { l with taint := l.taint &&& m })
      ∧ t.blk.pc = s.blk.pc + s.blk.len 4)
  ∧ (∀ s, (s.blk.liveTags.map (·.load)).Nodup → (s.blk.loads.map (·.id)).Nodup → ∃ t, exec .tfold s = .next t ∧ OnlyBlock s t ∧ Cleaned s.blk t.blk 0 false
      ∧ t.blk.tags = []
      ∧ t.blk.floor = (s.blk.liveTags.filter (·.done)).foldl (fun f r => maxStamp f r.stamp) s.blk.floor
      ∧ t.blk.pend = s.blk.pend
          + (s.blk.liveTags.filter (fun r => !r.done && !s.blk.loads.any (fun l => l.id == r.load && l.folded))).length
      ∧ t.blk.loads = s.blk.loads.map (fun l =>
          { l with taint := 0, folded := l.folded || s.blk.liveTags.any (fun r => !r.done && r.load == l.id) })
      ∧ t.blk.pc = s.blk.pc + s.blk.len 4)

/-- `give`, `take`, `guard` and `unguard` set OWNER and GUARD of their square alone (R33, R177, R199); a square that the block does not
hold raises ILLEGAL_OPERAND with its number. -/
def Obligations.Squares : Prop :=
  (∀ s (sq : BitVec 6), sq.toNat < s.blk.nsq →
    (∃ t, exec (.give sq) s = .next t ∧ t = { performStores s with blk := { (performStores s).blk.adv 4 with owner := t.blk.owner } }
      ∧ (∀ j, j < 64 → t.blk.owner.getLsbD j = (decide (j ≠ sq.toNat) && s.blk.owner.getLsbD j)))
    ∧ (s.blk.cmds = [] → ∃ t, exec (.take sq) s = .next t ∧ t = { s with blk := { s.blk.adv 4 with owner := t.blk.owner } }
      ∧ (∀ j, j < 64 → t.blk.owner.getLsbD j = (decide (j = sq.toNat) || s.blk.owner.getLsbD j)))
    ∧ (∃ t, exec (.guard sq) s = .next t ∧ t = { s with blk := { s.blk.adv 4 with guarded := t.blk.guarded } }
      ∧ (∀ j, j < 64 → t.blk.guarded.getLsbD j = (decide (j = sq.toNat) || s.blk.guarded.getLsbD j)))
    ∧ (∃ t, exec (.unguard sq) s = .next t ∧ t = { s with blk := { s.blk.adv 4 with guarded := t.blk.guarded } }
      ∧ (∀ j, j < 64 → t.blk.guarded.getLsbD j = (decide (j ≠ sq.toNat) && s.blk.guarded.getLsbD j))))
  ∧ (∀ s (sq : BitVec 6), s.blk.nsq ≤ sq.toNat → exec (.give sq) s = badOperand sq.toNat s ∧ exec (.take sq) s = badOperand sq.toNat s
    ∧ exec (.guard sq) s = badOperand sq.toNat s ∧ exec (.unguard sq) s = badOperand sq.toNat s)

/-- `slip` sets SLIP_DEPTH (R242), `drain` returns once the engines of its mask are empty (R244), waits before, and is refused where the
queues are frozen with a command in one of them (R122), with detail 0 by the model's choice (log 19), and `exit` stops the strand, or
terminates the block with the first trap's cause in handler mode (R22, R245). -/
def Obligations.QueueControl : Prop :=
  (∀ s (n : BitVec 6), exec (.slip n) s = .next { s with blk := { s.blk with slip := n.toNat }.adv 4 })
  ∧ (∀ s mask, (∀ e ∈ maskEngines mask, (s.blk.eng e).q = [] ∧ (s.blk.eng e).started = []) →
    exec (.drain mask) s = .next { s with blk := s.blk.adv 4 })
  ∧ (∀ s mask, s.blk.frozen = false → (∃ e ∈ maskEngines mask, (s.blk.eng e).q ≠ [] ∨ (s.blk.eng e).started ≠ []) →
    exec (.drain mask) s = .next { s with blk := { s.blk with wait := some .drain } })
  ∧ (∀ s mask, s.blk.frozen = true → (∃ e ∈ maskEngines mask, (s.blk.eng e).q ≠ []) → exec (.drain mask) s = badOperand 0 s)
  ∧ (∀ s, s.blk.handler = false → exec .exit s = .next { s with blk := { s.blk.adv 4 with phase := .exited } })
  ∧ (∀ s, s.blk.handler = true → ∃ t, exec .exit s = .next t ∧ t.blk.phase = .terminated
      ∧ t.blk.endCause = BitVec.ofNat 8 s.blk.trapCause.toNat ∧ t.blk.queued = [] ∧ t.blk.running = s.blk.running ∧ OnlyBlock s t
      ∧ t.blk.trapPc = s.blk.trapPc ∧ t.blk.trapCause = s.blk.trapCause ∧ t.blk.trapInfo = s.blk.trapInfo)

/-- `tokset` gives a token its producer, consumer and count once no command names it (R317); `toks` performs the stores and pushes, and
`tokw` pops (R30, R318). Every other token stays. -/
def Obligations.Tokens : Prop :=
  (∀ s k prod cons n, prod ≠ cons → (∀ c ∈ s.blk.cmds, c.namesToken k = false) →
    ∃ t, exec (.tokset k prod cons n) s = .next t ∧ t.blk.token k = ⟨n, prod, cons, true⟩
      ∧ (∀ j, j ≠ k → t.blk.token j = s.blk.token j) ∧ t = { s with blk := { s.blk.adv 8 with tok := t.blk.tok } })
  ∧ (∀ s k, (s.blk.token k).conf = true → (s.blk.token k).prod = .S → (s.blk.token k).count.toNat < 255 →
    ∃ t, exec (.toks k) s = .next t ∧ t.blk.token k = { s.blk.token k with count := (s.blk.token k).count + 1 }
      ∧ (∀ j, j ≠ k → t.blk.token j = s.blk.token j)
      ∧ t = { performStores s with blk := { (performStores s).blk.adv 4 with tok := t.blk.tok } })
  ∧ (∀ s k, (s.blk.token k).conf = true → (s.blk.token k).cons = .S → (s.blk.token k).count ≠ 0 →
    ∃ t, exec (.tokw k) s = .next t ∧ t.blk.token k = { s.blk.token k with count := (s.blk.token k).count - 1 }
      ∧ (∀ j, j ≠ k → t.blk.token j = s.blk.token j) ∧ t = { s with blk := { s.blk.adv 4 with tok := t.blk.tok } })
  ∧ (∀ s k, (s.blk.token k).conf = true → (s.blk.token k).cons = .S → (s.blk.token k).count = 0 → s.blk.frozen = false →
    exec (.tokw k) s = .next { s with blk := { s.blk with wait := some .token } })

/-- The reads of time: `tick` returns a device time that is not below the last (R303, R305; how much has passed is a free value, log 3),
`tick.dc` a dependence counter of the function's range (R325), `turn` the block's turn, and `turnw` returns once the turn has reached its
operand (R308). -/
def Obligations.TimeAndTurns : Prop :=
  (∀ s sd, Ready s.blk [] [] [sd] [] → ∃ v n, s.tm.dtime.toNat ≤ v.toNat
    ∧ exec (.tick sd) s = .next { s with blk := (putS s.blk sd v 0).adv 4, tm := { s.tm with dtime := v }, fresh := n })
  ∧ (∀ s sd sa, Ready s.blk [sa] [] [sd] [] → (depRange s s.blk.fn).1 ≤ (rdS s.blk sa).toNat →
    (rdS s.blk sa).toNat < (depRange s s.blk.fn).1 + (depRange s s.blk.fn).2 →
      exec (.tickDc sd sa) s = .next { s with blk := (putS s.blk sd (BitVec.ofNat 64 (depCounter s (rdS s.blk sa).toNat)) 0).adv 4 })
  ∧ (∀ s sd, Ready s.blk [] [] [sd] [] → exec (.turn sd) s = .next { s with blk := (putS s.blk sd (blockTurn s) 0).adv 4 })
  ∧ (∀ s sa, Ready s.blk [sa] [] [] [] →
    exec (.turnw sa) s = if (rdS s.blk sa).toNat ≤ (blockTurn s).toNat then .next { s with blk := s.blk.adv 4 }
      else .next { s with blk := { s.blk with wait := some .turn } })
  ∧ (∀ s l, findLaunch s s.blk.id.launch = some l → l.locked = true → blockTurn s = l.gturn)
  ∧ (∀ s, findLaunch s s.blk.id.launch = none → blockTurn s = (partOf s s.blk.part).pturn)

/-- Barriers (R319, R320): `arrive` at a scope that the launch may name records its arrival in the phase of the block's instance, with
its stores performed and the instance brought up to date; `bwait` arrives where the block has not, returns with the arrival cleared once
the phase has changed, and waits before. An instance changes its phase, with COUNT 0, when every live member has arrived. A free gang may
name `core` alone and a locked gang what its extent reaches; any other scope raises SCOPE_VIOLATION with its code (R20, R21), and a second
arrival ILLEGAL_OPERAND. -/
def Obligations.Barriers : Prop :=
  (∀ s sc x u, scopeAllowed s sc = true → s.blk.arrPend.getLsbD sc.code = false → s.blk.atomicsOut = false →
    x = barrierOf s s.blk.id.launch sc (unitOf sc s.blk.core) → u = arriveAt s sc →
    u = { performStores s with dp := { s.dp with barriers := u.dp.barriers }, blk :=
          { (performStores s).blk with arrPend := u.blk.arrPend, arrPhase := u.blk.arrPhase } }
    ∧ (∀ k, k < 8 → u.blk.arrPend.getLsbD k = (decide (k = sc.code) || s.blk.arrPend.getLsbD k)
        ∧ u.blk.arrPhase.getLsbD k = if k = sc.code then x.phase else s.blk.arrPhase.getLsbD k)
    ∧ exec (.arrive sc) s = .next { u with blk := u.blk.adv 4 }
    ∧ (phasePassed u sc = true → exec (.bwait sc) s = .next { u with blk := (u.blk.setPend sc false).adv 4 })
    ∧ (phasePassed u sc = false → exec (.bwait sc) s = .next { u with blk := { u.blk with wait := some .barrier } }))
  ∧ (∀ s sc u, scopeAllowed s sc = true → s.blk.arrPend.getLsbD sc.code = true →
    u = settleBarrier s s.blk.id.launch sc (unitOf sc s.blk.core) →
    exec (.arrive sc) s = badOperand sc.code s
    ∧ ((barrierOf u s.blk.id.launch sc (unitOf sc s.blk.core)).phase ≠ s.blk.arrPhase.getLsbD sc.code →
      ∃ t, exec (.bwait sc) s = .next t ∧ t = { u with blk := { s.blk.adv 4 with arrPend := t.blk.arrPend } }
        ∧ ∀ k, k < 8 → t.blk.arrPend.getLsbD k = (decide (k ≠ sc.code) && s.blk.arrPend.getLsbD k))
    ∧ ((barrierOf u s.blk.id.launch sc (unitOf sc s.blk.core)).phase = s.blk.arrPhase.getLsbD sc.code →
      exec (.bwait sc) s = .next { u with blk := { s.blk with wait := some .barrier } }))
  ∧ (∀ s g sc unit x ms n u, x = barrierOf s g sc unit → ms = membersOf s g sc unit → n = arrivedOf ms sc x.phase →
    u = settleBarrier s g sc unit →
    u = { s with dp := { s.dp with barriers := u.dp.barriers } }
    ∧ barrierOf u g sc unit = (if n = ms.length ∧ n ≠ 0 then ⟨g, sc.code, unit, 0, !x.phase⟩ else ⟨g, sc.code, unit, n, x.phase⟩)
    ∧ (∀ g' sc' unit', (g', sc'.code, unit') ≠ (g, sc.code, unit) → barrierOf u g' sc' unit' = barrierOf s g' sc' unit'))
  ∧ (∀ s, scopeAllowed s .core = true)
  ∧ (∀ s sc, sc ≠ .core → (scopeAllowed s sc = true ↔
    ∃ l, findLaunch s s.blk.id.launch = some l ∧ l.locked = true ∧ sc.code ≤ (extentScope l.record.blocks).code))
  ∧ (∀ s sc t, scopeAllowed s sc = false → t = strandTrap cSCOPE (BitVec.ofNat 64 sc.code) s →
    exec (.arrive sc) s = t ∧ exec (.bwait sc) s = t)

/-! ## Objects -/

/-- The object loads and atomics of R192-R196 and `ver` (R324) whose checks pass join the outstanding loads and let the strand go on; no
byte of memory and no scalar changes until they complete (R94, R194). A tensor or step cache is read only where no open lease of another
block bars it, which its home on another package has said (R217). The load takes a free tag, its operands, and the required stamp and the
waits of its taint set (R94, R225); where all 16 tags are in use, the one issued earliest is folded and taken out of every set (R227). -/
def Obligations.ObjectLoadsIssue : Prop :=
  (∀ s sd h sa (imm : BitVec 18) sb sc, Ready s.blk [sa, sb, sc] [] [sd] [] → s.blk.loads.length < 255 →
    ∀ d i hv, d = (s.blk.hCell h).desc → hv = (s.blk.hCell h).v →
      ((rdS s.blk sa).toNat : Int) + imm.toInt = (i : Nat) → i < dCount d →
      (∀ t b', t = taintS s.blk sa → LiveHandle s.blk h (s.blk.reqStamp (s.blk.accessT t)) → canRead d s.blk.world = true →
        wordFormat (dFmt d) = true →
        (b' = s.blk ∧ (dKind d = kStream ∨ dKind d = kCode)
          ∨ b' = s.blk ∧ (dKind d = kTensor ∨ dKind d = kStep) ∧ hHome hv = s.pl.pkg.toNat ∧ leaseBars s s.blk.id hv i = false
          ∨ b' = { s.blk.note hv with reply := none } ∧ (dKind d = kTensor ∨ dKind d = kStep) ∧ hHome hv ≠ s.pl.pkg.toNat
            ∧ ∃ bs, s.blk.reply = some bs ∧ replyValue bs 0 = 1) →
          exec (.ldo sd h sa imm) s = .next { s with blk := (b'.issueLoad .elem sd hv i 0 0 t).adv 8 })
      ∧ (∀ t, t = taintS s.blk sa ||| taintS s.blk sb → LiveHandle s.blk h (s.blk.reqStamp (s.blk.accessT t)) → dKind d = kCounter →
        canWrite d s.blk.world = true → s.blk.fenceHeld = false → ∀ x, x = rdS s.blk sb →
          exec (.atomAdd sd h sa imm sb) s = .next { s with blk := (s.blk.issueLoad .add sd hv i x 0 t).adv 8 }
          ∧ exec (.atomMinI64 sd h sa imm sb) s = .next { s with blk := (s.blk.issueLoad .minI sd hv i x 0 t).adv 8 }
          ∧ exec (.atomMinN64 sd h sa imm sb) s = .next { s with blk := (s.blk.issueLoad .minN sd hv i x 0 t).adv 8 }
          ∧ exec (.atomMaxI64 sd h sa imm sb) s = .next { s with blk := (s.blk.issueLoad .maxI sd hv i x 0 t).adv 8 }
          ∧ exec (.atomMaxN64 sd h sa imm sb) s = .next { s with blk := (s.blk.issueLoad .maxN sd hv i x 0 t).adv 8 }
          ∧ exec (.atomXchg sd h sa imm sb) s = .next { s with blk := (s.blk.issueLoad .xchg sd hv i x 0 t).adv 8 }
          ∧ exec (.atomIncb sd h sa imm sb) s = .next { s with blk := (s.blk.issueLoad .incb sd hv i x 0 t).adv 8 })
      ∧ (∀ t, t = taintS s.blk sa ||| taintS s.blk sb ||| taintS s.blk sc → LiveHandle s.blk h (s.blk.reqStamp (s.blk.accessT t)) →
        dKind d = kCounter → canWrite d s.blk.world = true → s.blk.fenceHeld = false →
          exec (.atomCas sd h sa imm sb sc) s = .next { s with blk :=
            (s.blk.issueLoad .cas sd hv i (rdS s.blk sb) (rdS s.blk sc) t).adv 8 })
      ∧ (LiveHandle s.blk h (s.blk.reqStamp (s.blk.accessT 0)) → canRead d s.blk.world = true →
          exec (.ver sd h) s = .next { s with blk := (s.blk.issueLoad .version sd hv 0 0 0 0).adv 8 }))
  ∧ (∀ (b : Block) op sd h i x y t c n, (∃ k, k < 16 ∧ ∀ r ∈ b.liveTags, r.tag.toNat ≠ k) → c = { b with tags := b.liveTags } → n = b.nextLoad →
    ∃ tag, (∀ r ∈ b.liveTags, r.tag ≠ tag) ∧ b.issueLoad op sd h i x y t = { b with
      nextLoad := n + 1, tags := b.liveTags ++ [⟨tag, n, false, 0⟩]
      loads := b.loads ++ [⟨n, b.pc, op, sd, h, i, x, y, t ||| tagBit tag, c.reqStamp (b.accessT t), c.waitLoads (b.accessT t), false, none, none,
        none⟩] })
  ∧ (∀ (b : Block) op sd h i x y t u, (∀ k, k < 16 → ∃ r ∈ b.liveTags, r.tag.toNat = k) → u = b.issueLoad op sd h i x y t →
    ∃ r rest l, b.liveTags = r :: rest ∧ Cleaned b u (~~~(tagBit r.tag)) false ∧ u.tags = rest ++ [⟨r.tag, b.nextLoad, false, 0⟩]
      ∧ u.floor = (if r.done = true then maxStamp b.floor r.stamp else b.floor)
      ∧ u.pend = (if r.done = true ∨ b.loads.any (fun l => l.id == r.load && l.folded) = true then b.pend else b.pend + 1)
      ∧ u.loads = b.loads.map (fun l => { l with
          taint := l.taint &&& ~~~(tagBit r.tag), folded := l.folded || (!r.done && l.id == r.load
            && !b.loads.any (fun l => l.id == r.load && l.folded)) }) ++ [l]
      ∧ l.id = b.nextLoad ∧ l.addr = b.pc ∧ l.op = op ∧ l.dst = sd ∧ l.handle = h ∧ l.index = i ∧ l.b = x ∧ l.c = y
      ∧ l.taint = (t ||| tagBit r.tag) ∧ l.folded = false ∧ l.park = none ∧ l.remote = none ∧ l.reply = none)

/-- A `sto` of R195 whose checks pass, with an open write lease of its block on the element (R216), is posted with its operands, the
required stamp of its taint set, and its waits: the loads that the set names and the block's outstanding loads of the element (R194, R225).
The spill fold is made: of the set's tags a completed one raises TAINT_FLOOR to its stamp and an outstanding one is carried by TAINT_PEND
(R227). Without the lease it raises RACE and posts nothing. -/
def Obligations.ObjectStore : Prop :=
  (∀ s h sa (imm : BitVec 18) sb, Ready s.blk [sa, sb] [] [] [] →
    ∀ d i hv t a, d = (s.blk.hCell h).desc → hv = (s.blk.hCell h).v → t = taintS s.blk sa ||| taintS s.blk sb → a = s.blk.accessT t →
      ((rdS s.blk sa).toNat : Int) + imm.toInt = (i : Nat) → i < dCount d → LiveHandle s.blk h (s.blk.reqStamp a) →
      dKind d = kTensor ∨ dKind d = kStep → canWrite d s.blk.world = true → wordFormat (dFmt d) = true →
        (leaseCovers s s.blk.id hv false i = true →
          ∀ x : Posted, x = .sto s.blk.pc hv i (rdS s.blk sb) (s.blk.reqStamp a) (s.blk.waitLoads a ++ s.blk.loadsOf hv i) none none →
            exec (.sto h sa imm sb) s = .next { s with blk := ({ s.blk.foldSet a with posted := s.blk.posted ++ [x] } : Block).adv 8 })
        ∧ (leaseCovers s s.blk.id hv false i = false → exec (.sto h sa imm sb) s = strandTrap cRACE hv s))
  ∧ (∀ s id h i, leaseCovers s id h false i = true ↔ ∃ l ∈ s.tb.leases ++ s.tb.away, l.pkg = s.pl.pkg ∧ l.holder = id ∧ l.add = false
      ∧ hObj l.handle = hObj h ∧ l.lo ≤ i ∧ i ≤ l.hi)
  ∧ (∀ (b : Block) a rs, rs = b.liveTags.filter (fun r => (a &&& tagBit r.tag) != 0) → (rs.map (·.load)).Nodup →
    (b.loads.map (·.id)).Nodup → b.foldSet a = { b with
      floor := (rs.filter (·.done)).foldl (fun f r => maxStamp f r.stamp) b.floor
      pend := b.pend + (rs.filter (fun r => !r.done && !b.loads.any (fun l => l.id == r.load && l.folded))).length
      loads := b.loads.map (fun l => { l with folded := l.folded || rs.any (fun r => !r.done && r.load == l.id) }) })

/-- The checks of R193 in their order, on `ldo`, `atom.add` and `sto`: an invalid handle, a generation that is not the descriptor's, a kind
that the access does not take, a right that the world has not, a format that `ldo` and `sto` do not take, and an index outside the object each
raise their trap; an element under another block's open lease raises RACE on an `ldo`, or makes it wait where the block holds a subscription
(R217). A handle whose descriptor, read at its home, has another generation resolves to STALE_HANDLE (R275). -/
def Obligations.ObjectAccessFaults : Prop :=
  (∀ s sd h sa (imm : BitVec 18) sb, Ready s.blk [sa, sb] [] [sd] [] → taintS s.blk sa = 0 → taintS s.blk sb = 0 →
    s.blk.deadMode = false →
    ∀ d hv, d = (s.blk.hCell h).desc → hv = (s.blk.hCell h).v →
      (hv = 0 → exec (.ldo sd h sa imm) s = strandTrap cINVALIDH hv s ∧ exec (.atomAdd sd h sa imm sb) s = strandTrap cINVALIDH hv s
        ∧ exec (.sto h sa imm sb) s = strandTrap cINVALIDH hv s)
      ∧ (∀ s₁, hLow hv = 0 → hIndex hv ≠ 0 → (s.blk.hCell h).refresh = true ∨ dGen d ≠ hGen hv →
        resolve s (s.blk.who 0) hv (s.blk.reqStamp (s.blk.accessT 0)) = (.trap cSTALE, s₁) →
          exec (.ldo sd h sa imm) s = strandTrap cSTALE hv s₁ ∧ exec (.atomAdd sd h sa imm sb) s = strandTrap cSTALE hv s₁
          ∧ exec (.sto h sa imm sb) s = strandTrap cSTALE hv s₁)
      ∧ (LiveHandle s.blk h (s.blk.reqStamp (s.blk.accessT 0)) →
        (dKind d = kCounter → exec (.ldo sd h sa imm) s = strandTrap cKIND hv s ∧ exec (.sto h sa imm sb) s = strandTrap cKIND hv s)
        ∧ (dKind d = kTensor → exec (.atomAdd sd h sa imm sb) s = strandTrap cKIND hv s)
        ∧ (dKind d = kTensor → canRead d s.blk.world = false → exec (.ldo sd h sa imm) s = strandTrap cRIGHTS hv s)
        ∧ (dKind d = kTensor → canWrite d s.blk.world = false → exec (.sto h sa imm sb) s = strandTrap cRIGHTS hv s)
        ∧ (dKind d = kCounter → canWrite d s.blk.world = true →
          (dCount d : Int) ≤ ((rdS s.blk sa).toNat : Int) + imm.toInt →
            exec (.atomAdd sd h sa imm sb) s
              = strandTrap cOPERAND (BitVec.ofInt 64 (((rdS s.blk sa).toNat : Int) + imm.toInt)) s)
        ∧ (dKind d = kTensor → canRead d s.blk.world = true → canWrite d s.blk.world = true →
          (wordFormat (dFmt d) = false → exec (.ldo sd h sa imm) s = badOperand (dFmt d) s ∧ exec (.sto h sa imm sb) s = badOperand (dFmt d) s)
          ∧ (wordFormat (dFmt d) = true → ∀ i, i = ((rdS s.blk sa).toNat : Int) + imm.toInt →
            (i < 0 ∨ (dCount d : Int) ≤ i → exec (.ldo sd h sa imm) s = strandTrap cOPERAND (BitVec.ofInt 64 i) s
              ∧ exec (.sto h sa imm sb) s = strandTrap cOPERAND (BitVec.ofInt 64 i) s)
            ∧ (0 ≤ i → i < dCount d → hHome hv = s.pl.pkg.toNat → leaseBars s s.blk.id hv i.toNat = true →
              ∀ u, u = ({ s with blk := { s.blk with reply := none } } : State) →
                (subscribed s.blk hv = false → exec (.ldo sd h sa imm) s = strandTrap cRACE hv u)
                ∧ (subscribed s.blk hv = true →
                  exec (.ldo sd h sa imm) s = .next { u with blk := { u.blk with wait := some .race } }))))))
  ∧ (∀ s who h f d, hLow h = 0 → hIndex h ≠ 0 → hHome h = s.pl.pkg.toNat → cached s (clusterOf who.core) h f = none →
    readDesc s (hIndex h) = .ok d → dOk s (hHome h) d = true → dKind d = 0 ∨ dGen d ≠ hGen h → (resolve s who h f).1 = .trap cSTALE)

/-- Object accesses behind their issue. An atomic on a counter word of this package gives the word the operation's value and its register
the old one, indivisibly (R181, R196); an `ldo` returns its element, sign-extended from a signed integer format and else zero-extended
(R195), `ver` the version of the home descriptor (R324), and a skip-map read its word (R171); what another package has answered is the
result of the load that asked. The tag takes the stamp at which the home served the access, the floor rises where the load was folded, and
what waited for the load takes the stamp over (R94, R194, R225, R227). A posted `sto` gives its element the low bits of its value (R195),
and an `sgate` update its skip bit, count and, if it does not skip, elements in one step behind the parts of its payload at other packages,
which it writes and awaits one after another (R169, R172); each then leaves the posted writes. Nothing else of memory changes; where a watch
is armed on the element, a `sto` fires it (R328; MonitorsAndWatches says what that is). Where the skip bit and the count stand is the model's
reading (log 34). -/
def Obligations.ObjectAccessesComplete : Prop :=
  (∀ s k l d st s₁ u v w, s.blk.loads[k]? = some l → loadReady s.blk k l = true → l.reply = none →
    resolve s (s.blk.who 0) l.handle l.req = (.ok d st, s₁) → s₁.blk = s.blk → hHome l.handle = s₁.pl.pkg.toNat →
    dKind d = kCounter → canWrite d s.blk.world = true → Unwatched s₁ l.handle l.index → u = maxStamp s₁.tm.pclk l.req →
    v = leNat (Memory.chip s₁.mem (dWord d 7 + 8 * l.index) 8) →
      (l.op = .add ∧ w = (v + l.b.toNat) % 2 ^ 64 ∨ l.op = .xchg ∧ w = l.b.toNat ∨ l.op = .minN ∧ w = min v l.b.toNat
        ∨ l.op = .maxN ∧ w = max v l.b.toNat ∨ l.op = .cas ∧ w = (if v = l.b.toNat then l.c.toNat else v)
        ∨ l.op = .incb ∧ w = (if v < l.b.toNat then (v + 1) % 2 ^ 64 else v)
        ∨ l.op = .minI ∧ w = (if l.b.toInt < (BitVec.ofNat 64 v).toInt then l.b.toNat else v)
        ∨ l.op = .maxI ∧ w = (if (BitVec.ofNat 64 v).toInt < l.b.toInt then l.b.toNat else v)) →
      exec (.objectLoadCompletion k) s = .next { s₁ with
        mem := Memory.writeAll s₁.mem (dWord d 7 + 8 * l.index) (leBytes 8 w), tm := { s₁.tm with pclk := u }
        blk := s.blk.completeLoad l (BitVec.ofNat 64 v) u })
  ∧ (∀ s k l d st s₁, s.blk.loads[k]? = some l → loadReady s.blk k l = true → l.reply = none →
    resolve s (s.blk.who 0) l.handle l.req = (.ok d st, s₁) → s₁.blk = s.blk → hHome l.handle = s₁.pl.pkg.toNat →
    canRead d s.blk.world = true →
      (∀ x st' s₂, l.op = .elem → dKind d = kTensor ∨ dKind d = kStep ∨ dKind d = kStream ∨ dKind d = kCode →
        objRead s₁ (s.blk.who 0) l.handle d l.req (indexFields d l.index).1 (indexFields d l.index).2 = (.ok x st', s₂) →
        s₂.blk = s.blk → s₂.pl = s₁.pl → exec (.objectLoadCompletion k) s = .next { s₂ with
          blk := s.blk.completeLoad l (scalarOf (dFmt d) (x.getD 0 0)) st' })
      ∧ (∀ x st' s₂ n, l.op = .skipWord n → dKind d = kStep →
        objRead s₁ (s.blk.who 0) l.handle d l.req 0 [skipField d n] = (.ok x st', s₂) → s₂.blk = s.blk →
        exec (.objectLoadCompletion k) s = .next { s₂ with blk := s.blk.completeLoad l (BitVec.ofNat 64 (x.getD 0 0)) st' })
      ∧ (∀ d' u, l.op = .version → readDesc s₁ (hIndex l.handle) = .ok d' → u = maxStamp s₁.tm.pclk l.req →
        exec (.objectLoadCompletion k) s = .next { s₁ with
          tm := { s₁.tm with pclk := u }, blk := s.blk.completeLoad l (BitVec.ofNat 64 (dVersion d')) u }))
  ∧ (∀ s k l bs, s.blk.loads[k]? = some l → loadReady s.blk k l = true → l.reply = some bs → l.op ≠ .elem →
    exec (.objectLoadCompletion k) s = .next { s with
      blk := s.blk.completeLoad l (BitVec.ofNat 64 (replyValue bs 0)) (replyStamp bs) })
  ∧ (∀ f v w, fmtOf f = some (.int true w) → v < 2 ^ w →
    scalarOf f v = if v < 2 ^ (w - 1) then BitVec.ofNat 64 v else BitVec.ofInt 64 ((v : Int) - 2 ^ w))
  ∧ (∀ f v, 4 ≤ f → scalarOf f v = BitVec.ofNat 64 v)
  ∧ (∀ (b : Block) l v st c, c = b.completeLoad l v st →
    c.tags = b.tags.map (fun r => if r.load = l.id then { r with done := true, stamp := st } else r)
    ∧ c.loads = (b.loads.filter (fun x => x.id != l.id)).map (fun x => { x with
        waits := x.waits.filter (· != l.id), req := if l.id ∈ x.waits then maxStamp x.req st else x.req })
    ∧ c.floor = (if l.folded = true then maxStamp b.floor st else b.floor) ∧ c.pend = (if l.folded = true then b.pend - 1 else b.pend)
    ∧ (b.takesResults = true → ∀ r, rdS c r = (if r = l.dst ∧ r ≠ 0 then v else rdS b r)
        ∧ taintS c r = (if r = l.dst ∧ r ≠ 0 then l.taint else taintS b r))
    ∧ (b.takesResults = false → c.s = b.s)
    ∧ c.p = b.p ∧ c.h = b.h ∧ c.pc = b.pc ∧ c.wait = b.wait ∧ c.tok = b.tok ∧ c.ctl = b.ctl ∧ c.posted.length = b.posted.length)
  ∧ (∀ s who h d f sh fs e as st s₁, holderOf s h d sh f false = .ok e → e.pkg = s.pl.pkg.toNat →
    byteAddrs s who h d e false (fieldOffs fs) = (.ok as st, s₁) → (∀ a ∈ as, Memory.poisoned s₁.mem (a / 64) = false) →
    objRead s who h d f sh fs = (.ok (cutFields fs (as.map (fun a => (Memory.read s₁.mem a).getD 0)))
      (if dRes d = 4 ∧ e.shard ≠ 0 then e.stamp else maxStamp s₁.tm.pclk f), { s₁ with tm := { s₁.tm with pclk := maxStamp s₁.tm.pclk f } }))
  ∧ (∀ s k pc h i v req pk d st s₁ x st' s₂, s.blk.posted[k]? = some (.sto pc h i v req [] pk none) → stoHeld s.blk k h i = false →
    s.blk.strandTurn pk = true → resolve s (s.blk.who 0) h req = (.ok d st, s₁) → s₁.blk = s.blk →
    dKind d = kTensor ∨ dKind d = kStep → canWrite d s.blk.world = true →
    objWrite s₁ (s.blk.who 0) h d req (indexFields d i).1 ((indexFields d i).2.take 1) [v.toNat % 2 ^ dWidth d] [] = (.ok x st', s₂) →
    (Unwatched s₂ h i →
      exec (.postedStorePerformed k) s = .next { s₂ with blk := { s₂.blk with posted := s₂.blk.posted.eraseIdx k } })
    ∧ ∀ t, t = fireWatches s₂ h i (scalarOf (dFmt d) (v.toNat % 2 ^ dWidth d)) →
      exec (.postedStorePerformed k) s = .next { t with blk := { t.blk with posted := t.blk.posted.eraseIdx k } })
  ∧ (∀ s who h d f sh fs vs e as st s₁, holderOf s h d sh f true = .ok e → e.pkg = s.pl.pkg.toNat →
    byteAddrs s who h d e true (fieldOffs fs) = (.ok as st, s₁) → (∀ a ∈ as, Memory.poisoned s₁.mem (a / 64) = false) →
    objWrite s who h d f sh fs vs [] = (.ok () (maxStamp s₁.tm.pclk f),
      { s₁ with mem := writeFields s₁.mem fs as vs, tm := { s₁.tm with pclk := maxStamp s₁.tm.pclk f } }))
  ∧ (∀ m f as v, f.lo = 0 → f.n = 8 * as.length → v < 2 ^ f.n → writeFields m [f] as [v] = writeAt m as (leBytes as.length v))
  ∧ (∀ s k u d st s₁ ws write, s.blk.posted[k]? = some (.gate u) → u.remote = none → s.blk.strandTurn u.park = true →
    resolve s (s.blk.who 0) u.handle u.req = (.ok d st, s₁) → s₁.blk = s.blk → ws = gateWrites d u.j u.count u.skip u.x →
    write = writeNear (s.blk.who 0) u.handle d u.req (fullLines (ws.map (·.1))) ws →
      (∀ s₀ ys s₂, u.far = some [] ∧ s₀ = s₁ ∨ u.far = none ∧ (write s₁).1 = .ok [] ∧ s₀ = { (write s₁).2 with mem := s₁.mem } →
        write s₀ = (.ok ys, s₂) →
          exec (.postedStorePerformed k) s = .next { s₂ with blk := { s₂.blk with posted := s₂.blk.posted.eraseIdx k } })
      ∧ (∀ s₀ ys p rest rm s₃, (u.far = some (p :: rest) ∧ s₀ = s₁
          ∨ u.far = none ∧ (write s₁).1 = .ok ys ∧ gateParted d u.j u.count u.skip u.x ys = p :: rest
            ∧ s₀ = { (write s₁).2 with mem := s₁.mem }) → p.side = false →
        sendRequest s₀ p.pkg opWrite u.handle p.off none p.body = some (rm, s₃) →
          exec (.postedStorePerformed k) s = .next { s₃ with blk := { s₃.blk with
            posted := s₃.blk.posted.set k (.gate { u with far := some (p :: rest), park := none, remote := some rm }) } }))
  ∧ (∀ d j c x b n xs, b = (⟨sideBase d + j / 8, j % 8, 1⟩ : Field) → n = (⟨sideBase d + 8 * cdiv (dExt d 2) 64 + j, 0, 8⟩ : Field) →
    xs = (blockCoords d j).map (elemFields d) →
    gateWrites d j c true x = [((0, b), 1), ((0, n), c + 1)]
    ∧ gateWrites d j c false x = [((0, b), 0), ((0, n), 0)]
      ++ (xs.zip (cutBytes (dWidth d / 8) xs.length x)).flatMap (fun y => (y.1.2.take 1).map (fun f => ((y.1.1, f), y.2))))

/-- The handle registers (R83, R293, R294): `hget` copies the handle, `hdrop` clears the register, `hopen` of a handle that resolves for a
world with a right, to read or to write, fills it with the handle and its descriptor and folds the tags of its source, and raises RIGHTS for a
world with none; `hstat` returns a word of the hidden copy, and with `.r` first resolves the handle anew, and its result takes a load tag. -/
def Obligations.HandleRegisters : Prop :=
  (∀ s sd h, Ready s.blk [] [] [sd] [] → (s.blk.deadMode = true → (s.blk.hCell h).dead = false) →
    exec (.hget sd h) s = .next { s with blk := (putS s.blk sd (s.blk.hCell h).v 0).adv 8 })
  ∧ (∀ s h, ∃ t, exec (.hdrop h) s = .next t ∧ t.blk.hCell h = ⟨0, 0, 0, false, false⟩
      ∧ (∀ j, j ≠ h → t.blk.hCell j = s.blk.hCell j) ∧ t = { s with blk := { s.blk.adv 8 with h := t.blk.h } })
  ∧ (∀ s h sa d st s₁ b, Ready s.blk [sa] [] [] [] → Settled s.blk (taintS s.blk sa) →
    resolve s (s.blk.who 0) (rdS s.blk sa) (s.blk.reqStamp (s.blk.accessT (taintS s.blk sa))) = (.ok d st, s₁) → s₁.blk = s.blk →
    b = s.blk.foldSet (taintS s.blk sa) →
    (canRead d s.blk.world = true ∨ canWrite d s.blk.world = true →
      ∃ t, exec (.hopen h sa) s = .next t ∧ t.blk.hCell h = ⟨rdS s.blk sa, d, st, false, false⟩
        ∧ (∀ j, j ≠ h → t.blk.hCell j = s.blk.hCell j)
        ∧ t = { s₁ with blk := { s.blk.adv 8 with h := t.blk.h, floor := b.floor, pend := b.pend, loads := b.loads } })
    ∧ (canRead d s.blk.world = false → canWrite d s.blk.world = false →
      exec (.hopen h sa) s = strandTrap cRIGHTS (rdS s.blk sa) s₁))
  ∧ (∀ s sd h w, Ready s.blk [] [] [sd] [] → LiveHandle s.blk h 0 →
    exec (.hstat sd h false w) s = .next { s with blk :=
      (putS s.blk sd (shownWord (s.blk.hCell h).desc w.toNat s.blk.world) 0).adv 8 })
  ∧ (∀ s sd h w x d st s₁, Ready s.blk [] [] [sd] [] → Settled s.blk 0 → (s.blk.deadMode = true → (s.blk.hCell h).dead = false) →
    x = s.blk.hCell h → x.v ≠ 0 → resolve s (s.blk.who 0) x.v (s.blk.reqStamp (s.blk.accessT 0)) = (.ok d st, s₁) → s₁.blk = s.blk →
      exec (.hstat sd h true w) s = .next { s₁ with blk := (Block.taggedResult (s.blk.setH h { x with desc := d, stamp := st, refresh := false })
        sd (shownWord d w.toNat s.blk.world) 0 st).adv 8 })
  ∧ (∀ (b : Block) sd v t stamp, (∃ k, k < 16 ∧ ∀ r ∈ b.liveTags, r.tag.toNat ≠ k) →
    ∃ tag, (∀ r ∈ b.liveTags, r.tag ≠ tag) ∧ b.taggedResult sd v t stamp = putS { b with
      nextLoad := b.nextLoad + 1, tags := b.liveTags ++ [⟨tag, b.nextLoad, true, stamp⟩] } sd v (t ||| tagBit tag))

/-- A lease that nothing excludes opens at once, at the home on this package, in the free entry with the lowest index, with its identifier in
the register (R215, R290, R291); one that another block's lease excludes raises LEASE_CONFLICT where it does not wait, and else joins the
waiting requests; a waiting request is granted when it may be, and its `lease` completes. For an object of another package the request goes
there, and its answer grants or traps (R290, R291). `unlease` closes its lease and raises its entry's generation (R219, R292). The codes of
the answer (log 14), the commands that an entry covers (log 65) and the entry that LHEAD names (log 82) are the model's. -/
def Obligations.Leases : Prop :=
  (∀ s sd h sa sb add nowait, Ready s.blk [sa, sb] [] [sd] [] → taintS s.blk sa = 0 → taintS s.blk sb = 0 → Settled s.blk 0 →
    LiveHandle s.blk h (s.blk.reqStamp (s.blk.accessT 0)) →
    ∀ d hv, d = (s.blk.hCell h).desc → hv = (s.blk.hCell h).v → dKind d = kTensor ∨ dKind d = kStep → canWrite d s.blk.world = true →
      (rdS s.blk sa).toNat ≤ (rdS s.blk sb).toNat → (rdS s.blk sb).toNat < dCount d → (heldLeases s s.blk.id).length < 16 →
      ∀ r : LeaseReq, r = ⟨hv, (rdS s.blk sa).toNat, (rdS s.blk sb).toNat, add, s.pl.pkg, s.blk.id, s.blk.core, s.blk.half, sd, none⟩ →
        (hHome hv = s.pl.pkg.toNat → s.tb.leases.length + s.tb.leaseWait.length < 16384 →
          (grantable s s.tb.leaseWait r = true →
            ∃ t, exec (.lease sd h sa sb add nowait) s = .next t
              ∧ t.tb.leases = s.tb.leases ++ [⟨freeEntry s, entryGen s (freeEntry s), hv, r.lo, r.hi, add, s.pl.pkg, s.blk.id, s.blk.core,
                  s.blk.half, s.blk.dispN, 0⟩]
              ∧ t = { s with mem := t.mem, tb := { s.tb with leases := t.tb.leases }, blk :=
                  (wrS s.blk sd (BitVec.ofNat 64 (freeEntry s + (entryGen s (freeEntry s)).toNat * 2 ^ 16)) 0).adv 8 })
          ∧ (grantable s s.tb.leaseWait r = false → nowait = true →
            exec (.lease sd h sa sb add nowait) s = strandTrap cLEASE hv s)
          ∧ (grantable s s.tb.leaseWait r = false → nowait = false →
            exec (.lease sd h sa sb add nowait) s = .next { s with
              tb := { s.tb with leaseWait := s.tb.leaseWait ++ [r] }, blk := { s.blk with wait := some (.lease s.tb.leaseWait.length) } }))
        ∧ (hHome hv ≠ s.pl.pkg.toNat → ∀ u, u = ({ s with blk := { s.blk with reply := none } } : State) →
          (∀ rm s', s.blk.reply = none → sendRequest s (hHome hv) opAtomic hv 0 none (leaseBody r nowait) = some (rm, s') →
            exec (.lease sd h sa sb add nowait) s = .next { s' with blk := { s'.blk with
              wait := some (.leaseAway rm hv r.lo r.hi add sd (s.blk.reqStamp (s.blk.accessT 0))) } })
          ∧ (∀ bs, s.blk.reply = some bs → exec (.lease sd h sa sb add nowait) s =
              if replyValue bs 0 = 3 then strandTrap cFULL 0x0020 u else strandTrap cLEASE hv u)))
  ∧ (∀ b h lo hi add sd bs s v, replyValue bs 0 = 1 → v = BitVec.ofNat 64 (replyValue bs 1) →
    answerLease b h lo hi add sd bs s = ({ wrS b sd v 0 with pc := b.pc + 8, wait := none },
      { s with tb := { s.tb with away := s.tb.away ++ [awayLease b s.pl.pkg v h lo hi add] } }))
  ∧ (∀ s k r, s.tb.leaseWait[k]? = some r → grantable s (s.tb.leaseWait.take k) r = true → leaseAwaited s r = true →
    ∃ t, exec (.leaseGrant k) s = .next t ∧ t.tb.leaseWait = s.tb.leaseWait.eraseIdx k
      ∧ (∃ l ∈ t.tb.leases, l.entry = freeEntry s ∧ l.pkg = r.pkg ∧ l.holder = r.holder ∧ l.handle = r.handle ∧ l.lo = r.lo ∧ l.hi = r.hi
        ∧ l.add = r.add)
      ∧ (r.frame = none → r.holder = s.blk.id → s.blk.phase = .running → t.blk =
          { wrS s.blk r.sd (BitVec.ofNat 64 (freeEntry s + (entryGen s (freeEntry s)).toNat * 2 ^ 16)) 0 with
            pc := s.blk.pc + 8, wait := none }))
  ∧ (∀ s h sa l, Ready s.blk [sa] [] [] [] → LiveHandle s.blk h (s.blk.reqStamp (s.blk.accessT (taintS s.blk sa))) →
    s.tb.leases = [l] → s.tb.away = [] → l.pkg = s.pl.pkg → l.holder = s.blk.id → hObj l.handle = hObj (s.blk.hCell h).v →
    hHome (s.blk.hCell h).v = s.pl.pkg.toNat → rdS s.blk sa = BitVec.ofNat 64 (l.entry + l.gen.toNat * 2 ^ 16) →
    s.blk.cmds = [] → s.blk.posted = [] → s.blk.loads = [] →
      ∃ t, exec (.unlease h sa) s = .next t ∧ t.tb.leases = [] ∧ entryGen t l.entry = entryGen s l.entry + 1
        ∧ t = { s with mem := t.mem, tb := { s.tb with leases := [], leaseGen := t.tb.leaseGen }, blk := s.blk.adv 8 })

/-- `publish` of an object of this package answers its version plus 1, takes the package clock's next value as stamp, and closes the block's
leases on the object (R221, R322); `subscribe` returns at once where the version is there, records the
object, and raises TAINT_FLOOR to its stamp, and waits otherwise (R222, R323). -/
def Obligations.Versions : Prop :=
  (∀ s sd h d s₁, Ready s.blk [] [] [sd] [] → s.blk.reply = none → Settled s.blk 0 →
    LiveHandle s.blk h (s.blk.reqStamp (s.blk.accessT 0)) → s.blk.cmds = [] → s.blk.posted = [] → s.blk.loads = [] →
    versionFault (s.blk.hCell h).desc s.blk.world false true = none → hHome (s.blk.hCell h).v = s.pl.pkg.toNat →
    s₁ = { s with tm := { s.tm with pclk := maxStamp s.tm.pclk (s.blk.reqStamp (s.blk.accessT 0)) + 1 } } →
    readDesc s (hIndex (s.blk.hCell h).v) = .ok d →
    ∃ t, exec (.publish sd h) s = .next t ∧ t.tm = s₁.tm
      ∧ t.mem = (closeOwn (writeDesc s₁ (hIndex (s.blk.hCell h).v)
          (dSetWord (dSetWord d 5 ((dVersion d + 1) % 2 ^ 64)) 6 s₁.tm.pclk.toNat)) (s.blk.hCell h).v).mem
      ∧ t.blk.s = (wrS s.blk sd (BitVec.ofNat 64 ((dVersion d + 1) % 2 ^ 64)) 0).s
      ∧ t.blk.floor = maxStamp s.blk.floor s₁.tm.pclk
      ∧ (∀ l ∈ t.tb.leases, l.pkg = s.pl.pkg → l.holder = s.blk.id → hObj l.handle ≠ hObj (s.blk.hCell h).v))
  ∧ (∀ s sd h sa d, Ready s.blk [sa] [] [sd] [] → s.blk.reply = none → taintS s.blk sa = 0 → Settled s.blk 0 →
    LiveHandle s.blk h (s.blk.reqStamp (s.blk.accessT 0)) → versionFault (s.blk.hCell h).desc s.blk.world false false = none →
    hHome (s.blk.hCell h).v = s.pl.pkg.toNat → s.blk.subs.length < 32 → readDesc s (hIndex (s.blk.hCell h).v) = .ok d →
      ((rdS s.blk sa).toNat ≤ dVersion d →
        ∃ t, exec (.subscribe sd h sa) s = .next t ∧ t.mem = s.mem ∧ subscribed t.blk (s.blk.hCell h).v = true
          ∧ t.blk.floor = maxStamp s.blk.floor (BitVec.ofNat 64 (dStamp d))
          ∧ t.blk.s = (wrS s.blk sd (BitVec.ofNat 64 (dVersion d)) 0).s)
      ∧ (dVersion d < (rdS s.blk sa).toNat →
        ∃ t, exec (.subscribe sd h sa) s = .next t ∧ t.blk = { s.blk with wait := some .subscribe } ∧ t.mem = s.mem))

/-- `mwait` on an on-chip word reads it behind the strand's own stores to its banks, returns it once it differs, and else arms its monitor
and waits; on a counter object's word it reads at the home atomic unit, and its result takes a load tag with the stamp (R326). `watch` fills
the lowest free entry of the partition's table (R299, R327). `unwatch` disarms an entry of its function once every firing of it is appended,
waits before, and refuses any other operand (R329). A write of the element that an armed entry watches appends the entry's registered record,
with the value written as ARG, to its queue, or adds 1 to WMISS where the ring is full; no other write fires it (R328). The set of `mwait` on an
object (log 43) and the numbers of the entries in their table (log 39) are the model's. -/
def Obligations.MonitorsAndWatches : Prop :=
  (∀ s sd lv sa (imm : BitVec 18) sb a u v x, Ready s.blk [sa, sb] [] [sd] [] → a = (rdS s.blk sa + imm.signExtend 64).toNat →
    OnChip s lv a 8 → x = levelAddr s s.blk lv a → u = performStoresTo s lv x 8 → v = leDWord (Memory.chip u.mem x 8) →
      (v ≠ rdS s.blk sb → exec (.mwait sd (.level lv) sa imm sb) s = .next { u with blk :=
        (wrS { u.blk with monitor := none, reply := none } sd v (taintS s.blk sa)).adv 8 })
      ∧ (v = rdS s.blk sb → exec (.mwait sd (.level lv) sa imm sb) s = .next { u with blk := { u.blk with
        monitor := some x, reply := none, wait := some (.monitor x) } }))
  ∧ (∀ s sd h sa (imm : BitVec 18) sb i t d hv f u v, Ready s.blk [sa, sb] [] [sd] [] → t = taintS s.blk sa ||| taintS s.blk sb →
    Settled s.blk t → f = s.blk.reqStamp (s.blk.accessT t) → LiveHandle s.blk h f → d = (s.blk.hCell h).desc → hv = (s.blk.hCell h).v →
    dKind d = kCounter → canRead d s.blk.world = true → ((rdS s.blk sa).toNat : Int) + imm.toInt = (i : Nat) → i < dCount d →
    s.blk.atomicOn hv i = false → s.blk.reply = none → hHome hv = s.pl.pkg.toNat →
    u = ({ s with tm := { s.tm with pclk := maxStamp s.tm.pclk f } } : State) →
    v = BitVec.ofNat 64 (leNat (Memory.chip s.mem (dWord d 7 + 8 * i) 8)) →
      (v ≠ rdS s.blk sb → exec (.mwait sd (.object h) sa imm sb) s = .next { u with blk :=
        (Block.taggedResult { s.blk with monitor := none, reply := none } sd v t u.tm.pclk).adv 8 })
      ∧ (v = rdS s.blk sb → exec (.mwait sd (.object h) sa imm sb) s = .next { u with blk := { s.blk with
        monitor := some (dWord d 7 + 8 * i), reply := none, wait := some (.monitor (dWord d 7 + 8 * i)) } }))
  ∧ (∀ s sd h sa (imm : BitVec 18) sb i t d hv f bs, Ready s.blk [sa, sb] [] [sd] [] → t = taintS s.blk sa ||| taintS s.blk sb →
    Settled s.blk t → f = s.blk.reqStamp (s.blk.accessT t) → LiveHandle s.blk h f → d = (s.blk.hCell h).desc → hv = (s.blk.hCell h).v →
    dKind d = kCounter → canRead d s.blk.world = true → ((rdS s.blk sa).toNat : Int) + imm.toInt = (i : Nat) → i < dCount d →
    s.blk.atomicOn hv i = false → s.blk.reply = some bs → BitVec.ofNat 64 (replyValue bs 0) ≠ rdS s.blk sb →
      exec (.mwait sd (.object h) sa imm sb) s = .next { s with blk := (Block.taggedResult { s.blk with monitor := none, reply := none } sd
        (BitVec.ofNat 64 (replyValue bs 0)) t (replyStamp bs)).adv 8 })
  ∧ (∀ s sd h sa (imm : BitVec 18) sb i n t f v e, Ready s.blk [sa, sb] [] [sd] [] → t = taintS s.blk sa ||| taintS s.blk sb →
    Settled s.blk t → f = s.blk.reqStamp (s.blk.accessT t) → LiveHandle s.blk h f → v = (rdS s.blk sb).toNat →
    i = ((rdS s.blk sa).toNat : Int) + imm.toInt → i < 2 ^ 64 → watchFault s (s.blk.hCell h).v (s.blk.hCell h).desc i = none →
    watchQueueBad s v = .ok false → n < 256 → watchArmed s s.blk.part n = false →
    (∀ m, m < n → watchArmed s s.blk.part m = true) → e = watchNo s.blk.part n →
      ∃ u, exec (.watch sd h sa imm sb) s = .next u ∧ watchArmed u s.blk.part n = true
        ∧ hubWord u 5 e 0 = (s.blk.hCell h).v.toNat ∧ hubWord u 5 e 1 = i.toNat
        ∧ hubWord u 5 e 2 = 2 ^ 63 + bits v 8 8 * 2 ^ 48 + bits v 0 6 * 2 ^ 42 + s.blk.fn.toNat * 2 ^ 36
        ∧ (∀ x k, x < 2 ^ 48 → k < 256 → x ≠ e ∨ 2 < k → hubWord u 5 x k = hubWord s 5 x k)
        ∧ u = { s with tb := { s.tb with hub := u.tb.hub }, blk := (wrS s.blk sd (BitVec.ofNat 64 n) 0).adv 8 })
  ∧ (∀ s sa n e, Ready s.blk [sa] [] [] [] → (rdS s.blk sa).toNat = n → e = watchNo s.blk.part n →
    (n < 256 → watchArmed s s.blk.part n = true → bits (hubWord s 5 e 2) 36 6 = s.blk.fn.toNat →
      ((∀ j ∈ s.dp.jobs, ∀ w v, j.work ≠ .fire e w v) →
        ∃ t, exec (.unwatch sa) s = .next t ∧ watchArmed t s.blk.part n = false
          ∧ (∀ x k, x < 2 ^ 48 → k < 256 → x ≠ e ∨ k ≠ 2 → hubWord t 5 x k = hubWord s 5 x k)
          ∧ t = { s with tb := { s.tb with hub := t.tb.hub }, blk := s.blk.adv 8 })
      ∧ ((∃ j ∈ s.dp.jobs, ∃ w v, j.work = .fire e w v) →
        exec (.unwatch sa) s = .next { s with blk := { s.blk with wait := some .firing } }))
    ∧ (256 ≤ n ∨ watchArmed s s.blk.part n = false ∨ bits (hubWord s 5 e 2) 36 6 ≠ s.blk.fn.toNat →
      exec (.unwatch sa) s = strandTrap cOPERAND (rdS s.blk sa) s))
  ∧ (∀ s h i v, (∀ e, armedWatches s = [e] → tlbHandle (BitVec.ofNat 64 (hubWord s 5 e 0)) = tlbHandle h → hubWord s 5 e 1 = i →
      (∀ j ∈ s.dp.jobs, ∀ w x, j.work ≠ .fire e w x) → ∀ w r slot u, w = (BitVec.ofNat 64 (hubWord s 5 e 2)).toNat →
      r = (registered s (e / 256) (bits w 42 6)).set 2 v.toNat →
      appendRecord s (BitVec.ofNat 6 (bits w 36 6)) (bits w 48 8) r = .ok (slot, u) →
        (slot ≠ none → fireWatches s h i v = u)
        ∧ (slot = none → ∃ p, partOf (fireWatches s h i v) p = { partOf u p with wmiss := (partOf u p).wmiss + 1 }
          ∧ p = BitVec.ofNat 4 (e / 256) ∧ ∃ t, fireWatches s h i v = { u with tm := t }))
    ∧ (Unwatched s h i → fireWatches s h i v = s))

/-! ## Engine commands -/

/-- Dispatch (R25, R128, R153, R201): a command whose checks pass takes the last place in its engine's queue, and the strand goes on; a
full queue stalls the strand. `V`: every command of the vector engine, `vadd` to `vins`; `M`: `mmul`, `mmul.g`, `mmul.s`, `mzero` and
`mxpack`; `F` and `P`: `fetch` to `sreuse`. The non-blocking form writes true to its predicate, or false where the queue is full
(R28). Queueing changes the engine's queue and numbers, the dispatch number and the draws that the command takes (R49, R240), the
predicate of a non-blocking form, and the comparator queue that a `fetch.step` raises (R166); every other register stays. -/
def Obligations.CommandsQueue : Prop :=
  ((∀ s i h, i.hdr? = some h → engineOfCmd i = .V → s.blk.frozen = false → pairFault s.blk .V h = none →
    rowFault s.blk (vNames i) = none → vLimit i = none → ∀ c, c = vCmd s.blk i →
      (Ready s.blk (vScalars i) [h.p] (vDestS i) (vDestP i) →
        (s.blk.eV.q.length < 16 → exec i s = .next { s with blk := (queueCmd s.blk none c (vDraws s.blk i c.off)).adv 8 })
        ∧ (16 ≤ s.blk.eV.q.length → exec i s = .next { s with blk := { s.blk with wait := some .full } }))
      ∧ (∀ p, Ready s.blk (vScalars i) [h.p] (vDestS i) (vDestP i ++ [p]) →
        (s.blk.eV.q.length < 16 →
          exec (.nonblockingDispatch p i) s = .next { s with blk := (queueCmd s.blk (some p) c (vDraws s.blk i c.off)).adv 8 })
        ∧ (16 ≤ s.blk.eV.q.length → exec (.nonblockingDispatch p i) s = .next { s with blk := (wrP s.blk p 0 0).adv 8 })))
  ∧ (∀ s i h, i.hdr? = some h → engineOfCmd i = .M → s.blk.frozen = false → pairFault s.blk .M h = none →
    tileFault s.blk i = none → (s.blk.deadMode = true → deadOthers s.blk (mDescs i) [] [] = none) → ∀ c, c = mCmd s.blk i →
      (Ready s.blk [] [h.p] [] [] →
        (s.blk.eM.q.length < 16 → exec i s = .next { s with blk := (queueCmd s.blk none c (mDraws s.blk i c.off)).adv 8 })
        ∧ (16 ≤ s.blk.eM.q.length → exec i s = .next { s with blk := { s.blk with wait := some .full } }))
      ∧ (∀ p, Ready s.blk [] [h.p] [] [p] →
        (s.blk.eM.q.length < 16 →
          exec (.nonblockingDispatch p i) s = .next { s with blk := (queueCmd s.blk (some p) c (mDraws s.blk i c.off)).adv 8 })
        ∧ (16 ≤ s.blk.eM.q.length → exec (.nonblockingDispatch p i) s = .next { s with blk := (wrP s.blk p 0 0).adv 8 })))
  ∧ (∀ s i h e r, i.hdr? = some h → engineOfCmd i = e → e = .F ∨ e = .P → r = tRegs i → s.blk.frozen = false →
    pairFault s.blk e h = none → tHandleFault s.blk i r = none → tRunFault s.blk r = none → tValueFault s.blk i r = none →
    (s.blk.deadMode = true → deadOthers s.blk (r.dA.toList ++ r.dB.toList) (r.ha.toList ++ r.hb.toList) r.q.toList = none) →
    ∀ c, c = tCmd s.blk i → (tTakesDraws s.blk c = true → qOkShape c.shape = true) →
      (Ready s.blk (tScalars s.blk r) [h.p] [] [] →
        ((s.blk.eng e).q.length < 16 → exec i s = .next { s with blk := (queueCmd s.blk none c (tDraws s c)).adv 8 })
        ∧ (16 ≤ (s.blk.eng e).q.length → exec i s = .next { s with blk := { s.blk with wait := some .full } }))
      ∧ (∀ p, Ready s.blk (tScalars s.blk r) [h.p] [] [p] →
        ((s.blk.eng e).q.length < 16 →
          exec (.nonblockingDispatch p i) s = .next { s with blk := (queueCmd s.blk (some p) c (tDraws s c)).adv 8 })
        ∧ (16 ≤ (s.blk.eng e).q.length → exec (.nonblockingDispatch p i) s = .next { s with blk := (wrP s.blk p 0 0).adv 8 }))))
  ∧ (∀ b nb c n b', b' = queueCmd b nb c n →
    b'.eng c.eng = { b.eng c.eng with q := (b.eng c.eng).q ++ [c], next := (b.eng c.eng).next + 1 }
    ∧ (∀ e, e ≠ c.eng → b'.eng e = b.eng e) ∧ b'.dispN = b.dispN + 1 ∧ b'.lfsr = lfsrDraws n b.lfsr
    ∧ b'.s = b.s ∧ b'.h = b.h ∧ b'.d = b.d ∧ b'.q = b.q ∧ b'.c = b.c ∧ b'.w = b.w ∧ b'.pc = b.pc ∧ b'.fpstat = b.fpstat
    ∧ b'.tok = b.tok ∧ b'.ctl = b.ctl ∧ b'.tags = b.tags ∧ b'.owner = b.owner ∧ b'.guarded = b.guarded
    ∧ (nb = none → b'.p = b.p) ∧ (∀ p, nb = some p → p ≠ 0 → p.toNat < 48 → rdP b' p = BitVec.allOnes 128)
    ∧ ((c.off = true ∨ bindingOf c.instr = none) → b'.g = b.g))

/-- A command at the head of its engine's queue that may not start stands still; one that may starts with its wait token popped
(R26, R30, R204): one that is predicated off without a check (R27), and any other when its checks pass, with what it captures; a fault of
its checks is an engine fault (R121), or, in the cycle of an earlier one, waits behind that one's handler (R124). At its end (R27, R30, R53)
a command that is predicated off pushes its signal token and does nothing else, and a V or M command that completes frees its engine and
leaves every scalar but a `vext`'s alone; an F or P engine goes on with the command started behind it (R26). While the strand has a write under
way at another package or its unused answer, no command of the block completes: the model's choice (log 14). -/
def Obligations.CommandsStartAndEnd : Prop :=
  (∀ s e c rest u, (s.blk.eng e).q = c :: rest → u = ({ s with blk := popWait s.blk c } : State) →
    (((s.blk.eng e).takes e && headReady s.blk c && !stallHolds s c) = false → exec (.engineCommandStart e) s = .next s)
    ∧ ((s.blk.eng e).takes e = true → headReady s.blk c = true → stallHolds s c = false →
      (engineStarts s = true →
        (c.off = true → exec (.engineCommandStart e) s = .next { s with
          blk := u.blk.setEng e (EngineQ.start { s.blk.eng e with q := rest } c.fresh) })
        ∧ (c.off = false → c.skipEnd = false → c.moved = 0 → c.eng = e → engineOfCmd c.instr = e →
          (∀ v, v = putQueue u e (c.fresh :: rest) →
            (e = .V → vStartFault v.blk c.fresh = none → ∃ t, exec (.engineCommandStart e) s = .next t
              ∧ t.blk.eV = { s.blk.eV with q := rest, run := some c.fresh } ∧ OnlyBlock s t
              ∧ t.blk.s = s.blk.s ∧ t.blk.p = s.blk.p ∧ t.blk.w = s.blk.w ∧ t.blk.tok = u.blk.tok ∧ t.blk.pc = s.blk.pc)
            ∧ (e = .V → ∀ x d, vStartFault v.blk c.fresh = some (x, d) →
              exec (.engineCommandStart e) s = .next (engFault c.fresh x d (putQueue v e rest)))
            ∧ (e = .M → mStartFault v c.fresh = none → ∃ t, exec (.engineCommandStart e) s = .next t
              ∧ t.blk.eM = { s.blk.eM with q := rest, run := some (mCapture v c.fresh) } ∧ OnlyBlock s t
              ∧ t.blk.s = s.blk.s ∧ t.blk.p = s.blk.p ∧ t.blk.w = s.blk.w ∧ t.blk.tok = u.blk.tok ∧ t.blk.pc = s.blk.pc)
            ∧ (e = .M → ∀ x d, mStartFault v c.fresh = some (x, d) →
              exec (.engineCommandStart e) s = .next (engFault c.fresh x d (putQueue v e rest)))
            ∧ (e = .F ∨ e = .P → c.dest = [] → (s.blk.eng e).started = [] → ∀ c' v', startT v c.fresh = (.ok c', v') → v'.blk = v.blk →
              ∃ t, exec (.engineCommandStart e) s = .next t ∧ t.blk.eng e = { s.blk.eng e with q := rest, run := some c' }
                ∧ t.mem = v'.mem ∧ t.blk.s = s.blk.s ∧ t.blk.tok = u.blk.tok ∧ t.blk.pc = s.blk.pc))))
      ∧ (engineStarts s = false → sameCycle s.blk c = true → ∀ x d v, startChecks u c.fresh = (.error (.fault x d), v) →
        exec (.engineCommandStart e) s = .next (pendFault c.fresh x d (putQueue v e rest)))))
  ∧ (∀ s c cause detail, s.blk.phase = .running → s.blk.hasExited = false → s.blk.handler = false → s.blk.trapVec ≠ 0 →
    (s.blk.eng c.eng).started = [] → ∀ t, t = engFault c cause detail s →
      t.blk.handler = true ∧ t.blk.frozen = true ∧ t.blk.pc = s.blk.trapVec ∧ t.blk.trapPc = c.addr
      ∧ t.blk.trapCause = BitVec.ofNat 16 (cause + c.eng.agent.code * 2 ^ 8 + c.qno % 16 * 2 ^ 12)
      ∧ t.blk.trapInfo = s.blk.pc ++ BitVec.ofNat 32 detail
      ∧ t.blk.eng c.eng = { s.blk.eng c.eng with
          q := { c with fault := some (cause, BitVec.ofNat 32 detail), popped := true, pend := false, reply := none, checked := 0 }
            :: (s.blk.eng c.eng).q }
      ∧ t.blk.s = s.blk.s ∧ t.blk.p = s.blk.p ∧ t.blk.tok = s.blk.tok ∧ t.mem = s.mem)
  ∧ (∀ s e c, (s.blk.eng e).run = some c → c.off = true → s.blk.abroad = false → c.checked = 0 →
    (c.hdr.sig = none → exec (.engineCommandCompletion e) s = .next { s with
      blk := (Block.setEng s.blk e (s.blk.eng e).advance) })
    ∧ (∀ k, c.hdr.sig = some k → (s.blk.token k).count ≠ 255 →
      ∃ t, exec (.engineCommandCompletion e) s = .next t ∧ OnlyBlock s t ∧ t.blk.eng e = (s.blk.eng e).advance
        ∧ (t.blk.token k).count = (s.blk.token k).count + 1 ∧ (∀ j, j ≠ k → t.blk.token j = s.blk.token j)
        ∧ t.blk.s = s.blk.s ∧ t.blk.p = s.blk.p ∧ t.blk.fpstat = s.blk.fpstat ∧ t.blk.pc = s.blk.pc))
  ∧ (∀ s e c, RunsIn s e c → e = .V ∨ e = .M →
      ∃ t, exec (.engineCommandCompletion e) s = .next t ∧ (t.blk.eng e).run = none ∧ (t.blk.eng e).q = (s.blk.eng e).q
        ∧ t.blk.pc = s.blk.pc ∧ t.blk.d = s.blk.d ∧ t.blk.h = s.blk.h ∧ t = { s with mem := t.mem, blk := t.blk }
        ∧ (∀ r, some r ≠ c.destS → rdS t.blk r = rdS s.blk r) ∧ (∀ p, some p ≠ c.destP → rdP t.blk p = rdP s.blk p))
  ∧ (∀ s e c, (s.blk.eng e).run = some c → e = .F ∨ e = .P → ∃ t, exec (.engineCommandCompletion e) s = .next t)
  ∧ (∀ s e c, (s.blk.eng e).run = some c → s.blk.abroad = true → exec (.engineCommandCompletion e) s = .next s)

/-- The element-wise commands (R127, R129, R135-R138): every lane that is on takes the result of its operation, every other lane keeps
its value, the flags are merged, and no other byte of memory changes but those of sources marked dead. -/
def Obligations.VectorLanes : Prop :=
  ∀ s c o sh, RunsIn s .V c → vaOf? c.instr = some (o, sh) → vDestW c.instr = some o.wd → c.instr.isVsel = false →
    vEffect c s = vLanewise c o s → ∀ w n a b d, w = elemWidth o.t → n = elemLanes o.t →
      a = lanesOf w (rdRow s o.wa) → b = lanesOf w (rdRow s o.wb) → d = lanesOf w (rdRow s o.wd) →
      ∃ t, exec (.engineCommandCompletion .V) s = .next t
        ∧ rdRow t o.wd = bytesOfLanes w ((List.range n).map (fun k =>
            if c.mask.getLsbD k then (laneOp c.instr o.t (RMode.of c.rm).arith (a.getD k 0) (b.getD k 0) (d.getD k 0)).1
            else d.getD k 0))
        ∧ (∀ x, (∀ r ∈ o.wd :: deadMarks c.instr, x < s.blk.rowA r ∨ s.blk.rowA r + 128 ≤ x) →
            Memory.read t.mem x = Memory.read s.mem x)
        ∧ t.blk.fpstat = s.blk.fpstat ||| (vLanewise c o s).1 ∧ t.blk.eV.run = none ∧ t.blk.s = s.blk.s ∧ t.blk.p = s.blk.p

/-- Which commands are element-wise, and the values of their lanes. Integer lanes (R135, R137): wrapping arithmetic, the bitwise
operations, shifts whose count is the whole lane, comparison and saturation with and without a sign, a clamp setting SAT. Floating-point
lanes (R132, R135, R136, R138): on finite operands the exact sum, difference, product or fused sum, rounded once; the greater or the lesser
operand; the magnitude and the negation; and the functions of R138. Reductions (R58, R141): the exact integer sum, saturated once, the
extreme lane, and the halving tree, down to one lane, of the lane's own addition, maximum or minimum, in which lanes that are off enter as -0,
-Inf or +Inf. -/
def Obligations.LaneArithmetic : Prop :=
  (∀ c s h o, c.instr ∈ [.vadd h o, .vsub h o, .vmul h o, .vfma h o, .vmax h o, .vmin h o, .vmaxN h o, .vminN h o, .vabs h o,
      .vneg h o, .vexp2 h o, .vrcp h o, .vrsqrt h o, .vand h o, .vor h o, .vxor h o, .vshl h o, .vshr h o, .vsar h o,
      .vaddSat h o, .vaddSatN h o, .vsubSat h o, .vsubSatN h o, .vmov h o] → vEffect c s = vLanewise c o s)
  ∧ (∀ h o t mode a b d w, elemFmt? t = none → w = elemWidth t → a < 2 ^ w → b < 2 ^ w →
      (laneOp (.vadd h o) t mode a b d).1 = (a + b) % 2 ^ w
      ∧ (laneOp (.vsub h o) t mode a b d).1 = (a + (2 ^ w - b)) % 2 ^ w
      ∧ (laneOp (.vmul h o) t mode a b d).1 = a * b % 2 ^ w
      ∧ (laneOp (.vneg h o) t mode a b d).1 = (2 ^ w - a) % 2 ^ w
      ∧ (laneOp (.vmaxN h o) t mode a b d).1 = max a b ∧ (laneOp (.vminN h o) t mode a b d).1 = min a b
      ∧ (laneOp (.vand h o) t mode a b d).1 = a &&& b ∧ (laneOp (.vor h o) t mode a b d).1 = a ||| b
      ∧ (laneOp (.vxor h o) t mode a b d).1 = a ^^^ b
      ∧ (laneOp (.vshl h o) t mode a b d).1 = (if b < w then a * 2 ^ b % 2 ^ w else 0)
      ∧ (laneOp (.vshr h o) t mode a b d).1 = a / 2 ^ b
      ∧ (laneOp (.vaddSatN h o) t mode a b d) = (min (a + b) (2 ^ w - 1), if 2 ^ w ≤ a + b then fSAT else 0)
      ∧ (laneOp (.vsubSatN h o) t mode a b d) = (a - b, if a < b then fSAT else 0))
  ∧ (∀ h o t mode a b d w x y lo hi, elemFmt? t = none → w = elemWidth t → a < 2 ^ w → b < 2 ^ w → x = (BitVec.ofNat w a).toInt →
      y = (BitVec.ofNat w b).toInt → lo = -(2 : Int) ^ (w - 1) → hi = (2 : Int) ^ (w - 1) - 1 →
      (laneOp (.vmax h o) t mode a b d).1 = (if x < y then b else a) ∧ (laneOp (.vmin h o) t mode a b d).1 = (if y < x then b else a)
      ∧ (laneOp (.vsar h o) t mode a b d).1 = ((BitVec.ofNat w a).sshiftRight b).toNat
      ∧ (laneOp (.vabs h o) t mode a b d).1 = x.natAbs
      ∧ laneOp (.vaddSat h o) t mode a b d = ((BitVec.ofInt w (max lo (min hi (x + y)))).toNat, if x + y < lo ∨ hi < x + y then fSAT else 0)
      ∧ laneOp (.vsubSat h o) t mode a b d = ((BitVec.ofInt w (max lo (min hi (x - y)))).toNat, if x - y < lo ∨ hi < x - y then fSAT else 0))
  ∧ (∀ h o t mode a b d, laneOp (.vmov h o) t mode a b d = (a, 0))
  ∧ (∀ h o t f mode a b d x y z, elemFmt? t = some f → x = f.decode a → y = f.decode b → z = f.decode d →
      (IsFin x → IsFin y →
        (∃ v, IsFin v ∧ ratOf v = ratOf x + ratOf y ∧ laneOp (.vadd h o) t mode a b d = roundTo f mode 0 v)
        ∧ (∃ v, IsFin v ∧ ratOf v = ratOf x - ratOf y ∧ laneOp (.vsub h o) t mode a b d = roundTo f mode 0 v)
        ∧ (∃ v, IsFin v ∧ ratOf v = ratOf x * ratOf y ∧ laneOp (.vmul h o) t mode a b d = roundTo f mode 0 v)
        ∧ (IsFin z → ∃ v, IsFin v ∧ ratOf v = ratOf x * ratOf y + ratOf z ∧ laneOp (.vfma h o) t mode a b d = roundTo f mode 0 v)
        ∧ (∃ v, IsFin v ∧ ratOf v = max (ratOf x) (ratOf y) ∧ laneOp (.vmax h o) t mode a b d = roundTo f mode 0 v)
        ∧ (∃ v, IsFin v ∧ ratOf v = min (ratOf x) (ratOf y) ∧ laneOp (.vmin h o) t mode a b d = roundTo f mode 0 v)
        ∧ (∃ v, IsFin v ∧ ratOf v = (ratOf x).abs ∧ laneOp (.vabs h o) t mode a b d = roundTo f mode 0 v)
        ∧ (∃ v, IsFin v ∧ ratOf v = -ratOf x ∧ laneOp (.vneg h o) t mode a b d = roundTo f mode 0 v))
      ∧ (x.isNan = true ∨ y.isNan = true → (laneOp (.vadd h o) t mode a b d).1 = f.canonNaN ∧ (laneOp (.vmul h o) t mode a b d).1 = f.canonNaN
        ∧ (laneOp (.vmax h o) t mode a b d).1 = f.canonNaN ∧ (laneOp (.vmin h o) t mode a b d).1 = f.canonNaN
        ∧ ((laneOp (.vadd h o) t mode a b d).2 = if x.snan || y.snan then fINVALID else 0))
      ∧ laneOp (.vexp2 h o) t mode a b d = vExp2 x ∧ laneOp (.vrcp h o) t mode a b d = vRcp mode x
      ∧ laneOp (.vrsqrt h o) t mode a b d = vRsqrt mode x)
  ∧ (∀ i t mode (xs : List (Nat × Bool)) ys w, elemFmt? t = none → w = elemWidth t → ys = (xs.filter (·.2)).map (·.1) →
      (∀ y ∈ ys, y < 2 ^ w) → ys ≠ [] → ∀ h o, 
      (i = .vredAddN h o → reduce i t mode xs = (min ys.sum (2 ^ w - 1), if 2 ^ w ≤ ys.sum then fSAT else 0))
      ∧ (i = .vredAdd h o → reduce i t mode xs = sat true w (ys.map (intVal true w)).sum)
      ∧ (i = .vredMaxN h o → (reduce i t mode xs).1 ∈ ys ∧ ∀ y ∈ ys, y ≤ (reduce i t mode xs).1)
      ∧ (i = .vredMinN h o → (reduce i t mode xs).1 ∈ ys ∧ ∀ y ∈ ys, (reduce i t mode xs).1 ≤ y)
      ∧ (i = .vredMax h o → (reduce i t mode xs).1 ∈ ys ∧ ∀ y ∈ ys, intVal true w y ≤ intVal true w (reduce i t mode xs).1)
      ∧ (i = .vredMin h o → (reduce i t mode xs).1 ∈ ys ∧ ∀ y ∈ ys, intVal true w (reduce i t mode xs).1 ≤ intVal true w y))
  ∧ (∀ i t f mode (xs : List (Nat × Bool)), elemFmt? t = some f → reduce i t mode xs =
      treeFold (redStep i f mode) (Nat.log2 xs.length) (xs.map (fun x => if x.2 then x.1 else redIdentity i f)))
  ∧ (∀ op x, treeFold op 0 [x] = (x, 0))
  ∧ (∀ op k xs ys, xs.length = 2 ^ k → ys.length = 2 ^ k →
      (treeFold op (k + 1) (xs ++ ys)).1 = (treeFold op k ((List.zipWith op xs ys).map (·.1))).1
      ∧ (treeFold op (k + 1) (xs ++ ys)).2
        = (List.zipWith op xs ys).foldl (fun f r => f ||| r.2) 0 ||| (treeFold op k ((List.zipWith op xs ys).map (·.1))).2)
  ∧ (∀ h o t f mode a b d, elemFmt? t = some f → redStep (.vredAdd h o) f mode a b = laneOp (.vadd h o) t mode a b d
      ∧ redStep (.vredMax h o) f mode a b = laneOp (.vmax h o) t mode a b d ∧ redStep (.vredMin h o) f mode a b = laneOp (.vmin h o) t mode a b d)
  ∧ (∀ h o, redIdentity (.vredAdd h o) fp32 = 0x80000000 ∧ redIdentity (.vredMax h o) fp32 = 0xFF800000
      ∧ redIdentity (.vredMin h o) fp32 = 0x7F800000 ∧ redIdentity (.vredAdd h o) fp16 = 0x8000 ∧ redIdentity (.vredMax h o) fp16 = 0xFC00
      ∧ redIdentity (.vredMin h o) fp16 = 0x7C00 ∧ redIdentity (.vredAdd h o) bf16 = 0x8000 ∧ redIdentity (.vredMax h o) bf16 = 0xFF80
      ∧ redIdentity (.vredMin h o) bf16 = 0x7F80)

/-- What the other V commands write, at their completion: `vld` and `vst` move the bytes of the lanes that are on (R149), `vsel` selects by
the mask (R140), `vcmp` writes the bits of its lanes and clears those above them (R139), `vred` writes its reduction to every lane (R141),
`vbcast` its scalar's low bits and `vins` one lane (R142, R144), `vcvt` the conversions of its elements (R145), `vxset` and `vperm` go through
the crossbar word (R146, R147), `vtopk` ranks its lanes (R148), and `vext` writes a lane to its scalar (R143). The other lanes, rows and
scalars keep their values, but for sources marked dead (R95, R131). The result of a V command takes the union of the taint sets of what it read,
with the former set where a byte keeps its value, and its register is live; a source that it marks is dead with an empty set, unless it is the
destination, and every other vector register's set and mark stay (R130, R131). -/
def Obligations.VectorMoves : Prop :=
  (∀ s c h off sa wd, RunsIn s .V c → c.instr = .vld h off sa wd →
    ∃ t, exec (.engineCommandCompletion .V) s = .next t
      ∧ rdRow t wd = (List.range 128).map (fun k => if c.mask.getLsbD k then (Memory.read s.mem (s.blk.spA (c.vAddr + k))).getD 0
          else (rdRow s wd).getD k 0)
      ∧ (∀ x, x < s.blk.rowA wd ∨ s.blk.rowA wd + 128 ≤ x → Memory.read t.mem x = Memory.read s.mem x) ∧ t.blk.s = s.blk.s)
  ∧ (∀ s c h dead off sa ws, RunsIn s .V c → c.instr = .vst h dead off sa ws → c.vAddr + 127 < 2 ^ 18 →
    ∃ t, exec (.engineCommandCompletion .V) s = .next t
      ∧ (∀ k, k < 128 → Memory.read t.mem (s.blk.spA (c.vAddr + k)) =
          if c.mask.getLsbD k then some ((rdRow s ws).getD k 0) else Memory.read s.mem (s.blk.spA (c.vAddr + k)))
      ∧ (∀ x, (∀ k, k < 128 → x ≠ s.blk.spA (c.vAddr + k)) → (dead = true → x < s.blk.rowA ws ∨ s.blk.rowA ws + 128 ≤ x) →
          Memory.read t.mem x = Memory.read s.mem x) ∧ t.blk.s = s.blk.s)
  ∧ (∀ s c h o w (pd : PReg), RunsIn s .V c →
    c.instr ∈ [.vcmpEq h o, .vcmpNe h o, .vcmpLt h o, .vcmpGe h o, .vcmpLtN h o, .vcmpGeN h o] → w = elemWidth o.t →
    pd = o.wd.setWidth 6 → pd ≠ 0 → pd.toNat < 48 →
    ∃ t, exec (.engineCommandCompletion .V) s = .next t ∧ ∀ k, (rdP t.blk pd).getLsbD k =
      if k < elemLanes o.t then
        (if c.mask.getLsbD k then
          (laneCmp c.instr o.t ((lanesOf w (rdRow s o.wa)).getD k 0) ((lanesOf w (rdRow s o.wb)).getD k 0)).1
         else (rdP s.blk pd).getLsbD k)
      else false)
  ∧ (∀ s c h dead t lane wa sd, RunsIn s .V c → c.instr = .vext h dead t lane wa sd → sd ≠ 0 →
    c.mask.getLsbD lane.toNat = true → ∀ v, v = (lanesOf (elemWidth t) (rdRow s wa)).getD lane.toNat 0 →
    ∃ u, exec (.engineCommandCompletion .V) s = .next u
      ∧ rdS u.blk sd = (if (elemFmt? t).isSome then BitVec.ofNat 64 v else BitVec.ofInt 64 (intVal true (elemWidth t) v))
      ∧ ∀ r, r ≠ sd → rdS u.blk r = rdS s.blk r)
  ∧ (∀ s c h dead wa x, RunsIn s .V c → c.instr = .vxset h dead wa x →
    ∃ t, exec (.engineCommandCompletion .V) s = .next t
      ∧ rowBytes (t.blk.cCell x).v = (List.range 128).map (fun k =>
          if c.mask.getLsbD k then (rdRow s wa).getD k 0 else (rowBytes (s.blk.cCell x).v).getD k 0)
      ∧ (∀ y, y ≠ x → t.blk.cCell y = s.blk.cCell y) ∧ t.blk.s = s.blk.s ∧ t.blk.p = s.blk.p)
  ∧ (∀ s c (bs : List Byte) (wd : WReg), RunsIn s .V c →
    ((∃ h o w, c.instr = .vsel h o ∧ wd = o.wd ∧ w = elemWidth o.t ∧ bs = bytesOfLanes w ((List.range (elemLanes o.t)).map (fun k =>
        if c.mask.getLsbD k then (lanesOf w (rdRow s o.wa)).getD k 0 else (lanesOf w (rdRow s o.wb)).getD k 0)))
    ∨ (∃ h o w, c.instr ∈ [.vredAdd h o, .vredAddN h o, .vredMax h o, .vredMin h o, .vredMaxN h o, .vredMinN h o] ∧ wd = o.wd
        ∧ w = elemWidth o.t ∧ bs = bytesOfLanes w (List.replicate (elemLanes o.t) (reduce c.instr o.t (RMode.of c.rm).arith
            ((List.range (elemLanes o.t)).map (fun k => ((lanesOf w (rdRow s o.wa)).getD k 0, c.mask.getLsbD k)))).1))
    ∨ (∃ h t sa w, c.instr = .vbcast h t sa wd ∧ w = elemWidth t ∧ bs = bytesOfLanes w ((List.range (elemLanes t)).map (fun k =>
        if c.mask.getLsbD k then c.sx.toNat % 2 ^ w else (lanesOf w (rdRow s wd)).getD k 0)))
    ∨ (∃ h t lane sa w, c.instr = .vins h t lane sa wd ∧ w = elemWidth t ∧ bs = bytesOfLanes w ((List.range (elemLanes t)).map (fun k =>
        if k = lane.toNat ∧ c.mask.getLsbD k = true then c.sx.toNat % 2 ^ w else (lanesOf w (rdRow s wd)).getD k 0)))
    ∨ (∃ h dead t x wa e, c.instr = .vperm h dead t x wa wd ∧ e = elemWidth t / 8 ∧ bs = (List.range 128).map (fun k =>
        if c.mask.getLsbD (k / e) then
          (let m := ((rowBytes (s.blk.cCell x).v).getD k 0).toNat
           if 128 ≤ m then 0 else (rdRow s wa).getD m 0)
        else (rdRow s wd).getD k 0))
    ∨ (∃ h dead t n wa w l, c.instr = .vtopk h dead t n wa wd ∧ w = elemWidth t
        ∧ l = ranked t (((List.range (elemLanes t)).filter (fun j => c.mask.getLsbD j)).map (fun j => (j, (lanesOf w (rdRow s wa)).getD j 0)))
        ∧ bs = bytesOfLanes w ((List.range (elemLanes t)).map (fun j => ((l.take n.toNat).map (·.1)).getD j (2 ^ w - 1))))
    ∨ (∃ h dead part sf df wa ws wt, c.instr = .vcvt h dead part sf df wa wd ∧ ws = codeWidth sf.toNat ∧ wt = codeWidth df.toNat
        ∧ 8 ≤ ws ∧ ws ≤ 32 ∧ 8 ≤ wt ∧ wt ≤ 32 ∧ (wt < ws → (part.toNat + 1) * vcvtCount sf df ≤ 1024 / wt)
        ∧ bs = bytesOfLanes wt ((List.range (1024 / wt)).map (fun k =>
            let e := if wt < ws then k - part.toNat * vcvtCount sf df else k
            if (if wt < ws then part.toNat * vcvtCount sf df ≤ k else True) ∧ e < vcvtCount sf df ∧ c.mask.getLsbD e = true then
              (vConv sf df (RMode.of c.rm) (lfsrDraws (e + 1) c.draw).toNat
                ((lanesOf ws (rdRow s wa)).getD (if ws < wt then part.toNat * vcvtCount sf df + e else e) 0)).1
            else (lanesOf wt (rdRow s wd)).getD k 0)))) →
    ∃ u, exec (.engineCommandCompletion .V) s = .next u ∧ rdRow u wd = bs
      ∧ (∀ x, (∀ r ∈ wd :: deadMarks c.instr, x < s.blk.rowA r ∨ s.blk.rowA r + 128 ≤ x) → Memory.read u.mem x = Memory.read s.mem x)
      ∧ u.blk.s = s.blk.s ∧ u.blk.p = s.blk.p ∧ u.blk.c = s.blk.c)
  ∧ (∀ s c, RunsIn s .V c → ∃ t, exec (.engineCommandCompletion .V) s = .next t
    ∧ (∀ w, vDestW c.instr = some w → (∀ h e l r, c.instr = .vins h e l r w → c.mask.getLsbD l.toNat = true) →
        t.blk.wCell w = ⟨readTaint s.blk c ||| (if keepsOld c = true then (s.blk.wCell w).t else 0), false⟩)
    ∧ (∀ w ∈ deadMarks c.instr, vDestW c.instr ≠ some w → t.blk.wCell w = ⟨0, true⟩)
    ∧ (∀ w, vDestW c.instr ≠ some w → w ∉ deadMarks c.instr → t.blk.wCell w = s.blk.wCell w)
    ∧ (∀ p, c.destP = some p → p ≠ 0 → p.toNat < 48 →
        taintP t.blk p = readTaint s.blk c ||| (if keepsOld c = true then taintP s.blk p else 0))
    ∧ (∀ h d e l w r, c.instr = .vext h d e l w r → r ≠ 0 → c.mask.getLsbD l.toNat = true → taintS t.blk r = readTaint s.blk c)
    ∧ (∀ h d w x, c.instr = .vxset h d w x →
        (t.blk.cCell x).t = readTaint s.blk c ||| (if keepsOld c = true then (s.blk.cCell x).t else 0)))
  ∧ (∀ t (xs : List (Nat × Nat)), (ranked t xs).Perm xs
    ∧ (ranked t xs).Pairwise (fun a b => ranksBefore t b.2 a.2 = false))

/-- The matrix engine (R54-R56, R152, R158-R164). `mzero` clears the 4,096 bytes of its bank (R162). A product adds to each element of its
bank's tile, block by block in increasing K: for floating-point formats the exact sum of a block's products is rounded to FP32 and added
with one rounding to the tile's format (R54, R55); for INT8 each block's exact sum is added with saturation (R56). A's rows are the tile's,
for `mmul.g` those that the index row names, or zeros (R159), and for `mmul.s` each compressed group expanded (R160). `mxpack` writes the
codes and scale bytes of its bank's rows (R163), and zeros in the row's bits behind them, by the model's reading (log 21). A command that writes a
bank gives it the union of its former taint set and the command's own, in which `mmul.g` has its index row's; that row, where it is marked, is
dead behind it (R91, R95, R159). `lend` moves a bank that no command names to the other side, once (R164). -/
def Obligations.TilesAndBanks : Prop :=
  (∀ s c h td, RunsIn s .M c → c.instr = .mzero h td →
    ∃ t, exec (.engineCommandCompletion .M) s = .next t ∧ rdBank t td = List.replicate 4096 0 ∧ t.blk.s = s.blk.s
      ∧ (∀ w : WReg, bankOf w ≠ td.toNat → rdRow t w = rdRow s w))
  ∧ (∀ s c o cls k n w g step, RunsIn s .M c → matOf? c.instr = some o → mClass (tFmt c.dA) = some cls →
    (∀ r ∈ deadMarks c.instr, bankOf r ≠ o.td.toNat) → k = mK cls o.kq → n = mN o.af → w = 1024 / n →
    g = (if cls = .h then 16 else 32) → step = (if cls = .i8 then accInt else accFloat (if o.af then fp16 else fp32)) →
    ∃ t, exec (.engineCommandCompletion .M) s = .next t
      ∧ (∀ i j, i < 32 → j < n → (lanesOf w (((rdBank t o.td).drop (128 * i)).take 128)).getD j 0 =
          (accumulate step ((lanesOf w (((rdBank s o.td).drop (128 * i)).take 128)).getD j 0)
            (blocksOf g (k / g) ((rowOfA s c k i).map (·.1))) (blocksOf g (k / g) ((rowVals s c.dB j k).map (·.1)))).1)
      ∧ (∀ r : WReg, bankOf r ≠ o.td.toNat → r ∉ deadMarks c.instr → rdRow t r = rdRow s r)
      ∧ t.blk.fpstat = s.blk.fpstat ||| (productTile s c o cls).2 ∧ t.blk.s = s.blk.s ∧ t.blk.p = s.blk.p)
  ∧ (∀ step x a b as bs, accumulate step x [] [] = (x, 0)
    ∧ (accumulate step x (a :: as) (b :: bs)).1 = (accumulate step (step x (blockSum a b)).1 as bs).1)
  ∧ (∀ as bs, as.length = bs.length → (∀ v ∈ as ++ bs, IsFin v) → ∃ v, blockSum as bs = (v, 0) ∧ IsFin v
    ∧ ratOf v = (List.zipWith (fun x y => ratOf x * ratOf y) as bs).sum)
  ∧ (∀ x v, accInt x v = sat true 32 (intVal true 32 x + v.1.toInt))
  ∧ (∀ f x v, (accFloat f x v).1 = (roundTo f .rne 0 (vAdd .rne (f.decode x) (fp32.decode (roundTo fp32 .rne 0 v.1).1)).1).1)
  ∧ (∀ s c k i, (∀ h o, c.instr = .mmul h o → rowOfA s c k i = rowVals s c.dA i k)
    ∧ (∀ h o d w, c.instr = .mmulG h o d w → rowOfA s c k i =
        if bitAt (c.dest.getD i 0) 31 then List.replicate k (.fin false 0 0, 0) else rowVals s c.dA (c.dest.getD i 0) k)
    ∧ (∀ h o d q r x, c.instr = .mmulS h o d → q < k / 4 → r < 4 → x = rowVals s c.dA i (k / 2) →
        (rowOfA s c k i).getD (4 * q + r) zeroVal =
          if r = (groupPos s c.dX i q).1 then x.getD (2 * q) zeroVal
          else if r = (groupPos s c.dX i q).2 then x.getD (2 * q + 1) zeroVal else zeroVal))
  ∧ (∀ s d k n fm e, fmtOf (tFmt d) = some fm → e < n → (rowVals s d k n)[e]? = some (fm.value
      (if fm.isMx then ((Memory.read s.mem (s.blk.spA (tSbase d + k * tSpitch d + e / 32))).getD 0).toNat else 0) ((rowCodes s d k n).getD e 0)))
  ∧ (∀ s c h af i32 dd td fm n ls bank (blks : Nat → List (Nat × List Nat × Flags)), RunsIn s .M c → c.instr = .mxpack h af i32 dd td → fmtOf (tFmt c.dA) = some fm → n = mN af →
    ls = (if RMode.of c.rm = .sr then drawList (32 * n) c.draw else []) → bank = rdBank s td →
    (∀ i, blks i = (List.range (n / 32)).map (fun b => packBlock fm (RMode.of c.rm)
      (((packSource af i32 ((bank.drop (128 * i)).take 128)).drop (32 * b)).take 32) ((ls.drop (i * n + 32 * b)).take 32))) →
    ∃ t, exec (.engineCommandCompletion .M) s = .next t ∧ t.blk.s = s.blk.s ∧ t.blk.p = s.blk.p
      ∧ t.mem = (List.range 32).foldl (fun m (i : Nat) => Memory.writeAll
          (Memory.writeAll m (s.blk.spA (tBase c.dA + i * tPitch c.dA))
            (leBytes (tRowb c.dA + 1) (packElems (codeWidth (tFmt c.dA)) ((blks i).flatMap (fun x => x.2.1)))))
          (s.blk.spA (tSbase c.dA + i * tSpitch c.dA)) ((blks i).map (fun x => BitVec.ofNat 8 x.1))) s.mem
      ∧ t.blk.fpstat = s.blk.fpstat ||| (List.range 32).foldl (fun f i => (blks i).foldl (fun f x => f ||| x.2.2) f) 0)
  ∧ (∀ s c td, RunsIn s .M c → (∃ h, c.instr = .mzero h td) ∨ (∃ o, matOf? c.instr = some o ∧ o.td = td ∧ (mClass (tFmt c.dA)).isSome = true) →
    ∃ t, exec (.engineCommandCompletion .M) s = .next t
      ∧ t.blk.bankT td.toNat = s.blk.bankT td.toNat ||| c.wtaint ||| (if (matOf? c.instr).isSome = true then c.taint else 0)
      ∧ (∀ k, k ≠ td.toNat → t.blk.bankT k = s.blk.bankT k)
      ∧ (∀ w ∈ deadMarks c.instr, t.blk.wCell w = ⟨0, true⟩) ∧ (∀ w, w ∉ deadMarks c.instr → t.blk.wCell w = s.blk.wCell w))
  ∧ (∀ s c h o d w, c.instr = .mmulG h o d w → mCapture s c = { c with dest := gatherIndices s w, taint := (s.blk.wCell w).t })
  ∧ (∀ s t vec, ownsBank s.blk t.toNat = true → (∀ c ∈ s.blk.cmds, c.namesBank t.toNat = false) →
    exec (.lend t vec) s = .next { s with blk :=
      (if vectorSide s.blk t.toNat = vec then s.blk else s.blk.moveBank t vec).adv 8 })
  ∧ (∀ s t vec, ownsBank s.blk t.toNat = false → exec (.lend t vec) s = badOperand t.toNat s)

/-- The bytes that F and P commands move, and their frame (R166, R167, R170, R202, R205-R211), where the elements stand in one 64-byte line of
each object: `fetch`, `fetch.ix` and `sreuse` give the tile's elements those of the object, `fetch.step` also its result to the comparator
queue; `put`, `pool.fill` and `pool.copy` write the tile's, the scalar's or the second object's elements; `put.add` and `pool.red` combine
them with what stands there; `pool.cmp` stores the first position that differs, or all ones; `relay` and `xcopy` copy their tile's rows, and
`xcopy` its landing word, which becomes full. What lands in a tile is converted (R203), a clipped position is an exact zero, and a transfer of
several lines goes on line by line, from where a park or a request left it (R188, R282, R283). The model's choices here: all bytes of a line,
and with no stop of a command, move in one event (log 6), `fetch.step` reads IN at its home (log 42), and `xcopy` takes every source row from
the state before it writes (log 71). -/
def Obligations.Transfers : Prop :=
  (∀ s e c ds s₁ j n h who sh fs vs st s₂ pl, RunsT s e c → s.blk.nsq ≤ 64 →
    (∃ x o, c.instr = .fetch x o) ∨ (∃ x dl si q d ha, c.instr = .fetchIx x dl si q d ha) ∨ (∃ x g si d, c.instr = .sreuse x g si d) →
    resolveUses s c 0 c.objUses = (.ok ds, s₁) → tFault s₁ c ds none = none → j = jobOf c ds → h = (c.objUses.map (·.h)).headD 0 →
    n = rowLength c (objAt ds 0) → j.pos.length = n * (tRows c.dA + 1) → OneLine j.keys j.pos.length →
    dFmt (objAt ds 0) = tFmt c.dA → mxCode (tFmt c.dA) = false → who = s.blk.who e.agent.code →
    (sh, fs) = groupFields (objAt ds 0) j.pos (List.range j.pos.length) →
    objReadFrom false s₁ who h (objAt ds 0) c.req sh fs = (.ok vs st, s₂) → pl = tilePlace c →
      ∃ t, exec (.engineCommandCompletion e) s = .next t ∧ MovedOnly s e t
        ∧ (∀ p, p < j.pos.length → (tileElem t pl.1 pl.2 c.dA (p / n) (p % n)).1 = vs.getD p 0)
        ∧ (∀ x, (∀ k, k ≤ tRows c.dA → x < rowAddr s pl.1 pl.2 c.dA k ∨ rowAddr s pl.1 pl.2 c.dA k + tRowb c.dA + 1 ≤ x) →
            Memory.read t.mem x = Memory.read s.mem x))
  ∧ (∀ s c hd sj g si q d ha ds s₁ j n who sh fs vs st (s₂ : State) sh' fs' ws st' (s₃ : State) fm, RunsT s .F c → s.blk.nsq ≤ 64 →
    c.instr = .fetchStep hd sj g si q d ha → c.dest = [] → resolveUses s c 0 c.objUses = (.ok ds, s₁) → tFault s₁ c ds none = none →
    j = jobOf c ds → n = qExt c.shape 0 → j.pos.length = n * (tRows c.dA + 1) → OneLine j.keys j.pos.length →
    OneLine (j.keys2.drop j.pos.length) j.pos.length → dFmt (objAt ds 0) = tFmt c.dA → dFmt (objAt ds 1) = tFmt c.dA →
    fmtOf (tFmt c.dA) = some fm → fm.isMx = false → who = s.blk.who 1 →
    (sh, fs) = groupFields (objAt ds 0) j.pos (List.range j.pos.length) →
    objReadFrom false s₁ who c.ha (objAt ds 0) c.req sh fs = (.ok vs st, s₂) →
    (sh', fs') = groupFields (objAt ds 1) j.pos2 ((List.range j.pos.length).map (· + j.pos.length)) →
    (∀ m, (∀ a, isDram a = true → Memory.read m a = Memory.read s.mem a) →
      objReadFrom true { s₂ with mem := m } who c.g.inH (objAt ds 1) c.req sh' fs' = (.ok ws st', { s₃ with mem := m })) →
      ∃ t, exec (.engineCommandCompletion .F) s = .next t
        ∧ (∀ p, p < j.pos.length → (tileElem t .sp 0 c.dA (p / n) (p % n)).1 = vs.getD p 0)
        ∧ (t.blk.gCell g).queue = (s.blk.gCell g).queue.map (fun r => if r.cmd == c.n && !r.done then
            ⟨c.n, true, c.sx.toNat, skipCond fm c.g.theta n (tRows c.dA + 1) vs ws, c.wtaint,
              vs.flatMap (leBytes (dWidth (objAt ds 1) / 8))⟩ else r)
        ∧ (∀ y, y ≠ g → t.blk.gCell y = s.blk.gCell y) ∧ t.blk.s = s.blk.s ∧ t.blk.p = s.blk.p ∧ t.blk.eF.run = none)
  ∧ (∀ s c ds s₁ (j : Job) who sh fs vals lines st s₂, RunsT s .P c → c.dest = [] → resolveUses s c 0 c.objUses = (.ok ds, s₁) → j = jobOf c ds →
    OneLine j.keys j.pos.length → dIsMx (objAt ds 0) = false → who = s.blk.who 4 →
    (sh, fs) = groupFields (objAt ds 0) j.pos (List.range j.pos.length) → lines = (j.whole.filter (fun l => l.1 == sh)).map (·.2) →
    (∀ (p : Nat) xs, j.pos[p]? = some (some xs) → Unwatched s₂ c.ha (linearOf (dExts (objAt ds 0)) xs)) →
      ((∃ x o r, c.instr = .put x o ∧ r = max 1 (qExt c.shape 0) ∧ tFmt c.dA = dFmt (objAt ds 0)
          ∧ vals = (List.range j.pos.length).map (fun p => (tileElem s₁ o.lv c.sx.toNat c.dA (p / r) (p % r)).1))
        ∨ (∃ x sx si q ha, c.instr = .poolFill x sx si q ha
          ∧ vals = List.replicate j.pos.length (bits c.sx.toNat 0 (dWidth (objAt ds 0))))) →
      objWrite s₁ who c.ha (objAt ds 0) c.req sh fs vals lines = (.ok () st, s₂) →
      ∃ t, exec (.engineCommandCompletion .P) s = .next t ∧ MovedOnly s .P t ∧ t.mem = s₂.mem ∧ t.blk.w = s.blk.w)
  ∧ (∀ s c ds s₁ j who r xs fl st s₂ x o, RunsT s .P c → c.dest = [] → c.instr = .putAdd x o → resolveUses s c 0 c.objUses = (.ok ds, s₁) →
    j = jobOf c ds → OneLine j.keys j.pos.length → dIsMx (objAt ds 0) = false → who = s.blk.who 4 → r = max 1 (qExt c.shape 0) →
    xs = (List.range j.pos.length).map (fun p => (linearOf (dExts (objAt ds 0)) (((j.pos[p]?).join).getD []),
      (tileElem s₁ o.lv c.sx.toNat c.dA (p / r) (p % r)).1)) →
    combineBy (homeAccess who c.ha (objAt ds 0) c.req) s₁ c.ha (objAt ds 0) .add (tFmt c.dA) (RMode.of c.rm) true xs = (.ok fl st, s₂) →
      ∃ t, exec (.engineCommandCompletion .P) s = .next t ∧ t.mem = s₂.mem ∧ t.blk.fpstat = s.blk.fpstat ||| fl ∧ t.blk.eP.run = none
        ∧ t.blk.s = s.blk.s ∧ t.blk.p = s.blk.p)
  ∧ (∀ s c ds s₁ j who sh fs sh' fs' vs st s₂ lines st' s₃, RunsT s .P c → c.dest = [] → resolveUses s c 0 c.objUses = (.ok ds, s₁) →
    j = jobOf c ds → OneLine j.keys j.pos.length → OneLine j.keys2 j.pos.length → dFmt (objAt ds 0) = dFmt (objAt ds 1) →
    dIsMx (objAt ds 0) = false → who = s.blk.who 4 →
    (sh, fs) = groupFields (objAt ds 0) j.pos (List.range j.pos.length) →
    (sh', fs') = groupFields (objAt ds 1) j.pos2 (List.range j.pos.length) →
    objReadFrom false s₁ who c.hb (objAt ds 1) c.req sh' fs' = (.ok vs st, s₂) → lines = (j.whole.filter (fun l => l.1 == sh)).map (·.2) →
      ((∃ x sx hs si q ha, c.instr = .poolCopy x sx hs si q ha) → objWrite s₂ who c.ha (objAt ds 0) c.req sh fs vs lines = (.ok () st', s₃) →
        ∃ t, exec (.engineCommandCompletion .P) s = .next t ∧ MovedOnly s .P t ∧ t.mem = s₃.mem)
      ∧ (∀ x op sx hs si q ha fl xs, c.instr = .poolRed x op sx hs si q ha →
        xs = (List.range j.pos.length).map (fun p => (linearOf (dExts (objAt ds 0)) (((j.pos[p]?).join).getD []), vs.getD p 0)) →
        combineBy (homeAccess who c.ha (objAt ds 0) c.req) s₂ c.ha (objAt ds 0) op (dFmt (objAt ds 1)) (RMode.of c.rm) false xs
          = (.ok fl st', s₃) →
        ∃ t, exec (.engineCommandCompletion .P) s = .next t ∧ MovedOnly s .P t ∧ t.mem = s₃.mem ∧ t.blk.fpstat = s.blk.fpstat ||| fl))
  ∧ (∀ s c ds s₁ j who sh fs sh' fs' vs st s₂ ws st' s₃ x sx h2 si q d ha v, RunsT s .P c → c.dest = [] →
    c.instr = .poolCmp x sx h2 si q d ha → resolveUses s c 0 c.objUses = (.ok ds, s₁) → j = jobOf c ds →
    OneLine j.keys j.pos.length → OneLine j.keys2 j.pos.length → dIsMx (objAt ds 0) = false → dIsMx (objAt ds 1) = false → who = s.blk.who 4 →
    (sh, fs) = groupFields (objAt ds 0) j.pos (List.range j.pos.length) →
    (sh', fs') = groupFields (objAt ds 1) j.pos2 (List.range j.pos.length) →
    objReadFrom false s₁ who c.ha (objAt ds 0) c.req sh fs = (.ok vs st, s₂) →
    objReadFrom false s₂ who c.hb (objAt ds 1) c.req sh' fs' = (.ok ws st', s₃) →
    v = ((List.range j.pos.length).find? (fun p => vs.getD p 0 != ws.getD p 0)).getD (2 ^ 64 - 1) →
      ∃ t, exec (.engineCommandCompletion .P) s = .next t ∧ MovedOnly s .P t
        ∧ t.mem = Memory.writeAll s.mem (s.blk.spA (tBase c.dA)) (leBytes 8 v))
  ∧ (∀ s c h lvs sx dd lvd si d (src : Nat → List Byte), RunsT s .F c → c.instr = .relay h lvs sx dd lvd si d →
    (∀ k, src k = Memory.chip s.mem (rowAddr s lvs (c.si.getD 0 0).toNat c.dA k) (tRowb c.dA + 1)) →
      ∃ t, exec (.engineCommandCompletion .F) s = .next t ∧ MovedOnly s .F t
        ∧ t.mem = (List.range (tRows c.dA + 1)).foldl (fun m k => Memory.writeAll m (rowAddr s lvd c.sx.toNat c.dB k) (src k)) s.mem)
  ∧ (∀ s c h sx dd si d (src : Nat → List Byte) a, RunsT s .P c → c.instr = .xcopy h sx dd si d → a = receiverAddr s c (landing c) → feOldest s a = none →
    (∀ w ∈ s.feWait, w.addr / 8 ≠ a / 8) →
    (∀ k, src k = Memory.chip s.mem (rowAddr s .sp 0 c.dA k) (tRowb c.dA + 1)) →
      ∃ t, exec (.engineCommandCompletion .P) s = .next t ∧ isFull t a = true ∧ (∀ x, x / 8 ≠ a / 8 → isFull t x = isFull s x)
        ∧ t.mem = Memory.writeAll ((List.range (tRows c.dA + 1)).foldl (fun m k =>
            Memory.writeAll m (receiverAddr s c (tBase c.dB + k * tPitch c.dB)) (src k)) s.mem) a (leBytes 8 (c.si.getD 0 0).toNat)
        ∧ t.blk.s = s.blk.s ∧ t.blk.p = s.blk.p ∧ t.blk.eP.run = none)
  ∧ (∀ s c d xs y s', landBlock s c d xs = (y, s') → s'.blk = s.blk ∧ s' = { s with mem := s'.mem } ∧ y.moved = c.moved + xs.length
    ∧ y.flags = c.flags ||| (convertBlock (dFmt d) (tFmt c.dA) (RMode.of c.rm) xs (posDraws c c.moved xs.length)).2)
  ∧ (∀ sf tf mode xs ls a f, fmtOf sf = some a → fmtOf tf = some (.flt f) → sf ≠ tf →
    (convertBlock sf tf mode xs ls).1 = xs.mapIdx (fun i x => ((roundTo f mode (ls.getD i 0) (a.value x.2 x.1).1).1, 0)))
  ∧ (∀ s c p h d ps ks, ps[p]? = some none → readNext s c p h d ps ks = (.on (c.setSlots [(p, .full 0 0)]), s))
  ∧ (∀ s e c ds s₁ c' s₂, RunsT s e c → e = .F ∨ e = .P → resolveUses s c (if c.hasMoved then 256 else 0) c.objUses = (.ok ds, s₁) →
    moveAll (jobOf c ds) (jobFuel (jobOf c ds)) s₁ c = (.done c', s₂) →
      exec (.engineCommandCompletion e) s = .next (finishCmd e c' (tFinish (jobOf c ds) c' s₂).1 (tFinish (jobOf c ds) c' s₂).2))

/-! ## The timestep sequencer, launches and the dispatchers -/

/-- The timestep sequencer (R168-R172): `sbind` binds two step caches with no skipped and no decided blocks; `sgate` takes the oldest
result, decides to skip it where its condition holds and fewer than MAXSKIP steps have been skipped, writes the decision and the block
number, and leaves one update for IN, unless IN's home on another package has made it; `smap` returns a field of the binding, or reads a
word of the skip map as an object load; `sstep` adds 1 to STEP, clears the counts and raises IN's version to STEP where that is greater; that
it leaves TAINT_FLOOR is the model's reading (log 43). -/
def Obligations.Sequencer : Prop :=
  (∀ s g hin hout sth sst (maxskip : BitVec 18), Ready s.blk [sth, sst] [] [] [] →
    ∀ f, f = s.blk.reqStamp (s.blk.accessT 0) → LiveHandle s.blk hin f → LiveHandle s.blk hout f →
    ∀ a b, a = s.blk.hCell hin → b = s.blk.hCell hout →
      sbindFault s a.v b.v a.desc b.desc (rdS s.blk sth) (rdS s.blk sst) maxskip.toNat = none →
      (∀ c ∈ s.blk.cmds, c.namesBinding g = false) → (s.blk.gCell g).queue = [] →
      ∃ t, exec (.sbind g hin hout sth sst maxskip) s = .next t ∧ (∀ j, j ≠ g → t.blk.gCell j = s.blk.gCell j)
        ∧ t = { s with blk := { s.blk.adv 8 with floor := t.blk.floor, pend := t.blk.pend, loads := t.blk.loads, g := t.blk.g } }
        ∧ t.blk.gCell g = ⟨a.v, b.v, (rdS s.blk sth).setWidth 32, (rdS s.blk sst).setWidth 32, maxskip.setWidth 8, 0, 0, a.desc, b.desc,
            []⟩)
  ∧ (∀ s (pd : PReg) sj g x r rest n skip u, Ready s.blk [] [] [sj] [pd] → Settled s.blk 0 → x = s.blk.gCell g → x.inH ≠ 0 →
    x.outH ≠ 0 → x.queue = r :: rest → r.done = true → gatePending s x.inH r.j = false →
    (s.blk.reply = none → gateClaimed s s.blk.id x.inH r.j = false) → SkipCount s x r.j n u →
    skip = (r.cond && decide (n < x.maxskip.toNat)) → pd.toNat < 48 →
      ∃ t, exec (.sgate pd sj g) s = .next t ∧ (pd ≠ 0 → rdP t.blk pd = condP skip ∧ taintP t.blk pd = r.taint)
        ∧ (sj ≠ 0 → rdS t.blk sj = BitVec.ofNat 64 r.j ∧ taintS t.blk sj = r.taint)
        ∧ (∀ q, q ≠ pd ∨ q = 0 → t.blk.pCell q = s.blk.pCell q) ∧ (∀ q, q ≠ sj ∨ q = 0 → t.blk.sCell q = s.blk.sCell q)
        ∧ (∀ q, q ≠ g → t.blk.gCell q = s.blk.gCell q)
        ∧ t = { u with blk := { s.blk.adv 8 with s := t.blk.s, p := t.blk.p, g := t.blk.g, posted := t.blk.posted, reply := none } }
        ∧ t.blk.gCell g = { x with queue := rest, decided := x.decided + 1, skipped := x.skipped + (if skip then 1 else 0) }
        ∧ t.blk.posted = s.blk.posted ++ (if hHome x.inH = s.pl.pkg.toNat then
            [.gate ⟨s.blk.pc, g, x.inH, r.j, n, skip, if skip then [] else r.x, s.blk.reqStamp (s.blk.accessT 0), none, none, none⟩] else []))
  ∧ (∀ s sd g (sel : BitVec 18) sa, Ready s.blk [] [] [sd] [] → sel.toNat < 6 →
    exec (.smap sd g sel sa) s = .next { s with blk := (putS s.blk sd (smapField (s.blk.gCell g) sel.toNat) 0).adv 8 })
  ∧ (∀ s sd g (sel : BitVec 18) sa x d st u, Ready s.blk [sa] [] [sd] [] → sel.toNat = 6 → x = s.blk.gCell g →
    (rdS s.blk sa).toNat < mapWords x →
    resolve s (s.blk.who 0) x.inH (s.blk.reqStamp (s.blk.accessT (taintS s.blk sa))) = (.ok d st, u) → u.blk = s.blk → dKind d = kStep →
    canRead d s.blk.world = true → s.blk.loads.length < 255 →
      exec (.smap sd g sel sa) s = .next { u with blk :=
        (s.blk.issueLoad (.skipWord (rdS s.blk sa).toNat) sd x.inH 0 0 0 (taintS s.blk sa)).adv 8 })
  ∧ (∀ s g x b, x = s.blk.gCell g → x.queue = [] → (∀ p ∈ s.blk.posted, ∀ u, p = .gate u → u.g ≠ g) →
    b = ({ s.blk.setG g { x with step := x.step + 1, skipped := 0, decided := 0 } with reply := none } : Block).adv 8 →
      (s.blk.reply ≠ none → exec (.sstep g) s = .next { s with blk := b })
      ∧ (∀ d st e w, s.blk.reply = none → resolve s (s.blk.who 0) x.inH (s.blk.reqStamp (s.blk.accessT 0)) = (.ok d st, w) →
        w.blk = s.blk → hHome x.inH = w.pl.pkg.toNat → readDesc w (hIndex x.inH) = .ok e →
          ((x.step + 1).toNat ≤ dVersion e → exec (.sstep g) s = .next { w with blk := b })
          ∧ (∀ v c u, dVersion e < (x.step + 1).toNat →
            publishHere w x.inH (s.blk.reqStamp (s.blk.accessT 0)) (fun _ => (x.step + 1).toNat) = .ok (v, c, u) →
              v = BitVec.ofNat 64 (x.step + 1).toNat ∧ exec (.sstep g) s = .next { u with blk := b })))

/-- `launch` performs the block's stores, appends its record at the queue and returns the slot, or all ones where the ring is full (R255):
the record's 128 bytes go to the slot at TAIL, and the queue is notified with TAIL + 1. `cbtok` posts the token's 256 bytes and returns
COUNT (R342), and waits while the latest scrub's token does not exist. -/
def Obligations.LaunchAndToken : Prop :=
  (∀ s sd sa sb off q s₁ slot s₂ r, Ready s.blk [sa, sb] [] [sd] [] → off = (rdS s.blk sa).toNat → q = (rdS s.blk sb).toNat →
    launchFault s off = none → queueRec s s.blk.fn q = some r → qProducer r = true → qErr r = false → s.blk.atomicsOut = false →
    s₁ = performStores s →
    appendRecord s₁ s.blk.fn q (recordOf (Memory.chip s₁.mem (s.blk.spA off) 128)) = .ok (slot, s₂) →
      ∃ t, exec (.launch sd sa sb) s = .next t
        ∧ t = { s₂ with blk :=
            { (wrS s₁.blk sd (match slot with | some k => k.setWidth 64 | none => BitVec.allOnes 64) 0).adv 8 with
              floor := t.blk.floor, pend := t.blk.pend, loads := t.blk.loads } })
  ∧ (∀ s fn q rec r, queueRec s fn q = some r →
    (((queueEnds s fn q r).2 - (queueEnds s fn q r).1).toNat = qSize r → appendRecord s fn q rec = .ok (none, s))
    ∧ (∀ tail a u v, tail = (queueEnds s fn q r).2 → (tail - (queueEnds s fn q r).1).toNat ≠ qSize r →
      g2Translate s (lowDie s) (fnWorld s fn) (r.getD 0 0 + 128 * (tail.toNat % qSize r)) true = (.ok a, u) →
      Memory.writePoison u.mem a 128 = none →
      tryNotify { u with mem := Memory.writeAll u.mem a rec.bytes } fn q (tail + 1) = .ok v →
        appendRecord s fn q rec = .ok (some tail, v)))
  ∧ (∀ s sd sa imm a k, Ready s.blk [sa] [] [sd] [] → a = (rdS s.blk sa + imm.signExtend 64).toNat → cbtokFault s a = none →
    latestToken s s.blk.part = some k → s.blk.storesInFlight < 32 →
      ∃ t, exec (.cbtok sd sa imm) s = .next t
        ∧ t = { s with blk := { (wrS s.blk sd k.count 0).adv 8 with
            floor := t.blk.floor, pend := t.blk.pend, loads := t.blk.loads
            posted := s.blk.posted ++ [.store .sp (s.blk.spA a) (k.bytes s)] } })
  ∧ (∀ s sd sa imm a, Ready s.blk [sa] [] [sd] [] → a = (rdS s.blk sa + imm.signExtend 64).toNat → cbtokFault s a = none →
    latestToken s s.blk.part = none → exec (.cbtok sd sa imm) s = .next { s with blk := { s.blk with wait := some .clearboard } })

/-- The dispatchers' events: a notify moves TAIL of a mapped queue, and maps another one behind those that were PENDING (R247, R248); an
admission takes the next record, and the launch holds its function, queue, slot, world and record, and may be placed once it has passed
the checks (R249, R251), and is closed with NOT_RUN where its partition has no die left (R265); a queue with nothing left is unmapped once it
has been idle for 10 µs (R248); a PENDING queue that is mapped has a context, and its record has PENDING
clear and MAPPED set (R246, R248); a pick starts a block with ARG, its index and ENTRY (R17, R19, R257), a gang passed over reserves a
unit (R257), the watchdog ends every live block of its launch, which places nothing more (R254), a dead die is noted (R265), a block whose
work is done retires (R22, R245), and a released parked access is attempted again in its turn (R283, R286). -/
def Obligations.Dispatchers : Prop :=
  (∀ s fn (q : BitVec 8) tail r, queueRec s fn q.toNat = some r → (∀ j ∈ s.dp.jobs, j.work.key ≠ (DispWork.notify fn q tail).key) →
    (∀ t, qSize r < (tail - (queueEnds s fn q.toNat r).1).toNat → setQueueFlag s fn q.toNat 2 true = .ok t →
      exec (.launchNotify fn q tail) s = .next t)
    ∧ (∀ c, queueCtx s fn q.toNat = some c → (tail - c.head).toNat ≤ qSize r →
      exec (.launchNotify fn q tail) s = .next (updCtx s fn q.toNat (fun x => { x with tail := tail, busyAt := s.tm.dtime })))
    ∧ (∀ u w, queueCtx s fn q.toNat = none → (tail - (queueEnds s fn q.toNat r).1).toNat ≤ qSize r →
      setQueueWord s fn q.toNat 2 (setBits (r.getD 2 0) 0 32 tail.toNat) = .ok u → w = scanPending u (qDie r) →
        ((queueCtx w fn q.toNat).isSome = true → exec (.launchNotify fn q tail) s = .next w)
        ∧ (∀ v, queueCtx w fn q.toNat = none → setQueueFlag w fn q.toNat 0 true = .ok v →
          exec (.launchNotify fn q tail) s = .next (mapped v (fn, q.toNat)))))
  ∧ (∀ s fn (q : BitVec 8) r c bs, queueRec s fn q.toNat = some r → queueCtx s fn q.toNat = some c → c.head ≠ c.tail →
    slotFree s fn = true → queueHeld s fn q = false →
    guestRead s c.die.toNat fn (r.getD 0 0 + 128 * (c.head.toNat % qSize r)) 128 = .ok bs →
      exec (.launchAdmission fn q) s = .next
        (admitRecord (updCtx s fn q.toNat (fun x => { x with head := c.head + 1, busyAt := s.tm.dtime })) fn q.toNat c.head (recordOf bs) none false))
  ∧ (∀ s fn q seq r late l, (∀ x ∈ s.dp.launches, x.slot ≠ s.dp.nextSlot) →
    l = ({ slot := s.dp.nextSlot, fn := fn, queue := BitVec.ofNat 8 q, seq := seq, record := r, world := fnWorld s fn, part := fnPart s fn,
           cls := r.cls, deadline := BitVec.ofNat 64 r.deadline, nextGroup := 0, reports := [], dieMask := 0, gturn := 0, closed := none,
           ending := none, statusDue := [], remote := none, counting := none, ran := 0, passedOver := none, late := late,
           counted := false } : Launch) →
    ∀ s₁, s₁ = { s with dp := { s.dp with nextSlot := s.dp.nextSlot + 1, launches := s.dp.launches ++ [l] } } →
      (recordReason s₁ fn l.part r ≠ 0 →
        admitRecord s fn q seq r late false = completeLaunch s₁ l (recordReason s₁ fn l.part r))
      ∧ (∀ d st s₂, recordReason s₁ fn l.part r = 0 → r.status = 0 →
        resolve s₁ (dispWho (launchDie s₁ l) l.world) r.code 0 = (.ok d st, s₂) → s₂.dp = s₁.dp → dKind d = kCode → canRead d l.world = true →
        badEntry r d = false →
          (partLives s₂ l.part = true → findLaunch (admitRecord s fn q seq r late false) l.slot = some { l with counted := true })
          ∧ (partLives s₂ l.part = false →
            ∀ x, findLaunch (admitRecord s fn q seq r late false) l.slot = some x → x.closed = some 5)))
  ∧ (∀ s fn (q : BitVec 8) c, queueCtx s fn q.toNat = some c → c.head = c.tail → queueBusy s fn q = false → queueHeld s fn q = false →
    ∃ t, exec (.queueUnmap fn q) s = .next t ∧ queueCtx t fn q.toNat = none ∧ t.dp.launches = s.dp.launches ∧ t.blk = s.blk
      ∧ min (c.busyAt.toNat + 10000) (2 ^ 64 - 1) ≤ t.tm.dtime.toNat)
  ∧ (∀ s die fn base r a u, s.dp.tables = [⟨fn, base, 1⟩] → queueRec s fn 0 = some r → qPending r = true → qDie r = die.toNat →
    queueCtx s fn 0 = none → qOk r = true → (s.dp.ctxs.filter (fun c => c.die.toNat == qDie r)).length < 64 →
    g2Translate s (lowDie s) (fnWorld s fn) (base + 40) true = (.ok a, u) → Memory.writePoison u.mem a 8 = none →
      exec (.pendingScan die) s = .next { u with
        mem := Memory.writeAll u.mem a (leBytes 8 (setBits (setBits (r.getD 5 0) 0 1 0) 1 1 1))
        dp := { u.dp with ctxs := u.dp.ctxs ++ [⟨fn, 0, die, BitVec.ofNat 32 (qHead r), BitVec.ofNat 32 (qTail r), u.tm.dtime⟩] } })
  ∧ (∀ s (die : BitVec 2) l i c, s.dp.dead.getLsbD die.toNat = false → pickOrder s die.toNat = [l] →
    choosePlace s die.toNat l = some [(i, c)] → victimOn s c = none →
      ∃ t, exec (.dispatcherPick die) s = .next t ∧ ∃ b ∈ allBlocks t, b.id = ⟨l.slot, i⟩ ∧ b.core = BitVec.ofNat 12 c
        ∧ rdS b 1 = l.record.arg ∧ rdS b 2 = BitVec.ofNat 64 i ∧ b.pc = BitVec.ofNat 32 l.record.entry ∧ b.world = l.world
        ∧ b.nsq = l.record.nsq ∧ ∀ r, r ≠ 1 → r ≠ 2 → rdS b r = 0)
  ∧ (∀ s slot l k s₁ size f, findLaunch s slot = some l → l.passedOver = some k → l.record.locked = true → eligible s l = true →
    reservationOf s l = none → s₁ = reachTime s (k.toNat + 100000) → s.dp.launches.filter (reserves s₁) = [l] →
    size = extentSize l.record.blocks → f < 4096 / size →
    s.dp.reserved.any (fun r => r.first < size * f + size && size * f < r.first + r.size) = false →
    (gangIn (coreUsable s l.part) l (size * f) size).isSome = true →
      ∃ t g, exec (.gangReservation slot) s = .next t ∧ t.dp.reserved = s.dp.reserved ++ [⟨l.slot, g, size⟩] ∧ t.blk = s.blk
        ∧ t.mem = s.mem ∧ (gangIn (coreUsable s l.part) l g size).isSome = true)
  ∧ (∀ s slot l k, findLaunch s slot = some l → l.counting = some k → l.record.watchdog ≠ 0 → ((allBlocks s).map (·.id)).Nodup →
      ∃ t, exec (.watchdogExpiry slot) s = .next t ∧ (∀ b ∈ allBlocks t, b.id.launch = slot → b.live = false)
        ∧ (∀ x ∈ t.dp.launches, x.slot = slot → x.closed ≠ none))
  ∧ (∀ s die, ∃ t, exec (.dieFailure die) s = .next t ∧ t.dp.dead.getLsbD die.toNat = true)
  ∧ (∀ s st, retireStatus s.blk = some st → ∃ t, exec .blockRetirement s = .next t ∧ t = removeBlock s s.blk st
      ∧ ∀ b ∈ allBlocks t, b.id ≠ s.blk.id)
  ∧ (∀ b : Block, b.quiet = true → (b.phase = .terminated → retireStatus b = some b.endStatus)
      ∧ (b.phase = .exited → b.queued = [] → retireStatus b = some 0) ∧ (b.phase = .running → retireStatus b = none))
  ∧ (∀ s p, s.blk.wait = some (.park p) → exec (.accessReplay .strand) s = .next
      (if p.released = true ∧ ∀ q ∈ s.blk.strandParks, q.released = true → p.no ≤ q.no then { s with blk := { s.blk with wait := p.req.map Wait.replay } }
       else s))
  ∧ (∀ s k l, s.blk.loads[k]? = some l → l.park ≠ none → exec (.accessReplay (.load k)) s = exec (.objectLoadCompletion k) s)

/-! ## Tables, time, worlds and resets -/

/-- The table commands (R268, R269, R276, R281, R285, R286, R289): one that is refused sets ERR and nothing else; DESC_SYNC takes an
object's descriptor out of the caches and marks the handle registers, and stays BUSY until every member of the object's share group has
answered; SHOOT and G2_SHOOT take translations away and raise the generation of every die; FB_FLUSH starts the next generation of its die's
buffer; COUNTER_MOVE moves the words and the address, in one step, which is the model's choice (log 24); TWRITE and TREAD write and read a word of a table (a word of the lease table is an open value, log 29); a write of FBHEAD within the
records moves it. -/
def Obligations.TableCommands : Prop :=
  (∀ s, tableBusy s = true → ∀ i ∈ [Instr.descSync, .shoot, .g2Shoot, .fbFlush, .counterMove, .twrite, .tread],
    exec i s = .next { s with tb := { s.tb with err := true } })
  ∧ (∀ s i, tableBusy s = false → i = s.tb.targ0.toNat → i < 2 ^ 32 →
    ∃ t, exec .descSync s = .next t ∧ t.mem = s.mem ∧ t.tb.err = false ∧ (∀ e ∈ t.tb.hcache, namesIndex s i e.handle = false)
      ∧ (∀ h, namesIndex s i (s.blk.hCell h).v = true → (t.blk.hCell h).refresh = true)
      ∧ (∀ h, namesIndex s i (s.blk.hCell h).v = false → t.blk.hCell h = s.blk.hCell h)
      ∧ (∀ g ∈ s.pe.groups, hObj g.index = hObj (handleOf s.pl.pkg.toNat i 0) → ∀ p ∈ g.members, p ≠ s.pl.pkg →
          lostMember s (handleOf s.pl.pkg.toNat i 0) p.toNat = false → (∃ x ∈ t.tb.syncs, x.pkg = p) ∧ tableBusy t = true))
  ∧ (∀ s i x, tableBusy s = false → i = s.tb.targ0.toNat → i < 2 ^ 32 → x = s.tb.targ1.toNat → bits x 36 20 = 0 →
    ∃ t, exec .shoot s = .next t ∧ t.mem = s.mem ∧ t.blk = s.blk ∧ t.tb.err = false
      ∧ (∀ d, d < 4 → t.tb.shootGen[d]? = (s.tb.shootGen[d]?).map (· + 1))
      ∧ (∀ e, e ∈ t.tb.tlb ↔ e ∈ s.tb.tlb ∧ e.inShoot i (bits x 56 8) (bits x 0 36) s.tb.targ2.toNat = false)
      ∧ (∀ e, e ∈ t.tb.nested ↔ e ∈ s.tb.nested ∧ e.inShoot i (bits x 56 8) (bits x 0 36) s.tb.targ2.toNat = false))
  ∧ (∀ s w base len, tableBusy s = false → w = s.tb.targ0.toNat → base = s.tb.targ1.toNat → len = s.tb.targ2.toNat → w < 2 ^ 14 →
    base % 4096 = 0 → len % 4096 = 0 →
    ∃ t, exec .g2Shoot s = .next t ∧ t.mem = s.mem ∧ t.blk = s.blk ∧ t.tb.err = false
      ∧ (∀ d, d < 4 → t.tb.shootGen[d]? = (s.tb.shootGen[d]?).map (· + 1))
      ∧ ∀ e, e ∈ t.tb.g2 ↔ e ∈ s.tb.g2 ∧ ¬ (e.world.toNat = w ∧ base ≤ 4096 * e.page ∧ 4096 * e.page < base + len))
  ∧ (∀ s die, tableBusy s = false → die = s.tb.targ0.toNat → die < 4 → s.tb.targ1.toNat = (fbGenOf s die).toNat →
    ∃ t, exec .fbFlush s = .next t ∧ t.tb.err = false ∧ fbGenOf t die = fbGenOf s die + 1 ∧ fbHeadOf t die = fbTailOf s die)
  ∧ (∀ s i d s₁, tableBusy s = false → i = s.tb.targ0.toNat → i < 2 ^ 32 →
    movable s i s.tb.targ1.toNat s.tb.targ2.toNat = some d → s₁ = { s with tb := { s.tb with err := false } } →
    ∀ ws m, ws = Memory.chip s.mem (dWord d 7) (8 * dCount d) →
      m = Memory.writeAll (Memory.writeAll s.mem s.tb.targ2.toNat ws) s.tb.targ1.toNat ws →
      exec .counterMove s = .next (descSync (writeDesc { s₁ with mem := m } i (dSetWord d 7 s.tb.targ1.toNat)) i))
  ∧ (∀ s x, tableBusy s = false → x = s.tb.targ0.toNat →
    (twriteOk s (bits x 56 8) (bits x 8 48) (bits x 0 8) s.tb.targ1.toNat = true →
      ∃ t, exec .twrite s = .next t ∧ t.tb.err = false ∧ hubWord t (bits x 56 8) (bits x 8 48) (bits x 0 8) = s.tb.targ1.toNat)
    ∧ (twriteOk s (bits x 56 8) (bits x 8 48) (bits x 0 8) s.tb.targ1.toNat = false →
      exec .twrite s = .next { s with tb := { s.tb with err := true } })
    ∧ (bits x 8 48 < (tableShape (bits x 56 8)).1 → bits x 0 8 < (tableShape (bits x 56 8)).2 → bits x 56 8 ≠ 7 →
      exec .tread s = .next { s with tb := { s.tb with
        err := false, targ1 := BitVec.ofNat 64 (hubWord s (bits x 56 8) (bits x 8 48) (bits x 0 8)) } }))
  ∧ (∀ s (die : BitVec 2) v, ((v - fbHeadOf s die.toNat).toNat ≤ (fbTailOf s die.toNat - fbHeadOf s die.toNat).toNat →
      ∃ t, exec (.fbheadWrite die v) s = .next t ∧ fbHeadOf t die.toNat = v)
    ∧ ((fbTailOf s die.toNat - fbHeadOf s die.toNat).toNat < (v - fbHeadOf s die.toNat).toNat →
      exec (.fbheadWrite die v) s = .next s))

/-- Time: DCVAL sets the selected counter, which saturates at 4,096 (R325); a write of TTCTL that sets EN starts the walker at the next
turn (R309, R311); a move is released at its turn (R311); a turn boundary that nothing holds raises PTURN by 1 and puts NEXT one period
on (R306); a PTP event frame is stamped with the device time at which it is taken (R304). -/
def Obligations.TimeEvents : Prop :=
  (∀ s v, ∃ t, exec (.dcvalWrite v) s = .next t ∧ t.mem = s.mem ∧ t.blk = s.blk
    ∧ ∀ i, depCounter t i = if i = s.tm.dcidx.toNat then min v.toNat 4096 else depCounter s i)
  ∧ (∀ s v p, p = partOf s s.tm.psel → ttBad v = false → ttEn v = true → ttEn p.ttctl = false →
    ∃ t, exec (.ttctlWrite v) s = .next t ∧ t.mem = s.mem ∧ t.blk = s.blk
      ∧ partOf t s.tm.psel = { p with
          ttctl := v, base := p.pturn + 1, pass := 0, move := 0, park := none, remote := none, reply := none })
  ∧ (∀ s part p ws s₁, p = partOf s part → walkerReady s part p = true → readMove s p = (.words ws, s₁) →
    exec (.timetableRelease part) s =
      if p.pturn.toNat < p.base.toNat + p.pass * ttCycle p.ttctl + ws.getD 0 0 then .next s₁
      else .next (releaseMove s₁ part p ws))
  ∧ (∀ s part p, p = partOf s part → p.stalled = none → lateMoves s part p.pturn = [] →
    ∃ t, exec (.turnBoundary part) s = .next t ∧ t.mem = s.mem ∧ t.blk = s.blk
      ∧ partOf t part = { p with pturn := p.pturn + 1, next := p.next + BitVec.ofNat 64 (partTper s part) }
      ∧ min p.next.toNat (2 ^ 64 - 1) ≤ t.tm.dtime.toNat ∧ s.tm.dtime.toNat ≤ t.tm.dtime.toNat)
  ∧ (∀ s port sent bytes, ∃ t, exec (.ptpEventFrame port ⟨sent, bytes⟩) s = .next t ∧ t.mem = s.mem ∧ t.blk = s.blk
    ∧ s.tm.dtime.toNat ≤ t.tm.dtime.toNat
    ∧ t.tm.ptpLog = s.tm.ptpLog ++ (if ptpTaken t port bytes = true then
        [⟨port, sent, if isEventMessage bytes = true then some t.tm.dtime else none, bytes⟩] else []))

/-- World switching: a frame edge comes at its device time, stops the partition's blocks and waits for the work that it may not cut off; then
it counts the edge, moves to the next frame, whose length gives the next edge, and leaves a token to be signed (R297, R332-R334, R338);
a frame that issued nothing is left without a wait (R334). The token is signed with the next COUNT, and the blocks that it held back run
(R339, R341); TOKCOPY copies it (R347); a reset of a function sets BUSY and leaves a scrub's token where its world runs (R345, R347), and
where the partition is at a frame edge it waits for the edge's step 6 (R346). The model's choices here: steps 2 to 6 are one step (log 24),
device time reaches the edge in the step that takes it (log 26), what completes before the save (log 48), and what a function's reset ends
beside its blocks (log 58). -/
def Obligations.WorldSwitches : Prop :=
  (∀ s part s₁ s₂, partMode s part = 2 → frameCount s part ≠ 0 → (switchOf s part).edge = .run →
    s₁ = stopPart (reachTime s (switchOf s part).due) part → s₂ = (partBlocks s₁ part).foldl (fun s b => onBlock s b.id (settleBy edgeOps)) s₁ →
    s₂.wo.vfHold = none →
      ((partBlocks s₂ part).all Block.edgeReady = false → exec (.frameEdge part) s = .next s₂)
      ∧ ((partBlocks s₂ part).all Block.edgeReady = true → ∃ t, exec (.frameEdge part) s = .next t
        ∧ (switchOf t part).edges = (switchOf s₂ part).edges + 1 ∧ (switchOf t part).frame = nextFrame s₂ part
        ∧ (switchOf t part).due = (switchOf s₂ part).due + frameLen s₂ part (nextFrame s₂ part) ∧ (switchOf t part).pendingToken ≠ none))
  ∧ (∀ s part, partMode s part = 2 → frameCount s part ≠ 0 → (switchOf s part).edge = .mute → s.wo.vfHold = none →
    ∃ t, exec (.frameEdge part) s = .next t ∧ (switchOf t part).edges = (switchOf s part).edges + 1
      ∧ (switchOf t part).frame = nextFrame s part ∧ (switchOf t part).pendingToken ≠ none)
  ∧ (∀ s n, min n (2 ^ 64 - 1) ≤ (reachTime s n).tm.dtime.toNat ∧ s.tm.dtime.toNat ≤ (reachTime s n).tm.dtime.toNat)
  ∧ (∀ s part, partMode s part ≠ 2 → exec (.frameEdge part) s = .next s)
  ∧ (∀ s part k, (switchOf s part).pendingToken = some k →
    ∃ t, exec (.clearboardToken part) s = .next t ∧ t.mem = s.mem ∧ (switchOf t part).pendingToken = none
      ∧ (switchOf t part).token = some { k with count := s.wo.count + 1, sig := s.fresh } ∧ t.wo.count = s.wo.count + 1
      ∧ t.blk.phase = (if s.blk.part = part then s.blk.phase.freed else s.blk.phase)
      ∧ t.wo.vfBusy = (s.wo.vfBusy && !(s.wo.vfHold.isNone && fnPart s s.wo.vfLast == part
          && !(switchOf s part).vfWait.contains s.wo.vfLast)))
  ∧ Phase.freed .held = .running ∧ (∀ p : Phase, p ∈ [.running, .parked, .saved, .none, .terminated] → p.freed = p)
  ∧ (∀ s addr k, (switchOf s s.wo.cbpart).token = some k → addr.toNat % 256 = 0 →
    isDram addr.toNat = true ∨ inSystemRegion s addr.toNat = true →
      exec (.tokcopy addr) s = .next { s with mem := Memory.writeAll s.mem addr.toNat (k.bytes s) })
  ∧ (∀ s fn, s.wo.vfBusy = false →
    (∃ t, exec (.vfreset fn) s = .next t)
    ∧ ((∀ b ∈ allBlocks s, b.fn ≠ fn) → s.wo.saves = [] → s.dp.launches = [] → (∀ host, svcRingOf s fn host = none) →
        ∃ t, exec (.vfreset fn) s = .next t ∧ t.wo.vfBusy = true ∧ t.wo.vfLast = fn
          ∧ (partMode s (fnPart s fn) ≠ 2 → (switchOf s (fnPart s fn)).edge = .run →
              (switchOf t (fnPart s fn)).pendingToken ≠ none)))
  ∧ (∀ s fn, s.wo.vfBusy = false → (switchOf s (fnPart s fn)).edge ≠ .run →
    exec (.vfreset fn) s = .next { s with wo := { s.wo with vfBusy := true, vfLast := fn, vfHold := some fn } })
  ∧ (∀ s fn, s.wo.vfBusy = true → exec (.vfreset fn) s = .next s)

/-- The alarm locks the part and leaves no block, no key and no byte of memory (R344); a package reset leaves the state of reset but for
new keys, ALARMCAUSE, the flash and the package's number (R187, R343, R373); a loss of power does the same and clears ALARMCAUSE; boot
and recovery run an image that passes its checks (R370-R372). Single faults, in-field tests and links (R348, R349): a fault found in a
DRAM line that ECC cannot correct poisons the line, a core that fails its test is fenced, a link that goes down stays down, the extents
of a CXL port go with its link (R368), and each detection moves the RAS log on. The model's choices here: a reset forgets the dies that were
dead and the cores that were fenced (log 52), how an in-field test saves its core's block (log 57), what LINK_DOWN does beside (log 60), and
that BOOT is ignored while the part is ready or in recovery (log 62). -/
def Obligations.ResetsAndFaults : Prop :=
  ((∀ s cause, ∃ t, exec (.securityAlarm cause) s = .next t ∧ t.wo.locked = true ∧ t.wo.alarm = s.wo.alarm ||| cause ∧ t.mem = []
    ∧ t.blk = State.reset.blk ∧ t.others = [] ∧ t.wo.worldKeys = [] ∧ t.wo.saves = [] ∧ t.dp.launches = [])
  ∧ (∀ s, ∃ t, exec .packageReset s = .next t ∧ t.blk = State.reset.blk ∧ t.others = [] ∧ t.mem = [] ∧ t.empties = []
    ∧ t.tb = State.reset.tb ∧ t.dp = State.reset.dp ∧ t.tm = State.reset.tm ∧ t.ho = State.reset.ho ∧ t.pe = State.reset.pe
    ∧ t.wo = { State.reset.wo with bootn := s.fresh, keyGen := s.wo.keyGen + 1, alarm := s.wo.alarm }
    ∧ t.pl = { State.reset.pl with flash := s.pl.flash, pkg := s.pl.pkg })
  ∧ (∀ s, ∃ t, exec .powerLoss s = .next t ∧ t.mem = [] ∧ t.wo.alarm = 0 ∧ t.wo.locked = false ∧ t.blk = State.reset.blk
    ∧ t.pl = { State.reset.pl with flash := s.pl.flash, pkg := s.pl.pkg })
  ∧ (∀ s, s.pl.ready = false → s.pl.recovery = false → ∃ t, exec .boot s = .next t ∧ t.mem = [] ∧ t.pl.ready = imageOk s.pl.flash
    ∧ t.pl.verified = imageOk s.pl.flash ∧ t.pl.recovery = !imageOk s.pl.flash)
  ∧ (∀ s, s.pl.ready = true ∨ s.pl.recovery = true → exec .boot s = .next s)
  ∧ (∀ s, s.pl.recovery = true → exec .recoveryStart s =
      if imageOk (recoveryImage s) = true then .next (startImage s (recoveryImage s)) else .next s)
  ∧ (∀ s, s.pl.recovery = false → exec .recoveryStart s = .next s))
  ∧ ((∀ s core, ∀ k ∈ [FaultKind.sram, .link], ∃ t, exec (.singleFaultDetection k core) s = .next t ∧ t.blk = s.blk
    ∧ t.wo.rasTail = s.wo.rasTail + 1)
  ∧ (∀ s core line, isDram (64 * line) = true →
    (∃ t, exec (.singleFaultDetection (.dram line false) core) s = .next t ∧ t.blk = s.blk ∧ t.wo.rasTail = s.wo.rasTail + 1
      ∧ ∀ i, i < 64 → Memory.read t.mem (64 * line + i) = none)
    ∧ exec (.singleFaultDetection (.dram line true) core) s = .next (rasRecord s 2 core))
  ∧ (∀ s core, ∃ t, exec (.singleFaultDetection .inField core) s = .next t ∧ core ∈ t.dp.fenced ∧ t.blk = s.blk)
  ∧ (∀ s core pass, inFrameTable s core = false → onCore s core.toNat = [] →
    ∃ t, exec (.inFieldTest core pass) s = .next t ∧ (pass = true → t.mem = s.mem ∧ t.dp.fenced = s.dp.fenced)
      ∧ (pass = false → core ∈ t.dp.fenced) ∧ t.blk = s.blk)
  ∧ (∀ s core pass s₁, inFrameTable s core = false → onCore s core.toNat ≠ [] →
    s₁ = (onCore s core.toNat).foldl (fun s b => onBlock s b.id settle) (reachTime s (testFrom s core)) →
    (onCore s₁ core.toNat).all (fun b => b.saveable && !b.abroad) = true →
      ∃ t, exec (.inFieldTest core pass) s = .next t ∧ (pass = true → t.mem = s₁.mem ∧ t.dp.fenced = s₁.dp.fenced)
        ∧ (pass = false → core ∈ t.dp.fenced))
  ∧ (∀ s core pass, inFrameTable s core = true → exec (.inFieldTest core pass) s = .next { s with
      pl := { s.pl with testDue := s.pl.testDue.filter (fun x => x.1 != core) ++ [(core, pass)] } })
  ∧ (∀ s link, (∀ port, link ≠ .cxl port) →
    ∃ t, exec (.linkDown link) s = .next t ∧ link ∈ t.pl.linksDown ∧ t.mem = s.mem ∧ t.blk = s.blk
      ∧ (∀ port p, link = .scaleOut port → t.pe.ports[port.toNat]? = some p → p.linkUp = false)
      ∧ (∀ port, link = .galith port → portState t port = ⟨false, false, none, [], (portState s port).dropped⟩ ∧ ∀ q ∈ t.ho.reqs, q.port ≠ port))
  ∧ (∀ s port, ∃ t, exec (.linkDown (.cxl port)) s = .next t ∧ .cxl port ∈ t.pl.linksDown
      ∧ ∀ e ∈ t.pe.extents, poolPort e.1 ≠ port))

/-! ## The host, services, peers and the platform -/

/-- The host's requests (R350-R353, R355, R415): a request that a check turns away completes with that check's status; one that no earlier
request holds up is served, and completes: words of an aperture descriptor are written, a queue's notify word notifies it, the service
notify word raises TAIL, and a load or store through an aperture reads or writes the object's bytes. A request that has been held for 1 ms
completes TIMEOUT; a link that trains has a session where the part is ready, with the boot measurement, and one that goes down loses its
requests (R357). A frame whose tag is wrong is dropped and counted (R336). Which shard and offset of an object a byte of an aperture is, is the
model's reading (log 50). -/
def Obligations.HostAccess : Prop :=
  (∀ s port tag addr len data fn a word v, ∀ i ∈ [Instr.hostLoad ⟨port, false⟩ tag addr len, .hostStore ⟨port, false⟩ tag addr data,
      .apertureDescriptorWrite ⟨port, false⟩ tag fn a word v, .serviceNotify ⟨port, false⟩ tag fn v],
    exec i s = .next (if (portState s port).up = true then
      setPort s port { portState s port with dropped := (portState s port).dropped + 1 } else s)) ∧
  (∀ s i q st, IsRequest i q → Arrives s q → requestFault s q = some st → s.pl.recovery = false →
    exec i s = .next (hostDone s q.port q.tag st []))
  ∧ (∀ s i q s₁ st bs u, IsRequest i q → HostTurn s q → requestFault s q = none →
    s₁ = { s with ho := { s.ho with reqs := s.ho.reqs ++ [q] } } → hostServe s₁ q = (.done st bs, u) → u.ho.reqs = s₁.ho.reqs →
      exec i s = .next (hostDone { u with ho := { u.ho with reqs := s.ho.reqs } } q.port q.tag st bs))
  ∧ (∀ s q o, q.place = .desc o →
    (∀ bs, q.data = some bs → hostServe s q = (.done gOK [], setDescWords s q.fn o bs))
    ∧ (q.data = none → hostServe s q = (.done gOK (descWords s q.fn o q.len), s)))
  ∧ (∀ s (fn : BitVec 6) (a w : Nat) (v : BitVec 64), w < 2 →
    apWord (setDescWords s fn (16 * a + 8 * w) (leBytes 8 v.toNat)) fn a w = v.toNat)
  ∧ (∀ s q n bs, q.place = .notify n → q.data = some bs →
    hostServe s q = (.done gOK [], notify s q.fn n (BitVec.ofNat 32 (leNat bs))))
  ∧ (∀ s q bs r d, q.place = .service → q.data = some bs → svcRingOf s q.fn true = some r → readDesc s (hIndex r.ctr) = .ok d →
    hostServe s q = (.done gOK [], (atomicHere s r.ctr d .maxN 0 (leDWord bs) 0).2))
  ∧ (∀ s q a o h d st s₁ i sh off, q.place = .aperture a o → q.reply = none → h = BitVec.ofNat 64 (apWord s q.fn a 0) →
    apWord s q.fn a 1 % 2 = 1 → resolve s (hostWho s q.fn) h 0 = (.ok d st, s₁) → i = apWord s q.fn a 1 / 65536 * 65536 + o →
    sh = i / max 1 (up64K (payloadBytes d)) → off = i % max 1 (up64K (payloadBytes d)) →
      (∀ vs st' u, q.data = none → dKind d ≠ kCounter → canRead d (fnWorld s q.fn) = true →
        sh < (if dSaxis d = 15 then 1 else dScnt d + 1) → off + q.len ≤ payloadBytes d →
        objReadFrom true s₁ (hostWho s q.fn) h d 0 sh (wordFields off q.len) = (.ok vs st', u) →
          hostServe s q = (.done gOK (wordBytes vs), u))
      ∧ (q.data = none → dKind d = kCounter → canRead d (fnWorld s q.fn) = true → i + q.len ≤ 8 * dCount d →
        hHome h = s₁.pl.pkg.toNat → hostServe s q = (.done gOK (Memory.chip s₁.mem (counterAddr d 0 + i) q.len), s₁))
      ∧ (∀ bs us st' u, q.data = some bs → dKind d ≠ kCounter → dKind d ≠ kCode → canWrite d (fnWorld s q.fn) = true →
        sh < (if dSaxis d = 15 then 1 else dScnt d + 1) → off + q.len ≤ payloadBytes d →
        objWrite s₁ (hostWho s q.fn) h d 0 sh (wordFields off q.len) (bytesWords bs) (coveredLines off q.len) = (.ok us st', u) →
          hostServe s q = (.done gOK [], fireTouched u (hostWho s q.fn) h d sh off q.len)))
  ∧ (∀ s k q x s₁, s.ho.reqs[k]? = some q → q.since = some x → (∀ r, q.remote = some r → r.desc ≠ none) →
    s₁ = { s with ho := { s.ho with reqs := s.ho.reqs.eraseIdx k } } → HostWaits s₁ →
    ∃ t, exec (.hostRequestTimeout k) s = .next t ∧ t.ho.reqs = s.ho.reqs.eraseIdx k ∧ t.mem = s.mem ∧ t.blk = s.blk
      ∧ (portState t q.port).done = (portState s q.port).done ++ [⟨q.tag, gTIMEOUT, []⟩]
      ∧ min (x.toNat + 1000000) (2 ^ 64 - 1) ≤ t.tm.dtime.toNat)
  ∧ (∀ s port, s.pl.linksDown.contains (.galith port) = false →
    ∃ t, exec (.hostLinkUp port) s = .next t ∧ (portState t port).up = true ∧ (portState t port).session = s.pl.ready
      ∧ (portState t port).done = (portState s port).done ∧ t.mem = s.mem ∧ t.blk = s.blk
      ∧ (s.pl.ready = true → ∃ x, (portState t port).spdm = some x ∧ x.boot = leBytes 48 s.pl.meas.toNat))
  ∧ (∀ s port, ∃ t, exec (.hostLinkDown port) s = .next t ∧ portState t port = ⟨false, false, none, [], (portState s port).dropped⟩
    ∧ (∀ q, q ∈ t.ho.reqs ↔ q ∈ s.ho.reqs ∧ q.port ≠ port) ∧ t.mem = s.mem ∧ t.blk = s.blk)

/-- The services (R355, R356, R362, R366, R373), each on a pending request whose checks pass: CREATE makes the object that its descriptor
image describes and answers its handle; DESTROY raises GEN and zero-fills the slabs; RESIDE moves the slabs and sets RES; PUBLISH
publishes; COLLECTIVE stages this package's part and reports it, writes and publishes the destination once the commit is recorded, and asks
for the outcome and aborts where the epoch has changed before that; EVENT_BIND and STREAM_BIND record the binding; FLASH_WRITE erases the
flash for an image that passes its checks and completes with that image in it, completes IMAGE_INVALID on another, and waits for another
ring's. An argument's elements that another package holds are asked of it. A request that completes has its STATUS and RESULT in the slot,
and the ring is published and DONE counted. The model's choices here: moves and zero-fills are one step (log 24), a RESULT that is not
stated is open (log 36), the descriptor that DESTROY leaves is free with the next GEN (log 51), and how the members learn of an outcome
(log 14). -/
def Obligations.Services : Prop :=
  (∀ s r status (v : DWord) k s₁ y s₂ n c s₃ d, freshNat s = (k, s₁) → writeSlot s₁ r status v.toNat = (y, s₂) →
    publishHere s₂ r.ring 0 (· + 1) = .ok (n, c, s₃) → readDesc s₃ (hIndex r.ctr) = .ok d →
      finishRequest s r status (some v) =
        setRing (atomicHere s₃ r.ctr d .add 2 1 0).2 { r with served := r.served + 1, remote := none, reply := none, want := [], got := [] })
  ∧ (∀ s q index root frames r args di st hi u, Pending s q 1 r args → hi = BitVec.ofNat 64 (args.getD 0 0) →
    resolve s (lolen s r.fn) hi 0 = (.ok di st, u) → canRead di (fnWorld u r.fn) = true →
    dKind di = kTensor → dFmt di = 7 → 8 ≤ dCount di →
      (∀ ws w old d t, readArg r hi di (firstFields di 8) [] u = (.all ws, w) →
        readDesc w index.toNat = .ok old → d = createdDesc ws (dGen old) root → dKind old = 0 → index ≠ 0 → dOk w w.pl.pkg.toNat d = true →
        dKind d ≠ 0 → dRes d ≠ 6 → dRes d ≠ 4 → dSaxis d = 15 → args.getD 1 0 = 0 → args.getD 2 0 = 0 →
        (dKind d ≠ kCounter → shardSlabs d ≤ frames.length) → t = makeObject w index.toNat d frames →
          Finished s q r (.create q index root frames) t svOK (some (handleOf w.pl.pkg.toNat index.toNat (dGen d))))
      ∧ (∀ p xs w m t, readArg r hi di (firstFields di 8) [] u = (.away p xs, w) →
        sendRequest w p opRead hi ((xs.head?.map (·.field.off)).getD 0) none
          (fieldBody ((xs.head?.map (·.shard)).getD 0) (xs.map (·.field))) = some (m, t) →
          exec (.create q index root frames) s = .next (setRing t { r with remote := some m, want := xs })))
  ∧ (∀ s g h d vs, readArg g h d [] vs s = (.all vs.reverse, s))
  ∧ (∀ s g h d sh f fs vs,
    (∀ v, g.got.find? (fun x => x.1 == ⟨h, sh, f⟩) = some (⟨h, sh, f⟩, v) →
      readArg g h d ((sh, f) :: fs) vs s = readArg g h d fs (v :: vs) s)
    ∧ (∀ v st t, g.got.find? (fun x => x.1 == ⟨h, sh, f⟩) = none →
      objReadFrom true s (lolen s g.fn) h d 0 sh [f] = (.ok [v] st, t) →
        readArg g h d ((sh, f) :: fs) vs s = readArg g h d fs (v :: vs) t))
  ∧ (∀ s q r args h d st u, Pending s q 2 r args → r.reply = none → h = BitVec.ofNat 64 (args.getD 0 0) →
    resolve s (lolen s r.fn) h 0 = (.ok d st, u) → canWrite d (fnWorld u r.fn) = true → hHome h = u.pl.pkg.toNat →
      Finished s q r (.destroy q) (destroyHere u h d) svOK none)
  ∧ (∀ s h d s₁, dSaxis d = 15 → dRes d ≠ 4 → (dKind d ≠ kCounter → peerSlabs s h d = []) →
    s₁ = shootObject (descSync (writeDesc s (hIndex h) (freeDesc (dGen d + 1))) (hIndex h)) h →
      ∃ t, destroyHere s h d = t ∧ t.tb = s₁.tb
        ∧ t.mem = ((if dKind d = kCounter then [] else (localSlabs s h d).map (·.2)).foldl zeroSlab s₁).mem
        ∧ ∀ g ∈ t.pe.groups, hObj g.index ≠ hObj h)
  ∧ (∀ s q frames r args h d st t u, Pending s q 3 r args → r.reply = none → h = BitVec.ofNat 64 (args.getD 0 0) → args.getD 1 0 ≤ 5 →
    resolve s (lolen s r.fn) h 0 = (.ok d st, u) → canWrite d (fnWorld u r.fn) = true → hHome h = u.pl.pkg.toNat →
    resideHere u h d (args.getD 1 0) frames = (.moved, t) → Finished s q r (.reside q frames) t svOK none)
  ∧ (∀ s h d res frames slabs t, res = 0 ∨ res = 1 ∨ res = 3 → dKind d ≠ kCounter → (isWatched s h = true → res < 2) →
    (∀ p ∈ s.pe.pulls, hObj p.handle ≠ hObj h) → peerSlabs s h d = [] → dSaxis d = 15 → dRes d ≠ 4 →
    slabs = (localSlabs s h d).filter (fun x => !suitsRes res x.2) → slabs.length ≤ frames.length →
    framesSuit s (dOwner d) res (frames.take slabs.length) = true →
    t = flushAll ((slabs.zip frames).foldl (fun s x => moveSlab s (dOwner d) x.1 x.2) (shootObject s h)) →
      resideHere s h d res frames = (.moved, setRes t h d res))
  ∧ (∀ s q r args h d st v x t u, Pending s q 4 r args → r.reply = none → h = BitVec.ofNat 64 (args.getD 0 0) →
    resolve s (lolen s r.fn) h 0 = (.ok d st, u) → dKind d = kTensor ∨ dKind d = kStep ∨ dKind d = kCounter →
    canWrite d (fnWorld u r.fn) = true → hHome h = u.pl.pkg.toNat →
    publishHere u h 0 (· + 1) = .ok (v, x, t) → Finished s q r (.publishService q) t svOK (some v))
  ∧ (∀ s q parts r args hs hd ds st d st' w u, Pending s q 5 r args → r.reply = none → args.getD 0 0 ≤ 3 →
    hs = BitVec.ofNat 64 (args.getD 1 0) → hd = BitVec.ofNat 64 (args.getD 2 0) →
    resolve s (lolen s r.fn) hs 0 = (.ok ds st, w) → resolve w (lolen w r.fn) hd 0 = (.ok d st', u) →
    canRead ds (fnWorld u r.fn) = true → canWrite d (fnWorld u r.fn) = true → dKind ds ≠ kCounter → dKind d ≠ kCounter →
    dKind d ≠ kCode → dFmt ds = dFmt d →
      (∀ bs, u.pe.colls.find? (fun c => c.fn == r.fn && c.host == r.host && c.seq == r.served) = none →
        ownPart u (lolen u r.fn) hs ds (itemsOf ds (parts.headD [])) = some bs →
          ∀ x y, x = (⟨(groupOf u hd).epoch, (groupOf u hd).next⟩ : Round) → y = updGroup u hd (fun g => { g with next := g.next + 1 }) →
          exec (.collective q parts) s = .next (reportDone { y with pe := { y.pe with
            colls := y.pe.colls ++ [⟨r.fn, r.host, r.served, hd, x, (groupOf u hd).active, bs, false⟩] } } hd x))
      ∧ (∀ c rest, u.pe.colls.find? (fun c => c.fn == r.fn && c.host == r.host && c.seq == r.served) = some c →
        rest = { u with pe := { u.pe with
          colls := u.pe.colls.filter (fun c => !(c.fn == r.fn && c.host == r.host && c.seq == r.served)) } } →
          (committed u c = false → c.round.epoch = (groupOf u hd).epoch → exec (.collective q parts) s = .next u)
          ∧ (∀ v, committed u c = false → c.round.epoch ≠ (groupOf u hd).epoch →
            v = (if c.asked = true then u else askOutcome { u with pe := { u.pe with
              colls := u.pe.colls.map (fun x => if x.fn == r.fn && x.host == r.host && x.seq == r.served then { x with asked := true } else x) } }
                hd c.round) →
            ((groupOf v hd).aborted = some c.round → Finished s q r (.collective q parts) { v with pe := { v.pe with
              colls := v.pe.colls.filter (fun c => !(c.fn == r.fn && c.host == r.host && c.seq == r.served)) } } svABORTED none)
            ∧ ((groupOf v hd).aborted ≠ some c.round → exec (.collective q parts) s = .next v))
          ∧ (∀ n s₁ s₂ v x t, committed u c = true → parts.length = c.members.length →
            (u.pl.pkg ∈ c.members → parts.getD (c.members.idxOf u.pl.pkg) [] = c.staging) → freshNat rest = (n, s₁) →
            writeElems s₁ (lolen s₁ r.fn) hd d (collectiveElems n (args.getD 0 0) d parts) = some s₂ → hHome hd = s₂.pl.pkg.toNat →
            publishHere s₂ hd 0 (· + 1) = .ok (v, x, t) →
              Finished s q r (.collective q parts) t svOK none)))
  ∧ (∀ s q r args rest binds, Pending s q 6 r args → args.getD 0 0 < 256 → args.getD 1 0 < 16 ∨ args.getD 1 0 = 0xFFFF →
    rest = s.ho.eventBinds.filter (fun b => !(b.1 == r.fn && b.2.1.toNat == args.getD 0 0)) →
    binds = (if args.getD 1 0 = 0xFFFF then rest else (r.fn, BitVec.ofNat 8 (args.getD 0 0), args.getD 1 0) :: rest) →
      Finished s q r (.eventBind q) { s with ho := { s.ho with eventBinds := binds } } svOK none)
  ∧ (∀ s q r args d st dc st' k port filter p f w u, Pending s q 7 r args → args.getD 2 0 ≤ 7 → port < 24 → filter < 16 →
    args.getD 3 0 = port + filter * 2 ^ 8 → resolve s (lolen s r.fn) (BitVec.ofNat 64 (args.getD 0 0)) 0 = (.ok d st, w) →
    resolve w (lolen w r.fn) (BitVec.ofNat 64 (args.getD 1 0)) 0 = (.ok dc st', u) → canWrite d (fnWorld u r.fn) = true →
    canWrite dc (fnWorld u r.fn) = true → streamOk u (BitVec.ofNat 64 (args.getD 0 0)) d dc (2 ^ (7 + args.getD 2 0)) = true →
    (List.range 64).find? (fun k => u.pe.streams.all (fun x => x.k != k)) = some k → u.pe.ports[port]? = some p →
    p.filters[filter]? = some f →
      ∀ g, g = (⟨f.mac, BitVec.ofNat 64 (setBits f.ctl.toNat 0 6 k)⟩ : Filter) →
        Finished s q r (.streamBind q) { u with pe := { u.pe with
          streams := u.pe.streams ++ [⟨k, BitVec.ofNat 64 (args.getD 0 0), BitVec.ofNat 64 (args.getD 1 0), 2 ^ (7 + args.getD 2 0),
            port, filter⟩],
          ports := (u.pe.ports.setIfInBounds port { p with filters := p.filters.setIfInBounds filter g }) } } svOK none)
  ∧ (∀ s q r args h d st n vs t bs u, Pending s q 8 r args → s.pl.flashing = none → r.host = true → r.privileged = true →
    h = BitVec.ofNat 64 (args.getD 0 0) → resolve s (lolen s r.fn) h 0 = (.ok d st, u) → canRead d (fnWorld u r.fn) = true →
    n = min (payloadBytes d) imageLimit → readArg r h d ((blobFields 0 n).map (fun f => (0, f))) [] u = (.all vs, t) → bs = blobBytes n vs →
      (imageOk bs = true → exec (.flashWrite q) s = .next { t with
        pl := { t.pl with flash := [], flashing := some ⟨r.fn, r.host, bs.take (0xA0 + imageLen bs)⟩ } })
      ∧ (imageOk bs = false → Finished s q r (.flashWrite q) t svIMAGE none))
  ∧ (∀ s q r args x, Pending s q 8 r args → s.pl.flashing = some x → r.host = true → r.privileged = true →
    (x.fn = r.fn → x.host = r.host →
      Finished s q r (.flashWrite q) { s with pl := { s.pl with flash := x.image, flashing := none } } svOK none)
    ∧ (x.fn ≠ r.fn ∨ x.host ≠ r.host → exec (.flashWrite q) s = .next s))
  ∧ (∀ s q r args, Pending s q 8 r args → r.host = false ∨ r.privileged = false → Finished s q r (.flashWrite q) s svRIGHTS none)

/-- Peers (R183, R184, R220, R336, R360, R361, R365, R366): a frame whose tag fails is dropped and counted, one that is not next in its
sequence is not taken, and one that is merges its clock and is acknowledged; a read, write, atomic or publish that its object's home
admits is performed there and answered, and another package receives REFUSED; a reply goes to the access that asked; an acknowledgement
releases its frames; a retransmission counts, and at the sixteenth the path is down and its frames go to another port of the route, or where
none is left their accesses fail; the coordinator records a commit once every member has reported, and a recorded commit stands whatever the
epoch; a package attests anew; a lost member leaves its groups, with the next epoch. The layout and codes of a payload, and how the members
learn of an outcome, are the model's (log 14). -/
def Obligations.Peers : Prop :=
  (∀ s f, ∀ i ∈ [Instr.peerRead f, .peerReadReply f, .peerWrite f, .peerWriteAck f, .peerAtomic f, .peerAtomicReply f, .peerPublish f,
    .peerControl f], (f.good = true → frameTaken s f = false → exec i s = .next s)
      ∧ (f.good = false → frameHere s f = true → exec i s = .next (dropFrame s f.port.toNat))
      ∧ (frameTaken s f = true → takenBefore s f = true → exec i s = .next (takeFrame s f)))
  ∧ (∀ s f, (takeFrame s f).tm.pclk = maxStamp s.tm.pclk f.pclk + 1 ∧ expectedSeq (takeFrame s f) f.port f.spkg = f.seq + 1
    ∧ (∃ a ∈ (takeFrame s f).pe.acks, a.port = f.port ∧ a.dpkg = f.spkg ∧ a.offset = f.seq.setWidth 64
      ∧ a.pclk = (takeFrame s f).tm.pclk)
    ∧ (∀ port q, f.again = some (port, q) → port ≠ f.port → takenBefore s f = false →
        expectedSeq (takeFrame s f) port f.spkg = q + 1))
  ∧ (∀ s f d, TakesFrame s f → f.offset.toNat = descOffset → admitted s f.handle f.spkg = true →
    readDesc (takeFrame s f) (hIndex f.handle) = .ok d →
      exec (.peerRead f) s = .next (replyTo (takeFrame s f) f opReadReply 0 (leBytes 64 d.toNat)))
  ∧ (∀ s f d st u, TakesFrame s f → admitted s f.handle f.spkg = true →
    resolve s ⟨0, lowDie s, 0, 6, false⟩ f.handle 0 = (.ok d st, u) → ∀ s₁ b, s₁ = takeFrame u f → b = frameBody f →
      (∀ vs st' t, f.offset.toNat ≠ descOffset → dKind d ≠ kCounter →
        objReadFor s₁ (peerWho s₁ d) f.handle d (leNat (b.take 1)) (bodyFields b.length (b.drop 1)) = (.ok vs st', t) →
          exec (.peerRead f) s = .next (replyTo t f opReadReply 0 (vs.flatMap wireValue)))
      ∧ (f.offset.toNat ≠ descOffset → dKind d = kCounter → exec (.peerRead f) s = .next (replyTo s₁ f opReadReply 0
          ((bodyFields b.length (b.drop 1)).flatMap
            (fun x => wireValue (leNat (Memory.chip s₁.mem (counterAddr d 0 + x.off) x.len))))))
      ∧ (∀ c rest xs us st' t, c = leNat ((b.drop 1).take 1) → rest = b.drop (2 + 8 * (c % 128)) → xs = bodyWrites rest.length rest →
        objWriteFor s₁ (peerWho s₁ d) f.handle d (leNat (b.take 1)) (xs.map (·.1)) (xs.map (·.2)) (bodyWords (c % 128) (b.drop 2))
          = (.ok us st', t) →
          exec (.peerWrite f) s = .next (replyTo (if 128 ≤ c then
            xs.foldl (fun s x => fireTouched s (peerWho s₁ d) f.handle d (leNat (b.take 1)) x.1.off x.1.len) t else t) f opWriteAck 0 []))
      ∧ (∀ v t, 1 ≤ leNat (b.take 1) → leNat (b.take 1) ≤ 8 →
        atomicHere s₁ f.handle d (wireOp (leNat (b.take 1))) (leNat ((b.drop 1).take 8)) (BitVec.ofNat 64 (leNat ((b.drop 9).take 8)))
          (BitVec.ofNat 64 (leNat ((b.drop 17).take 8))) = (v, t) →
          exec (.peerAtomic f) s = .next (replyTo t f opAtomicReply 0 (wireValue v.toNat)))
      ∧ (∀ v x t, b = [] → publishHere s₁ f.handle 0 (· + 1) = .ok (v, x, t) →
          exec (.peerPublish f) s = .next (replyTo t f opAtomicReply 0 (wireValue v.toNat)))
      ∧ (∀ v x t, b.length = 8 → dVersion d < leNat b → publishHere s₁ f.handle 0 (fun _ => leNat b) = .ok (v, x, t) →
          exec (.peerPublish f) s = .next (replyTo t f opAtomicReply 0 (wireValue v.toNat)))
      ∧ (∀ v x t, b.length = 9 → publishHere s₁ f.handle 0 (· + 1) = .ok (v, x, t) →
          exec (.peerPublish f) s = .next (replyTo (closeFor t f (bodyBlock b)) f opAtomicReply 0 (wireValue v.toNat))))
  ∧ (∀ s f, TakesFrame s f → admitted s f.handle f.spkg = false →
      exec (.peerRead f) s = .next (replyTo (takeFrame s f) f opReadReply 1 [])
      ∧ exec (.peerWrite f) s = .next (replyTo (takeFrame s f) f opWriteAck 1 [])
      ∧ exec (.peerPublish f) s = .next (replyTo (takeFrame s f) f opAtomicReply 1 [])
      ∧ (leNat ((frameBody f).take 1) ≠ 14 → exec (.peerAtomic f) s = .next (replyTo (takeFrame s f) f opAtomicReply 1 [])))
  ∧ (∀ s f, TakesFrame s f → ∀ i ∈ [Instr.peerReadReply f, .peerWriteAck f, .peerAtomicReply f],
    exec i s = .next (settleGates (answer (takeFrame s f) (frameId f) (answerOf f))))
  ∧ (∀ s f, frameHere s f = true → f.good = true →
    ∃ t, exec (.peerCumulativeAck f) s = .next t ∧ t.tm.pclk = maxStamp s.tm.pclk f.pclk + 1 ∧ t.mem = s.mem ∧ t.blk = s.blk
    ∧ ∀ o, o ∈ t.pe.out ↔ o ∈ s.pe.out ∧ ¬ (o.f.port = f.port ∧ o.f.dpkg = f.spkg ∧ (f.offset.setWidth 32 - o.f.seq).toNat < 2 ^ 31))
  ∧ (∀ s f u code b g r, TakesFrame s f → u = takeFrame s f → b = frameBody f → code = leNat (b.take 1) → g = groupOf u f.handle →
    r = (⟨BitVec.ofNat 32 (leNat ((b.drop 1).take 4)), BitVec.ofNat 32 (leNat ((b.drop 5).take 4))⟩ : Round) →
    (code = 2 → exec (.peerControl f) s = .next (attest u f.handle f.spkg))
    ∧ (code = 4 → exec (.peerControl f) s = .next (joinGroup u f (b.drop 1)))
    ∧ (code ≠ 2 → code ≠ 4 → f.spkg ∉ g.active → exec (.peerControl f) s = .next u)
    ∧ (f.spkg ∈ g.active →
      (code = 1 → exec (.peerControl f) s = .next (noteDone u f.handle f.spkg r))
      ∧ (code = 3 → g.coordinator = f.spkg → exec (.peerControl f) s = .next (recordCommit u f.handle r))
      ∧ (code = 3 → g.coordinator ≠ f.spkg → g.coordinator = u.pl.pkg → g.commit ≠ some r → exec (.peerControl f) s = .next
          (((g.active.filter (· != u.pl.pkg)).filter (· != f.spkg)).foldl (tellRound f.handle 3 r) (recordCommit u f.handle r)))
      ∧ (code = 5 → g.coordinator = f.spkg →
          exec (.peerControl f) s = .next (updGroup u f.handle (fun g => { g with aborted := some r })))
      ∧ (code = 6 → exec (.peerControl f) s = .next (noteAsk u f.handle f.spkg r))
      ∧ (code = 7 → exec (.peerControl f) s = .next (tellRound f.handle (if g.commit = some r then 3 else 6) r u f.spkg))))
  ∧ (∀ s h pkg g r, s.pe.groups.find? (fun x => hObj x.index == hObj h) = some g → g.coordinator = s.pl.pkg → r.epoch = g.epoch →
    g.aborted ≠ some r → (∀ m ∈ g.active, m = pkg ∨ (m, r) ∈ g.done) → (groupOf (noteDone s h pkg r) h).commit = some r)
  ∧ (∀ s h g r, s.pe.groups.find? (fun x => hObj x.index == hObj h) = some g → (groupOf (recordCommit s h r) h).commit = some r)
  ∧ (∀ s h pkg g n s₁, s.pe.groups.find? (fun x => hObj x.index == hObj h) = some g → pkg ∈ g.members → freshNat s = (n, s₁) →
    (Config.measured n = g.policy → attest s h pkg = updGroup s₁ h (fun x => { x with
      epoch := x.epoch + 1, next := 0, done := [], lost := x.lost.filter (· != pkg) }))
    ∧ (Config.measured n ≠ g.policy → attest s h pkg = refuseRings s₁ h pkg))
  ∧ (∀ s (port : BitVec 5) (dst : BitVec 8), (∃ o ∈ s.pe.out, o.f.port = port ∧ o.f.dpkg = dst) →
    ((∀ o ∈ s.pe.out, o.f.port = port → o.f.dpkg = dst → o.tries < 16) →
      exec (.peerRetransmit port dst) s = .next { s with pe := { s.pe with
        out := s.pe.out.map (fun o => if o.f.port == port && o.f.dpkg == dst then { o with tries := o.tries + 1 } else o) } })
    ∧ (∀ u fs, (∃ o ∈ s.pe.out, o.f.port = port ∧ o.f.dpkg = dst ∧ 16 ≤ o.tries) →
      fs = s.pe.out.filter (fun o => o.f.port == port && o.f.dpkg == dst) → u = { s with pe := { s.pe with
          out := s.pe.out.filter (fun o => !(o.f.port == port && o.f.dpkg == dst)), pathDown := (port.toNat, dst.toNat) :: s.pe.pathDown } } →
        exec (.peerRetransmit port dst) s = .next
          (if openPorts u dst.toNat = [] then failRequests u fs else fs.foldl (fun s o => sendAgain s (openPorts u dst.toNat) o) u)))
  ∧ (∀ s (pkg : BitVec 8), ∃ t, exec (.shareMemberLost pkg) s = .next t ∧ t.mem = s.mem ∧ t.blk = s.blk
    ∧ t.pe.groups.length = s.pe.groups.length
    ∧ ∀ (k : Nat) g, s.pe.groups[k]? = some g → ∃ g', t.pe.groups[k]? = some g' ∧ g'.index = g.index ∧ g'.members = g.members
      ∧ g'.commit = g.commit
      ∧ (if pkg ∈ g.members ∧ pkg ∉ g.lost ∧ pkg ≠ s.pl.pkg then
          g'.lost = pkg :: g.lost ∧ g'.epoch = g.epoch + 1 ∧ g'.next = 0 ∧ g'.done = []
        else g'.lost = g.lost ∧ g'.epoch = g.epoch ∧ g'.next = g.next ∧ g'.done = g.done))

/-- Ingress (R358, R359, R362, R363): a frame with a bad FCS, or one that no enabled filter matches, is counted and dropped; one of a bound
stream goes to the stream unit; one of a port that is down changes nothing. The stream unit looks at APPENDED and CONSUMED; a frame for
which the ring has no room adds 1 to the counter object's word 2, and every other frame writes its record, whose bytes are the time, the
lengths, the record's number and the frame, to its slot, and then adds 1 to word 3 where it was cut and to word 0. A write of PORTCFG sets
the selected port's mode, and the link trains anew. The time that passes before a frame is taken, and that a link takes to train, is free
(log 3). -/
def Obligations.Ingress : Prop :=
  (∀ s (port : BitVec 5) good (bytes : List Byte) p u, u = (readTime s).2 → u.pe.ports[port.toNat]? = some p →
    (portUp u p = false ∨ p.mode = 0 ∨ bytes.length < 60 ∨ 9212 < bytes.length → exec (.ingressFrame port ⟨good, bytes⟩) s = .next u)
    ∧ (portUp u p = true → p.mode ≠ 0 → 60 ≤ bytes.length → bytes.length ≤ 9212 →
      (good = false → exec (.ingressFrame port ⟨good, bytes⟩) s = .next { u with
        pe := { u.pe with ports := u.pe.ports.setIfInBounds port.toNat { p with dropped := p.dropped + 1 } } })
      ∧ (good = true → ptpTaken u port bytes = false → p.mode = 2 →
        (p.filters.toList.find? (fun f => filterMatches f bytes) = none →
          exec (.ingressFrame port ⟨good, bytes⟩) s = .next { u with
            pe := { u.pe with ports := u.pe.ports.setIfInBounds port.toNat { p with dropped := p.dropped + 1 } } })
        ∧ (∀ f x, p.filters.toList.find? (fun f => filterMatches f bytes) = some f →
          u.pe.streams.find? (fun x => x.k == bits f.ctl.toNat 0 6) = some x →
            exec (.ingressFrame port ⟨good, bytes⟩) s = .next (streamOn { u with pe := { u.pe with
              frames := u.pe.frames ++ [⟨x.k, port.toNat, ptpTime u u.tm.dtime, bytes, .look, none, none, none⟩] } } x.k)))))
  ∧ (∀ s x f d st w, resolve s (streamWho s) x.stream 0 = (.ok d st, w) → f.reply = none →
      (∀ dc st' u, f.step = .look → resolve w (streamWho w) x.ctr 0 = (.ok dc st', u) → hHome x.ctr = u.pl.pkg.toNat →
        streamDo s x f = (.next
          (if dExt d 0 / x.slot ≤ (counterRead u dc 0 + 2 ^ 64 - counterRead u dc 1) % 2 ^ 64 then .drop
           else .write (counterRead u dc 0) 0), u))
      ∧ (∀ n bs off us st'' u, f.step = .write n 0 → bs = ingressBytes x.slot n f.port f.time f.bytes → bs.length ≤ 2048 →
        off = n % max 1 (dExt d 0 / x.slot) * x.slot →
        objWrite w (streamWho w) x.stream d 0 0 (blobFields off bs.length) (blobValues bs) (coveredLines off bs.length) = (.ok us st'', u) →
          streamDo s x f = (.next (if x.slot - 32 < f.bytes.length then .trunc else .count), u)))
  ∧ (∀ s x f dc st u, resolve s (streamWho s) x.ctr 0 = (.ok dc st, u) → hHome x.ctr = u.pl.pkg.toNat → f.reply = none →
      (f.step = .drop → streamDo s x f = (.done, (atomicHere u x.ctr dc .add 2 1 0).2))
      ∧ (f.step = .trunc → streamDo s x f = (.next .count, (atomicHere u x.ctr dc .add 3 1 0).2))
      ∧ (f.step = .count → streamDo s x f = (.done, (atomicHere u x.ctr dc .add 0 1 0).2)))
  ∧ (∀ s (v : BitVec 64) p, s.pe.ports[s.pe.portsel.toNat]? = some p → (v.setWidth 2 : BitVec 2) ≠ 3 →
    ∃ t n, exec (.portcfgWrite v) s = .next t ∧ t.mem = s.mem ∧ t.blk = s.blk ∧ n ≤ 100000000
      ∧ t.pe.ports[s.pe.portsel.toNat]? = some { p with
          mode := v.setWidth 2, ptpen := v.getLsbD 3, upAt := s.tm.dtime + BitVec.ofNat 64 n
          linkUp := decide ((v.setWidth 2 : BitVec 2) ≠ 0) && !s.pl.linksDown.contains (.scaleOut s.pe.portsel) })

/-- The platform: the operating points that PWRTGT asks for (R374, R375), the cap that lowers every one where the package or the module is
over its limit, and its end; the system cores' CSRs (R8, R268, R347, R359), which a lower privilege may not reach (R369), and accesses,
which end in a bus error where nothing is mapped (R181, R182); and the pool's extents (R185, R367, R368): what is in flight to an extent that
is withdrawn parks as at a poisoned line, a host's request completes POISON, every object with a slab there is lost, and no other byte goes.
The model's choices here: a write with a reserved bit is ignored (log 37), the cap lowers every point (log 40), and a CSR that is read is
kept where a system core's access keeps its data, and a refused one noted (log 31). -/
def Obligations.PowerAndSystem : Prop :=
  (∀ s (v : BitVec 64), v.toNat < 2 ^ 16 → (∀ d, d < 4 → (targetOf (v.setWidth 16) d).toNat ≤ 4) → s.pl.capped = false →
    ∃ t, exec (.pwrtgtWrite v) s = .next t ∧ t.mem = s.mem ∧ t.blk = s.blk ∧ t.pl.pwrtgt = v.setWidth 16
      ∧ ∀ d, d < 4 → t.pl.point[d]? = some (targetOf (v.setWidth 16) d))
  ∧ (∀ s (v : BitVec 64), (2 ^ 16 ≤ v.toNat ∨ ∃ d, d < 4 ∧ 4 < (targetOf (v.setWidth 16) d).toNat) →
    exec (.pwrtgtWrite v) s = .next s)
  ∧ (∀ s (watts moduleWatts : BitVec 32), ∃ t, exec (.powerCap ⟨watts, moduleWatts⟩) s = .next t ∧ t.mem = s.mem ∧ t.blk = s.blk
    ∧ t.pl.watts = watts
    ∧ (1950 < watts.toNat ∨ 2200 < moduleWatts.toNat →
        t.pl.capped = true ∧ ∀ d, d < 4 → t.pl.point[d]? = (s.pl.point[d]?).map pointDown)
    ∧ (watts.toNat ≤ 1950 → moduleWatts.toNat ≤ 2200 → t.pl.capped = s.pl.capped ∧ t.pl.point = s.pl.point))
  ∧ (∀ s (watts moduleWatts : BitVec 32), ∃ t, exec (.powerRestore ⟨watts, moduleWatts⟩) s = .next t ∧ t.mem = s.mem ∧ t.blk = s.blk
    ∧ t.pl.watts = watts
    ∧ (100 * watts.toNat < 95 * 1950 → 100 * moduleWatts.toNat < 95 * 2200 → ∀ d, d < 4 → t.pl.point[d]? = (s.pl.point[d]?).map
        (fun p => if p.toNat < (targetOf s.pl.pwrtgt d).toNat then p + 1 else p))
    ∧ (95 * 1950 ≤ 100 * watts.toNat ∨ 95 * 2200 ≤ 100 * moduleWatts.toNat → t.pl.point = s.pl.point))
  ∧ (∀ s (v : BitVec 64) u, u = { s with pl := { s.pl with illegal := false } } →
    exec (.systemCsrWrite 0x7C1 ⟨true, some v⟩) s = .next { u with tb := { u.tb with targ0 := v } }
    ∧ exec (.systemCsrWrite 0x7C2 ⟨true, some v⟩) s = .next { u with tb := { u.tb with targ1 := v } }
    ∧ exec (.systemCsrWrite 0x7C3 ⟨true, some v⟩) s = .next { u with tb := { u.tb with targ2 := v } }
    ∧ exec (.systemCsrWrite 0x7F8 ⟨true, some v⟩) s = .next { u with wo := { u.wo with rasBase := v } }
    ∧ exec (.systemCsrWrite 0xBC7 ⟨true, some v⟩) s = .next { u with ho := { u.ho with vfport := v } }
    ∧ exec (.systemCsrWrite 0x7E6 ⟨true, some v⟩) s = exec (.dcvalWrite v) u
    ∧ (v.toNat % 256 = 2 → exec (.systemCsrWrite 0x7C0 ⟨true, some v⟩) s = exec .shoot u)
    ∧ (∀ csr, exec (.systemCsrWrite csr ⟨false, some v⟩) s = .next { s with pl := { s.pl with illegal := true } })
    ∧ (∀ csr x, x = (readTime u).2 → exec (.systemCsrWrite csr ⟨true, none⟩) s = .next { x with
        pl := { x.pl with busData := leBytes 8 (csrRead x csr.toNat).toNat } }))
  ∧ (∀ s, csrRead s 0x7C1 = s.tb.targ0 ∧ csrRead s 0x7E0 = s.tm.dtime ∧ csrRead s 0x7F8 = s.wo.rasBase ∧ csrRead s 0xBC7 = s.ho.vfport
    ∧ csrRead s 0xBCA = BitVec.ofNat 64 (b2n s.pl.ready + 2 * b2n s.pl.verified + 4 * b2n s.pl.recovery)
    ∧ (24 ≤ s.pe.portsel.toNat → ∀ csr ∈ [0xBC1, 0xBC2, 0xBC3, 0xBC4, 0xBC5, 0xBC6], csrRead s csr = 0))
  ∧ (∀ s addr len data, systemReach s addr len = false → (∀ bs, data = some bs → bs.length = len) →
    exec (.systemCoreAccess addr len data) s = .fault .busError)
  ∧ (∀ s addr (bs : List Byte), systemReach s addr bs.length = true → bs ≠ [] → addr / 64 = (addr + bs.length - 1) / 64 →
    Memory.poisoned s.mem (addr / 64) = false → exec (.systemCoreAccess addr bs.length (some bs)) s = .next { s with
      mem := Memory.writeAll s.mem addr bs })
  ∧ (∀ s addr len bs, systemReach s addr len = true → Memory.readAll s.mem addr len = some bs →
    exec (.systemCoreAccess addr len none) s = .next { s with pl := { s.pl with busData := bs } })
  ∧ (∀ s base len dvsec, ∃ t, exec (.poolExtentOffer base len dvsec) s = .next t ∧ t.mem = s.mem ∧ t.blk = s.blk
    ∧ (dvsec = false → t = s)
    ∧ (dvsec = true → len ≠ 0 → base % 2 ^ 21 = 0 → len % 2 ^ 21 = 0 → isPool base = true → isPool (base + len - 1) = true →
      poolPort base = poolPort (base + len - 1) → s.pl.linksDown.contains (.cxl (poolPort base)) = false →
      (∀ e ∈ s.pe.extents, base + len ≤ e.1 ∨ e.1 + e.2 ≤ base) → t.pe.extents = s.pe.extents ++ [(base, len)]))
  ∧ (∀ s base len, ∃ t, endExtent s base len = t ∧ (base, len) ∉ t.pe.extents ∧ (base, len) ∈ t.pe.poolAcks
    ∧ (∀ a, isDram a = true → base ≤ a → a < base + len → Memory.read t.mem a = none)
    ∧ (∀ a, a < base ∨ base + len ≤ a → Memory.read t.mem a = Memory.read s.mem a))
  ∧ (∀ s h d a, descAddr s (hIndex h) = .ok a → ∃ x, dRes x = 6 ∧ (∀ k, 1 ≤ k → k < 8 → dWord x k = dWord d k)
    ∧ (setRes (shootObject s h) h d 6).mem = Memory.writeAll s.mem a (leBytes 64 x.toNat)
    ∧ (∀ e ∈ (setRes (shootObject s h) h d 6).tb.tlb, hObj e.handle ≠ hObj h))
  ∧ (∀ s base len, (∀ b ∈ s.blk :: s.others, b.loads = [] ∧ b.posted = [] ∧ b.eF.started = [] ∧ b.eP.started = []) → s.ho.reqs = [] →
    cutFlight s base len = s)
  ∧ (∀ s base len who h w fields m, flightMeets s base len who h w fields = some m →
    m.kind = .poison ∧ ∃ a, base ≤ a ∧ a < base + len ∧ m.addr = a / 64 * 64)
  ∧ (∀ s base len (b : Block) l m p t, l.op = .elem → l.park = none → l.remote = none → l.reply = none → l.waits = [] →
    flightMeets s base len (b.who 0) l.handle false (fun d => [indexFields d l.index]) = some m →
    park s (b.who 0) l.handle false false m = (p, t) → cutLoad base len b l s = ({ l with park := some p }, t))
  ∧ (∀ s base len (b : Block) n h i v f m p t,
    flightMeets s base len (b.who 0) h true (fun d => [((indexFields d i).1, (indexFields d i).2.take 1)]) = some m →
    park s (b.who 0) h true false m = (p, t) →
      cutPosted base len b (.sto n h i v f [] none none) s = (.sto n h i v f [] (some p) none, t))
  ∧ (∀ s base len (b : Block) c u us ds s₁ m p t, c.park = none → c.remote = none → c.off = false → c.skipEnd = false → c.objUses = u :: us →
    resolveUses { s with blk := b } c 256 c.objUses = (.ok ds, s₁) →
    (leftFields c (jobOf c ds)).1.findSome? (meetsExtent s base len (b.who c.eng.agent.code) u.h (objAt ds 0) u.write) = some m →
    park s (b.who c.eng.agent.code) u.h u.write false m = (p, t) → cutCmd base len b c s = ({ c with park := some p }, t))
  ∧ (∀ s base len q a o, s.ho.reqs = [q] → q.place = .aperture a o → q.park = none → q.remote = none →
    (flightMeets s base len (hostWho s q.fn) (BitVec.ofNat 64 (apWord s q.fn a 0)) q.data.isSome (fun d =>
      [((apWord s q.fn a 1 / 65536 * 65536 + o) / max 1 (up64K (payloadBytes d)),
        wordFields ((apWord s q.fn a 1 / 65536 * 65536 + o) % max 1 (up64K (payloadBytes d))) q.len)])).isSome = true →
      cutHost base len s = hostDone { s with ho := { s.ho with reqs := [] } } q.port q.tag gPOISON [])
  ∧ (∀ s base len, (base, len) ∈ s.pe.extents →
    exec (.poolExtentWithdrawn base len) s = .next (endExtent ((objectsIn s base len).foldl (fun u x =>
      if hHome x.1 = u.pl.pkg.toNat then setRes (shootObject u x.1) x.1 x.2 6 else tell (shootObject u x.1) (hHome x.1) x.1 (leBytes 1 34))
      (cutFlight s base len)) base len)
    ∧ ∀ frames moves, moves = pairFrames ((objectsIn s base len).map (fun x => (x, slabsIn s base len x))) frames →
      (objectsIn s base len).foldl (fun n x => n + (slabsIn s base len x).length) 0 ≤ frames.length →
      (∀ x ∈ moves, framesLocal s (dOwner x.1.2) (x.2.map (·.2)) = true) →
        exec (.poolReleaseRequest base len frames) s = .next (endExtent (flushAll (moves.foldl leaveExtent s)) base len))
  ∧ (∀ s base len, (base, len) ∉ s.pe.extents → exec (.poolExtentWithdrawn base len) s = .next s
    ∧ ∀ frames, exec (.poolReleaseRequest base len frames) s = .next s)

/-- Every instruction of the strand keeps the memory in its canonical form, whatever it stores and whatever trap it takes. -/
def Obligations.StrandKeepsCanonical : Prop :=
  ∀ i s t, isEvent i = false → Canonical s → exec i s = .next t → Canonical t
end

