-- ==== Sys2Proof/Laws/Memory.lean ====
section
/-! SUPPORT. The laws of memory: a read after a write, and the canonical form kept by every memory operation. -/

namespace Sys2Proof.Machine

/-! ## The canonical form as a property of the cells -/

/-- Every address of a memory lies above a bound. -/
theorem Memory.wf_cons_iff (k : Nat) (v : Byte) (m : Memory) :
    Memory.wf ((k, v) :: m) = true ↔ Memory.dflt k ≠ some v ∧ (∀ c ∈ m, k < c.1) ∧ Memory.wf m = true := by
  induction m generalizing k v with
  | nil => simp [Memory.wf]
  | cons c m ih =>
    obtain ⟨k', v'⟩ := c
    simp only [Memory.wf, Bool.and_eq_true, bne_iff_ne, ne_eq, decide_eq_true_eq, List.mem_cons, forall_eq_or_imp]
    constructor
    · rintro ⟨⟨h1, h2⟩, h3⟩
      have h4 := (ih k' v').1 (by simpa [Memory.wf] using h3)
      exact ⟨h1, ⟨h2, fun c hc => Nat.lt_trans h2 (h4.2.1 c hc)⟩, h3⟩
    · rintro ⟨h1, ⟨h2, -⟩, h3⟩
      exact ⟨⟨h1, h2⟩, h3⟩

/-- A canonical memory lists no address twice, so that looking an address up finds its cell. -/
theorem Memory.find_eq_some {m : Memory} (h : Memory.wf m = true) {a : Nat} {v : Byte} :
    m.find a = some v ↔ (a, v) ∈ m := by
  induction m with
  | nil => simp [Memory.find]
  | cons c m ih =>
    obtain ⟨k, w⟩ := c
    obtain ⟨-, h2, h3⟩ := (Memory.wf_cons_iff k w m).1 h
    simp only [Memory.find, beq_iff_eq, List.mem_cons, Prod.mk.injEq]
    split
    · rename_i e
      subst e
      constructor
      · intro e; simp at e; exact .inl ⟨rfl, e.symm⟩
      · rintro (⟨-, e⟩ | hm)
        · simp [e]
        · exact absurd (h2 _ hm) (by simp)
    · split
      · constructor
        · simp
        · rintro (⟨e, -⟩ | hm)
          · contradiction
          · have := h2 _ hm; simp at this; omega
      · rw [ih h3]; simp_all

/-- A filter of a canonical memory is canonical. -/
theorem Memory.wf_filter {m : Memory} (h : Memory.wf m = true) (p : Host.Cell → Bool) : Memory.wf (m.filter p) = true := by
  induction m with
  | nil => rfl
  | cons c m ih =>
    obtain ⟨k, v⟩ := c
    obtain ⟨h1, h2, h3⟩ := (Memory.wf_cons_iff k v m).1 h
    rw [List.filter_cons]
    split
    · exact (Memory.wf_cons_iff k v _).2 ⟨h1, fun c hc => h2 c (List.mem_filter.1 hc).1, ih h3⟩
    · exact ih h3

/-! ## Lookup -/

theorem Memory.find_erase {m : Memory} (h : Memory.wf m = true) (a x : Nat) :
    (m.erase a).find x = if x = a then none else m.find x := by
  induction m with
  | nil => simp [Memory.erase, Memory.find]
  | cons c m ih =>
    obtain ⟨k, v⟩ := c
    obtain ⟨-, h2, h3⟩ := (Memory.wf_cons_iff k v m).1 h
    have hnone : ∀ y, y ≤ k → Memory.find m y = none := by
      intro y hy
      cases e : Memory.find m y with
      | none => rfl
      | some w => have := h2 _ ((Memory.find_eq_some h3).1 e); simp at this; omega
    simp only [Memory.erase, beq_iff_eq]
    split
    · rename_i e; subst e
      simp only [Memory.find, beq_iff_eq]
      split
      · rename_i e; rw [e]; exact hnone _ (Nat.le_refl _)
      · split
        · rename_i h'; rw [hnone x (by omega)]
        · rfl
    · split
      · simp only [Memory.find, beq_iff_eq]
        split <;> split <;> first | rfl | omega | (split <;> first | rfl | omega)
      · simp only [Memory.find, beq_iff_eq]
        rw [ih h3]
        split <;> split <;> first | rfl | omega | (split <;> first | rfl | omega)

theorem Memory.find_insert {m : Memory} (h : Memory.wf m = true) (a : Nat) (b : Byte) (x : Nat) :
    (m.insert a b).find x = if x = a then some b else m.find x := by
  induction m with
  | nil => simp only [Memory.insert, Memory.find, beq_iff_eq]; split <;> simp
  | cons c m ih =>
    obtain ⟨k, v⟩ := c
    obtain ⟨-, h2, h3⟩ := (Memory.wf_cons_iff k v m).1 h
    simp only [Memory.insert, beq_iff_eq]
    split
    · rename_i e; subst e
      simp only [Memory.find, beq_iff_eq]
      split <;> rfl
    · split
      · simp only [Memory.find, beq_iff_eq]
        split
        · rfl
        · split
          · rw [if_neg (by omega), if_pos (by omega)]
          · rfl
      · simp only [Memory.find, beq_iff_eq]
        rw [ih h3]
        split <;> split <;> first | rfl | omega | (split <;> first | rfl | omega)

/-! ## The canonical form -/

theorem Memory.mem_erase {m : Memory} {a : Nat} {c : Host.Cell} (h : c ∈ m.erase a) : c ∈ m := by
  induction m with
  | nil => simp [Memory.erase] at h
  | cons d m ih =>
    obtain ⟨k, v⟩ := d
    simp only [Memory.erase, beq_iff_eq] at h
    split at h
    · exact List.mem_cons_of_mem _ h
    · split at h
      · exact h
      · rcases List.mem_cons.1 h with e | e
        · exact e ▸ List.mem_cons_self
        · exact List.mem_cons_of_mem _ (ih e)

theorem Memory.mem_insert {m : Memory} {a : Nat} {b : Byte} {c : Host.Cell} (h : c ∈ m.insert a b) : c = (a, b) ∨ c ∈ m := by
  induction m with
  | nil => simpa [Memory.insert] using h
  | cons d m ih =>
    obtain ⟨k, v⟩ := d
    simp only [Memory.insert, beq_iff_eq] at h
    split at h
    · rename_i e
      rcases List.mem_cons.1 h with e' | e'
      · exact .inl (e ▸ e')
      · exact .inr (List.mem_cons_of_mem _ e')
    · split at h
      · rcases List.mem_cons.1 h with e' | e'
        · exact .inl e'
        · exact .inr e'
      · rcases List.mem_cons.1 h with e' | e'
        · exact .inr (e' ▸ List.mem_cons_self)
        · exact (ih e').imp id (List.mem_cons_of_mem _)

theorem Memory.wf_erase {m : Memory} (h : Memory.wf m = true) (a : Nat) : Memory.wf (m.erase a) = true := by
  induction m with
  | nil => rfl
  | cons c m ih =>
    obtain ⟨k, v⟩ := c
    obtain ⟨h1, h2, h3⟩ := (Memory.wf_cons_iff k v m).1 h
    simp only [Memory.erase, beq_iff_eq]
    split
    · exact h3
    · split
      · exact h
      · exact (Memory.wf_cons_iff k v _).2 ⟨h1, fun c hc => h2 c (Memory.mem_erase hc), ih h3⟩

theorem Memory.wf_insert {m : Memory} (h : Memory.wf m = true) (a : Nat) (b : Byte) (hb : Memory.dflt a ≠ some b) :
    Memory.wf (m.insert a b) = true := by
  induction m with
  | nil => exact (Memory.wf_cons_iff a b []).2 ⟨hb, by simp, rfl⟩
  | cons c m ih =>
    obtain ⟨k, v⟩ := c
    obtain ⟨h1, h2, h3⟩ := (Memory.wf_cons_iff k v m).1 h
    simp only [Memory.insert, beq_iff_eq]
    split
    · rename_i e; subst e
      exact (Memory.wf_cons_iff _ b m).2 ⟨hb, h2, h3⟩
    · split
      · rename_i hlt
        refine (Memory.wf_cons_iff a b _).2 ⟨hb, fun c hc => ?_, h⟩
        rcases List.mem_cons.1 hc with e | e
        · exact e ▸ hlt
        · exact Nat.lt_trans hlt (h2 c e)
      · refine (Memory.wf_cons_iff k v _).2 ⟨h1, fun c hc => ?_, ih h3⟩
        rcases Memory.mem_insert hc with e | e
        · subst e; simp only; omega
        · exact h2 c e

/-- A write keeps the canonical form. -/
@[simp] theorem Memory.wf_write {m : Memory} (h : Memory.wf m = true) (a : Nat) (b : Byte) : Memory.wf (m.write a b) = true := by
  unfold Memory.write
  split
  · exact Memory.wf_erase h a
  · rename_i e; exact Memory.wf_insert h a b (by simpa using e)

/-- Writes of bytes at rising addresses keep the canonical form. -/
@[simp] theorem Memory.wf_writeAll {m : Memory} (h : Memory.wf m = true) (a : Nat) (bs : List Byte) :
    Memory.wf (Memory.writeAll m a bs) = true := by
  induction bs generalizing m a with
  | nil => exact h
  | cons b bs ih => exact ih (Memory.wf_write h a b) (a + 1)

/-- A fold of steps that keep the canonical form keeps it. -/
theorem Memory.wf_foldl {α : Type} (f : Memory → α → Memory) (hf : ∀ m x, Memory.wf m = true → Memory.wf (f m x) = true)
    (xs : List α) {m : Memory} (h : Memory.wf m = true) : Memory.wf (xs.foldl f m) = true := by
  induction xs generalizing m with
  | nil => exact h
  | cons x xs ih => exact ih (hf m x h)

theorem Memory.wf_zeroFill {m : Memory} (h : Memory.wf m = true) (a n : Nat) : Memory.wf (m.zeroFill a n) = true :=
  Memory.wf_writeAll h a _

theorem Memory.wf_clear {m : Memory} (h : Memory.wf m = true) (a n : Nat) : Memory.wf (m.clear a n) = true := by
  induction n generalizing m a with
  | zero => exact h
  | succ n ih => exact ih (Memory.wf_erase h a) (a + 1)

theorem Memory.wf_dropRange {m : Memory} (h : Memory.wf m = true) (lo hi : Nat) : Memory.wf (m.dropRange lo hi) = true :=
  Memory.wf_filter h _

theorem Memory.wf_slice {m : Memory} (h : Memory.wf m = true) (lo hi : Nat) : Memory.wf (m.slice lo hi) = true :=
  Memory.wf_filter h _

/-- The memory after reset is canonical. -/
theorem Memory.wf_reset : Memory.wf State.reset.mem = true := rfl

/-! ## A read after a write -/

/-- A write is read back, and every other byte reads as before. -/
theorem Memory.read_write {m : Memory} (h : Memory.wf m = true) (a : Nat) (b : Byte) (x : Nat) :
    Memory.read (Memory.write m a b) x = if x = a then some b else Memory.read m x := by
  unfold Memory.read Memory.write
  by_cases hd : Memory.dflt a = some b
  · rw [if_pos (by simpa using hd), Memory.find_erase h]
    by_cases hx : x = a
    · simp [hx, hd]
    · simp [hx]
  · rw [if_neg (by simpa using hd), Memory.find_insert h]
    by_cases hx : x = a <;> simp [hx]

/-- Bytes written at rising addresses are read back, and every byte outside them reads as before. -/
theorem Memory.read_writeAll {m : Memory} (h : Memory.wf m = true) (a : Nat) (bs : List Byte) (x : Nat) :
    Memory.read (Memory.writeAll m a bs) x = if a ≤ x ∧ x < a + bs.length then bs[x - a]? else Memory.read m x := by
  induction bs generalizing m a with
  | nil => simp [Memory.writeAll, show ¬ (a ≤ x ∧ x < a) by omega]
  | cons b bs ih =>
    rw [Memory.writeAll, ih (Memory.wf_write h a b), Memory.read_write h]
    by_cases hx : x = a
    · subst hx; rw [if_neg (by omega), if_pos rfl, if_pos (by simp)]; simp
    · by_cases h1 : a + 1 ≤ x ∧ x < a + 1 + bs.length
      · rw [if_pos h1, if_pos (by simp only [List.length_cons]; omega), show x - a = (x - (a + 1)) + 1 by omega,
          List.getElem?_cons_succ]
      · rw [if_neg h1, if_neg hx, if_neg (by simp only [List.length_cons]; omega)]

/-- Listed bytes of a dropped range are gone: the range reads as unlisted, and every other byte as before. -/
theorem Memory.read_dropRange {m : Memory} (h : Memory.wf m = true) (lo hi x : Nat) :
    Memory.read (m.dropRange lo hi) x = if lo ≤ x ∧ x < hi then Memory.dflt x else Memory.read m x := by
  have key : (m.dropRange lo hi).find x = if lo ≤ x ∧ x < hi then none else m.find x := by
    cases e : Memory.find (m.dropRange lo hi) x with
    | some v =>
      have hm := (Memory.find_eq_some (Memory.wf_dropRange h lo hi)).1 e
      simp only [Memory.dropRange, List.mem_filter, Bool.not_eq_true', Bool.and_eq_false_imp, decide_eq_true_eq,
        decide_eq_false_iff_not] at hm
      rw [if_neg (fun hc => hm.2 hc.1 hc.2), (Memory.find_eq_some h).2 hm.1]
    | none =>
      split
      · rfl
      · rename_i hn
        cases e' : Memory.find m x with
        | none => rfl
        | some v =>
          have hm : (x, v) ∈ m.dropRange lo hi := by
            simp only [Memory.dropRange, List.mem_filter, Bool.not_eq_true', Bool.and_eq_false_imp, decide_eq_true_eq,
              decide_eq_false_iff_not]
            exact ⟨(Memory.find_eq_some h).1 e', fun h1 h2 => hn ⟨h1, h2⟩⟩
          rw [(Memory.find_eq_some (Memory.wf_dropRange h lo hi)).2 hm] at e
          simp at e
  unfold Memory.read
  rw [key]
  by_cases hc : lo ≤ x ∧ x < hi <;> simp [hc]

end Sys2Proof.Machine
end

