-- ==== Sys2Proof/Laws/State.lean ====
section
/-! SUPPORT. What each update of a block and of the state leaves alone, field by field. -/

namespace Sys2Proof.Machine

/-! ## Advancing the program counter -/

@[simp] theorem Block.adv_phase (b : Block) (n : Nat) : (b.adv n).phase = b.phase := rfl
@[simp] theorem Block.adv_back (b : Block) (n : Nat) : (b.adv n).back = b.back := rfl
@[simp] theorem Block.adv_placeNo (b : Block) (n : Nat) : (b.adv n).placeNo = b.placeNo := rfl
@[simp] theorem Block.adv_id (b : Block) (n : Nat) : (b.adv n).id = b.id := rfl
@[simp] theorem Block.adv_core (b : Block) (n : Nat) : (b.adv n).core = b.core := rfl
@[simp] theorem Block.adv_half (b : Block) (n : Nat) : (b.adv n).half = b.half := rfl
@[simp] theorem Block.adv_world (b : Block) (n : Nat) : (b.adv n).world = b.world := rfl
@[simp] theorem Block.adv_fn (b : Block) (n : Nat) : (b.adv n).fn = b.fn := rfl
@[simp] theorem Block.adv_part (b : Block) (n : Nat) : (b.adv n).part = b.part := rfl
@[simp] theorem Block.adv_nsq (b : Block) (n : Nat) : (b.adv n).nsq = b.nsq := rfl
@[simp] theorem Block.adv_preempt (b : Block) (n : Nat) : (b.adv n).preempt = b.preempt := rfl
@[simp] theorem Block.adv_handler (b : Block) (n : Nat) : (b.adv n).handler = b.handler := rfl
@[simp] theorem Block.adv_wrap (b : Block) (n : Nat) : (b.adv n).wrap = b.wrap := rfl
@[simp] theorem Block.adv_s (b : Block) (n : Nat) : (b.adv n).s = b.s := rfl
@[simp] theorem Block.adv_p (b : Block) (n : Nat) : (b.adv n).p = b.p := rfl
@[simp] theorem Block.adv_h (b : Block) (n : Nat) : (b.adv n).h = b.h := rfl
@[simp] theorem Block.adv_d (b : Block) (n : Nat) : (b.adv n).d = b.d := rfl
@[simp] theorem Block.adv_q (b : Block) (n : Nat) : (b.adv n).q = b.q := rfl
@[simp] theorem Block.adv_g (b : Block) (n : Nat) : (b.adv n).g = b.g := rfl
@[simp] theorem Block.adv_c (b : Block) (n : Nat) : (b.adv n).c = b.c := rfl
@[simp] theorem Block.adv_w (b : Block) (n : Nat) : (b.adv n).w = b.w := rfl
@[simp] theorem Block.adv_bankTaint (b : Block) (n : Nat) : (b.adv n).bankTaint = b.bankTaint := rfl
@[simp] theorem Block.adv_bankSide (b : Block) (n : Nat) : (b.adv n).bankSide = b.bankSide := rfl
@[simp] theorem Block.adv_rm (b : Block) (n : Nat) : (b.adv n).rm = b.rm := rfl
@[simp] theorem Block.adv_fpstat (b : Block) (n : Nat) : (b.adv n).fpstat = b.fpstat := rfl
@[simp] theorem Block.adv_lfsr (b : Block) (n : Nat) : (b.adv n).lfsr = b.lfsr := rfl
@[simp] theorem Block.adv_blockId (b : Block) (n : Nat) : (b.adv n).blockId = b.blockId := rfl
@[simp] theorem Block.adv_gangDim (b : Block) (n : Nat) : (b.adv n).gangDim = b.gangDim := rfl
@[simp] theorem Block.adv_slip (b : Block) (n : Nat) : (b.adv n).slip = b.slip := rfl
@[simp] theorem Block.adv_trapVec (b : Block) (n : Nat) : (b.adv n).trapVec = b.trapVec := rfl
@[simp] theorem Block.adv_svcRing (b : Block) (n : Nat) : (b.adv n).svcRing = b.svcRing := rfl
@[simp] theorem Block.adv_svcCtr (b : Block) (n : Nat) : (b.adv n).svcCtr = b.svcCtr := rfl
@[simp] theorem Block.adv_deadMode (b : Block) (n : Nat) : (b.adv n).deadMode = b.deadMode := rfl
@[simp] theorem Block.adv_trapPc (b : Block) (n : Nat) : (b.adv n).trapPc = b.trapPc := rfl
@[simp] theorem Block.adv_trapCause (b : Block) (n : Nat) : (b.adv n).trapCause = b.trapCause := rfl
@[simp] theorem Block.adv_trapInfo (b : Block) (n : Nat) : (b.adv n).trapInfo = b.trapInfo := rfl
@[simp] theorem Block.adv_floor (b : Block) (n : Nat) : (b.adv n).floor = b.floor := rfl
@[simp] theorem Block.adv_pend (b : Block) (n : Nat) : (b.adv n).pend = b.pend := rfl
@[simp] theorem Block.adv_ctl (b : Block) (n : Nat) : (b.adv n).ctl = b.ctl := rfl
@[simp] theorem Block.adv_tags (b : Block) (n : Nat) : (b.adv n).tags = b.tags := rfl
@[simp] theorem Block.adv_nextLoad (b : Block) (n : Nat) : (b.adv n).nextLoad = b.nextLoad := rfl
@[simp] theorem Block.adv_loads (b : Block) (n : Nat) : (b.adv n).loads = b.loads := rfl
@[simp] theorem Block.adv_posted (b : Block) (n : Nat) : (b.adv n).posted = b.posted := rfl
@[simp] theorem Block.adv_fenced (b : Block) (n : Nat) : (b.adv n).fenced = b.fenced := rfl
@[simp] theorem Block.adv_eF (b : Block) (n : Nat) : (b.adv n).eF = b.eF := rfl
@[simp] theorem Block.adv_eV (b : Block) (n : Nat) : (b.adv n).eV = b.eV := rfl
@[simp] theorem Block.adv_eM (b : Block) (n : Nat) : (b.adv n).eM = b.eM := rfl
@[simp] theorem Block.adv_eP (b : Block) (n : Nat) : (b.adv n).eP = b.eP := rfl
@[simp] theorem Block.adv_dispN (b : Block) (n : Nat) : (b.adv n).dispN = b.dispN := rfl
@[simp] theorem Block.adv_frozen (b : Block) (n : Nat) : (b.adv n).frozen = b.frozen := rfl
@[simp] theorem Block.adv_faultNow (b : Block) (n : Nat) : (b.adv n).faultNow = b.faultNow := rfl
@[simp] theorem Block.adv_tok (b : Block) (n : Nat) : (b.adv n).tok = b.tok := rfl
@[simp] theorem Block.adv_owner (b : Block) (n : Nat) : (b.adv n).owner = b.owner := rfl
@[simp] theorem Block.adv_guarded (b : Block) (n : Nat) : (b.adv n).guarded = b.guarded := rfl
@[simp] theorem Block.adv_arrPend (b : Block) (n : Nat) : (b.adv n).arrPend = b.arrPend := rfl
@[simp] theorem Block.adv_arrPhase (b : Block) (n : Nat) : (b.adv n).arrPhase = b.arrPhase := rfl
@[simp] theorem Block.adv_subs (b : Block) (n : Nat) : (b.adv n).subs = b.subs := rfl
@[simp] theorem Block.adv_noted (b : Block) (n : Nat) : (b.adv n).noted = b.noted := rfl
@[simp] theorem Block.adv_monitor (b : Block) (n : Nat) : (b.adv n).monitor = b.monitor := rfl
@[simp] theorem Block.adv_code (b : Block) (n : Nat) : (b.adv n).code = b.code := rfl
@[simp] theorem Block.adv_codeDesc (b : Block) (n : Nat) : (b.adv n).codeDesc = b.codeDesc := rfl
@[simp] theorem Block.adv_codeRefresh (b : Block) (n : Nat) : (b.adv n).codeRefresh = b.codeRefresh := rfl
@[simp] theorem Block.adv_codeBuf (b : Block) (n : Nat) : (b.adv n).codeBuf = b.codeBuf := rfl
@[simp] theorem Block.adv_reply (b : Block) (n : Nat) : (b.adv n).reply = b.reply := rfl
@[simp] theorem Block.adv_endCause (b : Block) (n : Nat) : (b.adv n).endCause = b.endCause := rfl
@[simp] theorem Block.adv_endStatus (b : Block) (n : Nat) : (b.adv n).endStatus = b.endStatus := rfl
@[simp] theorem Block.adv_pc (b : Block) (n : Nat) : (b.adv n).pc = b.pc + b.len n := rfl
@[simp] theorem Block.adv_wait (b : Block) (n : Nat) : (b.adv n).wait = none := rfl

/-! ## Writing a scalar -/

@[simp] theorem wrS_phase (b : Block) (r : SReg) (v : DWord) (t : Taint) : (wrS b r v t).phase = b.phase := by unfold wrS; split <;> rfl
@[simp] theorem wrS_back (b : Block) (r : SReg) (v : DWord) (t : Taint) : (wrS b r v t).back = b.back := by unfold wrS; split <;> rfl
@[simp] theorem wrS_placeNo (b : Block) (r : SReg) (v : DWord) (t : Taint) : (wrS b r v t).placeNo = b.placeNo := by unfold wrS; split <;> rfl
@[simp] theorem wrS_id (b : Block) (r : SReg) (v : DWord) (t : Taint) : (wrS b r v t).id = b.id := by unfold wrS; split <;> rfl
@[simp] theorem wrS_core (b : Block) (r : SReg) (v : DWord) (t : Taint) : (wrS b r v t).core = b.core := by unfold wrS; split <;> rfl
@[simp] theorem wrS_half (b : Block) (r : SReg) (v : DWord) (t : Taint) : (wrS b r v t).half = b.half := by unfold wrS; split <;> rfl
@[simp] theorem wrS_world (b : Block) (r : SReg) (v : DWord) (t : Taint) : (wrS b r v t).world = b.world := by unfold wrS; split <;> rfl
@[simp] theorem wrS_fn (b : Block) (r : SReg) (v : DWord) (t : Taint) : (wrS b r v t).fn = b.fn := by unfold wrS; split <;> rfl
@[simp] theorem wrS_part (b : Block) (r : SReg) (v : DWord) (t : Taint) : (wrS b r v t).part = b.part := by unfold wrS; split <;> rfl
@[simp] theorem wrS_nsq (b : Block) (r : SReg) (v : DWord) (t : Taint) : (wrS b r v t).nsq = b.nsq := by unfold wrS; split <;> rfl
@[simp] theorem wrS_preempt (b : Block) (r : SReg) (v : DWord) (t : Taint) : (wrS b r v t).preempt = b.preempt := by unfold wrS; split <;> rfl
@[simp] theorem wrS_pc (b : Block) (r : SReg) (v : DWord) (t : Taint) : (wrS b r v t).pc = b.pc := by unfold wrS; split <;> rfl
@[simp] theorem wrS_handler (b : Block) (r : SReg) (v : DWord) (t : Taint) : (wrS b r v t).handler = b.handler := by unfold wrS; split <;> rfl
@[simp] theorem wrS_wait (b : Block) (r : SReg) (v : DWord) (t : Taint) : (wrS b r v t).wait = b.wait := by unfold wrS; split <;> rfl
@[simp] theorem wrS_wrap (b : Block) (r : SReg) (v : DWord) (t : Taint) : (wrS b r v t).wrap = b.wrap := by unfold wrS; split <;> rfl
@[simp] theorem wrS_p (b : Block) (r : SReg) (v : DWord) (t : Taint) : (wrS b r v t).p = b.p := by unfold wrS; split <;> rfl
@[simp] theorem wrS_h (b : Block) (r : SReg) (v : DWord) (t : Taint) : (wrS b r v t).h = b.h := by unfold wrS; split <;> rfl
@[simp] theorem wrS_d (b : Block) (r : SReg) (v : DWord) (t : Taint) : (wrS b r v t).d = b.d := by unfold wrS; split <;> rfl
@[simp] theorem wrS_q (b : Block) (r : SReg) (v : DWord) (t : Taint) : (wrS b r v t).q = b.q := by unfold wrS; split <;> rfl
@[simp] theorem wrS_g (b : Block) (r : SReg) (v : DWord) (t : Taint) : (wrS b r v t).g = b.g := by unfold wrS; split <;> rfl
@[simp] theorem wrS_c (b : Block) (r : SReg) (v : DWord) (t : Taint) : (wrS b r v t).c = b.c := by unfold wrS; split <;> rfl
@[simp] theorem wrS_w (b : Block) (r : SReg) (v : DWord) (t : Taint) : (wrS b r v t).w = b.w := by unfold wrS; split <;> rfl
@[simp] theorem wrS_bankTaint (b : Block) (r : SReg) (v : DWord) (t : Taint) : (wrS b r v t).bankTaint = b.bankTaint := by unfold wrS; split <;> rfl
@[simp] theorem wrS_bankSide (b : Block) (r : SReg) (v : DWord) (t : Taint) : (wrS b r v t).bankSide = b.bankSide := by unfold wrS; split <;> rfl
@[simp] theorem wrS_rm (b : Block) (r : SReg) (v : DWord) (t : Taint) : (wrS b r v t).rm = b.rm := by unfold wrS; split <;> rfl
@[simp] theorem wrS_fpstat (b : Block) (r : SReg) (v : DWord) (t : Taint) : (wrS b r v t).fpstat = b.fpstat := by unfold wrS; split <;> rfl
@[simp] theorem wrS_lfsr (b : Block) (r : SReg) (v : DWord) (t : Taint) : (wrS b r v t).lfsr = b.lfsr := by unfold wrS; split <;> rfl
@[simp] theorem wrS_blockId (b : Block) (r : SReg) (v : DWord) (t : Taint) : (wrS b r v t).blockId = b.blockId := by unfold wrS; split <;> rfl
@[simp] theorem wrS_gangDim (b : Block) (r : SReg) (v : DWord) (t : Taint) : (wrS b r v t).gangDim = b.gangDim := by unfold wrS; split <;> rfl
@[simp] theorem wrS_slip (b : Block) (r : SReg) (v : DWord) (t : Taint) : (wrS b r v t).slip = b.slip := by unfold wrS; split <;> rfl
@[simp] theorem wrS_trapVec (b : Block) (r : SReg) (v : DWord) (t : Taint) : (wrS b r v t).trapVec = b.trapVec := by unfold wrS; split <;> rfl
@[simp] theorem wrS_svcRing (b : Block) (r : SReg) (v : DWord) (t : Taint) : (wrS b r v t).svcRing = b.svcRing := by unfold wrS; split <;> rfl
@[simp] theorem wrS_svcCtr (b : Block) (r : SReg) (v : DWord) (t : Taint) : (wrS b r v t).svcCtr = b.svcCtr := by unfold wrS; split <;> rfl
@[simp] theorem wrS_deadMode (b : Block) (r : SReg) (v : DWord) (t : Taint) : (wrS b r v t).deadMode = b.deadMode := by unfold wrS; split <;> rfl
@[simp] theorem wrS_trapPc (b : Block) (r : SReg) (v : DWord) (t : Taint) : (wrS b r v t).trapPc = b.trapPc := by unfold wrS; split <;> rfl
@[simp] theorem wrS_trapCause (b : Block) (r : SReg) (v : DWord) (t : Taint) : (wrS b r v t).trapCause = b.trapCause := by unfold wrS; split <;> rfl
@[simp] theorem wrS_trapInfo (b : Block) (r : SReg) (v : DWord) (t : Taint) : (wrS b r v t).trapInfo = b.trapInfo := by unfold wrS; split <;> rfl
@[simp] theorem wrS_floor (b : Block) (r : SReg) (v : DWord) (t : Taint) : (wrS b r v t).floor = b.floor := by unfold wrS; split <;> rfl
@[simp] theorem wrS_pend (b : Block) (r : SReg) (v : DWord) (t : Taint) : (wrS b r v t).pend = b.pend := by unfold wrS; split <;> rfl
@[simp] theorem wrS_ctl (b : Block) (r : SReg) (v : DWord) (t : Taint) : (wrS b r v t).ctl = b.ctl := by unfold wrS; split <;> rfl
@[simp] theorem wrS_tags (b : Block) (r : SReg) (v : DWord) (t : Taint) : (wrS b r v t).tags = b.tags := by unfold wrS; split <;> rfl
@[simp] theorem wrS_nextLoad (b : Block) (r : SReg) (v : DWord) (t : Taint) : (wrS b r v t).nextLoad = b.nextLoad := by unfold wrS; split <;> rfl
@[simp] theorem wrS_loads (b : Block) (r : SReg) (v : DWord) (t : Taint) : (wrS b r v t).loads = b.loads := by unfold wrS; split <;> rfl
@[simp] theorem wrS_posted (b : Block) (r : SReg) (v : DWord) (t : Taint) : (wrS b r v t).posted = b.posted := by unfold wrS; split <;> rfl
@[simp] theorem wrS_fenced (b : Block) (r : SReg) (v : DWord) (t : Taint) : (wrS b r v t).fenced = b.fenced := by unfold wrS; split <;> rfl
@[simp] theorem wrS_eF (b : Block) (r : SReg) (v : DWord) (t : Taint) : (wrS b r v t).eF = b.eF := by unfold wrS; split <;> rfl
@[simp] theorem wrS_eV (b : Block) (r : SReg) (v : DWord) (t : Taint) : (wrS b r v t).eV = b.eV := by unfold wrS; split <;> rfl
@[simp] theorem wrS_eM (b : Block) (r : SReg) (v : DWord) (t : Taint) : (wrS b r v t).eM = b.eM := by unfold wrS; split <;> rfl
@[simp] theorem wrS_eP (b : Block) (r : SReg) (v : DWord) (t : Taint) : (wrS b r v t).eP = b.eP := by unfold wrS; split <;> rfl
@[simp] theorem wrS_dispN (b : Block) (r : SReg) (v : DWord) (t : Taint) : (wrS b r v t).dispN = b.dispN := by unfold wrS; split <;> rfl
@[simp] theorem wrS_frozen (b : Block) (r : SReg) (v : DWord) (t : Taint) : (wrS b r v t).frozen = b.frozen := by unfold wrS; split <;> rfl
@[simp] theorem wrS_faultNow (b : Block) (r : SReg) (v : DWord) (t : Taint) : (wrS b r v t).faultNow = b.faultNow := by unfold wrS; split <;> rfl
@[simp] theorem wrS_tok (b : Block) (r : SReg) (v : DWord) (t : Taint) : (wrS b r v t).tok = b.tok := by unfold wrS; split <;> rfl
@[simp] theorem wrS_owner (b : Block) (r : SReg) (v : DWord) (t : Taint) : (wrS b r v t).owner = b.owner := by unfold wrS; split <;> rfl
@[simp] theorem wrS_guarded (b : Block) (r : SReg) (v : DWord) (t : Taint) : (wrS b r v t).guarded = b.guarded := by unfold wrS; split <;> rfl
@[simp] theorem wrS_arrPend (b : Block) (r : SReg) (v : DWord) (t : Taint) : (wrS b r v t).arrPend = b.arrPend := by unfold wrS; split <;> rfl
@[simp] theorem wrS_arrPhase (b : Block) (r : SReg) (v : DWord) (t : Taint) : (wrS b r v t).arrPhase = b.arrPhase := by unfold wrS; split <;> rfl
@[simp] theorem wrS_subs (b : Block) (r : SReg) (v : DWord) (t : Taint) : (wrS b r v t).subs = b.subs := by unfold wrS; split <;> rfl
@[simp] theorem wrS_noted (b : Block) (r : SReg) (v : DWord) (t : Taint) : (wrS b r v t).noted = b.noted := by unfold wrS; split <;> rfl
@[simp] theorem wrS_monitor (b : Block) (r : SReg) (v : DWord) (t : Taint) : (wrS b r v t).monitor = b.monitor := by unfold wrS; split <;> rfl
@[simp] theorem wrS_code (b : Block) (r : SReg) (v : DWord) (t : Taint) : (wrS b r v t).code = b.code := by unfold wrS; split <;> rfl
@[simp] theorem wrS_codeDesc (b : Block) (r : SReg) (v : DWord) (t : Taint) : (wrS b r v t).codeDesc = b.codeDesc := by unfold wrS; split <;> rfl
@[simp] theorem wrS_codeRefresh (b : Block) (r : SReg) (v : DWord) (t : Taint) : (wrS b r v t).codeRefresh = b.codeRefresh := by unfold wrS; split <;> rfl
@[simp] theorem wrS_codeBuf (b : Block) (r : SReg) (v : DWord) (t : Taint) : (wrS b r v t).codeBuf = b.codeBuf := by unfold wrS; split <;> rfl
@[simp] theorem wrS_reply (b : Block) (r : SReg) (v : DWord) (t : Taint) : (wrS b r v t).reply = b.reply := by unfold wrS; split <;> rfl
@[simp] theorem wrS_endCause (b : Block) (r : SReg) (v : DWord) (t : Taint) : (wrS b r v t).endCause = b.endCause := by unfold wrS; split <;> rfl
@[simp] theorem wrS_endStatus (b : Block) (r : SReg) (v : DWord) (t : Taint) : (wrS b r v t).endStatus = b.endStatus := by unfold wrS; split <;> rfl

/-! ## Writing a predicate -/

@[simp] theorem wrP_phase (b : Block) (r : PReg) (v : BitVec 128) (t : Taint) : (wrP b r v t).phase = b.phase := by unfold wrP; split <;> rfl
@[simp] theorem wrP_back (b : Block) (r : PReg) (v : BitVec 128) (t : Taint) : (wrP b r v t).back = b.back := by unfold wrP; split <;> rfl
@[simp] theorem wrP_placeNo (b : Block) (r : PReg) (v : BitVec 128) (t : Taint) : (wrP b r v t).placeNo = b.placeNo := by unfold wrP; split <;> rfl
@[simp] theorem wrP_id (b : Block) (r : PReg) (v : BitVec 128) (t : Taint) : (wrP b r v t).id = b.id := by unfold wrP; split <;> rfl
@[simp] theorem wrP_core (b : Block) (r : PReg) (v : BitVec 128) (t : Taint) : (wrP b r v t).core = b.core := by unfold wrP; split <;> rfl
@[simp] theorem wrP_half (b : Block) (r : PReg) (v : BitVec 128) (t : Taint) : (wrP b r v t).half = b.half := by unfold wrP; split <;> rfl
@[simp] theorem wrP_world (b : Block) (r : PReg) (v : BitVec 128) (t : Taint) : (wrP b r v t).world = b.world := by unfold wrP; split <;> rfl
@[simp] theorem wrP_fn (b : Block) (r : PReg) (v : BitVec 128) (t : Taint) : (wrP b r v t).fn = b.fn := by unfold wrP; split <;> rfl
@[simp] theorem wrP_part (b : Block) (r : PReg) (v : BitVec 128) (t : Taint) : (wrP b r v t).part = b.part := by unfold wrP; split <;> rfl
@[simp] theorem wrP_nsq (b : Block) (r : PReg) (v : BitVec 128) (t : Taint) : (wrP b r v t).nsq = b.nsq := by unfold wrP; split <;> rfl
@[simp] theorem wrP_preempt (b : Block) (r : PReg) (v : BitVec 128) (t : Taint) : (wrP b r v t).preempt = b.preempt := by unfold wrP; split <;> rfl
@[simp] theorem wrP_pc (b : Block) (r : PReg) (v : BitVec 128) (t : Taint) : (wrP b r v t).pc = b.pc := by unfold wrP; split <;> rfl
@[simp] theorem wrP_handler (b : Block) (r : PReg) (v : BitVec 128) (t : Taint) : (wrP b r v t).handler = b.handler := by unfold wrP; split <;> rfl
@[simp] theorem wrP_wait (b : Block) (r : PReg) (v : BitVec 128) (t : Taint) : (wrP b r v t).wait = b.wait := by unfold wrP; split <;> rfl
@[simp] theorem wrP_wrap (b : Block) (r : PReg) (v : BitVec 128) (t : Taint) : (wrP b r v t).wrap = b.wrap := by unfold wrP; split <;> rfl
@[simp] theorem wrP_s (b : Block) (r : PReg) (v : BitVec 128) (t : Taint) : (wrP b r v t).s = b.s := by unfold wrP; split <;> rfl
@[simp] theorem wrP_h (b : Block) (r : PReg) (v : BitVec 128) (t : Taint) : (wrP b r v t).h = b.h := by unfold wrP; split <;> rfl
@[simp] theorem wrP_d (b : Block) (r : PReg) (v : BitVec 128) (t : Taint) : (wrP b r v t).d = b.d := by unfold wrP; split <;> rfl
@[simp] theorem wrP_q (b : Block) (r : PReg) (v : BitVec 128) (t : Taint) : (wrP b r v t).q = b.q := by unfold wrP; split <;> rfl
@[simp] theorem wrP_g (b : Block) (r : PReg) (v : BitVec 128) (t : Taint) : (wrP b r v t).g = b.g := by unfold wrP; split <;> rfl
@[simp] theorem wrP_c (b : Block) (r : PReg) (v : BitVec 128) (t : Taint) : (wrP b r v t).c = b.c := by unfold wrP; split <;> rfl
@[simp] theorem wrP_w (b : Block) (r : PReg) (v : BitVec 128) (t : Taint) : (wrP b r v t).w = b.w := by unfold wrP; split <;> rfl
@[simp] theorem wrP_bankTaint (b : Block) (r : PReg) (v : BitVec 128) (t : Taint) : (wrP b r v t).bankTaint = b.bankTaint := by unfold wrP; split <;> rfl
@[simp] theorem wrP_bankSide (b : Block) (r : PReg) (v : BitVec 128) (t : Taint) : (wrP b r v t).bankSide = b.bankSide := by unfold wrP; split <;> rfl
@[simp] theorem wrP_rm (b : Block) (r : PReg) (v : BitVec 128) (t : Taint) : (wrP b r v t).rm = b.rm := by unfold wrP; split <;> rfl
@[simp] theorem wrP_fpstat (b : Block) (r : PReg) (v : BitVec 128) (t : Taint) : (wrP b r v t).fpstat = b.fpstat := by unfold wrP; split <;> rfl
@[simp] theorem wrP_lfsr (b : Block) (r : PReg) (v : BitVec 128) (t : Taint) : (wrP b r v t).lfsr = b.lfsr := by unfold wrP; split <;> rfl
@[simp] theorem wrP_blockId (b : Block) (r : PReg) (v : BitVec 128) (t : Taint) : (wrP b r v t).blockId = b.blockId := by unfold wrP; split <;> rfl
@[simp] theorem wrP_gangDim (b : Block) (r : PReg) (v : BitVec 128) (t : Taint) : (wrP b r v t).gangDim = b.gangDim := by unfold wrP; split <;> rfl
@[simp] theorem wrP_slip (b : Block) (r : PReg) (v : BitVec 128) (t : Taint) : (wrP b r v t).slip = b.slip := by unfold wrP; split <;> rfl
@[simp] theorem wrP_trapVec (b : Block) (r : PReg) (v : BitVec 128) (t : Taint) : (wrP b r v t).trapVec = b.trapVec := by unfold wrP; split <;> rfl
@[simp] theorem wrP_svcRing (b : Block) (r : PReg) (v : BitVec 128) (t : Taint) : (wrP b r v t).svcRing = b.svcRing := by unfold wrP; split <;> rfl
@[simp] theorem wrP_svcCtr (b : Block) (r : PReg) (v : BitVec 128) (t : Taint) : (wrP b r v t).svcCtr = b.svcCtr := by unfold wrP; split <;> rfl
@[simp] theorem wrP_deadMode (b : Block) (r : PReg) (v : BitVec 128) (t : Taint) : (wrP b r v t).deadMode = b.deadMode := by unfold wrP; split <;> rfl
@[simp] theorem wrP_trapPc (b : Block) (r : PReg) (v : BitVec 128) (t : Taint) : (wrP b r v t).trapPc = b.trapPc := by unfold wrP; split <;> rfl
@[simp] theorem wrP_trapCause (b : Block) (r : PReg) (v : BitVec 128) (t : Taint) : (wrP b r v t).trapCause = b.trapCause := by unfold wrP; split <;> rfl
@[simp] theorem wrP_trapInfo (b : Block) (r : PReg) (v : BitVec 128) (t : Taint) : (wrP b r v t).trapInfo = b.trapInfo := by unfold wrP; split <;> rfl
@[simp] theorem wrP_floor (b : Block) (r : PReg) (v : BitVec 128) (t : Taint) : (wrP b r v t).floor = b.floor := by unfold wrP; split <;> rfl
@[simp] theorem wrP_pend (b : Block) (r : PReg) (v : BitVec 128) (t : Taint) : (wrP b r v t).pend = b.pend := by unfold wrP; split <;> rfl
@[simp] theorem wrP_ctl (b : Block) (r : PReg) (v : BitVec 128) (t : Taint) : (wrP b r v t).ctl = b.ctl := by unfold wrP; split <;> rfl
@[simp] theorem wrP_tags (b : Block) (r : PReg) (v : BitVec 128) (t : Taint) : (wrP b r v t).tags = b.tags := by unfold wrP; split <;> rfl
@[simp] theorem wrP_nextLoad (b : Block) (r : PReg) (v : BitVec 128) (t : Taint) : (wrP b r v t).nextLoad = b.nextLoad := by unfold wrP; split <;> rfl
@[simp] theorem wrP_loads (b : Block) (r : PReg) (v : BitVec 128) (t : Taint) : (wrP b r v t).loads = b.loads := by unfold wrP; split <;> rfl
@[simp] theorem wrP_posted (b : Block) (r : PReg) (v : BitVec 128) (t : Taint) : (wrP b r v t).posted = b.posted := by unfold wrP; split <;> rfl
@[simp] theorem wrP_fenced (b : Block) (r : PReg) (v : BitVec 128) (t : Taint) : (wrP b r v t).fenced = b.fenced := by unfold wrP; split <;> rfl
@[simp] theorem wrP_eF (b : Block) (r : PReg) (v : BitVec 128) (t : Taint) : (wrP b r v t).eF = b.eF := by unfold wrP; split <;> rfl
@[simp] theorem wrP_eV (b : Block) (r : PReg) (v : BitVec 128) (t : Taint) : (wrP b r v t).eV = b.eV := by unfold wrP; split <;> rfl
@[simp] theorem wrP_eM (b : Block) (r : PReg) (v : BitVec 128) (t : Taint) : (wrP b r v t).eM = b.eM := by unfold wrP; split <;> rfl
@[simp] theorem wrP_eP (b : Block) (r : PReg) (v : BitVec 128) (t : Taint) : (wrP b r v t).eP = b.eP := by unfold wrP; split <;> rfl
@[simp] theorem wrP_dispN (b : Block) (r : PReg) (v : BitVec 128) (t : Taint) : (wrP b r v t).dispN = b.dispN := by unfold wrP; split <;> rfl
@[simp] theorem wrP_frozen (b : Block) (r : PReg) (v : BitVec 128) (t : Taint) : (wrP b r v t).frozen = b.frozen := by unfold wrP; split <;> rfl
@[simp] theorem wrP_faultNow (b : Block) (r : PReg) (v : BitVec 128) (t : Taint) : (wrP b r v t).faultNow = b.faultNow := by unfold wrP; split <;> rfl
@[simp] theorem wrP_tok (b : Block) (r : PReg) (v : BitVec 128) (t : Taint) : (wrP b r v t).tok = b.tok := by unfold wrP; split <;> rfl
@[simp] theorem wrP_owner (b : Block) (r : PReg) (v : BitVec 128) (t : Taint) : (wrP b r v t).owner = b.owner := by unfold wrP; split <;> rfl
@[simp] theorem wrP_guarded (b : Block) (r : PReg) (v : BitVec 128) (t : Taint) : (wrP b r v t).guarded = b.guarded := by unfold wrP; split <;> rfl
@[simp] theorem wrP_arrPend (b : Block) (r : PReg) (v : BitVec 128) (t : Taint) : (wrP b r v t).arrPend = b.arrPend := by unfold wrP; split <;> rfl
@[simp] theorem wrP_arrPhase (b : Block) (r : PReg) (v : BitVec 128) (t : Taint) : (wrP b r v t).arrPhase = b.arrPhase := by unfold wrP; split <;> rfl
@[simp] theorem wrP_subs (b : Block) (r : PReg) (v : BitVec 128) (t : Taint) : (wrP b r v t).subs = b.subs := by unfold wrP; split <;> rfl
@[simp] theorem wrP_noted (b : Block) (r : PReg) (v : BitVec 128) (t : Taint) : (wrP b r v t).noted = b.noted := by unfold wrP; split <;> rfl
@[simp] theorem wrP_monitor (b : Block) (r : PReg) (v : BitVec 128) (t : Taint) : (wrP b r v t).monitor = b.monitor := by unfold wrP; split <;> rfl
@[simp] theorem wrP_code (b : Block) (r : PReg) (v : BitVec 128) (t : Taint) : (wrP b r v t).code = b.code := by unfold wrP; split <;> rfl
@[simp] theorem wrP_codeDesc (b : Block) (r : PReg) (v : BitVec 128) (t : Taint) : (wrP b r v t).codeDesc = b.codeDesc := by unfold wrP; split <;> rfl
@[simp] theorem wrP_codeRefresh (b : Block) (r : PReg) (v : BitVec 128) (t : Taint) : (wrP b r v t).codeRefresh = b.codeRefresh := by unfold wrP; split <;> rfl
@[simp] theorem wrP_codeBuf (b : Block) (r : PReg) (v : BitVec 128) (t : Taint) : (wrP b r v t).codeBuf = b.codeBuf := by unfold wrP; split <;> rfl
@[simp] theorem wrP_reply (b : Block) (r : PReg) (v : BitVec 128) (t : Taint) : (wrP b r v t).reply = b.reply := by unfold wrP; split <;> rfl
@[simp] theorem wrP_endCause (b : Block) (r : PReg) (v : BitVec 128) (t : Taint) : (wrP b r v t).endCause = b.endCause := by unfold wrP; split <;> rfl
@[simp] theorem wrP_endStatus (b : Block) (r : PReg) (v : BitVec 128) (t : Taint) : (wrP b r v t).endStatus = b.endStatus := by unfold wrP; split <;> rfl

/-! ## A handle register -/

@[simp] theorem Block.setH_phase (b : Block) (h : BitVec 4) (c : HCell) : (b.setH h c).phase = b.phase := rfl
@[simp] theorem Block.setH_back (b : Block) (h : BitVec 4) (c : HCell) : (b.setH h c).back = b.back := rfl
@[simp] theorem Block.setH_placeNo (b : Block) (h : BitVec 4) (c : HCell) : (b.setH h c).placeNo = b.placeNo := rfl
@[simp] theorem Block.setH_id (b : Block) (h : BitVec 4) (c : HCell) : (b.setH h c).id = b.id := rfl
@[simp] theorem Block.setH_core (b : Block) (h : BitVec 4) (c : HCell) : (b.setH h c).core = b.core := rfl
@[simp] theorem Block.setH_half (b : Block) (h : BitVec 4) (c : HCell) : (b.setH h c).half = b.half := rfl
@[simp] theorem Block.setH_world (b : Block) (h : BitVec 4) (c : HCell) : (b.setH h c).world = b.world := rfl
@[simp] theorem Block.setH_fn (b : Block) (h : BitVec 4) (c : HCell) : (b.setH h c).fn = b.fn := rfl
@[simp] theorem Block.setH_part (b : Block) (h : BitVec 4) (c : HCell) : (b.setH h c).part = b.part := rfl
@[simp] theorem Block.setH_nsq (b : Block) (h : BitVec 4) (c : HCell) : (b.setH h c).nsq = b.nsq := rfl
@[simp] theorem Block.setH_preempt (b : Block) (h : BitVec 4) (c : HCell) : (b.setH h c).preempt = b.preempt := rfl
@[simp] theorem Block.setH_pc (b : Block) (h : BitVec 4) (c : HCell) : (b.setH h c).pc = b.pc := rfl
@[simp] theorem Block.setH_handler (b : Block) (h : BitVec 4) (c : HCell) : (b.setH h c).handler = b.handler := rfl
@[simp] theorem Block.setH_wait (b : Block) (h : BitVec 4) (c : HCell) : (b.setH h c).wait = b.wait := rfl
@[simp] theorem Block.setH_wrap (b : Block) (h : BitVec 4) (c : HCell) : (b.setH h c).wrap = b.wrap := rfl
@[simp] theorem Block.setH_s (b : Block) (h : BitVec 4) (c : HCell) : (b.setH h c).s = b.s := rfl
@[simp] theorem Block.setH_p (b : Block) (h : BitVec 4) (c : HCell) : (b.setH h c).p = b.p := rfl
@[simp] theorem Block.setH_d (b : Block) (h : BitVec 4) (c : HCell) : (b.setH h c).d = b.d := rfl
@[simp] theorem Block.setH_q (b : Block) (h : BitVec 4) (c : HCell) : (b.setH h c).q = b.q := rfl
@[simp] theorem Block.setH_g (b : Block) (h : BitVec 4) (c : HCell) : (b.setH h c).g = b.g := rfl
@[simp] theorem Block.setH_c (b : Block) (h : BitVec 4) (c : HCell) : (b.setH h c).c = b.c := rfl
@[simp] theorem Block.setH_w (b : Block) (h : BitVec 4) (c : HCell) : (b.setH h c).w = b.w := rfl
@[simp] theorem Block.setH_bankTaint (b : Block) (h : BitVec 4) (c : HCell) : (b.setH h c).bankTaint = b.bankTaint := rfl
@[simp] theorem Block.setH_bankSide (b : Block) (h : BitVec 4) (c : HCell) : (b.setH h c).bankSide = b.bankSide := rfl
@[simp] theorem Block.setH_rm (b : Block) (h : BitVec 4) (c : HCell) : (b.setH h c).rm = b.rm := rfl
@[simp] theorem Block.setH_fpstat (b : Block) (h : BitVec 4) (c : HCell) : (b.setH h c).fpstat = b.fpstat := rfl
@[simp] theorem Block.setH_lfsr (b : Block) (h : BitVec 4) (c : HCell) : (b.setH h c).lfsr = b.lfsr := rfl
@[simp] theorem Block.setH_blockId (b : Block) (h : BitVec 4) (c : HCell) : (b.setH h c).blockId = b.blockId := rfl
@[simp] theorem Block.setH_gangDim (b : Block) (h : BitVec 4) (c : HCell) : (b.setH h c).gangDim = b.gangDim := rfl
@[simp] theorem Block.setH_slip (b : Block) (h : BitVec 4) (c : HCell) : (b.setH h c).slip = b.slip := rfl
@[simp] theorem Block.setH_trapVec (b : Block) (h : BitVec 4) (c : HCell) : (b.setH h c).trapVec = b.trapVec := rfl
@[simp] theorem Block.setH_svcRing (b : Block) (h : BitVec 4) (c : HCell) : (b.setH h c).svcRing = b.svcRing := rfl
@[simp] theorem Block.setH_svcCtr (b : Block) (h : BitVec 4) (c : HCell) : (b.setH h c).svcCtr = b.svcCtr := rfl
@[simp] theorem Block.setH_deadMode (b : Block) (h : BitVec 4) (c : HCell) : (b.setH h c).deadMode = b.deadMode := rfl
@[simp] theorem Block.setH_trapPc (b : Block) (h : BitVec 4) (c : HCell) : (b.setH h c).trapPc = b.trapPc := rfl
@[simp] theorem Block.setH_trapCause (b : Block) (h : BitVec 4) (c : HCell) : (b.setH h c).trapCause = b.trapCause := rfl
@[simp] theorem Block.setH_trapInfo (b : Block) (h : BitVec 4) (c : HCell) : (b.setH h c).trapInfo = b.trapInfo := rfl
@[simp] theorem Block.setH_floor (b : Block) (h : BitVec 4) (c : HCell) : (b.setH h c).floor = b.floor := rfl
@[simp] theorem Block.setH_pend (b : Block) (h : BitVec 4) (c : HCell) : (b.setH h c).pend = b.pend := rfl
@[simp] theorem Block.setH_ctl (b : Block) (h : BitVec 4) (c : HCell) : (b.setH h c).ctl = b.ctl := rfl
@[simp] theorem Block.setH_tags (b : Block) (h : BitVec 4) (c : HCell) : (b.setH h c).tags = b.tags := rfl
@[simp] theorem Block.setH_nextLoad (b : Block) (h : BitVec 4) (c : HCell) : (b.setH h c).nextLoad = b.nextLoad := rfl
@[simp] theorem Block.setH_loads (b : Block) (h : BitVec 4) (c : HCell) : (b.setH h c).loads = b.loads := rfl
@[simp] theorem Block.setH_posted (b : Block) (h : BitVec 4) (c : HCell) : (b.setH h c).posted = b.posted := rfl
@[simp] theorem Block.setH_fenced (b : Block) (h : BitVec 4) (c : HCell) : (b.setH h c).fenced = b.fenced := rfl
@[simp] theorem Block.setH_eF (b : Block) (h : BitVec 4) (c : HCell) : (b.setH h c).eF = b.eF := rfl
@[simp] theorem Block.setH_eV (b : Block) (h : BitVec 4) (c : HCell) : (b.setH h c).eV = b.eV := rfl
@[simp] theorem Block.setH_eM (b : Block) (h : BitVec 4) (c : HCell) : (b.setH h c).eM = b.eM := rfl
@[simp] theorem Block.setH_eP (b : Block) (h : BitVec 4) (c : HCell) : (b.setH h c).eP = b.eP := rfl
@[simp] theorem Block.setH_dispN (b : Block) (h : BitVec 4) (c : HCell) : (b.setH h c).dispN = b.dispN := rfl
@[simp] theorem Block.setH_frozen (b : Block) (h : BitVec 4) (c : HCell) : (b.setH h c).frozen = b.frozen := rfl
@[simp] theorem Block.setH_faultNow (b : Block) (h : BitVec 4) (c : HCell) : (b.setH h c).faultNow = b.faultNow := rfl
@[simp] theorem Block.setH_tok (b : Block) (h : BitVec 4) (c : HCell) : (b.setH h c).tok = b.tok := rfl
@[simp] theorem Block.setH_owner (b : Block) (h : BitVec 4) (c : HCell) : (b.setH h c).owner = b.owner := rfl
@[simp] theorem Block.setH_guarded (b : Block) (h : BitVec 4) (c : HCell) : (b.setH h c).guarded = b.guarded := rfl
@[simp] theorem Block.setH_arrPend (b : Block) (h : BitVec 4) (c : HCell) : (b.setH h c).arrPend = b.arrPend := rfl
@[simp] theorem Block.setH_arrPhase (b : Block) (h : BitVec 4) (c : HCell) : (b.setH h c).arrPhase = b.arrPhase := rfl
@[simp] theorem Block.setH_subs (b : Block) (h : BitVec 4) (c : HCell) : (b.setH h c).subs = b.subs := rfl
@[simp] theorem Block.setH_noted (b : Block) (h : BitVec 4) (c : HCell) : (b.setH h c).noted = b.noted := rfl
@[simp] theorem Block.setH_monitor (b : Block) (h : BitVec 4) (c : HCell) : (b.setH h c).monitor = b.monitor := rfl
@[simp] theorem Block.setH_code (b : Block) (h : BitVec 4) (c : HCell) : (b.setH h c).code = b.code := rfl
@[simp] theorem Block.setH_codeDesc (b : Block) (h : BitVec 4) (c : HCell) : (b.setH h c).codeDesc = b.codeDesc := rfl
@[simp] theorem Block.setH_codeRefresh (b : Block) (h : BitVec 4) (c : HCell) : (b.setH h c).codeRefresh = b.codeRefresh := rfl
@[simp] theorem Block.setH_codeBuf (b : Block) (h : BitVec 4) (c : HCell) : (b.setH h c).codeBuf = b.codeBuf := rfl
@[simp] theorem Block.setH_reply (b : Block) (h : BitVec 4) (c : HCell) : (b.setH h c).reply = b.reply := rfl
@[simp] theorem Block.setH_endCause (b : Block) (h : BitVec 4) (c : HCell) : (b.setH h c).endCause = b.endCause := rfl
@[simp] theorem Block.setH_endStatus (b : Block) (h : BitVec 4) (c : HCell) : (b.setH h c).endStatus = b.endStatus := rfl

/-! ## A step binding -/

@[simp] theorem Block.setG_phase (b : Block) (g : BitVec 3) (c : GCell) : (b.setG g c).phase = b.phase := rfl
@[simp] theorem Block.setG_back (b : Block) (g : BitVec 3) (c : GCell) : (b.setG g c).back = b.back := rfl
@[simp] theorem Block.setG_placeNo (b : Block) (g : BitVec 3) (c : GCell) : (b.setG g c).placeNo = b.placeNo := rfl
@[simp] theorem Block.setG_id (b : Block) (g : BitVec 3) (c : GCell) : (b.setG g c).id = b.id := rfl
@[simp] theorem Block.setG_core (b : Block) (g : BitVec 3) (c : GCell) : (b.setG g c).core = b.core := rfl
@[simp] theorem Block.setG_half (b : Block) (g : BitVec 3) (c : GCell) : (b.setG g c).half = b.half := rfl
@[simp] theorem Block.setG_world (b : Block) (g : BitVec 3) (c : GCell) : (b.setG g c).world = b.world := rfl
@[simp] theorem Block.setG_fn (b : Block) (g : BitVec 3) (c : GCell) : (b.setG g c).fn = b.fn := rfl
@[simp] theorem Block.setG_part (b : Block) (g : BitVec 3) (c : GCell) : (b.setG g c).part = b.part := rfl
@[simp] theorem Block.setG_nsq (b : Block) (g : BitVec 3) (c : GCell) : (b.setG g c).nsq = b.nsq := rfl
@[simp] theorem Block.setG_preempt (b : Block) (g : BitVec 3) (c : GCell) : (b.setG g c).preempt = b.preempt := rfl
@[simp] theorem Block.setG_pc (b : Block) (g : BitVec 3) (c : GCell) : (b.setG g c).pc = b.pc := rfl
@[simp] theorem Block.setG_handler (b : Block) (g : BitVec 3) (c : GCell) : (b.setG g c).handler = b.handler := rfl
@[simp] theorem Block.setG_wait (b : Block) (g : BitVec 3) (c : GCell) : (b.setG g c).wait = b.wait := rfl
@[simp] theorem Block.setG_wrap (b : Block) (g : BitVec 3) (c : GCell) : (b.setG g c).wrap = b.wrap := rfl
@[simp] theorem Block.setG_s (b : Block) (g : BitVec 3) (c : GCell) : (b.setG g c).s = b.s := rfl
@[simp] theorem Block.setG_p (b : Block) (g : BitVec 3) (c : GCell) : (b.setG g c).p = b.p := rfl
@[simp] theorem Block.setG_h (b : Block) (g : BitVec 3) (c : GCell) : (b.setG g c).h = b.h := rfl
@[simp] theorem Block.setG_d (b : Block) (g : BitVec 3) (c : GCell) : (b.setG g c).d = b.d := rfl
@[simp] theorem Block.setG_q (b : Block) (g : BitVec 3) (c : GCell) : (b.setG g c).q = b.q := rfl
@[simp] theorem Block.setG_c (b : Block) (g : BitVec 3) (c : GCell) : (b.setG g c).c = b.c := rfl
@[simp] theorem Block.setG_w (b : Block) (g : BitVec 3) (c : GCell) : (b.setG g c).w = b.w := rfl
@[simp] theorem Block.setG_bankTaint (b : Block) (g : BitVec 3) (c : GCell) : (b.setG g c).bankTaint = b.bankTaint := rfl
@[simp] theorem Block.setG_bankSide (b : Block) (g : BitVec 3) (c : GCell) : (b.setG g c).bankSide = b.bankSide := rfl
@[simp] theorem Block.setG_rm (b : Block) (g : BitVec 3) (c : GCell) : (b.setG g c).rm = b.rm := rfl
@[simp] theorem Block.setG_fpstat (b : Block) (g : BitVec 3) (c : GCell) : (b.setG g c).fpstat = b.fpstat := rfl
@[simp] theorem Block.setG_lfsr (b : Block) (g : BitVec 3) (c : GCell) : (b.setG g c).lfsr = b.lfsr := rfl
@[simp] theorem Block.setG_blockId (b : Block) (g : BitVec 3) (c : GCell) : (b.setG g c).blockId = b.blockId := rfl
@[simp] theorem Block.setG_gangDim (b : Block) (g : BitVec 3) (c : GCell) : (b.setG g c).gangDim = b.gangDim := rfl
@[simp] theorem Block.setG_slip (b : Block) (g : BitVec 3) (c : GCell) : (b.setG g c).slip = b.slip := rfl
@[simp] theorem Block.setG_trapVec (b : Block) (g : BitVec 3) (c : GCell) : (b.setG g c).trapVec = b.trapVec := rfl
@[simp] theorem Block.setG_svcRing (b : Block) (g : BitVec 3) (c : GCell) : (b.setG g c).svcRing = b.svcRing := rfl
@[simp] theorem Block.setG_svcCtr (b : Block) (g : BitVec 3) (c : GCell) : (b.setG g c).svcCtr = b.svcCtr := rfl
@[simp] theorem Block.setG_deadMode (b : Block) (g : BitVec 3) (c : GCell) : (b.setG g c).deadMode = b.deadMode := rfl
@[simp] theorem Block.setG_trapPc (b : Block) (g : BitVec 3) (c : GCell) : (b.setG g c).trapPc = b.trapPc := rfl
@[simp] theorem Block.setG_trapCause (b : Block) (g : BitVec 3) (c : GCell) : (b.setG g c).trapCause = b.trapCause := rfl
@[simp] theorem Block.setG_trapInfo (b : Block) (g : BitVec 3) (c : GCell) : (b.setG g c).trapInfo = b.trapInfo := rfl
@[simp] theorem Block.setG_floor (b : Block) (g : BitVec 3) (c : GCell) : (b.setG g c).floor = b.floor := rfl
@[simp] theorem Block.setG_pend (b : Block) (g : BitVec 3) (c : GCell) : (b.setG g c).pend = b.pend := rfl
@[simp] theorem Block.setG_ctl (b : Block) (g : BitVec 3) (c : GCell) : (b.setG g c).ctl = b.ctl := rfl
@[simp] theorem Block.setG_tags (b : Block) (g : BitVec 3) (c : GCell) : (b.setG g c).tags = b.tags := rfl
@[simp] theorem Block.setG_nextLoad (b : Block) (g : BitVec 3) (c : GCell) : (b.setG g c).nextLoad = b.nextLoad := rfl
@[simp] theorem Block.setG_loads (b : Block) (g : BitVec 3) (c : GCell) : (b.setG g c).loads = b.loads := rfl
@[simp] theorem Block.setG_posted (b : Block) (g : BitVec 3) (c : GCell) : (b.setG g c).posted = b.posted := rfl
@[simp] theorem Block.setG_fenced (b : Block) (g : BitVec 3) (c : GCell) : (b.setG g c).fenced = b.fenced := rfl
@[simp] theorem Block.setG_eF (b : Block) (g : BitVec 3) (c : GCell) : (b.setG g c).eF = b.eF := rfl
@[simp] theorem Block.setG_eV (b : Block) (g : BitVec 3) (c : GCell) : (b.setG g c).eV = b.eV := rfl
@[simp] theorem Block.setG_eM (b : Block) (g : BitVec 3) (c : GCell) : (b.setG g c).eM = b.eM := rfl
@[simp] theorem Block.setG_eP (b : Block) (g : BitVec 3) (c : GCell) : (b.setG g c).eP = b.eP := rfl
@[simp] theorem Block.setG_dispN (b : Block) (g : BitVec 3) (c : GCell) : (b.setG g c).dispN = b.dispN := rfl
@[simp] theorem Block.setG_frozen (b : Block) (g : BitVec 3) (c : GCell) : (b.setG g c).frozen = b.frozen := rfl
@[simp] theorem Block.setG_faultNow (b : Block) (g : BitVec 3) (c : GCell) : (b.setG g c).faultNow = b.faultNow := rfl
@[simp] theorem Block.setG_tok (b : Block) (g : BitVec 3) (c : GCell) : (b.setG g c).tok = b.tok := rfl
@[simp] theorem Block.setG_owner (b : Block) (g : BitVec 3) (c : GCell) : (b.setG g c).owner = b.owner := rfl
@[simp] theorem Block.setG_guarded (b : Block) (g : BitVec 3) (c : GCell) : (b.setG g c).guarded = b.guarded := rfl
@[simp] theorem Block.setG_arrPend (b : Block) (g : BitVec 3) (c : GCell) : (b.setG g c).arrPend = b.arrPend := rfl
@[simp] theorem Block.setG_arrPhase (b : Block) (g : BitVec 3) (c : GCell) : (b.setG g c).arrPhase = b.arrPhase := rfl
@[simp] theorem Block.setG_subs (b : Block) (g : BitVec 3) (c : GCell) : (b.setG g c).subs = b.subs := rfl
@[simp] theorem Block.setG_noted (b : Block) (g : BitVec 3) (c : GCell) : (b.setG g c).noted = b.noted := rfl
@[simp] theorem Block.setG_monitor (b : Block) (g : BitVec 3) (c : GCell) : (b.setG g c).monitor = b.monitor := rfl
@[simp] theorem Block.setG_code (b : Block) (g : BitVec 3) (c : GCell) : (b.setG g c).code = b.code := rfl
@[simp] theorem Block.setG_codeDesc (b : Block) (g : BitVec 3) (c : GCell) : (b.setG g c).codeDesc = b.codeDesc := rfl
@[simp] theorem Block.setG_codeRefresh (b : Block) (g : BitVec 3) (c : GCell) : (b.setG g c).codeRefresh = b.codeRefresh := rfl
@[simp] theorem Block.setG_codeBuf (b : Block) (g : BitVec 3) (c : GCell) : (b.setG g c).codeBuf = b.codeBuf := rfl
@[simp] theorem Block.setG_reply (b : Block) (g : BitVec 3) (c : GCell) : (b.setG g c).reply = b.reply := rfl
@[simp] theorem Block.setG_endCause (b : Block) (g : BitVec 3) (c : GCell) : (b.setG g c).endCause = b.endCause := rfl
@[simp] theorem Block.setG_endStatus (b : Block) (g : BitVec 3) (c : GCell) : (b.setG g c).endStatus = b.endStatus := rfl

/-! ## A token -/

@[simp] theorem Block.setToken_phase (b : Block) (k : BitVec 4) (t : Token) : (b.setToken k t).phase = b.phase := rfl
@[simp] theorem Block.setToken_back (b : Block) (k : BitVec 4) (t : Token) : (b.setToken k t).back = b.back := rfl
@[simp] theorem Block.setToken_placeNo (b : Block) (k : BitVec 4) (t : Token) : (b.setToken k t).placeNo = b.placeNo := rfl
@[simp] theorem Block.setToken_id (b : Block) (k : BitVec 4) (t : Token) : (b.setToken k t).id = b.id := rfl
@[simp] theorem Block.setToken_core (b : Block) (k : BitVec 4) (t : Token) : (b.setToken k t).core = b.core := rfl
@[simp] theorem Block.setToken_half (b : Block) (k : BitVec 4) (t : Token) : (b.setToken k t).half = b.half := rfl
@[simp] theorem Block.setToken_world (b : Block) (k : BitVec 4) (t : Token) : (b.setToken k t).world = b.world := rfl
@[simp] theorem Block.setToken_fn (b : Block) (k : BitVec 4) (t : Token) : (b.setToken k t).fn = b.fn := rfl
@[simp] theorem Block.setToken_part (b : Block) (k : BitVec 4) (t : Token) : (b.setToken k t).part = b.part := rfl
@[simp] theorem Block.setToken_nsq (b : Block) (k : BitVec 4) (t : Token) : (b.setToken k t).nsq = b.nsq := rfl
@[simp] theorem Block.setToken_preempt (b : Block) (k : BitVec 4) (t : Token) : (b.setToken k t).preempt = b.preempt := rfl
@[simp] theorem Block.setToken_pc (b : Block) (k : BitVec 4) (t : Token) : (b.setToken k t).pc = b.pc := rfl
@[simp] theorem Block.setToken_handler (b : Block) (k : BitVec 4) (t : Token) : (b.setToken k t).handler = b.handler := rfl
@[simp] theorem Block.setToken_wait (b : Block) (k : BitVec 4) (t : Token) : (b.setToken k t).wait = b.wait := rfl
@[simp] theorem Block.setToken_wrap (b : Block) (k : BitVec 4) (t : Token) : (b.setToken k t).wrap = b.wrap := rfl
@[simp] theorem Block.setToken_s (b : Block) (k : BitVec 4) (t : Token) : (b.setToken k t).s = b.s := rfl
@[simp] theorem Block.setToken_p (b : Block) (k : BitVec 4) (t : Token) : (b.setToken k t).p = b.p := rfl
@[simp] theorem Block.setToken_h (b : Block) (k : BitVec 4) (t : Token) : (b.setToken k t).h = b.h := rfl
@[simp] theorem Block.setToken_d (b : Block) (k : BitVec 4) (t : Token) : (b.setToken k t).d = b.d := rfl
@[simp] theorem Block.setToken_q (b : Block) (k : BitVec 4) (t : Token) : (b.setToken k t).q = b.q := rfl
@[simp] theorem Block.setToken_g (b : Block) (k : BitVec 4) (t : Token) : (b.setToken k t).g = b.g := rfl
@[simp] theorem Block.setToken_c (b : Block) (k : BitVec 4) (t : Token) : (b.setToken k t).c = b.c := rfl
@[simp] theorem Block.setToken_w (b : Block) (k : BitVec 4) (t : Token) : (b.setToken k t).w = b.w := rfl
@[simp] theorem Block.setToken_bankTaint (b : Block) (k : BitVec 4) (t : Token) : (b.setToken k t).bankTaint = b.bankTaint := rfl
@[simp] theorem Block.setToken_bankSide (b : Block) (k : BitVec 4) (t : Token) : (b.setToken k t).bankSide = b.bankSide := rfl
@[simp] theorem Block.setToken_rm (b : Block) (k : BitVec 4) (t : Token) : (b.setToken k t).rm = b.rm := rfl
@[simp] theorem Block.setToken_fpstat (b : Block) (k : BitVec 4) (t : Token) : (b.setToken k t).fpstat = b.fpstat := rfl
@[simp] theorem Block.setToken_lfsr (b : Block) (k : BitVec 4) (t : Token) : (b.setToken k t).lfsr = b.lfsr := rfl
@[simp] theorem Block.setToken_blockId (b : Block) (k : BitVec 4) (t : Token) : (b.setToken k t).blockId = b.blockId := rfl
@[simp] theorem Block.setToken_gangDim (b : Block) (k : BitVec 4) (t : Token) : (b.setToken k t).gangDim = b.gangDim := rfl
@[simp] theorem Block.setToken_slip (b : Block) (k : BitVec 4) (t : Token) : (b.setToken k t).slip = b.slip := rfl
@[simp] theorem Block.setToken_trapVec (b : Block) (k : BitVec 4) (t : Token) : (b.setToken k t).trapVec = b.trapVec := rfl
@[simp] theorem Block.setToken_svcRing (b : Block) (k : BitVec 4) (t : Token) : (b.setToken k t).svcRing = b.svcRing := rfl
@[simp] theorem Block.setToken_svcCtr (b : Block) (k : BitVec 4) (t : Token) : (b.setToken k t).svcCtr = b.svcCtr := rfl
@[simp] theorem Block.setToken_deadMode (b : Block) (k : BitVec 4) (t : Token) : (b.setToken k t).deadMode = b.deadMode := rfl
@[simp] theorem Block.setToken_trapPc (b : Block) (k : BitVec 4) (t : Token) : (b.setToken k t).trapPc = b.trapPc := rfl
@[simp] theorem Block.setToken_trapCause (b : Block) (k : BitVec 4) (t : Token) : (b.setToken k t).trapCause = b.trapCause := rfl
@[simp] theorem Block.setToken_trapInfo (b : Block) (k : BitVec 4) (t : Token) : (b.setToken k t).trapInfo = b.trapInfo := rfl
@[simp] theorem Block.setToken_floor (b : Block) (k : BitVec 4) (t : Token) : (b.setToken k t).floor = b.floor := rfl
@[simp] theorem Block.setToken_pend (b : Block) (k : BitVec 4) (t : Token) : (b.setToken k t).pend = b.pend := rfl
@[simp] theorem Block.setToken_ctl (b : Block) (k : BitVec 4) (t : Token) : (b.setToken k t).ctl = b.ctl := rfl
@[simp] theorem Block.setToken_tags (b : Block) (k : BitVec 4) (t : Token) : (b.setToken k t).tags = b.tags := rfl
@[simp] theorem Block.setToken_nextLoad (b : Block) (k : BitVec 4) (t : Token) : (b.setToken k t).nextLoad = b.nextLoad := rfl
@[simp] theorem Block.setToken_loads (b : Block) (k : BitVec 4) (t : Token) : (b.setToken k t).loads = b.loads := rfl
@[simp] theorem Block.setToken_posted (b : Block) (k : BitVec 4) (t : Token) : (b.setToken k t).posted = b.posted := rfl
@[simp] theorem Block.setToken_fenced (b : Block) (k : BitVec 4) (t : Token) : (b.setToken k t).fenced = b.fenced := rfl
@[simp] theorem Block.setToken_eF (b : Block) (k : BitVec 4) (t : Token) : (b.setToken k t).eF = b.eF := rfl
@[simp] theorem Block.setToken_eV (b : Block) (k : BitVec 4) (t : Token) : (b.setToken k t).eV = b.eV := rfl
@[simp] theorem Block.setToken_eM (b : Block) (k : BitVec 4) (t : Token) : (b.setToken k t).eM = b.eM := rfl
@[simp] theorem Block.setToken_eP (b : Block) (k : BitVec 4) (t : Token) : (b.setToken k t).eP = b.eP := rfl
@[simp] theorem Block.setToken_dispN (b : Block) (k : BitVec 4) (t : Token) : (b.setToken k t).dispN = b.dispN := rfl
@[simp] theorem Block.setToken_frozen (b : Block) (k : BitVec 4) (t : Token) : (b.setToken k t).frozen = b.frozen := rfl
@[simp] theorem Block.setToken_faultNow (b : Block) (k : BitVec 4) (t : Token) : (b.setToken k t).faultNow = b.faultNow := rfl
@[simp] theorem Block.setToken_owner (b : Block) (k : BitVec 4) (t : Token) : (b.setToken k t).owner = b.owner := rfl
@[simp] theorem Block.setToken_guarded (b : Block) (k : BitVec 4) (t : Token) : (b.setToken k t).guarded = b.guarded := rfl
@[simp] theorem Block.setToken_arrPend (b : Block) (k : BitVec 4) (t : Token) : (b.setToken k t).arrPend = b.arrPend := rfl
@[simp] theorem Block.setToken_arrPhase (b : Block) (k : BitVec 4) (t : Token) : (b.setToken k t).arrPhase = b.arrPhase := rfl
@[simp] theorem Block.setToken_subs (b : Block) (k : BitVec 4) (t : Token) : (b.setToken k t).subs = b.subs := rfl
@[simp] theorem Block.setToken_noted (b : Block) (k : BitVec 4) (t : Token) : (b.setToken k t).noted = b.noted := rfl
@[simp] theorem Block.setToken_monitor (b : Block) (k : BitVec 4) (t : Token) : (b.setToken k t).monitor = b.monitor := rfl
@[simp] theorem Block.setToken_code (b : Block) (k : BitVec 4) (t : Token) : (b.setToken k t).code = b.code := rfl
@[simp] theorem Block.setToken_codeDesc (b : Block) (k : BitVec 4) (t : Token) : (b.setToken k t).codeDesc = b.codeDesc := rfl
@[simp] theorem Block.setToken_codeRefresh (b : Block) (k : BitVec 4) (t : Token) : (b.setToken k t).codeRefresh = b.codeRefresh := rfl
@[simp] theorem Block.setToken_codeBuf (b : Block) (k : BitVec 4) (t : Token) : (b.setToken k t).codeBuf = b.codeBuf := rfl
@[simp] theorem Block.setToken_reply (b : Block) (k : BitVec 4) (t : Token) : (b.setToken k t).reply = b.reply := rfl
@[simp] theorem Block.setToken_endCause (b : Block) (k : BitVec 4) (t : Token) : (b.setToken k t).endCause = b.endCause := rfl
@[simp] theorem Block.setToken_endStatus (b : Block) (k : BitVec 4) (t : Token) : (b.setToken k t).endStatus = b.endStatus := rfl

/-! ## An engine -/

@[simp] theorem Block.setEng_phase (b : Block) (e : Engine) (q : EngineQ) : (b.setEng e q).phase = b.phase := by cases e <;> rfl
@[simp] theorem Block.setEng_back (b : Block) (e : Engine) (q : EngineQ) : (b.setEng e q).back = b.back := by cases e <;> rfl
@[simp] theorem Block.setEng_placeNo (b : Block) (e : Engine) (q : EngineQ) : (b.setEng e q).placeNo = b.placeNo := by cases e <;> rfl
@[simp] theorem Block.setEng_id (b : Block) (e : Engine) (q : EngineQ) : (b.setEng e q).id = b.id := by cases e <;> rfl
@[simp] theorem Block.setEng_core (b : Block) (e : Engine) (q : EngineQ) : (b.setEng e q).core = b.core := by cases e <;> rfl
@[simp] theorem Block.setEng_half (b : Block) (e : Engine) (q : EngineQ) : (b.setEng e q).half = b.half := by cases e <;> rfl
@[simp] theorem Block.setEng_world (b : Block) (e : Engine) (q : EngineQ) : (b.setEng e q).world = b.world := by cases e <;> rfl
@[simp] theorem Block.setEng_fn (b : Block) (e : Engine) (q : EngineQ) : (b.setEng e q).fn = b.fn := by cases e <;> rfl
@[simp] theorem Block.setEng_part (b : Block) (e : Engine) (q : EngineQ) : (b.setEng e q).part = b.part := by cases e <;> rfl
@[simp] theorem Block.setEng_nsq (b : Block) (e : Engine) (q : EngineQ) : (b.setEng e q).nsq = b.nsq := by cases e <;> rfl
@[simp] theorem Block.setEng_preempt (b : Block) (e : Engine) (q : EngineQ) : (b.setEng e q).preempt = b.preempt := by cases e <;> rfl
@[simp] theorem Block.setEng_pc (b : Block) (e : Engine) (q : EngineQ) : (b.setEng e q).pc = b.pc := by cases e <;> rfl
@[simp] theorem Block.setEng_handler (b : Block) (e : Engine) (q : EngineQ) : (b.setEng e q).handler = b.handler := by cases e <;> rfl
@[simp] theorem Block.setEng_wait (b : Block) (e : Engine) (q : EngineQ) : (b.setEng e q).wait = b.wait := by cases e <;> rfl
@[simp] theorem Block.setEng_wrap (b : Block) (e : Engine) (q : EngineQ) : (b.setEng e q).wrap = b.wrap := by cases e <;> rfl
@[simp] theorem Block.setEng_s (b : Block) (e : Engine) (q : EngineQ) : (b.setEng e q).s = b.s := by cases e <;> rfl
@[simp] theorem Block.setEng_p (b : Block) (e : Engine) (q : EngineQ) : (b.setEng e q).p = b.p := by cases e <;> rfl
@[simp] theorem Block.setEng_h (b : Block) (e : Engine) (q : EngineQ) : (b.setEng e q).h = b.h := by cases e <;> rfl
@[simp] theorem Block.setEng_d (b : Block) (e : Engine) (q : EngineQ) : (b.setEng e q).d = b.d := by cases e <;> rfl
@[simp] theorem Block.setEng_q (b : Block) (e : Engine) (q : EngineQ) : (b.setEng e q).q = b.q := by cases e <;> rfl
@[simp] theorem Block.setEng_g (b : Block) (e : Engine) (q : EngineQ) : (b.setEng e q).g = b.g := by cases e <;> rfl
@[simp] theorem Block.setEng_c (b : Block) (e : Engine) (q : EngineQ) : (b.setEng e q).c = b.c := by cases e <;> rfl
@[simp] theorem Block.setEng_w (b : Block) (e : Engine) (q : EngineQ) : (b.setEng e q).w = b.w := by cases e <;> rfl
@[simp] theorem Block.setEng_bankTaint (b : Block) (e : Engine) (q : EngineQ) : (b.setEng e q).bankTaint = b.bankTaint := by cases e <;> rfl
@[simp] theorem Block.setEng_bankSide (b : Block) (e : Engine) (q : EngineQ) : (b.setEng e q).bankSide = b.bankSide := by cases e <;> rfl
@[simp] theorem Block.setEng_rm (b : Block) (e : Engine) (q : EngineQ) : (b.setEng e q).rm = b.rm := by cases e <;> rfl
@[simp] theorem Block.setEng_fpstat (b : Block) (e : Engine) (q : EngineQ) : (b.setEng e q).fpstat = b.fpstat := by cases e <;> rfl
@[simp] theorem Block.setEng_lfsr (b : Block) (e : Engine) (q : EngineQ) : (b.setEng e q).lfsr = b.lfsr := by cases e <;> rfl
@[simp] theorem Block.setEng_blockId (b : Block) (e : Engine) (q : EngineQ) : (b.setEng e q).blockId = b.blockId := by cases e <;> rfl
@[simp] theorem Block.setEng_gangDim (b : Block) (e : Engine) (q : EngineQ) : (b.setEng e q).gangDim = b.gangDim := by cases e <;> rfl
@[simp] theorem Block.setEng_slip (b : Block) (e : Engine) (q : EngineQ) : (b.setEng e q).slip = b.slip := by cases e <;> rfl
@[simp] theorem Block.setEng_trapVec (b : Block) (e : Engine) (q : EngineQ) : (b.setEng e q).trapVec = b.trapVec := by cases e <;> rfl
@[simp] theorem Block.setEng_svcRing (b : Block) (e : Engine) (q : EngineQ) : (b.setEng e q).svcRing = b.svcRing := by cases e <;> rfl
@[simp] theorem Block.setEng_svcCtr (b : Block) (e : Engine) (q : EngineQ) : (b.setEng e q).svcCtr = b.svcCtr := by cases e <;> rfl
@[simp] theorem Block.setEng_deadMode (b : Block) (e : Engine) (q : EngineQ) : (b.setEng e q).deadMode = b.deadMode := by cases e <;> rfl
@[simp] theorem Block.setEng_trapPc (b : Block) (e : Engine) (q : EngineQ) : (b.setEng e q).trapPc = b.trapPc := by cases e <;> rfl
@[simp] theorem Block.setEng_trapCause (b : Block) (e : Engine) (q : EngineQ) : (b.setEng e q).trapCause = b.trapCause := by cases e <;> rfl
@[simp] theorem Block.setEng_trapInfo (b : Block) (e : Engine) (q : EngineQ) : (b.setEng e q).trapInfo = b.trapInfo := by cases e <;> rfl
@[simp] theorem Block.setEng_floor (b : Block) (e : Engine) (q : EngineQ) : (b.setEng e q).floor = b.floor := by cases e <;> rfl
@[simp] theorem Block.setEng_pend (b : Block) (e : Engine) (q : EngineQ) : (b.setEng e q).pend = b.pend := by cases e <;> rfl
@[simp] theorem Block.setEng_ctl (b : Block) (e : Engine) (q : EngineQ) : (b.setEng e q).ctl = b.ctl := by cases e <;> rfl
@[simp] theorem Block.setEng_tags (b : Block) (e : Engine) (q : EngineQ) : (b.setEng e q).tags = b.tags := by cases e <;> rfl
@[simp] theorem Block.setEng_nextLoad (b : Block) (e : Engine) (q : EngineQ) : (b.setEng e q).nextLoad = b.nextLoad := by cases e <;> rfl
@[simp] theorem Block.setEng_loads (b : Block) (e : Engine) (q : EngineQ) : (b.setEng e q).loads = b.loads := by cases e <;> rfl
@[simp] theorem Block.setEng_posted (b : Block) (e : Engine) (q : EngineQ) : (b.setEng e q).posted = b.posted := by cases e <;> rfl
@[simp] theorem Block.setEng_fenced (b : Block) (e : Engine) (q : EngineQ) : (b.setEng e q).fenced = b.fenced := by cases e <;> rfl
@[simp] theorem Block.setEng_dispN (b : Block) (e : Engine) (q : EngineQ) : (b.setEng e q).dispN = b.dispN := by cases e <;> rfl
@[simp] theorem Block.setEng_frozen (b : Block) (e : Engine) (q : EngineQ) : (b.setEng e q).frozen = b.frozen := by cases e <;> rfl
@[simp] theorem Block.setEng_faultNow (b : Block) (e : Engine) (q : EngineQ) : (b.setEng e q).faultNow = b.faultNow := by cases e <;> rfl
@[simp] theorem Block.setEng_tok (b : Block) (e : Engine) (q : EngineQ) : (b.setEng e q).tok = b.tok := by cases e <;> rfl
@[simp] theorem Block.setEng_owner (b : Block) (e : Engine) (q : EngineQ) : (b.setEng e q).owner = b.owner := by cases e <;> rfl
@[simp] theorem Block.setEng_guarded (b : Block) (e : Engine) (q : EngineQ) : (b.setEng e q).guarded = b.guarded := by cases e <;> rfl
@[simp] theorem Block.setEng_arrPend (b : Block) (e : Engine) (q : EngineQ) : (b.setEng e q).arrPend = b.arrPend := by cases e <;> rfl
@[simp] theorem Block.setEng_arrPhase (b : Block) (e : Engine) (q : EngineQ) : (b.setEng e q).arrPhase = b.arrPhase := by cases e <;> rfl
@[simp] theorem Block.setEng_subs (b : Block) (e : Engine) (q : EngineQ) : (b.setEng e q).subs = b.subs := by cases e <;> rfl
@[simp] theorem Block.setEng_noted (b : Block) (e : Engine) (q : EngineQ) : (b.setEng e q).noted = b.noted := by cases e <;> rfl
@[simp] theorem Block.setEng_monitor (b : Block) (e : Engine) (q : EngineQ) : (b.setEng e q).monitor = b.monitor := by cases e <;> rfl
@[simp] theorem Block.setEng_code (b : Block) (e : Engine) (q : EngineQ) : (b.setEng e q).code = b.code := by cases e <;> rfl
@[simp] theorem Block.setEng_codeDesc (b : Block) (e : Engine) (q : EngineQ) : (b.setEng e q).codeDesc = b.codeDesc := by cases e <;> rfl
@[simp] theorem Block.setEng_codeRefresh (b : Block) (e : Engine) (q : EngineQ) : (b.setEng e q).codeRefresh = b.codeRefresh := by cases e <;> rfl
@[simp] theorem Block.setEng_codeBuf (b : Block) (e : Engine) (q : EngineQ) : (b.setEng e q).codeBuf = b.codeBuf := by cases e <;> rfl
@[simp] theorem Block.setEng_reply (b : Block) (e : Engine) (q : EngineQ) : (b.setEng e q).reply = b.reply := by cases e <;> rfl
@[simp] theorem Block.setEng_endCause (b : Block) (e : Engine) (q : EngineQ) : (b.setEng e q).endCause = b.endCause := by cases e <;> rfl
@[simp] theorem Block.setEng_endStatus (b : Block) (e : Engine) (q : EngineQ) : (b.setEng e q).endStatus = b.endStatus := by cases e <;> rfl
@[simp] theorem Block.setEng_eng (b : Block) (e : Engine) (q : EngineQ) : (b.setEng e q).eng e = q := by cases e <;> rfl
theorem Block.setEng_eng_ne (b : Block) {e f : Engine} (q : EngineQ) (h : f ≠ e) : (b.setEng e q).eng f = b.eng f := by
  cases e <;> cases f <;> first | rfl | exact absurd rfl h

/-! ## A partition's counters -/

@[simp] theorem setPart_blk (s : State) (part : BitVec 4) (p : Part) : (setPart s part p).blk = s.blk := rfl
@[simp] theorem setPart_others (s : State) (part : BitVec 4) (p : Part) : (setPart s part p).others = s.others := rfl
@[simp] theorem setPart_agenda (s : State) (part : BitVec 4) (p : Part) : (setPart s part p).agenda = s.agenda := rfl
@[simp] theorem setPart_beat (s : State) (part : BitVec 4) (p : Part) : (setPart s part p).beat = s.beat := rfl
@[simp] theorem setPart_fresh (s : State) (part : BitVec 4) (p : Part) : (setPart s part p).fresh = s.fresh := rfl
@[simp] theorem setPart_mem (s : State) (part : BitVec 4) (p : Part) : (setPart s part p).mem = s.mem := rfl
@[simp] theorem setPart_empties (s : State) (part : BitVec 4) (p : Part) : (setPart s part p).empties = s.empties := rfl
@[simp] theorem setPart_feWait (s : State) (part : BitVec 4) (p : Part) : (setPart s part p).feWait = s.feWait := rfl
@[simp] theorem setPart_tb (s : State) (part : BitVec 4) (p : Part) : (setPart s part p).tb = s.tb := rfl
@[simp] theorem setPart_dp (s : State) (part : BitVec 4) (p : Part) : (setPart s part p).dp = s.dp := rfl
@[simp] theorem setPart_wo (s : State) (part : BitVec 4) (p : Part) : (setPart s part p).wo = s.wo := rfl
@[simp] theorem setPart_ho (s : State) (part : BitVec 4) (p : Part) : (setPart s part p).ho = s.ho := rfl
@[simp] theorem setPart_pe (s : State) (part : BitVec 4) (p : Part) : (setPart s part p).pe = s.pe := rfl
@[simp] theorem setPart_pl (s : State) (part : BitVec 4) (p : Part) : (setPart s part p).pl = s.pl := rfl

/-! ## A partition's switching state -/

@[simp] theorem setSwitch_blk (s : State) (part : BitVec 4) (p : Switch) : (setSwitch s part p).blk = s.blk := rfl
@[simp] theorem setSwitch_others (s : State) (part : BitVec 4) (p : Switch) : (setSwitch s part p).others = s.others := rfl
@[simp] theorem setSwitch_agenda (s : State) (part : BitVec 4) (p : Switch) : (setSwitch s part p).agenda = s.agenda := rfl
@[simp] theorem setSwitch_beat (s : State) (part : BitVec 4) (p : Switch) : (setSwitch s part p).beat = s.beat := rfl
@[simp] theorem setSwitch_fresh (s : State) (part : BitVec 4) (p : Switch) : (setSwitch s part p).fresh = s.fresh := rfl
@[simp] theorem setSwitch_mem (s : State) (part : BitVec 4) (p : Switch) : (setSwitch s part p).mem = s.mem := rfl
@[simp] theorem setSwitch_empties (s : State) (part : BitVec 4) (p : Switch) : (setSwitch s part p).empties = s.empties := rfl
@[simp] theorem setSwitch_feWait (s : State) (part : BitVec 4) (p : Switch) : (setSwitch s part p).feWait = s.feWait := rfl
@[simp] theorem setSwitch_tb (s : State) (part : BitVec 4) (p : Switch) : (setSwitch s part p).tb = s.tb := rfl
@[simp] theorem setSwitch_dp (s : State) (part : BitVec 4) (p : Switch) : (setSwitch s part p).dp = s.dp := rfl
@[simp] theorem setSwitch_tm (s : State) (part : BitVec 4) (p : Switch) : (setSwitch s part p).tm = s.tm := rfl
@[simp] theorem setSwitch_ho (s : State) (part : BitVec 4) (p : Switch) : (setSwitch s part p).ho = s.ho := rfl
@[simp] theorem setSwitch_pe (s : State) (part : BitVec 4) (p : Switch) : (setSwitch s part p).pe = s.pe := rfl
@[simp] theorem setSwitch_pl (s : State) (part : BitVec 4) (p : Switch) : (setSwitch s part p).pl = s.pl := rfl

/-! ## A hub-resident word -/

@[simp] theorem setHub_blk (s : State) (t e w : Nat) (v : DWord) : (setHub s t e w v).blk = s.blk := rfl
@[simp] theorem setHub_others (s : State) (t e w : Nat) (v : DWord) : (setHub s t e w v).others = s.others := rfl
@[simp] theorem setHub_agenda (s : State) (t e w : Nat) (v : DWord) : (setHub s t e w v).agenda = s.agenda := rfl
@[simp] theorem setHub_beat (s : State) (t e w : Nat) (v : DWord) : (setHub s t e w v).beat = s.beat := rfl
@[simp] theorem setHub_fresh (s : State) (t e w : Nat) (v : DWord) : (setHub s t e w v).fresh = s.fresh := rfl
@[simp] theorem setHub_mem (s : State) (t e w : Nat) (v : DWord) : (setHub s t e w v).mem = s.mem := rfl
@[simp] theorem setHub_empties (s : State) (t e w : Nat) (v : DWord) : (setHub s t e w v).empties = s.empties := rfl
@[simp] theorem setHub_feWait (s : State) (t e w : Nat) (v : DWord) : (setHub s t e w v).feWait = s.feWait := rfl
@[simp] theorem setHub_dp (s : State) (t e w : Nat) (v : DWord) : (setHub s t e w v).dp = s.dp := rfl
@[simp] theorem setHub_tm (s : State) (t e w : Nat) (v : DWord) : (setHub s t e w v).tm = s.tm := rfl
@[simp] theorem setHub_wo (s : State) (t e w : Nat) (v : DWord) : (setHub s t e w v).wo = s.wo := rfl
@[simp] theorem setHub_ho (s : State) (t e w : Nat) (v : DWord) : (setHub s t e w v).ho = s.ho := rfl
@[simp] theorem setHub_pe (s : State) (t e w : Nat) (v : DWord) : (setHub s t e w v).pe = s.pe := rfl
@[simp] theorem setHub_pl (s : State) (t e w : Nat) (v : DWord) : (setHub s t e w v).pl = s.pl := rfl

/-! ## A full/empty bit -/

@[simp] theorem setFull_blk (s : State) (a : Nat) (full : Bool) : (setFull s a full).blk = s.blk := rfl
@[simp] theorem setFull_others (s : State) (a : Nat) (full : Bool) : (setFull s a full).others = s.others := rfl
@[simp] theorem setFull_agenda (s : State) (a : Nat) (full : Bool) : (setFull s a full).agenda = s.agenda := rfl
@[simp] theorem setFull_beat (s : State) (a : Nat) (full : Bool) : (setFull s a full).beat = s.beat := rfl
@[simp] theorem setFull_fresh (s : State) (a : Nat) (full : Bool) : (setFull s a full).fresh = s.fresh := rfl
@[simp] theorem setFull_mem (s : State) (a : Nat) (full : Bool) : (setFull s a full).mem = s.mem := rfl
@[simp] theorem setFull_feWait (s : State) (a : Nat) (full : Bool) : (setFull s a full).feWait = s.feWait := rfl
@[simp] theorem setFull_tb (s : State) (a : Nat) (full : Bool) : (setFull s a full).tb = s.tb := rfl
@[simp] theorem setFull_dp (s : State) (a : Nat) (full : Bool) : (setFull s a full).dp = s.dp := rfl
@[simp] theorem setFull_tm (s : State) (a : Nat) (full : Bool) : (setFull s a full).tm = s.tm := rfl
@[simp] theorem setFull_wo (s : State) (a : Nat) (full : Bool) : (setFull s a full).wo = s.wo := rfl
@[simp] theorem setFull_ho (s : State) (a : Nat) (full : Bool) : (setFull s a full).ho = s.ho := rfl
@[simp] theorem setFull_pe (s : State) (a : Nat) (full : Bool) : (setFull s a full).pe = s.pe := rfl
@[simp] theorem setFull_pl (s : State) (a : Nat) (full : Bool) : (setFull s a full).pl = s.pl := rfl

/-! ## A row of the accumulators -/

@[simp] theorem wrRow_blk (s : State) (r : WReg) (bs : List Byte) : (wrRow s r bs).blk = s.blk := rfl
@[simp] theorem wrRow_others (s : State) (r : WReg) (bs : List Byte) : (wrRow s r bs).others = s.others := rfl
@[simp] theorem wrRow_agenda (s : State) (r : WReg) (bs : List Byte) : (wrRow s r bs).agenda = s.agenda := rfl
@[simp] theorem wrRow_beat (s : State) (r : WReg) (bs : List Byte) : (wrRow s r bs).beat = s.beat := rfl
@[simp] theorem wrRow_fresh (s : State) (r : WReg) (bs : List Byte) : (wrRow s r bs).fresh = s.fresh := rfl
@[simp] theorem wrRow_empties (s : State) (r : WReg) (bs : List Byte) : (wrRow s r bs).empties = s.empties := rfl
@[simp] theorem wrRow_feWait (s : State) (r : WReg) (bs : List Byte) : (wrRow s r bs).feWait = s.feWait := rfl
@[simp] theorem wrRow_tb (s : State) (r : WReg) (bs : List Byte) : (wrRow s r bs).tb = s.tb := rfl
@[simp] theorem wrRow_dp (s : State) (r : WReg) (bs : List Byte) : (wrRow s r bs).dp = s.dp := rfl
@[simp] theorem wrRow_tm (s : State) (r : WReg) (bs : List Byte) : (wrRow s r bs).tm = s.tm := rfl
@[simp] theorem wrRow_wo (s : State) (r : WReg) (bs : List Byte) : (wrRow s r bs).wo = s.wo := rfl
@[simp] theorem wrRow_ho (s : State) (r : WReg) (bs : List Byte) : (wrRow s r bs).ho = s.ho := rfl
@[simp] theorem wrRow_pe (s : State) (r : WReg) (bs : List Byte) : (wrRow s r bs).pe = s.pe := rfl
@[simp] theorem wrRow_pl (s : State) (r : WReg) (bs : List Byte) : (wrRow s r bs).pl = s.pl := rfl

/-! ## The posted stores performed -/

@[simp] theorem performStores_others (s : State) : (performStores s).others = s.others := rfl
@[simp] theorem performStores_agenda (s : State) : (performStores s).agenda = s.agenda := rfl
@[simp] theorem performStores_beat (s : State) : (performStores s).beat = s.beat := rfl
@[simp] theorem performStores_fresh (s : State) : (performStores s).fresh = s.fresh := rfl
@[simp] theorem performStores_empties (s : State) : (performStores s).empties = s.empties := rfl
@[simp] theorem performStores_feWait (s : State) : (performStores s).feWait = s.feWait := rfl
@[simp] theorem performStores_tb (s : State) : (performStores s).tb = s.tb := rfl
@[simp] theorem performStores_dp (s : State) : (performStores s).dp = s.dp := rfl
@[simp] theorem performStores_tm (s : State) : (performStores s).tm = s.tm := rfl
@[simp] theorem performStores_wo (s : State) : (performStores s).wo = s.wo := rfl
@[simp] theorem performStores_ho (s : State) : (performStores s).ho = s.ho := rfl
@[simp] theorem performStores_pe (s : State) : (performStores s).pe = s.pe := rfl
@[simp] theorem performStores_pl (s : State) : (performStores s).pl = s.pl := rfl

/-! ## Sending changes the peers' side alone -/

theorem foldl_sendOn_pe (port pkg op : Nat) (h off : DWord) (f : List Byte → List Byte) (bodies : List (List Byte)) (s : State) :
    bodies.foldl (fun s b => sendOn s port pkg op 0 h off (f b)) s =
      { s with pe := (bodies.foldl (fun s b => sendOn s port pkg op 0 h off (f b)) s).pe } := by
  induction bodies generalizing s with
  | nil => rfl
  | cons b bs ih => simp only [List.foldl_cons]; exact ih _

theorem sendParts_pe {s t : State} {pkg op off : Nat} {h : DWord} {desc : Option DWord} {bodies : List (List Byte)} {r : Remote}
    (e : sendParts s pkg op h off desc bodies = some (r, t)) : t = { s with pe := t.pe } := by
  unfold sendParts at e
  dsimp only at e
  split at e
  · exact absurd e (by simp)
  · simp only [Option.some.injEq, Prod.mk.injEq] at e
    obtain ⟨-, rfl⟩ := e
    exact foldl_sendOn_pe _ _ _ _ _ _ _ _

theorem tell_pe (s : State) (pkg : Nat) (h : DWord) (body : List Byte) : tell s pkg h body = { s with pe := (tell s pkg h body).pe } := by
  unfold tell sendRequest
  split
  · exact sendParts_pe ‹_›
  · rfl

/-! ## A message to another package -/

@[simp] theorem tell_blk (s : State) (pkg : Nat) (h : DWord) (body : List Byte) : (tell s pkg h body).blk = s.blk := by rw [tell_pe]
@[simp] theorem tell_others (s : State) (pkg : Nat) (h : DWord) (body : List Byte) : (tell s pkg h body).others = s.others := by rw [tell_pe]
@[simp] theorem tell_agenda (s : State) (pkg : Nat) (h : DWord) (body : List Byte) : (tell s pkg h body).agenda = s.agenda := by rw [tell_pe]
@[simp] theorem tell_beat (s : State) (pkg : Nat) (h : DWord) (body : List Byte) : (tell s pkg h body).beat = s.beat := by rw [tell_pe]
@[simp] theorem tell_fresh (s : State) (pkg : Nat) (h : DWord) (body : List Byte) : (tell s pkg h body).fresh = s.fresh := by rw [tell_pe]
@[simp] theorem tell_mem (s : State) (pkg : Nat) (h : DWord) (body : List Byte) : (tell s pkg h body).mem = s.mem := by rw [tell_pe]
@[simp] theorem tell_empties (s : State) (pkg : Nat) (h : DWord) (body : List Byte) : (tell s pkg h body).empties = s.empties := by rw [tell_pe]
@[simp] theorem tell_feWait (s : State) (pkg : Nat) (h : DWord) (body : List Byte) : (tell s pkg h body).feWait = s.feWait := by rw [tell_pe]
@[simp] theorem tell_tb (s : State) (pkg : Nat) (h : DWord) (body : List Byte) : (tell s pkg h body).tb = s.tb := by rw [tell_pe]
@[simp] theorem tell_dp (s : State) (pkg : Nat) (h : DWord) (body : List Byte) : (tell s pkg h body).dp = s.dp := by rw [tell_pe]
@[simp] theorem tell_tm (s : State) (pkg : Nat) (h : DWord) (body : List Byte) : (tell s pkg h body).tm = s.tm := by rw [tell_pe]
@[simp] theorem tell_wo (s : State) (pkg : Nat) (h : DWord) (body : List Byte) : (tell s pkg h body).wo = s.wo := by rw [tell_pe]
@[simp] theorem tell_ho (s : State) (pkg : Nat) (h : DWord) (body : List Byte) : (tell s pkg h body).ho = s.ho := by rw [tell_pe]
@[simp] theorem tell_pl (s : State) (pkg : Nat) (h : DWord) (body : List Byte) : (tell s pkg h body).pl = s.pl := by rw [tell_pe]

/-! ## A wait abandoned -/

@[simp] theorem abandonWait_blk (s : State) (id : BId) : (abandonWait s id).blk = s.blk := by unfold abandonWait withdrawAway; dsimp only; split <;> simp
@[simp] theorem abandonWait_others (s : State) (id : BId) : (abandonWait s id).others = s.others := by unfold abandonWait withdrawAway; dsimp only; split <;> simp
@[simp] theorem abandonWait_agenda (s : State) (id : BId) : (abandonWait s id).agenda = s.agenda := by unfold abandonWait withdrawAway; dsimp only; split <;> simp
@[simp] theorem abandonWait_beat (s : State) (id : BId) : (abandonWait s id).beat = s.beat := by unfold abandonWait withdrawAway; dsimp only; split <;> simp
@[simp] theorem abandonWait_fresh (s : State) (id : BId) : (abandonWait s id).fresh = s.fresh := by unfold abandonWait withdrawAway; dsimp only; split <;> simp
@[simp] theorem abandonWait_mem (s : State) (id : BId) : (abandonWait s id).mem = s.mem := by unfold abandonWait withdrawAway; dsimp only; split <;> simp
@[simp] theorem abandonWait_empties (s : State) (id : BId) : (abandonWait s id).empties = s.empties := by unfold abandonWait withdrawAway; dsimp only; split <;> simp
@[simp] theorem abandonWait_dp (s : State) (id : BId) : (abandonWait s id).dp = s.dp := by unfold abandonWait withdrawAway; dsimp only; split <;> simp
@[simp] theorem abandonWait_tm (s : State) (id : BId) : (abandonWait s id).tm = s.tm := by unfold abandonWait withdrawAway; dsimp only; split <;> simp
@[simp] theorem abandonWait_wo (s : State) (id : BId) : (abandonWait s id).wo = s.wo := by unfold abandonWait withdrawAway; dsimp only; split <;> simp
@[simp] theorem abandonWait_ho (s : State) (id : BId) : (abandonWait s id).ho = s.ho := by unfold abandonWait withdrawAway; dsimp only; split <;> simp
@[simp] theorem abandonWait_pl (s : State) (id : BId) : (abandonWait s id).pl = s.pl := by unfold abandonWait withdrawAway; dsimp only; split <;> simp

/-! ## A launch updated -/

@[simp] theorem updLaunch_blk (s : State) (slot : Nat) (f : Launch → Launch) : (updLaunch s slot f).blk = s.blk := rfl
@[simp] theorem updLaunch_others (s : State) (slot : Nat) (f : Launch → Launch) : (updLaunch s slot f).others = s.others := rfl
@[simp] theorem updLaunch_agenda (s : State) (slot : Nat) (f : Launch → Launch) : (updLaunch s slot f).agenda = s.agenda := rfl
@[simp] theorem updLaunch_beat (s : State) (slot : Nat) (f : Launch → Launch) : (updLaunch s slot f).beat = s.beat := rfl
@[simp] theorem updLaunch_fresh (s : State) (slot : Nat) (f : Launch → Launch) : (updLaunch s slot f).fresh = s.fresh := rfl
@[simp] theorem updLaunch_mem (s : State) (slot : Nat) (f : Launch → Launch) : (updLaunch s slot f).mem = s.mem := rfl
@[simp] theorem updLaunch_empties (s : State) (slot : Nat) (f : Launch → Launch) : (updLaunch s slot f).empties = s.empties := rfl
@[simp] theorem updLaunch_feWait (s : State) (slot : Nat) (f : Launch → Launch) : (updLaunch s slot f).feWait = s.feWait := rfl
@[simp] theorem updLaunch_tb (s : State) (slot : Nat) (f : Launch → Launch) : (updLaunch s slot f).tb = s.tb := rfl
@[simp] theorem updLaunch_tm (s : State) (slot : Nat) (f : Launch → Launch) : (updLaunch s slot f).tm = s.tm := rfl
@[simp] theorem updLaunch_wo (s : State) (slot : Nat) (f : Launch → Launch) : (updLaunch s slot f).wo = s.wo := rfl
@[simp] theorem updLaunch_ho (s : State) (slot : Nat) (f : Launch → Launch) : (updLaunch s slot f).ho = s.ho := rfl
@[simp] theorem updLaunch_pe (s : State) (slot : Nat) (f : Launch → Launch) : (updLaunch s slot f).pe = s.pe := rfl
@[simp] theorem updLaunch_pl (s : State) (slot : Nat) (f : Launch → Launch) : (updLaunch s slot f).pl = s.pl := rfl

/-! ## A queue's context updated -/

@[simp] theorem updCtx_blk (s : State) (fn : BitVec 6) (q : Nat) (f : QueueCtx → QueueCtx) : (updCtx s fn q f).blk = s.blk := rfl
@[simp] theorem updCtx_others (s : State) (fn : BitVec 6) (q : Nat) (f : QueueCtx → QueueCtx) : (updCtx s fn q f).others = s.others := rfl
@[simp] theorem updCtx_agenda (s : State) (fn : BitVec 6) (q : Nat) (f : QueueCtx → QueueCtx) : (updCtx s fn q f).agenda = s.agenda := rfl
@[simp] theorem updCtx_beat (s : State) (fn : BitVec 6) (q : Nat) (f : QueueCtx → QueueCtx) : (updCtx s fn q f).beat = s.beat := rfl
@[simp] theorem updCtx_fresh (s : State) (fn : BitVec 6) (q : Nat) (f : QueueCtx → QueueCtx) : (updCtx s fn q f).fresh = s.fresh := rfl
@[simp] theorem updCtx_mem (s : State) (fn : BitVec 6) (q : Nat) (f : QueueCtx → QueueCtx) : (updCtx s fn q f).mem = s.mem := rfl
@[simp] theorem updCtx_empties (s : State) (fn : BitVec 6) (q : Nat) (f : QueueCtx → QueueCtx) : (updCtx s fn q f).empties = s.empties := rfl
@[simp] theorem updCtx_feWait (s : State) (fn : BitVec 6) (q : Nat) (f : QueueCtx → QueueCtx) : (updCtx s fn q f).feWait = s.feWait := rfl
@[simp] theorem updCtx_tb (s : State) (fn : BitVec 6) (q : Nat) (f : QueueCtx → QueueCtx) : (updCtx s fn q f).tb = s.tb := rfl
@[simp] theorem updCtx_tm (s : State) (fn : BitVec 6) (q : Nat) (f : QueueCtx → QueueCtx) : (updCtx s fn q f).tm = s.tm := rfl
@[simp] theorem updCtx_wo (s : State) (fn : BitVec 6) (q : Nat) (f : QueueCtx → QueueCtx) : (updCtx s fn q f).wo = s.wo := rfl
@[simp] theorem updCtx_ho (s : State) (fn : BitVec 6) (q : Nat) (f : QueueCtx → QueueCtx) : (updCtx s fn q f).ho = s.ho := rfl
@[simp] theorem updCtx_pe (s : State) (fn : BitVec 6) (q : Nat) (f : QueueCtx → QueueCtx) : (updCtx s fn q f).pe = s.pe := rfl
@[simp] theorem updCtx_pl (s : State) (fn : BitVec 6) (q : Nat) (f : QueueCtx → QueueCtx) : (updCtx s fn q f).pl = s.pl := rfl

/-! ## A Galith port replaced -/

@[simp] theorem setPort_blk (s : State) (port : Bool) (p : GPort) : (setPort s port p).blk = s.blk := rfl
@[simp] theorem setPort_others (s : State) (port : Bool) (p : GPort) : (setPort s port p).others = s.others := rfl
@[simp] theorem setPort_agenda (s : State) (port : Bool) (p : GPort) : (setPort s port p).agenda = s.agenda := rfl
@[simp] theorem setPort_beat (s : State) (port : Bool) (p : GPort) : (setPort s port p).beat = s.beat := rfl
@[simp] theorem setPort_fresh (s : State) (port : Bool) (p : GPort) : (setPort s port p).fresh = s.fresh := rfl
@[simp] theorem setPort_mem (s : State) (port : Bool) (p : GPort) : (setPort s port p).mem = s.mem := rfl
@[simp] theorem setPort_empties (s : State) (port : Bool) (p : GPort) : (setPort s port p).empties = s.empties := rfl
@[simp] theorem setPort_feWait (s : State) (port : Bool) (p : GPort) : (setPort s port p).feWait = s.feWait := rfl
@[simp] theorem setPort_tb (s : State) (port : Bool) (p : GPort) : (setPort s port p).tb = s.tb := rfl
@[simp] theorem setPort_dp (s : State) (port : Bool) (p : GPort) : (setPort s port p).dp = s.dp := rfl
@[simp] theorem setPort_tm (s : State) (port : Bool) (p : GPort) : (setPort s port p).tm = s.tm := rfl
@[simp] theorem setPort_wo (s : State) (port : Bool) (p : GPort) : (setPort s port p).wo = s.wo := rfl
@[simp] theorem setPort_pe (s : State) (port : Bool) (p : GPort) : (setPort s port p).pe = s.pe := rfl
@[simp] theorem setPort_pl (s : State) (port : Bool) (p : GPort) : (setPort s port p).pl = s.pl := rfl

/-! ## A service ring replaced -/

@[simp] theorem setRing_blk (s : State) (r : SvcRing) : (setRing s r).blk = s.blk := rfl
@[simp] theorem setRing_others (s : State) (r : SvcRing) : (setRing s r).others = s.others := rfl
@[simp] theorem setRing_agenda (s : State) (r : SvcRing) : (setRing s r).agenda = s.agenda := rfl
@[simp] theorem setRing_beat (s : State) (r : SvcRing) : (setRing s r).beat = s.beat := rfl
@[simp] theorem setRing_fresh (s : State) (r : SvcRing) : (setRing s r).fresh = s.fresh := rfl
@[simp] theorem setRing_mem (s : State) (r : SvcRing) : (setRing s r).mem = s.mem := rfl
@[simp] theorem setRing_empties (s : State) (r : SvcRing) : (setRing s r).empties = s.empties := rfl
@[simp] theorem setRing_feWait (s : State) (r : SvcRing) : (setRing s r).feWait = s.feWait := rfl
@[simp] theorem setRing_tb (s : State) (r : SvcRing) : (setRing s r).tb = s.tb := rfl
@[simp] theorem setRing_dp (s : State) (r : SvcRing) : (setRing s r).dp = s.dp := rfl
@[simp] theorem setRing_tm (s : State) (r : SvcRing) : (setRing s r).tm = s.tm := rfl
@[simp] theorem setRing_wo (s : State) (r : SvcRing) : (setRing s r).wo = s.wo := rfl
@[simp] theorem setRing_pe (s : State) (r : SvcRing) : (setRing s r).pe = s.pe := rfl
@[simp] theorem setRing_pl (s : State) (r : SvcRing) : (setRing s r).pl = s.pl := rfl

/-! ## A share group changed -/

@[simp] theorem updGroup_blk (s : State) (h : DWord) (f : Group → Group) : (updGroup s h f).blk = s.blk := rfl
@[simp] theorem updGroup_others (s : State) (h : DWord) (f : Group → Group) : (updGroup s h f).others = s.others := rfl
@[simp] theorem updGroup_agenda (s : State) (h : DWord) (f : Group → Group) : (updGroup s h f).agenda = s.agenda := rfl
@[simp] theorem updGroup_beat (s : State) (h : DWord) (f : Group → Group) : (updGroup s h f).beat = s.beat := rfl
@[simp] theorem updGroup_fresh (s : State) (h : DWord) (f : Group → Group) : (updGroup s h f).fresh = s.fresh := rfl
@[simp] theorem updGroup_mem (s : State) (h : DWord) (f : Group → Group) : (updGroup s h f).mem = s.mem := rfl
@[simp] theorem updGroup_empties (s : State) (h : DWord) (f : Group → Group) : (updGroup s h f).empties = s.empties := rfl
@[simp] theorem updGroup_feWait (s : State) (h : DWord) (f : Group → Group) : (updGroup s h f).feWait = s.feWait := rfl
@[simp] theorem updGroup_tb (s : State) (h : DWord) (f : Group → Group) : (updGroup s h f).tb = s.tb := rfl
@[simp] theorem updGroup_dp (s : State) (h : DWord) (f : Group → Group) : (updGroup s h f).dp = s.dp := rfl
@[simp] theorem updGroup_tm (s : State) (h : DWord) (f : Group → Group) : (updGroup s h f).tm = s.tm := rfl
@[simp] theorem updGroup_wo (s : State) (h : DWord) (f : Group → Group) : (updGroup s h f).wo = s.wo := rfl
@[simp] theorem updGroup_ho (s : State) (h : DWord) (f : Group → Group) : (updGroup s h f).ho = s.ho := rfl
@[simp] theorem updGroup_pl (s : State) (h : DWord) (f : Group → Group) : (updGroup s h f).pl = s.pl := rfl

/-! ## Every block updated -/

@[simp] theorem mapBlocks_agenda (s : State) (f : Block → Block) : (mapBlocks s f).agenda = s.agenda := rfl
@[simp] theorem mapBlocks_beat (s : State) (f : Block → Block) : (mapBlocks s f).beat = s.beat := rfl
@[simp] theorem mapBlocks_fresh (s : State) (f : Block → Block) : (mapBlocks s f).fresh = s.fresh := rfl
@[simp] theorem mapBlocks_mem (s : State) (f : Block → Block) : (mapBlocks s f).mem = s.mem := rfl
@[simp] theorem mapBlocks_empties (s : State) (f : Block → Block) : (mapBlocks s f).empties = s.empties := rfl
@[simp] theorem mapBlocks_feWait (s : State) (f : Block → Block) : (mapBlocks s f).feWait = s.feWait := rfl
@[simp] theorem mapBlocks_tb (s : State) (f : Block → Block) : (mapBlocks s f).tb = s.tb := rfl
@[simp] theorem mapBlocks_dp (s : State) (f : Block → Block) : (mapBlocks s f).dp = s.dp := rfl
@[simp] theorem mapBlocks_tm (s : State) (f : Block → Block) : (mapBlocks s f).tm = s.tm := rfl
@[simp] theorem mapBlocks_ho (s : State) (f : Block → Block) : (mapBlocks s f).ho = s.ho := rfl
@[simp] theorem mapBlocks_pe (s : State) (f : Block → Block) : (mapBlocks s f).pe = s.pe := rfl
@[simp] theorem mapBlocks_pl (s : State) (f : Block → Block) : (mapBlocks s f).pl = s.pl := rfl

/-! ## An object's old descriptor gone -/

@[simp] theorem syncHere_agenda (s : State) (p : DWord → Bool) : (syncHere s p).agenda = s.agenda := rfl
@[simp] theorem syncHere_beat (s : State) (p : DWord → Bool) : (syncHere s p).beat = s.beat := rfl
@[simp] theorem syncHere_fresh (s : State) (p : DWord → Bool) : (syncHere s p).fresh = s.fresh := rfl
@[simp] theorem syncHere_mem (s : State) (p : DWord → Bool) : (syncHere s p).mem = s.mem := rfl
@[simp] theorem syncHere_empties (s : State) (p : DWord → Bool) : (syncHere s p).empties = s.empties := rfl
@[simp] theorem syncHere_feWait (s : State) (p : DWord → Bool) : (syncHere s p).feWait = s.feWait := rfl
@[simp] theorem syncHere_dp (s : State) (p : DWord → Bool) : (syncHere s p).dp = s.dp := rfl
@[simp] theorem syncHere_tm (s : State) (p : DWord → Bool) : (syncHere s p).tm = s.tm := rfl
@[simp] theorem syncHere_ho (s : State) (p : DWord → Bool) : (syncHere s p).ho = s.ho := rfl
@[simp] theorem syncHere_pe (s : State) (p : DWord → Bool) : (syncHere s p).pe = s.pe := rfl
@[simp] theorem syncHere_pl (s : State) (p : DWord → Bool) : (syncHere s p).pl = s.pl := rfl

/-! ## An object of another package noted -/

@[simp] theorem hostDesc_blk (s : State) (h : DWord) (d : BitVec 512) : (hostDesc s h d).blk = s.blk := by unfold hostDesc; split <;> rfl
@[simp] theorem hostDesc_others (s : State) (h : DWord) (d : BitVec 512) : (hostDesc s h d).others = s.others := by unfold hostDesc; split <;> rfl
@[simp] theorem hostDesc_agenda (s : State) (h : DWord) (d : BitVec 512) : (hostDesc s h d).agenda = s.agenda := by unfold hostDesc; split <;> rfl
@[simp] theorem hostDesc_beat (s : State) (h : DWord) (d : BitVec 512) : (hostDesc s h d).beat = s.beat := by unfold hostDesc; split <;> rfl
@[simp] theorem hostDesc_fresh (s : State) (h : DWord) (d : BitVec 512) : (hostDesc s h d).fresh = s.fresh := by unfold hostDesc; split <;> rfl
@[simp] theorem hostDesc_mem (s : State) (h : DWord) (d : BitVec 512) : (hostDesc s h d).mem = s.mem := by unfold hostDesc; split <;> rfl
@[simp] theorem hostDesc_empties (s : State) (h : DWord) (d : BitVec 512) : (hostDesc s h d).empties = s.empties := by unfold hostDesc; split <;> rfl
@[simp] theorem hostDesc_feWait (s : State) (h : DWord) (d : BitVec 512) : (hostDesc s h d).feWait = s.feWait := by unfold hostDesc; split <;> rfl
@[simp] theorem hostDesc_dp (s : State) (h : DWord) (d : BitVec 512) : (hostDesc s h d).dp = s.dp := by unfold hostDesc; split <;> rfl
@[simp] theorem hostDesc_tm (s : State) (h : DWord) (d : BitVec 512) : (hostDesc s h d).tm = s.tm := by unfold hostDesc; split <;> rfl
@[simp] theorem hostDesc_wo (s : State) (h : DWord) (d : BitVec 512) : (hostDesc s h d).wo = s.wo := by unfold hostDesc; split <;> rfl
@[simp] theorem hostDesc_ho (s : State) (h : DWord) (d : BitVec 512) : (hostDesc s h d).ho = s.ho := by unfold hostDesc; split <;> rfl
@[simp] theorem hostDesc_pe (s : State) (h : DWord) (d : BitVec 512) : (hostDesc s h d).pe = s.pe := by unfold hostDesc; split <;> rfl
@[simp] theorem hostDesc_pl (s : State) (h : DWord) (d : BitVec 512) : (hostDesc s h d).pl = s.pl := by unfold hostDesc; split <;> rfl

end Sys2Proof.Machine
end

