-- ==== Sys2Proof/Laws/Ops.lean ====
section
/-! SUPPORT. What each shared operation of the strand can do, said once: the operands' wait and traps, the trap, the completion. -/

namespace Sys2Proof.Machine

open Sys2Proof.Safety

/-! ## Operands -/

theorem writesS_queued_of_not_busy {b : Block} {r : SReg} (h : busyS b r = false) : writesS b.queued r = false := by
  simp only [busyS, writesS, Block.cmds, List.any_append, Bool.or_eq_false_iff, Bool.and_eq_false_imp, bne_iff_ne, ne_eq] at h ⊢
  intro hr
  exact (h.1 hr).2

theorem writesP_queued_of_not_busy {b : Block} {p : PReg} (h : busyP b p = false) : writesP b.queued p = false := by
  simp only [busyP, writesP, Block.cmds, List.any_append, Bool.or_eq_false_iff, Bool.and_eq_false_imp, bne_iff_ne, ne_eq] at h ⊢
  intro hr
  exact (h hr).2

theorem any_false {α : Type} {p : α → Bool} {xs : List α} (h : ∀ x ∈ xs, p x = false) : xs.any p = false := by
  simpa using h

/-- An instruction whose operands are ready runs. -/
theorem withRegs_ready {s : State} {rs : List SReg} {ps : List PReg} {ds : List SReg} {dp : List PReg} (k : Out)
    (h : Ready s.blk rs ps ds dp) : withRegs rs ps ds dp s k = k := by
  obtain ⟨h1, h2, h3⟩ := h
  have e1 : (rs ++ ds).any (busyS s.blk) = false := any_false h1
  have e2 : (ps ++ dp).any (busyP s.blk) = false := any_false h2
  have e3 : (rs ++ ds).any (writesS s.blk.queued) = false := any_false (fun r hr => writesS_queued_of_not_busy (h1 r hr))
  have e4 : (ps ++ dp).any (writesP s.blk.queued) = false := any_false (fun p hp => writesP_queued_of_not_busy (h2 p hp))
  unfold withRegs
  dsimp only
  rw [e1, e2, e3, e4]
  simp only [Bool.or_self, Bool.and_false, Bool.false_eq_true, if_false]
  cases hd : s.blk.deadMode with
  | false => rfl
  | true =>
    obtain ⟨h4, h5⟩ := h3 hd
    have e5 : firstDeadS s.blk rs = none := by
      simp only [firstDeadS, Option.map_eq_none_iff, List.find?_eq_none]
      intro r hr; simp [h4 r hr]
    have e6 : firstDeadP s.blk ps = none := by
      simp only [firstDeadP, Option.map_eq_none_iff, List.find?_eq_none]
      intro r hr; simp [h5 r hr]
    simp [e5, e6]

/-- What an instruction with register operands can do: trap for a frozen command or a dead register, wait, or run. -/
theorem withRegs_cases {rs : List SReg} {ps : List PReg} {ds : List SReg} {dp : List PReg} {s : State} {k o : Out}
    (h : withRegs rs ps ds dp s k = o) :
    o = badOperand 0 s ∨ o = waitS s .interlock ∨ (∃ d, o = strandTrap cDEAD (BitVec.ofNat 64 d) s) ∨ o = k := by
  unfold withRegs at h
  dsimp only at h
  split at h
  · exact .inl h.symm
  · split at h
    · exact .inr (.inl h.symm)
    · split at h
      · exact .inr (.inr (.inl ⟨_, h.symm⟩))
      · exact .inr (.inr (.inl ⟨_, h.symm⟩))
      · exact .inr (.inr (.inr h.symm))

/-! ## The trap -/

/-- An abandoned wait leaves the tables alone but for the waiting lease requests. -/
theorem abandonWait_tb (s : State) (id : BId) : (abandonWait s id).tb = { s.tb with leaseWait := (abandonWait s id).tb.leaseWait } := by
  unfold abandonWait withdrawAway
  dsimp only
  split <;> simp

/-- A block that waits for no lease at another package withdraws none. -/
theorem withdrawAway_none {s : State} {id : BId} (h : ∀ b, findBlock s id = some b → b.wait = none) : withdrawAway s id = s := by
  unfold withdrawAway
  cases e : findBlock s id with
  | none => rfl
  | some b => simp [h b e]

/-- A strand trap goes on, with nothing changed but the block and the waits that it abandons. -/
theorem strandTrap_next (cause : Nat) (info : DWord) (s : State) :
    ∃ t, strandTrap cause info s = .next t ∧ t.mem = s.mem ∧ t.empties = s.empties ∧ t.others = s.others ∧ t.agenda = s.agenda
      ∧ t.beat = s.beat ∧ t.fresh = s.fresh ∧ t.dp = s.dp ∧ t.tm = s.tm ∧ t.wo = s.wo ∧ t.ho = s.ho ∧ t.pl = s.pl
      ∧ t.tb = { s.tb with leaseWait := t.tb.leaseWait }
      ∧ t.blk = s.blk.takeTrap s.blk.pc (causeWord 0 0 cause) info cause false false := by
  refine ⟨_, rfl, ?_⟩
  dsimp only
  refine ⟨?_, ?_, ?_, ?_, ?_, ?_, ?_, ?_, ?_, ?_, ?_, abandonWait_tb s _, rfl⟩ <;> simp

/-- A block that ends has neither a queued command nor a wait. -/
theorem Block.terminate_queued (b : Block) (cause : Nat) : (b.terminate cause).queued = [] := rfl

/-- A block that ends leaves its running commands alone. -/
theorem Block.terminate_running (b : Block) (cause : Nat) : (b.terminate cause).running = b.running := rfl

/-! ## The completion -/

/-- An instruction that completes changes its block alone. -/
theorem doneB_next (s : State) (b : Block) (n : Nat) : doneB s b n = .next { s with blk := b.adv n } := rfl

/-- Outside format W the program counter moves by the instruction's length. -/
theorem Block.adv_pc_of_wrap {b : Block} (h : b.wrap = none) (n : Nat) : (b.adv n).pc = b.pc + BitVec.ofNat 32 n := by
  simp [Block.len, h]

/-- A result outside format W takes no taint set but its own. -/
theorem putS_of_wrap {b : Block} (h : b.wrap = none) (r : SReg) (v : DWord) (t : Taint) : putS b r v t = wrS b r v t := by
  simp [putS, Block.wrapT, h]

/-! ## Register cells -/

theorem Block.sCell_wrS (b : Block) (r q : SReg) (v : DWord) (t : Taint) :
    (wrS b r v t).sCell q = if r ≠ 0 ∧ q = r then ⟨v, t, false⟩ else b.sCell q := by
  unfold wrS Block.sCell
  by_cases h0 : r = 0#6
  · simp [h0]
  · by_cases hq : q = r
    · subst hq
      simp [h0, q.isLt]
    · simp [h0, hq, ← BitVec.toNat_eq, Ne.symm hq]

theorem Block.pCell_wrP (b : Block) (r q : PReg) (v : BitVec 128) (t : Taint) :
    (wrP b r v t).pCell q = if r ≠ 0 ∧ q = r ∧ r.toNat < 48 then ⟨v, t, false⟩ else b.pCell q := by
  unfold wrP Block.pCell
  by_cases h0 : r = 0#6
  · simp [h0]
  · by_cases hq : q = r
    · subst hq
      by_cases hr : q.toNat < 48
      · simp [h0, hr]
      · simp [h0, hr]
    · simp [h0, hq, ← BitVec.toNat_eq, Ne.symm hq]

theorem Block.token_setToken (b : Block) (k j : BitVec 4) (t : Token) :
    (b.setToken k t).token j = if j = k then t else b.token j := by
  unfold Block.setToken Block.token
  by_cases hj : j = k
  · subst hj; simp [j.isLt]
  · simp [hj, ← BitVec.toNat_eq, Ne.symm hj]

theorem Block.hCell_setH (b : Block) (k j : BitVec 4) (c : HCell) :
    (b.setH k c).hCell j = if j = k then c else b.hCell j := by
  unfold Block.setH Block.hCell
  by_cases hj : j = k
  · subst hj; simp [j.isLt]
  · simp [hj, ← BitVec.toNat_eq, Ne.symm hj]

theorem Block.gCell_setG (b : Block) (k j : BitVec 3) (c : GCell) :
    (b.setG k c).gCell j = if j = k then c else b.gCell j := by
  unfold Block.setG Block.gCell
  by_cases hj : j = k
  · subst hj; simp [j.isLt]
  · simp [hj, ← BitVec.toNat_eq, Ne.symm hj]

/-! ## Load tags -/

/-- Where a tag is free, a new load takes one that no live load holds (R94). -/
theorem takeTag_free {b : Block} {i : Nat} (hi : i < 16) (h : b.liveTags.all (fun r => r.tag.toNat != i) = true) :
    b.liveTags.all (fun r => r.tag != b.takeTag.1) = true := by
  unfold Block.takeTag
  dsimp only
  split
  · rename_i j hj
    have hm := List.mem_filter.1 (List.mem_of_getElem? hj)
    have hlt := List.mem_range.1 hm.1
    refine List.all_eq_true.2 fun r hr => ?_
    have := List.all_eq_true.1 hm.2 r hr
    simp only [bne_iff_ne, ne_eq] at this ⊢
    intro e
    apply this
    rw [e, BitVec.toNat_ofNat, Nat.mod_eq_of_lt (by omega)]
  · rename_i hn
    have hmem : i ∈ (List.range 16).filter (fun i => b.liveTags.all (fun r => r.tag.toNat != i)) :=
      List.mem_filter.2 ⟨List.mem_range.2 hi, h⟩
    exact absurd hn (by simp [List.getElem?_eq_getElem (Nat.mod_lt _ (List.length_pos_of_mem hmem))])

/-! ## Posted stores -/

/-- The stores that are performed leave the memory canonical. -/
theorem performStores_wf {s : State} (h : Memory.wf s.mem = true) : Memory.wf (performStores s).mem = true := by
  refine Memory.wf_foldl _ (fun m p hm => ?_) _ h
  cases p <;> first | exact Memory.wf_writeAll hm _ _ | exact hm

/-- No store stays posted behind them. -/
theorem performStores_posted (s : State) : ∀ p ∈ (performStores s).blk.posted, p.isStore = false := by
  intro p hp
  simp only [performStores, List.mem_filter, Bool.not_eq_true'] at hp
  exact hp.2

end Sys2Proof.Machine
end

