-- ==== Sys2Proof/Laws/Access.lean ====
section
/-! SUPPORT. What the shared checks of the object accesses and the folds of taint do where they let an instruction go on. -/

namespace Sys2Proof.Machine

open Sys2Proof.Safety

/-! ## Folds -/

/-- A fold of one tag changes the floor, TAINT_PEND and the marks of the outstanding loads alone. -/
theorem Block.foldTag_fields (b : Block) (r : TagRec) :
    ∃ f n l, b.foldTag r = { b with floor := f, pend := n, loads := l } := by
  unfold Block.foldTag
  split
  · exact ⟨_, _, _, rfl⟩
  · split
    · exact ⟨_, _, _, rfl⟩
    · exact ⟨_, _, _, rfl⟩

/-- So does a fold of several. -/
theorem Block.foldTags_fields (rs : List TagRec) (b : Block) :
    ∃ f n l, rs.foldl Block.foldTag b = { b with floor := f, pend := n, loads := l } := by
  induction rs generalizing b with
  | nil => exact ⟨_, _, _, rfl⟩
  | cons r rs ih =>
    obtain ⟨f, n, l, h⟩ := b.foldTag_fields r
    obtain ⟨f', n', l', h'⟩ := ih (b.foldTag r)
    exact ⟨f', n', l', by rw [List.foldl_cons, h', h]⟩

/-- A spill fold changes the floor, TAINT_PEND and the marks of the outstanding loads alone. -/
theorem Block.foldSet_fields (b : Block) (t : Taint) :
    ∃ f n l, b.foldSet t = { b with floor := f, pend := n, loads := l } :=
  Block.foldTags_fields _ b

/-- The fold of the empty set changes nothing. -/
theorem Block.foldSet_zero (b : Block) : b.foldSet 0 = b := by
  have : b.liveTags.filter (fun r => ((0 : Taint) &&& tagBit r.tag) != 0) = [] := by
    simp
  unfold Block.foldSet
  rw [this]
  rfl

/-! ## The checks of an access -/

/-- A handle that is live for an access passes its dead read. -/
theorem liveOthers_live {s : State} {h : BitVec 4} {f : DWord} (k : Out) (hl : LiveHandle s.blk h f) :
    liveOthers [] [h] [] s k = k := by
  unfold liveOthers
  cases hd : s.blk.deadMode with
  | false => rfl
  | true =>
    have := hl.2.2.2.2.2.2.2 hd
    simp [deadOthers, this]

/-- So do two. -/
theorem liveOthers_live_two {s : State} {h h' : BitVec 4} {f : DWord} (k : Out) (hl : LiveHandle s.blk h f)
    (hl' : LiveHandle s.blk h' f) : liveOthers [] [h, h'] [] s k = k := by
  unfold liveOthers
  cases hd : s.blk.deadMode with
  | false => rfl
  | true =>
    have h1 := hl.2.2.2.2.2.2.2 hd
    have h2 := hl'.2.2.2.2.2.2.2 hd
    simp [deadOthers, h1, h2]

/-- A live handle is used through its hidden copy, and nothing changes. -/
theorem withHandle_live {s : State} {h : BitVec 4} {f : DWord} (k : BitVec 512 → State → Out) (hl : LiveHandle s.blk h f) :
    withHandle h f s k = k (s.blk.hCell h).desc s := by
  obtain ⟨h1, h2, h3, h4, h5, h6, h7, -⟩ := hl
  simp [withHandle, withHandleFor, h1, h2, h3, h4, h5, h6, h7]

/-- A handle that its cluster caches resolves to the cached descriptor, whose entry becomes the one used most recently (R275). -/
theorem resolve_cached {s : State} {who : Who} {h f : DWord} {e : HCacheEntry} {d : BitVec 512} {st : DWord} (h0 : hLow h = 0)
    (h1 : hIndex h ≠ 0) (h2 : inPod s (hHome h) = true) (h3 : cached s (clusterOf who.core) h f = some e)
    (h4 : checkDesc s h e.desc e.stamp = .ok d st) : resolve s who h f = (.ok d st, touchCache s e) := by
  simp [resolve, h0, h1, h2, h3, h4]

/-- A merge of no clock changes nothing. -/
theorem mergeClock_zero (s : State) : mergeClock s 0 = s := by
  simp [mergeClock, maxStamp]

/-- A slab whose translation the core's TLB holds translates without a walk, and nothing changes (R280). -/
theorem slabTranslate_hit {s : State} {who : Who} {world : BitVec 14} {h : DWord} {root depth shard sl : Nat} {write : Bool} {e : TlbEntry}
    (hf : s.tb.tlb.find? (fun e => e.place == who.core.toNat && (e.world == world && e.handle == tlbHandle h && e.shard == shard
      && e.slab == sl && (e.write || !write))) = some e) (hp : e.peer = none) :
    slabTranslate s who world h root depth shard sl write = (.frame e.frame, s) := by
  simp [slabTranslate, hf, hp]

/-- Bytes that all lie in slabs which translate to frames without a walk stand at those frames. -/
theorem byteAddrs_hit {s : State} {who : Who} {h : DWord} {d : BitVec 512} {e : Holder} {write : Bool} {frame : Nat → Nat} (os : List Nat)
    (hf : ∀ o ∈ os, slabTranslate s who (dOwner d) h e.root e.depth e.shard (o / 65536) write = (.frame (frame (o / 65536)), s)) :
    byteAddrs s who h d e write os = (.ok (os.map (fun o => frame (o / 65536) + o % 65536)) 0, s) := by
  induction os with
  | nil => rfl
  | cons o os ih =>
    have ho := hf o (by simp)
    have hr := ih (fun x hx => hf x (by simp [hx]))
    simp [byteAddrs, ho, hr]

/-- A read whose holder is here, whose bytes are translated and of which no line is poisoned answers the fields' values, and nothing
changes where it carries no clock. -/
theorem objReadFrom_hit {home : Bool} {s : State} {who : Who} {h : DWord} {d : BitVec 512} {shard : Nat} {fs : List Field} {e : Holder}
    {as : List Nat} {st : DWord} (he : holderOf s h d shard 0 home = .ok e) (hp : e.pkg = s.pl.pkg.toNat)
    (ha : byteAddrs s who h d e false (fieldOffs fs) = (.ok as st, s)) (hg : as.find? (fun a => Memory.poisoned s.mem (a / 64)) = none) :
    objReadFrom home s who h d 0 shard fs
      = (.ok (cutFields fs (as.map (fun a => (Memory.read s.mem a).getD 0))) (serveStamp s d e), s) := by
  unfold objReadFrom
  rw [he]
  dsimp only
  rw [if_neg (by simp [hp])]
  unfold readHeld
  rw [ha]
  dsimp only
  rw [hg]
  dsimp only
  rw [mergeClock_zero]

/-- An access that waits for no load knows its required stamp. -/
theorem withTaint_settled {s : State} {t : Taint} (k : DWord → Out) (hs : Settled s.blk t) :
    withTaint t s k = k (s.blk.reqStamp (s.blk.accessT t)) := by
  unfold withTaint
  dsimp only
  rw [show s.blk.waitLoads (s.blk.accessT t) = [] from hs]
  rfl

end Sys2Proof.Machine
end

