-- ==== Sys2Proof/Laws/Canonical.lean ====
section
/-! SUPPORT. The shared operations that write memory keep its canonical form: fields of objects, lines, slabs, fault records and saved
cells. The resolution of handles, the translation of slabs and the reads of objects change the caches and the clock alone. -/

namespace Sys2Proof.Machine

theorem writeAt_wf {m : Memory} (h : Memory.wf m = true) (as : List Nat) (bs : List Byte) : Memory.wf (writeAt m as bs) = true := by
  induction as generalizing m bs with
  | nil => exact h
  | cons a as ih => cases bs with
    | nil => exact h
    | cons b bs => exact ih (Memory.wf_write h a b) bs

theorem writeFields_wf {m : Memory} (h : Memory.wf m = true) (fs : List Field) (as vs : List Nat) :
    Memory.wf (writeFields m fs as vs) = true := by
  induction fs generalizing m as vs with
  | nil => exact h
  | cons f fs ih => cases vs with
    | nil => exact h
    | cons v vs => exact ih (writeAt_wf h _ _) _ vs

theorem storeLine_wf {m : Memory} (h : Memory.wf m = true) (addr : Nat) (data : List Byte) (line : Nat) :
    Memory.wf (storeLine addr data m line) = true := by
  unfold storeLine
  dsimp only
  split
  · exact h
  · exact Memory.wf_writeAll h _ _

theorem copySlab_wf {m : Memory} (h : Memory.wf m = true) (src dst : Nat) : Memory.wf (copySlab m src dst) = true :=
  Memory.wf_foldl _ (fun _ _ hm => Memory.wf_write hm _ _) _ (Memory.wf_dropRange h _ _)

theorem clearValid_wf {m : Memory} (h : Memory.wf m = true) (die g head n : Nat) : Memory.wf (clearValid m die g head n) = true := by
  induction n with
  | zero => exact h
  | succ n ih =>
    simp only [clearValid]
    split
    · exact Memory.wf_write ih _ _
    · exact ih

theorem scrubCells_wf {s : State} (h : Memory.wf s.mem = true) (rs : Ranges) : Memory.wf (scrubCells s rs).mem = true :=
  Memory.wf_filter h _

theorem putCells_wf {s : State} (h : Memory.wf s.mem = true) (rs : Ranges) (cells : List Host.Cell) (es : List Nat) :
    Memory.wf (putCells s rs cells es).mem = true :=
  Memory.wf_foldl _ (fun _ _ hm => Memory.wf_write hm _ _) _ (scrubCells_wf h rs)

theorem writeDesc_wf {s : State} (h : Memory.wf s.mem = true) (i : Nat) (d : BitVec 512) : Memory.wf (writeDesc s i d).mem = true := by
  unfold writeDesc
  split
  · exact h
  · exact Memory.wf_writeAll h _ _

theorem recordPark_wf {s : State} (h : Memory.wf s.mem = true) (who : Who) (p : Park) : Memory.wf (recordPark s who p).2.mem = true := by
  unfold recordPark
  dsimp only
  split
  · exact h
  · split
    · exact h
    · exact Memory.wf_writeAll h _ _

/-- State t is state s but for its tables and caches and the clocks. -/
def Caches (s t : State) : Prop := t = { s with tb := t.tb, tm := t.tm }

/-- Two such changes are one. -/
theorem Caches.trans {s t u : State} (h2 : Caches t u) (h1 : Caches s t) : Caches s u := by
  unfold Caches at *
  rw [h2, h1]

/-- Such a change leaves the memory, the block and the platform alone. -/
theorem Caches.same {s t : State} (h : Caches s t) : t.mem = s.mem ∧ t.blk = s.blk ∧ t.pl = s.pl := by
  unfold Caches at h
  rw [h]
  exact ⟨rfl, rfl, rfl⟩

/-- A descriptor that comes here changes the tables alone (R185, R275, R368). -/
theorem cacheDesc_frame (s : State) (cluster : Nat) (h : DWord) (d : BitVec 512) (stamp : DWord) :
    Caches s (cacheDesc s cluster h d stamp) := by
  unfold cacheDesc hostDesc
  split <;> exact rfl

/-- A handle's resolution changes the handle caches and the clock alone (R275). -/
theorem resolve_frame (s : State) (who : Who) (h f : DWord) : Caches s (resolve s who h f).2 := by
  unfold resolve
  dsimp only
  split
  · exact rfl
  · split
    · exact rfl
    · split
      · exact rfl
      · split
        · exact rfl
        · split
          · exact rfl
          · split
            · exact (cacheDesc_frame (mergeClock s f) _ h _ _).trans rfl
            · exact rfl

/-- So does a second-stage translation (R278). -/
theorem g2Translate_frame (s : State) (die : Nat) (world : BitVec 14) (gpa : Nat) (write : Bool) :
    Caches s (g2Translate s die world gpa write).2 := by
  unfold g2Translate
  dsimp only
  repeat' split
  all_goals exact rfl

theorem g2Pages_frame (s : State) (die : Nat) (world : BitVec 14) (gpa : Nat) (write : Bool) (base n : Nat) :
    Caches s (g2Pages s die world gpa write base n).2 := by
  induction n with
  | zero => exact rfl
  | succ n ih =>
    simp only [g2Pages]
    split
    · rename_i s₁ h₁
      rw [h₁] at ih
      split
      · rename_i a s₂ h₂
        have := g2Translate_frame s₁ die world (gpa + 4096 * n) write
        rw [h₂] at this
        split <;> exact this.trans ih
      · exact (g2Translate_frame s₁ die world (gpa + 4096 * n) write).trans ih
    · exact ih

theorem g2Frame_frame (s : State) (die : Nat) (world : BitVec 14) (gpa : Nat) (write : Bool) :
    Caches s (g2Frame s die world gpa write).2 := by
  have h := g2Translate_frame s die world gpa write
  unfold g2Frame
  split
  · rename_i a s₁ h₁
    rw [h₁] at h
    split
    · exact (g2Pages_frame s₁ die world gpa write a 16).trans h
    · exact h
  · exact h

/-- So does a walk of a slab table (R277). -/
theorem slabWalk_frame (s : State) (die : Nat) (world : BitVec 14) (sl : Nat) (write : Bool) (l r node : Nat) :
    Caches s (slabWalk s die world sl write l r node).2 := by
  induction r generalizing s l node with
  | zero => exact rfl
  | succ r ih =>
    have h := g2Translate_frame s die world node false
    simp only [slabWalk]
    split
    · rename_i s₁ h₁
      rw [h₁] at h; exact h
    · rename_i s₁ h₁
      rw [h₁] at h; exact h
    · rename_i s₁ h₁
      rw [h₁] at h; exact h
    · rename_i a s₁ h₁
      rw [h₁] at h
      split
      · exact h
      · split
        · exact h
        · rename_i bs hb
          have hf := g2Frame_frame s₁ die world (bits (leNat bs) 16 34 * 65536) write
          repeat' split
          all_goals first
            | exact h
            | exact (ih s₁ _ _).trans h
            | (rename_i h₂; rw [h₂] at hf; exact hf.trans h)

theorem slabTranslate_frame (s : State) (who : Who) (world : BitVec 14) (h : DWord) (root depth shard sl : Nat) (write : Bool) :
    Caches s (slabTranslate s who world h root depth shard sl write).2 := by
  have hw := slabWalk_frame s who.die world sl write 0 depth root
  unfold slabTranslate
  dsimp only
  split
  · exact rfl
  · split
    · rename_i h₂; rw [h₂] at hw; refine Caches.trans ?_ hw; exact rfl
    · rename_i h₂; rw [h₂] at hw; refine Caches.trans ?_ hw; exact rfl
    · exact hw

theorem byteAddrs_frame (s : State) (who : Who) (h : DWord) (d : BitVec 512) (e : Holder) (write : Bool) (os : List Nat) :
    Caches s (byteAddrs s who h d e write os).2 := by
  induction os generalizing s with
  | nil => exact rfl
  | cons o os ih =>
    have ht := slabTranslate_frame s who (dOwner d) h e.root e.depth e.shard (o / 65536) write
    simp only [byteAddrs]
    split
    · rename_i h₂; rw [h₂] at ht; exact ht
    · rename_i h₂; rw [h₂] at ht; exact ht
    · rename_i fr s₁ h₂
      rw [h₂] at ht
      have hi := ih s₁
      split
      · rename_i h₃; rw [h₃] at hi; exact hi.trans ht
      · exact hi.trans ht

/-- So does a read through this package's own tables. -/
theorem readHeld_frame (s : State) (who : Who) (h : DWord) (d : BitVec 512) (f : DWord) (e : Holder) (fs : List Field) :
    Caches s (readHeld s who h d f e fs).2 := by
  have hb := byteAddrs_frame s who h d e false (fieldOffs fs)
  unfold readHeld
  split
  · rename_i h₂; rw [h₂] at hb; exact hb
  · rename_i h₂; rw [h₂] at hb; exact hb
  · rename_i h₂; rw [h₂] at hb
    split
    · exact hb
    · refine Caches.trans ?_ hb; exact rfl

/-- An object read changes the tables' caches and the clock alone (R275-R280). -/
theorem objReadFrom_frame (home : Bool) (s : State) (who : Who) (h : DWord) (d : BitVec 512) (f : DWord) (shard : Nat)
    (fs : List Field) : Caches s (objReadFrom home s who h d f shard fs).2 := by
  unfold objReadFrom
  split
  · exact rfl
  · rename_i e he
    split
    · exact rfl
    · exact readHeld_frame s who h d f e fs

/-- A write through this package's own tables keeps the canonical form. -/
theorem writeHeld_wf {s : State} (hm : Memory.wf s.mem = true) (who : Who) (h : DWord) (d : BitVec 512) (f : DWord) (e : Holder)
    (fs : List Field) (vs whole : List Nat) : Memory.wf (writeHeld s who h d f e fs vs whole).2.mem = true := by
  have hb := (byteAddrs_frame s who h d e true (fieldOffs fs)).same.1
  unfold writeHeld
  split
  · rename_i h₂; rw [h₂] at hb; exact hb ▸ hm
  · rename_i h₂; rw [h₂] at hb; exact hb ▸ hm
  · rename_i as st s₁ h₂
    rw [h₂] at hb
    have hm₁ : Memory.wf s₁.mem = true := by rw [hb]; exact hm
    split
    · exact hm₁
    · exact writeFields_wf (Memory.wf_foldl _ (fun _ _ hx => Memory.wf_zeroFill hx _ _) _ hm₁) _ _ _

/-- An object write changes the memory, the tables' caches and the clock alone (R183, R278). -/
theorem objWrite_frame (s : State) (who : Who) (h : DWord) (d : BitVec 512) (f : DWord) (shard : Nat) (fs : List Field) (vs whole : List Nat) :
    ∀ t, t = (objWrite s who h d f shard fs vs whole).2 → t = { s with mem := t.mem, tb := t.tb, tm := t.tm } := by
  rintro t rfl
  unfold objWrite
  split
  · exact rfl
  · rename_i e he
    split
    · exact rfl
    · have hb := byteAddrs_frame s who h d e true (fieldOffs fs)
      unfold Caches at hb
      unfold writeHeld
      split
      · rename_i h₂; rw [h₂] at hb; rw [hb]
      · rename_i h₂; rw [h₂] at hb; rw [hb]
      · rename_i h₂; rw [h₂] at hb
        dsimp only at hb
        split
        · rw [hb]
        · dsimp only [mergeClock]; rw [hb]

/-- An object write keeps the canonical form (R216). -/
theorem objWrite_wf {s : State} (hm : Memory.wf s.mem = true) (who : Who) (h : DWord) (d : BitVec 512) (f : DWord) (shard : Nat)
    (fs : List Field) (vs whole : List Nat) : Memory.wf (objWrite s who h d f shard fs vs whole).2.mem = true := by
  unfold objWrite
  split
  · exact hm
  · rename_i e he
    split
    · exact hm
    · exact writeHeld_wf hm who h d f e fs vs whole

end Sys2Proof.Machine
end

