-- ==== Sys2Proof/Laws/PerInstr.lean ====
section
/-! SUPPORT. The family Wf, one lemma per constructor: format W wraps instructions of one word, and an engine command, which has a
header, takes two (R65, R66). -/

/-- What the family says of an instruction: one that format W may wrap has one word and no header, and one with a header two
words. -/
def Sys2Proof.Laws.Wf.Statement (i : Sys2Proof.Instr) : Prop :=
  (i.wrappable = true → (Sys2Proof.encode i).length = 1 ∧ i.hdr? = none) ∧ (i.hdr?.isSome = true → (Sys2Proof.encode i).length = 2)

namespace Sys2Proof

theorem Laws.Wf.add (sd sa sb : SReg) : Laws.Wf.Statement (.add sd sa sb) :=
  ⟨fun h => (by first | exact ⟨rfl, rfl⟩ | cases h), fun h => (by first | rfl | cases h)⟩
theorem Laws.Wf.sub (sd sa sb : SReg) : Laws.Wf.Statement (.sub sd sa sb) :=
  ⟨fun h => (by first | exact ⟨rfl, rfl⟩ | cases h), fun h => (by first | rfl | cases h)⟩
theorem Laws.Wf.mul (sd sa sb : SReg) : Laws.Wf.Statement (.mul sd sa sb) :=
  ⟨fun h => (by first | exact ⟨rfl, rfl⟩ | cases h), fun h => (by first | rfl | cases h)⟩
theorem Laws.Wf.mulhI64 (sd sa sb : SReg) : Laws.Wf.Statement (.mulhI64 sd sa sb) :=
  ⟨fun h => (by first | exact ⟨rfl, rfl⟩ | cases h), fun h => (by first | rfl | cases h)⟩
theorem Laws.Wf.mulhN64 (sd sa sb : SReg) : Laws.Wf.Statement (.mulhN64 sd sa sb) :=
  ⟨fun h => (by first | exact ⟨rfl, rfl⟩ | cases h), fun h => (by first | rfl | cases h)⟩
theorem Laws.Wf.divI64 (sd sa sb : SReg) : Laws.Wf.Statement (.divI64 sd sa sb) :=
  ⟨fun h => (by first | exact ⟨rfl, rfl⟩ | cases h), fun h => (by first | rfl | cases h)⟩
theorem Laws.Wf.divN64 (sd sa sb : SReg) : Laws.Wf.Statement (.divN64 sd sa sb) :=
  ⟨fun h => (by first | exact ⟨rfl, rfl⟩ | cases h), fun h => (by first | rfl | cases h)⟩
theorem Laws.Wf.remI64 (sd sa sb : SReg) : Laws.Wf.Statement (.remI64 sd sa sb) :=
  ⟨fun h => (by first | exact ⟨rfl, rfl⟩ | cases h), fun h => (by first | rfl | cases h)⟩
theorem Laws.Wf.remN64 (sd sa sb : SReg) : Laws.Wf.Statement (.remN64 sd sa sb) :=
  ⟨fun h => (by first | exact ⟨rfl, rfl⟩ | cases h), fun h => (by first | rfl | cases h)⟩
theorem Laws.Wf.and (sd sa sb : SReg) : Laws.Wf.Statement (.and sd sa sb) :=
  ⟨fun h => (by first | exact ⟨rfl, rfl⟩ | cases h), fun h => (by first | rfl | cases h)⟩
theorem Laws.Wf.or (sd sa sb : SReg) : Laws.Wf.Statement (.or sd sa sb) :=
  ⟨fun h => (by first | exact ⟨rfl, rfl⟩ | cases h), fun h => (by first | rfl | cases h)⟩
theorem Laws.Wf.xor (sd sa sb : SReg) : Laws.Wf.Statement (.xor sd sa sb) :=
  ⟨fun h => (by first | exact ⟨rfl, rfl⟩ | cases h), fun h => (by first | rfl | cases h)⟩
theorem Laws.Wf.shl (sd sa sb : SReg) : Laws.Wf.Statement (.shl sd sa sb) :=
  ⟨fun h => (by first | exact ⟨rfl, rfl⟩ | cases h), fun h => (by first | rfl | cases h)⟩
theorem Laws.Wf.shr (sd sa sb : SReg) : Laws.Wf.Statement (.shr sd sa sb) :=
  ⟨fun h => (by first | exact ⟨rfl, rfl⟩ | cases h), fun h => (by first | rfl | cases h)⟩
theorem Laws.Wf.sar (sd sa sb : SReg) : Laws.Wf.Statement (.sar sd sa sb) :=
  ⟨fun h => (by first | exact ⟨rfl, rfl⟩ | cases h), fun h => (by first | rfl | cases h)⟩
theorem Laws.Wf.minI64 (sd sa sb : SReg) : Laws.Wf.Statement (.minI64 sd sa sb) :=
  ⟨fun h => (by first | exact ⟨rfl, rfl⟩ | cases h), fun h => (by first | rfl | cases h)⟩
theorem Laws.Wf.minN64 (sd sa sb : SReg) : Laws.Wf.Statement (.minN64 sd sa sb) :=
  ⟨fun h => (by first | exact ⟨rfl, rfl⟩ | cases h), fun h => (by first | rfl | cases h)⟩
theorem Laws.Wf.maxI64 (sd sa sb : SReg) : Laws.Wf.Statement (.maxI64 sd sa sb) :=
  ⟨fun h => (by first | exact ⟨rfl, rfl⟩ | cases h), fun h => (by first | rfl | cases h)⟩
theorem Laws.Wf.maxN64 (sd sa sb : SReg) : Laws.Wf.Statement (.maxN64 sd sa sb) :=
  ⟨fun h => (by first | exact ⟨rfl, rfl⟩ | cases h), fun h => (by first | rfl | cases h)⟩
theorem Laws.Wf.psetEq (pd : PReg) (sa sb : SReg) : Laws.Wf.Statement (.psetEq pd sa sb) :=
  ⟨fun h => (by first | exact ⟨rfl, rfl⟩ | cases h), fun h => (by first | rfl | cases h)⟩
theorem Laws.Wf.psetNe (pd : PReg) (sa sb : SReg) : Laws.Wf.Statement (.psetNe pd sa sb) :=
  ⟨fun h => (by first | exact ⟨rfl, rfl⟩ | cases h), fun h => (by first | rfl | cases h)⟩
theorem Laws.Wf.psetLtI64 (pd : PReg) (sa sb : SReg) : Laws.Wf.Statement (.psetLtI64 pd sa sb) :=
  ⟨fun h => (by first | exact ⟨rfl, rfl⟩ | cases h), fun h => (by first | rfl | cases h)⟩
theorem Laws.Wf.psetLtN64 (pd : PReg) (sa sb : SReg) : Laws.Wf.Statement (.psetLtN64 pd sa sb) :=
  ⟨fun h => (by first | exact ⟨rfl, rfl⟩ | cases h), fun h => (by first | rfl | cases h)⟩
theorem Laws.Wf.psetGeI64 (pd : PReg) (sa sb : SReg) : Laws.Wf.Statement (.psetGeI64 pd sa sb) :=
  ⟨fun h => (by first | exact ⟨rfl, rfl⟩ | cases h), fun h => (by first | rfl | cases h)⟩
theorem Laws.Wf.psetGeN64 (pd : PReg) (sa sb : SReg) : Laws.Wf.Statement (.psetGeN64 pd sa sb) :=
  ⟨fun h => (by first | exact ⟨rfl, rfl⟩ | cases h), fun h => (by first | rfl | cases h)⟩
theorem Laws.Wf.pand (pd pa pb : PReg) : Laws.Wf.Statement (.pand pd pa pb) :=
  ⟨fun h => (by first | exact ⟨rfl, rfl⟩ | cases h), fun h => (by first | rfl | cases h)⟩
theorem Laws.Wf.por (pd pa pb : PReg) : Laws.Wf.Statement (.por pd pa pb) :=
  ⟨fun h => (by first | exact ⟨rfl, rfl⟩ | cases h), fun h => (by first | rfl | cases h)⟩
theorem Laws.Wf.pxor (pd pa pb : PReg) : Laws.Wf.Statement (.pxor pd pa pb) :=
  ⟨fun h => (by first | exact ⟨rfl, rfl⟩ | cases h), fun h => (by first | rfl | cases h)⟩
theorem Laws.Wf.pnot (pd pa : PReg) : Laws.Wf.Statement (.pnot pd pa) :=
  ⟨fun h => (by first | exact ⟨rfl, rfl⟩ | cases h), fun h => (by first | rfl | cases h)⟩
theorem Laws.Wf.pandn (pd pa pb : PReg) : Laws.Wf.Statement (.pandn pd pa pb) :=
  ⟨fun h => (by first | exact ⟨rfl, rfl⟩ | cases h), fun h => (by first | rfl | cases h)⟩
theorem Laws.Wf.sel (p : PReg) (sd sa sb : SReg) : Laws.Wf.Statement (.sel p sd sa sb) :=
  ⟨fun h => (by first | exact ⟨rfl, rfl⟩ | cases h), fun h => (by first | rfl | cases h)⟩
theorem Laws.Wf.addImm (sd sa : SReg) (imm : BitVec 12) : Laws.Wf.Statement (.addImm sd sa imm) :=
  ⟨fun h => (by first | exact ⟨rfl, rfl⟩ | cases h), fun h => (by first | rfl | cases h)⟩
theorem Laws.Wf.andImm (sd sa : SReg) (imm : BitVec 12) : Laws.Wf.Statement (.andImm sd sa imm) :=
  ⟨fun h => (by first | exact ⟨rfl, rfl⟩ | cases h), fun h => (by first | rfl | cases h)⟩
theorem Laws.Wf.orImm (sd sa : SReg) (imm : BitVec 12) : Laws.Wf.Statement (.orImm sd sa imm) :=
  ⟨fun h => (by first | exact ⟨rfl, rfl⟩ | cases h), fun h => (by first | rfl | cases h)⟩
theorem Laws.Wf.xorImm (sd sa : SReg) (imm : BitVec 12) : Laws.Wf.Statement (.xorImm sd sa imm) :=
  ⟨fun h => (by first | exact ⟨rfl, rfl⟩ | cases h), fun h => (by first | rfl | cases h)⟩
theorem Laws.Wf.shlImm (sd sa : SReg) (count : BitVec 6) : Laws.Wf.Statement (.shlImm sd sa count) :=
  ⟨fun h => (by first | exact ⟨rfl, rfl⟩ | cases h), fun h => (by first | rfl | cases h)⟩
theorem Laws.Wf.shrImm (sd sa : SReg) (count : BitVec 6) : Laws.Wf.Statement (.shrImm sd sa count) :=
  ⟨fun h => (by first | exact ⟨rfl, rfl⟩ | cases h), fun h => (by first | rfl | cases h)⟩
theorem Laws.Wf.sarImm (sd sa : SReg) (count : BitVec 6) : Laws.Wf.Statement (.sarImm sd sa count) :=
  ⟨fun h => (by first | exact ⟨rfl, rfl⟩ | cases h), fun h => (by first | rfl | cases h)⟩
theorem Laws.Wf.li (sd : SReg) (imm : BitVec 18) : Laws.Wf.Statement (.li sd imm) :=
  ⟨fun h => (by first | exact ⟨rfl, rfl⟩ | cases h), fun h => (by first | rfl | cases h)⟩
theorem Laws.Wf.liImm32 (sd : SReg) (imm : BitVec 32) : Laws.Wf.Statement (.liImm32 sd imm) :=
  ⟨fun h => (by first | exact ⟨rfl, rfl⟩ | cases h), fun h => (by first | rfl | cases h)⟩
theorem Laws.Wf.lui (sd : SReg) (imm : BitVec 32) : Laws.Wf.Statement (.lui sd imm) :=
  ⟨fun h => (by first | exact ⟨rfl, rfl⟩ | cases h), fun h => (by first | rfl | cases h)⟩
theorem Laws.Wf.ldI8 (sd : SReg) (lv : Level) (sa : SReg) (off : BitVec 10) : Laws.Wf.Statement (.ldI8 sd lv sa off) :=
  ⟨fun h => (by first | exact ⟨rfl, rfl⟩ | cases h), fun h => (by first | rfl | cases h)⟩
theorem Laws.Wf.ldI16 (sd : SReg) (lv : Level) (sa : SReg) (off : BitVec 10) : Laws.Wf.Statement (.ldI16 sd lv sa off) :=
  ⟨fun h => (by first | exact ⟨rfl, rfl⟩ | cases h), fun h => (by first | rfl | cases h)⟩
theorem Laws.Wf.ldI32 (sd : SReg) (lv : Level) (sa : SReg) (off : BitVec 10) : Laws.Wf.Statement (.ldI32 sd lv sa off) :=
  ⟨fun h => (by first | exact ⟨rfl, rfl⟩ | cases h), fun h => (by first | rfl | cases h)⟩
theorem Laws.Wf.ldI64 (sd : SReg) (lv : Level) (sa : SReg) (off : BitVec 10) : Laws.Wf.Statement (.ldI64 sd lv sa off) :=
  ⟨fun h => (by first | exact ⟨rfl, rfl⟩ | cases h), fun h => (by first | rfl | cases h)⟩
theorem Laws.Wf.ldN8 (sd : SReg) (lv : Level) (sa : SReg) (off : BitVec 10) : Laws.Wf.Statement (.ldN8 sd lv sa off) :=
  ⟨fun h => (by first | exact ⟨rfl, rfl⟩ | cases h), fun h => (by first | rfl | cases h)⟩
theorem Laws.Wf.ldN16 (sd : SReg) (lv : Level) (sa : SReg) (off : BitVec 10) : Laws.Wf.Statement (.ldN16 sd lv sa off) :=
  ⟨fun h => (by first | exact ⟨rfl, rfl⟩ | cases h), fun h => (by first | rfl | cases h)⟩
theorem Laws.Wf.ldN32 (sd : SReg) (lv : Level) (sa : SReg) (off : BitVec 10) : Laws.Wf.Statement (.ldN32 sd lv sa off) :=
  ⟨fun h => (by first | exact ⟨rfl, rfl⟩ | cases h), fun h => (by first | rfl | cases h)⟩
theorem Laws.Wf.stI8 (sd : SReg) (lv : Level) (sa : SReg) (off : BitVec 10) : Laws.Wf.Statement (.stI8 sd lv sa off) :=
  ⟨fun h => (by first | exact ⟨rfl, rfl⟩ | cases h), fun h => (by first | rfl | cases h)⟩
theorem Laws.Wf.stI16 (sd : SReg) (lv : Level) (sa : SReg) (off : BitVec 10) : Laws.Wf.Statement (.stI16 sd lv sa off) :=
  ⟨fun h => (by first | exact ⟨rfl, rfl⟩ | cases h), fun h => (by first | rfl | cases h)⟩
theorem Laws.Wf.stI32 (sd : SReg) (lv : Level) (sa : SReg) (off : BitVec 10) : Laws.Wf.Statement (.stI32 sd lv sa off) :=
  ⟨fun h => (by first | exact ⟨rfl, rfl⟩ | cases h), fun h => (by first | rfl | cases h)⟩
theorem Laws.Wf.stI64 (sd : SReg) (lv : Level) (sa : SReg) (off : BitVec 10) : Laws.Wf.Statement (.stI64 sd lv sa off) :=
  ⟨fun h => (by first | exact ⟨rfl, rfl⟩ | cases h), fun h => (by first | rfl | cases h)⟩
theorem Laws.Wf.ldFf (sd : SReg) (lv : Level) (sa : SReg) (off : BitVec 10) : Laws.Wf.Statement (.ldFf sd lv sa off) :=
  ⟨fun h => (by first | exact ⟨rfl, rfl⟩ | cases h), fun h => (by first | rfl | cases h)⟩
theorem Laws.Wf.ldFe (sd : SReg) (lv : Level) (sa : SReg) (off : BitVec 10) : Laws.Wf.Statement (.ldFe sd lv sa off) :=
  ⟨fun h => (by first | exact ⟨rfl, rfl⟩ | cases h), fun h => (by first | rfl | cases h)⟩
theorem Laws.Wf.stEf (sd : SReg) (lv : Level) (sa : SReg) (off : BitVec 10) : Laws.Wf.Statement (.stEf sd lv sa off) :=
  ⟨fun h => (by first | exact ⟨rfl, rfl⟩ | cases h), fun h => (by first | rfl | cases h)⟩
theorem Laws.Wf.fullEmptyRelease (addr : Nat) : Laws.Wf.Statement (.fullEmptyRelease addr) :=
  ⟨fun h => (by first | exact ⟨rfl, rfl⟩ | cases h), fun h => (by first | rfl | cases h)⟩
theorem Laws.Wf.br (n : Bool) (p : PReg) (off : BitVec 17) : Laws.Wf.Statement (.br n p off) :=
  ⟨fun h => (by first | exact ⟨rfl, rfl⟩ | cases h), fun h => (by first | rfl | cases h)⟩
theorem Laws.Wf.loop (sc : SReg) (off : BitVec 17) : Laws.Wf.Statement (.loop sc off) :=
  ⟨fun h => (by first | exact ⟨rfl, rfl⟩ | cases h), fun h => (by first | rfl | cases h)⟩
theorem Laws.Wf.call (off : BitVec 24) : Laws.Wf.Statement (.call off) :=
  ⟨fun h => (by first | exact ⟨rfl, rfl⟩ | cases h), fun h => (by first | rfl | cases h)⟩
theorem Laws.Wf.ret : Laws.Wf.Statement (.ret) :=
  ⟨fun h => (by first | exact ⟨rfl, rfl⟩ | cases h), fun h => (by first | rfl | cases h)⟩
theorem Laws.Wf.bp (sa : SReg) : Laws.Wf.Statement (.bp sa) :=
  ⟨fun h => (by first | exact ⟨rfl, rfl⟩ | cases h), fun h => (by first | rfl | cases h)⟩
theorem Laws.Wf.callr (sa : SReg) : Laws.Wf.Statement (.callr sa) :=
  ⟨fun h => (by first | exact ⟨rfl, rfl⟩ | cases h), fun h => (by first | rfl | cases h)⟩
theorem Laws.Wf.tret : Laws.Wf.Statement (.tret) :=
  ⟨fun h => (by first | exact ⟨rfl, rfl⟩ | cases h), fun h => (by first | rfl | cases h)⟩
theorem Laws.Wf.tretSkip : Laws.Wf.Statement (.tretSkip) :=
  ⟨fun h => (by first | exact ⟨rfl, rfl⟩ | cases h), fun h => (by first | rfl | cases h)⟩
theorem Laws.Wf.nop : Laws.Wf.Statement (.nop) :=
  ⟨fun h => (by first | exact ⟨rfl, rfl⟩ | cases h), fun h => (by first | rfl | cases h)⟩
theorem Laws.Wf.getc (sd : SReg) (cr : CReg) : Laws.Wf.Statement (.getc sd cr) :=
  ⟨fun h => (by first | exact ⟨rfl, rfl⟩ | cases h), fun h => (by first | rfl | cases h)⟩
theorem Laws.Wf.setc (cr : CReg) (sa : SReg) : Laws.Wf.Statement (.setc cr sa) :=
  ⟨fun h => (by first | exact ⟨rfl, rfl⟩ | cases h), fun h => (by first | rfl | cases h)⟩
theorem Laws.Wf.trap (code : BitVec 8) : Laws.Wf.Statement (.trap code) :=
  ⟨fun h => (by first | exact ⟨rfl, rfl⟩ | cases h), fun h => (by first | rfl | cases h)⟩
theorem Laws.Wf.kill (cls : KillClass) (mask : BitVec 32) : Laws.Wf.Statement (.kill cls mask) :=
  ⟨fun h => (by first | exact ⟨rfl, rfl⟩ | cases h), fun h => (by first | rfl | cases h)⟩
theorem Laws.Wf.predicatedInstruction (n : Bool) (p : PReg) (i : Instr) : Laws.Wf.Statement (.predicatedInstruction n p i) :=
  ⟨fun h => (by first | exact ⟨rfl, rfl⟩ | cases h), fun h => (by first | rfl | cases h)⟩
theorem Laws.Wf.fence (sc : Scope) : Laws.Wf.Statement (.fence sc) :=
  ⟨fun h => (by first | exact ⟨rfl, rfl⟩ | cases h), fun h => (by first | rfl | cases h)⟩
theorem Laws.Wf.xfence : Laws.Wf.Statement (.xfence) :=
  ⟨fun h => (by first | exact ⟨rfl, rfl⟩ | cases h), fun h => (by first | rfl | cases h)⟩
theorem Laws.Wf.untaint (sa : SReg) : Laws.Wf.Statement (.untaint sa) :=
  ⟨fun h => (by first | exact ⟨rfl, rfl⟩ | cases h), fun h => (by first | rfl | cases h)⟩
theorem Laws.Wf.tfold : Laws.Wf.Statement (.tfold) :=
  ⟨fun h => (by first | exact ⟨rfl, rfl⟩ | cases h), fun h => (by first | rfl | cases h)⟩
theorem Laws.Wf.give (sq : BitVec 6) : Laws.Wf.Statement (.give sq) :=
  ⟨fun h => (by first | exact ⟨rfl, rfl⟩ | cases h), fun h => (by first | rfl | cases h)⟩
theorem Laws.Wf.take (sq : BitVec 6) : Laws.Wf.Statement (.take sq) :=
  ⟨fun h => (by first | exact ⟨rfl, rfl⟩ | cases h), fun h => (by first | rfl | cases h)⟩
theorem Laws.Wf.guard (sq : BitVec 6) : Laws.Wf.Statement (.guard sq) :=
  ⟨fun h => (by first | exact ⟨rfl, rfl⟩ | cases h), fun h => (by first | rfl | cases h)⟩
theorem Laws.Wf.unguard (sq : BitVec 6) : Laws.Wf.Statement (.unguard sq) :=
  ⟨fun h => (by first | exact ⟨rfl, rfl⟩ | cases h), fun h => (by first | rfl | cases h)⟩
theorem Laws.Wf.slip (n : BitVec 6) : Laws.Wf.Statement (.slip n) :=
  ⟨fun h => (by first | exact ⟨rfl, rfl⟩ | cases h), fun h => (by first | rfl | cases h)⟩
theorem Laws.Wf.drain (mask : BitVec 4) : Laws.Wf.Statement (.drain mask) :=
  ⟨fun h => (by first | exact ⟨rfl, rfl⟩ | cases h), fun h => (by first | rfl | cases h)⟩
theorem Laws.Wf.exit : Laws.Wf.Statement (.exit) :=
  ⟨fun h => (by first | exact ⟨rfl, rfl⟩ | cases h), fun h => (by first | rfl | cases h)⟩
theorem Laws.Wf.tokw (k : BitVec 4) : Laws.Wf.Statement (.tokw k) :=
  ⟨fun h => (by first | exact ⟨rfl, rfl⟩ | cases h), fun h => (by first | rfl | cases h)⟩
theorem Laws.Wf.toks (k : BitVec 4) : Laws.Wf.Statement (.toks k) :=
  ⟨fun h => (by first | exact ⟨rfl, rfl⟩ | cases h), fun h => (by first | rfl | cases h)⟩
theorem Laws.Wf.tick (sd : SReg) : Laws.Wf.Statement (.tick sd) :=
  ⟨fun h => (by first | exact ⟨rfl, rfl⟩ | cases h), fun h => (by first | rfl | cases h)⟩
theorem Laws.Wf.tickDc (sd sa : SReg) : Laws.Wf.Statement (.tickDc sd sa) :=
  ⟨fun h => (by first | exact ⟨rfl, rfl⟩ | cases h), fun h => (by first | rfl | cases h)⟩
theorem Laws.Wf.turn (sd : SReg) : Laws.Wf.Statement (.turn sd) :=
  ⟨fun h => (by first | exact ⟨rfl, rfl⟩ | cases h), fun h => (by first | rfl | cases h)⟩
theorem Laws.Wf.turnw (sa : SReg) : Laws.Wf.Statement (.turnw sa) :=
  ⟨fun h => (by first | exact ⟨rfl, rfl⟩ | cases h), fun h => (by first | rfl | cases h)⟩
theorem Laws.Wf.arrive (sc : Scope) : Laws.Wf.Statement (.arrive sc) :=
  ⟨fun h => (by first | exact ⟨rfl, rfl⟩ | cases h), fun h => (by first | rfl | cases h)⟩
theorem Laws.Wf.bwait (sc : Scope) : Laws.Wf.Statement (.bwait sc) :=
  ⟨fun h => (by first | exact ⟨rfl, rfl⟩ | cases h), fun h => (by first | rfl | cases h)⟩
theorem Laws.Wf.ldo (sd : SReg) (h : BitVec 4) (sa : SReg) (imm : BitVec 18) : Laws.Wf.Statement (.ldo sd h sa imm) :=
  ⟨fun h => (by first | exact ⟨rfl, rfl⟩ | cases h), fun h => (by first | rfl | cases h)⟩
theorem Laws.Wf.sto (h : BitVec 4) (sa : SReg) (imm : BitVec 18) (sb : SReg) : Laws.Wf.Statement (.sto h sa imm sb) :=
  ⟨fun h => (by first | exact ⟨rfl, rfl⟩ | cases h), fun h => (by first | rfl | cases h)⟩
theorem Laws.Wf.atomAdd (sd : SReg) (h : BitVec 4) (sa : SReg) (imm : BitVec 18) (sb : SReg) : Laws.Wf.Statement (.atomAdd sd h sa imm sb) :=
  ⟨fun h => (by first | exact ⟨rfl, rfl⟩ | cases h), fun h => (by first | rfl | cases h)⟩
theorem Laws.Wf.atomMinI64 (sd : SReg) (h : BitVec 4) (sa : SReg) (imm : BitVec 18) (sb : SReg) : Laws.Wf.Statement (.atomMinI64 sd h sa imm sb) :=
  ⟨fun h => (by first | exact ⟨rfl, rfl⟩ | cases h), fun h => (by first | rfl | cases h)⟩
theorem Laws.Wf.atomMinN64 (sd : SReg) (h : BitVec 4) (sa : SReg) (imm : BitVec 18) (sb : SReg) : Laws.Wf.Statement (.atomMinN64 sd h sa imm sb) :=
  ⟨fun h => (by first | exact ⟨rfl, rfl⟩ | cases h), fun h => (by first | rfl | cases h)⟩
theorem Laws.Wf.atomMaxI64 (sd : SReg) (h : BitVec 4) (sa : SReg) (imm : BitVec 18) (sb : SReg) : Laws.Wf.Statement (.atomMaxI64 sd h sa imm sb) :=
  ⟨fun h => (by first | exact ⟨rfl, rfl⟩ | cases h), fun h => (by first | rfl | cases h)⟩
theorem Laws.Wf.atomMaxN64 (sd : SReg) (h : BitVec 4) (sa : SReg) (imm : BitVec 18) (sb : SReg) : Laws.Wf.Statement (.atomMaxN64 sd h sa imm sb) :=
  ⟨fun h => (by first | exact ⟨rfl, rfl⟩ | cases h), fun h => (by first | rfl | cases h)⟩
theorem Laws.Wf.atomXchg (sd : SReg) (h : BitVec 4) (sa : SReg) (imm : BitVec 18) (sb : SReg) : Laws.Wf.Statement (.atomXchg sd h sa imm sb) :=
  ⟨fun h => (by first | exact ⟨rfl, rfl⟩ | cases h), fun h => (by first | rfl | cases h)⟩
theorem Laws.Wf.atomCas (sd : SReg) (h : BitVec 4) (sa : SReg) (imm : BitVec 18) (sb sc : SReg) : Laws.Wf.Statement (.atomCas sd h sa imm sb sc) :=
  ⟨fun h => (by first | exact ⟨rfl, rfl⟩ | cases h), fun h => (by first | rfl | cases h)⟩
theorem Laws.Wf.atomIncb (sd : SReg) (h : BitVec 4) (sa : SReg) (imm : BitVec 18) (sb : SReg) : Laws.Wf.Statement (.atomIncb sd h sa imm sb) :=
  ⟨fun h => (by first | exact ⟨rfl, rfl⟩ | cases h), fun h => (by first | rfl | cases h)⟩
theorem Laws.Wf.objectLoadCompletion (k : Nat) : Laws.Wf.Statement (.objectLoadCompletion k) :=
  ⟨fun h => (by first | exact ⟨rfl, rfl⟩ | cases h), fun h => (by first | rfl | cases h)⟩
theorem Laws.Wf.dld (d : BitVec 4) (sa : SReg) (imm : BitVec 18) : Laws.Wf.Statement (.dld d sa imm) :=
  ⟨fun h => (by first | exact ⟨rfl, rfl⟩ | cases h), fun h => (by first | rfl | cases h)⟩
theorem Laws.Wf.dst (d : BitVec 4) (sa : SReg) (imm : BitVec 18) : Laws.Wf.Statement (.dst d sa imm) :=
  ⟨fun h => (by first | exact ⟨rfl, rfl⟩ | cases h), fun h => (by first | rfl | cases h)⟩
theorem Laws.Wf.qld (q : BitVec 3) (sa : SReg) (imm : BitVec 18) : Laws.Wf.Statement (.qld q sa imm) :=
  ⟨fun h => (by first | exact ⟨rfl, rfl⟩ | cases h), fun h => (by first | rfl | cases h)⟩
theorem Laws.Wf.qst (q : BitVec 3) (sa : SReg) (imm : BitVec 18) : Laws.Wf.Statement (.qst q sa imm) :=
  ⟨fun h => (by first | exact ⟨rfl, rfl⟩ | cases h), fun h => (by first | rfl | cases h)⟩
theorem Laws.Wf.hopen (h : BitVec 4) (sa : SReg) : Laws.Wf.Statement (.hopen h sa) :=
  ⟨fun h => (by first | exact ⟨rfl, rfl⟩ | cases h), fun h => (by first | rfl | cases h)⟩
theorem Laws.Wf.hget (sd : SReg) (h : BitVec 4) : Laws.Wf.Statement (.hget sd h) :=
  ⟨fun h => (by first | exact ⟨rfl, rfl⟩ | cases h), fun h => (by first | rfl | cases h)⟩
theorem Laws.Wf.hdrop (h : BitVec 4) : Laws.Wf.Statement (.hdrop h) :=
  ⟨fun h => (by first | exact ⟨rfl, rfl⟩ | cases h), fun h => (by first | rfl | cases h)⟩
theorem Laws.Wf.hstat (sd : SReg) (h : BitVec 4) (r : Bool) (word : BitVec 3) : Laws.Wf.Statement (.hstat sd h r word) :=
  ⟨fun h => (by first | exact ⟨rfl, rfl⟩ | cases h), fun h => (by first | rfl | cases h)⟩
theorem Laws.Wf.lease (sd : SReg) (h : BitVec 4) (sa sb : SReg) (add nowait : Bool) : Laws.Wf.Statement (.lease sd h sa sb add nowait) :=
  ⟨fun h => (by first | exact ⟨rfl, rfl⟩ | cases h), fun h => (by first | rfl | cases h)⟩
theorem Laws.Wf.leaseGrant (k : Nat) : Laws.Wf.Statement (.leaseGrant k) :=
  ⟨fun h => (by first | exact ⟨rfl, rfl⟩ | cases h), fun h => (by first | rfl | cases h)⟩
theorem Laws.Wf.unlease (h : BitVec 4) (sa : SReg) : Laws.Wf.Statement (.unlease h sa) :=
  ⟨fun h => (by first | exact ⟨rfl, rfl⟩ | cases h), fun h => (by first | rfl | cases h)⟩
theorem Laws.Wf.publish (sd : SReg) (h : BitVec 4) : Laws.Wf.Statement (.publish sd h) :=
  ⟨fun h => (by first | exact ⟨rfl, rfl⟩ | cases h), fun h => (by first | rfl | cases h)⟩
theorem Laws.Wf.subscribe (sd : SReg) (h : BitVec 4) (sa : SReg) : Laws.Wf.Statement (.subscribe sd h sa) :=
  ⟨fun h => (by first | exact ⟨rfl, rfl⟩ | cases h), fun h => (by first | rfl | cases h)⟩
theorem Laws.Wf.ver (sd : SReg) (h : BitVec 4) : Laws.Wf.Statement (.ver sd h) :=
  ⟨fun h => (by first | exact ⟨rfl, rfl⟩ | cases h), fun h => (by first | rfl | cases h)⟩
theorem Laws.Wf.tokset (k : BitVec 4) (prod cons : Agent) (n : BitVec 8) : Laws.Wf.Statement (.tokset k prod cons n) :=
  ⟨fun h => (by first | exact ⟨rfl, rfl⟩ | cases h), fun h => (by first | rfl | cases h)⟩
theorem Laws.Wf.mwait (sd : SReg) (loc : MwaitLoc) (sa : SReg) (imm : BitVec 18) (sb : SReg) : Laws.Wf.Statement (.mwait sd loc sa imm sb) :=
  ⟨fun h => (by first | exact ⟨rfl, rfl⟩ | cases h), fun h => (by first | rfl | cases h)⟩
theorem Laws.Wf.watch (sd : SReg) (h : BitVec 4) (sa : SReg) (imm : BitVec 18) (sb : SReg) : Laws.Wf.Statement (.watch sd h sa imm sb) :=
  ⟨fun h => (by first | exact ⟨rfl, rfl⟩ | cases h), fun h => (by first | rfl | cases h)⟩
theorem Laws.Wf.unwatch (sa : SReg) : Laws.Wf.Statement (.unwatch sa) :=
  ⟨fun h => (by first | exact ⟨rfl, rfl⟩ | cases h), fun h => (by first | rfl | cases h)⟩
theorem Laws.Wf.launch (sd sa sb : SReg) : Laws.Wf.Statement (.launch sd sa sb) :=
  ⟨fun h => (by first | exact ⟨rfl, rfl⟩ | cases h), fun h => (by first | rfl | cases h)⟩
theorem Laws.Wf.lend (t : BitVec 4) (vec : Bool) : Laws.Wf.Statement (.lend t vec) :=
  ⟨fun h => (by first | exact ⟨rfl, rfl⟩ | cases h), fun h => (by first | rfl | cases h)⟩
theorem Laws.Wf.sbind (g : BitVec 3) (hin hout : BitVec 4) (sth sst : SReg) (maxskip : BitVec 18) : Laws.Wf.Statement (.sbind g hin hout sth sst maxskip) :=
  ⟨fun h => (by first | exact ⟨rfl, rfl⟩ | cases h), fun h => (by first | rfl | cases h)⟩
theorem Laws.Wf.sgate (pd : PReg) (sj : SReg) (g : BitVec 3) : Laws.Wf.Statement (.sgate pd sj g) :=
  ⟨fun h => (by first | exact ⟨rfl, rfl⟩ | cases h), fun h => (by first | rfl | cases h)⟩
theorem Laws.Wf.smap (sd : SReg) (g : BitVec 3) (sel : BitVec 18) (sa : SReg) : Laws.Wf.Statement (.smap sd g sel sa) :=
  ⟨fun h => (by first | exact ⟨rfl, rfl⟩ | cases h), fun h => (by first | rfl | cases h)⟩
theorem Laws.Wf.sstep (g : BitVec 3) : Laws.Wf.Statement (.sstep g) :=
  ⟨fun h => (by first | exact ⟨rfl, rfl⟩ | cases h), fun h => (by first | rfl | cases h)⟩
theorem Laws.Wf.cbtok (sd sa : SReg) (imm : BitVec 18) : Laws.Wf.Statement (.cbtok sd sa imm) :=
  ⟨fun h => (by first | exact ⟨rfl, rfl⟩ | cases h), fun h => (by first | rfl | cases h)⟩
theorem Laws.Wf.nonblockingDispatch (p : PReg) (c : Instr) : Laws.Wf.Statement (.nonblockingDispatch p c) :=
  ⟨fun h => (by first | exact ⟨rfl, rfl⟩ | cases h), fun h => (by first | rfl | cases h)⟩
theorem Laws.Wf.engineCommandStart (e : Engine) : Laws.Wf.Statement (.engineCommandStart e) :=
  ⟨fun h => (by first | exact ⟨rfl, rfl⟩ | cases h), fun h => (by first | rfl | cases h)⟩
theorem Laws.Wf.engineCommandCompletion (e : Engine) : Laws.Wf.Statement (.engineCommandCompletion e) :=
  ⟨fun h => (by first | exact ⟨rfl, rfl⟩ | cases h), fun h => (by first | rfl | cases h)⟩
theorem Laws.Wf.vadd (h : Hdr) (o : VaOp) : Laws.Wf.Statement (.vadd h o) :=
  ⟨fun h => (by first | exact ⟨rfl, rfl⟩ | cases h), fun h => (by first | rfl | cases h)⟩
theorem Laws.Wf.vsub (h : Hdr) (o : VaOp) : Laws.Wf.Statement (.vsub h o) :=
  ⟨fun h => (by first | exact ⟨rfl, rfl⟩ | cases h), fun h => (by first | rfl | cases h)⟩
theorem Laws.Wf.vmul (h : Hdr) (o : VaOp) : Laws.Wf.Statement (.vmul h o) :=
  ⟨fun h => (by first | exact ⟨rfl, rfl⟩ | cases h), fun h => (by first | rfl | cases h)⟩
theorem Laws.Wf.vfma (h : Hdr) (o : VaOp) : Laws.Wf.Statement (.vfma h o) :=
  ⟨fun h => (by first | exact ⟨rfl, rfl⟩ | cases h), fun h => (by first | rfl | cases h)⟩
theorem Laws.Wf.vmax (h : Hdr) (o : VaOp) : Laws.Wf.Statement (.vmax h o) :=
  ⟨fun h => (by first | exact ⟨rfl, rfl⟩ | cases h), fun h => (by first | rfl | cases h)⟩
theorem Laws.Wf.vmin (h : Hdr) (o : VaOp) : Laws.Wf.Statement (.vmin h o) :=
  ⟨fun h => (by first | exact ⟨rfl, rfl⟩ | cases h), fun h => (by first | rfl | cases h)⟩
theorem Laws.Wf.vmaxN (h : Hdr) (o : VaOp) : Laws.Wf.Statement (.vmaxN h o) :=
  ⟨fun h => (by first | exact ⟨rfl, rfl⟩ | cases h), fun h => (by first | rfl | cases h)⟩
theorem Laws.Wf.vminN (h : Hdr) (o : VaOp) : Laws.Wf.Statement (.vminN h o) :=
  ⟨fun h => (by first | exact ⟨rfl, rfl⟩ | cases h), fun h => (by first | rfl | cases h)⟩
theorem Laws.Wf.vabs (h : Hdr) (o : VaOp) : Laws.Wf.Statement (.vabs h o) :=
  ⟨fun h => (by first | exact ⟨rfl, rfl⟩ | cases h), fun h => (by first | rfl | cases h)⟩
theorem Laws.Wf.vneg (h : Hdr) (o : VaOp) : Laws.Wf.Statement (.vneg h o) :=
  ⟨fun h => (by first | exact ⟨rfl, rfl⟩ | cases h), fun h => (by first | rfl | cases h)⟩
theorem Laws.Wf.vexp2 (h : Hdr) (o : VaOp) : Laws.Wf.Statement (.vexp2 h o) :=
  ⟨fun h => (by first | exact ⟨rfl, rfl⟩ | cases h), fun h => (by first | rfl | cases h)⟩
theorem Laws.Wf.vrcp (h : Hdr) (o : VaOp) : Laws.Wf.Statement (.vrcp h o) :=
  ⟨fun h => (by first | exact ⟨rfl, rfl⟩ | cases h), fun h => (by first | rfl | cases h)⟩
theorem Laws.Wf.vrsqrt (h : Hdr) (o : VaOp) : Laws.Wf.Statement (.vrsqrt h o) :=
  ⟨fun h => (by first | exact ⟨rfl, rfl⟩ | cases h), fun h => (by first | rfl | cases h)⟩
theorem Laws.Wf.vand (h : Hdr) (o : VaOp) : Laws.Wf.Statement (.vand h o) :=
  ⟨fun h => (by first | exact ⟨rfl, rfl⟩ | cases h), fun h => (by first | rfl | cases h)⟩
theorem Laws.Wf.vor (h : Hdr) (o : VaOp) : Laws.Wf.Statement (.vor h o) :=
  ⟨fun h => (by first | exact ⟨rfl, rfl⟩ | cases h), fun h => (by first | rfl | cases h)⟩
theorem Laws.Wf.vxor (h : Hdr) (o : VaOp) : Laws.Wf.Statement (.vxor h o) :=
  ⟨fun h => (by first | exact ⟨rfl, rfl⟩ | cases h), fun h => (by first | rfl | cases h)⟩
theorem Laws.Wf.vshl (h : Hdr) (o : VaOp) : Laws.Wf.Statement (.vshl h o) :=
  ⟨fun h => (by first | exact ⟨rfl, rfl⟩ | cases h), fun h => (by first | rfl | cases h)⟩
theorem Laws.Wf.vshr (h : Hdr) (o : VaOp) : Laws.Wf.Statement (.vshr h o) :=
  ⟨fun h => (by first | exact ⟨rfl, rfl⟩ | cases h), fun h => (by first | rfl | cases h)⟩
theorem Laws.Wf.vsar (h : Hdr) (o : VaOp) : Laws.Wf.Statement (.vsar h o) :=
  ⟨fun h => (by first | exact ⟨rfl, rfl⟩ | cases h), fun h => (by first | rfl | cases h)⟩
theorem Laws.Wf.vsel (h : Hdr) (o : VaOp) : Laws.Wf.Statement (.vsel h o) :=
  ⟨fun h => (by first | exact ⟨rfl, rfl⟩ | cases h), fun h => (by first | rfl | cases h)⟩
theorem Laws.Wf.vcmpEq (h : Hdr) (o : VaOp) : Laws.Wf.Statement (.vcmpEq h o) :=
  ⟨fun h => (by first | exact ⟨rfl, rfl⟩ | cases h), fun h => (by first | rfl | cases h)⟩
theorem Laws.Wf.vcmpNe (h : Hdr) (o : VaOp) : Laws.Wf.Statement (.vcmpNe h o) :=
  ⟨fun h => (by first | exact ⟨rfl, rfl⟩ | cases h), fun h => (by first | rfl | cases h)⟩
theorem Laws.Wf.vcmpLt (h : Hdr) (o : VaOp) : Laws.Wf.Statement (.vcmpLt h o) :=
  ⟨fun h => (by first | exact ⟨rfl, rfl⟩ | cases h), fun h => (by first | rfl | cases h)⟩
theorem Laws.Wf.vcmpGe (h : Hdr) (o : VaOp) : Laws.Wf.Statement (.vcmpGe h o) :=
  ⟨fun h => (by first | exact ⟨rfl, rfl⟩ | cases h), fun h => (by first | rfl | cases h)⟩
theorem Laws.Wf.vcmpLtN (h : Hdr) (o : VaOp) : Laws.Wf.Statement (.vcmpLtN h o) :=
  ⟨fun h => (by first | exact ⟨rfl, rfl⟩ | cases h), fun h => (by first | rfl | cases h)⟩
theorem Laws.Wf.vcmpGeN (h : Hdr) (o : VaOp) : Laws.Wf.Statement (.vcmpGeN h o) :=
  ⟨fun h => (by first | exact ⟨rfl, rfl⟩ | cases h), fun h => (by first | rfl | cases h)⟩
theorem Laws.Wf.vredAdd (h : Hdr) (o : VaOp) : Laws.Wf.Statement (.vredAdd h o) :=
  ⟨fun h => (by first | exact ⟨rfl, rfl⟩ | cases h), fun h => (by first | rfl | cases h)⟩
theorem Laws.Wf.vredAddN (h : Hdr) (o : VaOp) : Laws.Wf.Statement (.vredAddN h o) :=
  ⟨fun h => (by first | exact ⟨rfl, rfl⟩ | cases h), fun h => (by first | rfl | cases h)⟩
theorem Laws.Wf.vredMax (h : Hdr) (o : VaOp) : Laws.Wf.Statement (.vredMax h o) :=
  ⟨fun h => (by first | exact ⟨rfl, rfl⟩ | cases h), fun h => (by first | rfl | cases h)⟩
theorem Laws.Wf.vredMin (h : Hdr) (o : VaOp) : Laws.Wf.Statement (.vredMin h o) :=
  ⟨fun h => (by first | exact ⟨rfl, rfl⟩ | cases h), fun h => (by first | rfl | cases h)⟩
theorem Laws.Wf.vredMaxN (h : Hdr) (o : VaOp) : Laws.Wf.Statement (.vredMaxN h o) :=
  ⟨fun h => (by first | exact ⟨rfl, rfl⟩ | cases h), fun h => (by first | rfl | cases h)⟩
theorem Laws.Wf.vredMinN (h : Hdr) (o : VaOp) : Laws.Wf.Statement (.vredMinN h o) :=
  ⟨fun h => (by first | exact ⟨rfl, rfl⟩ | cases h), fun h => (by first | rfl | cases h)⟩
theorem Laws.Wf.vmov (h : Hdr) (o : VaOp) : Laws.Wf.Statement (.vmov h o) :=
  ⟨fun h => (by first | exact ⟨rfl, rfl⟩ | cases h), fun h => (by first | rfl | cases h)⟩
theorem Laws.Wf.vaddSat (h : Hdr) (o : VaOp) : Laws.Wf.Statement (.vaddSat h o) :=
  ⟨fun h => (by first | exact ⟨rfl, rfl⟩ | cases h), fun h => (by first | rfl | cases h)⟩
theorem Laws.Wf.vaddSatN (h : Hdr) (o : VaOp) : Laws.Wf.Statement (.vaddSatN h o) :=
  ⟨fun h => (by first | exact ⟨rfl, rfl⟩ | cases h), fun h => (by first | rfl | cases h)⟩
theorem Laws.Wf.vsubSat (h : Hdr) (o : VaOp) : Laws.Wf.Statement (.vsubSat h o) :=
  ⟨fun h => (by first | exact ⟨rfl, rfl⟩ | cases h), fun h => (by first | rfl | cases h)⟩
theorem Laws.Wf.vsubSatN (h : Hdr) (o : VaOp) : Laws.Wf.Statement (.vsubSatN h o) :=
  ⟨fun h => (by first | exact ⟨rfl, rfl⟩ | cases h), fun h => (by first | rfl | cases h)⟩
theorem Laws.Wf.vld (h : Hdr) (off : BitVec 15) (sa : SReg) (wd : WReg) : Laws.Wf.Statement (.vld h off sa wd) :=
  ⟨fun h => (by first | exact ⟨rfl, rfl⟩ | cases h), fun h => (by first | rfl | cases h)⟩
theorem Laws.Wf.vst (h : Hdr) (dead : Bool) (off : BitVec 15) (sa : SReg) (ws : WReg) : Laws.Wf.Statement (.vst h dead off sa ws) :=
  ⟨fun h => (by first | exact ⟨rfl, rfl⟩ | cases h), fun h => (by first | rfl | cases h)⟩
theorem Laws.Wf.vcvt (h : Hdr) (dead : Bool) (part : BitVec 2) (sf df : BitVec 5) (wa wd : WReg) : Laws.Wf.Statement (.vcvt h dead part sf df wa wd) :=
  ⟨fun h => (by first | exact ⟨rfl, rfl⟩ | cases h), fun h => (by first | rfl | cases h)⟩
theorem Laws.Wf.vbcast (h : Hdr) (t : ElemT) (sa : SReg) (wd : WReg) : Laws.Wf.Statement (.vbcast h t sa wd) :=
  ⟨fun h => (by first | exact ⟨rfl, rfl⟩ | cases h), fun h => (by first | rfl | cases h)⟩
theorem Laws.Wf.vxset (h : Hdr) (dead : Bool) (wa : WReg) (c : BitVec 3) : Laws.Wf.Statement (.vxset h dead wa c) :=
  ⟨fun h => (by first | exact ⟨rfl, rfl⟩ | cases h), fun h => (by first | rfl | cases h)⟩
theorem Laws.Wf.vperm (h : Hdr) (dead : Bool) (t : ElemT) (c : BitVec 3) (wa wd : WReg) : Laws.Wf.Statement (.vperm h dead t c wa wd) :=
  ⟨fun h => (by first | exact ⟨rfl, rfl⟩ | cases h), fun h => (by first | rfl | cases h)⟩
theorem Laws.Wf.vtopk (h : Hdr) (dead : Bool) (t : ElemT) (k : BitVec 8) (wa wd : WReg) : Laws.Wf.Statement (.vtopk h dead t k wa wd) :=
  ⟨fun h => (by first | exact ⟨rfl, rfl⟩ | cases h), fun h => (by first | rfl | cases h)⟩
theorem Laws.Wf.vext (h : Hdr) (dead : Bool) (t : ElemT) (lane : BitVec 7) (wa : WReg) (sd : SReg) : Laws.Wf.Statement (.vext h dead t lane wa sd) :=
  ⟨fun h => (by first | exact ⟨rfl, rfl⟩ | cases h), fun h => (by first | rfl | cases h)⟩
theorem Laws.Wf.vins (h : Hdr) (t : ElemT) (lane : BitVec 7) (sa : SReg) (wd : WReg) : Laws.Wf.Statement (.vins h t lane sa wd) :=
  ⟨fun h => (by first | exact ⟨rfl, rfl⟩ | cases h), fun h => (by first | rfl | cases h)⟩
theorem Laws.Wf.mmul (h : Hdr) (o : MatOp) : Laws.Wf.Statement (.mmul h o) :=
  ⟨fun h => (by first | exact ⟨rfl, rfl⟩ | cases h), fun h => (by first | rfl | cases h)⟩
theorem Laws.Wf.mmulG (h : Hdr) (o : MatOp) (deadI : Bool) (wi : WReg) : Laws.Wf.Statement (.mmulG h o deadI wi) :=
  ⟨fun h => (by first | exact ⟨rfl, rfl⟩ | cases h), fun h => (by first | rfl | cases h)⟩
theorem Laws.Wf.mmulS (h : Hdr) (o : MatOp) (dsx : BitVec 4) : Laws.Wf.Statement (.mmulS h o dsx) :=
  ⟨fun h => (by first | exact ⟨rfl, rfl⟩ | cases h), fun h => (by first | rfl | cases h)⟩
theorem Laws.Wf.mzero (h : Hdr) (td : BitVec 4) : Laws.Wf.Statement (.mzero h td) :=
  ⟨fun h => (by first | exact ⟨rfl, rfl⟩ | cases h), fun h => (by first | rfl | cases h)⟩
theorem Laws.Wf.mxpack (h : Hdr) (af i32 : Bool) (dd td : BitVec 4) : Laws.Wf.Statement (.mxpack h af i32 dd td) :=
  ⟨fun h => (by first | exact ⟨rfl, rfl⟩ | cases h), fun h => (by first | rfl | cases h)⟩
theorem Laws.Wf.fetch (h : Hdr) (o : TileOp) : Laws.Wf.Statement (.fetch h o) :=
  ⟨fun h => (by first | exact ⟨rfl, rfl⟩ | cases h), fun h => (by first | rfl | cases h)⟩
theorem Laws.Wf.fetchIx (h : Hdr) (dl : BitVec 4) (si : SReg) (q : BitVec 3) (ds ha : BitVec 4) : Laws.Wf.Statement (.fetchIx h dl si q ds ha) :=
  ⟨fun h => (by first | exact ⟨rfl, rfl⟩ | cases h), fun h => (by first | rfl | cases h)⟩
theorem Laws.Wf.fetchStep (h : Hdr) (sj : SReg) (g : BitVec 3) (si : SReg) (q : BitVec 3) (ds ha : BitVec 4) : Laws.Wf.Statement (.fetchStep h sj g si q ds ha) :=
  ⟨fun h => (by first | exact ⟨rfl, rfl⟩ | cases h), fun h => (by first | rfl | cases h)⟩
theorem Laws.Wf.relay (h : Hdr) (lvs : Level) (sx : SReg) (dd : BitVec 4) (lvd : Level) (si : SReg) (ds : BitVec 4) : Laws.Wf.Statement (.relay h lvs sx dd lvd si ds) :=
  ⟨fun h => (by first | exact ⟨rfl, rfl⟩ | cases h), fun h => (by first | rfl | cases h)⟩
theorem Laws.Wf.put (h : Hdr) (o : TileOp) : Laws.Wf.Statement (.put h o) :=
  ⟨fun h => (by first | exact ⟨rfl, rfl⟩ | cases h), fun h => (by first | rfl | cases h)⟩
theorem Laws.Wf.putAdd (h : Hdr) (o : TileOp) : Laws.Wf.Statement (.putAdd h o) :=
  ⟨fun h => (by first | exact ⟨rfl, rfl⟩ | cases h), fun h => (by first | rfl | cases h)⟩
theorem Laws.Wf.xcopy (h : Hdr) (sx : SReg) (dd : BitVec 4) (si : SReg) (ds : BitVec 4) : Laws.Wf.Statement (.xcopy h sx dd si ds) :=
  ⟨fun h => (by first | exact ⟨rfl, rfl⟩ | cases h), fun h => (by first | rfl | cases h)⟩
theorem Laws.Wf.poolFill (h : Hdr) (sx si : SReg) (q : BitVec 3) (ha : BitVec 4) : Laws.Wf.Statement (.poolFill h sx si q ha) :=
  ⟨fun h => (by first | exact ⟨rfl, rfl⟩ | cases h), fun h => (by first | rfl | cases h)⟩
theorem Laws.Wf.poolCopy (h : Hdr) (sx : SReg) (hsrc : BitVec 4) (si : SReg) (q : BitVec 3) (ha : BitVec 4) : Laws.Wf.Statement (.poolCopy h sx hsrc si q ha) :=
  ⟨fun h => (by first | exact ⟨rfl, rfl⟩ | cases h), fun h => (by first | rfl | cases h)⟩
theorem Laws.Wf.poolCmp (h : Hdr) (sx : SReg) (h2 : BitVec 4) (si : SReg) (q : BitVec 3) (ds ha : BitVec 4) : Laws.Wf.Statement (.poolCmp h sx h2 si q ds ha) :=
  ⟨fun h => (by first | exact ⟨rfl, rfl⟩ | cases h), fun h => (by first | rfl | cases h)⟩
theorem Laws.Wf.poolRed (h : Hdr) (op : RedOp) (sx : SReg) (hsrc : BitVec 4) (si : SReg) (q : BitVec 3) (ha : BitVec 4) : Laws.Wf.Statement (.poolRed h op sx hsrc si q ha) :=
  ⟨fun h => (by first | exact ⟨rfl, rfl⟩ | cases h), fun h => (by first | rfl | cases h)⟩
theorem Laws.Wf.sreuse (h : Hdr) (g : BitVec 3) (si : SReg) (ds : BitVec 4) : Laws.Wf.Statement (.sreuse h g si ds) :=
  ⟨fun h => (by first | exact ⟨rfl, rfl⟩ | cases h), fun h => (by first | rfl | cases h)⟩
theorem Laws.Wf.illegalInstruction (w0 w1 : BitVec 32) : Laws.Wf.Statement (.illegalInstruction w0 w1) :=
  ⟨fun h => (by first | exact ⟨rfl, rfl⟩ | cases h), fun h => (by first | rfl | cases h)⟩
theorem Laws.Wf.fetchFault (addr : BitVec 32) : Laws.Wf.Statement (.fetchFault addr) :=
  ⟨fun h => (by first | exact ⟨rfl, rfl⟩ | cases h), fun h => (by first | rfl | cases h)⟩
theorem Laws.Wf.accessReplay (site : Site) : Laws.Wf.Statement (.accessReplay site) :=
  ⟨fun h => (by first | exact ⟨rfl, rfl⟩ | cases h), fun h => (by first | rfl | cases h)⟩
theorem Laws.Wf.blockRetirement : Laws.Wf.Statement (.blockRetirement) :=
  ⟨fun h => (by first | exact ⟨rfl, rfl⟩ | cases h), fun h => (by first | rfl | cases h)⟩
theorem Laws.Wf.launchNotify (fn : BitVec 6) (q : BitVec 8) (tail : BitVec 32) : Laws.Wf.Statement (.launchNotify fn q tail) :=
  ⟨fun h => (by first | exact ⟨rfl, rfl⟩ | cases h), fun h => (by first | rfl | cases h)⟩
theorem Laws.Wf.launchAdmission (fn : BitVec 6) (q : BitVec 8) : Laws.Wf.Statement (.launchAdmission fn q) :=
  ⟨fun h => (by first | exact ⟨rfl, rfl⟩ | cases h), fun h => (by first | rfl | cases h)⟩
theorem Laws.Wf.queueUnmap (fn : BitVec 6) (q : BitVec 8) : Laws.Wf.Statement (.queueUnmap fn q) :=
  ⟨fun h => (by first | exact ⟨rfl, rfl⟩ | cases h), fun h => (by first | rfl | cases h)⟩
theorem Laws.Wf.pendingScan (die : BitVec 2) : Laws.Wf.Statement (.pendingScan die) :=
  ⟨fun h => (by first | exact ⟨rfl, rfl⟩ | cases h), fun h => (by first | rfl | cases h)⟩
theorem Laws.Wf.dispatcherPick (die : BitVec 2) : Laws.Wf.Statement (.dispatcherPick die) :=
  ⟨fun h => (by first | exact ⟨rfl, rfl⟩ | cases h), fun h => (by first | rfl | cases h)⟩
theorem Laws.Wf.gangReservation (slot : Nat) : Laws.Wf.Statement (.gangReservation slot) :=
  ⟨fun h => (by first | exact ⟨rfl, rfl⟩ | cases h), fun h => (by first | rfl | cases h)⟩
theorem Laws.Wf.watchdogExpiry (slot : Nat) : Laws.Wf.Statement (.watchdogExpiry slot) :=
  ⟨fun h => (by first | exact ⟨rfl, rfl⟩ | cases h), fun h => (by first | rfl | cases h)⟩
theorem Laws.Wf.dieFailure (die : BitVec 2) : Laws.Wf.Statement (.dieFailure die) :=
  ⟨fun h => (by first | exact ⟨rfl, rfl⟩ | cases h), fun h => (by first | rfl | cases h)⟩
theorem Laws.Wf.descSync : Laws.Wf.Statement (.descSync) :=
  ⟨fun h => (by first | exact ⟨rfl, rfl⟩ | cases h), fun h => (by first | rfl | cases h)⟩
theorem Laws.Wf.shoot : Laws.Wf.Statement (.shoot) :=
  ⟨fun h => (by first | exact ⟨rfl, rfl⟩ | cases h), fun h => (by first | rfl | cases h)⟩
theorem Laws.Wf.g2Shoot : Laws.Wf.Statement (.g2Shoot) :=
  ⟨fun h => (by first | exact ⟨rfl, rfl⟩ | cases h), fun h => (by first | rfl | cases h)⟩
theorem Laws.Wf.fbFlush : Laws.Wf.Statement (.fbFlush) :=
  ⟨fun h => (by first | exact ⟨rfl, rfl⟩ | cases h), fun h => (by first | rfl | cases h)⟩
theorem Laws.Wf.counterMove : Laws.Wf.Statement (.counterMove) :=
  ⟨fun h => (by first | exact ⟨rfl, rfl⟩ | cases h), fun h => (by first | rfl | cases h)⟩
theorem Laws.Wf.twrite : Laws.Wf.Statement (.twrite) :=
  ⟨fun h => (by first | exact ⟨rfl, rfl⟩ | cases h), fun h => (by first | rfl | cases h)⟩
theorem Laws.Wf.tread : Laws.Wf.Statement (.tread) :=
  ⟨fun h => (by first | exact ⟨rfl, rfl⟩ | cases h), fun h => (by first | rfl | cases h)⟩
theorem Laws.Wf.fbheadWrite (die : BitVec 2) (v : BitVec 32) : Laws.Wf.Statement (.fbheadWrite die v) :=
  ⟨fun h => (by first | exact ⟨rfl, rfl⟩ | cases h), fun h => (by first | rfl | cases h)⟩
theorem Laws.Wf.dcvalWrite (v : BitVec 64) : Laws.Wf.Statement (.dcvalWrite v) :=
  ⟨fun h => (by first | exact ⟨rfl, rfl⟩ | cases h), fun h => (by first | rfl | cases h)⟩
theorem Laws.Wf.ttctlWrite (v : BitVec 64) : Laws.Wf.Statement (.ttctlWrite v) :=
  ⟨fun h => (by first | exact ⟨rfl, rfl⟩ | cases h), fun h => (by first | rfl | cases h)⟩
theorem Laws.Wf.timetableRelease (part : BitVec 4) : Laws.Wf.Statement (.timetableRelease part) :=
  ⟨fun h => (by first | exact ⟨rfl, rfl⟩ | cases h), fun h => (by first | rfl | cases h)⟩
theorem Laws.Wf.turnBoundary (part : BitVec 4) : Laws.Wf.Statement (.turnBoundary part) :=
  ⟨fun h => (by first | exact ⟨rfl, rfl⟩ | cases h), fun h => (by first | rfl | cases h)⟩
theorem Laws.Wf.ptpEventFrame (port : BitVec 5) (f : TimeFrame) : Laws.Wf.Statement (.ptpEventFrame port f) :=
  ⟨fun h => (by first | exact ⟨rfl, rfl⟩ | cases h), fun h => (by first | rfl | cases h)⟩
theorem Laws.Wf.frameEdge (part : BitVec 4) : Laws.Wf.Statement (.frameEdge part) :=
  ⟨fun h => (by first | exact ⟨rfl, rfl⟩ | cases h), fun h => (by first | rfl | cases h)⟩
theorem Laws.Wf.clearboardToken (part : BitVec 4) : Laws.Wf.Statement (.clearboardToken part) :=
  ⟨fun h => (by first | exact ⟨rfl, rfl⟩ | cases h), fun h => (by first | rfl | cases h)⟩
theorem Laws.Wf.tokcopy (addr : BitVec 64) : Laws.Wf.Statement (.tokcopy addr) :=
  ⟨fun h => (by first | exact ⟨rfl, rfl⟩ | cases h), fun h => (by first | rfl | cases h)⟩
theorem Laws.Wf.vfreset (fn : BitVec 6) : Laws.Wf.Statement (.vfreset fn) :=
  ⟨fun h => (by first | exact ⟨rfl, rfl⟩ | cases h), fun h => (by first | rfl | cases h)⟩
theorem Laws.Wf.securityAlarm (cause : BitVec 5) : Laws.Wf.Statement (.securityAlarm cause) :=
  ⟨fun h => (by first | exact ⟨rfl, rfl⟩ | cases h), fun h => (by first | rfl | cases h)⟩
theorem Laws.Wf.packageReset : Laws.Wf.Statement (.packageReset) :=
  ⟨fun h => (by first | exact ⟨rfl, rfl⟩ | cases h), fun h => (by first | rfl | cases h)⟩
theorem Laws.Wf.boot : Laws.Wf.Statement (.boot) :=
  ⟨fun h => (by first | exact ⟨rfl, rfl⟩ | cases h), fun h => (by first | rfl | cases h)⟩
theorem Laws.Wf.recoveryStart : Laws.Wf.Statement (.recoveryStart) :=
  ⟨fun h => (by first | exact ⟨rfl, rfl⟩ | cases h), fun h => (by first | rfl | cases h)⟩
theorem Laws.Wf.inFieldTest (core : Core) (pass : Bool) : Laws.Wf.Statement (.inFieldTest core pass) :=
  ⟨fun h => (by first | exact ⟨rfl, rfl⟩ | cases h), fun h => (by first | rfl | cases h)⟩
theorem Laws.Wf.singleFaultDetection (kind : FaultKind) (core : Core) : Laws.Wf.Statement (.singleFaultDetection kind core) :=
  ⟨fun h => (by first | exact ⟨rfl, rfl⟩ | cases h), fun h => (by first | rfl | cases h)⟩
theorem Laws.Wf.hostLoad (port : HostFrame) (tag : BitVec 12) (addr : BitVec 64) (len : Nat) : Laws.Wf.Statement (.hostLoad port tag addr len) :=
  ⟨fun h => (by first | exact ⟨rfl, rfl⟩ | cases h), fun h => (by first | rfl | cases h)⟩
theorem Laws.Wf.hostStore (port : HostFrame) (tag : BitVec 12) (addr : BitVec 64) (data : List Byte) : Laws.Wf.Statement (.hostStore port tag addr data) :=
  ⟨fun h => (by first | exact ⟨rfl, rfl⟩ | cases h), fun h => (by first | rfl | cases h)⟩
theorem Laws.Wf.hostRequestTimeout (k : Nat) : Laws.Wf.Statement (.hostRequestTimeout k) :=
  ⟨fun h => (by first | exact ⟨rfl, rfl⟩ | cases h), fun h => (by first | rfl | cases h)⟩
theorem Laws.Wf.apertureDescriptorWrite (port : HostFrame) (tag : BitVec 12) (fn : BitVec 6) (a : BitVec 4) (word : Bool) (v : BitVec 64) : Laws.Wf.Statement (.apertureDescriptorWrite port tag fn a word v) :=
  ⟨fun h => (by first | exact ⟨rfl, rfl⟩ | cases h), fun h => (by first | rfl | cases h)⟩
theorem Laws.Wf.serviceNotify (port : HostFrame) (tag : BitVec 12) (fn : BitVec 6) (v : BitVec 64) : Laws.Wf.Statement (.serviceNotify port tag fn v) :=
  ⟨fun h => (by first | exact ⟨rfl, rfl⟩ | cases h), fun h => (by first | rfl | cases h)⟩
theorem Laws.Wf.hostLinkUp (port : Bool) : Laws.Wf.Statement (.hostLinkUp port) :=
  ⟨fun h => (by first | exact ⟨rfl, rfl⟩ | cases h), fun h => (by first | rfl | cases h)⟩
theorem Laws.Wf.hostLinkDown (port : Bool) : Laws.Wf.Statement (.hostLinkDown port) :=
  ⟨fun h => (by first | exact ⟨rfl, rfl⟩ | cases h), fun h => (by first | rfl | cases h)⟩
theorem Laws.Wf.create (r : SvcReq) (index : BitVec 32) (root : Nat) (frames : List Nat) : Laws.Wf.Statement (.create r index root frames) :=
  ⟨fun h => (by first | exact ⟨rfl, rfl⟩ | cases h), fun h => (by first | rfl | cases h)⟩
theorem Laws.Wf.destroy (r : SvcReq) : Laws.Wf.Statement (.destroy r) :=
  ⟨fun h => (by first | exact ⟨rfl, rfl⟩ | cases h), fun h => (by first | rfl | cases h)⟩
theorem Laws.Wf.reside (r : SvcReq) (frames : List Nat) : Laws.Wf.Statement (.reside r frames) :=
  ⟨fun h => (by first | exact ⟨rfl, rfl⟩ | cases h), fun h => (by first | rfl | cases h)⟩
theorem Laws.Wf.publishService (r : SvcReq) : Laws.Wf.Statement (.publishService r) :=
  ⟨fun h => (by first | exact ⟨rfl, rfl⟩ | cases h), fun h => (by first | rfl | cases h)⟩
theorem Laws.Wf.collective (r : SvcReq) (parts : List (List Byte)) : Laws.Wf.Statement (.collective r parts) :=
  ⟨fun h => (by first | exact ⟨rfl, rfl⟩ | cases h), fun h => (by first | rfl | cases h)⟩
theorem Laws.Wf.eventBind (r : SvcReq) : Laws.Wf.Statement (.eventBind r) :=
  ⟨fun h => (by first | exact ⟨rfl, rfl⟩ | cases h), fun h => (by first | rfl | cases h)⟩
theorem Laws.Wf.streamBind (r : SvcReq) : Laws.Wf.Statement (.streamBind r) :=
  ⟨fun h => (by first | exact ⟨rfl, rfl⟩ | cases h), fun h => (by first | rfl | cases h)⟩
theorem Laws.Wf.flashWrite (r : SvcReq) : Laws.Wf.Statement (.flashWrite r) :=
  ⟨fun h => (by first | exact ⟨rfl, rfl⟩ | cases h), fun h => (by first | rfl | cases h)⟩
theorem Laws.Wf.peerRead (f : PeerFrame) : Laws.Wf.Statement (.peerRead f) :=
  ⟨fun h => (by first | exact ⟨rfl, rfl⟩ | cases h), fun h => (by first | rfl | cases h)⟩
theorem Laws.Wf.peerReadReply (f : PeerFrame) : Laws.Wf.Statement (.peerReadReply f) :=
  ⟨fun h => (by first | exact ⟨rfl, rfl⟩ | cases h), fun h => (by first | rfl | cases h)⟩
theorem Laws.Wf.peerWrite (f : PeerFrame) : Laws.Wf.Statement (.peerWrite f) :=
  ⟨fun h => (by first | exact ⟨rfl, rfl⟩ | cases h), fun h => (by first | rfl | cases h)⟩
theorem Laws.Wf.peerWriteAck (f : PeerFrame) : Laws.Wf.Statement (.peerWriteAck f) :=
  ⟨fun h => (by first | exact ⟨rfl, rfl⟩ | cases h), fun h => (by first | rfl | cases h)⟩
theorem Laws.Wf.peerAtomic (f : PeerFrame) : Laws.Wf.Statement (.peerAtomic f) :=
  ⟨fun h => (by first | exact ⟨rfl, rfl⟩ | cases h), fun h => (by first | rfl | cases h)⟩
theorem Laws.Wf.peerAtomicReply (f : PeerFrame) : Laws.Wf.Statement (.peerAtomicReply f) :=
  ⟨fun h => (by first | exact ⟨rfl, rfl⟩ | cases h), fun h => (by first | rfl | cases h)⟩
theorem Laws.Wf.peerPublish (f : PeerFrame) : Laws.Wf.Statement (.peerPublish f) :=
  ⟨fun h => (by first | exact ⟨rfl, rfl⟩ | cases h), fun h => (by first | rfl | cases h)⟩
theorem Laws.Wf.peerCumulativeAck (f : PeerFrame) : Laws.Wf.Statement (.peerCumulativeAck f) :=
  ⟨fun h => (by first | exact ⟨rfl, rfl⟩ | cases h), fun h => (by first | rfl | cases h)⟩
theorem Laws.Wf.peerControl (f : PeerFrame) : Laws.Wf.Statement (.peerControl f) :=
  ⟨fun h => (by first | exact ⟨rfl, rfl⟩ | cases h), fun h => (by first | rfl | cases h)⟩
theorem Laws.Wf.peerRetransmit (port : BitVec 5) (dst : BitVec 8) : Laws.Wf.Statement (.peerRetransmit port dst) :=
  ⟨fun h => (by first | exact ⟨rfl, rfl⟩ | cases h), fun h => (by first | rfl | cases h)⟩
theorem Laws.Wf.shareMemberLost (pkg : BitVec 8) : Laws.Wf.Statement (.shareMemberLost pkg) :=
  ⟨fun h => (by first | exact ⟨rfl, rfl⟩ | cases h), fun h => (by first | rfl | cases h)⟩
theorem Laws.Wf.ingressFrame (port : BitVec 5) (f : PortFrame) : Laws.Wf.Statement (.ingressFrame port f) :=
  ⟨fun h => (by first | exact ⟨rfl, rfl⟩ | cases h), fun h => (by first | rfl | cases h)⟩
theorem Laws.Wf.portcfgWrite (v : BitVec 64) : Laws.Wf.Statement (.portcfgWrite v) :=
  ⟨fun h => (by first | exact ⟨rfl, rfl⟩ | cases h), fun h => (by first | rfl | cases h)⟩
theorem Laws.Wf.poolExtentWithdrawn (base len : Nat) : Laws.Wf.Statement (.poolExtentWithdrawn base len) :=
  ⟨fun h => (by first | exact ⟨rfl, rfl⟩ | cases h), fun h => (by first | rfl | cases h)⟩
theorem Laws.Wf.poolReleaseRequest (base len : Nat) (frames : List Nat) : Laws.Wf.Statement (.poolReleaseRequest base len frames) :=
  ⟨fun h => (by first | exact ⟨rfl, rfl⟩ | cases h), fun h => (by first | rfl | cases h)⟩
theorem Laws.Wf.pwrtgtWrite (v : BitVec 64) : Laws.Wf.Statement (.pwrtgtWrite v) :=
  ⟨fun h => (by first | exact ⟨rfl, rfl⟩ | cases h), fun h => (by first | rfl | cases h)⟩
theorem Laws.Wf.powerCap (w : Watts) : Laws.Wf.Statement (.powerCap w) :=
  ⟨fun h => (by first | exact ⟨rfl, rfl⟩ | cases h), fun h => (by first | rfl | cases h)⟩
theorem Laws.Wf.powerRestore (w : Watts) : Laws.Wf.Statement (.powerRestore w) :=
  ⟨fun h => (by first | exact ⟨rfl, rfl⟩ | cases h), fun h => (by first | rfl | cases h)⟩
theorem Laws.Wf.systemCsrWrite (csr : BitVec 12) (a : CsrAccess) : Laws.Wf.Statement (.systemCsrWrite csr a) :=
  ⟨fun h => (by first | exact ⟨rfl, rfl⟩ | cases h), fun h => (by first | rfl | cases h)⟩
theorem Laws.Wf.postedStorePerformed (k : Nat) : Laws.Wf.Statement (.postedStorePerformed k) :=
  ⟨fun h => (by first | exact ⟨rfl, rfl⟩ | cases h), fun h => (by first | rfl | cases h)⟩
theorem Laws.Wf.systemCoreAccess (addr : Nat) (len : Nat) (data : Option (List Byte)) : Laws.Wf.Statement (.systemCoreAccess addr len data) :=
  ⟨fun h => (by first | exact ⟨rfl, rfl⟩ | cases h), fun h => (by first | rfl | cases h)⟩
theorem Laws.Wf.poolExtentOffer (base len : Nat) (dvsec : Bool) : Laws.Wf.Statement (.poolExtentOffer base len dvsec) :=
  ⟨fun h => (by first | exact ⟨rfl, rfl⟩ | cases h), fun h => (by first | rfl | cases h)⟩
theorem Laws.Wf.powerLoss : Laws.Wf.Statement (.powerLoss) :=
  ⟨fun h => (by first | exact ⟨rfl, rfl⟩ | cases h), fun h => (by first | rfl | cases h)⟩
theorem Laws.Wf.linkDown (link : Link) : Laws.Wf.Statement (.linkDown link) :=
  ⟨fun h => (by first | exact ⟨rfl, rfl⟩ | cases h), fun h => (by first | rfl | cases h)⟩

end Sys2Proof
end

