-- ==== Sys2Proof/Laws/Schedule.lean ====
section
/-! SUPPORT. What the schedule does with a core's outstanding operations, and with an instruction that a park held. -/

namespace Sys2Proof.Laws

open Sys2Proof Sys2Proof.Machine

/-- A rotation holds what the list holds. -/
theorem mem_rotated {n : Nat} {fs : List (State → Out)} {f : State → Out} (h : f ∈ rotated n fs) : f ∈ fs :=
  (List.mem_append.1 h).elim List.mem_of_mem_drop List.mem_of_mem_take

/-- Where no operation of a list changes the state, there is no first one that does. -/
theorem firstChange_still {s : State} (fs : List (State → Out)) (h : ∀ f ∈ fs, after s (f s) = s) : firstChange s fs = none := by
  induction fs with
  | nil => rfl
  | cons f fs ih =>
    simp only [firstChange, h f (by simp), beq_self_eq_true, if_true]
    exact ih (fun g hg => h g (by simp [hg]))

/-- Where none of its outstanding operations changes the state, a core's turn moves nothing. -/
theorem turnMoves_still {s : State} (h : ∀ f ∈ outstanding s, after s (f s) = s) : turnMoves s = none :=
  firstChange_still _ (fun f hf => h f (mem_rotated hf))

/-- Behind its park an instruction can execute. -/
@[simp] theorem replay_ready (b : Block) (p : Park) : (b.replay p).ready = true := by cases h : p.req <;> simp [Block.replay, Block.ready, h]

/-- It executes at the required stamp that its access held (R283). -/
theorem replay_reqStamp {b : Block} {p : Park} {f : DWord} (h : p.req = some f) (t : Taint) : (b.replay p).reqStamp t = f := by
  simp [Block.replay, Block.reqStamp, h]

/-- A block that is stopped keeps the park of its instruction (R243, R261, R333). -/
theorem abandon_strandPark (b : Block) : b.abandon.strandPark = b.strandPark := by
  cases hw : b.wait with
  | none => simp [Block.abandon, Block.strandPark, hw]
  | some w => cases w <;> simp [Block.abandon, Block.strandPark, hw]

end Sys2Proof.Laws
end

