-- ==== Sys2Proof/Tests/Slice0.lean ====
section
/-! SUPPORT. The model's own tests: ill-formed terms that the check refuses, words written out from the encodings of the spec, small
single steps with results worked out from the rules, and for every statement of the obligations a state that meets its hypotheses.
The witnesses of clause k of a statement stand in `witness_<Statement>`, in the order of the clauses. -/

namespace Sys2Proof.Tests

open Sys2Proof Sys2Proof.Machine Sys2Proof.Safety

set_option Elab.async false

/-! ## Ill-formed terms, one for each check of WellFormed -/

/-- A command header without predicate, tokens or dead marks. -/
def hdr0 : Hdr := ⟨false, false, 0, none, none⟩

theorem test_illformed_pset_destination : (Instr.psetEq 0 1 2).wf = false ∧ (Instr.psetLtI64 48 1 2).wf = false := by decide
theorem test_illformed_predicate_source : (Instr.pand 1 48 2).wf = false ∧ (Instr.pnot 1 60).wf = false := by decide
theorem test_illformed_branch_predicate : (Instr.br false 48 4).wf = false := by decide
theorem test_illformed_kill_mask : (Instr.kill .pHigh 0x00010000).wf = false ∧ (Instr.kill .q 0x100).wf = false := by decide
theorem test_illformed_wrap : (Instr.predicatedInstruction false 1 (.hdrop 3)).wf = false
    ∧ (Instr.predicatedInstruction false 48 .nop).wf = false := by decide
theorem test_illformed_scope : (Instr.fence .lane).wf = false ∧ (Instr.arrive .lane).wf = false := by decide
theorem test_illformed_slip : (Instr.slip 0).wf = false ∧ (Instr.slip 17).wf = false := by decide
theorem test_illformed_drain : (Instr.drain 0).wf = false := by decide
theorem test_illformed_smap : (Instr.smap 1 0 3 5).wf = false := by decide
theorem test_illformed_nonblocking : (Instr.nonblockingDispatch 4 (.mzero { hdr0 with p := 3 } 0)).wf = false
    ∧ (Instr.nonblockingDispatch 0 (.mzero hdr0 0)).wf = false ∧ (Instr.nonblockingDispatch 4 .nop).wf = false := by decide
theorem test_illformed_vector_type : (Instr.vfma hdr0 ⟨false, false, .i16, 0, 0, 0⟩).wf = false
    ∧ (Instr.vand hdr0 ⟨false, false, .f32, 0, 0, 0⟩).wf = false := by decide
theorem test_illformed_dead_mark : (Instr.vadd hdr0 ⟨false, true, .i16, 0, 0, 0⟩).wf = false := by decide
theorem test_illformed_unary : (Instr.vabs hdr0 ⟨false, false, .i16, 1, 0, 0⟩).wf = false := by decide
theorem test_illformed_compare : (Instr.vcmpEq hdr0 ⟨false, false, .i16, 0, 0, 0⟩).wf = false := by decide
theorem test_illformed_format : (Instr.vcvt hdr0 false 0 3 0 0 0).wf = false := by decide

theorem test_illformed_level_offset : (Instr.fetch hdr0 ⟨3, .sp, 0, 0, 0, 0⟩).wf = false
    ∧ (Instr.relay hdr0 .sp 0 0 .cl 4 0).wf = false ∧ (Instr.poolFill ⟨true, false, 0, none, none⟩ 0 0 0 0).wf = false := by decide

/-! ## Words written out from the encodings (R63-R73, R157, R200, R231, R242, R244, R302) -/

/-- Scalar arithmetic, immediates and constants (formats R, I, LI). -/
theorem test_decode_scalar : decodeWords 0x01124404 0 = .ok (.add 4 9 17) ∧ decodeWords 0x01024414 0 = .ok (.addImm 4 9 16)
    ∧ decodeWords 0xFFFEC330 0 = .ok (.li 3 (BitVec.ofInt 18 (-5))) ∧ decodeWords 0x08510308 0 = .ok (.psetLtI64 3 4 5) :=
  ⟨rfl, rfl, rfl, rfl⟩

/-- Control transfer and the wrapped form (formats B, S, W). -/
theorem test_decode_control : decodeWords 0xFFFE8580 0 = .ok (.br false 5 (BitVec.ofInt 17 (-3)))
    ∧ decodeWords 0xFFFF8A84 0 = .ok (.loop 10 (BitVec.ofInt 17 (-1))) ∧ decodeWords 0x00001088 0 = .ok (.call 16)
    ∧ decodeWords 0x1000008C 0 = .ok .nop ∧ decodeWords 0x0C00008C 0 = .ok .tret
    ∧ decodeWords 0x4500000F 0x01124404 = .ok (.predicatedInstruction true 5 (.add 4 9 17)) := ⟨rfl, rfl, rfl, rfl, rfl, rfl⟩

/-- Control registers and traps. -/
theorem test_decode_registers : decodeWords 0x00100590 0 = .ok (.getc 5 .fpstat) ∧ decodeWords 0x00018094 0 = .ok (.setc .fpctl 6)
    ∧ decodeWords 0x00000798 0 = .ok (.trap 7) := ⟨rfl, rfl, rfl⟩

/-- On-chip accesses and register images. -/
theorem test_decode_chip : decodeWords 0x0410C54C 0 = .ok (.ldI64 5 .cl 3 16) ∧ decodeWords 0x02208774 0 = .ok (.stEf 7 .ds 2 8)
    ∧ decodeWords 0x0060002B 0x00100002 = .ok (.dld 2 6 64) := ⟨rfl, rfl, rfl⟩

/-- Ordering, squares and queues. -/
theorem test_decode_ordering : decodeWords 0x000040A0 0 = .ok (.fence .core) ∧ decodeWords 0x040000A0 0 = .ok .xfence
    ∧ decodeWords 0x080140A0 0 = .ok (.untaint 5) ∧ decodeWords 0x0C0000A0 0 = .ok .tfold ∧ decodeWords 0x040140A4 0 = .ok (.take 5)
    ∧ decodeWords 0x0403C0A8 0 = .ok (.drain 15) ∧ decodeWords 0x000100A8 0 = .ok (.slip 4) ∧ decodeWords 0x080000A8 0 = .ok .exit :=
  ⟨rfl, rfl, rfl, rfl, rfl, rfl, rfl, rfl⟩

/-- Tokens, time, turns and barriers. -/
theorem test_decode_time : decodeWords 0x000040AC 0 = .ok (.tokw 1) ∧ decodeWords 0x040040AC 0 = .ok (.toks 1)
    ∧ decodeWords 0x080005AC 0 = .ok (.tick 5) ∧ decodeWords 0x081245AC 0 = .ok (.tickDc 5 9)
    ∧ decodeWords 0x0C0006AC 0 = .ok (.turn 6) ∧ decodeWords 0x100180AC 0 = .ok (.turnw 6)
    ∧ decodeWords 0x1400C0AC 0 = .ok (.arrive .clus) ∧ decodeWords 0x1800C0AC 0 = .ok (.bwait .clus)
    ∧ decodeWords 0x0000031B 0x00228005 = .ok (.tokset 5 .V .F 2) := ⟨rfl, rfl, rfl, rfl, rfl, rfl, rfl, rfl, rfl⟩

/-- Engine commands: the header with its tokens and dead marks, and the templates VA, M and T. -/
theorem test_decode_commands : decodeWords 0x8328C35B 0x51088246 = .ok (.vfma ⟨true, false, 3, some 1, some 2⟩ ⟨false, true, .bf16, 0x42, 0x41, 0x46⟩)
    ∧ decodeWords 0x0000165B 0x00140604 = .ok (.vcmpLt hdr0 ⟨false, false, .f32, 5, 3, 4⟩)
    ∧ decodeWords 0x00000263 0x142C0008 = .ok (.vcvt hdr0 false 1 8 11 0 8)
    ∧ decodeWords 0x00000063 0x00801200 = .ok (.vld hdr0 256 9 0)
    ∧ decodeWords 0x00594053 0x000F0102 = .ok (.mmul ⟨false, false, 0, some 2, some 5⟩ ⟨false, 15, 1, 0, 2⟩)
    ∧ decodeWords 0x09594057 0x000F0102 = .ok (.nonblockingDispatch 9 (.mmul ⟨false, false, 0, some 2, some 5⟩ ⟨false, 15, 1, 0, 2⟩))
    ∧ decodeWords 0x8028C153 0x88270324 = .ok (.mmulG ⟨true, false, 0, some 1, some 2⟩ ⟨false, 7, 3, 2, 4⟩ true 0x41)
    ∧ decodeWords 0x00480043 0x00005231 = .ok (.fetch ⟨false, false, 0, none, some 4⟩ ⟨0, .sp, 10, 2, 3, 1⟩)
    ∧ decodeWords 0x0000C24B 0x0A30A850 = .ok (.xcopy ⟨false, false, 0, some 1, none⟩ 20 6 21 5)
    ∧ decodeWords 0x00000023 0x00004003 = .ok (.lend 3 true) := ⟨rfl, rfl, rfl, rfl, rfl, rfl, rfl, rfl, rfl, rfl⟩

/-- Objects, handles, leases, versions and watches. -/
theorem test_decode_objects : decodeWords 0x2041C913 0x00000003 = .ok (.atomIncb 7 3 4 0 8)
    ∧ decodeWords 0x00014317 0x00034003 = .ok (.hstat 5 3 true 5) ∧ decodeWords 0x00600017 0x00000003 = .ok (.hopen 3 6)
    ∧ decodeWords 0x2CA10417 0x00000002 = .ok (.lease 4 2 10 11 false false) ∧ decodeWords 0x00400517 0x00000002 = .ok (.unlease 2 4)
    ∧ decodeWords 0x0000001B 0x00000002 = .ok (.publish 0 2) ∧ decodeWords 0x0001421B 0x00000003 = .ok (.ver 5 3)
    ∧ decodeWords 0x1C32041B 0x00100100 = .ok (.mwait 8 (.level .cl) 3 64 7) ∧ decodeWords 0x1851051B 0x00000003 = .ok (.watch 4 3 5 0 6) :=
  ⟨rfl, rfl, rfl, rfl, rfl, rfl, rfl, rfl, rfl⟩

/-- The sequencer, launches and the clearboard. -/
theorem test_decode_system : decodeWords 0x1C604123 0x00008032 = .ok (.sbind 1 2 3 6 7 2) ∧ decodeWords 0x00C14223 0x00000001 = .ok (.sgate 5 12 1)
    ∧ decodeWords 0x2891001F 0 = .ok (.launch 4 9 10) ∧ decodeWords 0x00914027 0x04000000 = .ok (.cbtok 5 9 4096) := ⟨rfl, rfl, rfl, rfl⟩

/-- Words that are no instruction: an unassigned major, and a reserved bit of `nop` (R73). -/
theorem test_decode_refuses : (decodeWords 0xFFFFFFFF 0xFFFFFFFF).toOption = none ∧ (decodeWords 0x1000018C 0).toOption = none := ⟨rfl, rfl⟩

/-! ## Small states -/

/-- A block of 64 squares that runs. -/
def strandBlk : Block := { Block.clear with phase := .running, nsq := 64 }

/-- The machine after reset with that block on core 0. -/
def running : State := { State.reset with blk := strandBlk }

/-- The machine with its block changed. -/
def withBlk (f : Block → Block) : State := { State.reset with blk := f strandBlk }

/-- The block with scalars s1 and s2. -/
def regs (a b : DWord) (x : Block) : Block := wrS (wrS x 1 a 0) 2 b 0

/-! ## Witnesses: reset, decoding and the step -/

theorem witness_EncodeDecode : (Instr.add 63 1 2).wf = true ∧ (Instr.add 63 1 2).encoded = true := by decide

/-- The turn of the next block, in which no operation of the core is outstanding. -/
def turning : State := { State.reset.withFetchWord 32 0x1000018C with beat := 2 }

theorem turning_still : turnMoves turning = none := by
  refine Laws.turnMoves_still (fun f hf => ?_)
  simp only [outstanding, show turning.blk.loads = [] from rfl, show turning.blk.posted = [] from rfl, List.length_nil, List.range_zero,
    List.map_nil, List.append_nil, List.cons_append, List.nil_append, List.mem_cons, List.not_mem_nil, or_false] at hf
  rcases hf with rfl | rfl | rfl | rfl | rfl | rfl | rfl | rfl | rfl | rfl <;> rfl

theorem witness_StepRunsDecoded :
    ((State.reset.withFetchWord 32 0x01124404).agenda = [] ∧ (State.reset.withFetchWord 32 0x01124404).wo.locked = false
      ∧ muted (State.reset.withFetchWord 32 0x01124404) = false ∧ issues (State.reset.withFetchWord 32 0x01124404) = true
      ∧ (State.reset.withFetchWord 32 0x01124404).beat % 4 = 0
      ∧ (fetchInstr (State.reset.withFetchWord 32 0x01124404) (State.reset.withFetchWord 32 0x01124404).blk.pc.toNat).1
          = .word 0x01124404)
    ∧ (issues { State.reset.withFetchWord 32 0x1000018C with beat := 1 } = true
      ∧ turnMoves turning = none
      ∧ (fetchInstr (State.reset.withFetchWord 32 0x1000018C) (State.reset.withFetchWord 32 0x1000018C).blk.pc.toNat).1
          = .word 0x1000018C
      ∧ (decodeWords 0x1000018C 0).toOption = none)
    ∧ (issues running = true ∧ running.agenda = [] ∧ (fetchInstr running running.blk.pc.toNat).1 = .trap cINVALIDH 0)
    ∧ (isEvent (.timetableRelease 0) = true ∧ { running with agenda := [.event (.timetableRelease 0)] }.wo.locked = false
      ∧ ofBlock (.objectLoadCompletion 0) = true ∧ muted running = false)
    ∧ ({ running with beat := 3, others := [strandBlk] }.beat % 4 = 3 ∧ { running with beat := 2 }.beat % 4 = 2 ∧ running.agenda = []
      ∧ running.blk.phase ≠ .none) := by
  refine ⟨?_, ⟨?_, turning_still, ?_⟩, ?_⟩ <;> decide +kernel

theorem witness_NeverStops : ∀ a n d rest, State.reset.agenda ≠ .event (.systemCoreAccess a n d) :: rest := by
  intro a n d rest h; cases h

/-- A locked part. -/
def locked : State := { State.reset with wo := { State.reset.wo with locked := true } }

theorem witness_LockHolds : locked.wo.locked = true ∧ (∀ rest, locked.agenda ≠ .event .packageReset :: rest)
    ∧ (∀ rest, locked.agenda ≠ .event .powerLoss :: rest) ∧ step locked = .next locked :=
  ⟨rfl, by simp [locked, State.reset], by simp [locked, State.reset], rfl⟩

theorem witness_RegisterFiles : (47 : PReg).toNat < 48 ∧ Memory.wf [(7, 1), (9, 0)] = true ∧ (9 : Nat) ≠ 7 := by decide

/-! ## Witnesses: scalars, predicates, traps and control -/

theorem witness_IntegerArithmetic : Ready (withBlk (regs (BitVec.ofInt 64 (-8)) 3)).blk [1, 2] [] [3] [] := by
  and_intros <;> first | decide +kernel | (unfold Ready; decide +kernel)

/-- The divisor is zero, and then the one quotient that does not fit. -/
theorem witness_Division : Ready (withBlk (regs 7 0)).blk [1, 2] [] [1] []
    ∧ Ready (withBlk (regs (BitVec.ofInt 64 (-2 ^ 63)) (BitVec.ofInt 64 (-1)))).blk [1, 2] [] [3] [] := by
  and_intros <;> first | decide +kernel | (unfold Ready; decide +kernel)

theorem witness_Immediates : Ready strandBlk [1] [] [63] [] ∧ Ready strandBlk [] [] [0] [] ∧ Ready strandBlk [5] [] [5] [] := by
  and_intros <;> first | decide +kernel | (unfold Ready; decide +kernel)

theorem witness_Predicates : Ready strandBlk [1, 2] [] [] [47] ∧ Ready strandBlk [] [1, 0] [] [1] ∧ Ready strandBlk [] [2] [] [1]
    ∧ Ready strandBlk [1, 2] [47] [3] [] := by
  and_intros <;> first | decide +kernel | (unfold Ready; decide +kernel)

/-- Scalar s1 is dead, and its reads trap. -/
def deadS1 : State := withBlk (fun b => { b with deadMode := true, s := b.s.setIfInBounds 1 ⟨0, 0, true⟩ })

theorem witness_DeadReadTraps : deadS1.blk.deadMode = true ∧ deadS1.blk.frozen = false
    ∧ (∀ r ∈ ([1, 2, 3] : List SReg), busyS deadS1.blk r = false) ∧ (∀ r ∈ ([1, 1, 1] : List SReg), busyS deadS1.blk r = false)
    ∧ busyP deadS1.blk 4 = false ∧ deadS deadS1.blk 1 = true
    ∧ (DeadClear { deadS1.blk with deadMode := false } ∧ deadS { deadS1.blk with deadMode := false } 1 = true ∧ deadS1.blk.wrap = none)
    ∧ (∀ p ∈ ([4, 5, 6] : List PReg), busyP { deadS1.blk with p := deadS1.blk.p.setIfInBounds 4 ⟨0, 0, true⟩ } p = false)
    ∧ deadP { deadS1.blk with p := deadS1.blk.p.setIfInBounds 4 ⟨0, 0, true⟩ } 4 = true := by
  and_intros <;> first | decide +kernel | (unfold DeadClear; decide +kernel)

theorem witness_DeadRegistersStayClear : isEvent (.add 1 2 3) = false ∧ DeadClear deadS1.blk
    ∧ (match exec (.kill .sLow 2) running with | .next t => some (deadS t.blk 1) | _ => none) = some true := by
  and_intros <;> first | decide +kernel | (unfold DeadClear; decide +kernel)

/-- A block with a handler, outside it. -/
def handled : State := withBlk (fun b => { b with trapVec := 0x400, pc := 0x40 })

theorem witness_TrapEntersHandler : cSOFTWARE < 256 ∧ handled.blk.phase = .running ∧ handled.blk.hasExited = false
    ∧ handled.blk.handler = false ∧ handled.blk.trapVec ≠ 0 := by decide +kernel

/-- A block in its handler after the trap of the instruction at 0x44. -/
def inHandler : State := withBlk (fun b => { b with trapVec := 0x400, pc := 0x400, handler := true, trapPc := 0x44, trapCause := 5 })

theorem witness_TrapTerminates :
    (cSOFTWARE < 256 ∧ running.blk.phase = .running ∧ running.blk.handler = false ∧ running.blk.trapVec = 0)
    ∧ (inHandler.blk.phase = .running ∧ inHandler.blk.handler = true) := by decide +kernel

/-- A block whose code object holds 8 bytes, at the end of them. -/
def codeEnd : State := withBlk (fun b => { b with
  pc := 8, code := Machine.handleOf 0 1 0, codeDesc := BitVec.ofNat 512 (kCode * 2 ^ 44 + 2 ^ 40 + 4 * 2 ^ 35 + 15 * 2 ^ 28 + 8 * 2 ^ 64) })

theorem witness_TrapCauses : codeEnd.blk.codeRefresh = false ∧ dKind codeEnd.blk.codeDesc = kCode
    ∧ dGen codeEnd.blk.codeDesc = hGen codeEnd.blk.code ∧ dRes codeEnd.blk.codeDesc ≠ 6
    ∧ codeLen codeEnd.blk.codeDesc < (8 : BitVec 32).toNat + 4 := by decide +kernel

/-- A block in its handler after the trap of the `nop` at 0. -/
def skipping : State :=
  let s := State.reset.withFetchWord 32 0x1000008C
  { s with blk := { s.blk with handler := true, trapVec := 0x400, pc := 0x400, trapPc := 0, trapCause := 5 } }

/-- The same where the program counter of the trap was at the end of the code object. -/
def skipsBeyond : State :=
  { codeEnd with blk := { codeEnd.blk with handler := true, trapVec := 0x400, pc := 0x400, trapPc := 8, trapCause := 4 } }

/-- A command of the vector engine without operands. -/
def vcmd : Cmd :=
  { instr := .vmov hdr0 ⟨false, false, .i16, 0, 1, 2⟩, eng := .V, n := 0, qno := 0, addr := 0, off := false, depth := 16, rm := 0,
    deadMode := false, mask := BitVec.allOnes 128, sx := 0, si := [], sy := [], dA := 0, dB := 0, dX := 0, shape := 0, ha := 0,
    hb := 0, g := GCell.zero, taint := 0, wtaint := 0, draw := 0, req := 0, waits := [], popped := false, noPush := false,
    skipEnd := false, fault := none, moved := 0, buf := [], flags := 0, dest := [], park := none, remote := none, reply := none,
    oldDesc := false, checked := 0, pend := false }

/-- The same command with a signal token. -/
def vsig : Cmd := { vcmd with instr := .vmov ⟨false, false, 0, none, some 3⟩ ⟨false, false, .i16, 0, 1, 2⟩ }

/-- A block in its handler after a fault of the vector engine's first command. -/
def engineTrap (c : Cmd) : State := withBlk (fun b => { b with
  handler := true, frozen := true, trapVec := 0x400, pc := 0x400, trapCause := 0x0209, trapInfo := 0x00000048_00000000
  eV := { q := [{ c with fault := some (9, 0) }], run := none, trail := [], next := 1 } })

/-- A `fetch.step` with a pending result in g1, which has faulted. -/
def stepFault : Cmd := { vcmd with instr := .fetchStep hdr0 0 1 0 0 0 3, eng := .F, fault := some (8, 3) }
def stepTrap : State := withBlk (fun b => { b with
  handler := true, frozen := true, trapVec := 0x400, pc := 0x400, trapCause := 0x0108
  eF := { q := [stepFault], run := none, trail := [], next := 1 } })

/-- The faulted command signals a token that is full. -/
def fullTrap : State := { engineTrap vsig with blk := (engineTrap vsig).blk.setToken 3 ⟨255, .V, .S, true⟩ }

/-- The same with a fault of the fetch engine's first command that waits behind the handler. -/
def secondTrap : State :=
  { engineTrap vcmd with blk := { (engineTrap vcmd).blk with
    eF := { q := [{ vcmd with eng := .F, pend := true, fault := some (8, 3) }], run := none, trail := [], next := 1 } } }

theorem witness_HandlerReturn :
    (inHandler.blk.handler = true ∧ inHandler.blk.trapCause.toNat / 2 ^ 8 % 16 = 0 ∧ inHandler.blk.trapPc.toNat % 4 = 0)
    ∧ ((engineTrap vcmd).blk.handler = true ∧ (engineTrap vcmd).blk.trapCause.toNat / 2 ^ 8 % 16 = 2
      ∧ (engineTrap vcmd).blk.eV.q = [{ vcmd with fault := some (9, 0) }])
    ∧ ((engineTrap vsig).blk.handler = true ∧ (engineTrap vsig).blk.trapCause.toNat / 2 ^ 8 % 16 = 2
      ∧ (engineTrap vsig).blk.eV.q = [{ vsig with fault := some (9, 0) }] ∧ (hdrOfCmd vsig.instr).sig = some 3
      ∧ vsig.noPush = false ∧ ((engineTrap vsig).blk.token 3).count.toNat < 255
      ∧ ∀ e, ∀ x ∈ ((engineTrap vsig).blk.eng e).q, x.pend = false)
    ∧ (∀ h sj g si q d ha, vsig.instr ≠ .fetchStep h sj g si q d ha)
    ∧ ((fullTrap.blk.token 3).count = 255 ∧ fullTrap.blk.trapVec ≠ 0 ∧ fullTrap.blk.phase = .running ∧ fullTrap.blk.hasExited = false)
    ∧ (stepTrap.blk.handler = true ∧ stepTrap.blk.trapCause.toNat / 2 ^ 8 % 16 = engCode .F ∧ (stepTrap.blk.eng .F).q = [stepFault]
      ∧ (∀ e, ∀ x ∈ (stepTrap.blk.eng e).q, x.pend = false) ∧ (hdrOfCmd stepFault.instr).sig = none)
    ∧ (skipping.blk.handler = true ∧ skipping.blk.trapCause.toNat / 2 ^ 8 % 16 = 0 ∧ skipping.blk.trapPc.toNat % 4 = 0
      ∧ (fetchWord skipping skipping.blk.trapPc.toNat).1 = .word 0x1000008C ∧ skipping.blk.trapPc.toNat + lengthOf 0x1000008C < 2 ^ 32)
    ∧ (skipsBeyond.blk.handler = true ∧ skipsBeyond.blk.trapCause.toNat / 2 ^ 8 % 16 = 0
      ∧ (fetchWord skipsBeyond skipsBeyond.blk.trapPc.toNat).1 = .trap cFETCH 8)
    ∧ (({ inHandler.blk with trapPc := 0x46 } : Block).trapPc.toNat % 4 ≠ 0)
    ∧ (secondTrap.blk.eV.q = [{ vcmd with fault := some (9, 0) }] ∧ vcmd.pend = false ∧ secondTrap.blk.trapVec ≠ 0
      ∧ secondTrap.blk.eF.q = [{ vcmd with eng := .F, pend := true, fault := some (8, 3) }] ∧ secondTrap.blk.phase = .running
      ∧ secondTrap.blk.hasExited = false ∧ ∀ y ∈ secondTrap.blk.eM.q ++ secondTrap.blk.eP.q, y.pend = false)
    ∧ running.blk.handler = false := by
  and_intros <;> first | decide +kernel | (intro e; cases e <;> decide +kernel) | (intro h sj g si q d ha e; cases e)

theorem witness_ControlTransfer :
    Ready strandBlk [] [47] [] [] ∧ Ready strandBlk [1] [] [1] [] ∧ (Ready strandBlk [] [] [63] [] ∧ strandBlk.wrap = none)
    ∧ (Ready strandBlk [63] [] [] [] ∧ (rdS strandBlk 63).toNat < 2 ^ 32 ∧ (rdS strandBlk 63).toNat % 4 = 0)
    ∧ (Ready (regs 0xFFFFFFFC 0 strandBlk) [1] [] [63] [] ∧ (rdS (regs 0xFFFFFFFC 0 strandBlk) 1).toNat < 2 ^ 32
      ∧ (rdS (regs 0xFFFFFFFC 0 strandBlk) 1).toNat % 4 = 0)
    ∧ (Ready (regs 0x100000000 0 strandBlk) [1] [] [63] [] ∧ 2 ^ 32 ≤ (rdS (regs 0x100000000 0 strandBlk) 1).toNat)
    ∧ (Ready (regs 0xFFFFFFFE 0 strandBlk) [1] [] [63] [] ∧ (rdS (regs 0xFFFFFFFE 0 strandBlk) 1).toNat < 2 ^ 32
      ∧ (rdS (regs 0xFFFFFFFE 0 strandBlk) 1).toNat % 4 ≠ 0)
    ∧ (Ready (wrS strandBlk 63 0x100000000 0) [63] [] [] [] ∧ 2 ^ 32 ≤ (rdS (wrS strandBlk 63 0x100000000 0) 63).toNat)
    ∧ (Ready (wrS strandBlk 63 0xFFFFFFFE 0) [63] [] [] [] ∧ (rdS (wrS strandBlk 63 0xFFFFFFFE 0) 63).toNat < 2 ^ 32
      ∧ (rdS (wrS strandBlk 63 0xFFFFFFFE 0) 63).toNat % 4 ≠ 0) := by
  and_intros <;> first | decide +kernel | (unfold Ready; decide +kernel)

theorem witness_ControlRegisters :
    Ready strandBlk [] [] [4] []
    ∧ (Ready (regs 0x7F 0 strandBlk) [1] [] [] [] ∧ setcRefused .fpstat (rdS (regs 0x7F 0 strandBlk) 1) = false
      ∧ taintS (regs 0x7F 0 strandBlk) 1 = 0 ∧ taintS (wrS strandBlk 1 0x7F 4) 1 = 4)
    ∧ setcRefused .fpctl (rdS (regs 4 0 strandBlk) 1) = false
    ∧ (Ready (regs 5 0 strandBlk) [1] [] [] [] ∧ setcRefused .fpctl (rdS (regs 5 0 strandBlk) 1) = true)
    ∧ setcRefused .deadMode (rdS (regs 1 0 strandBlk) 1) = false ∧ setcRefused .deadMode (rdS (regs 2 0 strandBlk) 1) = true
    ∧ (∀ r : SReg, busyS strandBlk r = false) ∧ (∀ p : PReg, busyP strandBlk p = false)
    ∧ (0x80000002 : BitVec 32).getLsbD 0 = false ∧ (0x80000001 : BitVec 32).getLsbD 0 = true := by
  and_intros <;> first | decide +kernel | (unfold Ready; decide +kernel)

theorem witness_Predication :
    (Ready strandBlk [] [1] [] [] ∧ (rdP strandBlk 1).getLsbD 0 = false ∧ Instr.add 1 2 3 ≠ .ret ∧ ∀ sa, Instr.add 1 2 3 ≠ .bp sa ∧ Instr.add 1 2 3 ≠ .callr sa)
    ∧ (Ready strandBlk [2, 3] [0] [1] [] ∧ strandBlk.wrap = none ∧ (rdP strandBlk 0).getLsbD 0 = !false)
    ∧ ((∃ sa, Instr.bp 5 = .bp sa ∨ Instr.bp 5 = .callr sa) ∧ (∃ sa, Instr.callr 5 = .bp sa ∨ Instr.callr 5 = .callr sa)) := by
  refine ⟨⟨?_, ?_, ?_, fun sa => ⟨?_, ?_⟩⟩, ?_, ⟨5, .inl rfl⟩, ⟨5, .inr rfl⟩⟩
  · unfold Ready; decide +kernel
  · decide +kernel
  · intro h; cases h
  · intro h; cases h
  · intro h; cases h
  · unfold Ready; decide +kernel

/-! ## Witnesses: on-chip words -/

/-- An address register s1, at the last word of the scratchpad with offset 0, and a value in s2. -/
def atEnd : State := withBlk (regs 0x3FFF8 0x1122334455667788)

theorem witness_OnChipLoads : Ready atEnd.blk [1] [] [2] [] ∧ (rdS atEnd.blk 1 + (0 : BitVec 10).signExtend 64).toNat = 0x3FFF8
    ∧ OnChip atEnd .sp 0x3FFF8 1 ∧ OnChip atEnd .sp 0x3FFF8 2 ∧ OnChip atEnd .sp 0x3FFF8 4 ∧ OnChip atEnd .sp 0x3FFF8 8
    ∧ OnChip atEnd .cl 0x3FFF8 8 := by
  and_intros <;> first | decide +kernel | (unfold Ready; decide +kernel) | (unfold OnChip; decide +kernel)

theorem witness_OnChipStores : Ready atEnd.blk [1, 2] [] [] [] ∧ atEnd.blk.storesInFlight < 32
    ∧ OnChip atEnd .sp 0x3FFF8 8 := by
  and_intros <;> first | decide +kernel | (unfold Ready; decide +kernel) | (unfold OnChip; decide +kernel)

/-- A store of one byte has been posted. -/
def posted1 : State := withBlk (fun b => { b with posted := [Posted.store .sp (b.spA 16) [0xAB]] })

theorem witness_StorePerformed : posted1.blk.posted[0]? = some (Posted.store .sp (strandBlk.spA 16) [0xAB])
    ∧ storeHeld posted1.blk 0 .sp (strandBlk.spA 16) 1 = false ∧ Memory.wf posted1.mem = true
    ∧ (∃ k ∈ bankKeys .sp (strandBlk.spA 16) 1, k ∈ bankKeys .sp (strandBlk.spA 16) 8)
    ∧ (performStoresTo posted1 .sp (strandBlk.spA 16) 8).blk.posted = [] := by decide +kernel

/-- A block whose square 1 is guarded and owned by the engines. -/
def guarded1 : State := withBlk (fun b => { regs 0x1000 0 b with guarded := 2 })

theorem witness_AccessFaults :
    (Ready (withBlk (regs 0x1001 0)).blk [1, 2] [] [2] [] ∧ (rdS (withBlk (regs 0x1001 0)).blk 1).toNat % 8 ≠ 0)
    ∧ levelBound (withBlk (regs 0x40000 0)) .sp ≤ (rdS (withBlk (regs 0x40000 0)).blk 1).toNat + 7
    ∧ (Ready guarded1.blk [1, 2] [] [2] [] ∧ (rdS guarded1.blk 1).toNat % 8 = 0
      ∧ (rdS guarded1.blk 1).toNat + 7 < levelBound guarded1 .sp
      ∧ (strandOwnFault guarded1.blk (rdS guarded1.blk 1).toNat 8).isSome = true) := by
  and_intros <;> first | decide +kernel | (unfold Ready; decide +kernel)

/-- The word at the end of the scratchpad is empty. -/
def emptyWord : State := { atEnd with empties := [(strandBlk.spA 0x3FFF8) / 8] }

/-- A waiting `ld.fe` on a word that has become full. -/
def feWaiter : State :=
  { withBlk (fun b => { b with wait := some (.fullEmpty (b.spA 8)) }) with feWait := [⟨⟨0, 0⟩, strandBlk.spA 8, .fe, 3, 0, 0, 4⟩] }

theorem witness_FullEmptyAccess :
    (atEnd.blk.phase = .running ∧ atEnd.blk.wrap = none ∧ atEnd.blk.posted = [] ∧ atEnd.feWait = [] ∧ OnChip atEnd .sp 0x3FFF8 8
      ∧ Ready atEnd.blk [1] [] [2] [] ∧ isFull atEnd (levelAddr atEnd atEnd.blk .sp 0x3FFF8) = true)
    ∧ (Ready emptyWord.blk [1, 2] [] [] [] ∧ isFull emptyWord (levelAddr emptyWord emptyWord.blk .sp 0x3FFF8) = false
      ∧ emptyWord.feWait = [])
    ∧ (emptyWord.blk.wrap = none ∧ emptyWord.blk.posted = [] ∧ OnChip emptyWord .sp 0x3FFF8 8 ∧ Ready emptyWord.blk [1] [] [2] []
      ∧ Ready atEnd.blk [1, 2] [] [] [])
    ∧ (feOldest feWaiter (strandBlk.spA 8) = some ⟨⟨0, 0⟩, strandBlk.spA 8, .fe, 3, 0, 0, 4⟩ ∧ feWaiter.blk.phase = .running
      ∧ feWaiter.blk.id = ⟨0, 0⟩ ∧ feWaiter.feWait.count ⟨⟨0, 0⟩, strandBlk.spA 8, .fe, 3, 0, 0, 4⟩ = 1) := by
  and_intros <;> first | decide +kernel | (unfold Ready; decide +kernel) | (unfold OnChip; decide +kernel)

/-- The address of the last 32 bytes of the scratchpad. -/
def atImage : State := withBlk (regs 0x3FFE0 0)

theorem witness_RegisterImages : Ready atImage.blk [1] [] [] [] ∧ atImage.blk.wrap = none ∧ taintS atImage.blk 1 = 0 ∧ atImage.blk.ctl = 0
    ∧ atImage.blk.deadMode = false ∧ atImage.blk.storesInFlight < 32 ∧ OnChip atImage .sp 0x3FFE0 16 ∧ OnChip atImage .sp 0x3FFE0 32 := by
  and_intros <;> first | decide +kernel | (unfold Ready; decide +kernel) | (unfold OnChip; decide +kernel)

/-! ## Witnesses: ordering, squares, queues, tokens, time and barriers -/

/-- An outstanding `atom.incb` on the last word of a counter object. -/
def incb1 : ObjLoad :=
  { id := 0, addr := 0, op := .incb, dst := 4, handle := Machine.handleOf 0 1 0, index := 15, b := 10, c := 0, taint := 0, req := 0, waits := [],
    folded := false, park := none, remote := none, reply := none }

/-- The block with that atomic outstanding, whose tag is in use, and a fence behind it. -/
def fencedSt : State :=
  withBlk (fun b => { regs 0 0 b with loads := [incb1], nextLoad := 1, fenced := [0], tags := [⟨2, 0, false, 0⟩] })

theorem witness_Fences :
    (∃ bs, posted1.blk.posted = [.store .sp (strandBlk.spA 16) bs])
    ∧ (posted1.blk.atomicsOut = false ∧ fencedSt.blk.atomicsOut = true ∧ Scope.core ≠ .pkg ∧ Scope.core ≠ .pod)
    ∧ (fencedSt.blk.fenceHeld = true ∧ Ready fencedSt.blk [1, 2] [] [2] []
      ∧ accessFault fencedSt .cl (rdS fencedSt.blk 1 + (0 : BitVec 10).signExtend 64).toNat 8 = none)
    ∧ (Ready (regs 0xFFFF 0 strandBlk) [1] [] [] [] ∧ (rdS (regs 0xFFFF 0 strandBlk) 1).toNat < 2 ^ 16)
    ∧ ((fencedSt.blk.liveTags.map (·.load)).Nodup ∧ (fencedSt.blk.loads.map (·.id)).Nodup) := by
  and_intros <;> first | exact ⟨_, rfl⟩ | decide +kernel | (unfold Ready; decide +kernel)

theorem witness_Squares : (63 : BitVec 6).toNat < running.blk.nsq ∧ running.blk.cmds = []
    ∧ (withBlk (fun b => { b with nsq := 32 })).blk.nsq ≤ (32 : BitVec 6).toNat := by decide +kernel

/-- One vector command is queued. -/
def queued (c : Cmd) : State := withBlk (fun b => { b with eV := { q := [c], run := none, trail := [], next := 1 } })

theorem witness_QueueControl :
    (∀ e ∈ maskEngines 15, (running.blk.eng e).q = [] ∧ (running.blk.eng e).started = [])
    ∧ ((queued vcmd).blk.frozen = false
      ∧ ∃ e ∈ maskEngines 15, ((queued vcmd).blk.eng e).q ≠ [] ∨ ((queued vcmd).blk.eng e).started ≠ [])
    ∧ ((engineTrap vcmd).blk.frozen = true ∧ ∃ e ∈ maskEngines 15, ((engineTrap vcmd).blk.eng e).q ≠ [])
    ∧ running.blk.handler = false ∧ inHandler.blk.handler = true := by
  and_intros <;> decide +kernel

/-- The token k3 with its producer, consumer and count. -/
def token3 (prod cons : Agent) (n : BitVec 8) : State := withBlk (fun b => b.setToken 3 ⟨n, prod, cons, true⟩)

theorem witness_Tokens :
    (Agent.V ≠ Agent.F ∧ ∀ c ∈ running.blk.cmds, c.namesToken 3 = false)
    ∧ (((token3 .S .V 254).blk.token 3).conf = true ∧ ((token3 .S .V 254).blk.token 3).prod = .S
      ∧ ((token3 .S .V 254).blk.token 3).count.toNat < 255)
    ∧ (((token3 .V .S 1).blk.token 3).conf = true ∧ ((token3 .V .S 1).blk.token 3).cons = .S ∧ ((token3 .V .S 1).blk.token 3).count ≠ 0)
    ∧ (((token3 .V .S 0).blk.token 3).conf = true ∧ ((token3 .V .S 0).blk.token 3).cons = .S
      ∧ ((token3 .V .S 0).blk.token 3).count = 0 ∧ (token3 .V .S 0).blk.frozen = false) := by
  and_intros <;> decide +kernel

/-- A launch in slot 0 of 256 blocks, locked in step or not, at gang turn 5. -/
def launch0 (locked : Bool) : Launch :=
  { slot := 0, fn := 0, queue := 0, seq := 0, record := ⟨[if locked then 0x2000 else 0, 0, 0, 0x000100010100]⟩, world := 0, part := 0,
    cls := 0, deadline := 0, nextGroup := 0, reports := [], dieMask := 1, gturn := 5, closed := none, statusDue := [], remote := none,
    ending := none, counting := none, ran := 0, passedOver := none, late := none, counted := true }

/-- The block in a locked gang of 256 blocks. -/
def gang (f : Block → Block) : State := { withBlk f with dp := { State.reset.dp with launches := [launch0 true] } }

/-- Function 0 has the dependence counters 8 to 23. -/
def depFn (i : DWord) : State :=
  { withBlk (regs i 0) with tb := { State.reset.tb with hub := [(hubKey 4 0 0, BitVec.ofNat 64 (8 + 16 * 2 ^ 12))] } }

theorem witness_TimeAndTurns :
    Ready strandBlk [] [] [3] []
    ∧ (Ready (depFn 8).blk [1] [] [3] [] ∧ (depRange (depFn 8) (depFn 8).blk.fn).1 ≤ (rdS (depFn 8).blk 1).toNat)
    ∧ (rdS (depFn 23).blk 1).toNat < (depRange (depFn 23) (depFn 23).blk.fn).1 + (depRange (depFn 23) (depFn 23).blk.fn).2
    ∧ Ready strandBlk [1] [] [] []
    ∧ (findLaunch (gang id) (gang id).blk.id.launch = some (launch0 true) ∧ (launch0 true).locked = true)
    ∧ findLaunch running running.blk.id.launch = none := by
  and_intros <;> first | decide +kernel | (unfold Ready; decide +kernel)

/-- The same with another block of the gang that has not arrived. -/
def gangOf2 (f : Block → Block) : State := { gang f with others := [{ strandBlk with id := ⟨0, 1⟩, core := 1 }] }

theorem witness_Barriers :
    (scopeAllowed (gang id) .clus = true ∧ (gang id).blk.arrPend.getLsbD Scope.clus.code = false ∧ (gang id).blk.atomicsOut = false
      ∧ phasePassed (arriveAt (gang id) .clus) .clus = true)
    ∧ (scopeAllowed (gang (fun b => { b with arrPend := 8 })) .clus = true
      ∧ (gang (fun b => { b with arrPend := 8 })).blk.arrPend.getLsbD Scope.clus.code = true
      ∧ phasePassed (arriveAt (gangOf2 id) .clus) .clus = false
      ∧ (barrierOf (settleBarrier (gangOf2 (fun b => { b with arrPend := 8 })) 0 .clus 0) 0 .clus 0).phase
          = (gangOf2 (fun b => { b with arrPend := 8 })).blk.arrPhase.getLsbD Scope.clus.code)
    ∧ (barrierOf (settleBarrier (gang (fun b => { b with arrPend := 8 })) 0 .clus 0) 0 .clus 0).phase
        ≠ (gang (fun b => { b with arrPend := 8 })).blk.arrPhase.getLsbD Scope.clus.code
    ∧ (membersOf (gangOf2 id) 0 .clus 0).length = 2
    ∧ (Scope.quad ≠ .core ∧ scopeAllowed running .quad = false ∧ scopeAllowed running .core = true)
    ∧ (scopeAllowed (gang id) .pod = false) := by
  and_intros <;> decide +kernel

/-! ## Witnesses: objects -/

/-- A descriptor of one dimension of n elements that world 0 reads and writes: its kind, format, residence and word 7. -/
def desc (kind fmt res n root : Nat) : BitVec 512 :=
  BitVec.ofNat 512 (kind * 2 ^ 44 + 2 ^ 40 + fmt * 2 ^ 35 + res * 2 ^ 32 + 15 * 2 ^ 28 + n * 2 ^ 64 + 0xC000 * 2 ^ 256 + root * 2 ^ 448)

/-- A tensor of 16 words of 64 bits in HBM. -/
def tensorD : BitVec 512 := desc kTensor 7 0 16 0
/-- A counter object of 16 words at the base of the die stores. -/
def counterD : BitVec 512 := desc kCounter 7 5 16 dsBase
/-- The same without rights. -/
def noRights (d : BitVec 512) : BitVec 512 := d &&& ~~~(BitVec.ofNat 512 (0xC000 * 2 ^ 256))

/-- The handle of the object of index 1. -/
def obj1 : DWord := Machine.handleOf 0 1 0

/-- Cells of bytes at rising addresses. -/
def cells (a : Nat) : List Byte → Memory
  | [] => []
  | b :: bs => (a, b) :: cells (a + 1) bs

/-- Memory with a directory page whose page of descriptors at 0x10000 holds the descriptor of index 1. -/
def dirMem (d : BitVec 512) : Memory :=
  cells 0 (leBytes 8 (2 ^ 63 + 2 ^ 16)) ++ cells 0x10040 (leBytes 64 d.toNat)

/-- A block with scalars s1 and s2 and a descriptor in h3. -/
def objBlk (d : BitVec 512) (a c : DWord) (b : Block) : Block := (regs a c b).setH 3 ⟨obj1, d, 0, false, false⟩

/-- The machine with that block, the descriptor at its home and in the handle cache of cluster 0. -/
def objSt (d : BitVec 512) (a c : DWord) (f : Block → Block) : State :=
  { withBlk (fun b => f (objBlk d a c b)) with
    mem := dirMem d, tb := { State.reset.tb with hcache := [⟨0, obj1, d, 0⟩] } }

/-- An answer that is there is the answer. -/
theorem ok_of {ε α : Type} {x : Except ε α} {a : α} (h : x.toOption = some a) : x = .ok a := by
  cases x with
  | error e => simp [Except.toOption] at h
  | ok b => simpa [Except.toOption] using h

/-- A handle resolves to a descriptor with stamp 0. What the resolution changes beside its answer, `resolve_frame` says. -/
def found (d : BitVec 512) (r : Resolved × State) : Bool :=
  match r.1 with
  | .ok e st => e == d && st == 0
  | _ => false

/-- An access goes through here. What it changes beside its answer, `objReadFrom_frame` and `objWrite_frame` say. -/
def went {α : Type} (r : Acc α × State) : Bool :=
  match r.1 with
  | .ok _ _ => true
  | _ => false

/-- Objects of indices 1 to 3: their descriptors, what slab 0 of the first two holds, and word 0 of the third. -/
structure Objects where
  d1 : BitVec 512
  d2 : BitVec 512
  d3 : BitVec 512
  bytes1 : List Byte
  bytes2 : List Byte
  tail : Byte

/-- The handle of index i. -/
def objH (i : Nat) : DWord := Machine.handleOf 0 i 0

/-- The machine with such objects: slabs in the pool, and in the die store the words of the third, the descriptors and the directory;
cluster 0 caches the descriptors, and core 0 the translations. -/
def objects (o : Objects) : State :=
  { State.reset with
    mem := (cells dsBase [o.tail] ++ cells (dsBase + 0x20040) (leBytes 64 o.d1.toNat)
      ++ cells (dsBase + 0x20080) (leBytes 64 o.d2.toNat) ++ cells (dsBase + 0x200C0) (leBytes 64 o.d3.toNat)
      ++ cells (dsBase + 0x30000) (leBytes 8 (2 ^ 63 + dsBase + 2 ^ 17))).filter (fun c => c.2 != 0)
      ++ cells (2 ^ 51) o.bytes2 ++ cells (2 ^ 51 + 0x10000) o.bytes1 ++ cells (2 ^ 51 + 0x20000) (List.replicate 64 0)
    tb := { State.reset.tb with
      otdir := BitVec.ofNat 64 (dsBase + 0x30000)
      hcache := [⟨0, objH 1, o.d1, 0⟩, ⟨0, objH 2, o.d2, 0⟩, ⟨0, objH 3, o.d3, 0⟩]
      tlb := [⟨0, 0, objH 1, 0, 0, 2 ^ 51 + 0x10000, none, true⟩, ⟨0, 0, objH 2, 0, 0, 2 ^ 51, none, true⟩,
        ⟨0, 0, objH 1, 0, 1, 2 ^ 51 + 0x20000, none, true⟩] } }

/-- The same handle for an object of package 1, whose home has answered that a read of it may go on. -/
def farBlk : Block :=
  { (regs 15 0 strandBlk).setH 3 ⟨Machine.handleOf 1 1 0, tensorD, 0, false, false⟩ with reply := some (leBytes 8 0 ++ leBytes 8 1) }

/-- All 16 load tags are in use. -/
def allTags : Block :=
  { strandBlk with
    tags := (List.range 16).map (fun k => ⟨BitVec.ofNat 4 k, k, false, 0⟩), nextLoad := 16
    loads := (List.range 16).map (fun k => { incb1 with id := k, taint := tagBit (BitVec.ofNat 4 k) }) }

theorem witness_ObjectLoadsIssue :
    (Ready (objBlk tensorD 15 0 strandBlk) [1, 2, 4] [] [5] [] ∧ (objBlk tensorD 15 0 strandBlk).loads.length < 255
      ∧ ((rdS (objBlk tensorD 15 0 strandBlk) 1).toNat : Int) + (0 : BitVec 18).toInt = (15 : Nat) ∧ 15 < dCount tensorD
      ∧ LiveHandle (objBlk tensorD 15 0 strandBlk) 3 0 ∧ dKind tensorD = kTensor ∧ canRead tensorD 0 = true
      ∧ wordFormat (dFmt tensorD) = true ∧ leaseBars running ⟨0, 0⟩ obj1 15 = false ∧ hHome obj1 = running.pl.pkg.toNat
      ∧ (objBlk tensorD 15 0 strandBlk).reqStamp ((objBlk tensorD 15 0 strandBlk).accessT 0) = 0)
    ∧ (LiveHandle farBlk 3 0 ∧ hHome (farBlk.hCell 3).v ≠ running.pl.pkg.toNat
      ∧ farBlk.reply = some (leBytes 8 0 ++ leBytes 8 1) ∧ replyValue (leBytes 8 0 ++ leBytes 8 1) 0 = 1)
    ∧ (LiveHandle (objBlk counterD 15 0 strandBlk) 3 0 ∧ dKind counterD = kCounter ∧ canWrite counterD 0 = true ∧ 15 < dCount counterD
      ∧ (objBlk counterD 15 0 strandBlk).fenceHeld = false
      ∧ ((rdS (objBlk counterD 16 0 strandBlk) 1).toNat : Int) + (BitVec.ofInt 18 (-1)).toInt = (15 : Nat))
    ∧ (∃ k, k < 16 ∧ ∀ r ∈ fencedSt.blk.liveTags, r.tag.toNat ≠ k)
    ∧ (∀ k, k < 16 → ∃ r ∈ allTags.liveTags, r.tag.toNat = k) := by
  and_intros <;> first | decide +kernel | (unfold Ready; decide +kernel) | (unfold LiveHandle; decide +kernel) | exact ⟨0, by decide +kernel⟩

/-- A tensor of the next generation at the home of the object, and a handle of the former one in h3. -/
def nextGen : BitVec 512 := tensorD ||| BitVec.ofNat 512 (2 ^ 48)
def stale : State := { objSt nextGen 0 0 id with tb := State.reset.tb }

/-- A tensor of 16 elements of 6 bits, which no load of one reads. -/
def sixBits : BitVec 512 := desc kTensor 0x10 0 16 0

/-- A lease of another block on the tensor's last element. -/
def taken : State :=
  { objSt tensorD 15 15 id with
    tb := { (objSt tensorD 15 15 id).tb with leases := [⟨0, 0, obj1, 15, 15, false, 0, ⟨7, 0⟩, 1, false, 0, 0⟩] } }

/-- The block's write lease of every element of the tensor. -/
def writeLease : Lease := ⟨0, 3, obj1, 0, 15, false, 0, ⟨0, 0⟩, 0, false, 0, 0⟩

theorem witness_ObjectStore :
    (Ready (objBlk tensorD 15 7 strandBlk) [1, 2] [] [] []
      ∧ ((rdS (objBlk tensorD 15 7 strandBlk) 1).toNat : Int) + (0 : BitVec 18).toInt = (15 : Nat) ∧ 15 < dCount tensorD
      ∧ (objBlk tensorD 15 7 strandBlk).reqStamp ((objBlk tensorD 15 7 strandBlk).accessT 0) = 0
      ∧ LiveHandle (objBlk tensorD 15 7 strandBlk) 3 0 ∧ dKind tensorD = kTensor ∧ canWrite tensorD 0 = true
      ∧ wordFormat (dFmt tensorD) = true
      ∧ leaseCovers { running with tb := { running.tb with leases := [writeLease] } } ⟨0, 0⟩ obj1 false 15 = true
      ∧ leaseCovers running ⟨0, 0⟩ obj1 false 15 = false)
    ∧ (((fencedSt.blk.liveTags.filter (fun r => ((4 : Taint) &&& tagBit r.tag) != 0)).map (·.load)).Nodup
      ∧ (fencedSt.blk.loads.map (·.id)).Nodup) := by
  and_intros <;> first | decide +kernel | (unfold Ready; decide +kernel) | (unfold LiveHandle; decide +kernel)

theorem witness_ObjectAccessFaults :
    (Ready (objBlk tensorD 0 0 strandBlk) [1, 2] [] [5] [] ∧ taintS (objBlk tensorD 0 0 strandBlk) 1 = 0
      ∧ (objBlk tensorD 0 0 strandBlk).deadMode = false)
    ∧ (strandBlk.hCell 3).v = 0
    ∧ (LiveHandle (objBlk counterD 16 0 strandBlk) 3 0 ∧ dKind counterD = kCounter ∧ canWrite counterD 0 = true
      ∧ (dCount counterD : Int) ≤ ((rdS (objBlk counterD 16 0 strandBlk) 1).toNat : Int) + (0 : BitVec 18).toInt)
    ∧ (LiveHandle (objBlk tensorD 0 0 strandBlk) 3 0 ∧ dKind tensorD = kTensor)
    ∧ (LiveHandle (objBlk (noRights tensorD) 0 0 strandBlk) 3 0 ∧ dKind (noRights tensorD) = kTensor
      ∧ canRead (noRights tensorD) 0 = false ∧ canWrite (noRights tensorD) 0 = false)
    ∧ (Ready stale.blk [1, 2] [] [5] [] ∧ hLow (stale.blk.hCell 3).v = 0 ∧ hIndex (stale.blk.hCell 3).v ≠ 0
      ∧ dGen (stale.blk.hCell 3).desc ≠ hGen (stale.blk.hCell 3).v
      ∧ (resolve stale (stale.blk.who 0) (stale.blk.hCell 3).v (stale.blk.reqStamp (stale.blk.accessT 0))).1 = .trap cSTALE)
    ∧ (LiveHandle (objBlk sixBits 0 0 strandBlk) 3 0 ∧ dKind sixBits = kTensor ∧ canRead sixBits 0 = true ∧ canWrite sixBits 0 = true
      ∧ wordFormat (dFmt sixBits) = false ∧ wordFormat (dFmt tensorD) = true)
    ∧ ((dCount tensorD : Int) ≤ ((rdS (objBlk tensorD 16 0 strandBlk) 1).toNat : Int) + (0 : BitVec 18).toInt
      ∧ ((rdS (objBlk tensorD 0 0 strandBlk) 1).toNat : Int) + (BitVec.ofInt 18 (-1)).toInt < 0)
    ∧ (Ready taken.blk [1, 2] [] [5] [] ∧ LiveHandle taken.blk 3 0 ∧ ((rdS taken.blk 1).toNat : Int) + (0 : BitVec 18).toInt = 15
      ∧ hHome obj1 = taken.pl.pkg.toNat ∧ leaseBars taken taken.blk.id obj1 15 = true ∧ subscribed taken.blk obj1 = false
      ∧ subscribed { taken.blk with subs := [obj1] } obj1 = true)
    ∧ (cached stale 0 obj1 0 = none ∧ readDesc stale (hIndex obj1) = .ok nextGen ∧ dOk stale (hHome obj1) nextGen = true
      ∧ dGen nextGen ≠ hGen obj1) := by
  and_intros <;> first | decide +kernel | (unfold Ready; decide +kernel) | (unfold LiveHandle; decide +kernel) | (unfold Settled; decide +kernel) | (unfold OnChip; decide +kernel) | exact ok_of (by decide +kernel)

/-- Port 0 in peer mode with its link up, the route to package 1. -/
def peering (s : State) : State :=
  { s with pe := { s.pe with
      ports := s.pe.ports.setIfInBounds 0 { ScalePort.reset with mode := 1, linkUp := true }, route := s.pe.route.setIfInBounds 1 1 } }

/-- A request leaves where one port is open to its package. -/
theorem sends {s : State} {pkg op off p : Nat} {h : DWord} {d : Option DWord} {body : List Byte} (hl : lostMember s h pkg = false)
    (ho : openPorts s pkg = [p]) : (sendRequest s pkg op h off d body).isSome = true := by
  simp [sendRequest, sendParts, hl, ho, Nat.mod_one]

/-- The machine with that atomic outstanding on the counter object. -/
def incbSt : State := objSt counterD 0 0 (fun b => { b with loads := [incb1], nextLoad := 1 })

/-- A block with the object of index 1 in h3, which has a load of it outstanding. -/
def loading (op : LoadOp) (d : BitVec 512) : State :=
  { objects ⟨d, 0, counterD, List.replicate 1024 7, [], 0⟩ with
    blk := { objBlk d 0 0 strandBlk with loads := [{ incb1 with op := op, index := 1 }], nextLoad := 1 } }

/-- The same with a write of it posted. -/
def posting (p : Posted) (d : BitVec 512) : State :=
  { objects ⟨d, 0, counterD, List.replicate 1024 7, [], 0⟩ with blk := { objBlk d 0 0 strandBlk with posted := [p] } }

/-- A step cache of 4 blocks of 8 FP32 elements by 2 rows, which world 0 reads and writes. -/
def stepD : BitVec 512 :=
  BitVec.ofNat 512 (kStep * 2 ^ 44 + 3 * 2 ^ 40 + 8 * 2 ^ 35 + 15 * 2 ^ 28 + (8 + 2 * 2 ^ 16 + 4 * 2 ^ 32) * 2 ^ 64 + 0xC000 * 2 ^ 256)

/-- A `sto` to element 1, and an update of an `sgate` that does not skip. -/
def sto1 : Posted := .sto 0 obj1 1 5 0 [] none none
def update1 (skip : Bool) (far : Option (List FarPart)) : GateUpdate := ⟨0, 1, obj1, 3, 0, skip, List.replicate 64 9, 0, far, none, none⟩
def gate1 (skip : Bool) : Posted := .gate (update1 skip none)

/-- The same update with a part of its payload at package 1. -/
def farPart : FarPart := ⟨1, 0, [], false⟩
def gateAway : State := peering (posting (.gate (update1 false (some [farPart]))) stepD)

theorem witness_ObjectAccessesComplete :
    (incbSt.blk.loads[0]? = some incb1 ∧ loadReady incbSt.blk 0 incb1 = true ∧ incb1.reply = none
      ∧ found counterD (resolve incbSt (incbSt.blk.who 0) obj1 0) = true ∧ dKind counterD = kCounter ∧ canWrite counterD 0 = true
      ∧ hHome obj1 = incbSt.pl.pkg.toNat ∧ Unwatched (resolve incbSt (incbSt.blk.who 0) obj1 0).2 obj1 15
      ∧ leNat (Memory.chip incbSt.mem (dWord counterD 7 + 8 * 15) 8) < incb1.b.toNat)
    ∧ (found tensorD (resolve (loading .elem tensorD) ((loading .elem tensorD).blk.who 0) obj1 0) = true ∧ canRead tensorD 0 = true
      ∧ loadReady (loading .elem tensorD).blk 0 { incb1 with op := .elem, index := 1 } = true
      ∧ went (objRead (resolve (loading .elem tensorD) ((loading .elem tensorD).blk.who 0) obj1 0).2 ((loading .elem tensorD).blk.who 0) obj1
          tensorD 0 (indexFields tensorD 1).1 (indexFields tensorD 1).2) = true)
    ∧ (found stepD (resolve (loading (.skipWord 0) stepD) ((loading (.skipWord 0) stepD).blk.who 0) obj1 0) = true
      ∧ went (objRead (resolve (loading (.skipWord 0) stepD) ((loading (.skipWord 0) stepD).blk.who 0) obj1 0).2
          ((loading (.skipWord 0) stepD).blk.who 0) obj1 stepD 0 0 [skipField stepD 0]) = true)
    ∧ readDesc (resolve (loading .version tensorD) ((loading .version tensorD).blk.who 0) obj1 0).2 (hIndex obj1) = .ok tensorD
    ∧ (loadReady strandBlk 0 { incb1 with reply := some (leBytes 16 3) } = true ∧ incb1.op ≠ .elem)
    ∧ (fmtOf 0 = some (.int true 8) ∧ 0x80 < 2 ^ 8) ∧ (strandBlk.takesResults = true ∧ { strandBlk with phase := .exited }.takesResults = false)
    ∧ (stoHeld (posting sto1 tensorD).blk 0 obj1 1 = false ∧ strandBlk.strandTurn none = true
      ∧ found tensorD (resolve (posting sto1 tensorD) ((posting sto1 tensorD).blk.who 0) obj1 0) = true ∧ canWrite tensorD 0 = true
      ∧ went (objWrite (resolve (posting sto1 tensorD) ((posting sto1 tensorD).blk.who 0) obj1 0).2 ((posting sto1 tensorD).blk.who 0) obj1
          tensorD 0 (indexFields tensorD 1).1 ((indexFields tensorD 1).2.take 1) [5 % 2 ^ dWidth tensorD] []) = true
      ∧ Unwatched (posting sto1 tensorD) obj1 1)
    ∧ ((holderOf (posting sto1 tensorD) obj1 tensorD 0 0 true).toOption.isSome = true
      ∧ went (byteAddrs (posting sto1 tensorD) ((posting sto1 tensorD).blk.who 0) obj1 tensorD ⟨0, 0, 0, 1, 0⟩ true
          (fieldOffs [⟨8, 0, 64⟩])) = true ∧ Memory.poisoned (posting sto1 tensorD).mem ((2 ^ 51 + 0x10008) / 64) = false)
    ∧ ((⟨8, 0, 64⟩ : Field).n = 8 * (List.range 8).length)
    ∧ (found stepD (resolve (posting (gate1 false) stepD) ((posting (gate1 false) stepD).blk.who 0) obj1 0) = true
      ∧ (writeNear ((posting (gate1 false) stepD).blk.who 0) obj1 stepD 0
            (fullLines ((gateWrites stepD 3 0 false (List.replicate 64 9)).map (·.1))) (gateWrites stepD 3 0 false (List.replicate 64 9))
            (resolve (posting (gate1 false) stepD) ((posting (gate1 false) stepD).blk.who 0) obj1 0).2).1.toOption = some [])
    ∧ (writeNear ((posting (gate1 false) stepD).blk.who 0) obj1 stepD 0 (fullLines ((gateWrites stepD 3 0 false (List.replicate 64 9)).map (·.1)))
        (gateWrites stepD 3 0 false (List.replicate 64 9)) (posting (.gate (update1 false (some []))) stepD)).1.toOption = some [] := by
  and_intros <;> first | decide +kernel | (unfold Unwatched; decide +kernel) | exact ok_of (by decide +kernel)

theorem witness_ObjectAccessesComplete_away :
    gateAway.blk.posted[0]? = some (.gate (update1 false (some [farPart]))) ∧ farPart.side = false
    ∧ found stepD (resolve gateAway (gateAway.blk.who 0) obj1 0) = true
    ∧ (sendRequest (resolve gateAway (gateAway.blk.who 0) obj1 0).2 1 opWrite obj1 0 none []).isSome = true :=
  ⟨by decide +kernel, rfl, by decide +kernel, sends (p := 0) (by decide +kernel) (by decide +kernel)⟩

/-- The machine with the counter object's handle in s1. -/
def opens : State := objSt counterD obj1 0 id

/-- The same of an object that the world only writes, and of one without rights. -/
def writeOnly : BitVec 512 := counterD &&& ~~~(BitVec.ofNat 512 (0x4000 * 2 ^ 256))

theorem witness_HandleRegisters :
    (Ready strandBlk [] [] [4] [] ∧ (strandBlk.deadMode = true → (strandBlk.hCell 3).dead = false))
    ∧ (Ready opens.blk [1] [] [] [] ∧ Settled opens.blk 0
      ∧ taintS opens.blk 1 = 0 ∧ rdS opens.blk 1 = obj1
      ∧ found counterD (resolve opens (opens.blk.who 0) obj1 (opens.blk.reqStamp (opens.blk.accessT 0))) = true
      ∧ canRead counterD 0 = true)
    ∧ (found writeOnly (resolve (objSt writeOnly obj1 0 id) ((objSt writeOnly obj1 0 id).blk.who 0) obj1 0) = true
      ∧ canRead writeOnly 0 = false ∧ canWrite writeOnly 0 = true)
    ∧ (found (noRights counterD) (resolve (objSt (noRights counterD) obj1 0 id) ((objSt (noRights counterD) obj1 0 id).blk.who 0) obj1 0) = true
      ∧ canRead (noRights counterD) 0 = false ∧ canWrite (noRights counterD) 0 = false)
    ∧ LiveHandle (objSt counterD 0 0 id).blk 3 0
    ∧ (Settled opens.blk 0 ∧ opens.blk.deadMode = false ∧ (opens.blk.hCell 3).v = obj1
      ∧ found counterD (resolve opens (opens.blk.who 0) (opens.blk.hCell 3).v (opens.blk.reqStamp (opens.blk.accessT 0))) = true)
    ∧ (∃ k, k < 16 ∧ ∀ r ∈ fencedSt.blk.liveTags, r.tag.toNat ≠ k) := by
  and_intros <;> first | decide +kernel | (unfold Ready; decide +kernel) | (unfold LiveHandle; decide +kernel) | (unfold Settled; decide +kernel)

/-- A waiting request of the block for that element. -/
def leaseReq : LeaseReq := ⟨obj1, 15, 15, false, 0, ⟨0, 0⟩, 0, false, 5, none⟩

/-- The machine in which the block waits for that lease. -/
def leaseWaits : State :=
  { objSt tensorD 15 15 (fun b => { b with wait := some (.lease 0) }) with tb := { State.reset.tb with leaseWait := [leaseReq] } }

/-- The machine in which the block holds a lease, with its identifier in s1. -/
def leaseHeld : State :=
  { objSt tensorD 0x30000 0 id with tb := { State.reset.tb with leases := [writeLease], leaseGen := [(0, 3)] } }

theorem witness_Leases :
    (Ready (objSt tensorD 15 15 id).blk [1, 2] [] [5] [] ∧ taintS (objSt tensorD 15 15 id).blk 1 = 0
      ∧ taintS (objSt tensorD 15 15 id).blk 2 = 0 ∧ Settled (objSt tensorD 15 15 id).blk 0 ∧ LiveHandle (objSt tensorD 15 15 id).blk 3 0
      ∧ (objSt tensorD 15 15 id).blk.reqStamp ((objSt tensorD 15 15 id).blk.accessT 0) = 0 ∧ dKind tensorD = kTensor
      ∧ canWrite tensorD 0 = true ∧ (rdS (objSt tensorD 15 15 id).blk 2).toNat < dCount tensorD
      ∧ (heldLeases (objSt tensorD 15 15 id) ⟨0, 0⟩).length < 16 ∧ grantable (objSt tensorD 15 15 id) [] leaseReq = true)
    ∧ (grantable taken [] leaseReq = false ∧ Ready taken.blk [1, 2] [] [5] [] ∧ LiveHandle taken.blk 3 0)
    ∧ ((sendRequest (peering { running with blk := { farBlk with reply := none } }) 1 opAtomic (farBlk.hCell 3).v 0 none
          (leaseBody { leaseReq with handle := (farBlk.hCell 3).v } true)).isSome = true
      ∧ replyValue (leBytes 8 0 ++ leBytes 8 1) 0 = 1 ∧ replyValue (leBytes 8 0 ++ leBytes 8 3) 0 = 3)
    ∧ (leaseWaits.tb.leaseWait[0]? = some leaseReq ∧ grantable leaseWaits [] leaseReq = true ∧ leaseAwaited leaseWaits leaseReq = true)
    ∧ (Ready leaseHeld.blk [1] [] [] [] ∧ LiveHandle leaseHeld.blk 3 0 ∧ leaseHeld.tb.leases = [writeLease] ∧ leaseHeld.tb.away = []
      ∧ rdS leaseHeld.blk 1 = BitVec.ofNat 64 (writeLease.entry + writeLease.gen.toNat * 2 ^ 16)
      ∧ leaseHeld.blk.cmds = [] ∧ leaseHeld.blk.posted = [] ∧ leaseHeld.blk.loads = []) := by
  and_intros <;> first | decide +kernel | (unfold Ready; decide +kernel) | (unfold LiveHandle; decide +kernel) | (unfold Settled; decide +kernel) | exact sends (p := 0) (by decide +kernel) (by decide +kernel)

theorem witness_Versions :
    (Ready (objSt tensorD 0 0 id).blk [] [] [5] [] ∧ (objSt tensorD 0 0 id).blk.reply = none ∧ Settled (objSt tensorD 0 0 id).blk 0
      ∧ LiveHandle (objSt tensorD 0 0 id).blk 3 0 ∧ (objSt tensorD 0 0 id).blk.cmds = []
      ∧ (objSt tensorD 0 0 id).blk.reqStamp ((objSt tensorD 0 0 id).blk.accessT 0) = 0
      ∧ versionFault ((objSt tensorD 0 0 id).blk.hCell 3).desc 0 false true = none ∧ hHome obj1 = (objSt tensorD 0 0 id).pl.pkg.toNat
      ∧ readDesc (objSt tensorD 0 0 id) (hIndex obj1) = .ok tensorD)
    ∧ (versionFault tensorD 0 false false = none ∧ (objSt tensorD 0 0 id).blk.subs.length < 32
      ∧ (rdS (objSt tensorD 0 0 id).blk 1).toNat ≤ dVersion tensorD)
    ∧ dVersion tensorD < (rdS (objSt tensorD 1 0 id).blk 1).toNat := by
  and_intros <;> first | decide +kernel | (unfold Ready; decide +kernel) | (unfold LiveHandle; decide +kernel) | (unfold Settled; decide +kernel) | (unfold OnChip; decide +kernel) | exact ok_of (by decide +kernel)

/-- The bytes of a queue record with 16 slots at guest-physical 0x41000: PRODUCER, DIE 0, HEAD, TAIL and the flags. -/
def queueBytes (head tail flags : Nat) : List Byte :=
  leBytes 8 0x41000 ++ leBytes 8 (4 * 2 ^ 60 + 2 ^ 59) ++ leBytes 8 (head * 2 ^ 32 + tail) ++ leBytes 16 0 ++ leBytes 8 flags
    ++ leBytes 16 0

/-- Function 0 has one queue, whose record and ring lie in HBM at their guest-physical addresses. -/
def withQueue (head tail flags : Nat) (s : State) : State :=
  { s with
    mem := s.mem ++ cells 0x40000 (queueBytes head tail flags)
    tb := { s.tb with g2 := [⟨0, 0, 0x40, 0x40000, true⟩, ⟨0, 0, 0x41, 0x41000, true⟩] }
    dp := { s.dp with tables := [⟨0, 0x40000, 1⟩] } }

/-- A watch entry of partition 0 for function 0, armed in entry 0, with its number in s1. -/
def watched : State :=
  { withBlk (regs 0 0) with tb := { State.reset.tb with hub := [(hubKey 5 0 2, BitVec.ofNat 64 (2 ^ 63))] } }

/-- The same with a firing of that entry that has not been appended yet. -/
def firing : State := { watched with dp := { watched.dp with jobs := [⟨.fire 0 0 0, none⟩] } }

/-- An entry armed on the object's element 15, for queue 0 of function 0, whose ring has room or is full. -/
def armedOn (tail : Nat) : State :=
  let s := withQueue 0 tail 0 (objSt tensorD 15 0 id)
  { s with tb := { s.tb with hub := [(hubKey 5 0 0, obj1), (hubKey 5 0 1, 15), (hubKey 5 0 2, BitVec.ofNat 64 (2 ^ 63))] } }

theorem witness_MonitorsAndWatches :
    (Ready (withBlk (regs 0 1)).blk [1, 2] [] [3] [] ∧ OnChip (withBlk (regs 0 1)) .sp 0 8
      ∧ leDWord (Memory.chip (performStoresTo (withBlk (regs 0 1)) .sp (strandBlk.spA 0) 8).mem (strandBlk.spA 0) 8)
          ≠ rdS (withBlk (regs 0 1)).blk 2)
    ∧ leDWord (Memory.chip (performStoresTo (withBlk (regs 0 0)) .sp (strandBlk.spA 0) 8).mem (strandBlk.spA 0) 8)
        = rdS (withBlk (regs 0 0)).blk 2
    ∧ (Ready (objSt counterD 15 1 id).blk [1, 2] [] [3] [] ∧ Settled (objSt counterD 15 1 id).blk 0 ∧ LiveHandle (objSt counterD 15 1 id).blk 3 0
      ∧ dKind counterD = kCounter ∧ canRead counterD 0 = true ∧ (objSt counterD 15 1 id).blk.atomicOn obj1 15 = false
      ∧ hHome obj1 = (objSt counterD 15 1 id).pl.pkg.toNat
      ∧ BitVec.ofNat 64 (leNat (Memory.chip (objSt counterD 15 1 id).mem (dWord counterD 7 + 8 * 15) 8)) ≠ rdS (objSt counterD 15 1 id).blk 2
      ∧ BitVec.ofNat 64 (leNat (Memory.chip (objSt counterD 15 0 id).mem (dWord counterD 7 + 8 * 15) 8)) = rdS (objSt counterD 15 0 id).blk 2)
    ∧ (Ready (withQueue 0 0 0 (objSt tensorD 15 0 id)).blk [1, 2] [] [4] [] ∧ Settled (withQueue 0 0 0 (objSt tensorD 15 0 id)).blk 0
      ∧ LiveHandle (withQueue 0 0 0 (objSt tensorD 15 0 id)).blk 3 0
      ∧ watchFault (withQueue 0 0 0 (objSt tensorD 15 0 id)) obj1 tensorD 15 = none
      ∧ watchQueueBad (withQueue 0 0 0 (objSt tensorD 15 0 id)) 0 = .ok false
      ∧ watchArmed (withQueue 0 0 0 (objSt tensorD 15 0 id)) 0 0 = false)
    ∧ (Ready watched.blk [1] [] [] [] ∧ (rdS watched.blk 1).toNat = 0 ∧ watchArmed watched watched.blk.part 0 = true
      ∧ bits (hubWord watched 5 (watchNo watched.blk.part 0) 2) 36 6 = watched.blk.fn.toNat ∧ watched.dp.jobs = [])
    ∧ watchArmed running running.blk.part 0 = false
    ∧ ((objSt counterD 15 1 (fun b => { b with reply := some (leBytes 8 0 ++ leBytes 16 7) })).blk.reply = some (leBytes 8 0 ++ leBytes 16 7)
      ∧ BitVec.ofNat 64 (replyValue (leBytes 8 0 ++ leBytes 16 7) 0) ≠ rdS (objSt counterD 15 1 id).blk 2)
    ∧ (armedWatches (armedOn 0) = [0] ∧ tlbHandle (BitVec.ofNat 64 (hubWord (armedOn 0) 5 0 0)) = tlbHandle obj1 ∧ hubWord (armedOn 0) 5 0 1 = 15
      ∧ (armedOn 0).dp.jobs = []
      ∧ ((appendRecord (armedOn 0) 0 0 ((registered (armedOn 0) 0 0).set 2 0)).toOption.bind (·.1)).isSome = true
      ∧ ((appendRecord (armedOn 16) 0 0 ((registered (armedOn 16) 0 0).set 2 0)).toOption.map (fun x => x.1.isNone)) = some true)
    ∧ Unwatched running obj1 0 := by
  and_intros <;> first | decide +kernel | (unfold Ready; decide +kernel) | (unfold LiveHandle; decide +kernel) | (unfold Settled; decide +kernel) | (unfold OnChip; decide +kernel) | exact ok_of (by decide +kernel) | (unfold Unwatched; decide +kernel)

theorem witness_MonitorsAndWatches_waits : ∃ j ∈ firing.dp.jobs, ∃ w v, j.work = .fire (watchNo firing.blk.part 0) w v :=
  ⟨_, List.mem_singleton.2 rfl, _, _, rfl⟩

/-! ## Witnesses: engine commands -/

/-- A vector copy, `vmov w2, w1` of 16-bit lanes. -/
def vmovI : Instr := .vmov hdr0 ⟨false, false, .i16, 0, 1, 2⟩

/-- Bank t0 stands on the vector side. -/
def sideV : State := withBlk (fun b => { b with bankSide := 1 })

/-- The vector queue is full. -/
def fullV : State := withBlk (fun b => { b with bankSide := 1, eV := { q := List.replicate 16 vcmd, run := none, trail := [], next := 16 } })

/-- Every bank stands on the matrix side, with a queue of that engine. -/
def sideM (q : List Cmd) : State :=
  withBlk (fun b => { b with bankSide := 0, eM := { q := q, run := none, trail := [], next := 0 } })

/-- Rows from the scratchpad to the cluster store. -/
def relayI : Instr := .relay hdr0 .sp 0 1 .cl 0 2

/-- A copy to the block in whose scratchpad the receiver stands. -/
def xcopyI : Instr := .xcopy hdr0 0 1 0 2

theorem witness_CommandsQueue_V : vmovI.hdr? = some hdr0 ∧ engineOfCmd vmovI = .V ∧ sideV.blk.frozen = false
    ∧ pairFault sideV.blk .V hdr0 = none ∧ rowFault sideV.blk (vNames vmovI) = none ∧ vLimit vmovI = none
    ∧ Ready sideV.blk (vScalars vmovI) [0] (vDestS vmovI) (vDestP vmovI ++ [47]) ∧ sideV.blk.eV.q.length < 16
    ∧ Ready fullV.blk (vScalars vmovI) [0] (vDestS vmovI) (vDestP vmovI ++ [47]) ∧ 16 ≤ fullV.blk.eV.q.length := by
  and_intros <;> first | decide +kernel | (unfold Ready; decide +kernel)

theorem witness_CommandsQueue_M : (Instr.mzero hdr0 5).hdr? = some hdr0 ∧ engineOfCmd (.mzero hdr0 5) = .M
    ∧ pairFault (sideM []).blk .M hdr0 = none ∧ tileFault (sideM []).blk (.mzero hdr0 5) = none ∧ (sideM []).blk.deadMode = false
    ∧ Ready (sideM []).blk [] [0] [] [47] ∧ (sideM []).blk.eM.q.length < 16
    ∧ tileFault (sideM (List.replicate 16 vcmd)).blk (.mzero hdr0 5) = none ∧ Ready (sideM (List.replicate 16 vcmd)).blk [] [0] [] [47]
    ∧ 16 ≤ (sideM (List.replicate 16 vcmd)).blk.eM.q.length := by
  and_intros <;> first | decide +kernel | (unfold Ready; decide +kernel)

theorem witness_CommandsQueue_FP : relayI.hdr? = some hdr0 ∧ engineOfCmd relayI = .F ∧ xcopyI.hdr? = some hdr0 ∧ engineOfCmd xcopyI = .P
    ∧ pairFault running.blk .F hdr0 = none ∧ tHandleFault running.blk relayI (tRegs relayI) = none
    ∧ tRunFault running.blk (tRegs relayI) = none ∧ tValueFault running.blk relayI (tRegs relayI) = none
    ∧ tHandleFault running.blk xcopyI (tRegs xcopyI) = none ∧ tRunFault running.blk (tRegs xcopyI) = none
    ∧ tValueFault running.blk xcopyI (tRegs xcopyI) = none ∧ running.blk.deadMode = false
    ∧ tTakesDraws running.blk (tCmd running.blk relayI) = false ∧ tTakesDraws running.blk (tCmd running.blk xcopyI) = false
    ∧ Ready running.blk (tScalars running.blk (tRegs relayI)) [0] [] [47]
    ∧ Ready running.blk (tScalars running.blk (tRegs xcopyI)) [0] [] [47] ∧ (running.blk.eng .F).q.length < 16 := by
  and_intros <;> first | decide +kernel | (unfold Ready; decide +kernel)

/-- One vector command runs. -/
def runsV (c : Cmd) : State := withBlk (fun b => { b with eV := { q := [], run := some c, trail := [], next := 1 } })
/-- One matrix command runs, with every bank on the matrix side. -/
def runsM (c : Cmd) : State := withBlk (fun b => { b with bankSide := 0, eM := { q := [], run := some c, trail := [], next := 1 } })
/-- One fetch-engine command runs. -/
def runsF (c : Cmd) : State := withBlk (fun b => { b with eF := { q := [], run := some c, trail := [], next := 1 } })

/-- A frozen queue starts no command. -/
def frozenV : State := withBlk (fun b => { b with frozen := true, eV := { q := [vcmd], run := none, trail := [], next := 1 } })

/-- A tile of one row of two 64-bit words at 0x100. -/
def wordTile : BitVec 128 := BitVec.ofNat 128 (0x100 + 16 * 2 ^ 18 + 15 * 2 ^ 48 + 7 * 2 ^ 64)

/-- The commands' instructions in the statements' clauses. -/
def vldC : Cmd := { vcmd with instr := .vld hdr0 256 0 2 }
def vstC : Cmd := { vcmd with instr := .vst hdr0 false 0x7FF 0 1, sx := 0 }
def vselC : Cmd := { vcmd with instr := .vsel hdr0 ⟨false, false, .i16, 1, 2, 3⟩ }
def vcmpC : Cmd := { vcmd with instr := .vcmpLt hdr0 ⟨false, false, .i16, 1, 2, 47⟩ }
def vextC : Cmd := { vcmd with instr := .vext hdr0 false .i16 63 1 5 }
def mzeroC : Cmd := { vcmd with instr := .mzero hdr0 5, eng := .M }
def mxpackC : Cmd :=
  { vcmd with instr := .mxpack hdr0 false false 0 2, eng := .M, dA := BitVec.ofNat 128 (0x15 * 2 ^ 64) }
def mmulC : Cmd := { vcmd with instr := .mmul hdr0 ⟨false, 3, 1, 0, 2⟩, eng := .M, dA := BitVec.ofNat 128 (4 * 2 ^ 64) }
def relayC : Cmd := { vcmd with instr := relayI, eng := .F }

/-- A `relay` whose tile of one row of 16 bytes passes its checks. -/
def relayOk : Cmd := { relayC with dA := wordTile, dB := wordTile, si := [0] }

/-- A `relay` with a malformed descriptor, and a `vld` beyond the block's squares. -/
def relayBad : Cmd := { relayC with n := 1, dA := 1 }
def vldBad : Cmd := { vcmd with instr := .vld hdr0 0 0 2, sx := 0x3FFFF }

/-- The fault of the vector command has just been taken, and a later `relay` is queued. -/
def firstFault : State :=
  { engineTrap vcmd with blk := { (engineTrap vcmd).blk with
    faultNow := true, eF := { q := [relayBad], run := none, trail := [], next := 1 } } }

theorem witness_CommandsStartAndEnd :
    (((queued { vcmd with instr := .vmov ⟨false, false, 0, some 1, none⟩ ⟨false, false, .i16, 0, 1, 2⟩ }).blk.eng .V).takes .V = true
      ∧ headReady (queued vcmd).blk { vcmd with instr := .vmov ⟨false, false, 0, some 1, none⟩ ⟨false, false, .i16, 0, 1, 2⟩ } = false)
    ∧ (((queued { vcmd with off := true }).blk.eng .V).takes .V = true ∧ engineStarts (queued { vcmd with off := true }) = true
      ∧ headReady (queued { vcmd with off := true }).blk { vcmd with off := true } = true
      ∧ stallHolds (queued { vcmd with off := true }) { vcmd with off := true } = false)
    ∧ (engineStarts (queued vcmd) = true ∧ headReady (queued vcmd).blk vcmd = true ∧ stallHolds (queued vcmd) vcmd = false
      ∧ vcmd.off = false ∧ vcmd.skipEnd = false ∧ vcmd.eng = .V ∧ engineOfCmd vcmd.instr = .V ∧ vcmd.moved = 0
      ∧ vStartFault (putQueue (queued vcmd) .V [vcmd.fresh]).blk vcmd.fresh = none
      ∧ (vStartFault (putQueue (queued vldBad) .V [vldBad.fresh]).blk vldBad.fresh).isSome = true)
    ∧ (mStartFault (putQueue (sideM [mzeroC]) .M [mzeroC.fresh]) mzeroC.fresh = none
      ∧ (mStartFault (putQueue (sideM [mmulC]) .M [mmulC.fresh]) mmulC.fresh).isSome = true)
    ∧ (relayC.dest = [] ∧ (strandBlk.eng .F).started = []
      ∧ (startT (putQueue running .F [relayOk.fresh]) relayOk.fresh).1.toOption.isSome = true)
    ∧ (engineStarts firstFault = false ∧ sameCycle firstFault.blk relayBad = true
      ∧ (firstFault.blk.eng .F).takes .F = true ∧ headReady firstFault.blk relayBad = true
      ∧ (match (startChecks firstFault relayBad.fresh).1 with | .error (.fault _ _) => true | _ => false) = true)
    ∧ (running.blk.phase = .running ∧ handled.blk.trapVec ≠ 0 ∧ handled.blk.handler = false ∧ (handled.blk.eng vcmd.eng).started = [])
    ∧ (((runsV { vcmd with off := true }).blk.eng .V).run = some { vcmd with off := true } ∧ vcmd.hdr.sig = none
      ∧ (runsV vcmd).blk.abroad = false ∧ vcmd.checked = 0)
    ∧ (vsig.hdr.sig = some 3 ∧ ((runsV { vsig with off := true }).blk.token 3).count ≠ 255)
    ∧ (RunsIn (runsV vcmd) .V vcmd ∧ RunsIn (runsM mzeroC) .M mzeroC)
    ∧ ((runsF relayC).blk.eng .F).run = some relayC
    ∧ ({ runsV vcmd with blk := { (runsV vcmd).blk with reply := some [] } }.blk.abroad = true) := by
  and_intros <;> first | decide +kernel | (unfold RunsIn; decide +kernel)

theorem witness_VectorLanes : RunsIn (runsV vcmd) .V vcmd ∧ vaOf? vcmd.instr = some (⟨false, false, .i16, 0, 1, 2⟩, .un)
    ∧ vDestW vcmd.instr = some 2 ∧ vcmd.instr.isVsel = false
    ∧ vEffect vcmd (runsV vcmd) = vLanewise vcmd ⟨false, false, .i16, 0, 1, 2⟩ (runsV vcmd) := by
  and_intros <;> first | rfl | decide +kernel | (unfold RunsIn; decide +kernel)

/-- A value whose case is the finite one is finite. -/
theorem isFin_of {v : Val} (h : (match v with | .fin _ _ _ => true | _ => false) = true) : IsFin v := by
  cases v <;> simp_all [IsFin]

theorem witness_LaneArithmetic : elemFmt? .i8 = none ∧ 255 < 2 ^ elemWidth .i8
    ∧ vcmd.instr ∈ [Instr.vmov hdr0 ⟨false, false, .i16, 0, 1, 2⟩]
    ∧ (elemFmt? .f32 = some fp32 ∧ IsFin (fp32.decode 0x3F800000) ∧ (fp32.decode 0x7FC00000).isNan = true)
    ∧ (([(200, true), (7, false)] : List (Nat × Bool)).filter (·.2)).map (·.1) ≠ []
    ∧ ([1, 2, 3, 4] : List Nat).length = 2 ^ 2 := by
  and_intros <;> first | decide +kernel | exact isFin_of (by decide +kernel)

theorem witness_VectorMoves :
    RunsIn (runsV vldC) .V vldC
    ∧ (RunsIn (runsV vstC) .V vstC ∧ vstC.vAddr + 127 < 2 ^ 18)
    ∧ (RunsIn (runsV vcmpC) .V vcmpC ∧ (47 : WReg).setWidth 6 ≠ (0 : PReg) ∧ ((47 : WReg).setWidth 6 : PReg).toNat < 48
      ∧ vcmpC.destP = some 47)
    ∧ (RunsIn (runsV vextC) .V vextC ∧ vextC.mask.getLsbD 63 = true)
    ∧ (∀ i ∈ ([.vsel hdr0 ⟨false, false, .i16, 1, 2, 3⟩, .vredAdd hdr0 ⟨false, false, .i16, 0, 2, 3⟩, .vbcast hdr0 .i16 1 3,
          .vins hdr0 .i16 63 1 3, .vperm hdr0 false .i16 1 2 3, .vtopk hdr0 false .i16 4 2 3, .vcvt hdr0 false 1 8 9 2 3,
          .vxset hdr0 true 2 1] : List Instr),
        RunsIn (runsV { vcmd with instr := i }) .V { vcmd with instr := i })
    ∧ (8 ≤ codeWidth 9 ∧ codeWidth 8 ≤ 32 ∧ codeWidth 9 < codeWidth 8 ∧ (1 + 1) * vcvtCount 8 9 ≤ 1024 / codeWidth 9) := by
  and_intros <;> first | decide +kernel | (unfold RunsIn; decide +kernel)

theorem witness_TilesAndBanks :
    RunsIn (runsM mzeroC) .M mzeroC
    ∧ (RunsIn (runsM mmulC) .M mmulC ∧ matOf? mmulC.instr = some ⟨false, 3, 1, 0, 2⟩ ∧ (mClass (tFmt mmulC.dA)).isSome = true
      ∧ ∀ r ∈ deadMarks mmulC.instr, bankOf r ≠ 2)
    ∧ (IsFin (fp32.decode 0x3F800000) ∧ ([1, 2] : List Nat).length = ([3, 4] : List Nat).length)
    ∧ ((Instr.mmulG hdr0 ⟨false, 3, 1, 0, 2⟩ false 5 ≠ .mmul hdr0 ⟨false, 3, 1, 0, 2⟩) ∧ (0 : Nat) < 4 / 4 ∧ (3 : Nat) < 4)
    ∧ (fmtOf (tFmt wordTile)).isSome = true
    ∧ (RunsIn (runsM mxpackC) .M mxpackC ∧ fmtOf (tFmt mxpackC.dA) = some .mxi8)
    ∧ (ownsBank running.blk 15 = true ∧ ∀ c ∈ running.blk.cmds, c.namesBank 15 = false)
    ∧ ownsBank (withBlk (fun b => { b with preempt := true })).blk 8 = false := by
  and_intros <;> first | decide +kernel | (unfold RunsIn; decide +kernel) | exact isFin_of (by decide +kernel)

/-! ## Witnesses: the fetch and put engines -/

/-- One put-engine command runs beside it. -/
def runsTP (e : Engine) (c : Cmd) (b : Block) : Block :=
  b.setEng e { q := [], run := some c, trail := [], next := 1 }

/-- A tensor of two words in HBM, and one in the pool. -/
def pairD : BitVec 512 := desc kTensor 7 0 2 0
def poolD : BitVec 512 := desc kTensor 7 3 2 0

/-- A tensor of 8 by 2 elements of FP32, and a step cache's tile of them at 0x200. -/
def payloadD : BitVec 512 :=
  BitVec.ofNat 512 (2 ^ 44 + 2 * 2 ^ 40 + 8 * 2 ^ 35 + 15 * 2 ^ 28 + (8 + 2 * 2 ^ 16) * 2 ^ 64 + 0xC000 * 2 ^ 256)
def payloadTile : BitVec 128 := BitVec.ofNat 128 (0x200 + 32 * 2 ^ 18 + 2 ^ 36 + 31 * 2 ^ 48 + 8 * 2 ^ 64)

/-- A command on the object of index 1 and, of two, of index 2, with a shape of two elements at the origin. -/
def tcmd (e : Engine) (i : Instr) : Cmd :=
  { vcmd with instr := i, eng := e, dA := wordTile, shape := BitVec.ofNat 256 (1 + 2 * 2 ^ 16), si := [0], sy := [0], ha := objH 1,
              hb := objH 2 }

/-- The machine in which a command runs, with two objects of 256 bytes. -/
def moves (d1 d2 : BitVec 512) (c : Cmd) : State :=
  { objects ⟨d1, d2, counterD, List.replicate 256 7, List.replicate 256 7, 0⟩ with blk := runsTP c.eng c strandBlk }

/-- The state behind the resolution of a command's objects. -/
def resolved (s : State) (c : Cmd) : State := (resolveUses s c 0 c.objUses).2

/-- The objects of a command resolve to descriptors, and its checks pass. -/
def startsOn (s : State) (c : Cmd) (ds : List (BitVec 512)) : Bool :=
  (resolveUses s c 0 c.objUses).1.toOption == some ds && (tFault (resolved s c) c ds none).isNone

/-- The fields of a job's positions. -/
def fieldsAt (d : BitVec 512) (ps : List (Option (List Nat))) : Nat × List Field := groupFields d ps (List.range ps.length)

def fetchC : Cmd := tcmd .F (.fetch hdr0 ⟨0, .sp, 0, 0, 0, 3⟩)
def fetchIxC : Cmd := { tcmd .F (.fetchIx hdr0 1 0 0 0 3) with dest := [0], dB := BitVec.ofNat 128 (0x300 + 3 * 2 ^ 48 + 6 * 2 ^ 64) }
def sreuseC : Cmd :=
  { tcmd .F (.sreuse hdr0 1 0 0) with dA := payloadTile, si := [3], g := { GCell.zero with inH := objH 2, outH := objH 1 } }
def fetchStepC : Cmd :=
  { tcmd .F (.fetchStep hdr0 0 1 0 0 0 3) with
    dA := payloadTile, sx := 3, shape := BitVec.ofNat 256 (2 + 8 * 2 ^ 16 + 2 * 2 ^ 32), g := { GCell.zero with inH := objH 2 } }
def putC : Cmd := tcmd .P (.put hdr0 ⟨0, .sp, 0, 0, 0, 3⟩)
def putAddC : Cmd := tcmd .P (.putAdd hdr0 ⟨0, .sp, 0, 0, 0, 3⟩)
def fillC : Cmd := tcmd .P (.poolFill hdr0 0 0 0 3)
def copyC : Cmd := tcmd .P (.poolCopy hdr0 0 4 0 0 3)
def redC : Cmd := tcmd .P (.poolRed hdr0 .add 0 4 0 0 3)
def cmpC : Cmd := { tcmd .P (.poolCmp hdr0 0 4 0 0 0 3) with dA := BitVec.ofNat 128 (0x100 + 7 * 2 ^ 48 + 7 * 2 ^ 64) }
def xcopyC : Cmd := { tcmd .P xcopyI with dB := wordTile, sx := 0x200 * 2 ^ 32 }

theorem witness_Transfers_in :
    (∀ c ∈ [fetchC, fetchIxC], RunsT (moves pairD pairD c) .F c ∧ startsOn (moves pairD pairD c) c [pairD] = true
      ∧ OneLine (jobOf c [pairD]).keys (jobOf c [pairD]).pos.length
      ∧ (jobOf c [pairD]).pos.length = rowLength c pairD * (tRows c.dA + 1) ∧ dFmt pairD = tFmt c.dA ∧ mxCode (tFmt c.dA) = false
      ∧ went (objReadFrom false (resolved (moves pairD pairD c) c) (strandBlk.who 1) (objH 1) pairD 0
          (fieldsAt pairD (jobOf c [pairD]).pos).1 (fieldsAt pairD (jobOf c [pairD]).pos).2) = true)
    ∧ (RunsT (moves stepD stepD sreuseC) .F sreuseC ∧ startsOn (moves stepD stepD sreuseC) sreuseC [stepD] = true
      ∧ OneLine (jobOf sreuseC [stepD]).keys (jobOf sreuseC [stepD]).pos.length
      ∧ (jobOf sreuseC [stepD]).pos.length = rowLength sreuseC stepD * (tRows sreuseC.dA + 1)
      ∧ went (objReadFrom false (resolved (moves stepD stepD sreuseC) sreuseC) (strandBlk.who 1) (objH 1) stepD 0
          (fieldsAt stepD (jobOf sreuseC [stepD]).pos).1 (fieldsAt stepD (jobOf sreuseC [stepD]).pos).2) = true)
    ∧ ((moves pairD pairD fetchC).blk.nsq ≤ 64) := by
  refine ⟨List.forall_mem_cons.2 ⟨?_, List.forall_mem_cons.2 ⟨?_, List.forall_mem_nil _⟩⟩, ?_, by decide +kernel⟩ <;> and_intros
  all_goals first | decide +kernel | (unfold RunsT RunsIn; decide +kernel) | exact ⟨(0, 0), by decide +kernel⟩ | exact ⟨(0, 3), by decide +kernel⟩

theorem witness_Transfers_out :
    (∀ c ∈ [putC, putAddC], RunsT (moves pairD pairD c) .P c ∧ startsOn (moves pairD pairD c) c [pairD] = true
      ∧ OneLine (jobOf c [pairD]).keys (jobOf c [pairD]).pos.length ∧ dIsMx pairD = false ∧ c.dest = []
      ∧ armedWatches (resolved (moves pairD pairD c) c) = []
      ∧ went (objWrite (resolved (moves pairD pairD c) c) (strandBlk.who 4) (objH 1) pairD 0
          (fieldsAt pairD (jobOf c [pairD]).pos).1 (fieldsAt pairD (jobOf c [pairD]).pos).2 [1, 2] []) = true)
    ∧ went (combineBy (homeAccess (strandBlk.who 4) (objH 1) pairD 0) (resolved (moves pairD pairD putAddC) putAddC) (objH 1) pairD .add 7
        .rne true [(0, 1), (1, 2)]) = true
    ∧ (∀ c ∈ [copyC, redC, cmpC], RunsT (moves poolD poolD c) .P c ∧ startsOn (moves poolD poolD c) c [poolD, poolD] = true
      ∧ OneLine (jobOf c [poolD, poolD]).keys (jobOf c [poolD, poolD]).pos.length
      ∧ OneLine (jobOf c [poolD, poolD]).keys2 (jobOf c [poolD, poolD]).pos.length
      ∧ went (objReadFrom false (resolved (moves poolD poolD c) c) (strandBlk.who 4) (objH 2) poolD 0
          (fieldsAt poolD (jobOf c [poolD, poolD]).pos2).1 (fieldsAt poolD (jobOf c [poolD, poolD]).pos2).2) = true)
    ∧ (RunsT (moves poolD poolD fillC) .P fillC ∧ startsOn (moves poolD poolD fillC) fillC [poolD] = true) := by
  refine ⟨List.forall_mem_cons.2 ⟨?_, List.forall_mem_cons.2 ⟨?_, List.forall_mem_nil _⟩⟩, by decide +kernel,
    List.forall_mem_cons.2 ⟨?_, List.forall_mem_cons.2 ⟨?_, List.forall_mem_cons.2 ⟨?_, List.forall_mem_nil _⟩⟩⟩, ?_⟩ <;> and_intros
  all_goals first | decide +kernel | (unfold RunsT RunsIn; decide +kernel) | exact ⟨(0, 0), by decide +kernel⟩

/-- A read of an object's home copy on this package, whose slabs the first-level TLB holds, answers the same for every memory that holds the
same DRAM. -/
theorem reads_same {s : State} {who : Who} {h : DWord} {d : BitVec 512} {fs : List Field} {frame : Nat → TlbEntry}
    (hl : s.pe.lostShards = []) (hr : dRes d ≠ 4) (hs : dSaxis d = 15) (hp : hHome h = s.pl.pkg.toNat)
    (ht : ∀ o ∈ fieldOffs fs, s.tb.tlb.find? (fun e => e.place == who.core.toNat && (e.world == dOwner d && e.handle == tlbHandle h
      && e.shard == 0 && e.slab == o / 65536 && (e.write || !false))) = some (frame (o / 65536)) ∧ (frame (o / 65536)).peer = none)
    (hg : ∀ o ∈ fieldOffs fs, Memory.poisoned s.mem (((frame (o / 65536)).frame + o % 65536) / 64) = false
      ∧ isDram ((frame (o / 65536)).frame + o % 65536) = true ∧ isDram (64 * (((frame (o / 65536)).frame + o % 65536) / 64)) = true) :
    ∃ ws st, ∀ m, (∀ a, isDram a = true → Memory.read m a = Memory.read s.mem a) →
      objReadFrom true { s with mem := m } who h d 0 0 fs = (.ok ws st, { s with mem := m }) := by
  refine ⟨cutFields fs ((fieldOffs fs).map (fun o => (Memory.read s.mem ((frame (o / 65536)).frame + o % 65536)).getD 0)), s.tm.pclk, fun m hm => ?_⟩
  rw [objReadFrom_hit (s := { s with mem := m }) (e := ⟨0, hHome h, bits (dWord d 7) 12 38 * 4096, bits (dWord d 7) 10 2 + 1, 0⟩)
    (as := (fieldOffs fs).map (fun o => (frame (o / 65536)).frame + o % 65536)) (st := 0)
    (by simp [holderOf, shardLost, hl, hr, hs]) hp
    (byteAddrs_hit (frame := fun k => (frame k).frame) _ (fun o ho => slabTranslate_hit (ht o ho).1 (ht o ho).2))
    (List.find?_eq_none.2 (fun a ha => by
      obtain ⟨o, ho, rfl⟩ := List.mem_map.1 ha
      have := (hg o ho).1
      unfold Memory.poisoned at this ⊢
      simp [hm _ (hg o ho).2.2] at this ⊢
      exact Option.isSome_iff_ne_none.1 this))]
  have hv : (fieldOffs fs).map ((fun a => (Memory.read m a).getD 0) ∘ fun o => (frame (o / 65536)).frame + o % 65536)
      = (fieldOffs fs).map (fun o => (Memory.read s.mem ((frame (o / 65536)).frame + o % 65536)).getD 0) :=
    List.map_congr_left (fun o ho => by rw [Function.comp_apply, hm _ (hg o ho).2.1])
  rw [List.map_map, hv]
  simp [serveStamp]

/-- The state behind the tile's read of that command. -/
def stepped : State :=
  (objReadFrom false (resolved (moves payloadD stepD fetchStepC) fetchStepC) (strandBlk.who 1) (objH 1) payloadD 0
    (fieldsAt payloadD (jobOf fetchStepC [payloadD, stepD]).pos).1 (fieldsAt payloadD (jobOf fetchStepC [payloadD, stepD]).pos).2).2

theorem witness_Transfers_step :
    (RunsT (moves payloadD stepD fetchStepC) .F fetchStepC ∧ startsOn (moves payloadD stepD fetchStepC) fetchStepC [payloadD, stepD] = true
      ∧ fetchStepC.dest = [] ∧ (jobOf fetchStepC [payloadD, stepD]).pos.length = qExt fetchStepC.shape 0 * (tRows payloadTile + 1)
      ∧ dFmt payloadD = tFmt payloadTile ∧ dFmt stepD = tFmt payloadTile ∧ fmtOf (tFmt payloadTile) = some (.flt fp32)
      ∧ went (objReadFrom false (resolved (moves payloadD stepD fetchStepC) fetchStepC) (strandBlk.who 1) (objH 1) payloadD 0
          (fieldsAt payloadD (jobOf fetchStepC [payloadD, stepD]).pos).1 (fieldsAt payloadD (jobOf fetchStepC [payloadD, stepD]).pos).2) = true)
    ∧ OneLine (jobOf fetchStepC [payloadD, stepD]).keys 16 ∧ OneLine ((jobOf fetchStepC [payloadD, stepD]).keys2.drop 16) 16
    ∧ (groupFields stepD (jobOf fetchStepC [payloadD, stepD]).pos2 ((List.range 16).map (· + 16))).1 = 0
    ∧ ∃ ws st, ∀ m, (∀ a, isDram a = true → Memory.read m a = Memory.read stepped.mem a) →
        objReadFrom true { stepped with mem := m } (strandBlk.who 1) (objH 2) stepD 0 0
          (groupFields stepD (jobOf fetchStepC [payloadD, stepD]).pos2 ((List.range 16).map (· + 16))).2 = (.ok ws st, { stepped with mem := m }) := by
  refine ⟨?_, ?_, ?_, by decide +kernel, reads_same (frame := fun _ => ⟨0, 0, objH 2, 0, 0, 2 ^ 51, none, true⟩) (by decide +kernel) (by decide +kernel)
    (by decide +kernel) (by decide +kernel) (by decide +kernel) (by decide +kernel)⟩ <;> and_intros
  all_goals first | decide +kernel | (unfold RunsT RunsIn; decide +kernel) | exact ⟨(0, 0), by decide +kernel⟩ | exact ⟨(0, 3), by decide +kernel⟩

theorem witness_Transfers_rows :
    RunsT (moves pairD pairD relayOk) .F relayOk
    ∧ (RunsT (moves pairD pairD xcopyC) .P xcopyC
      ∧ feOldest (moves pairD pairD xcopyC) (receiverAddr (moves pairD pairD xcopyC) xcopyC (landing xcopyC)) = none
      ∧ (moves pairD pairD xcopyC).feWait = [])
    ∧ ((fmtOf 8).isSome = true ∧ (match fmtOf 9 with | some (.flt _) => true | _ => false) = true)
    ∧ (([none] : List (Option (List Nat)))[0]? = some none)
    ∧ (match (moveAll (jobOf fetchC [pairD]) (jobFuel (jobOf fetchC [pairD])) (resolved (moves pairD pairD fetchC) fetchC) fetchC).1 with
        | .done _ => true | _ => false) = true := by
  and_intros <;> first | decide +kernel | (unfold RunsT RunsIn; decide +kernel)

/-! ## Witnesses: the sequencer, launches and the dispatchers -/

/-- A binding of that object with itself. -/
def bound (q : List CmpResult) : GCell :=
  { GCell.zero with inH := obj1, outH := obj1, maxskip := 2, inDesc := stepD, outDesc := stepD, queue := q }

/-- A finished result that meets the condition. -/
def result : CmpResult := ⟨0, true, 3, true, 0, []⟩

/-- A block with that binding in g1, the object in h3, and a reply of the home that counts one skipped step. -/
def gated (q : List CmpResult) (reply : Option (List Byte)) : State :=
  objSt stepD 0 0 (fun b => { b.setG 1 (bound q) with reply := reply })

/-- The same where IN's side area is at hand. -/
def gatedNear : State :=
  { objects ⟨stepD, stepD, counterD, List.replicate 256 7, [], 0⟩ with blk := (objBlk stepD 0 0 strandBlk).setG 1 (bound [result]) }

theorem witness_Sequencer :
    (Ready (gated [] none).blk [1, 2] [] [] [] ∧ LiveHandle (gated [] none).blk 3 0
      ∧ (gated [] none).blk.reqStamp ((gated [] none).blk.accessT 0) = 0
      ∧ sbindFault (gated [] none) obj1 obj1 stepD stepD 0 0 255 = none ∧ (∀ c ∈ (gated [] none).blk.cmds, c.namesBinding 2 = false)
      ∧ ((gated [] none).blk.gCell 2).queue = [])
    ∧ (Ready (gated [result] none).blk [] [] [5] [47] ∧ ((gated [result] none).blk.gCell 1).queue = [result] ∧ result.done = true
      ∧ ((gated [result] none).blk.gCell 1).inH ≠ 0 ∧ gatePending (gated [result] none) obj1 3 = false
      ∧ gateClaimed (gated [result] none) ⟨0, 0⟩ obj1 3 = false ∧ Settled (gated [result] none).blk 0
      ∧ (gated [result] (some (leBytes 24 0))).blk.reply = some (leBytes 24 0))
    ∧ Ready (gated [result] none).blk [] [] [0] [0]
    ∧ Ready (gated [] none).blk [] [] [5] []
    ∧ (Ready (gated [] none).blk [1] [] [5] [] ∧ (6 : BitVec 18).toNat = 6 ∧ (rdS (gated [] none).blk 1).toNat < mapWords (bound [])
      ∧ found stepD (resolve (gated [] none) ((gated [] none).blk.who 0) obj1 0) = true
      ∧ dKind stepD = kStep ∧ canRead stepD 0 = true ∧ (gated [] none).blk.loads.length < 255)
    ∧ (((gated [] none).blk.gCell 1).queue = [] ∧ (gated [] none).blk.posted = [] ∧ (gated [] (some [])).blk.reply ≠ none)
    ∧ (hHome obj1 = (gated [] none).pl.pkg.toNat
      ∧ readDesc (resolve (gated [] none) ((gated [] none).blk.who 0) obj1 0).2 (hIndex obj1) = .ok stepD
      ∧ dVersion stepD < ((bound []).step + 1).toNat
      ∧ (publishHere (resolve (gated [] none) ((gated [] none).blk.who 0) obj1 0).2 obj1 0 (fun _ => 1)).toOption.isSome = true) := by
  and_intros <;> first | decide +kernel | (unfold Ready; decide +kernel) | (unfold LiveHandle; decide +kernel) | (unfold Settled; decide +kernel) | exact ok_of (by decide +kernel)

/-- The count of a peer's reply is one that `sgate` may read. -/
theorem witness_SkipCount :
    SkipCount (gated [result] (some (leBytes 24 0))) (bound [result]) 3 (replyValue (leBytes 24 0) 0) (gated [result] (some (leBytes 24 0)))
    ∧ (gatedNear.blk.reply = none ∧ hHome obj1 = gatedNear.pl.pkg.toNat
      ∧ found stepD (resolve gatedNear (gatedNear.blk.who 0) obj1 0) = true
      ∧ went (objReadFrom true (resolve gatedNear (gatedNear.blk.who 0) obj1 0).2 (strandBlk.who 0) obj1 stepD 0 0 ((gateFields stepD 3).drop 1))
          = true) :=
  ⟨.inl ⟨_, rfl, rfl, rfl⟩, by decide +kernel, by decide +kernel, by decide +kernel, by decide +kernel⟩

/-- A token of partition 0. -/
def token0 : CbToken := ⟨0, 1, 0, 0, 1, 0, 0, 0, 0, 0x7FF, 0, 0, 0⟩

/-- Partition 0 has its latest scrub's token. -/
def tokened : State :=
  { running with wo := { running.wo with parts := running.wo.parts.setIfInBounds 0 { Switch.reset with token := some token0 } } }

theorem witness_LaunchAndToken :
    (Ready (withQueue 0 0 0 running).blk [1, 2] [] [5] [] ∧ launchFault (withQueue 0 0 0 running) 0 = none
      ∧ queueRec (withQueue 0 0 0 running) 0 0 = some [0x41000, 4 * 2 ^ 60 + 2 ^ 59, 0, 0, 0, 0, 0, 0]
      ∧ qProducer [0x41000, 4 * 2 ^ 60 + 2 ^ 59, 0, 0, 0, 0, 0, 0] = true ∧ qErr [0x41000, 4 * 2 ^ 60 + 2 ^ 59, 0, 0, 0, 0, 0, 0] = false
      ∧ (withQueue 0 0 0 running).blk.atomicsOut = false
      ∧ (appendRecord (withQueue 0 0 0 running) 0 0 (recordOf (List.replicate 128 0))).toOption.isSome = true)
    ∧ (queueRec (withQueue 0 16 0 running) 0 0 = some [0x41000, 4 * 2 ^ 60 + 2 ^ 59, 16, 0, 0, 0, 0, 0]
      ∧ ((queueEnds (withQueue 0 16 0 running) 0 0 [0x41000, 4 * 2 ^ 60 + 2 ^ 59, 16, 0, 0, 0, 0, 0]).2
          - (queueEnds (withQueue 0 16 0 running) 0 0 [0x41000, 4 * 2 ^ 60 + 2 ^ 59, 16, 0, 0, 0, 0, 0]).1).toNat
          = qSize [0x41000, 4 * 2 ^ 60 + 2 ^ 59, 16, 0, 0, 0, 0, 0])
    ∧ ((match (g2Translate (withQueue 0 0 0 running) 0 0 0x41000 true).1 with | .ok a => a == 0x41000 | _ => false) = true
      ∧ Memory.writePoison (withQueue 0 0 0 running).mem 0x41000 128 = none
      ∧ (tryNotify (withQueue 0 0 0 running) 0 0 1).toOption.isSome = true)
    ∧ (Ready tokened.blk [1] [] [5] [] ∧ cbtokFault tokened 0 = none ∧ latestToken tokened tokened.blk.part = some token0
      ∧ tokened.blk.storesInFlight < 32)
    ∧ latestToken running running.blk.part = none := by
  and_intros <;> first | decide +kernel | (unfold Ready; decide +kernel)

/-- Queue 0 is mapped, with a record in its ring's slot 0. -/
def mapped (head tail : Word) : State :=
  let s := withQueue 0 0 0 running
  { s with mem := s.mem ++ cells 0x41000 (List.replicate 128 0), dp := { s.dp with ctxs := [⟨0, 0, 0, head, tail, 0⟩] }
           tb := { s.tb with hub := [(hubKey 4 0 0, BitVec.ofNat 64 (2 ^ 25))] } }

/-- The words of that queue's record. -/
def queueWords (flags : Nat) : List Nat := [0x41000, 4 * 2 ^ 60 + 2 ^ 59, 0, 0, 0, flags, 0, 0]

/-- Partition 0 runs world 0 in fixed mode on cluster 0. -/
def fixed (s : State) : State := { s with tb := { s.tb with hub := (hubKey 1 0 0, BitVec.ofNat 64 (2 ^ 48 + 1)) :: s.tb.hub } }

/-- A launch of one block, and one of a locked gang of four that has been passed over. -/
def oneBlock : Launch := { launch0 false with record := ⟨[0, 0, 77, 0x000100010001]⟩ }
def gangOf4 : Launch := { launch0 false with record := ⟨[0x6000, 0, 0, 0x000100010004]⟩, passedOver := some 0 }
/-- A placed launch with a watchdog of one microsecond. -/
def watchdogged : Launch :=
  { launch0 false with record := ⟨[0, 0, 0, 0x000100010001, 0, 0, 2 ^ 32]⟩, counting := some 0, nextGroup := 1 }

/-- The machine with an idle core and a launch. -/
def launching (l : Launch) : State := fixed { State.reset with dp := { State.reset.dp with launches := [l] } }

/-- A block whose strand has ended, or which has been terminated. -/
def ended (p : Phase) : State := withBlk (fun b => { b with phase := p })

/-- A parked strand whose record's generation has been flushed. -/
def parkedAt (released : Bool) : Park := ⟨0, 0, some 0, released, .slab, false, false, obj1, 0, 0, 0, 0, 0, none⟩

/-- A record of one block in class L that runs the code object of index 1, and that object. -/
def goodRec : LaunchRec := ⟨[BitVec.ofNat 64 (2 ^ 21 + 2 ^ 19), obj1, 77, 0x000100010001]⟩
def codeD : BitVec 512 := desc kCode 4 0 16 0

/-- The launch that it becomes, and the machine that admits it. -/
def admitted0 : Launch := { (launch0 false) with record := goodRec, cls := 1, dieMask := 0, gturn := 0, counted := false }
def admitting : State :=
  let s := objSt codeD 0 0 id
  { s with dp := { s.dp with nextSlot := 1, launches := [admitted0] } }

theorem witness_Dispatchers_queues :
    (queueRec (mapped 0 1) 0 0 = some (queueWords 0) ∧ queueCtx (mapped 0 1) 0 0 = some ⟨0, 0, 0, 0, 1, 0⟩ ∧ (mapped 0 1).dp.jobs = []
      ∧ ((16 : Word) - 0).toNat ≤ qSize (queueWords 0) ∧ qSize (queueWords 0) < ((17 : Word) - 0).toNat
      ∧ (setQueueFlag (mapped 0 1) 0 0 2 true).toOption.isSome = true)
    ∧ (queueCtx (withQueue 0 0 0 running) 0 0 = none
      ∧ (setQueueWord (withQueue 0 0 0 running) 0 0 2 1).toOption.isSome = true
      ∧ (match setQueueWord (withQueue 0 0 0 running) 0 0 2 1 with
          | .ok u => (queueCtx (scanPending u 0) 0 0).isNone && (setQueueFlag (scanPending u 0) 0 0 0 true).toOption.isSome
          | .error _ => false) = true
      ∧ (match setQueueWord (withQueue 0 0 1 running) 0 0 2 1 with
          | .ok u => (queueCtx (scanPending u 0) 0 0).isSome | .error _ => false) = true)
    ∧ ((⟨0, 0, 0, 0, 1, 0⟩ : QueueCtx).head ≠ (⟨0, 0, 0, 0, 1, 0⟩ : QueueCtx).tail ∧ slotFree (mapped 0 1) 0 = true
      ∧ queueHeld (mapped 0 1) 0 0 = false ∧ guestRead (mapped 0 1) 0 0 0x41000 128 = .ok (List.replicate 128 0))
    ∧ (recordReason State.reset 0 0 ⟨[1]⟩ ≠ 0 ∧ recordReason admitting 0 0 goodRec = 0 ∧ goodRec.status = 0
      ∧ found codeD (resolve admitting (dispWho 0 0) obj1 0) = true ∧ dKind codeD = kCode ∧ canRead codeD 0 = true
      ∧ badEntry goodRec codeD = false ∧ partLives admitting 0 = false ∧ partLives (fixed admitting) 0 = true)
    ∧ (queueCtx (mapped 1 1) 0 0 = some ⟨0, 0, 0, 1, 1, 0⟩ ∧ queueBusy (mapped 1 1) 0 0 = false ∧ queueHeld (mapped 1 1) 0 0 = false)
    ∧ ((withQueue 0 0 1 running).dp.tables = [⟨0, 0x40000, 1⟩] ∧ queueRec (withQueue 0 0 1 running) 0 0 = some (queueWords 1)
      ∧ qPending (queueWords 1) = true ∧ qDie (queueWords 1) = 0 ∧ queueCtx (withQueue 0 0 1 running) 0 0 = none ∧ qOk (queueWords 1) = true
      ∧ (match (g2Translate (withQueue 0 0 1 running) 0 0 (0x40000 + 40) true).1 with | .ok a => a == 0x40028 | _ => false) = true
      ∧ Memory.writePoison (withQueue 0 0 1 running).mem 0x40028 8 = none) := by
  and_intros <;> first | decide +kernel | exact ok_of (by decide +kernel)

theorem witness_Dispatchers_placement :
    ((launching oneBlock).dp.dead.getLsbD 0 = false ∧ pickOrder (launching oneBlock) 0 = [oneBlock]
      ∧ choosePlace (launching oneBlock) 0 oneBlock = some [(0, 0)] ∧ victimOn (launching oneBlock) 0 = none)
    ∧ (findLaunch (launching gangOf4) 0 = some gangOf4 ∧ gangOf4.passedOver = some 0 ∧ gangOf4.record.locked = true
      ∧ eligible (launching gangOf4) gangOf4 = true ∧ reservationOf (launching gangOf4) gangOf4 = none
      ∧ (launching gangOf4).dp.launches.filter (reserves (reachTime (launching gangOf4) (0 + 100000))) = [gangOf4]
      ∧ extentSize gangOf4.record.blocks = 4 ∧ (launching gangOf4).dp.reserved = []
      ∧ (gangIn (coreUsable (launching gangOf4) 0) gangOf4 (4 * 0) 4).isSome = true)
    ∧ (findLaunch (launching watchdogged) 0 = some watchdogged ∧ watchdogged.counting = some 0 ∧ watchdogged.record.watchdog ≠ 0
      ∧ ((allBlocks (launching watchdogged)).map (·.id)).Nodup) := by
  and_intros <;> decide +kernel

theorem witness_Dispatchers_blocks :
    retireStatus (ended .exited).blk = some 0 ∧ retireStatus (ended .terminated).blk = some 1
    ∧ (ended .exited).blk.quiet = true ∧ (ended .exited).blk.queued = [] ∧ running.blk.quiet = true
    ∧ (withBlk (fun b => { b with wait := some (.park (parkedAt true)) })).blk.wait = some (.park (parkedAt true))
    ∧ ((withBlk (fun b => { b with loads := [{ incb1 with park := some (parkedAt false) }] })).blk.loads[0]?
        = some { incb1 with park := some (parkedAt false) }
      ∧ ({ incb1 with park := some (parkedAt false) } : ObjLoad).park ≠ none) := by
  and_intros <;> decide +kernel

/-! ## Witnesses: tables, time, worlds and resets -/

/-- The arguments of a table command. -/
def targs (a b c : DWord) (s : State) : State := { s with tb := { s.tb with targ0 := a, targ1 := b, targ2 := c } }

/-- A started command that captured an object's old descriptor. -/
def oldCommand : State := runsF { fetchC with oldDesc := true }

/-- The counter object at its home, that is to be moved. -/
def moving : State := targs 1 (BitVec.ofNat 64 (dsBase + 0x1000)) 0x80000 { withBlk id with mem := dirMem counterD }

/-- The object of index 1 has a share group of packages 0 and 1. -/
def shared : State :=
  targs 1 0 0 { running with pe := { running.pe with groups := [⟨objH 1, [0, 1], 1, [], [], 0, [], [], none, none⟩] } }

theorem witness_TableCommands :
    tableBusy oldCommand = true
    ∧ (tableBusy shared = false ∧ (∃ g ∈ shared.pe.groups, hObj g.index = hObj (Machine.handleOf shared.pl.pkg.toNat 1 0) ∧ (1 : Byte) ∈ g.members)
      ∧ (1 : Byte) ≠ shared.pl.pkg ∧ lostMember shared (Machine.handleOf shared.pl.pkg.toNat 1 0) (1 : Byte).toNat = false)
    ∧ (tableBusy (targs 1 0 0 running) = false ∧ (targs 1 0 0 running).tb.targ0.toNat < 2 ^ 32 ∧ bits (0 : DWord).toNat 36 20 = 0
      ∧ namesIndex running 1 obj1 = true ∧ namesIndex running 1 0 = false)
    ∧ ((2 ^ 14 - 1 : Nat) < 2 ^ 14 ∧ 0x41000 % 4096 = 0)
    ∧ ((targs 3 0 0 running).tb.targ0.toNat < 4 ∧ (targs 3 0 0 running).tb.targ1.toNat = (fbGenOf (targs 3 0 0 running) 3).toNat)
    ∧ (tableBusy moving = false ∧ movable moving 1 moving.tb.targ1.toNat moving.tb.targ2.toNat = some counterD)
    ∧ (twriteOk running 4 63 0 (16 * 2 ^ 12) = true ∧ twriteOk running 4 64 0 0 = false ∧ twriteOk running 7 0 0 0 = false)
    ∧ (63 < (tableShape 4).1 ∧ 1 < (tableShape 4).2)
    ∧ ((0 : Word) - fbHeadOf running 0).toNat ≤ (fbTailOf running 0 - fbHeadOf running 0).toNat
    ∧ (fbTailOf running 0 - fbHeadOf running 0).toNat < ((1 : Word) - fbHeadOf running 0).toNat := by
  and_intros <;> decide +kernel

/-- A timetable of one move whose words are there as a peer's reply, on partition 0 in fixed mode with one slot for function 0. -/
def timetable : State :=
  let p : Part := { Part.reset with
    ttobj := obj1, ttctl := BitVec.ofNat 64 (2 ^ 63 + 2 ^ 32), reply := some (leBytes 400 0) }
  let d : BitVec 512 :=
    BitVec.ofNat 512 (2 ^ 44 + 2 * 2 ^ 40 + 7 * 2 ^ 35 + 15 * 2 ^ 28 + (20 + 2 ^ 16) * 2 ^ 64 + 0xC000 * 2 ^ 256)
  fixed { State.reset with
    tb := { State.reset.tb with hub := [(hubKey 4 0 0, BitVec.ofNat 64 (2 ^ 25))], hcache := [⟨0, obj1, d, 0⟩] }
    tm := { State.reset.tm with parts := State.reset.tm.parts.setIfInBounds 0 p } }

/-- Port 0 gives PTP frames to the time service. -/
def ptpPort : State :=
  { State.reset with pe := { State.reset.pe with
      ports := State.reset.pe.ports.setIfInBounds 0 { ScalePort.reset with mode := 2, ptpen := true, linkUp := true } } }

/-- A frame of 60 bytes with the EtherType of PTP. -/
def ptpFrame : List Byte := List.replicate 12 0 ++ [0x88, 0xF7] ++ List.replicate 46 0

theorem witness_TimeEvents :
    (ttBad (BitVec.ofNat 64 (2 ^ 63 + 2 ^ 32)) = false ∧ ttEn (BitVec.ofNat 64 (2 ^ 63 + 2 ^ 32)) = true
      ∧ ttEn (partOf State.reset State.reset.tm.psel).ttctl = false)
    ∧ (walkerReady timetable 0 (partOf timetable 0) = true
      ∧ (match (readMove timetable (partOf timetable 0)).1 with | .words _ => true | _ => false) = true)
    ∧ ((partOf State.reset 3).stalled = none ∧ lateMoves State.reset 3 (partOf State.reset 3).pturn = [])
    ∧ ptpTaken ptpPort 0 ptpFrame = true ∧ ptpTaken ptpPort 1 ptpFrame = false := by
  and_intros <;> decide +kernel

/-- Partition 0 in frame-table mode with one frame of world 0, which is live; no block is placed. -/
def framed : State :=
  { State.reset with tb := { State.reset.tb with hub :=
      [(hubKey 1 0 0, BitVec.ofNat 64 (2 * 2 ^ 48 + 1)), (hubKey 3 0 1, 1), (hubKey 2 0 1, BitVec.ofNat 64 (2 ^ 62))] } }

/-- A block that waits for the answer of another package to a load. -/
def farRead : Block := { strandBlk with loads := [{ incb1 with remote := some ⟨7, 1, none, objH 1, 0, 0, false⟩ }] }

/-- Partition 0 as its edge has stopped it. -/
def stopped (s : State) : State :=
  let s := stopPart (reachTime s (switchOf s 0).due) 0
  (partBlocks s 0).foldl (fun s b => onBlock s b.id (settleBy edgeOps)) s

/-- Partition 0 is muted behind its edge. -/
def muted : State :=
  { framed with wo := { framed.wo with parts := framed.wo.parts.setIfInBounds 0 { Switch.reset with edge := .mute } } }

/-- A scrub of partition 0 has left a token to be signed. -/
def unsigned : State :=
  { running with wo := { running.wo with parts := running.wo.parts.setIfInBounds 0 { Switch.reset with pendingToken := some token0 } } }

theorem witness_WorldSwitches :
    (partMode framed 0 = 2 ∧ frameCount framed 0 ≠ 0 ∧ (switchOf framed 0).edge = .run ∧ framed.wo.vfHold = none
      ∧ (stopped framed).wo.vfHold = none ∧ (partBlocks (stopped framed) 0).all Block.edgeReady = true ∧ (partBlocks (stopped { framed with blk := strandBlk }) 0) ≠ []
      ∧ (partBlocks (stopped { framed with blk := strandBlk }) 0).all Block.edgeReady = true
      ∧ (partBlocks (stopped { framed with blk := farRead }) 0).all Block.edgeReady = false
      ∧ (stopped { framed with blk := farRead }).wo.vfHold = none)
    ∧ (partMode muted 0 = 2 ∧ frameCount muted 0 ≠ 0 ∧ (switchOf muted 0).edge = .mute ∧ muted.wo.vfHold = none)
    ∧ (muted.wo.vfBusy = false ∧ (switchOf muted (fnPart muted 0)).edge ≠ .run)
    ∧ partMode State.reset 0 ≠ 2 ∧ (switchOf unsigned 0).pendingToken = some token0
    ∧ ((switchOf tokened tokened.wo.cbpart).token = some token0 ∧ (0x100 : DWord).toNat % 256 = 0 ∧ isDram 0x100 = true)
    ∧ (State.reset.wo.vfBusy = false ∧ (∀ b ∈ allBlocks State.reset, b.fn ≠ 5) ∧ State.reset.wo.saves = []
      ∧ State.reset.dp.launches = [] ∧ svcRingOf State.reset 5 true = none ∧ svcRingOf State.reset 5 false = none
      ∧ partMode State.reset (fnPart State.reset 5) ≠ 2 ∧ (switchOf State.reset (fnPart State.reset 5)).edge = .run)
    ∧ ({ State.reset with wo := { State.reset.wo with vfBusy := true } }).wo.vfBusy = true := by
  and_intros <;> decide +kernel

/-- The part is in recovery. -/
def recovering : State := { State.reset with pl := { State.reset.pl with recovery := true } }

theorem witness_ResetsAndFaults :
    ((State.reset.pl.ready = false ∧ State.reset.pl.recovery = false) ∧ recovering.pl.recovery = true ∧ isDram (64 * 1) = true)
    ∧ (inFrameTable running 0 = false ∧ onCore running 5 = [] ∧ onCore running 0 ≠ []
      ∧ (onCore ((onCore running 0).foldl (fun s b => onBlock s b.id settle) (reachTime running (testFrom running 0))) 0).all (fun b => b.saveable && !b.abroad) = true
      ∧ inFrameTable { running with tb := { running.tb with hub :=
          [(hubKey 1 0 0, BitVec.ofNat 64 (2 * 2 ^ 48 + 1))] } } 0 = true) := by
  and_intros <;> decide +kernel

/-! ## Witnesses: the host, services, peers and the platform -/

/-- A port with a session, and the apertures 0 and 1 of function 0 open on the objects of index 1 and 3. -/
def hosted (s : State) : State :=
  { s with ho := { s.ho with
      port0 := ⟨true, true, none, [], 0⟩
      apertures := [(apKey 0 0 0, objH 1), (apKey 0 0 1, 1), (apKey 0 1 0, objH 3), (apKey 0 1 1, 1)] } }

/-- The machine of host accesses: a tensor of 16 words whose slab holds 128 bytes. -/
def hostSt : State := hosted (objects ⟨tensorD, 0, counterD, List.replicate 128 7, [], 0⟩)

/-- A load of 8 bytes through an aperture of function 0, a store there, and a write of words of an aperture's descriptor. -/
def loadReq (a o : Nat) : HostReq := newReq false 1 (BitVec.ofNat 64 (2 ^ 32 * (a + 1) + o)) 8 none
def storeReq (o : Nat) (bs : List Byte) : HostReq := newReq false 2 (BitVec.ofNat 64 (2 ^ 32 + o)) bs.length (some bs)
def descReq : HostReq := newReq false 3 (BitVec.ofNat 64 (0x2000 + 16 * 15 + 8)) 8 (some (leBytes 8 1))

/-- The load, parked. -/
def heldReq : HostReq := { (loadReq 0 0) with park := some (parkedAt false), since := some 5 }

/-- What a request comes to behind the resolution of its object. -/
def behindHost (h : DWord) : State := (resolve hostSt (hostWho hostSt 0) h 0).2

/-- The service ring of function 0 on the machine's side: ring object 2, counter object 3. -/
def ringOf (served : DWord) (privileged : Bool) : SvcRing := ⟨0, true, objH 2, objH 3, served, privileged, none, none, [], []⟩

/-- A tensor of 8 by 64 words, which holds a ring. -/
def ringD : BitVec 512 :=
  BitVec.ofNat 512 (2 ^ 44 + 2 * 2 ^ 40 + 7 * 2 ^ 35 + 15 * 2 ^ 28 + (8 + 64 * 2 ^ 16) * 2 ^ 64 + 0xC000 * 2 ^ 256)

/-- The machine in which function 0 asks for a service of an operation with five arguments, on an object of a descriptor. -/
def asking (op : Nat) (args : List Nat) (d : BitVec 512) (bytes : List Byte) : State :=
  let s := objects ⟨d, ringD, counterD, bytes, leBytes 8 (2 ^ 32 + op * 2 ^ 16) ++ args.flatMap (leBytes 8), 1⟩
  { s with ho := { s.ho with rings := [ringOf 0 true] } }

/-- The request that asks. -/
def svcReq : SvcReq := ⟨0, true⟩

/-- The seven argument words of a request. -/
def argWords (args : List Nat) : List Nat := args ++ List.replicate (7 - args.length) 0

/-- The checks of a pending request that a state meets. -/
def pendingB (s : State) (op w0 : Nat) (args : List Nat) : Bool :=
  svcRingOf s 0 true == some (ringOf 0 true) && slotOpen s (ringOf 0 true) && decide (0 < ringWord s (ringOf 0 true) 0)
    && ringSlot s (ringOf 0 true) 0 == some (w0 :: args) && bits w0 32 32 == 1 && bits w0 16 16 == op && bits w0 0 16 == 0
    && bits (args.getD 5 0) 16 48 == 0

theorem pending_of {s : State} {op w0 : Nat} {args : List Nat} (h : pendingB s op w0 args = true) :
    Pending s svcReq op (ringOf 0 true) args := by
  simp only [pendingB, Bool.and_eq_true, beq_iff_eq, decide_eq_true_eq] at h
  obtain ⟨⟨⟨⟨⟨⟨⟨h1, h0⟩, h2⟩, h3⟩, h4⟩, h5⟩, h6⟩, h7⟩ := h
  exact ⟨h1, rfl, h0, h2, w0, h3, h4, h5, h6, h7⟩

theorem witness_HostAccess :
    (requestFault State.reset (newReq false 0 0 7 none) = some gINVALID ∧ (portReqs State.reset false).length < 4096
      ∧ (∀ x ∈ portReqs State.reset false, x.tag ≠ 0) ∧ State.reset.pl.recovery = false
      ∧ ∀ q ∈ [loadReq 0 0, storeReq 120 (leBytes 8 9), descReq], requestFault hostSt q = none ∧ hostSt.ho.reqs = []
        ∧ (match hostServe { hostSt with ho := { hostSt.ho with reqs := [q] } } q with
            | (.done st _, u) => st == gOK && u.ho.reqs == [q] | _ => false) = true)
    ∧ (descReq.place = .desc (16 * 15 + 8) ∧ (newReq false 0 8 8 (some (leBytes 8 7))).place = .notify 1
      ∧ (newReq false 0 0x1000 8 (some (leBytes 8 7))).place = .service ∧ svcRingOf (asking 1 [] tensorD []) 0 true = some (ringOf 0 true)
      ∧ readDesc (asking 1 [] tensorD []) 3 = .ok counterD)
    ∧ ((loadReq 0 120).place = .aperture 0 120 ∧ (loadReq 0 120).reply = none ∧ BitVec.ofNat 64 (apWord hostSt 0 0 0) = objH 1
      ∧ apWord hostSt 0 0 1 % 2 = 1 ∧ found tensorD (resolve hostSt (hostWho hostSt 0) (objH 1) 0) = true ∧ dKind tensorD ≠ kCounter
      ∧ dKind tensorD ≠ kCode ∧ canRead tensorD (fnWorld hostSt 0) = true ∧ canWrite tensorD (fnWorld hostSt 0) = true
      ∧ 120 + 8 ≤ payloadBytes tensorD ∧ dSaxis tensorD = 15
      ∧ went (objReadFrom true (behindHost (objH 1)) (hostWho hostSt 0) (objH 1) tensorD 0 0 (wordFields 120 8)) = true
      ∧ went (objWrite (behindHost (objH 1)) (hostWho hostSt 0) (objH 1) tensorD 0 0 (wordFields 120 8) (bytesWords (leBytes 8 9))
          (coveredLines 120 8)) = true)
    ∧ ((loadReq 1 0).place = .aperture 1 0 ∧ BitVec.ofNat 64 (apWord hostSt 0 1 0) = objH 3
      ∧ found counterD (resolve hostSt (hostWho hostSt 0) (objH 3) 0) = true ∧ dKind counterD = kCounter ∧ canRead counterD 0 = true
      ∧ 0 + 8 ≤ 8 * dCount counterD ∧ hHome (objH 3) = (behindHost (objH 3)).pl.pkg.toNat)
    ∧ ({ hostSt with ho := { hostSt.ho with reqs := [heldReq] } }.ho.reqs[0]? = some heldReq ∧ heldReq.since = some 5
      ∧ heldReq.remote = none ∧ [heldReq].eraseIdx 0 = [])
    ∧ State.reset.pl.linksDown.contains (.galith true) = false := by
  and_intros <;> first | decide +kernel | exact ok_of (by decide +kernel)

/-- The state behind the resolution of a handle for a service of function 0. -/
def served (s : State) (h : DWord) : State := (resolve s (lolen s 0) h 0).2

/-- A descriptor image, as the words of an object of index 1. -/
def imageBytes : List Byte := leBytes 64 counterD.toNat ++ List.replicate 64 0

/-- The machine in which function 0 asks for a new object. -/
def creating : State := asking 1 (argWords [(objH 1).toNat]) tensorD imageBytes

/-- The state behind the read of the image's eight words. -/
def imageRead (s : State) : State := (readArg (ringOf 0 true) (objH 1) tensorD (firstFields tensorD 8) [] s).2

/-- The same with an image that package 1 holds, which the package's handle cache knows. -/
def farH : DWord := Machine.handleOf 1 1 0
def creatingFar : State :=
  let s := peering (asking 1 (argWords [farH.toNat]) tensorD [])
  { s with tb := { s.tb with hcache := ⟨0, farH, tensorD, 0⟩ :: s.tb.hcache } }

/-- The first word of the image, as one that is asked of package 1 and as one that has come. -/
def word0 : Field := ⟨0, 0, 64⟩
def cameWord : SvcRing := { ringOf 0 true with got := [(⟨farH, 0, word0⟩, 5)] }

theorem witness_Services_arguments :
    (pendingB creatingFar 1 (2 ^ 32 + 2 ^ 16) (argWords [farH.toNat]) = true
      ∧ found tensorD (resolve creatingFar (lolen creatingFar 0) farH 0) = true ∧ canRead tensorD (fnWorld (served creatingFar farH) 0) = true
      ∧ (match (readArg (ringOf 0 true) farH tensorD (firstFields tensorD 8) [] (served creatingFar farH)).1 with
          | .away p xs => p == 1 && xs.length == 8 | _ => false) = true)
    ∧ cameWord.got.find? (fun x => x.1 == ⟨farH, 0, word0⟩) = some (⟨farH, 0, word0⟩, 5)
    ∧ ((ringOf 0 true).got.find? (fun x => x.1 == ⟨objH 1, 0, word0⟩) = none
      ∧ went (objReadFrom true (served creating (objH 1)) (lolen (served creating (objH 1)) 0) (objH 1) tensorD 0 0 [word0]) = true) := by
  and_intros <;> decide +kernel

theorem witness_Services_asks (off : Nat) (body : List Byte) :
    (sendRequest (readArg (ringOf 0 true) farH tensorD (firstFields tensorD 8) [] (served creatingFar farH)).2 1 opRead farH off none body).isSome
      = true := sends (p := 0) (by decide +kernel) (by decide +kernel)

theorem witness_Services_create :
    pendingB creating 1 (2 ^ 32 + 2 ^ 16) (argWords [(objH 1).toNat]) = true
    ∧ found tensorD (resolve creating (lolen creating 0) (objH 1) 0) = true ∧ canRead tensorD (fnWorld (served creating (objH 1)) 0) = true
    ∧ (dKind tensorD = kTensor ∧ dFmt tensorD = 7 ∧ 8 ≤ dCount tensorD)
    ∧ (readArg (ringOf 0 true) (objH 1) tensorD (firstFields tensorD 8) [] (served creating (objH 1))).1
        = .all ((List.range 8).map (dWord counterD))
    ∧ readDesc (imageRead (served creating (objH 1))) 4 = .ok 0
    ∧ (dOk (imageRead (served creating (objH 1))) (served creating (objH 1)).pl.pkg.toNat
          (createdDesc ((List.range 8).map (dWord counterD)) 0 (dsBase + 0x100)) = true
      ∧ dKind (createdDesc ((List.range 8).map (dWord counterD)) 0 (dsBase + 0x100)) = kCounter
      ∧ dRes (createdDesc ((List.range 8).map (dWord counterD)) 0 (dsBase + 0x100)) = 5
      ∧ dSaxis (createdDesc ((List.range 8).map (dWord counterD)) 0 (dsBase + 0x100)) = 15)
    ∧ ((argWords [(objH 1).toNat]).getD 1 0 = 0 ∧ (argWords [(objH 1).toNat]).getD 2 0 = 0) := by
  and_intros <;> first | decide +kernel | exact ok_of (by decide +kernel)

/-- The machine in which function 0 asks for a service on the object of index 1. -/
def about (op : Nat) (more : List Nat) : State := asking op (argWords ((objH 1).toNat :: more)) tensorD []

theorem witness_Services_objects :
    (pendingB (about 2 []) 2 (2 ^ 32 + 2 * 2 ^ 16) (argWords [(objH 1).toNat]) = true
      ∧ found tensorD (resolve (about 2 []) (lolen (about 2 []) 0) (objH 1) 0) = true
      ∧ canWrite tensorD (fnWorld (served (about 2 []) (objH 1)) 0) = true
      ∧ hHome (objH 1) = (served (about 2 []) (objH 1)).pl.pkg.toNat)
    ∧ (dSaxis tensorD = 15 ∧ dRes tensorD ≠ 4 ∧ peerSlabs (about 2 []) (objH 1) tensorD = [])
    ∧ (pendingB (about 3 [3]) 3 (2 ^ 32 + 3 * 2 ^ 16) (argWords [(objH 1).toNat, 3]) = true
      ∧ found tensorD (resolve (about 3 [3]) (lolen (about 3 [3]) 0) (objH 1) 0) = true
      ∧ (match (resideHere (served (about 3 [3]) (objH 1)) (objH 1) tensorD 3 []).1 with | .moved => true | _ => false) = true)
    ∧ (dKind tensorD ≠ kCounter ∧ isWatched (about 3 [3]) (objH 1) = false ∧ (about 3 [3]).pe.pulls = []
      ∧ (localSlabs (about 3 [3]) (objH 1) tensorD).filter (fun x => !suitsRes 3 x.2) = [])
    ∧ (pendingB (about 4 []) 4 (2 ^ 32 + 4 * 2 ^ 16) (argWords [(objH 1).toNat]) = true
      ∧ found tensorD (resolve (about 4 []) (lolen (about 4 []) 0) (objH 1) 0) = true
      ∧ (publishHere (served (about 4 []) (objH 1)) (objH 1) 0 (· + 1)).toOption.isSome = true) := by
  and_intros <;> decide +kernel

/-- A collective of the first object with itself: it is new, it has been staged by this package, which alone takes part, and the same with the
epoch gone on: the outcome not asked for, asked for, and known to be none. -/
def gathering : State := asking 5 (argWords [0, (objH 1).toNat, (objH 1).toNat]) pairD (List.replicate 64 0)
def staged : Coll := ⟨0, true, 0, objH 1, ⟨0, 0⟩, [0], List.replicate 16 1, false⟩
def collecting : State := { gathering with pe := { gathering.pe with colls := [staged] } }
def grouped (epoch : Word) (aborted : Option Round) (s : State) : State :=
  { s with pe := { s.pe with groups := [⟨objH 1, [0], epoch, [], [], 1, [], [], none, aborted⟩] } }
def aborting : State := grouped 1 none collecting
def asked : State := grouped 1 none { gathering with pe := { gathering.pe with colls := [{ staged with asked := true }] } }
def aborted : State := grouped 1 (some ⟨0, 0⟩) { gathering with pe := { gathering.pe with colls := [{ staged with asked := true }] } }

/-- The first behind the fresh draw, its record gone. -/
def collected : State := (freshNat { collecting with pe := { collecting.pe with colls := [] } }).2

theorem witness_Services_collective :
    (pendingB collecting 5 (2 ^ 32 + 5 * 2 ^ 16) (argWords [0, (objH 1).toNat, (objH 1).toNat]) = true
      ∧ pendingB gathering 5 (2 ^ 32 + 5 * 2 ^ 16) (argWords [0, (objH 1).toNat, (objH 1).toNat]) = true
      ∧ pendingB aborting 5 (2 ^ 32 + 5 * 2 ^ 16) (argWords [0, (objH 1).toNat, (objH 1).toNat]) = true)
    ∧ (found pairD (resolve collecting (lolen collecting 0) (objH 1) 0) = true
      ∧ found pairD (resolve (served collecting (objH 1)) (lolen (served collecting (objH 1)) 0) (objH 1) 0) = true
      ∧ canRead pairD 0 = true ∧ canWrite pairD 0 = true ∧ dKind pairD = kTensor)
    ∧ (gathering.pe.colls = [] ∧ (ownPart gathering (lolen gathering 0) (objH 1) pairD (itemsOf pairD [])).isSome = true)
    ∧ (collecting.pe.colls.find? (fun c => c.fn == 0 && c.host == true && c.seq == 0) = some staged
      ∧ (committed (grouped 0 none collecting) staged = false ∧ staged.round.epoch = (groupOf (grouped 0 none collecting) (objH 1)).epoch)
      ∧ committed aborting staged = false ∧ staged.round.epoch ≠ (groupOf aborting (objH 1)).epoch ∧ committed collecting staged = true
      ∧ (groupOf (askOutcome aborting (objH 1) ⟨0, 0⟩) (objH 1)).aborted = some ⟨0, 0⟩
      ∧ (groupOf asked (objH 1)).aborted ≠ some ⟨0, 0⟩ ∧ (groupOf aborted (objH 1)).aborted = some ⟨0, 0⟩
      ∧ [List.replicate 16 (1 : Byte)].length = staged.members.length
      ∧ [List.replicate 16 (1 : Byte)].getD (staged.members.idxOf 0) [] = staged.staging)
    ∧ ((writeElems collected (lolen collected 0) (objH 1) pairD (collectiveElems 0 0 pairD [List.replicate 16 (1 : Byte)])).bind
        (fun s => (publishHere s (objH 1) 0 (· + 1)).toOption)).isSome = true := by
  and_intros <;> decide +kernel

/-- A stream object of 16 slots of 128 bytes. -/
def streamD : BitVec 512 := desc kStream 4 0 2048 0

/-- A request of a privileged host for an image of 128 bytes, which is none. The signature check is a free value, so no image is known to
pass it. -/
def flashing : State := asking 8 (argWords [(objH 1).toNat]) tensorD (List.replicate 128 0)

/-- A request for a stream on filter 15 of port 23. -/
def binding : State := asking 7 (argWords [(objH 1).toNat, (objH 3).toNat, 0, 23 + 15 * 2 ^ 8]) streamD []

theorem witness_Services_binds :
    pendingB (asking 6 (argWords [255, 0xFFFF]) tensorD []) 6 (2 ^ 32 + 6 * 2 ^ 16) (argWords [255, 0xFFFF]) = true
    ∧ (pendingB binding 7 (2 ^ 32 + 7 * 2 ^ 16) (argWords [(objH 1).toNat, (objH 3).toNat, 0, 23 + 15 * 2 ^ 8]) = true
      ∧ found streamD (resolve binding (lolen binding 0) (objH 1) 0) = true
      ∧ found counterD (resolve (served binding (objH 1)) (lolen (served binding (objH 1)) 0) (objH 3) 0) = true
      ∧ canWrite streamD 0 = true ∧ canWrite counterD 0 = true ∧ streamOk binding (objH 1) streamD counterD (2 ^ 7) = true
      ∧ (List.range 64).find? (fun k => binding.pe.streams.all (fun x => x.k != k)) = some 0
      ∧ (binding.pe.ports[23]?).isSome = true)
    ∧ (pendingB flashing 8 (2 ^ 32 + 8 * 2 ^ 16) (argWords [(objH 1).toNat]) = true ∧ flashing.pl.flashing = none
      ∧ found tensorD (resolve flashing (lolen flashing 0) (objH 1) 0) = true ∧ canRead tensorD 0 = true
      ∧ (match (readArg (ringOf 0 true) (objH 1) tensorD ((blobFields 0 (min (payloadBytes tensorD) imageLimit)).map (fun f => (0, f))) []
            (served flashing (objH 1))).1 with | .all _ => true | _ => false) = true
      ∧ imageOk (List.replicate 128 0) = false
      ∧ { flashing with pl := { flashing.pl with flashing := some ⟨0, true, [1]⟩ } }.pl.flashing = some ⟨0, true, [1]⟩
      ∧ (⟨5, true, [1]⟩ : Flashing).fn ≠ (ringOf 0 true).fn ∧ (ringOf 0 false).privileged = false) := by
  and_intros <;> decide +kernel

/-- A frame of package 1 for an object with a body. -/
def frame (h off : DWord) (body : List Byte) : PeerFrame := ⟨true, 0, 0, 1, 0, 0, 5, h, off, leBytes 8 77 ++ body, none⟩

/-- The machine of a peer's accesses: tensor 1, counter 3. -/
def peerSt : State := peering (objects ⟨tensorD, 0, counterD, List.replicate 128 7, [], 0⟩)

/-- The same with a share group of object 1: package 1 is not in it, is in it beside this package, whose part of the first collective is done,
and is its coordinator. -/
def peerGroup (members : List Byte) (done : List (Byte × Round)) : State :=
  { peerSt with pe := { peerSt.pe with groups := [⟨objH 1, members, 1, [], [], 1, done, [], none, none⟩] } }
def peerOut : State := peerGroup [0] []
def peerIn : State := peerGroup [0, 1] [(0, ⟨1, 0⟩)]
def peerUnder : State := peerGroup [1, 2] []

/-- A control frame of package 1 with a code, about the first collective of epoch 1. -/
def control (code : Nat) : PeerFrame := frame (objH 1) 0 (leBytes 1 code ++ leBytes 4 1 ++ leBytes 4 0)

/-- A frame that repeats one of port 1. -/
def repeats (seq : Word) : PeerFrame := { frame (objH 1) 0 [] with again := some (1, seq) }

/-- That machine behind the sixteenth retransmission on a port. -/
def pathless (port : Nat) : State := { peerSt with pe := { peerSt.pe with pathDown := [(port, 1)] } }

/-- The state behind a frame and the resolution of its object. -/
def takes (f : PeerFrame) : State := takeFrame (resolve peerSt ⟨0, lowDie peerSt, 0, 6, false⟩ f.handle 0).2 f

/-- A read and a write body of the first element, and an `atom.add` of 1 to word 0. -/
def readBody : List Byte := leBytes 1 0 ++ (leBytes 8 0 ++ leBytes 1 0 ++ leBytes 2 64)
def writeBodyB : List Byte := leBytes 1 0 ++ leBytes 1 0 ++ (leBytes 8 0 ++ leBytes 1 0 ++ leBytes 2 64 ++ leBytes 16 5)
def atomBody : List Byte := leBytes 1 1 ++ leBytes 8 0 ++ leBytes 8 1 ++ leBytes 8 0

theorem witness_Peers :
    (TakesFrame peerSt (repeats 0) ∧ frameTaken peerSt (repeats (BitVec.allOnes 32)) = true
      ∧ takenBefore peerSt (repeats (BitVec.allOnes 32)) = true ∧ (repeats 0).again = some (1, 0) ∧ (1 : BitVec 5) ≠ (repeats 0).port)
    ∧ (frameTaken peerSt { frame (objH 1) 0 [] with seq := 1 } = false ∧ frameHere peerSt { frame (objH 1) 0 [] with good := false } = true)
    ∧ (TakesFrame peerSt (frame (objH 1) (BitVec.allOnes 64) []) ∧ (BitVec.allOnes 64).toNat = descOffset
      ∧ admitted peerSt (objH 1) 1 = true ∧ readDesc (takeFrame peerSt (frame (objH 1) (BitVec.allOnes 64) [])) 1 = .ok tensorD)
    ∧ (TakesFrame peerSt (frame (objH 1) 0 readBody)
      ∧ found tensorD (resolve peerSt ⟨0, lowDie peerSt, 0, 6, false⟩ (objH 1) 0) = true
      ∧ found counterD (resolve peerSt ⟨0, lowDie peerSt, 0, 6, false⟩ (objH 3) 0) = true ∧ dKind counterD = kCounter
      ∧ went (objReadFor (takes (frame (objH 1) 0 readBody)) (peerWho peerSt tensorD) (objH 1) tensorD (leNat (readBody.take 1))
          (bodyFields readBody.length (readBody.drop 1))) = true
      ∧ (bodyWrites 27 (writeBodyB.drop 2)).length = 1
      ∧ went (objWriteFor (takes (frame (objH 1) 0 writeBodyB)) (peerWho peerSt tensorD) (objH 1) tensorD 0
          ((bodyWrites 27 (writeBodyB.drop 2)).map (·.1)) ((bodyWrites 27 (writeBodyB.drop 2)).map (·.2)) (bodyWords 0 [])) = true
      ∧ 1 ≤ leNat (atomBody.take 1) ∧ leNat (atomBody.take 1) ≤ 8
      ∧ frameBody (frame (objH 1) 0 []) = [] ∧ (frameBody (frame (objH 1) 0 (leBytes 8 9))).length = 8 ∧ dVersion tensorD < leNat (leBytes 8 9)
      ∧ (publishHere (takes (frame (objH 1) 0 [])) (objH 1) 0 (· + 1)).toOption.isSome = true
      ∧ (publishHere (takes (frame (objH 1) 0 (leBytes 8 9))) (objH 1) 0 (fun _ => 9)).toOption.isSome = true
      ∧ (frameBody (frame (objH 1) 0 (leBytes 9 0))).length = 9
      ∧ (publishHere (takes (frame (objH 1) 0 (leBytes 9 0))) (objH 1) 0 (· + 1)).toOption.isSome = true)
    ∧ (TakesFrame peerOut (frame (objH 1) 0 readBody) ∧ admitted peerOut (objH 1) 1 = false)
    ∧ (∀ c ∈ [1, 2, 3, 4, 5, 6, 7], TakesFrame peerIn (control c) ∧ leNat ((frameBody (control c)).take 1) = c
      ∧ (control c).spkg ∈ (groupOf (takeFrame peerIn (control c)) (objH 1)).active
      ∧ (groupOf (takeFrame peerIn (control c)) (objH 1)).coordinator ≠ (control c).spkg
      ∧ (groupOf (takeFrame peerIn (control c)) (objH 1)).coordinator = (takeFrame peerIn (control c)).pl.pkg
      ∧ (groupOf (takeFrame peerIn (control c)) (objH 1)).commit = none)
    ∧ (∀ c ∈ [3, 5], TakesFrame peerUnder (control c) ∧ (groupOf (takeFrame peerUnder (control c)) (objH 1)).coordinator = (control c).spkg
      ∧ (control c).spkg ∈ (groupOf (takeFrame peerUnder (control c)) (objH 1)).active)
    ∧ (TakesFrame peerOut (control 1) ∧ (control 1).spkg ∉ (groupOf (takeFrame peerOut (control 1)) (objH 1)).active)
    ∧ (peerIn.pe.groups.find? (fun x => hObj x.index == hObj (objH 1)) = some (groupOf peerIn (objH 1))
      ∧ (groupOf peerIn (objH 1)).coordinator = peerIn.pl.pkg ∧ (⟨1, 0⟩ : Round).epoch = (groupOf peerIn (objH 1)).epoch
      ∧ (groupOf peerIn (objH 1)).aborted ≠ some ⟨1, 0⟩ ∧ (1 : Byte) ∈ (groupOf peerIn (objH 1)).members
      ∧ ∀ m ∈ (groupOf peerIn (objH 1)).active, m = 1 ∨ (m, ⟨1, 0⟩) ∈ (groupOf peerIn (objH 1)).done)
    ∧ (openPorts (pathless 0) 1 = [] ∧ openPorts (pathless 1) 1 ≠ [])
    ∧ ((∃ o ∈ [OutFrame.mk 1 (frame 0 0 []) 15], o.f.port = 0 ∧ o.f.dpkg = 0)
      ∧ (∀ o ∈ [OutFrame.mk 1 (frame 0 0 []) 15], o.f.port = 0 → o.f.dpkg = 0 → o.tries < 16)
      ∧ 16 ≤ (OutFrame.mk 1 (frame 0 0 []) 16).tries) := by
  and_intros <;> first | decide +kernel | (unfold TakesFrame; decide +kernel) | exact ok_of (by decide +kernel)

/-- A filter that matches every frame and names stream 0. -/
def allFilter : Filter := ⟨0, BitVec.ofNat 64 (15 * 2 ^ 60)⟩

/-- Port 1 in ingress mode with that filter or none. -/
def ingressPort (f : Filter) : ScalePort :=
  { ScalePort.reset with mode := 2, linkUp := true, filters := ScalePort.reset.filters.setIfInBounds 0 f }

/-- Stream 0: 16 slots of 128 bytes, on the objects of index 1 and 3. -/
def stream0 : Stream := ⟨0, objH 1, objH 3, 128, 1, 0⟩

/-- The machine with that port and stream 0. -/
def ingressSt (f : Filter) : State :=
  let s := objects ⟨streamD, 0, counterD, List.replicate 2048 7, [], 0⟩
  { s with pe := { s.pe with ports := s.pe.ports.setIfInBounds 1 (ingressPort f), portsel := 1, streams := [stream0] } }

/-- A frame of 60 bytes of that stream at a step, and the state behind the resolution of the stream's objects. -/
def streaming (step : StreamStep) : StreamFrame := ⟨0, 1, 0, List.replicate 60 0, step, none, none, none⟩
def streamed (h : DWord) : State := (resolve (ingressSt allFilter) (streamWho (ingressSt allFilter)) h 0).2

theorem witness_Ingress :
    (∀ f : Filter, ∀ u, u = (readTime (ingressSt f)).2 → u.pe.ports[1]? = some (ingressPort f) ∧ portUp u (ingressPort f) = true
      ∧ ptpTaken u 1 (List.replicate 60 0) = false
      ∧ u.pe.streams.find? (fun x => x.k == bits allFilter.ctl.toNat 0 6) = some stream0)
    ∧ (∀ u, u = (readTime State.reset).2 → ∃ p, u.pe.ports[23]? = some p ∧ portUp u p = false)
    ∧ (60 ≤ (List.replicate 60 (0 : Byte)).length ∧ (List.replicate 9212 (0 : Byte)).length ≤ 9212)
    ∧ ((ingressPort allFilter).mode = 2
      ∧ (ingressPort ⟨0, 0⟩).filters.toList.find? (fun f => filterMatches f (List.replicate 60 0)) = none
      ∧ (ingressPort allFilter).filters.toList.find? (fun f => filterMatches f (List.replicate 60 0)) = some allFilter)
    ∧ (found streamD (resolve (ingressSt allFilter) (streamWho (ingressSt allFilter)) (objH 1) 0) = true
      ∧ found counterD (resolve (streamed (objH 1)) (streamWho (streamed (objH 1))) (objH 3) 0) = true
      ∧ hHome (objH 3) = (streamed (objH 1)).pl.pkg.toNat ∧ (streaming .look).reply = none)
    ∧ ((ingressBytes 128 0 1 0 (List.replicate 60 0)).length ≤ 2048
      ∧ went (objWrite (streamed (objH 1)) (streamWho (streamed (objH 1))) (objH 1) streamD 0 0
          (blobFields 0 (ingressBytes 128 0 1 0 (List.replicate 60 0)).length) (blobValues (ingressBytes 128 0 1 0 (List.replicate 60 0)))
          (coveredLines 0 (ingressBytes 128 0 1 0 (List.replicate 60 0)).length)) = true)
    ∧ found counterD (resolve (ingressSt allFilter) (streamWho (ingressSt allFilter)) (objH 3) 0) = true
    ∧ ((ingressSt allFilter).pe.portsel = 1 ∧ ((2 : BitVec 64).setWidth 2 : BitVec 2) ≠ 3) := by
  refine ⟨?_, ?_, ?_⟩
  · rintro f u rfl
    refine ⟨rfl, ?_, ?_, rfl⟩
    · simp [portUp, ingressPort, ScalePort.reset]
    · exact (by rfl : ptpTaken (readTime (ingressSt f)).2 1 (List.replicate 60 0) = false)
  · rintro u rfl
    exact ⟨_, rfl, rfl⟩
  · and_intros <;> decide +kernel

/-- A machine with a pool extent. -/
def pools (s : State) : State := { s with pe := { s.pe with extents := [(2 ^ 51, 2 ^ 21)] } }

/-- The machine with one that holds the slab of an object of this package, whose slab table stands in HBM at 0x1000. The frames at 0x10000 and
0x20000 of world 0 are in the extent and in HBM. -/
def pooled : State :=
  let s := objects ⟨desc kTensor 7 3 16 0, 0, 0, [], [], 0⟩
  let page (gpa a i : Nat) : G2Entry := ⟨0, 0, gpa / 4096 + i, a + 4096 * i, true⟩
  pools { s with
    mem := cells 0x1000 (leBytes 8 (frameLeaf 0x10000) ++ List.replicate 56 0) ++ s.mem
    tb := { s.tb with
      tlb := []
      g2 := page 0 0x1000 0 :: (List.range 16).map (page 0x10000 (2 ^ 51)) ++ (List.range 16).map (page 0x20000 0x100000) } }

/-- An access to the first element of that object meets the extent. -/
def meetsPool (write : Bool) : Option Meet :=
  flightMeets pooled (2 ^ 51) (2 ^ 21) (strandBlk.who 0) (objH 1) write (fun d => [((indexFields d 0).1, (indexFields d 0).2.take 1)])

theorem witness_PoolExtentWithdrawn :
    (descAddr pooled (hIndex (objH 1))).toOption.isSome = true
    ∧ (∀ b ∈ State.reset.blk :: State.reset.others, b.loads = [] ∧ b.posted = [] ∧ b.eF.started = [] ∧ b.eP.started = [])
    ∧ State.reset.ho.reqs = []
    ∧ ((meetsPool false).isSome = true ∧ (meetsPool true).isSome = true)
    ∧ ((flightMeets pooled (2 ^ 51) (2 ^ 21) (strandBlk.who 0) (objH 1) false (fun d => [indexFields d 0])).isSome = true
      ∧ ({ incb1 with op := .elem } : ObjLoad).park = none ∧ incb1.remote = none ∧ incb1.reply = none ∧ incb1.waits = [])
    ∧ (fetchC.park = none ∧ fetchC.remote = none ∧ fetchC.off = false ∧ fetchC.skipEnd = false ∧ fetchC.objUses.length = 1
      ∧ (resolveUses { pooled with blk := strandBlk } fetchC 256 fetchC.objUses).1.toOption.isSome = true
      ∧ ((leftFields fetchC (jobOf fetchC [poolD])).1.findSome?
          (meetsExtent (resolveUses { pooled with blk := strandBlk } fetchC 256 fetchC.objUses).2 (2 ^ 51) (2 ^ 21)
            (strandBlk.who fetchC.eng.agent.code) (objH 1) poolD false)).isSome = true)
    ∧ ((loadReq 0 0).place = .aperture 0 0 ∧ (loadReq 0 0).park = none ∧ (loadReq 0 0).remote = none
      ∧ (flightMeets (hosted pooled) (2 ^ 51) (2 ^ 21) (hostWho (hosted pooled) 0) (BitVec.ofNat 64 (apWord (hosted pooled) 0 0 0)) false (fun d =>
          [((apWord (hosted pooled) 0 0 1 / 65536 * 65536) / max 1 (up64K (payloadBytes d)),
            wordFields ((apWord (hosted pooled) 0 0 1 / 65536 * 65536) % max 1 (up64K (payloadBytes d))) 8)])).isSome = true) := by
  and_intros <;> decide +kernel

theorem witness_PowerAndSystem :
    ((0x4444 : BitVec 64).toNat < 2 ^ 16 ∧ (∀ d, d < 4 → (targetOf ((0x4444 : BitVec 64).setWidth 16) d).toNat ≤ 4)
      ∧ State.reset.pl.capped = false)
    ∧ 4 < (targetOf ((5 : BitVec 64).setWidth 16) 0).toNat ∧ 2 ^ 16 ≤ (0x10000 : BitVec 64).toNat
    ∧ (1950 < (1951 : BitVec 32).toNat ∧ 2200 < (2201 : BitVec 32).toNat)
    ∧ (100 * (1852 : BitVec 32).toNat < 95 * 1950 ∧ 100 * (2089 : BitVec 32).toNat < 95 * 2200 ∧ 95 * 2200 ≤ 100 * (2090 : BitVec 32).toNat)
    ∧ (0x12 : BitVec 64).toNat % 256 ≠ 2 ∧ (0x102 : BitVec 64).toNat % 256 = 2
    ∧ 24 ≤ { State.reset with pe := { State.reset.pe with portsel := 31 } }.pe.portsel.toNat
    ∧ systemReach State.reset (2 ^ 50) 8 = false
    ∧ (systemReach State.reset dsBase 64 = true ∧ dsBase / 64 = (dsBase + 64 - 1) / 64
      ∧ Memory.poisoned State.reset.mem (dsBase / 64) = false)
    ∧ (systemReach State.reset (dsBase + 2 ^ 29 - 8) 8 = true ∧ Memory.readAll State.reset.mem (dsBase + 2 ^ 29 - 8) 8 = some (List.replicate 8 0))
    ∧ ((2 ^ 21 : Nat) ≠ 0 ∧ 2 ^ 51 % 2 ^ 21 = 0 ∧ isPool (2 ^ 51) = true ∧ isPool (2 ^ 51 + 2 ^ 21 - 1) = true
      ∧ poolPort (2 ^ 51) = poolPort (2 ^ 51 + 2 ^ 21 - 1)
      ∧ State.reset.pl.linksDown.contains (.cxl (poolPort (2 ^ 51))) = false ∧ State.reset.pe.extents = [])
    ∧ (isDram (2 ^ 51 + 7) = true ∧ 2 ^ 51 + 7 < 2 ^ 51 + 2 ^ 21)
    ∧ ((2 ^ 51, 2 ^ 21) ∈ (pools State.reset).pe.extents ∧ objectsIn (pools State.reset) (2 ^ 51) (2 ^ 21) = [])
    ∧ (slabsIn pooled (2 ^ 51) (2 ^ 21) (objH 1, desc kTensor 7 3 16 0) = [(⟨0, 0, 0x1000⟩, 2 ^ 51)]
      ∧ framesLocal pooled (dOwner (desc kTensor 7 3 16 0)) [0x20000] = true)
    ∧ ((0, 0) ∉ pooled.pe.extents) := by
  and_intros <;> decide +kernel

theorem witness_StrandKeepsCanonical : isEvent (.add 1 2 3) = false ∧ Memory.wf running.mem = true
    ∧ exec (.add 1 2 3) running = .next { running with blk := (wrS strandBlk 1 0 0).adv 4 } :=
  ⟨rfl, rfl, rfl⟩

/-! ## The spec's worked examples and tables, one operation or one step each -/

/-- R48, worked example: four successive steps of the shift register. -/
theorem test_lfsr : lfsrStep 1 = 0x80200003 ∧ lfsrStep 0x80200003 = 0xC0300002 ∧ lfsrStep 0xC0300002 = 0x60180001
    ∧ lfsrStep 0x60180001 = 0xB02C0003 := by decide

/-- R47, worked example: 0.3 to E4M3 under RNE and RTZ. -/
theorem test_round_e4m3 : roundTo e4m3 .rne 0 (fp32.decode 0x3E99999A) = (0x2A, fINEXACT)
    ∧ (roundTo e4m3 .rtz 0 (fp32.decode 0x3E99999A)).1 = 0x29 := by decide +kernel

/-- R47, worked example: 2.3 to E2M1 by two draws. -/
theorem test_round_stochastic : roundTo e2m1 .sr 0xC00000 (fp32.decode 0x40133333) = (5, fINEXACT)
    ∧ roundTo e2m1 .sr 0x100000 (fp32.decode 0x40133333) = (4, fINEXACT) ∧ (roundTo e2m1 .sr 0xB33334 (fp32.decode 0x40133333)).1 = 5
    ∧ (roundTo e2m1 .sr 0xB33333 (fp32.decode 0x40133333)).1 = 4 := by decide +kernel

/-- R51, worked example: the three blocks. -/
theorem test_mx_scale : mxScale (.mx e2m1) [.fin false 5 0, .fin true 7 (-4)] = (0x7F, 0)
    ∧ mxScale (.mx e2m1) [.fin false 100 0] = (0x83, 0) ∧ mxElem (.mx e2m1) .rne 0 0x83 (.fin false 100 0) = (7, fINEXACT)
    ∧ mxScale (.mx e5m2) [.inf false, .fin false 3 0, .fin true 1000 0] = (0x79, fMXNAN)
    ∧ mxElem (.mx e5m2) .rne 0 0x79 (.fin false 3 0) = (0x5A, 0) := by decide +kernel
theorem test_mx_elem : mxElem (.mx e2m1) .rne 0 0x7F (.fin false 5 0) = (6, fINEXACT)
    ∧ (mxElem (.mx e2m1) .rne 0 0x7F (fp32.decode 0xBF333333)).1 = 9 ∧ (mxElem (.mx e2m1) .rne 0 0x7F (.fin false 5 (-2))).1 = 2
    ∧ (mxElem (.mx e2m1) .rne 0 0x7F (fp32.decode 0x3E4CCCCD)).1 = 0 ∧ (mxElem (.mx e2m1) .rne 0 0x7F (fp32.decode 0xC0533333)).1 = 0xD := by
  decide +kernel

/-- R50: an element of the integer format is a number of 64ths, and a scale code of 255 makes it the NaN. -/
theorem test_mx_decode : (Fmt.mxi8.value 127 0x80).1 = .fin true 128 (-6) ∧ (Fmt.mxi8.value 255 1).2 = fMXNAN := by decide +kernel

/-- R59, worked example and table. -/
theorem test_exp2 : vExp2 (fp32.decode 0x3F000000) = (0x3FB504F3, fINEXACT) ∧ vExp2 (fp32.decode 0x40400000) = (0x41000000, 0)
    ∧ vExp2 (fp32.decode 0xC2FD0000) = (0, fUNDERFLOW ||| fINEXACT) ∧ vExp2 (fp32.decode 0x43000000) = (0x7F800000, fOVERFLOW ||| fINEXACT)
    ∧ vExp2 (fp32.decode 0x00000001) = (0x3F800000, fINEXACT) ∧ vExp2 (.inf true) = (0, 0) := by decide +kernel

/-- R138, worked example: the reciprocal and the reciprocal root. -/
theorem test_reciprocal : vRcp .rne (fp32.decode 0x40400000) = (0x3EAAAAAB, fINEXACT) ∧ (vRcp .rtz (fp32.decode 0x40400000)).1 = 0x3EAAAAAA
    ∧ (vRcp .rne (fp32.decode 1)).1 = 0x7F800000 ∧ (vRcp .rtz (fp32.decode 1)).1 = 0x7F7FFFFF
    ∧ vRsqrt .rne (fp32.decode 0x40800000) = (0x3F000000, 0) := by decide +kernel

/-- R135, worked example: saturating and wrapping bytes. -/
theorem test_saturate : sat true 8 (120 + 20) = (127, fSAT) ∧ wrap 8 (120 + 20) = 0x8C ∧ sat false 8 (250 + 10) = (255, fSAT) := by decide

/-- s3 of what an instruction leaves. -/
def s3After (i : Instr) (s : State) : Option DWord :=
  match exec i s with
  | .next t => some (rdS t.blk 3)
  | _ => none

/-- R107, table of division results. -/
theorem test_division : s3After (.divI64 3 1 2) (withBlk (regs (BitVec.ofInt 64 (-7)) 2)) = some 0xFFFFFFFFFFFFFFFD
    ∧ s3After (.remI64 3 1 2) (withBlk (regs (BitVec.ofInt 64 (-7)) 2)) = some 0xFFFFFFFFFFFFFFFF
    ∧ s3After (.divN64 3 1 2) (withBlk (regs 0xFFFFFFFFFFFFFFF9 2)) = some 0x7FFFFFFFFFFFFFFC
    ∧ s3After (.divI64 3 1 2) (withBlk (regs 9 0)) = some 0xFFFFFFFFFFFFFFFF
    ∧ s3After (.remN64 3 1 2) (withBlk (regs 9 0)) = some 9 := by decide +kernel
theorem test_division_overflow :
    s3After (.divI64 3 1 2) (withBlk (regs 0x8000000000000000 0xFFFFFFFFFFFFFFFF)) = some 0x8000000000000000
    ∧ s3After (.remI64 3 1 2) (withBlk (regs 0x8000000000000000 0xFFFFFFFFFFFFFFFF)) = some 0 := by decide +kernel

/-- R108, R110, worked examples. -/
theorem test_immediates : s3After (.addImm 3 1 0x010) (withBlk (regs 0x1FFF8 0)) = some 0x20008
    ∧ s3After (.addImm 3 1 0xFFF) (withBlk (regs 0 0)) = some 0xFFFFFFFFFFFFFFFF := by decide +kernel
theorem test_compares : (match exec (.psetLtI64 3 1 2) (withBlk (regs 0xFFFFFFFFFFFFFFFF 0)) with
      | .next t => some (rdP t.blk 3) | _ => none) = some (BitVec.allOnes 128)
    ∧ (match exec (.psetLtN64 3 1 2) (withBlk (regs 0xFFFFFFFFFFFFFFFF 0)) with
      | .next t => some (rdP t.blk 3) | _ => none) = some 0 := by decide +kernel

/-- R272, worked example: a tiled layout. -/
theorem test_layout : elemOffset (BitVec.ofNat 512 (5 * 2 ^ 208 + 3 * 2 ^ 212)) [100, 50] [70, 19] = 2662 := by decide +kernel

end Sys2Proof.Tests
end

section
/-! PROOFS. One bit of a mask, and the flips of squares (R33, R177, R199). -/

namespace Sys2Proof.Machine

open Sys2Proof Sys2Proof.Safety

/-! ## One bit of a mask -/

theorem getLsbD_setBit {w : Nat} (x : BitVec w) (n j : Nat) (hj : j < w) :
    (x ||| ((1 : BitVec w) <<< n)).getLsbD j = (decide (j = n) || x.getLsbD j) := by
  rcases Nat.lt_trichotomy j n with h | h | h
  · simp [hj, h, Nat.ne_of_lt h]
  · subst h; simp [hj]
  · simp [hj, Nat.ne_of_gt h, show ¬ j < n by omega, show j - n ≠ 0 by omega]

theorem getLsbD_clearBit {w : Nat} (x : BitVec w) (n j : Nat) (hj : j < w) :
    (x &&& ~~~((1 : BitVec w) <<< n)).getLsbD j = (decide (j ≠ n) && x.getLsbD j) := by
  rcases Nat.lt_trichotomy j n with h | h | h
  · simp [hj, h, Nat.ne_of_lt h]
  · subst h; simp [hj]
  · simp [hj, Nat.ne_of_gt h, show ¬ j < n by omega, show j - n ≠ 0 by omega]

theorem Block.getLsbD_owner_setOwner (b : Block) (sq : BitVec 6) (strand : Bool) {j : Nat} (hj : j < 64) :
    (b.setOwner sq strand).owner.getLsbD j = if j = sq.toNat then strand else b.owner.getLsbD j := by
  cases strand
  · simp only [Block.setOwner, Bool.false_eq_true, if_false, getLsbD_clearBit _ _ _ hj]; split <;> simp [*]
  · simp only [Block.setOwner, if_true, getLsbD_setBit _ _ _ hj]; split <;> simp [*]

theorem Block.getLsbD_guarded_setGuard (b : Block) (sq : BitVec 6) (g : Bool) {j : Nat} (hj : j < 64) :
    (b.setGuard sq g).guarded.getLsbD j = if j = sq.toNat then g else b.guarded.getLsbD j := by
  cases g
  · simp only [Block.setGuard, Bool.false_eq_true, if_false, getLsbD_clearBit _ _ _ hj]; split <;> simp [*]
  · simp only [Block.setGuard, if_true, getLsbD_setBit _ _ _ hj]; split <;> simp [*]

/-! ## Squares -/

theorem exec_give (sq : BitVec 6) (s : State) : exec (.give sq) s = execGive sq s := rfl
theorem exec_take (sq : BitVec 6) (s : State) : exec (.take sq) s = execTake sq s := rfl
theorem exec_guard (sq : BitVec 6) (s : State) : exec (.guard sq) s = execGuard sq s := rfl
theorem exec_unguard (sq : BitVec 6) (s : State) : exec (.unguard sq) s = execUnguard sq s := rfl

theorem squareOp_held {sq : BitVec 6} {s : State} (h : sq.toNat < s.blk.nsq) (k : Out) : squareOp sq s k = k :=
  if_neg (Nat.not_le.2 h)

theorem squareOp_notHeld {sq : BitVec 6} {s : State} (h : s.blk.nsq ≤ sq.toNat) (k : Out) :
    squareOp sq s k = badOperand sq.toNat s :=
  if_pos h

/-- With no command in the block, `take` waits for none. -/
theorem execTake_of_no_cmds {sq : BitVec 6} {s : State} (h : sq.toNat < s.blk.nsq) (hc : s.blk.cmds = []) :
    execTake sq s = doneB s (s.blk.setOwner sq true) 4 := by
  have hq : s.blk.queued = [] := (List.append_eq_nil_iff.1 hc).2
  simp [execTake, squareOp_held h, hc, hq]

/-- Settles O28: each flip names one bit of OWNER or GUARD. -/
theorem squares : Obligations.Squares := by
  unfold Obligations.Squares
  refine ⟨fun s sq h => ⟨?_, fun hc => ?_, ?_, ?_⟩, fun s sq h => ?_⟩
  · refine ⟨_, by rw [exec_give, execGive, squareOp_held h]; rfl, rfl, fun j hj => ?_⟩
    exact ((performStores s).blk.getLsbD_owner_setOwner sq false hj).trans (by split <;> simp [*, performStores])
  · refine ⟨_, by rw [exec_take, execTake_of_no_cmds h hc]; rfl, rfl, fun j hj => ?_⟩
    exact (s.blk.getLsbD_owner_setOwner sq true hj).trans (by split <;> simp [*])
  · refine ⟨_, by rw [exec_guard, execGuard, squareOp_held h]; rfl, rfl, fun j hj => ?_⟩
    exact (s.blk.getLsbD_guarded_setGuard sq true hj).trans (by split <;> simp [*])
  · refine ⟨_, by rw [exec_unguard, execUnguard, squareOp_held h]; rfl, rfl, fun j hj => ?_⟩
    exact (s.blk.getLsbD_guarded_setGuard sq false hj).trans (by split <;> simp [*])
  · exact ⟨squareOp_notHeld h _, squareOp_notHeld h _, squareOp_notHeld h _, squareOp_notHeld h _⟩

end Sys2Proof.Machine
end

section
/-! PROOFS. Queue control and tokens (R242, R244, R245, R317, R318). -/

namespace Sys2Proof.Machine

open Sys2Proof Sys2Proof.Safety

/-! ## Queue control -/

theorem exec_drain (mask : BitVec 4) (s : State) : exec (.drain mask) s = execDrain mask s := rfl
theorem exec_exit (s : State) : exec .exit s = execExit s := rfl

/-- `drain` says what the engines of its mask hold by tests on their queues. -/
theorem execDrain_eq (mask : BitVec 4) (s : State) :
    execDrain mask s =
      if s.blk.frozen = true ∧ ∃ e ∈ maskEngines mask, (s.blk.eng e).q ≠ [] then badOperand 0 s
      else if ∃ e ∈ maskEngines mask, (s.blk.eng e).q ≠ [] ∨ (s.blk.eng e).started ≠ [] then waitS s .drain
      else doneS s 4 := by
  simp [execDrain]

/-- `exit` in handler mode ends the block (R100, R245). -/
theorem execExit_handler {s : State} (h : s.blk.handler = true) :
    execExit s = .next { s with blk := s.blk.terminate (bits s.blk.trapCause.toNat 0 8) } := by
  simp [execExit, h, nextB]

/-- The low byte of a trap cause is the cause that a block ends with. -/
theorem ofNat_bits_low (n : Nat) : BitVec.ofNat 8 (bits n 0 8) = BitVec.ofNat 8 n := by
  apply BitVec.eq_of_toNat_eq
  simp [bits]

/-- Settles O29, along the tests of `drain` and `exit`. -/
theorem queueControl : Obligations.QueueControl := by
  unfold Obligations.QueueControl
  refine ⟨fun s n => rfl, fun s mask h => ?_, fun s mask hf h => ?_, fun s mask hf h => ?_, fun s h => ?_, fun s h => ?_⟩
  · have hq : ¬ ∃ e ∈ maskEngines mask, (s.blk.eng e).q ≠ [] := fun ⟨e, he, hn⟩ => hn (h e he).1
    have hs : ¬ ∃ e ∈ maskEngines mask, (s.blk.eng e).q ≠ [] ∨ (s.blk.eng e).started ≠ [] :=
      fun ⟨e, he, hn⟩ => hn.elim (· (h e he).1) (· (h e he).2)
    rw [exec_drain, execDrain_eq, if_neg (fun x => hq x.2), if_neg hs]
    rfl
  · rw [exec_drain, execDrain_eq, if_neg (fun x => by simp [hf] at x), if_pos h]
    rfl
  · rw [exec_drain, execDrain_eq, if_pos ⟨hf, h⟩]
  · simp [exec_exit, execExit, h, nextB]
  · exact ⟨_, (exec_exit s).trans (execExit_handler h), rfl, ofNat_bits_low _, rfl, rfl, rfl, rfl, rfl, rfl⟩

/-! ## Tokens -/

theorem exec_tokset (k : BitVec 4) (prod cons : Agent) (n : BitVec 8) (s : State) :
    exec (.tokset k prod cons n) s = execTokset k prod cons n s := rfl
theorem exec_toks (k : BitVec 4) (s : State) : exec (.toks k) s = execToks k s := rfl
theorem exec_tokw (k : BitVec 4) (s : State) : exec (.tokw k) s = execTokw k s := rfl

theorem Block.push_eq {b : Block} {k : BitVec 4} (h : (b.token k).count ≠ 255) :
    b.push k = b.setToken k { b.token k with count := (b.token k).count + 1 } :=
  if_neg (mt beq_iff_eq.1 h)

/-- `tokset` sets a token that no command names. -/
theorem execTokset_free {k : BitVec 4} {prod cons : Agent} {n : BitVec 8} {s : State} (hpc : prod ≠ cons)
    (hc : ∀ c ∈ s.blk.cmds, c.namesToken k = false) :
    execTokset k prod cons n s = doneB s (s.blk.setToken k ⟨n, prod, cons, true⟩) 8 := by
  have h1 : s.blk.cmds.any (fun c => c.namesToken k) = false := any_false hc
  have h2 : s.blk.queued.any (fun c => c.namesToken k) = false :=
    any_false fun c h => hc c (List.mem_append_right _ h)
  simp only [execTokset, h1, h2, beq_eq_false_iff_ne.2 hpc, Bool.and_false, Bool.false_eq_true, if_false]

/-- `toks` pushes a token of the strand that is not full, behind the stores. -/
theorem execToks_push {k : BitVec 4} {s : State} (hconf : (s.blk.token k).conf = true) (hp : (s.blk.token k).prod = .S)
    (hn : (s.blk.token k).count ≠ 255) :
    execToks k s = doneB (performStores s) ((performStores s).blk.push k) 4 := by
  have hn' : ((s.blk.token k).count == 255) = false := beq_eq_false_iff_ne.2 hn
  simp only [execToks, mayPush, hconf, hp, hn', beq_self_eq_true, Bool.and_self, Bool.not_true, Bool.false_eq_true, if_false]

/-- `tokw` pops a token for the strand, or waits while its queues can still fill it. -/
theorem execTokw_pop {k : BitVec 4} {s : State} (hconf : (s.blk.token k).conf = true) (hc : (s.blk.token k).cons = .S) :
    execTokw k s =
      if (s.blk.token k).count = 0 then
        if s.blk.frozen && !s.blk.running.any (fun c => c.hdr.sig == some k) then badOperand 0 s else waitS s .token
      else doneB s (s.blk.pop k) 4 := by
  simp [execTokw, mayPop, hconf, hc]

/-- Settles O30: one token is replaced. -/
theorem tokens : Obligations.Tokens := by
  unfold Obligations.Tokens
  refine ⟨fun s k prod cons n hpc hc => ?_, fun s k hconf hp hn => ?_, fun s k hconf hcons hn => ?_,
    fun s k hconf hcons hn hf => ?_⟩
  · refine ⟨_, by rw [exec_tokset, execTokset_free hpc hc]; rfl, ?_, fun j hj => ?_, rfl⟩
    · exact (s.blk.token_setToken k k _).trans (if_pos rfl)
    · exact (s.blk.token_setToken k j _).trans (if_neg hj)
  · have hne : (s.blk.token k).count ≠ 255 := fun h => by rw [h] at hn; exact absurd hn (by decide)
    have hpush := Block.push_eq (b := (performStores s).blk) hne
    refine ⟨_, by rw [exec_toks, execToks_push hconf hp hne, hpush]; rfl, ?_, fun j hj => ?_, rfl⟩
    · exact (Block.token_setToken (performStores s).blk k k _).trans (if_pos rfl)
    · exact (Block.token_setToken (performStores s).blk k j _).trans (if_neg hj)
  · refine ⟨_, by rw [exec_tokw, execTokw_pop hconf hcons, if_neg hn]; rfl, ?_, fun j hj => ?_, rfl⟩
    · exact (s.blk.token_setToken k k _).trans (if_pos rfl)
    · exact (s.blk.token_setToken k j _).trans (if_neg hj)
  · rw [exec_tokw, execTokw_pop hconf hcons, if_pos hn, hf, Bool.false_and, if_neg Bool.false_ne_true]
    rfl

end Sys2Proof.Machine
end

section
/-! PROOFS. Barriers (R319, R320). -/

namespace Sys2Proof.Machine

open Sys2Proof Sys2Proof.Safety

/-! ## Barriers -/

/-- A filter that keeps what a search looks for does not change what it finds. -/
theorem find?_filter_of_imp {α : Type} {p q : α → Bool} {xs : List α} (h : ∀ x, p x = true → q x = true) :
    (xs.filter q).find? p = xs.find? p := by
  rw [List.find?_filter]
  refine congrArg (fun f => xs.find? f) (funext fun x => ?_)
  cases hp : p x with
  | false => simp
  | true => simp [h x hp]

theorem exec_arrive (sc : Scope) (s : State) : exec (.arrive sc) s = execArrive sc s := rfl
theorem exec_bwait (sc : Scope) (s : State) : exec (.bwait sc) s = execBwait sc s := rfl

/-- The counter that is looked up for a barrier carries the barrier's name. -/
theorem barrierOf_key (s : State) (g : Nat) (sc : Scope) (unit : Nat) :
    (barrierOf s g sc unit).launch = g ∧ (barrierOf s g sc unit).scope = sc.code ∧ (barrierOf s g sc unit).unit = unit := by
  unfold barrierOf
  cases h : s.dp.barriers.find? (fun x => x.launch == g && x.scope == sc.code && x.unit == unit) with
  | none => exact ⟨rfl, rfl, rfl⟩
  | some x => simpa [and_assoc] using List.find?_some h

theorem barrierOf_setBarrier_same (s : State) (x : Barrier) (g : Nat) (sc : Scope) (unit : Nat)
    (h : x.launch = g ∧ x.scope = sc.code ∧ x.unit = unit) : barrierOf (setBarrier s x) g sc unit = x := by
  simp [barrierOf, setBarrier, h]

theorem barrierOf_setBarrier_other (s : State) (x : Barrier) (g : Nat) (sc : Scope) (unit : Nat)
    (h : (g, sc.code, unit) ≠ (x.launch, x.scope, x.unit)) : barrierOf (setBarrier s x) g sc unit = barrierOf s g sc unit := by
  unfold barrierOf setBarrier
  have hx : (x.launch == g && x.scope == sc.code && x.unit == unit) = false := by
    rw [Bool.eq_false_iff]
    intro hk
    simp only [Bool.and_eq_true, beq_iff_eq] at hk
    exact h (by rw [hk.1.1, hk.1.2, hk.2])
  rw [List.find?_cons, hx]
  dsimp only
  rw [find?_filter_of_imp]
  intro y hy
  simp only [Bool.and_eq_true, beq_iff_eq] at hy
  simp only [hy, Bool.not_eq_true', Bool.and_eq_false_iff, beq_eq_false_iff_ne]
  refine Decidable.byContradiction fun hc => ?_
  simp only [ne_eq, not_or, Decidable.not_not] at hc
  exact h (by rw [hc.1.1, hc.1.2, hc.2])

/-- The counter of a barrier that has been brought up to date (R319). -/
theorem settleBarrier_eq (s : State) (g : Nat) (sc : Scope) (unit : Nat) :
    settleBarrier s g sc unit = setBarrier s
      (if arrivedOf (membersOf s g sc unit) sc (barrierOf s g sc unit).phase = (membersOf s g sc unit).length
          ∧ arrivedOf (membersOf s g sc unit) sc (barrierOf s g sc unit).phase ≠ 0
        then ⟨g, sc.code, unit, 0, !(barrierOf s g sc unit).phase⟩
        else ⟨g, sc.code, unit, arrivedOf (membersOf s g sc unit) sc (barrierOf s g sc unit).phase, (barrierOf s g sc unit).phase⟩) := by
  obtain ⟨h1, h2, h3⟩ := barrierOf_key s g sc unit
  simp only [settleBarrier, h1, h2, h3, Bool.and_eq_true, beq_iff_eq, bne_iff_ne]
  split <;> rfl

theorem Scope.code_lt (sc : Scope) : sc.code < 8 := by cases sc <;> decide

theorem Block.getLsbD_arrPend_setPend (b : Block) (sc : Scope) (v : Bool) {k : Nat} (hk : k < 8) :
    (b.setPend sc v).arrPend.getLsbD k = if k = sc.code then v else b.arrPend.getLsbD k := by
  cases v
  · simp only [Block.setPend, Bool.false_eq_true, if_false, getLsbD_clearBit _ _ _ hk]; split <;> simp [*]
  · simp only [Block.setPend, if_true, getLsbD_setBit _ _ _ hk]; split <;> simp [*]

theorem Block.getLsbD_arrPhase_setPhase (b : Block) (sc : Scope) (v : Bool) {k : Nat} (hk : k < 8) :
    (b.setPhase sc v).arrPhase.getLsbD k = if k = sc.code then v else b.arrPhase.getLsbD k := by
  cases v
  · simp only [Block.setPhase, Bool.false_eq_true, if_false, getLsbD_clearBit _ _ _ hk]; split <;> simp [*]
  · simp only [Block.setPhase, if_true, getLsbD_setBit _ _ _ hk]; split <;> simp [*]

/-- The block behind its arrival: PEND and MYPH of the scope are set (R319). -/
theorem arriveAt_blk (s : State) (sc : Scope) :
    (arriveAt s sc).blk = ((performStores s).blk.setPend sc true).setPhase sc (barrierOf s s.blk.id.launch sc (unitOf sc s.blk.core)).phase := by
  unfold arriveAt
  rw [settleBarrier_eq]
  rfl

/-- An arrival changes its barrier's counter and the block's own marks, behind the block's stores. -/
theorem arriveAt_frame (s : State) (sc : Scope) :
    arriveAt s sc = { performStores s with
      dp := { s.dp with barriers := (arriveAt s sc).dp.barriers }
      blk := { (performStores s).blk with arrPend := (arriveAt s sc).blk.arrPend, arrPhase := (arriveAt s sc).blk.arrPhase } } := by
  unfold arriveAt
  rw [settleBarrier_eq]
  rfl

/-- A free gang may name `core` alone, a locked one what its extent reaches (R20, R21). -/
theorem scopeAllowed_iff (s : State) {sc : Scope} (h : sc ≠ .core) :
    scopeAllowed s sc = true ↔
      ∃ l, findLaunch s s.blk.id.launch = some l ∧ l.locked = true ∧ sc.code ≤ (extentScope l.record.blocks).code := by
  unfold scopeAllowed ownLaunch
  cases findLaunch s s.blk.id.launch with
  | none => simp [h]
  | some l => simp [h]

/-- A barrier at a scope that the launch may not name raises SCOPE_VIOLATION (R20, R21). -/
theorem barrier_scope_fault {s : State} {sc : Scope} (h : scopeAllowed s sc = false) :
    execArrive sc s = strandTrap cSCOPE (BitVec.ofNat 64 sc.code) s ∧ execBwait sc s = strandTrap cSCOPE (BitVec.ofNat 64 sc.code) s := by
  simp [execArrive, execBwait, h]

/-- `bwait` of a block that has arrived. -/
theorem execBwait_arrived {s : State} {sc : Scope} (h : scopeAllowed s sc = true) (hp : s.blk.arrPend.getLsbD sc.code = true) :
    execBwait sc s =
      let u := settleBarrier s s.blk.id.launch sc (unitOf sc s.blk.core)
      if phasePassed u sc then doneB u (u.blk.setPend sc false) 4 else waitS u .barrier := by
  simp [execBwait, h, hp]

/-- `bwait` of a block that arrives with it. -/
theorem execBwait_arriving {s : State} {sc : Scope} (h : scopeAllowed s sc = true) (hp : s.blk.arrPend.getLsbD sc.code = false)
    (ha : s.blk.atomicsOut = false) :
    execBwait sc s =
      let u := arriveAt s sc
      if phasePassed u sc then doneB u (u.blk.setPend sc false) 4 else waitS u .barrier := by
  simp [execBwait, h, hp, ha]


/-- Settles O32. -/
theorem barriers : Obligations.Barriers := by
  unfold Obligations.Barriers
  refine ⟨fun s sc x u hsc hp ha hx hu => ?_, fun s sc u hsc hp hu => ?_, fun s g sc unit x ms n u hx hms hn hu => ?_,
    fun s => rfl, fun s sc hne => ?_, fun s sc t hsc ht => ?_⟩
  · subst hx hu
    refine ⟨arriveAt_frame s sc, fun k hk => ?_, ?_, fun hph => ?_, fun hph => ?_⟩
    · rw [arriveAt_blk]
      refine ⟨?_, Block.getLsbD_arrPhase_setPhase _ sc _ hk⟩
      refine (Block.getLsbD_arrPend_setPend (performStores s).blk sc true hk).trans ?_
      split <;> simp [*, performStores]
    · simp only [exec_arrive, execArrive, hsc, hp, ha]; rfl
    · rw [exec_bwait, execBwait_arriving hsc hp ha]; exact if_pos hph
    · rw [exec_bwait, execBwait_arriving hsc hp ha]
      exact if_neg (by rw [hph]; exact Bool.false_ne_true)
  · have hblk : u.blk = s.blk := by rw [hu, settleBarrier_eq]; rfl
    refine ⟨?_, fun hph => ?_, fun hph => ?_⟩
    · simp [exec_arrive, execArrive, hsc, hp]
    · have hpass : phasePassed u sc = true := by
        rw [phasePassed, hblk]; exact bne_iff_ne.2 hph
      refine ⟨{ u with blk := (u.blk.setPend sc false).adv 4 }, ?_, by rw [hblk]; rfl, fun k hk => ?_⟩
      · rw [exec_bwait, execBwait_arrived hsc hp, ← hu]; exact if_pos hpass
      · refine (Block.getLsbD_arrPend_setPend u.blk sc false hk).trans ?_
        rw [hblk]
        split <;> simp [*]
    · have hpass : phasePassed u sc = false := by
        rw [phasePassed, hblk]; exact bne_eq_false_iff_eq.2 hph
      rw [exec_bwait, execBwait_arrived hsc hp, ← hu, if_neg (by rw [hpass]; exact Bool.false_ne_true), waitS, hblk]
  · subst hx hms hn hu
    rw [settleBarrier_eq]
    refine ⟨rfl, ?_, fun g' sc' unit' hne => ?_⟩
    · exact barrierOf_setBarrier_same s _ g sc unit (by split <;> exact ⟨rfl, rfl, rfl⟩)
    · exact barrierOf_setBarrier_other s _ g' sc' unit' (by split <;> exact hne)
  · exact scopeAllowed_iff s hne
  · rw [ht]
    exact barrier_scope_fault hsc

end Sys2Proof.Machine
end

section
/-! PROOFS. Full/empty accesses: the bits, the requests on a word, and their release (R32, R178, R179). -/

namespace Sys2Proof.Machine

open Sys2Proof Sys2Proof.Safety

/-! ## Full/empty bits and their waiters -/

theorem exec_ldFf (sd : SReg) (lv : Level) (sa : SReg) (off : BitVec 10) (s : State) :
    exec (.ldFf sd lv sa off) s = feOp .ff sd lv sa off s := rfl
theorem exec_ldFe (sd : SReg) (lv : Level) (sa : SReg) (off : BitVec 10) (s : State) :
    exec (.ldFe sd lv sa off) s = feOp .fe sd lv sa off s := rfl
theorem exec_stEf (sd : SReg) (lv : Level) (sa : SReg) (off : BitVec 10) (s : State) :
    exec (.stEf sd lv sa off) s = feOp .ef sd lv sa off s := rfl
theorem exec_fullEmptyRelease (a : Nat) (s : State) :
    exec (.fullEmptyRelease a) s = .next (serveWaiters a s.feWait.length s) := rfl

theorem mem_insertSorted {a x : Nat} {xs : List Nat} : x ∈ insertSorted a xs ↔ x = a ∨ x ∈ xs := by
  induction xs with
  | nil => simp [insertSorted]
  | cons y ys ih =>
    unfold insertSorted
    split
    · simp
    · split
      · rename_i h; simp_all
      · simp [ih, or_left_comm]

/-- Setting a word's bit says what it reads as, and leaves every other word's (R178). -/
theorem isFull_setFull (s : State) (a x : Nat) (full : Bool) :
    isFull (setFull s a full) x = if x / 8 = a / 8 then full else isFull s x := by
  cases full
  · simp only [isFull, setFull, Bool.false_eq_true, if_false]
    split <;> simp [mem_insertSorted, *]
  · simp only [isFull, setFull, if_true]
    split <;> simp [*]

theorem accessFault_of_onChip {s : State} {lv : Level} {a w : Nat} (h : OnChip s lv a w) : accessFault s lv a w = none := by
  obtain ⟨h1, h2, h3, -⟩ := h
  simp only [accessFault, h1, bne_self_eq_false, Bool.false_eq_true, if_false, Nat.not_le.2 h2, beq_iff_eq]
  split
  · rename_i hl; simp [h3 hl]
  · rfl

theorem covered_of_onChip {s : State} {lv : Level} {a w : Nat} (h : OnChip s lv a w) (k : Out) : covered lv s k = k := by
  unfold covered
  by_cases hl : lv = .sp
  · simp [hl]
  · simp [h.2.2.2 hl]

/-- Where nothing is posted, no store comes before an access. -/
theorem performStoresTo_of_posted_nil {s : State} (h : s.blk.posted = []) (lv : Level) (a n : Nat) :
    performStoresTo s lv a n = s := by
  simp [performStoresTo, h, splitStores]

theorem taint_or_zero (t : Taint) : t ||| 0 = t := BitVec.or_zero

/-- The taint set that a full/empty access carries: of its address, and of what a store writes (R94, R227). -/
def feTaint (op : FeOp) (b : Block) (sd sa : SReg) : Taint :=
  match op with
  | .ef => taintS b sa ||| taintS b sd
  | _ => taintS b sa

/-- The request of a full/empty instruction outside format W. -/
def feRequest (op : FeOp) (b : Block) (sd sa : SReg) (addr : Nat) : FeWaiter :=
  ⟨b.id, addr, op, sd, feTaint op b sd sa, rdS b sd, 4⟩

/-- What a full/empty instruction reads and writes is ready. -/
def FeReady (op : FeOp) (b : Block) (sd sa : SReg) : Prop :=
  match op with
  | .ef => Ready b [sa, sd] [] [] []
  | _ => Ready b [sa] [] [sd] []

/-- A full/empty access that passes its checks, with no store posted, is made where its bit and the older requests let it, and waits
otherwise (R32, R178). -/
theorem feOp_eq {op : FeOp} {s : State} {sd sa : SReg} {lv : Level} {off : BitVec 10} {a : Nat} (hw : s.blk.wrap = none)
    (hp : s.blk.posted = []) (ha : a = (rdS s.blk sa + off.signExtend 64).toNat) (hc : OnChip s lv a 8)
    (hr : FeReady op s.blk sd sa) :
    feOp op sd lv sa off s =
      if op.ready (isFull s (levelAddr s s.blk lv a)) && (feOldest s (levelAddr s s.blk lv a)).isNone then
        .next (serveWaiters (levelAddr s s.blk lv a) s.feWait.length (feServe s (feRequest op s.blk sd sa (levelAddr s s.blk lv a))))
      else waitS { s with feWait := s.feWait ++ [feRequest op s.blk sd sa (levelAddr s s.blk lv a)] } (.fullEmpty (levelAddr s s.blk lv a)) := by
  have hm : memAddr s.blk sa off = a := ha.symm
  have hT : s.blk.wrapT = 0 := by rw [Block.wrapT, hw]; rfl
  have hl : (s.blk.len 4).toNat = 4 := by rw [Block.len, hw]; rfl
  cases op <;>
  · simp only [feOp, withRegs_ready _ hr, hm, accessFault_of_onChip hc, checked, covered_of_onChip hc,
      performStoresTo_of_posted_nil hp, hT, hl, taint_or_zero]
    rfl

/-- Serving a request of the block that moves next changes the word, its bit and the block (R32). -/
theorem feServe_own {s : State} {w : FeWaiter} (hid : w.id = s.blk.id) (hph : s.blk.phase = .running) :
    feServe s w = { (feAccess s w).2 with blk := s.blk.feDone w (feAccess s w).1 } := by
  have hblk : (feAccess s w).2.blk = s.blk := by unfold feAccess; cases w.op <;> rfl
  have hif : ((feAccess s w).2.blk.id == w.id && (feAccess s w).2.blk.phase != .none) = true := by
    simp [hblk, hid, hph]
  unfold feServe updBlock
  dsimp only
  rw [if_pos hif, hblk]

/-- Serving a request leaves the requests as they are. -/
@[simp] theorem feServe_feWait (s : State) (w : FeWaiter) : (feServe s w).feWait = s.feWait := by
  have h : (feAccess s w).2.feWait = s.feWait := by unfold feAccess; cases w.op <;> rfl
  unfold feServe updBlock
  dsimp only
  split <;> exact h

theorem feOldest_of_feWait_nil {s : State} (h : s.feWait = []) (a : Nat) : feOldest s a = none := by
  simp [feOldest, h]

/-- The oldest request that a word may serve is one of those that wait. -/
theorem mem_of_feOldest {s : State} {a : Nat} {w : FeWaiter} (h : feOldest s a = some w) : w ∈ s.feWait :=
  List.mem_of_find?_eq_some h

/-- As many services as there are requests leave none that the word's bit lets through (R179). -/
theorem feOldest_serveWaiters (a n : Nat) (s : State) (h : s.feWait.length ≤ n) : feOldest (serveWaiters a n s) a = none := by
  induction n generalizing s with
  | zero => exact feOldest_of_feWait_nil (List.length_eq_zero_iff.1 (Nat.le_zero.1 h)) a
  | succ n ih =>
    unfold serveWaiters
    split
    · rename_i w hw
      refine ih _ ?_
      have := List.length_erase_of_mem (mem_of_feOldest hw)
      simp only [feServe_feWait]
      omega
    · rename_i hn
      exact hn

/-- A word whose oldest request has no other behind it serves that one alone. -/
theorem serveWaiters_single {s : State} {a : Nat} {w : FeWaiter} (hw : feOldest s a = some w)
    (hx : ∀ x ∈ s.feWait, x ≠ w → x.addr / 8 ≠ a / 8) (hc : s.feWait.count w = 1) (n : Nat) :
    serveWaiters a (n + 1) s = feServe { s with feWait := s.feWait.erase w } w := by
  have hnone : feOldest (feServe { s with feWait := s.feWait.erase w } w) a = none := by
    unfold feOldest
    rw [feServe_feWait, List.find?_eq_none]
    intro x hxm
    have hne : x ≠ w := by
      rintro rfl
      have : 0 < (s.feWait.erase x).count x := List.count_pos_iff.2 hxm
      rw [List.count_erase_self] at this
      omega
    simp [hx x (List.mem_of_mem_erase hxm) hne]
  rw [serveWaiters, hw]
  cases n with
  | zero => rfl
  | succ n => dsimp only; rw [serveWaiters, hnone]

/-- An access whose bit allows it, with no request before it, is made at once (R32). -/
theorem feOp_served {op : FeOp} {s : State} {sd sa : SReg} {lv : Level} {off : BitVec 10} {a at_ : Nat} (hph : s.blk.phase = .running)
    (hw : s.blk.wrap = none) (hp : s.blk.posted = []) (hf : s.feWait = []) (ha : a = (rdS s.blk sa + off.signExtend 64).toNat)
    (hc : OnChip s lv a 8) (hat : at_ = levelAddr s s.blk lv a) (hr : FeReady op s.blk sd sa) (hb : op.ready (isFull s at_) = true) :
    feOp op sd lv sa off s = .next { (feAccess s (feRequest op s.blk sd sa at_)).2 with
      blk := s.blk.feDone (feRequest op s.blk sd sa at_) (feAccess s (feRequest op s.blk sd sa at_)).1 } := by
  rw [feOp_eq hw hp ha hc hr, ← hat, hb, feOldest_of_feWait_nil hf, hf, ← feServe_own (w := feRequest op s.blk sd sa at_) rfl hph]
  rfl

/-- An access whose bit does not allow it joins the requests of its word (R32, R178). -/
theorem feOp_waits {op : FeOp} {s : State} {sd sa : SReg} {lv : Level} {off : BitVec 10} {a at_ : Nat}
    (hw : s.blk.wrap = none) (hp : s.blk.posted = []) (ha : a = (rdS s.blk sa + off.signExtend 64).toNat)
    (hc : OnChip s lv a 8) (hat : at_ = levelAddr s s.blk lv a) (hr : FeReady op s.blk sd sa) (hb : op.ready (isFull s at_) = false) :
    feOp op sd lv sa off s = .next { s with
      feWait := s.feWait ++ [feRequest op s.blk sd sa at_], blk := { s.blk with wait := some (.fullEmpty at_) } } := by
  rw [feOp_eq hw hp ha hc hr, ← hat, hb, Bool.false_and, if_neg Bool.false_ne_true]
  rfl

/-- A load's completion writes its scalar. -/
theorem Block.feDone_load {w : FeWaiter} (h : w.op ≠ .ef) (b : Block) (v : DWord) :
    b.feDone w v = { wrS b w.sd v w.taint with pc := b.pc + BitVec.ofNat 32 w.len, wait := none } := by
  unfold Block.feDone
  cases hop : w.op with
  | ef => exact absurd hop h
  | ff => simp only [wrS_pc]
  | fe => simp only [wrS_pc]

/-- A store's completion folds the tags of what it wrote (R227). -/
theorem Block.feDone_store {w : FeWaiter} (h : w.op = .ef) (b : Block) (v : DWord) :
    b.feDone w v = { b.foldSet (w.taint ||| b.ctl) with pc := b.pc + BitVec.ofNat 32 w.len, wait := none } := by
  unfold Block.feDone
  obtain ⟨f, n, l, hfold⟩ := b.foldSet_fields (w.taint ||| b.ctl)
  simp only [h, hfold]

/-- Settles O25: the access itself, the wait, and the release. -/
theorem fullEmptyAccess : Obligations.FullEmptyAccess := by
  unfold Obligations.FullEmptyAccess
  refine ⟨fun s sd lv sa off a at_ hph hw hp hf ha hc hat => ⟨fun hr hb => ⟨?_, ?_⟩, fun hr hb => ?_⟩,
    fun s sd lv sa off a at_ hw hp ha hc hat => ⟨fun hr hb w hwd => ⟨?_, ?_⟩, fun hr hb => ?_⟩,
    fun s a w hw hop hid hph hx hc => ?_, fun s a => ⟨_, exec_fullEmptyRelease a s, feOldest_serveWaiters a _ s (Nat.le_refl _)⟩⟩
  · rw [exec_ldFf, feOp_served (op := .ff) hph hw hp hf ha hc hat hr hb, Block.feDone_load (by simp [feRequest])]
    rfl
  · refine ⟨_, (exec_ldFe ..).trans (feOp_served (op := .fe) hph hw hp hf ha hc hat hr hb), ?_, fun x hx => ?_, ?_⟩
    · exact (isFull_setFull s at_ at_ false).trans (if_pos rfl)
    · exact (isFull_setFull s at_ x false).trans (if_neg hx)
    · rw [Block.feDone_load (by simp [feRequest])]
      rfl
  · have hb' : FeOp.ef.ready (isFull s at_) = true := by rw [hb]; rfl
    refine ⟨_, (exec_stEf ..).trans (feOp_served (op := .ef) hph hw hp hf ha hc hat hr hb'), ?_, fun x hx => ?_, ?_⟩
    · exact (isFull_setFull _ at_ at_ true).trans (if_pos rfl)
    · exact (isFull_setFull _ at_ x true).trans (if_neg hx)
    · rw [Block.feDone_store rfl]
      rfl
  · rw [exec_ldFe, feOp_waits (op := .fe) hw hp ha hc hat hr hb, hwd]
    rfl
  · rw [exec_ldFf, feOp_waits (op := .ff) hw hp ha hc hat hr hb, hwd]
    rfl
  · have hb' : FeOp.ef.ready (isFull s at_) = false := by rw [hb]; rfl
    rw [exec_stEf, feOp_waits (op := .ef) hw hp ha hc hat hr hb']
    rfl
  · obtain ⟨n, hn⟩ : ∃ n, s.feWait.length = n + 1 :=
      Nat.exists_eq_succ_of_ne_zero (Nat.ne_of_gt (List.length_pos_of_mem (mem_of_feOldest hw)))
    have hserve := feServe_own (s := { s with feWait := s.feWait.erase w }) hid hph
    rw [feAccess, hop, Block.feDone_load (by simp [hop])] at hserve
    refine ⟨_, by rw [exec_fullEmptyRelease, hn, serveWaiters_single hw hx hc, hserve], ?_, fun x hx => ?_, rfl⟩
    · exact (isFull_setFull _ w.addr w.addr false).trans (if_pos rfl)
    · exact (isFull_setFull _ w.addr x false).trans (if_neg hx)

end Sys2Proof.Machine
end

section
/-! PROOFS. Dispatch of engine commands, and what queueing changes (R25, R28, R128, R153, R201). -/

namespace Sys2Proof.Machine

open Sys2Proof Sys2Proof.Safety

/-! ## Dispatch of engine commands -/

/-- The commands of the vector engine are dispatched by R128's steps: an instruction without a header, or of another engine, is none of
them, and the arm of every other one is that dispatch. -/
theorem exec_command_V {i : Instr} {h : Hdr} (hi : i.hdr? = some h) (he : engineOfCmd i = .V) (s : State) :
    exec i s = dispatchV none i s := by
  cases i <;> first | (cases hi; done) | (cases he; done) | rfl

/-- Those of the matrix engine by R153's. -/
theorem exec_command_M {i : Instr} {h : Hdr} (hi : i.hdr? = some h) (he : engineOfCmd i = .M) (s : State) :
    exec i s = dispatchM none i s := by
  cases i <;> first | (cases hi; done) | (cases he; done) | rfl

/-- Those of the fetch and put engines by R201's. -/
theorem exec_command_T {i : Instr} {h : Hdr} (hi : i.hdr? = some h) (he : engineOfCmd i = .F ∨ engineOfCmd i = .P) (s : State) :
    exec i s = dispatchT none i s := by
  cases i <;> first | (cases hi; done) | (rcases he with he | he <;> cases he; done) | rfl

theorem exec_nonblocking (p : PReg) (i : Instr) (s : State) : exec (.nonblockingDispatch p i) s = execNonblockingDispatch p i s := rfl

/-- A dispatch with thawed queues and its tokens paired goes on (R29, R122). -/
theorem dispatchStart_paired {i : Instr} {h : Hdr} {s : State} (hi : i.hdr? = some h) (hf : s.blk.frozen = false)
    (hp : pairFault s.blk (engineOfCmd i) h = none) (k : Out) : dispatchStart i s k = k := by
  simp [dispatchStart, hf, hdrOfCmd, hi, hp]

theorem hdrOfCmd_eq {i : Instr} {h : Hdr} (hi : i.hdr? = some h) : hdrOfCmd i = h := by
  simp [hdrOfCmd, hi]

theorem liveOthers_of_none {s : State} {ds hs : List (BitVec 4)} {qs : List (BitVec 3)}
    (h : s.blk.deadMode = true → deadOthers s.blk ds hs qs = none) (k : Out) : liveOthers ds hs qs s k = k := by
  unfold liveOthers
  cases hd : s.blk.deadMode with
  | false => rfl
  | true => rw [h hd]

/-- A V command whose checks pass reaches its queue (R128). -/
theorem dispatchV_enqueues {i : Instr} {h : Hdr} {s : State} {nb : Option PReg} (hi : i.hdr? = some h) (he : engineOfCmd i = .V)
    (hf : s.blk.frozen = false) (hp : pairFault s.blk .V h = none) (hrow : rowFault s.blk (vNames i) = none) (hl : vLimit i = none)
    (hr : Ready s.blk (vScalars i) [h.p] (vDestS i) (vDestP i ++ nb.toList)) :
    dispatchV nb i s = enqueue nb (vCmd s.blk i) (vDraws s.blk i (vCmd s.blk i).off) s := by
  rw [dispatchV, dispatchStart_paired hi hf (by rw [he]; exact hp), hrow, hl, hdrOfCmd_eq hi]
  exact withRegs_ready _ hr

/-- So does an M command (R153). -/
theorem dispatchM_enqueues {i : Instr} {h : Hdr} {s : State} {nb : Option PReg} (hi : i.hdr? = some h) (he : engineOfCmd i = .M)
    (hf : s.blk.frozen = false) (hp : pairFault s.blk .M h = none) (ht : tileFault s.blk i = none)
    (hd : s.blk.deadMode = true → deadOthers s.blk (mDescs i) [] [] = none) (hr : Ready s.blk [] [h.p] [] nb.toList) :
    dispatchM nb i s = enqueue nb (mCmd s.blk i) (mDraws s.blk i (mCmd s.blk i).off) s := by
  rw [dispatchM, dispatchStart_paired hi hf (by rw [he]; exact hp), ht, hdrOfCmd_eq hi, liveOthers_of_none hd]
  exact withRegs_ready _ hr

/-- A count of draws that is not free leaves the fresh counter alone (R201 step 6). -/
theorem tFresh_eq {s : State} {c : Cmd} (h : tTakesDraws s.blk c = true → qOkShape c.shape = true) : tFresh s c = s := by
  unfold tFresh
  cases ht : tTakesDraws s.blk c with
  | false => rfl
  | true => rw [h ht]; rfl

/-- So does an F or P command (R201). -/
theorem dispatchT_enqueues {i : Instr} {h : Hdr} {s : State} {nb : Option PReg} (hi : i.hdr? = some h)
    (hf : s.blk.frozen = false) (hp : pairFault s.blk (engineOfCmd i) h = none) (hh : tHandleFault s.blk i (tRegs i) = none)
    (hrun : tRunFault s.blk (tRegs i) = none) (hv : tValueFault s.blk i (tRegs i) = none)
    (hd : s.blk.deadMode = true → deadOthers s.blk ((tRegs i).dA.toList ++ (tRegs i).dB.toList)
      ((tRegs i).ha.toList ++ (tRegs i).hb.toList) (tRegs i).q.toList = none)
    (hq : tTakesDraws s.blk (tCmd s.blk i) = true → qOkShape (tCmd s.blk i).shape = true)
    (hr : Ready s.blk (tScalars s.blk (tRegs i)) [h.p] [] nb.toList) :
    dispatchT nb i s = enqueue nb (tCmd s.blk i) (tDraws s (tCmd s.blk i)) s := by
  rw [dispatchT, dispatchStart_paired hi hf hp, hdrOfCmd_eq hi, withRegs_ready _ hr, liveOthers_of_none hd, hh, hrun, hv]
  exact congrArg (enqueue nb _ _) (tFresh_eq hq)

/-- What a dispatch that reaches its queue does, in both forms (R28, R74 step 5): it queues, or it waits, or writes false. -/
theorem enqueue_none {c : Cmd} {e : Engine} (hc : c.eng = e) (n : Nat) (s : State) :
    ((s.blk.eng e).q.length < 16 → enqueue none c n s = .next { s with blk := (queueCmd s.blk none c n).adv 8 })
      ∧ (16 ≤ (s.blk.eng e).q.length → enqueue none c n s = .next { s with blk := { s.blk with wait := some .full } }) := by
  subst hc
  exact ⟨fun h => if_neg (Nat.not_le.2 h), fun h => if_pos h⟩

theorem enqueue_some (p : PReg) {c : Cmd} {e : Engine} (hc : c.eng = e) (n : Nat) (s : State) :
    ((s.blk.eng e).q.length < 16 → enqueue (some p) c n s = .next { s with blk := (queueCmd s.blk (some p) c n).adv 8 })
      ∧ (16 ≤ (s.blk.eng e).q.length → enqueue (some p) c n s = .next { s with blk := (wrP s.blk p 0 0).adv 8 }) := by
  subst hc
  exact ⟨fun h => if_neg (Nat.not_le.2 h), fun h => if_pos h⟩

/-! ## What queueing changes -/

theorem Block.eng_setEng (b : Block) (e e' : Engine) (q : EngineQ) : (b.setEng e q).eng e' = if e' = e then q else b.eng e' := by
  cases e <;> cases e' <;> rfl

/-- Raising PENDING changes step bindings alone, and none where the command is off or names no binding (R166). -/
theorem raisePending_fields (b : Block) (c : Cmd) :
    ∃ g, raisePending b c = { b with g := g } ∧ (c.off = true ∨ bindingOf c.instr = none → g = b.g) := by
  unfold raisePending
  split
  · rename_i hc
    split
    · exact ⟨b.g, rfl, fun _ => rfl⟩
    · rename_i ho
      exact ⟨_, rfl, fun h => by rw [hc] at h; simp [bindingOf, ho] at h⟩
  · exact ⟨b.g, rfl, fun _ => rfl⟩

/-- The block with a command queued: its engine's queue and numbers, the draws taken, and step bindings g (R49, R166, R240). -/
def Block.withQueued (b : Block) (c : Cmd) (draws : Nat) (g : Vector GCell 8) : Block :=
  { b.setEng c.eng { b.eng c.eng with q := (b.eng c.eng).q ++ [c], next := (b.eng c.eng).next + 1 } with
    dispN := b.dispN + 1, lfsr := lfsrDraws draws b.lfsr, g := g }

/-- Queueing changes that alone; the non-blocking form writes its predicate besides (R28). -/
theorem queueCmd_fields (b : Block) (c : Cmd) (n : Nat) :
    ∃ g, (c.off = true ∨ bindingOf c.instr = none → g = b.g) ∧ queueCmd b none c n = b.withQueued c n g
      ∧ ∀ p, queueCmd b (some p) c n = wrP (b.withQueued c n g) p (BitVec.allOnes 128) 0 := by
  obtain ⟨g, h, hg⟩ := raisePending_fields
    { b.setEng c.eng { b.eng c.eng with q := (b.eng c.eng).q ++ [c], next := (b.eng c.eng).next + 1 } with
      dispN := b.dispN + 1, lfsr := lfsrDraws n b.lfsr } c
  have hraise : raisePending { b.setEng c.eng { b.eng c.eng with q := (b.eng c.eng).q ++ [c], next := (b.eng c.eng).next + 1 } with
      dispN := b.dispN + 1, lfsr := lfsrDraws n b.lfsr } c = b.withQueued c n g := h
  refine ⟨g, fun hc => (hg hc).trans (by simp), ?_, fun p => ?_⟩
  · simp only [queueCmd, Block.setEng_dispN, Block.setEng_lfsr, hraise]
  · simp only [queueCmd, Block.setEng_dispN, Block.setEng_lfsr, hraise]

theorem Block.withQueued_eng (b : Block) (c : Cmd) (n : Nat) (g : Vector GCell 8) (e : Engine) : (b.withQueued c n g).eng e
    = if e = c.eng then { b.eng c.eng with q := (b.eng c.eng).q ++ [c], next := (b.eng c.eng).next + 1 } else b.eng e :=
  Block.eng_setEng b c.eng e _

theorem rdP_wrP_same (b : Block) {p : PReg} (v : BitVec 128) (t : Taint) (h0 : p ≠ 0) (hp : p.toNat < 48) : rdP (wrP b p v t) p = v := by
  rw [rdP, if_neg (mt beq_iff_eq.1 h0), Block.pCell_wrP, if_pos ⟨h0, rfl, hp⟩]

theorem Block.eng_wrP (b : Block) (p : PReg) (v : BitVec 128) (t : Taint) (e : Engine) : (wrP b p v t).eng e = b.eng e := by
  cases e <;> simp [Block.eng]

/-- Settles O41: the checks of each template pass, and its command is queued. -/
theorem commandsQueue : Obligations.CommandsQueue := by
  unfold Obligations.CommandsQueue
  refine ⟨⟨?_, ?_, ?_⟩, ?_⟩
  · intro s i h hi he hf hp hrow hl c hc
    subst hc
    refine ⟨fun hr => ?_, fun p hr => ?_⟩
    · rw [exec_command_V hi he,
        dispatchV_enqueues (nb := none) hi he hf hp hrow hl (by rw [Option.toList_none, List.append_nil]; exact hr)]
      exact enqueue_none (c := vCmd s.blk i) he _ s
    · rw [exec_nonblocking, execNonblockingDispatch, he]
      dsimp only
      rw [dispatchV_enqueues (nb := some p) hi he hf hp hrow hl hr]
      exact enqueue_some p (c := vCmd s.blk i) he _ s
  · intro s i h hi he hf hp ht hd c hc
    subst hc
    refine ⟨fun hr => ?_, fun p hr => ?_⟩
    · rw [exec_command_M hi he, dispatchM_enqueues (nb := none) hi he hf hp ht hd hr]
      exact enqueue_none (c := mCmd s.blk i) he _ s
    · rw [exec_nonblocking, execNonblockingDispatch, he]
      dsimp only
      rw [dispatchM_enqueues (nb := some p) hi he hf hp ht hd hr]
      exact enqueue_some p (c := mCmd s.blk i) he _ s
  · intro s i h e r hi he hFP hr hf hp hh hrun hv hd c hc hq
    subst hr hc he
    refine ⟨fun hr => ?_, fun p hr => ?_⟩
    · rw [exec_command_T hi hFP, dispatchT_enqueues (nb := none) hi hf hp hh hrun hv hd hq hr]
      exact enqueue_none (c := tCmd s.blk i) rfl _ s
    · have hnb : exec (.nonblockingDispatch p i) s = dispatchT (some p) i s := by
        rw [exec_nonblocking, execNonblockingDispatch]
        rcases hFP with hF | hP
        · rw [hF]
        · rw [hP]
      rw [hnb, dispatchT_enqueues (nb := some p) hi hf hp hh hrun hv hd hq hr]
      exact enqueue_some p (c := tCmd s.blk i) rfl _ s
  · intro b nb c n b' hb
    obtain ⟨g, hg, hnone, hsome⟩ := queueCmd_fields b c n
    subst hb
    cases nb with
    | none =>
      rw [hnone]
      refine ⟨(b.withQueued_eng c n g c.eng).trans (if_pos rfl), fun e he => (b.withQueued_eng c n g e).trans (if_neg he), ?_⟩
      simpa [Block.withQueued] using hg
    | some p =>
      rw [hsome]
      refine ⟨?_, fun e he => ?_, ?_⟩
      · rw [Block.eng_wrP, Block.withQueued_eng, if_pos rfl]
      · rw [Block.eng_wrP, Block.withQueued_eng, if_neg he]
      · have hp : ∀ p', some p = some p' → p' ≠ 0 → p'.toNat < 48 →
            rdP (wrP (b.withQueued c n g) p (BitVec.allOnes 128) 0) p' = BitVec.allOnes 128 := by
          intro p' h h0 hlt
          obtain rfl := Option.some.inj h
          exact rdP_wrP_same _ _ _ h0 hlt
        refine ⟨?_, ?_, ?_, ?_, ?_, ?_, ?_, ?_, ?_, ?_, ?_, ?_, ?_, ?_, ?_, ?_, hp, by simpa [Block.withQueued] using hg⟩
        all_goals simp [Block.withQueued]

end Sys2Proof.Machine
end

section
/-! PROOFS. The start and the end of engine commands (R26, R27, R30, R121, R124). -/

namespace Sys2Proof.Machine

open Sys2Proof Sys2Proof.Safety

/-! ## The engines' queues -/

theorem exec_engineCommandStart (e : Engine) (s : State) : exec (.engineCommandStart e) s = execEngineCommandStart e s := rfl
theorem exec_engineCommandCompletion (e : Engine) (s : State) : exec (.engineCommandCompletion e) s = execEngineCommandCompletion e s := rfl

@[simp] theorem Block.eng_setEng_same (b : Block) (e : Engine) (q : EngineQ) : (b.setEng e q).eng e = q := by cases e <;> rfl
@[simp] theorem Block.setEng_setEng (b : Block) (e : Engine) (q q' : EngineQ) : (b.setEng e q).setEng e q' = b.setEng e q' := by
  cases e <;> rfl

/-- An engine is not what a token's pop or push changes (R30). -/
theorem Block.setEng_with_tok (b : Block) (e : Engine) (q : EngineQ) (tok : Vector Token 16) :
    ({ b with tok := tok } : Block).setEng e q = { b.setEng e q with tok := tok } := by cases e <;> rfl
theorem Block.eng_with_tok (b : Block) (e : Engine) (tok : Vector Token 16) : ({ b with tok := tok } : Block).eng e = b.eng e := by
  cases e <;> rfl

/-- The wait token's pop changes the tokens alone (R30). -/
theorem popWait_eq (b : Block) (c : Cmd) : popWait b c = { b with tok := (popWait b c).tok } := by
  unfold popWait
  split <;> rfl

theorem popWait_eng (b : Block) (c : Cmd) (e : Engine) : (popWait b c).eng e = b.eng e := by
  rw [popWait_eq, Block.eng_with_tok]

/-! ## A command as it starts -/

@[simp] theorem Cmd.fresh_off (c : Cmd) : c.fresh.off = c.off := by unfold Cmd.fresh; dsimp only; split <;> rfl
@[simp] theorem Cmd.fresh_skipEnd (c : Cmd) : c.fresh.skipEnd = c.skipEnd := by unfold Cmd.fresh; dsimp only; split <;> rfl
@[simp] theorem Cmd.fresh_instr (c : Cmd) : c.fresh.instr = c.instr := by unfold Cmd.fresh; dsimp only; split <;> rfl
@[simp] theorem Cmd.fresh_eng (c : Cmd) : c.fresh.eng = c.eng := by unfold Cmd.fresh; dsimp only; split <;> rfl
theorem Cmd.fresh_moved {c : Cmd} (h : c.moved = 0) : c.fresh.moved = 0 := by unfold Cmd.fresh; dsimp only; split <;> simp [h]
theorem Cmd.fresh_dest {c : Cmd} (h : c.dest = []) : c.fresh.dest = [] := by unfold Cmd.fresh; dsimp only; split <;> simp [h]

/-- A command that has moved no element has none that stands, whether or not it writes an object (R283). -/
theorem Cmd.hasMoved_false {c : Cmd} (hm : c.moved = 0) (hd : c.dest = [] ∨ engineOfCmd c.instr = .V ∨ engineOfCmd c.instr = .M) :
    c.hasMoved = false := by
  unfold Cmd.hasMoved
  split
  all_goals first
    | (rename_i hi; simpa [hi, engineOfCmd] using hd)
    | simp [hm]

/-- Only the commands of F and P name objects. -/
theorem Cmd.objUses_nil {c : Cmd} (h : engineOfCmd c.instr = .V ∨ engineOfCmd c.instr = .M) : c.objUses = [] := by
  unfold Cmd.objUses
  split
  all_goals first
    | rfl
    | (rename_i hi; simp [hi, engineOfCmd] at h)

/-- A command that starts where none runs, or that is predicated off, takes its place in its engine and folds its sets (R26, R227). -/
theorem startCmd_fields {e : Engine} {c : Cmd} {s : State} (h : (s.blk.eng e).run = none ∨ c.off = true) :
    ∃ f n l, startCmd e c s =
        { s with blk := { s.blk.setEng e ((s.blk.eng e).start c) with floor := f, pend := n, loads := l } }
      ∧ (c.off = true → f = s.blk.floor ∧ n = s.blk.pend ∧ l = s.blk.loads) := by
  have ho : overlap e c s = (c, s) := by
    unfold overlap
    rw [if_pos]
    rcases h with h | h <;> simp [h]
  unfold startCmd
  rw [ho]
  dsimp only
  split
  · refine ⟨s.blk.floor, s.blk.pend, s.blk.loads, ?_, fun _ => ⟨rfl, rfl, rfl⟩⟩
    cases e <;> rfl
  · rename_i hoff
    obtain ⟨f, n, l, hf⟩ := (s.blk.setEng e ((s.blk.eng e).start c)).foldSet_fields
      (startFold (s.blk.setEng e ((s.blk.eng e).start c)) c)
    exact ⟨f, n, l, by rw [hf], fun hc => by simp [hc] at hoff⟩

/-- Checks that pass start the command. -/
theorem attemptStart_ok {e : Engine} {c c' : Cmd} {rest : List Cmd} {take : Cmd → Nat → Nat → State → State} {s v : State}
    (h : startChecks (putQueue s e (c.fresh :: rest)) c.fresh = (.ok c', v)) :
    attemptStart e c rest take s = startCmd e c' (putQueue v e rest) := by
  simp only [attemptStart, h]

/-- A fault of the checks of a V or M command, which names no object, is taken as it stands. -/
theorem attemptStart_fault {e : Engine} {c : Cmd} {rest : List Cmd} {take : Cmd → Nat → Nat → State → State} {s v : State} {x d : Nat}
    (h : startChecks (putQueue s e (c.fresh :: rest)) c.fresh = (.error (.fault x d), v)) (hu : c.fresh.objUses = []) :
    attemptStart e c rest take s = take c.fresh x d (putQueue v e rest) := by
  simp only [attemptStart, h, hu]
  rfl

/-- A command that is predicated off makes no checks (R27). -/
theorem startChecks_off {s : State} {c : Cmd} (h : c.off = true) : startChecks s c = (.ok c, s) := by
  simp [startChecks, h]

/-- The checks of a V command that is not predicated off are those of its vector sources and its footprint (R131, R149). -/
theorem startChecks_V_ok {s : State} {c : Cmd} (ho : c.off = false) (hs : c.skipEnd = false) (hm : c.hasMoved = false)
    (he : c.eng = .V) (h : vStartFault s.blk c = none) : startChecks s c = (.ok c, s) := by
  simp [startChecks, ho, hs, hm, he, h]

theorem startChecks_V_fault {s : State} {c : Cmd} {x d : Nat} (ho : c.off = false) (hs : c.skipEnd = false) (hm : c.hasMoved = false)
    (he : c.eng = .V) (h : vStartFault s.blk c = some (x, d)) : startChecks s c = (.error (.fault x d), s) := by
  simp [startChecks, ho, hs, hm, he, h]

/-- Those of an M command are R154's, behind which it captures its index row (R159). -/
theorem startChecks_M_ok {s : State} {c : Cmd} (ho : c.off = false) (hs : c.skipEnd = false) (hm : c.hasMoved = false)
    (he : c.eng = .M) (h : mStartFault s c = none) : startChecks s c = (.ok (mCapture s c), s) := by
  simp [startChecks, ho, hs, hm, he, h]

theorem startChecks_M_fault {s : State} {c : Cmd} {x d : Nat} (ho : c.off = false) (hs : c.skipEnd = false) (hm : c.hasMoved = false)
    (he : c.eng = .M) (h : mStartFault s c = some (x, d)) : startChecks s c = (.error (.fault x d), s) := by
  simp [startChecks, ho, hs, hm, he, h]

/-- Those of an F or P command are R204's. -/
theorem startChecks_T {s : State} {c : Cmd} (ho : c.off = false) (hs : c.skipEnd = false) (hm : c.hasMoved = false)
    (he : c.eng = .F ∨ c.eng = .P) : startChecks s c = startT s c := by
  rcases he with he | he <;> simp [startChecks, ho, hs, hm, he]

/-- A head that may not start stands still (R26, R30, R314). -/
theorem engineStart_stands {s : State} {e : Engine} {c : Cmd} {rest : List Cmd} (hq : (s.blk.eng e).q = c :: rest)
    (h : ((s.blk.eng e).takes e && headReady s.blk c && !stallHolds s c) = false) : execEngineCommandStart e s = .next s := by
  have hif : (!(s.blk.eng e).takes e || !headReady s.blk c || stallHolds s c) = true := by
    rw [← Bool.not_not (stallHolds s c), ← Bool.not_and, ← Bool.not_and, h]; rfl
  simp only [execEngineCommandStart, hq]
  rw [if_pos hif]

/-- One that may start attempts it where its block's engines start commands (R26), and else, in the cycle of an earlier fault, has its own
fault wait (R124). -/
theorem engineStart_goes {s : State} {e : Engine} {c : Cmd} {rest : List Cmd} (hq : (s.blk.eng e).q = c :: rest)
    (ht : (s.blk.eng e).takes e = true) (hr : headReady s.blk c = true) (hst : stallHolds s c = false) :
    execEngineCommandStart e s =
      if engineStarts s then .next (attemptStart e c rest engFault { s with blk := popWait s.blk c })
      else if sameCycle s.blk c then
        match startChecks { s with blk := popWait s.blk c } c.fresh with
        | (.error (.fault cause d), u) => .next (pendFault c.fresh cause d (putQueue u e rest))
        | _ => .next s
      else .next s := by
  simp only [execEngineCommandStart, hq, ht, hr, hst]
  rfl


/-- The block of a command that has started where none ran: its engine runs it, and only the folded sets' stamps have moved besides. -/
theorem startCmd_idle {e : Engine} {c' : Cmd} {rest cs : List Cmd} {b : Block} {v : State} (hb : v.blk = b.setEng e { b.eng e with q := cs })
    (ht : (b.eng e).started = []) :
    ∃ f n l, startCmd e c' (putQueue v e rest) =
      { v with blk := { b.setEng e { b.eng e with q := rest, run := some c' } with floor := f, pend := n, loads := l } } := by
  have hrun : (b.eng e).run = none := by
    cases h : (b.eng e).run with
    | none => rfl
    | some x => simp [EngineQ.started, h] at ht
  have heng : (putQueue v e rest).blk.eng e = { b.eng e with q := rest } := by
    rw [putQueue, Block.eng_setEng_same, hb, Block.eng_setEng_same]
  obtain ⟨f, n, l, h, -⟩ := startCmd_fields (e := e) (c := c') (s := putQueue v e rest) (.inl (by rw [heng]; exact hrun))
  refine ⟨f, n, l, ?_⟩
  rw [h, heng, EngineQ.start, hrun]
  simp only [putQueue, hb, Block.setEng_setEng]
  rfl

/-- A V or M engine that takes a command has started none. -/
theorem started_of_takes_VM {q : EngineQ} {e : Engine} (he : e = .V ∨ e = .M) (h : q.takes e = true) : q.started = [] := by
  rcases he with rfl | rfl <;> exact List.isEmpty_iff.1 h

end Sys2Proof.Machine
end

section
/-! PROOFS. What the effect of a V or M command leaves alone, and the end of a command (R26, R27, R30, R53). -/

namespace Sys2Proof.Machine

open Sys2Proof Sys2Proof.Safety

/-! ## What a V or M command's effect leaves alone -/

/-- From s to t a command's effect has changed memory, and of its block the taint sets and marks of vector registers and banks, crossbar
words, and the scalar and the predicate that it writes (R130, R139, R143, R158). -/
def EffectFrame (c : Cmd) (s t : State) : Prop :=
  (∃ m w x bt ss ps, t = { s with mem := m, blk := { s.blk with w := w, c := x, bankTaint := bt, s := ss, p := ps } })
    ∧ (∀ r, some r ≠ c.destS → rdS t.blk r = rdS s.blk r) ∧ (∀ p, some p ≠ c.destP → rdP t.blk p = rdP s.blk p)

theorem EffectFrame.refl (c : Cmd) (s : State) : EffectFrame c s s :=
  ⟨⟨_, _, _, _, _, _, rfl⟩, fun _ _ => rfl, fun _ _ => rfl⟩

theorem EffectFrame.trans {c : Cmd} {s t u : State} (h : EffectFrame c s t) (h' : EffectFrame c t u) : EffectFrame c s u := by
  obtain ⟨⟨m, w, x, bt, ss, ps, rfl⟩, hS, hP⟩ := h
  obtain ⟨⟨m', w', x', bt', ss', ps', rfl⟩, hS', hP'⟩ := h'
  exact ⟨⟨_, _, _, _, _, _, rfl⟩, fun r hr => (hS' r hr).trans (hS r hr), fun p hp => (hP' p hp).trans (hP p hp)⟩

/-- What changes neither a scalar nor a predicate frames every command. -/
theorem EffectFrame.of_cells (c : Cmd) (s : State) (m : Memory) (w : Vector WCell 512) (x : Vector CCell 8) (bt : Vector Taint 16) :
    EffectFrame c s { s with mem := m, blk := { s.blk with w := w, c := x, bankTaint := bt } } :=
  ⟨⟨_, _, _, _, _, _, rfl⟩, fun _ _ => rfl, fun _ _ => rfl⟩

theorem EffectFrame.foldl {α : Type} {c : Cmd} {f : State → α → State} (hf : ∀ s a, EffectFrame c s (f s a)) (xs : List α) (s : State) :
    EffectFrame c s (xs.foldl f s) := by
  induction xs generalizing s with
  | nil => exact .refl c s
  | cons a xs ih => exact (hf s a).trans (ih (f s a))

theorem EffectFrame.foldl_snd {α : Type} {c : Cmd} {f : Flags × State → α → Flags × State}
    (hf : ∀ r a, EffectFrame c r.2 (f r a).2) (xs : List α) (r : Flags × State) : EffectFrame c r.2 (xs.foldl f r).2 := by
  induction xs generalizing r with
  | nil => exact .refl c r.2
  | cons a xs ih => exact (hf r a).trans (ih (f r a))

theorem wrRow_frame (c : Cmd) (s : State) (r : WReg) (bs : List Byte) : EffectFrame c s (wrRow s r bs) := .of_cells c s _ _ _ _
theorem putRow_frame (c : Cmd) (s : State) (r : WReg) (bs : List Byte) (t : Taint) (kept : Bool) :
    EffectFrame c s (putRow s r bs t kept) := .of_cells c s _ _ _ _
theorem killRow_frame (c : Cmd) (s : State) (r : WReg) : EffectFrame c s (killRow s r) := .of_cells c s _ _ _ _
theorem wrBank_frame (c : Cmd) (s : State) (t : BitVec 4) (bs : List Byte) : EffectFrame c s (wrBank s t bs) :=
  .foldl (fun s _ => wrRow_frame c s _ _) _ s
theorem setBankT_frame (c : Cmd) (s : State) (t : BitVec 4) (x : Taint) :
    EffectFrame c s { s with blk := s.blk.setBankT t x } := .of_cells c s _ _ _ _

theorem rdS_wrS_other (b : Block) {r q : SReg} (v : DWord) (t : Taint) (h : q ≠ r) : rdS (wrS b r v t) q = rdS b q := by
  simp [rdS, Block.sCell_wrS, h]
theorem rdP_wrP_other (b : Block) {r q : PReg} (v : BitVec 128) (t : Taint) (h : q ≠ r) : rdP (wrP b r v t) q = rdP b q := by
  simp [rdP, Block.pCell_wrP, h]

theorem wrS_eq (b : Block) (r : SReg) (v : DWord) (t : Taint) : wrS b r v t = { b with s := (wrS b r v t).s } := by
  unfold wrS; split <;> rfl
theorem wrP_eq (b : Block) (p : PReg) (v : BitVec 128) (t : Taint) : wrP b p v t = { b with p := (wrP b p v t).p } := by
  unfold wrP; split <;> rfl

/-- A command may write its own scalar. -/
theorem wrS_frame {c : Cmd} {sd : SReg} (s : State) (v : DWord) (t : Taint) (h : c.destS = some sd) :
    EffectFrame c s { s with blk := wrS s.blk sd v t } := by
  refine ⟨⟨s.mem, s.blk.w, s.blk.c, s.blk.bankTaint, (wrS s.blk sd v t).s, s.blk.p, ?_⟩, fun r hr => ?_, fun p _ => ?_⟩
  · rw [wrS_eq]
  · exact rdS_wrS_other _ _ _ (fun e => hr (by rw [e, h]))
  · simp only [rdP, Block.pCell, wrS_p]

/-- A command may write its own predicate. -/
theorem wrP_frame {c : Cmd} {pd : PReg} (s : State) (v : BitVec 128) (t : Taint) (h : c.destP = some pd) :
    EffectFrame c s { s with blk := wrP s.blk pd v t } := by
  refine ⟨⟨s.mem, s.blk.w, s.blk.c, s.blk.bankTaint, s.blk.s, (wrP s.blk pd v t).p, ?_⟩, fun r _ => ?_, fun p hp => ?_⟩
  · rw [wrP_eq]
  · simp only [rdS, Block.sCell, wrP_s]
  · exact rdP_wrP_other _ _ _ (fun e => hp (by rw [e, h]))

/-- `vext` writes its scalar, or nothing where its mask bit is off (R143). -/
theorem vExtract_frame {c : Cmd} {t : ElemT} {lane : Nat} {wa : WReg} {sd : SReg} (s : State) (h : c.destS = some sd) :
    EffectFrame c s (vExtract c t lane wa sd s).2 := by
  unfold vExtract
  dsimp only
  split
  · exact wrS_frame s _ _ h
  · exact .refl c s

/-- `vins` writes its row, or nothing where its mask bit is off (R144). -/
theorem vInsert_frame (c : Cmd) (t : ElemT) (lane : Nat) (wd : WReg) (s : State) : EffectFrame c s (vInsert c t lane wd s).2 := by
  unfold vInsert
  dsimp only
  split
  · exact putRow_frame c s _ _ _ _
  · exact .refl c s

/-- What the effect of a V command leaves alone, form by form. -/
theorem vEffect_frame {c : Cmd} (s : State) (ho : c.off = false) : EffectFrame c s (vEffect c s).2 := by
  unfold vEffect
  split
  case h_1 => exact putRow_frame c s _ _ _ _
  case h_2 hi | h_3 hi | h_4 hi | h_5 hi | h_6 hi | h_7 hi => exact wrP_frame s _ _ (by simp [Cmd.destP, hi, ho])
  case h_8 | h_9 | h_10 | h_11 | h_12 | h_13 => exact putRow_frame c s _ _ _ _
  case h_14 => exact putRow_frame c s _ _ _ _
  case h_15 => exact .of_cells c s _ _ _ _
  case h_16 => exact putRow_frame c s _ _ _ _
  case h_17 => exact putRow_frame c s _ _ _ _
  case h_18 => exact .of_cells c s _ _ _ _
  case h_19 => exact putRow_frame c s _ _ _ _
  case h_20 => exact putRow_frame c s _ _ _ _
  case h_21 hi => exact vExtract_frame s (by simp [Cmd.destS, hi, ho])
  case h_22 => exact vInsert_frame c _ _ _ s
  case h_23 =>
    split
    · exact putRow_frame c s _ _ _ _
    · exact .refl c s

/-- `mxpack` writes the rows of its tile (R163). -/
theorem mPack_frame (c : Cmd) (af i32 : Bool) (td : BitVec 4) (s : State) : EffectFrame c s (mPack c af i32 td s).2 := by
  unfold mPack
  split
  · exact .refl c s
  · refine .foldl_snd (fun r i => ?_) _ (0, s)
    exact .of_cells c r.2 _ _ _ _

/-- A product writes its bank and the bank's set (R158, R159). -/
theorem mProduct_frame (c : Cmd) (o : MatOp) (s : State) : EffectFrame c s (mProduct c o s).2 := by
  unfold mProduct
  split
  · exact .refl c s
  · exact (wrBank_frame c s _ _).trans (setBankT_frame c _ _ _)

/-- What the effect of an M command leaves alone. -/
theorem mEffect_frame (c : Cmd) (s : State) : EffectFrame c s (mEffect c s).2 := by
  unfold mEffect
  split
  · exact (wrBank_frame c s _ _).trans (setBankT_frame c _ _ _)
  · exact mPack_frame c _ _ _ s
  · split
    · exact mProduct_frame c _ s
    · exact .refl c s

/-- So does the effect with the dead marks behind it (R95, R131). -/
theorem vmEffect_frame {c : Cmd} (s : State) (ho : c.off = false) : EffectFrame c s (vmEffect c s).2 := by
  have hmarks (u : State) : EffectFrame c u (applyMarks c.instr u) := .foldl (fun s w => killRow_frame c s w) _ u
  unfold vmEffect
  cases c.eng
  case V => exact (vEffect_frame s ho).trans (hmarks _)
  all_goals exact (mEffect_frame c s).trans (hmarks _)

/-! ## The end of a command -/

/-- The tokens behind a command's end: its signal token is pushed (R30). -/
def Block.signalled (b : Block) (sig : Option (BitVec 4)) : Block :=
  match sig with
  | some k => b.push k
  | none => b

/-- The end of a command that owes no answer and whose token can be pushed: its engine goes on, its token is pushed and its flags merge
(R26, R30, R53). -/
theorem finishCmd_ends {e : Engine} {c : Cmd} {f : Flags} {s : State} (hch : c.checked = 0)
    (hs : ∀ k, c.hdr.sig = some k → (s.blk.token k).count ≠ 255) :
    finishCmd e c f s = { s with blk := { s.blk.setEng e (s.blk.eng e).advance with
      tok := (s.blk.signalled c.hdr.sig).tok, fpstat := s.blk.fpstat ||| f } } := by
  have htell : tellCmd s c = s := by simp [tellCmd, hch]
  unfold finishCmd
  rw [htell]
  cases hk : c.hdr.sig with
  | none => cases e <;> rfl
  | some k =>
    have hcount : ((s.blk.setEng e (s.blk.eng e).advance).token k).count ≠ 255 := by
      rw [show (s.blk.setEng e (s.blk.eng e).advance).token k = s.blk.token k by cases e <;> rfl]
      exact hs k hk
    dsimp only
    rw [if_neg (mt beq_iff_eq.1 hcount), Block.push_eq hcount, Block.signalled, Block.push_eq (hs k hk)]
    cases e <;> rfl

/-- A running command that is predicated off makes no effect (R27). -/
theorem completion_off {s : State} {e : Engine} {c : Cmd} (hr : (s.blk.eng e).run = some c) (ho : c.off = true)
    (ha : s.blk.abroad = false) : execEngineCommandCompletion e s = .next (finishCmd e c 0 s) := by
  simp [execEngineCommandCompletion, hr, ho, ha]

/-- A running V or M command makes its effect and ends. -/
theorem completion_VM {s : State} {e : Engine} {c : Cmd} (he : e = .V ∨ e = .M) (hr : (s.blk.eng e).run = some c) (ho : c.off = false)
    (hs : c.skipEnd = false) (ha : s.blk.abroad = false) :
    execEngineCommandCompletion e s = .next (finishCmd e c (vmEffect c s).1 (vmEffect c s).2) := by
  rcases he with rfl | rfl <;> simp [execEngineCommandCompletion, hr, ho, hs, ha]

/-- While a write of the strand is under way at another package, nothing completes (log 14). -/
theorem completion_abroad {s : State} {e : Engine} {c : Cmd} (hr : (s.blk.eng e).run = some c) (ha : s.blk.abroad = true) :
    execEngineCommandCompletion e s = .next s := by
  simp [execEngineCommandCompletion, hr, ha]

/-- The completion of an F or P command goes on, whatever it meets. -/
theorem completion_T_goes {s : State} {e : Engine} {c : Cmd} (he : e = .F ∨ e = .P) (hr : (s.blk.eng e).run = some c) :
    ∃ t, execEngineCommandCompletion e s = .next t := by
  rcases he with rfl | rfl
  all_goals
    unfold execEngineCommandCompletion
    rw [hr]
    dsimp only
    repeat' split
    all_goals exact ⟨_, rfl⟩

end Sys2Proof.Machine
end

section
/-! PROOFS. The start of engine commands, and the obligation on both (R121, R124). -/

namespace Sys2Proof.Machine

open Sys2Proof Sys2Proof.Safety

/-! ## The obligation on starts and ends -/

/-- A predicated-off command that may start takes its place, with its wait token popped and nothing else done (R27). -/
theorem engineStart_off {s : State} {e : Engine} {c : Cmd} {rest : List Cmd} (hq : (s.blk.eng e).q = c :: rest)
    (ht : (s.blk.eng e).takes e = true) (hr : headReady s.blk c = true) (hst : stallHolds s c = false) (hgo : engineStarts s = true)
    (ho : c.off = true) :
    execEngineCommandStart e s = .next { s with
      blk := (popWait s.blk c).setEng e (EngineQ.start { s.blk.eng e with q := rest } c.fresh) } := by
  have hfo : c.fresh.off = true := by rw [Cmd.fresh_off]; exact ho
  rw [engineStart_goes hq ht hr hst, if_pos hgo, attemptStart_ok (startChecks_off hfo)]
  obtain ⟨f, n, l, h, hf⟩ := startCmd_fields (e := e) (c := c.fresh)
    (s := putQueue (putQueue { s with blk := popWait s.blk c } e (c.fresh :: rest)) e rest) (.inr hfo)
  obtain ⟨rfl, rfl, rfl⟩ := hf hfo
  rw [h]
  simp only [putQueue, Block.setEng_setEng, Block.eng_setEng_same, popWait_eng]
  cases e <;> rfl

/-- The fault of a V or M command's checks is taken, with the command off its queue (R121). -/
theorem engineStart_fault {s v : State} {e : Engine} {c : Cmd} {rest : List Cmd} {x d : Nat} (hq : (s.blk.eng e).q = c :: rest)
    (ht : (s.blk.eng e).takes e = true) (hr : headReady s.blk c = true) (hst : stallHolds s c = false) (hgo : engineStarts s = true)
    (hc : startChecks (putQueue { s with blk := popWait s.blk c } e (c.fresh :: rest)) c.fresh = (.error (.fault x d), v))
    (hu : engineOfCmd c.instr = .V ∨ engineOfCmd c.instr = .M) :
    execEngineCommandStart e s = .next (engFault c.fresh x d (putQueue v e rest)) := by
  rw [engineStart_goes hq ht hr hst, if_pos hgo, attemptStart_fault hc (Cmd.objUses_nil (by rw [Cmd.fresh_instr]; exact hu))]

/-- A command whose checks pass runs in its engine, which ran none: nothing but the tokens and the folded sets' stamps has changed in its
block beside the engine. -/
theorem engineStart_runs {s v : State} {e : Engine} {c c' : Cmd} {rest : List Cmd} (hq : (s.blk.eng e).q = c :: rest)
    (ht : (s.blk.eng e).takes e = true) (hr : headReady s.blk c = true) (hst : stallHolds s c = false) (hgo : engineStarts s = true)
    (hs : (s.blk.eng e).started = [])
    (hc : startChecks (putQueue { s with blk := popWait s.blk c } e (c.fresh :: rest)) c.fresh = (.ok c', v))
    (hv : v.blk = (putQueue { s with blk := popWait s.blk c } e (c.fresh :: rest)).blk) :
    ∃ f n l, execEngineCommandStart e s = .next { v with blk := { s.blk.setEng e { s.blk.eng e with q := rest, run := some c' } with
      tok := (popWait s.blk c).tok, floor := f, pend := n, loads := l } } := by
  have hst' : ((popWait s.blk c).eng e).started = [] := by rw [popWait_eng]; exact hs
  obtain ⟨f, n, l, h⟩ := startCmd_idle (e := e) (c' := c') (rest := rest) (b := popWait s.blk c) hv hst'
  refine ⟨f, n, l, ?_⟩
  rw [engineStart_goes hq ht hr hst, if_pos hgo, attemptStart_ok hc, h, popWait_eng, popWait_eq, Block.setEng_with_tok]

/-- An engine fault taken by a strand that has a handler (R100, R121). -/
theorem takeTrap_handler {b : Block} {pc : Word} {cw : BitVec 16} {info : DWord} {cause : Nat} {freeze : Bool} (hp : b.phase = .running)
    (hx : b.hasExited = false) (hh : b.handler = false) (hv : b.trapVec ≠ 0) :
    b.takeTrap pc cw info cause freeze false = { b with
      trapPc := pc, trapCause := cw, trapInfo := info, wait := none, wrap := none, monitor := none, reply := none
      handler := true, pc := b.trapVec, frozen := b.frozen || freeze } := by
  have hgo : (false || b.trapVec == 0 || b.hasExited) = false := by rw [beq_eq_false_iff_ne.2 hv, hx]; rfl
  unfold Block.takeTrap
  rw [if_neg (by simp [hp]), if_neg (by simp [hh])]
  exact if_neg (Bool.eq_false_iff.1 hgo)

/-- A command that does not run goes back to the head of its queue (R121). -/
theorem returnCmd_idle {b : Block} {c : Cmd} (h : (b.eng c.eng).started = []) :
    b.returnCmd c = b.setEng c.eng { b.eng c.eng with q := c :: (b.eng c.eng).q } := by
  have hrun : (b.eng c.eng).run = none := by
    cases hr : (b.eng c.eng).run with
    | none => rfl
    | some x => simp [EngineQ.started, hr] at h
  simp [Block.returnCmd, hrun]

/-- The block behind a command's fault that its strand takes: the command stands at the head of its queue (R100, R121). -/
theorem engFault_blk {s : State} {c : Cmd} {cause detail : Nat} (hp : s.blk.phase = .running) (hx : s.blk.hasExited = false)
    (hh : s.blk.handler = false) (hv : s.blk.trapVec ≠ 0) (hst : (s.blk.eng c.eng).started = []) :
    (engFault c cause detail s).blk = { s.blk.setEng c.eng { s.blk.eng c.eng with
        q := { c with fault := some (cause, BitVec.ofNat 32 detail), popped := true, pend := false, reply := none, checked := 0 }
          :: (s.blk.eng c.eng).q } with
      trapPc := c.addr, trapCause := causeWord (engCode c.eng) c.qno cause, trapInfo := s.blk.pc ++ BitVec.ofNat 32 detail
      wait := none, wrap := none, monitor := none, reply := none, handler := true, pc := s.blk.trapVec, frozen := true, faultNow := true } := by
  have hret := returnCmd_idle
    (c := { c with fault := some (cause, BitVec.ofNat 32 detail), popped := true, pend := false, reply := none, checked := 0 }) hst
  simp only [engFault, Block.engineFault, hret]
  rw [takeTrap_handler (by rw [Block.setEng_phase]; exact hp) (by simpa [Block.hasExited] using hx) (by rw [Block.setEng_handler]; exact hh)
    (by rw [Block.setEng_trapVec]; exact hv)]
  simp only [Block.setEng_pc, Block.setEng_trapVec, Bool.or_true]

theorem rdS_congr {b b' : Block} (h : b.s = b'.s) (r : SReg) : rdS b r = rdS b' r := by simp only [rdS, Block.sCell, h]
theorem rdP_congr {b b' : Block} (h : b.p = b'.p) (p : PReg) : rdP b p = rdP b' p := by simp only [rdP, Block.pCell, h]

/-- Settles O42: the starts by their checks, the fault by the trap that it takes, the ends by the frame of each effect. -/
theorem commandsStartAndEnd : Obligations.CommandsStartAndEnd := by
  unfold Obligations.CommandsStartAndEnd
  refine ⟨?_, ?_, ?_, ?_, ?_, fun s e c hr ha => completion_abroad hr ha⟩
  · intro s e c rest u hq hu
    subst hu
    refine ⟨engineStart_stands hq, fun ht hr hst => ⟨fun hgo => ⟨engineStart_off hq ht hr hst hgo, ?_⟩, ?_⟩⟩
    · intro ho hs hm he hie v hv
      subst hv
      have hfo : c.fresh.off = false := by rw [Cmd.fresh_off]; exact ho
      have hfs : c.fresh.skipEnd = false := by rw [Cmd.fresh_skipEnd]; exact hs
      have hfe : c.fresh.eng = e := by rw [Cmd.fresh_eng]; exact he
      have hfm (hd : c.dest = [] ∨ engineOfCmd c.instr = .V ∨ engineOfCmd c.instr = .M) : c.fresh.hasMoved = false :=
        Cmd.hasMoved_false (Cmd.fresh_moved hm) (by rw [Cmd.fresh_instr]; exact hd.imp_left Cmd.fresh_dest)
      refine ⟨fun hV hok => ?_, fun hV x d hf => ?_, fun hM hok => ?_, fun hM x d hf => ?_, fun hFP hd hrun c' v' hok hv' => ?_⟩
      · subst hV
        obtain ⟨f, n, l, h⟩ := engineStart_runs hq ht hr hst hgo (started_of_takes_VM (.inl rfl) ht)
          (startChecks_V_ok hfo hfs (hfm (.inr (.inl hie))) hfe hok) rfl
        exact ⟨_, h, rfl, rfl, rfl, rfl, rfl, rfl, rfl⟩
      · subst hV
        exact engineStart_fault hq ht hr hst hgo (startChecks_V_fault hfo hfs (hfm (.inr (.inl hie))) hfe hf) (.inl hie)
      · subst hM
        obtain ⟨f, n, l, h⟩ := engineStart_runs hq ht hr hst hgo (started_of_takes_VM (.inr rfl) ht)
          (startChecks_M_ok hfo hfs (hfm (.inr (.inr hie))) hfe hok) rfl
        exact ⟨_, h, rfl, rfl, rfl, rfl, rfl, rfl, rfl⟩
      · subst hM
        exact engineStart_fault hq ht hr hst hgo (startChecks_M_fault hfo hfs (hfm (.inr (.inr hie))) hfe hf) (.inr hie)
      · obtain ⟨f, n, l, h⟩ := engineStart_runs hq ht hr hst hgo hrun
          ((startChecks_T hfo hfs (hfm (.inl hd)) (by rw [hfe]; exact hFP)).trans hok) hv'
        refine ⟨_, h, ?_, rfl, ?_, rfl, ?_⟩
        · cases e <;> rfl
        · exact Block.setEng_s s.blk e _
        · exact Block.setEng_pc s.blk e _
    · intro hgo hcyc x d v hf
      rw [exec_engineCommandStart, engineStart_goes hq ht hr hst, hgo, if_neg Bool.false_ne_true, if_pos hcyc, hf]
  · intro s c cause detail hp hx hh hv hst t ht
    subst ht
    have hblk := engFault_blk (cause := cause) (detail := detail) hp hx hh hv hst
    rw [hblk]
    refine ⟨rfl, rfl, rfl, rfl, rfl, rfl, ?_, Block.setEng_s s.blk c.eng _, Block.setEng_p s.blk c.eng _, Block.setEng_tok s.blk c.eng _,
      abandonWait_mem s s.blk.id⟩
    cases c.eng <;> rfl
  · intro s e c hr ho ha hch
    have hend {f : Flags} := finishCmd_ends (e := e) (f := f) (s := s) hch
    refine ⟨fun hsig => ?_, fun k hsig hk => ?_⟩
    · rw [exec_engineCommandCompletion, completion_off hr ho ha, hend (by simp [hsig]), hsig]
      cases e <;> simp [Block.signalled, Block.setEng]
    · have hs : ∀ j, c.hdr.sig = some j → (s.blk.token j).count ≠ 255 := by
        intro j hj
        obtain rfl := Option.some.inj (hsig.symm.trans hj)
        exact hk
      have hcomp := (exec_engineCommandCompletion e s).trans ((completion_off hr ho ha).trans (congrArg _ (hend hs)))
      have htok : (s.blk.signalled c.hdr.sig) = s.blk.setToken k { s.blk.token k with count := (s.blk.token k).count + 1 } := by
        rw [hsig]
        exact Block.push_eq hk
      rw [htok] at hcomp
      refine ⟨_, hcomp, rfl, ?_, ?_, fun j hj => ?_, Block.setEng_s s.blk e _, Block.setEng_p s.blk e _, BitVec.or_zero, Block.setEng_pc s.blk e _⟩
      · cases e <;> rfl
      · exact congrArg Token.count ((s.blk.token_setToken k k _).trans (if_pos rfl))
      · exact (s.blk.token_setToken k j _).trans (if_neg hj)
  · intro s e c hrun he
    obtain ⟨hr, htr, -, ho, hse, hch, hs, ha, -⟩ := hrun
    obtain ⟨⟨m, w, x, bt, ss, ps, hu⟩, hS, hP⟩ := vmEffect_frame (c := c) s ho
    have hend := finishCmd_ends (e := e) (f := (vmEffect c s).1) (s := (vmEffect c s).2) hch (by rw [hu]; exact hs)
    have hcomp := (exec_engineCommandCompletion e s).trans ((completion_VM he hr ho hse ha).trans (congrArg _ hend))
    generalize vmEffect c s = r at hu hS hP hcomp
    obtain ⟨f, u⟩ := r
    subst hu
    refine ⟨_, hcomp, ?_, ?_, Block.setEng_pc _ e _, Block.setEng_d _ e _, Block.setEng_h _ e _, rfl, fun r hr' => ?_, fun p hp => ?_⟩
    · have hrun : (s.blk.eng e).advance.run = none := by rw [EngineQ.advance, htr]; rfl
      cases e <;> exact hrun
    · cases e <;> rfl
    · exact (rdS_congr (Block.setEng_s _ e _) r).trans (hS r hr')
    · exact (rdP_congr (Block.setEng_p _ e _) p).trans (hP p hp)
  · exact fun s e c hr he => completion_T_goes he hr

end Sys2Proof.Machine
end

section
/-! PROOFS. Dispatchers: notifies, admissions, the contexts of queues, and replays (R246-R249, R283, R286). -/

namespace Sys2Proof.Machine

open Sys2Proof Sys2Proof.Safety

/-! ## Notifies and admissions -/

/-- A queue record that can be read is what a look at it answers. -/
theorem queueLook_of_queueRec {s : State} {fn : BitVec 6} {q : Nat} {r : List Nat} (h : queueRec s fn q = some r) :
    queueLook s fn q = .ok (some r) := by
  unfold queueRec at h
  cases hl : queueLook s fn q with
  | error g => rw [hl] at h; exact absurd h (by simp)
  | ok o => rw [hl] at h; exact congrArg Except.ok h

/-- Work about a queue or a watch entry that no other work is about, and which does not park, is done at once (R286). -/
theorem doWork_done {s t : State} {w : DispWork} (h : ∀ j ∈ s.dp.jobs, j.work.key ≠ w.key) (ht : tryWork s w = .ok t) :
    doWork s w = t := by
  have hn : s.dp.jobs.any (fun j => j.work.key == w.key) = false := by simpa using h
  simp [doWork, hn, ht]

theorem exec_launchNotify_eq (s : State) (fn : BitVec 6) (q : BitVec 8) (tail : Word) :
    exec (.launchNotify fn q tail) s = .next (doWork s (.notify fn q tail)) := by
  have he : exec (.launchNotify fn q tail) s = .next (notify s fn q.toNat tail) := rfl
  rw [he, notify, if_pos q.isLt, BitVec.ofNat_toNat, BitVec.setWidth_eq]

/-- A notify that nothing stands before, and which does not park, is done at once (R247). -/
theorem exec_launchNotify {s t : State} {fn : BitVec 6} {q : BitVec 8} {tail : Word}
    (hj : ∀ j ∈ s.dp.jobs, j.work.key ≠ (DispWork.notify fn q tail).key) (ht : tryNotify s fn q.toNat tail = .ok t) :
    exec (.launchNotify fn q tail) s = .next t := by
  rw [exec_launchNotify_eq, doWork_done hj ht]

theorem queueEnds_mapped {s : State} {fn : BitVec 6} {q : Nat} {r : List Nat} {c : QueueCtx} (h : queueCtx s fn q = some c) :
    queueEnds s fn q r = (c.head, c.tail) := by
  simp [queueEnds, h]

/-- A TAIL further from HEAD than the ring is long sets ERR (R246). -/
theorem tryNotify_over {s : State} {fn : BitVec 6} {q : Nat} {tail : Word} {r : List Nat} (hr : queueRec s fn q = some r)
    (h : qSize r < (tail - (queueEnds s fn q r).1).toNat) : tryNotify s fn q tail = setQueueFlag s fn q 2 true := by
  simp only [tryNotify, queueLook_of_queueRec hr, if_pos h]

/-- A notify of a mapped queue moves its TAIL (R248). -/
theorem tryNotify_mapped {s : State} {fn : BitVec 6} {q : Nat} {tail : Word} {r : List Nat} {c : QueueCtx}
    (hr : queueRec s fn q = some r) (hc : queueCtx s fn q = some c) (h : (tail - c.head).toNat ≤ qSize r) :
    tryNotify s fn q tail = .ok (updCtx s fn q (fun x => { x with tail := tail, busyAt := s.tm.dtime })) := by
  simp only [tryNotify, queueLook_of_queueRec hr, queueEnds_mapped hc, if_neg (Nat.not_lt.mpr h), hc, Option.isSome_some, if_true]

/-- A notify of another queue writes TAIL to its record, maps the queues of its die that were PENDING, and then maps the queue itself
where the scan has not (R247, R248). -/
theorem tryNotify_unmapped {s u w : State} {fn : BitVec 6} {q : Nat} {tail : Word} {r : List Nat} (hr : queueRec s fn q = some r)
    (hc : queueCtx s fn q = none) (h : (tail - (queueEnds s fn q r).1).toNat ≤ qSize r)
    (hu : setQueueWord s fn q 2 (setBits (r.getD 2 0) 0 32 tail.toNat) = .ok u) (hw : w = scanPending u (qDie r)) :
    tryNotify s fn q tail
      = if (queueCtx w fn q).isSome then .ok w else (setQueueFlag w fn q 0 true).map (fun v => mapped v (fn, q)) := by
  subst hw
  simp only [tryNotify, queueLook_of_queueRec hr, if_neg (Nat.not_lt.mpr h), hc, hu, Option.isSome_none, Bool.false_eq_true, if_false]

/-- An admission takes the next record of a queue in slot order (R249, R251). -/
theorem exec_launchAdmission {s : State} {fn : BitVec 6} {q : BitVec 8} {r : List Nat} {c : QueueCtx} {bs : List Byte}
    (hr : queueRec s fn q.toNat = some r) (hc : queueCtx s fn q.toNat = some c) (hne : c.head ≠ c.tail) (hf : slotFree s fn = true)
    (hh : queueHeld s fn q = false) (hb : guestRead s c.die.toNat fn (r.getD 0 0 + 128 * (c.head.toNat % qSize r)) 128 = .ok bs) :
    exec (.launchAdmission fn q) s = .next
      (admitRecord (updCtx s fn q.toNat (fun x => { x with head := c.head + 1, busyAt := s.tm.dtime })) fn q.toNat c.head (recordOf bs)
        none false) := by
  change execLaunchAdmission fn q s = _
  simp only [execLaunchAdmission, hc, queueLook_of_queueRec hr, hf, hh, hb]
  simp [hne]

/-! ## Queues leave and enter the contexts -/

/-- State t is state s but for the memory and the caches. -/
def Stored (s t : State) : Prop := t = { s with mem := t.mem, tb := t.tb }

theorem Stored.refl (s : State) : Stored s s := rfl

theorem Stored.trans {s t u : State} (h1 : Stored s t) (h2 : Stored t u) : Stored s u := by
  unfold Stored at *
  rw [h2, h1]

/-- A second-stage translation changes the caches alone (R278). -/
theorem g2Translate_stored (s : State) (die : Nat) (world : BitVec 14) (gpa : Nat) (write : Bool) :
    Stored s (g2Translate s die world gpa write).2 := by
  unfold g2Translate
  dsimp only
  repeat' split
  all_goals exact rfl

theorem guestWrite_stored {s t : State} {die : Nat} {fn : BitVec 6} {gpa : Nat} {bs : List Byte}
    (h : guestWrite s die fn gpa bs = .ok t) : Stored s t := by
  have hg := g2Translate_stored s die (fnWorld s fn) gpa true
  unfold guestWrite at h
  split at h
  next a u hu =>
    rw [hu] at hg
    split at h
    · cases h
      exact hg.trans rfl
    · cases h
  next => cases h

theorem setQueueWord_stored {s t : State} {fn : BitVec 6} {q k v : Nat} (h : setQueueWord s fn q k v = .ok t) : Stored s t := by
  unfold setQueueWord at h
  split at h
  · exact guestWrite_stored h
  · cases h; exact .refl s

theorem setQueueFlag_stored {s t : State} {fn : BitVec 6} {q bit : Nat} {v : Bool} (h : setQueueFlag s fn q bit v = .ok t) :
    Stored s t := by
  unfold setQueueFlag at h
  split at h
  · exact setQueueWord_stored h
  · cases h; exact .refl s
  · cases h

theorem leaveQueue_stored {s t : State} {fn : BitVec 6} {q : Nat} {head tail : Word} (h : leaveQueue s fn q head tail = .ok t) :
    Stored s t := by
  unfold leaveQueue at h
  split at h
  · cases h
  next u hu => exact (setQueueWord_stored hu).trans (setQueueFlag_stored h)

/-- A fault record changes the memory and the tables alone (R284, R285). -/
theorem recordPark_stored (s : State) (who : Who) (p : Park) : Stored s (recordPark s who p).2 := by
  unfold recordPark
  dsimp only
  repeat' split
  all_goals exact rfl

/-- State t is state s but for the memory, the caches, the numbers of parks, and the work that waits at the dispatchers. -/
def Parked (s t : State) : Prop := t = { s with mem := t.mem, tb := t.tb, fresh := t.fresh, dp := { s.dp with jobs := t.dp.jobs } }

theorem Stored.parked {s t : State} (h : Stored s t) : Parked s t := by
  unfold Parked
  unfold Stored at h
  rw [h]

theorem park_eq (s : State) (who : Who) (h : DWord) (write atomic : Bool) (m : Meet) :
    park s who h write atomic m = recordPark { s with fresh := s.fresh + 1 } who (newPark s.fresh who h write atomic m) := rfl

theorem parkWork_parked (s : State) (w : DispWork) (g : GuestStop) : Parked s (parkWork s w g) := by
  have h : Stored _ _ := recordPark_stored { s with fresh := s.fresh + 1 }
    (dispWho (queueDie s w.place.1 w.place.2) (fnWorld s w.place.1))
    (newPark s.fresh (dispWho (queueDie s w.place.1 w.place.2) (fnWorld s w.place.1)) 0 g.write false g.meet)
  unfold Stored at h
  unfold Parked parkWork parkGuest
  simp only [park_eq]
  rw [h]

/-- The work of an unmapped queue's record leaves the blocks, the launches, the contexts and the time alone. -/
theorem doWork_unmap_parked (s : State) (fn : BitVec 6) (q : BitVec 8) (head tail : Word) :
    Parked s (doWork s (.unmap fn q head tail)) := by
  unfold doWork
  split
  · exact rfl
  · split
    next t ht => exact (leaveQueue_stored (show leaveQueue s fn q.toNat head tail = .ok t from ht)).parked
    next g hg => exact parkWork_parked s _ g

theorem dtime_reachTime (s : State) (n : Nat) : min n (2 ^ 64 - 1) ≤ (reachTime s n).tm.dtime.toNat := by
  have hlt : min (max s.tm.dtime.toNat n) (2 ^ 64 - 1) < 2 ^ 64 := by omega
  simp only [reachTime, BitVec.toNat_ofNat, Nat.mod_eq_of_lt hlt]
  omega

/-- A queue with nothing left is unmapped once it has been idle for long enough (R248). -/
theorem exec_queueUnmap {s : State} {fn : BitVec 6} {q : BitVec 8} {c : QueueCtx} (hc : queueCtx s fn q.toNat = some c)
    (he : c.head = c.tail) (hb : queueBusy s fn q = false) (hh : queueHeld s fn q = false) :
    exec (.queueUnmap fn q) s = .next (doWork
      { reachTime s (c.busyAt.toNat + idleTime) with
        dp := { s.dp with ctxs := s.dp.ctxs.filter (fun x => !(x.fn == fn && x.queue == q)) } } (.unmap fn q c.head c.tail)) := by
  change execQueueUnmap fn q s = _
  simp only [execQueueUnmap, hc, he, hb, hh]
  simp [reachTime]

/-- A queue whose context is taken away is unmapped. -/
theorem queueCtx_filtered {s : State} {fn : BitVec 6} {q : BitVec 8}
    (h : s.dp.ctxs = s.dp.ctxs.filter (fun x => !(x.fn == fn && x.queue == q))) : queueCtx s fn q.toNat = none := by
  rw [queueCtx, List.find?_eq_none, h]
  intro x hx
  have hkept := (List.mem_filter.mp hx).2
  intro hk
  rw [Bool.and_eq_true, beq_iff_eq, beq_iff_eq, BitVec.toNat_inj] at hk
  obtain ⟨hfn, hq⟩ := hk
  simp [hfn, hq] at hkept

/-- The write of a word of the only queue's record, where its page can be written and no line of it is poisoned (R246, R278). -/
theorem setQueueWord_one {s u : State} {fn : BitVec 6} {base k v a : Nat} (ht : s.dp.tables = [⟨fn, base, 1⟩])
    (hg : g2Translate s (lowDie s) (fnWorld s fn) (base + 8 * k) true = (.ok a, u)) (hp : Memory.writePoison u.mem a 8 = none) :
    setQueueWord s fn 0 k v = .ok { u with mem := Memory.writeAll u.mem a (leBytes 8 v) } := by
  have ha : queueRecAddr s fn 0 = some base := by simp [queueRecAddr, ht]
  have hl : (leBytes 8 v).length = 8 := by simp [leBytes]
  simp only [setQueueWord, ha, guestWrite, hg, hl, hp]

/-- An unmapped queue whose record is good is mapped where a context of its die is free: PENDING is cleared and MAPPED set (R246, R248). -/
theorem mapped_of_ok {s w : State} {fn : BitVec 6} {q : Nat} {r : List Nat} (hr : queueRec s fn q = some r) (hk : qOk r = true)
    (hc : queueCtx s fn q = none) (hf : (s.dp.ctxs.filter (fun c => c.die.toNat == qDie r)).length < 64)
    (hw : setQueueWord s fn q 5 (setBits (setBits (r.getD 5 0) 0 1 0) 1 1 1) = .ok w) :
    mapped s (fn, q) = { w with dp := { w.dp with ctxs := w.dp.ctxs ++
      [⟨fn, BitVec.ofNat 8 q, BitVec.ofNat 2 (qDie r), BitVec.ofNat 32 (qHead r), BitVec.ofNat 32 (qTail r), w.tm.dtime⟩] } } := by
  have hf' : ¬ 64 ≤ (s.dp.ctxs.filter (fun c => c.die.toNat == qDie r)).length := Nat.not_le.mpr hf
  simp only [mapped, mapQueue, queueLook_of_queueRec hr, hk, hc, hw, Option.isSome_none, Bool.not_true, Bool.false_or, Bool.false_eq_true,
    if_false, decide_eq_true_eq, if_neg hf', Except.map]

/-- A scan of the only queue maps it, where its record has PENDING and names the die (R248). -/
theorem scanPending_one {s : State} {fn : BitVec 6} {base die : Nat} {r : List Nat} (ht : s.dp.tables = [⟨fn, base, 1⟩])
    (hr : queueRec s fn 0 = some r) (hp : qPending r = true) (hd : qDie r = die) (hc : queueCtx s fn 0 = none) :
    scanPending s die = mapped s (fn, 0) := by
  have ha : allQueues s = [(fn, 0)] := by simp [allQueues, ht]
  simp [scanPending, ha, scanQueue, hc, queueLook_of_queueRec hr, hp, hd]

/-! ## Retirement and replays -/

/-- A block whose work is done retires with its status when it is terminated, with DONE where it has exited with no command queued, and not
while it runs (R22, R245). -/
theorem retireStatus_quiet {b : Block} (h : b.quiet = true) : (b.phase = .terminated → retireStatus b = some b.endStatus)
    ∧ (b.phase = .exited → b.queued = [] → retireStatus b = some 0) ∧ (b.phase = .running → retireStatus b = none) :=
  ⟨fun hp => by simp [retireStatus, h, hp], fun hp hq => by simp [retireStatus, h, hp, hq], fun hp => by simp [retireStatus, h, hp]⟩

/-- A parked access of the strand executes anew once it is released, in its turn (R283, R286). -/
theorem exec_accessReplay_strand {s : State} {p : Park} (h : s.blk.wait = some (.park p)) : exec (.accessReplay .strand) s = .next
    (if p.released = true ∧ ∀ q ∈ s.blk.strandParks, q.released = true → p.no ≤ q.no
      then { s with blk := { s.blk with wait := p.req.map Wait.replay } } else s) := by
  have ht : s.blk.strandTurn (some p) = true ↔ p.released = true ∧ ∀ q ∈ s.blk.strandParks, q.released = true → p.no ≤ q.no := by
    have hq (q : Park) : (!q.released || decide (p.no ≤ q.no)) = true ↔ (q.released = true → p.no ≤ q.no) := by
      cases q.released <;> simp
    simp only [Block.strandTurn, Bool.and_eq_true, List.all_eq_true, hq]
  have he : exec (.accessReplay .strand) s = replayStrand s := rfl
  rw [he, replayStrand, h]
  simp only [ht, Block.replay]

/-- A parked load is attempted again as its completion is (R283). -/
theorem exec_accessReplay_load {s : State} {k : Nat} {l : ObjLoad} (hl : s.blk.loads[k]? = some l) (hp : l.park ≠ none) :
    exec (.accessReplay (.load k)) s = exec (.objectLoadCompletion k) s := by
  have he : exec (.accessReplay (.load k)) s = replayLoad k s := rfl
  rw [he, replayLoad, hl]
  exact if_pos (Option.isSome_iff_ne_none.mpr hp)

end Sys2Proof.Machine
end

section
/-! PROOFS. Dispatchers: what the work at guest memory leaves alone (R247, R248, R253, R328). -/

namespace Sys2Proof.Machine

open Sys2Proof Sys2Proof.Safety

/-! ## What the dispatchers' work at guest memory leaves alone -/

/-- State t is state s but for the memory, the tables' caches, the times, the numbers, the peers' frames, and the contexts, the work and
the CWORD atomics of the dispatchers. -/
def GuestFrame (s t : State) : Prop :=
  t = { s with
    mem := t.mem, tb := t.tb, tm := t.tm, fresh := t.fresh, pe := t.pe
    dp := { s.dp with ctxs := t.dp.ctxs, jobs := t.dp.jobs, cwords := t.dp.cwords } }

theorem GuestFrame.refl (s : State) : GuestFrame s s := rfl

theorem GuestFrame.trans {s t u : State} (h1 : GuestFrame s t) (h2 : GuestFrame t u) : GuestFrame s u := by
  unfold GuestFrame at *
  rw [h2, h1]

theorem Stored.guest {s t : State} (h : Stored s t) : GuestFrame s t := by
  unfold GuestFrame
  unfold Stored at h
  rw [h]

theorem Parked.guest {s t : State} (h : Parked s t) : GuestFrame s t := by
  unfold GuestFrame
  unfold Parked at h
  rw [h]

theorem Caches.guest {s t : State} (h : Caches s t) : GuestFrame s t := by
  unfold GuestFrame
  unfold Caches at h
  rw [h]

/-- What every step of a walk over a list keeps, the walk keeps. -/
theorem GuestFrame.foldl {α : Type} {f : State → α → State} (hf : ∀ s x, GuestFrame s (f s x)) (xs : List α) (s : State) :
    GuestFrame s (xs.foldl f s) := by
  induction xs generalizing s with
  | nil => exact .refl s
  | cons x xs ih => exact (hf s x).trans (ih (f s x))

theorem park_guest (s : State) (who : Who) (h : DWord) (write atomic : Bool) (m : Meet) :
    GuestFrame s (park s who h write atomic m).2 := by
  have hr := (recordPark_stored { s with fresh := s.fresh + 1 } who (newPark s.fresh who h write atomic m)).guest
  exact GuestFrame.trans (t := { s with fresh := s.fresh + 1 }) rfl hr

theorem parkMap_guest (s : State) (x : BitVec 6 × Nat) (g : GuestStop) : GuestFrame s (parkMap s x g) := by
  unfold parkMap
  dsimp only
  split
  · exact .refl s
  · split
    · exact rfl
    · exact (parkWork_parked s _ g).guest

theorem mapQueue_guest {s t : State} {fn : BitVec 6} {q : Nat} (h : mapQueue s fn q = .ok t) : GuestFrame s t := by
  unfold mapQueue at h
  split at h
  · cases h
  · cases h; exact .refl s
  next r hr =>
    split at h
    · exact (setQueueFlag_stored h).guest
    · split at h
      · cases h; exact .refl s
      · cases hw : setQueueWord s fn q 5 (setBits (setBits (r.getD 5 0) 0 1 0) 1 1 1) with
        | error g => rw [hw] at h; cases h
        | ok u =>
          rw [hw] at h
          cases h
          exact (setQueueWord_stored hw).guest.trans rfl

theorem mapped_guest (s : State) (x : BitVec 6 × Nat) : GuestFrame s (mapped s x) := by
  unfold mapped
  split
  next t ht => exact mapQueue_guest ht
  next g hg => exact parkMap_guest s x g

theorem tryMap_guest {s t : State} {fn : BitVec 6} {q : Nat} (h : tryMap s fn q = .ok t) : GuestFrame s t := by
  unfold tryMap at h
  split at h
  · cases h
  · cases h; exact .refl s
  · split at h
    · exact mapQueue_guest h
    · cases h; exact .refl s

theorem scanPending_guest (s : State) (die : Nat) : GuestFrame s (scanPending s die) := by
  refine GuestFrame.foldl (fun s x => ?_) _ s
  unfold scanQueue
  split
  · exact .refl s
  · split
    · exact parkMap_guest s x _
    · exact .refl s
    · split
      · exact mapped_guest s x
      · exact .refl s

theorem tryNotify_guest {s t : State} {fn : BitVec 6} {q : Nat} {tail : Word} (h : tryNotify s fn q tail = .ok t) : GuestFrame s t := by
  unfold tryNotify at h
  split at h
  · cases h
  · cases h; exact .refl s
  next r hr =>
    dsimp only at h
    split at h
    · exact (setQueueFlag_stored h).guest
    · split at h
      · cases h; exact rfl
      · split at h
        · cases h
        next u hu =>
          have hs := (setQueueWord_stored hu).guest.trans (scanPending_guest u (qDie r))
          split at h
          · cases h; exact hs
          · cases hv : setQueueFlag (scanPending u (qDie r)) fn q 0 true with
            | error g => rw [hv] at h; cases h
            | ok v =>
              rw [hv] at h
              cases h
              exact (hs.trans (setQueueFlag_stored hv).guest).trans (mapped_guest v _)

theorem appendRecord_guest {s : State} {fn : BitVec 6} {q : Nat} {r : LaunchRec} {x : Option Word × State}
    (h : appendRecord s fn q r = .ok x) : GuestFrame s x.2 := by
  unfold appendRecord at h
  split at h
  · cases h
  · cases h; exact .refl s
  next r hr =>
    dsimp only at h
    split at h
    · cases h; exact .refl s
    · split at h
      · cases h
      next u hu =>
        cases hn : tryNotify u fn q ((queueEnds s fn q r).2 + 1) with
        | error g => rw [hn] at h; cases h
        | ok v =>
          rw [hn] at h
          cases h
          exact (guestWrite_stored hu).guest.trans (tryNotify_guest hn)

theorem tryFire_guest {s t : State} {e : Nat} {armed v : DWord} (h : tryFire s e armed v = .ok t) : GuestFrame s t := by
  unfold tryFire at h
  dsimp only at h
  cases ha : appendRecord s (BitVec.ofNat 6 (bits armed.toNat 36 6)) (bits armed.toNat 48 8)
      ((registered s (e / 256) (bits armed.toNat 42 6)).set 2 v.toNat) with
  | error g => rw [ha] at h; cases h
  | ok x =>
    rw [ha] at h
    cases h
    refine (appendRecord_guest ha).trans ?_
    dsimp only
    split
    · exact .refl _
    · exact rfl

theorem tryWork_guest {s t : State} (w : DispWork) (h : tryWork s w = .ok t) : GuestFrame s t := by
  cases w with
  | notify fn q tail => exact tryNotify_guest h
  | unmap fn q head tail => exact (leaveQueue_stored h).guest
  | discard fn q =>
    unfold tryWork at h
    dsimp only at h
    split at h
    · cases h
    · cases h; exact .refl s
    · exact (leaveQueue_stored h).guest
  | err fn q => exact (setQueueFlag_stored h).guest
  | admission fn q => cases h; exact .refl s
  | map fn q => exact tryMap_guest h
  | fire e w v => exact tryFire_guest h

theorem doWork_guest (s : State) (w : DispWork) : GuestFrame s (doWork s w) := by
  unfold doWork
  split
  · exact rfl
  · split
    next t ht => exact tryWork_guest w ht
    next g hg => exact (parkWork_parked s w g).guest

theorem fireWatches_guest (s : State) (h : DWord) (i : Nat) (v : DWord) : GuestFrame s (fireWatches s h i v) := by
  refine GuestFrame.foldl (fun s e => ?_) _ s
  split
  · exact doWork_guest s _
  · exact .refl s

theorem atomicHere_guest (s : State) (h : DWord) (d : BitVec 512) (op : LoadOp) (i : Nat) (x y : DWord) :
    GuestFrame s (atomicHere s h d op i x y).2 := by
  have fires (t : State) (b : Bool) (v : DWord) (ht : GuestFrame s t) : GuestFrame s (if b then fireWatches t h i v else t) := by
    split
    · exact ht.trans (fireWatches_guest t h i v)
    · exact ht
  refine fires _ _ _ ?_
  split
  · exact rfl
  · exact .refl s

/-- A request to another package changes the peers' frames alone (R360, R361). -/
theorem sendRequest_guest {s t : State} {pkg op off : Nat} {h : DWord} {desc : Option DWord} {body : List Byte} {r : Remote}
    (hs : sendRequest s pkg op h off desc body = some (r, t)) : GuestFrame s t := by
  unfold sendRequest sendParts at hs
  dsimp only at hs
  split at hs
  · cases hs
  · cases hs
    exact rfl

theorem performCword_guest (s : State) (c : CwordOp) : GuestFrame s (performCword s c) := by
  have parks (u : State) (m : Meet) (hu : GuestFrame s u) : GuestFrame s
      (keepCword (park u (dispWho c.die (fnWorld s c.fn)) c.handle true true m).2
        { c with park := some (park u (dispWho c.die (fnWorld s c.fn)) c.handle true true m).1, remote := none }) :=
    (hu.trans (park_guest u _ _ _ _ m)).trans rfl
  have hr := (resolve_frame s (dispWho c.die (fnWorld s c.fn)) c.handle 0).guest
  unfold performCword
  dsimp only
  split
  next u hu => rw [hu] at hr; exact hr.trans (doWork_guest u _)
  next u hu => rw [hu] at hr; exact parks u _ hr
  next u hu =>
    rw [hu] at hr
    split
    next hq => exact (hr.trans (sendRequest_guest hq)).trans rfl
    next => exact parks u _ hr
  next u hu =>
    rw [hu] at hr
    split
    · exact hr.trans (doWork_guest u _)
    · split
      · exact hr.trans (atomicHere_guest u _ _ _ _ _ _)
      · split
        next hq => exact (hr.trans (sendRequest_guest hq)).trans rfl
        next => exact parks u _ hr

theorem writeHeld_guest (s : State) (who : Who) (h : DWord) (d : BitVec 512) (f : DWord) (e : Holder) (fs : List Field)
    (vs whole : List Nat) : GuestFrame s (writeHeld s who h d f e fs vs whole).2 := by
  have hb := (byteAddrs_frame s who h d e true (fieldOffs fs)).guest
  unfold writeHeld
  split
  next u hu => rw [hu] at hb; exact hb
  next u hu => rw [hu] at hb; exact hb
  next u hu =>
    rw [hu] at hb
    split
    · exact hb
    · exact hb.trans rfl

theorem writeIndex_guest (fires : Bool) (s : State) (who : Who) (h : DWord) (d : BitVec 512) (f : DWord) (i v : Nat) :
    GuestFrame s (writeIndex fires s who h d f i v).2 := by
  have ho : GuestFrame s (objWrite s who h d f (indexFields d i).1 ((indexFields d i).2.take 1) [lowPart (dWidth d) v] []).2 := by
    unfold objWrite
    split
    · exact .refl s
    · split
      · exact .refl s
      · exact writeHeld_guest s who h d f _ _ _ _
  unfold writeIndex
  dsimp only
  split
  next u hu =>
    rw [hu] at ho
    split
    · exact ho.trans (fireWatches_guest _ _ _ _)
    · exact ho
  next u hu => rw [hu] at ho; exact ho
  next u hu => rw [hu] at ho; exact ho

end Sys2Proof.Machine
end

section
/-! PROOFS. Dispatchers: what the steps of launches leave alone (R251-R254). -/

namespace Sys2Proof.Machine

open Sys2Proof Sys2Proof.Safety

/-! ## What the steps of launches leave alone -/

/-- A launch stands in a list, but that it may be closed now where it was open: what the dispatchers do to a launch never opens it. -/
def KeepsClosed (xs : List Launch) (x : Launch) : Prop := ∃ y ∈ xs, y.slot = x.slot ∧ ∀ c, y.closed = some c → x.closed = some c

/-- The dispatchers' steps on launches leave every block and the dead dies alone, add no launch and open none. -/
structure LaunchFrame (s t : State) : Prop where
  blk : t.blk = s.blk
  others : t.others = s.others
  dead : t.dp.dead = s.dp.dead
  closed : ∀ x ∈ t.dp.launches, KeepsClosed s.dp.launches x

theorem KeepsClosed.of_mem {xs : List Launch} {x : Launch} (h : x ∈ xs) : KeepsClosed xs x := ⟨x, h, rfl, fun _ hc => hc⟩

theorem LaunchFrame.refl (s : State) : LaunchFrame s s := ⟨rfl, rfl, rfl, fun _ => KeepsClosed.of_mem⟩

theorem LaunchFrame.trans {s t u : State} (h1 : LaunchFrame s t) (h2 : LaunchFrame t u) : LaunchFrame s u where
  blk := h2.blk.trans h1.blk
  others := h2.others.trans h1.others
  dead := h2.dead.trans h1.dead
  closed x hx := by
    obtain ⟨y, hy, hyx, hyc⟩ := h2.closed x hx
    obtain ⟨z, hz, hzy, hzc⟩ := h1.closed y hy
    exact ⟨z, hz, hzy.trans hyx, fun c hc => hyc c (hzc c hc)⟩

/-- A step that keeps the launches too. -/
theorem LaunchFrame.of_eq {s t : State} (hb : t.blk = s.blk) (ho : t.others = s.others) (hd : t.dp.dead = s.dp.dead)
    (hl : t.dp.launches = s.dp.launches) : LaunchFrame s t :=
  ⟨hb, ho, hd, fun _ hx => .of_mem (hl ▸ hx)⟩

theorem GuestFrame.launches {s t : State} (h : GuestFrame s t) : t.dp.launches = s.dp.launches := by
  unfold GuestFrame at h
  rw [h]

theorem GuestFrame.launch {s t : State} (h : GuestFrame s t) : LaunchFrame s t := by
  refine .of_eq ?_ ?_ ?_ h.launches <;> (unfold GuestFrame at h; rw [h])

theorem LaunchFrame.foldl {α : Type} {f : State → α → State} (hf : ∀ s x, LaunchFrame s (f s x)) (xs : List α) (s : State) :
    LaunchFrame s (xs.foldl f s) := by
  induction xs generalizing s with
  | nil => exact .refl s
  | cons x xs ih => exact (hf s x).trans (ih (f s x))

/-- An update of a launch's slot keeps the frame where what it writes stands for a launch of the list. -/
theorem updLaunch_frame {s : State} {slot : Nat} {f : Launch → Launch}
    (hf : ∀ x ∈ s.dp.launches, x.slot = slot → KeepsClosed s.dp.launches (f x)) : LaunchFrame s (updLaunch s slot f) := by
  refine ⟨rfl, rfl, rfl, fun x hx => ?_⟩
  obtain ⟨y, hy, rfl⟩ := List.mem_map.mp hx
  by_cases hs : y.slot = slot
  · simpa [hs] using hf y hy hs
  · simpa [hs] using KeepsClosed.of_mem hy

/-- So does one that changes neither the slot nor whether the launch is closed. -/
theorem updLaunch_frame_of_same {s : State} {slot : Nat} {f : Launch → Launch} (hs : ∀ x, (f x).slot = x.slot)
    (hc : ∀ x, (f x).closed = x.closed) : LaunchFrame s (updLaunch s slot f) :=
  updLaunch_frame fun x hx _ => ⟨x, hx, (hs x).symm, fun _ h => (hc x).trans h⟩

theorem Launch.close_slot (l : Launch) (code : Nat) : (l.close code).slot = l.slot := by
  unfold Launch.close
  split <;> rfl

theorem Launch.close_closed (l : Launch) (code : Nat) : (l.close code).closed = if l.closed.isSome then l.closed else some code := by
  unfold Launch.close
  split <;> simp_all

theorem updLaunch_close_frame (s : State) (slot code : Nat) : LaunchFrame s (updLaunch s slot (fun x => x.close code)) :=
  updLaunch_frame fun x hx _ => ⟨x, hx, (x.close_slot code).symm, fun c h => by simp [Launch.close_closed, h]⟩

theorem findLaunch_mem {s : State} {slot : Nat} {l : Launch} (h : findLaunch s slot = some l) : l ∈ s.dp.launches :=
  List.mem_of_find?_eq_some h

theorem parkLaunch_frame (s : State) (l : Launch) (h : DWord) (write : Bool) (m : Meet) : LaunchFrame s (parkLaunch s l h write m) :=
  (park_guest s (dispWho (launchDie s l) l.world) h write false m).launch.trans (.of_eq rfl rfl rfl rfl)

theorem askForLaunch_frame (s : State) (l : Launch) (pkg op : Nat) (h : DWord) (off : Nat) (desc : Bool) (body : List Byte) :
    LaunchFrame s (askForLaunch s l pkg op h off desc body) := by
  unfold askForLaunch
  split
  next hs => exact (sendRequest_guest hs).launch.trans (updLaunch_frame_of_same (fun _ => rfl) (fun _ => rfl))
  next => exact parkLaunch_frame s l h _ _

theorem settleFair_frame (s : State) : LaunchFrame s (settleFair s) := by
  refine LaunchFrame.trans (LaunchFrame.foldl (fun s f => ?_) _ s) (.of_eq rfl rfl rfl rfl)
  split
  · exact .of_eq rfl rfl rfl rfl
  · exact .refl s

theorem setDep_frame (s : State) (i v : Nat) : LaunchFrame s (setDep s i v) := .of_eq rfl rfl rfl rfl

theorem touchQueue_frame (s : State) (fn : BitVec 6) (q : Nat) : LaunchFrame s (touchQueue s fn q) := .of_eq rfl rfl rfl rfl

theorem endCompletion_frame (s : State) (l : Launch) (cword : Nat) : LaunchFrame s (endCompletion s l cword) := by
  unfold endCompletion
  dsimp only
  have hd : LaunchFrame s (if l.counted && l.record.sv then setDep s l.record.sctr (depCounter s l.record.sctr - 1) else s) := by
    split
    · exact setDep_frame s _ _
    · exact .refl s
  have ends (t : State) (c : CwordOp) (ht : LaunchFrame s t) :
      LaunchFrame s (settleFair (if cword == 0 then t else performCword t c)) := by
    refine LaunchFrame.trans ?_ (settleFair_frame _)
    split
    · exact ht
    · exact ht.trans (performCword_guest t c).launch
  refine ends _ _ ((hd.trans (touchQueue_frame _ l.fn l.queue.toNat)).trans ?_)
  exact ⟨rfl, rfl, rfl, fun _ hx => .of_mem ((List.mem_filter.mp hx).1)⟩

/-- The completion of a launch of the table (R252, R253). -/
theorem completeLaunch_frame {s : State} {l : Launch} (reason : Nat) (hl : KeepsClosed s.dp.launches l) :
    LaunchFrame s (completeLaunch s l reason) := by
  have ht : LaunchFrame s (readTime s).2 := .of_eq rfl rfl rfl rfl
  have hw (g : GuestStop) : LaunchFrame (readTime s).2
      (parkLaunch (updLaunch (readTime s).2 l.slot (fun _ => { l with ending := some reason })) l 0 g.write g.meet) := by
    have hu : LaunchFrame (readTime s).2 (updLaunch (readTime s).2 l.slot (fun _ => { l with ending := some reason })) :=
      updLaunch_frame fun _ _ _ => hl
    exact hu.trans (parkLaunch_frame _ _ _ _ _)
  refine ht.trans ?_
  unfold completeLaunch
  dsimp only
  split
  · exact hw _
  · exact endCompletion_frame _ l 0
  · split
    · exact hw _
    next hg => exact (guestWrite_stored hg).guest.launch.trans (endCompletion_frame _ l _)

/-- A check of an object of a record, whatever it answers, changes the dispatchers' accesses alone. -/
def Checked.Frame (s : State) : Checked → Prop
  | .pass _ t => LaunchFrame s t ∧ t.dp.launches = s.dp.launches
  | .reject t => LaunchFrame s t ∧ t.dp.launches = s.dp.launches
  | .wait t => LaunchFrame s t

theorem checkObject_frame (s : State) (l : Launch) (h : DWord) (good : BitVec 512 → Bool) :
    (checkObject s l h good).Frame s := by
  have hr := (resolve_frame s (dispWho (launchDie s l) l.world) h 0).guest
  unfold checkObject
  split
  next hu => rw [hu] at hr; exact ⟨hr.launch, hr.launches⟩
  next hu => rw [hu] at hr; exact hr.launch.trans (parkLaunch_frame _ _ _ _ _)
  next hu => rw [hu] at hr; exact hr.launch.trans (askForLaunch_frame _ _ _ _ _ _ _ _)
  next hu =>
    rw [hu] at hr
    split
    · exact ⟨hr.launch, hr.launches⟩
    · exact ⟨hr.launch, hr.launches⟩

theorem advanceStatus_frame (n : Nat) (s : State) (slot : Nat) : LaunchFrame s (advanceStatus n s slot) := by
  induction n generalizing s with
  | zero => exact .refl s
  | succ n ih =>
    unfold advanceStatus
    split
    · exact .refl s
    next l hl =>
      have hm := KeepsClosed.of_mem (findLaunch_mem hl)
      split
      · exact .refl s
      · split
        · split
          · exact completeLaunch_frame 0 hm
          · exact .refl s
        next i code rest hd =>
          have go (t : State) (ht : LaunchFrame s t) :
              LaunchFrame s (advanceStatus n (updLaunch t slot (fun x => { x with statusDue := rest })) slot) := by
            have hu : LaunchFrame t (updLaunch t slot (fun x => { x with statusDue := rest })) :=
              updLaunch_frame_of_same (fun _ => rfl) (fun _ => rfl)
            exact (ht.trans hu).trans (ih _)
          have hr := (resolve_frame s (dispWho (launchDie s l) l.world) l.record.status 0).guest
          dsimp only
          split
          next u hu => rw [hu] at hr; exact go u hr.launch
          next u hu => rw [hu] at hr; exact hr.launch.trans (parkLaunch_frame _ _ _ _ _)
          next u hu => rw [hu] at hr; exact hr.launch.trans (askForLaunch_frame _ _ _ _ _ _ _ _)
          next d _ u hu =>
            rw [hu] at hr
            have hw := (writeIndex_guest false u (dispWho (launchDie s l) l.world) l.record.status d 0 i code).launch
            split
            next v hv => rw [hv] at hw; exact (hr.launch.trans hw).trans (parkLaunch_frame _ _ _ _ _)
            next v hv => rw [hv] at hw; exact (hr.launch.trans hw).trans (askForLaunch_frame _ _ _ _ _ _ _ _)
            next v _ _ hv => rw [hv] at hw; exact go v (hr.launch.trans hw)

theorem acceptLaunch_frame (s : State) (l : Launch) : LaunchFrame s (acceptLaunch s l) := by
  have hu : LaunchFrame s (updLaunch s l.slot (fun x => { x with counted := true })) :=
    updLaunch_frame_of_same (fun _ => rfl) (fun _ => rfl)
  have fair (t : State) : LaunchFrame t (settleFair (if l.record.sv then setDep t l.record.sctr (depCounter t l.record.sctr + 1) else t)) := by
    refine LaunchFrame.trans ?_ (settleFair_frame _)
    split
    · exact setDep_frame t _ _
    · exact .refl t
  have ends (t : State) : LaunchFrame t (if partLives t l.part then t
      else advanceStatus (l.record.blocks + 1) (updLaunch t l.slot (fun x => x.close 5)) l.slot) := by
    split
    · exact .refl t
    · exact (updLaunch_close_frame t _ _).trans (advanceStatus_frame _ _ _)
  exact (hu.trans (fair _)).trans (ends _)

theorem checkLaunch_frame {s : State} {l : Launch} (hl : l ∈ s.dp.launches) : LaunchFrame s (checkLaunch s l) := by
  have done (t : State) (reason : Nat) (ht : LaunchFrame s t) (he : t.dp.launches = s.dp.launches) :
      LaunchFrame s (completeLaunch t l reason) := ht.trans (completeLaunch_frame reason (.of_mem (he ▸ hl)))
  unfold checkLaunch
  dsimp only
  split
  · exact completeLaunch_frame _ (.of_mem hl)
  · have hc := checkObject_frame s l l.record.code (fun d => dKind d == kCode && canRead d l.world)
    split
    next hu => rw [hu] at hc; exact hc
    next hu => rw [hu] at hc; exact done _ 6 hc.1 hc.2
    next d u hu =>
      rw [hu] at hc
      have hs : Checked.Frame u (if l.record.status == 0 then .pass d u
          else checkObject u l l.record.status
            (fun d => dKind d == kTensor && dFmt d == 4 && l.record.blocks ≤ dCount d && canWrite d l.world)) := by
        split
        · exact ⟨.refl u, rfl⟩
        · exact checkObject_frame u l _ _
      split
      next hv => rw [hv] at hs; exact hc.1.trans hs
      next hv => rw [hv] at hs; exact done _ 6 (hc.1.trans hs.1) (hs.2.trans hc.2)
      next hv =>
        rw [hv] at hs
        split
        · exact done _ 7 (hc.1.trans hs.1) (hs.2.trans hc.2)
        · exact (hc.1.trans hs.1).trans (acceptLaunch_frame _ _)

theorem advanceLaunch_frame (s : State) (slot : Nat) : LaunchFrame s (advanceLaunch s slot) := by
  unfold advanceLaunch
  split
  · exact .refl s
  next l hl =>
    dsimp only
    split
    · split
      · exact .refl s
      · exact completeLaunch_frame _ (.of_mem (findLaunch_mem hl))
    · split
      · exact advanceStatus_frame _ _ _
      · split
        · exact .refl s
        · exact checkLaunch_frame (findLaunch_mem hl)

theorem reportBlock_frame (s : State) (slot : Nat) (r : Report) : LaunchFrame s (reportBlock s slot r) := by
  refine LaunchFrame.trans ?_ (advanceLaunch_frame _ slot)
  exact updLaunch_frame_of_same (fun _ => rfl) (fun _ => rfl)

/-- The closing of a launch begins with the slot's launch closed (R254, R265). -/
theorem closeLaunch_frame_closed (s : State) (slot code : Nat) : ∃ u, LaunchFrame s u
    ∧ LaunchFrame (updLaunch u slot (fun l => l.close code)) (closeLaunch s slot code) := by
  unfold closeLaunch
  dsimp only
  refine ⟨_, ?_, (advanceLaunch_frame _ slot).trans (settleFair_frame _)⟩
  split
  · exact touchQueue_frame s _ _
  · exact .refl s

theorem closeLaunch_frame (s : State) (slot code : Nat) : LaunchFrame s (closeLaunch s slot code) := by
  obtain ⟨u, hu, hc⟩ := closeLaunch_frame_closed s slot code
  exact (hu.trans (updLaunch_close_frame u slot code)).trans hc

/-- A launch that has been closed stays closed, or is gone (R254). -/
theorem closeLaunch_closed (s : State) (slot code : Nat) : ∀ x ∈ (closeLaunch s slot code).dp.launches, x.slot = slot → x.closed ≠ none := by
  obtain ⟨u, -, hc⟩ := closeLaunch_frame_closed s slot code
  intro x hx hs
  obtain ⟨y, hy, hys, hyc⟩ := hc.closed x hx
  obtain ⟨z, hz, rfl⟩ := List.mem_map.mp hy
  by_cases hzs : z.slot = slot
  · rw [if_pos (by simpa using hzs), Launch.close_closed] at hyc
    cases hzc : z.closed with
    | none => simp [hyc code (by simp [hzc])]
    | some c => simp [hyc c (by simp [hzc])]
  · rw [if_neg (by simpa using hzs)] at hys
    exact absurd (hys.trans hs) hzs

end Sys2Proof.Machine
end

section
/-! PROOFS. Dispatchers: admitted records, picks and reservations (R17, R251, R256-R258, R265). -/

namespace Sys2Proof.Machine

open Sys2Proof Sys2Proof.Safety

/-! ## The checks of an admitted record -/

/-- A record that fails a check of its own fields completes with the check's reason (R251). -/
theorem checkLaunch_refused {s : State} {l : Launch} (h : recordReason s l.fn l.part l.record ≠ 0) :
    checkLaunch s l = completeLaunch s l (recordReason s l.fn l.part l.record) := by
  simp [checkLaunch, h]

/-- A record that passes the checks, and has no STATUS object, may be placed (R251, R256). -/
theorem checkLaunch_accepted {s t : State} {l : Launch} {d : BitVec 512} {st : DWord}
    (h : recordReason s l.fn l.part l.record = 0) (hs : l.record.status = 0)
    (hr : resolve s (dispWho (launchDie s l) l.world) l.record.code 0 = (.ok d st, t)) (hk : dKind d = kCode)
    (hc : canRead d l.world = true) (he : badEntry l.record d = false) : checkLaunch s l = acceptLaunch t l := by
  have hp : checkObject s l l.record.code (fun d => dKind d == kCode && canRead d l.world) = .pass d t := by
    unfold checkObject
    rw [hr]
    simp [hk, hc]
  unfold checkLaunch
  dsimp only
  rw [h, hp]
  simp [hs, he]

/-- The fair rule's bookkeeping changes the virtual times and the functions that it follows alone (R258). -/
theorem settleFair_eq (s : State) : ∃ v h, settleFair s = { s with dp := { s.dp with vtime := v, holdB := h } } := by
  have fold (xs : List Nat) (f : State → Nat → State) (hf : ∀ u x, ∃ v, f u x = { u with dp := { u.dp with vtime := v } }) (u : State) :
      ∃ v, xs.foldl f u = { u with dp := { u.dp with vtime := v } } := by
    induction xs generalizing u with
    | nil => exact ⟨u.dp.vtime, rfl⟩
    | cons x xs ih =>
      obtain ⟨v, hv⟩ := hf u x
      obtain ⟨w, hw⟩ := ih (f u x)
      exact ⟨w, by rw [List.foldl_cons, hw, hv]⟩
  unfold settleFair
  dsimp only
  rw [(fold _ _ (fun u x => ?_) s).choose_spec]
  · exact ⟨_, _, rfl⟩
  · split
    · exact ⟨_, rfl⟩
    · exact ⟨u.dp.vtime, rfl⟩

theorem settleFair_launches (s : State) : (settleFair s).dp.launches = s.dp.launches := by
  obtain ⟨v, h, he⟩ := settleFair_eq s
  rw [he]

theorem partLives_settleFair (s : State) (part : BitVec 4) : partLives (settleFair s) part = partLives s part := by
  obtain ⟨v, h, he⟩ := settleFair_eq s
  rw [he]
  rfl

/-- A launch that has passed its checks (R252). -/
def Launch.asCounted (l : Launch) : Launch := { l with counted := true }

@[simp] theorem Launch.asCounted_slot (l : Launch) : l.asCounted.slot = l.slot := rfl
@[simp] theorem Launch.asCounted_closed (l : Launch) : l.asCounted.closed = l.closed := rfl

/-- State s with a launch counted, its SV counter raised and the fair rule brought up to date (R252, R256). -/
def counts (s : State) (l : Launch) : State :=
  let u := updLaunch s l.slot Launch.asCounted
  settleFair (if l.record.sv then setDep u l.record.sctr (depCounter u l.record.sctr + 1) else u)

theorem counts_launches (s : State) (l : Launch) :
    (counts s l).dp.launches = (updLaunch s l.slot Launch.asCounted).dp.launches := by
  unfold counts
  dsimp only
  rw [settleFair_launches]
  split <;> rfl

theorem partLives_counts (s : State) (l : Launch) (part : BitVec 4) : partLives (counts s l) part = partLives s part := by
  unfold counts
  dsimp only
  rw [partLives_settleFair]
  split <;> rfl

/-- A launch that has passed the checks is counted, and waits for its place where a die of its partition lives (R256). -/
theorem acceptLaunch_lives {s : State} {l : Launch} (h : partLives s l.part = true) : acceptLaunch s l = counts s l :=
  if_pos ((partLives_counts s l l.part).trans h)

/-- Where no die of its partition is left it is closed with NOT_RUN (R265). -/
theorem acceptLaunch_lost {s : State} {l : Launch} (h : partLives s l.part = false) : acceptLaunch s l
    = advanceStatus (l.record.blocks + 1) (updLaunch (counts s l) l.slot (fun x => x.close 5)) l.slot :=
  if_neg (Bool.eq_false_iff.mp ((partLives_counts s l l.part).trans h))

/-- What a slot holds after an update of it. -/
theorem findLaunch_updLaunch {s : State} {slot : Nat} {f : Launch → Launch} (hf : ∀ x, (f x).slot = x.slot) :
    findLaunch (updLaunch s slot f) slot = (findLaunch s slot).map f := by
  have hp : (fun l : Launch => l.slot == slot) ∘ (fun l => if l.slot == slot then f l else l) = fun l => l.slot == slot := by
    funext l
    dsimp only [Function.comp]
    split <;> simp_all
  unfold findLaunch updLaunch
  rw [List.find?_map, hp]
  cases h : s.dp.launches.find? (fun l => l.slot == slot) with
  | none => rfl
  | some l =>
    have hl : l.slot = slot := by simpa using List.find?_some h
    simp [hl]

section
variable {s t : State} {l : Launch} (hfresh : ∀ x ∈ s.dp.launches, x.slot ≠ l.slot) (ht : t.dp.launches = s.dp.launches ++ [l])
include hfresh ht

theorem findLaunch_last : findLaunch t l.slot = some l := by
  have hn : s.dp.launches.find? (fun x => x.slot == l.slot) = none := by simpa using hfresh
  simp [findLaunch, ht, hn]

/-- A launch that is admitted to a fresh slot and passes the checks stands there counted (R249, R251). -/
theorem findLaunch_counts : findLaunch (counts t l) l.slot = some l.asCounted := by
  have he : findLaunch (counts t l) l.slot = findLaunch (updLaunch t l.slot Launch.asCounted) l.slot := by
    simp only [findLaunch, counts_launches]
  rw [he, findLaunch_updLaunch (f := Launch.asCounted) (fun _ => rfl), findLaunch_last hfresh ht]
  rfl

/-- Such a launch that was open, and is then closed, is closed for as long as it stands (R265). -/
theorem findLaunch_closed {n : Nat} {x : Launch} {code : Nat} (ho : l.closed = none)
    (hx : findLaunch (advanceStatus n (updLaunch (counts t l) l.slot (fun x => x.close code)) l.slot) l.slot = some x) :
    x.closed = some code := by
  have hs : x.slot = l.slot := by simpa using List.find?_some hx
  have keeps (f : Launch → Launch) (hf : ∀ y, (f y).slot = y.slot) (y : Launch) :
      (if y.slot == l.slot then f y else y).slot = y.slot := by
    split
    · exact hf y
    · rfl
  have hcount (y : Launch) := keeps Launch.asCounted (fun _ => rfl) y
  obtain ⟨y, hy, hyx, hyc⟩ := (advanceStatus_frame n _ l.slot).closed x (findLaunch_mem hx)
  obtain ⟨z, hz, rfl⟩ := List.mem_map.mp hy
  rw [counts_launches] at hz
  obtain ⟨w, hw, rfl⟩ := List.mem_map.mp hz
  rw [keeps (·.close code) (·.close_slot code), hcount] at hyx
  rw [ht, List.mem_append, List.mem_singleton] at hw
  obtain hw | rfl := hw
  · exact absurd (hyx.trans hs) (hfresh w hw)
  · refine hyc code ?_
    rw [if_pos (by simp), if_pos (by simp), Launch.close_closed]
    simp [ho]
end

/-! ## Picks and reservations -/

theorem leastBy_mem {α : Type} {key : α → List Nat} {xs : List α} {x : α} (h : leastBy key xs = some x) : x ∈ xs := by
  induction xs generalizing x with
  | nil => cases h
  | cons y ys ih =>
    unfold leastBy at h
    split at h
    next z hz =>
      split at h
      · cases h; exact List.mem_cons_of_mem _ (ih hz)
      · cases h; exact List.mem_cons_self
    · cases h; exact List.mem_cons_self

theorem leastBy_isSome {α : Type} {key : α → List Nat} {xs : List α} {x : α} (h : x ∈ xs) : ∃ y, leastBy key xs = some y := by
  cases xs with
  | nil => cases h
  | cons z zs =>
    unfold leastBy
    split
    · split <;> exact ⟨_, rfl⟩
    · exact ⟨_, rfl⟩

/-- A locked gang for which a unit of its extent level is open reserves one (R257). -/
theorem reserveFor_open {s : State} {l : Launch} {size f : Nat} (hz : size = extentSize l.record.blocks) (hf : f < 4096 / size)
    (ht : s.dp.reserved.any (fun r => r.first < size * f + size && size * f < r.first + r.size) = false)
    (hg : (gangIn (coreUsable s l.part) l (size * f) size).isSome = true) :
    ∃ g, reserveFor s l = { s with dp := { s.dp with reserved := s.dp.reserved ++ [⟨l.slot, g, size⟩] } }
      ∧ (gangIn (coreUsable s l.part) l g size).isSome = true := by
  subst hz
  let units := ((List.range (4096 / extentSize l.record.blocks)).map (extentSize l.record.blocks * ·)).filter (fun f =>
    !(s.dp.reserved.any (fun r => r.first < f + extentSize l.record.blocks && f < r.first + r.size))
      && (gangIn (coreUsable s l.part) l f (extentSize l.record.blocks)).isSome)
  have hm : extentSize l.record.blocks * f ∈ units :=
    List.mem_filter.mpr ⟨List.mem_map_of_mem (List.mem_range.mpr hf), by simp only [ht, hg]; rfl⟩
  obtain ⟨g, hleast⟩ := leastBy_isSome (key := fun f => [((span f (extentSize l.record.blocks)).filter
    (fun c => !(onCore s c).isEmpty || !coreUsable s l.part c)).length]) hm
  have hgm := (List.mem_filter.mp (leastBy_mem hleast)).2
  rw [Bool.and_eq_true] at hgm
  refine ⟨g, ?_, hgm.2⟩
  unfold reserveFor
  dsimp only
  rw [hleast]

/-- When the 100 µs of a locked gang end and it alone has waited as long, it reserves a unit (R257). -/
theorem exec_gangReservation {s : State} {slot : Nat} {l : Launch} {k : DWord} (hl : findLaunch s slot = some l)
    (hk : l.passedOver = some k) (hlk : l.record.locked = true) (he : eligible s l = true) (hr : reservationOf s l = none)
    (hw : s.dp.launches.filter (reserves (reachTime s (k.toNat + 100000))) = [l]) :
    exec (.gangReservation slot) s = .next (reserveFor (reachTime s (k.toNat + 100000)) l) := by
  have hx : exec (.gangReservation slot) s = execGangReservation slot s := rfl
  have hs : settleReserved (reachTime s (k.toNat + 100000)) = reserveFor (reachTime s (k.toNat + 100000)) l := by
    have hw' : (reachTime s (k.toNat + 100000)).dp.launches.filter (reserves (reachTime s (k.toNat + 100000))) = [l] := hw
    rw [settleReserved, hw']
    rfl
  simp [hx, execGangReservation, hl, hk, hlk, he, hr, hs]

theorem reserveFor_frame (s : State) (l : Launch) : LaunchFrame s (reserveFor s l) := by
  unfold reserveFor
  dsimp only
  split
  · exact .of_eq rfl rfl rfl rfl
  · exact .refl s

/-- State s at the start of a placement of a launch: its reservation is over (R257). -/
def placing (s : State) (l : Launch) : State :=
  { s with dp := { s.dp with placeSeq := s.dp.placeSeq + 1, reserved := s.dp.reserved.filter (fun r => r.slot != l.slot) } }

/-- What follows the start of a block on a core without a victim leaves the blocks alone (R257, R258). -/
theorem placeOn_one_frame (s : State) (l : Launch) (i c : Nat) (hv : victimOn s c = none) :
    LaunchFrame (startOn l (placing s l) (i, c)) (placeOn s l [(i, c)]) := by
  have vt (t : State) (f v : Nat) : LaunchFrame t (if l.cls == 2 then setVtime t f v else t) := by
    split
    · exact .of_eq rfl rfl rfl rfl
    · exact .refl t
  have ends (t : State) (f : Launch → Launch) (hs : ∀ x, (f x).slot = x.slot) (hc : ∀ x, (f x).closed = x.closed) :
      LaunchFrame t (updLaunch (touchQueue (readTime t).2 l.fn l.queue.toNat) l.slot f) := by
    have ht : LaunchFrame t (readTime t).2 := .of_eq rfl rfl rfl rfl
    exact (ht.trans (touchQueue_frame _ _ _)).trans (updLaunch_frame_of_same hs hc)
  simp only [placeOn, List.filterMap_cons, hv, List.filterMap_nil, List.foldl_nil, List.foldl_cons]
  refine LaunchFrame.trans ?_ (LaunchFrame.foldl reserveFor_frame _ _)
  refine LaunchFrame.trans ?_ (settleFair_frame _)
  refine LaunchFrame.trans ?_ (vt _ _ _)
  exact ends _ _ (fun _ => rfl) (fun _ => rfl)

/-- A pick whose first launch has a free core places its block there (R256, R257). -/
theorem exec_dispatcherPick_one {s : State} {die : BitVec 2} {l : Launch} {i c : Nat} (hd : s.dp.dead.getLsbD die.toNat = false)
    (ho : pickOrder s die.toNat = [l]) (hp : choosePlace s die.toNat l = some [(i, c)]) (hv : victimOn s c = none) :
    exec (.dispatcherPick die) s = .next (placeOn s l [(i, c)]) := by
  have hx : exec (.dispatcherPick die) s = execDispatcherPick die s := rfl
  simp [hx, execDispatcherPick, hd, ho, firstPlaceable, hp, hv, markPassed]

theorem startBlock_phase (s : State) (l : Launch) (i c : Nat) (half : Bool) : (startBlock s l i c half).phase ≠ .none := by
  simp only [startBlock]
  split <;> decide

theorem mem_allBlocks_addBlock (s : State) {b : Block} (h : b.phase ≠ .none) : b ∈ allBlocks (addBlock s b) := by
  unfold addBlock
  split
  · simp [allBlocks, h]
  · simp_all [allBlocks]

theorem LaunchFrame.allBlocks {s t : State} (h : LaunchFrame s t) : allBlocks t = allBlocks s := by
  simp [Machine.allBlocks, h.blk, h.others]

/-- A block starts with ARG in s1, its linear index in s2, and zero in every other scalar (R17). -/
theorem rdS_startBlock (s : State) (l : Launch) (i c : Nat) (half : Bool) (r : SReg) : rdS (startBlock s l i c half) r
    = if r = 1 then l.record.arg else if r = 2 then BitVec.ofNat 64 i else 0 := by
  by_cases h0 : r = 0
  · subst h0; rfl
  · by_cases h1 : r = 1
    · subst h1; rfl
    · by_cases h2 : r = 2
      · subst h2; rfl
      · have h1' : ¬ 1 = r.toNat := fun h => h1 (BitVec.eq_of_toNat_eq h.symm)
        have h2' : ¬ 2 = r.toNat := fun h => h2 (BitVec.eq_of_toNat_eq h.symm)
        have hr : r.toNat < 64 := r.isLt
        rw [if_neg h1, if_neg h2]
        simp [rdS, Block.sCell, startBlock, Block.clear, h1', h2', hr]

end Sys2Proof.Machine
end

section
/-! PROOFS. Dispatchers: blocks that end and go, and dead dies (R22, R245, R254, R260, R265). -/

namespace Sys2Proof.Machine

open Sys2Proof Sys2Proof.Safety

/-! ## Blocks by identity -/

/-- A block after an update of an identity is an old one, or an updated one. -/
theorem mem_allBlocks_updBlock {s : State} {id : BId} {f : Block → Block} {b : Block} (h : b ∈ allBlocks (updBlock s id f)) :
    ∃ x ∈ allBlocks s, b = x ∨ b = f x := by
  by_cases hn : s.blk.phase = .none
  · simp only [updBlock, hn, bne_self_eq_false, Bool.and_false, Bool.false_eq_true, if_false, allBlocks, beq_self_eq_true, if_true,
      List.mem_map] at h ⊢
    obtain ⟨x, hx, rfl⟩ := h
    refine ⟨x, hx, ?_⟩
    split
    · exact .inr rfl
    · exact .inl rfl
  · have hs : allBlocks s = s.blk :: s.others := by simp [allBlocks, hn]
    rw [hs]
    by_cases hi : s.blk.id = id
    · have hu : updBlock s id f = { s with blk := f s.blk } := by simp [updBlock, hi, hn]
      rw [hu, allBlocks] at h
      split at h
      · exact ⟨b, List.mem_cons_of_mem _ h, .inl rfl⟩
      · obtain rfl | hb := List.mem_cons.mp h
        · exact ⟨s.blk, List.mem_cons_self, .inr rfl⟩
        · exact ⟨b, List.mem_cons_of_mem _ hb, .inl rfl⟩
    · have hu : updBlock s id f = { s with others := s.others.map (fun b => if b.id == id then f b else b) } := by
        simp [updBlock, hi]
      rw [hu] at h
      simp only [allBlocks, beq_iff_eq, hn, if_false, List.mem_cons, List.mem_map] at h
      obtain rfl | ⟨x, hx, rfl⟩ := h
      · exact ⟨s.blk, List.mem_cons_self, .inl rfl⟩
      · refine ⟨x, List.mem_cons_of_mem _ hx, ?_⟩
        split
        · exact .inr rfl
        · exact .inl rfl

/-- Where no two blocks have one identity, an update that keeps identities and lets no block go updates the one block of the identity. -/
theorem allBlocks_updBlock {s : State} {id : BId} {f : Block → Block} (hn : ((allBlocks s).map (·.id)).Nodup)
    (hp : ∀ b, b.phase ≠ .none → (f b).phase ≠ .none) :
    allBlocks (updBlock s id f) = (allBlocks s).map (fun b => if b.id = id then f b else b) := by
  by_cases hnone : s.blk.phase = .none
  · simp [updBlock, hnone, allBlocks]
  · have hs : allBlocks s = s.blk :: s.others := by simp [allBlocks, hnone]
    rw [hs] at hn ⊢
    by_cases hi : s.blk.id = id
    · have hu : updBlock s id f = { s with blk := f s.blk } := by simp [updBlock, hi, hnone]
      have hrest : s.others.map (fun b => if b.id = id then f b else b) = s.others := by
        rw [List.map_cons, List.nodup_cons] at hn
        refine (List.map_congr_left (g := fun b => b) fun b hb => if_neg fun hbi => hn.1 ?_).trans (List.map_id' _)
        exact List.mem_map.mpr ⟨b, hb, hbi.trans hi.symm⟩
      rw [hu, List.map_cons, if_pos hi, hrest]
      simp [allBlocks, hp s.blk hnone]
    · simp [updBlock, hi, allBlocks, hnone]

/-! ## The watchdog -/

theorem Block.endBy_id (b : Block) (cause : Nat) : (b.endBy cause).id = b.id := by
  unfold Block.endBy
  dsimp only
  split <;> rfl

theorem Block.endBy_phase (b : Block) (cause : Nat) : (b.endBy cause).phase = .terminated := rfl

/-- Every block among the victims' identities is terminated, and no other comes to life (R254). -/
theorem endAll_dead (p : Block → Prop) (cause : Nat) (vs : List Block) (s : State)
    (hn : ((allBlocks s).map (·.id)).Nodup) (hv : ∀ b ∈ allBlocks s, p b → b.live = true → b.id ∈ vs.map (·.id)) :
    ∀ b ∈ allBlocks (vs.foldl (fun s b => updBlock (abandonWait s b.id) b.id (fun b => b.endBy cause)) s), p b → b.live = false := by
  induction vs generalizing s with
  | nil =>
    intro b hb hpb
    cases hl : b.live with
    | false => rfl
    | true => exact absurd (hv b hb hpb hl) (by simp)
  | cons v vs ih =>
    have ha : allBlocks (abandonWait s v.id) = allBlocks s := by simp [allBlocks]
    have hu := allBlocks_updBlock (s := abandonWait s v.id) (id := v.id) (f := fun b => b.endBy cause) (by rw [ha]; exact hn)
      (fun b _ => by simp [Block.endBy_phase])
    rw [ha] at hu
    refine ih _ ?_ ?_
    · have hm : ((allBlocks s).map (fun b => if b.id = v.id then b.endBy cause else b)).map (·.id) = (allBlocks s).map (·.id) := by
        rw [List.map_map]
        refine List.map_congr_left fun b _ => ?_
        dsimp only [Function.comp]
        split
        · exact b.endBy_id cause
        · rfl
      rw [hu, hm]
      exact hn
    · rw [hu]
      intro b hb hpb hl
      obtain ⟨x, hx, rfl⟩ := List.mem_map.mp hb
      by_cases hi : x.id = v.id
      · rw [if_pos hi] at hl
        simp [Block.live, Block.endBy_phase] at hl
      · rw [if_neg hi] at hpb hl ⊢
        exact (List.mem_cons.mp (hv x hx hpb hl)).resolve_left hi

theorem settleLaunchBarriers_frame (s : State) (launch : Nat) : LaunchFrame s (settleLaunchBarriers s launch) := by
  refine LaunchFrame.foldl (fun s x => ?_) _ s
  split
  · rw [settleBarrier_eq]
    exact .of_eq rfl rfl rfl rfl
  · exact .refl s

/-- When a launch's limit is reached its live blocks end and it places nothing more (R254). -/
theorem exec_watchdogExpiry {s : State} {slot : Nat} {l : Launch} {k : DWord} (hl : findLaunch s slot = some l)
    (hk : l.counting = some k) (hw : l.record.watchdog ≠ 0) (hn : ((allBlocks s).map (·.id)).Nodup) :
    ∃ t, exec (.watchdogExpiry slot) s = .next t ∧ (∀ b ∈ allBlocks t, b.id.launch = slot → b.live = false)
      ∧ (∀ x ∈ t.dp.launches, x.slot = slot → x.closed ≠ none) := by
  have hx : exec (.watchdogExpiry slot) s = execWatchdogExpiry slot s := rfl
  simp only [hx, execWatchdogExpiry, hl, hk, beq_iff_eq, if_neg hw]
  refine ⟨_, rfl, ?_, closeLaunch_closed _ slot 5⟩
  have hf := (settleLaunchBarriers_frame (((allBlocks (reachTime s (k.toNat + (1000 * l.record.watchdog - l.ran)))).filter
    (fun b => b.id.launch == slot && b.live)).foldl (fun s b => updBlock (abandonWait s b.id) b.id (fun b => b.endBy cWATCHDOG))
      (reachTime s (k.toNat + (1000 * l.record.watchdog - l.ran)))) slot).trans (closeLaunch_frame _ slot 5)
  rw [hf.allBlocks]
  refine endAll_dead (fun b => b.id.launch = slot) cWATCHDOG _ _ hn ?_
  intro b hb hs hlive
  exact List.mem_map.mpr ⟨b, List.mem_filter.mpr ⟨hb, by simp [hs, hlive]⟩, rfl⟩

/-! ## Blocks that go, and dead dies -/

theorem tell_guest (s : State) (pkg : Nat) (h : DWord) (body : List Byte) : GuestFrame s (tell s pkg h body) := by
  rw [tell_pe]
  exact rfl

theorem trackLeases_guest (s : State) (h : DWord) : GuestFrame s (trackLeases s h) := by
  unfold trackLeases
  split
  · exact .refl s
  · split
    · exact .refl s
    · unfold writeDesc
      split
      · exact .refl s
      · exact rfl

/-- The end of a block's leases changes the lease tables, the descriptors and the peers' frames alone (R218, R219). -/
theorem closeAll_guest (s : State) (id : BId) : GuestFrame s (closeAll s id) := by
  unfold closeAll
  dsimp only
  refine GuestFrame.trans ?_ (GuestFrame.foldl (fun s h => tell_guest s _ _ _) _ _)
  refine GuestFrame.trans ?_ (GuestFrame.foldl trackLeases_guest _ _)
  exact rfl

theorem closeAll_abandonWait_frame (s : State) (id : BId) : LaunchFrame s (closeAll (abandonWait s id) id) :=
  LaunchFrame.trans (.of_eq (by simp) (by simp) (by simp) (by simp)) (closeAll_guest _ id).launch

theorem dropBlocks_dp (s : State) (p : Block → Bool) : (dropBlocks s p).dp = s.dp := by
  unfold dropBlocks
  dsimp only
  split
  · rfl
  · split <;> rfl

theorem updBlock_dp (s : State) (id : BId) (f : Block → Block) : (updBlock s id f).dp = s.dp := by
  unfold updBlock
  split <;> rfl

/-- The resumption of a victim moves the blocks, the stores and the save slots alone (R260): it changes nothing, or updates a block of a
state with the same blocks. -/
theorem resumeVictim_eq (s : State) (c : Core) (world : BitVec 14) : ∃ u : State, u.blk = s.blk ∧ u.others = s.others ∧ u.dp = s.dp
    ∧ (resumeVictim s c world = u ∨ ∃ id, resumeVictim s c world = updBlock u id Block.goOn) := by
  unfold resumeVictim
  dsimp only
  split
  · exact ⟨{ s with wo := { s.wo with saves := s.wo.saves.filter (fun v => !v.isVictim c world) } }, rfl, rfl, rfl, .inl rfl⟩
  · refine ⟨_, ?_, ?_, ?_, .inr ⟨_, rfl⟩⟩ <;> (dsimp only; split <;> (try split) <;> rfl)

theorem resumeVictim_dp (s : State) (c : Core) (world : BitVec 14) : (resumeVictim s c world).dp = s.dp := by
  obtain ⟨u, -, -, hd, he | ⟨id, he⟩⟩ := resumeVictim_eq s c world
  · rw [he, hd]
  · rw [he, updBlock_dp, hd]

theorem removeBlock_dead (s : State) (b : Block) (status : Nat) : (removeBlock s b status).dp.dead = s.dp.dead := by
  unfold removeBlock
  dsimp only
  rw [(reportBlock_frame _ _ _).dead, resumeVictim_dp, (settleLaunchBarriers_frame _ _).dead, dropBlocks_dp,
    (closeAll_abandonWait_frame s b.id).dead]

theorem removeSaved_dead (s : State) (b : Block) (status : Nat) : (removeSaved s b status).dp.dead = s.dp.dead := by
  unfold removeSaved
  rw [(reportBlock_frame _ _ _).dead, (closeAll_guest s b.id).launch.dead]

theorem foldl_dead {α : Type} {f : State → α → State} (hf : ∀ s x, (f s x).dp.dead = s.dp.dead) (xs : List α) (s : State) :
    (xs.foldl f s).dp.dead = s.dp.dead := by
  induction xs generalizing s with
  | nil => rfl
  | cons x xs ih => rw [List.foldl_cons, ih, hf]

/-- A die that fails is dead from then on (R265). -/
theorem exec_dieFailure (s : State) (die : BitVec 2) : ∃ t, exec (.dieFailure die) s = .next t ∧ t.dp.dead.getLsbD die.toNat = true := by
  have hx : exec (.dieFailure die) s = execDieFailure die s := rfl
  rw [hx]
  unfold execDieFailure
  split
  next h => exact ⟨s, rfl, h⟩
  · refine ⟨_, rfl, ?_⟩
    have hc (s : State) (l : Launch) : (closeLaunch s l.slot 5).dp.dead = s.dp.dead := (closeLaunch_frame s l.slot 5).dead
    have hs (s : State) (b : Block) : (removeSaved s b 3).dp.dead = s.dp.dead := removeSaved_dead s b 3
    have hr (s : State) (b : Block) : (removeBlock s b 3).dp.dead = s.dp.dead := removeBlock_dead s b 3
    simp only [foldl_dead hc, foldl_dead hs, foldl_dead hr]
    rw [getLsbD_setBit _ _ _ (by omega)]
    simp

/-- A block that is taken away is gone. -/
theorem allBlocks_dropBlocks (s : State) (id : BId) : ∀ b ∈ allBlocks (dropBlocks s (fun x => x.id == id)), b.id ≠ id := by
  have ho : ∀ b ∈ s.others.filter (fun b => !(b.id == id)), b.id ≠ id := fun b hb => by simpa using (List.mem_filter.mp hb).2
  intro b hb
  unfold dropBlocks at hb
  dsimp only at hb
  split at hb
  next hk =>
    unfold allBlocks at hb
    dsimp only at hb
    split at hb
    · exact ho b hb
    · obtain rfl | hb := List.mem_cons.mp hb
      · simp_all
      · exact ho b hb
  · split at hb
    next c cs hc =>
      have hcs : ∀ b ∈ c :: cs, b.id ≠ id := hc ▸ ho
      unfold allBlocks at hb
      dsimp only at hb
      split at hb
      · exact hcs b (List.mem_cons_of_mem _ hb)
      · exact hcs b hb
    next hc =>
      unfold allBlocks at hb
      dsimp only at hb
      rw [hc] at hb
      simp [Block.clear] at hb

theorem mem_allBlocks_resumeVictim {s : State} {c : Core} {world : BitVec 14} {b : Block} (h : b ∈ allBlocks (resumeVictim s c world)) :
    ∃ x ∈ allBlocks s, x.id = b.id := by
  obtain ⟨u, hb, ho, -, he | ⟨id, he⟩⟩ := resumeVictim_eq s c world
  · exact ⟨b, by rw [he] at h; simpa [allBlocks, hb, ho] using h, rfl⟩
  · rw [he] at h
    obtain ⟨x, hx, hbx⟩ := mem_allBlocks_updBlock h
    refine ⟨x, by simpa [allBlocks, hb, ho] using hx, ?_⟩
    obtain rfl | rfl := hbx <;> rfl

/-- A block that has retired is gone (R22, R245). -/
theorem allBlocks_removeBlock (s : State) (b : Block) (status : Nat) : ∀ x ∈ allBlocks (removeBlock s b status), x.id ≠ b.id := by
  intro x hx
  unfold removeBlock at hx
  dsimp only at hx
  rw [(reportBlock_frame _ _ _).allBlocks] at hx
  obtain ⟨y, hy, hyx⟩ := mem_allBlocks_resumeVictim hx
  rw [(settleLaunchBarriers_frame _ _).allBlocks] at hy
  rw [← hyx]
  exact allBlocks_dropBlocks _ b.id y hy

end Sys2Proof.Machine
end

section
/-! PROOFS. Dispatchers: the obligation on their events. -/

namespace Sys2Proof.Machine

open Sys2Proof Sys2Proof.Safety

/-! ## The obligation on the dispatchers -/

/-- The notifies of a queue (R247, R248). -/
theorem exec_launchNotify_cases {s : State} {fn : BitVec 6} {q : BitVec 8} {tail : Word} {r : List Nat}
    (hr : queueRec s fn q.toNat = some r) (hj : ∀ j ∈ s.dp.jobs, j.work.key ≠ (DispWork.notify fn q tail).key) :
    (∀ t, qSize r < (tail - (queueEnds s fn q.toNat r).1).toNat → setQueueFlag s fn q.toNat 2 true = .ok t →
      exec (.launchNotify fn q tail) s = .next t)
    ∧ (∀ c, queueCtx s fn q.toNat = some c → (tail - c.head).toNat ≤ qSize r →
      exec (.launchNotify fn q tail) s = .next (updCtx s fn q.toNat (fun x => { x with tail := tail, busyAt := s.tm.dtime })))
    ∧ (∀ u w, queueCtx s fn q.toNat = none → (tail - (queueEnds s fn q.toNat r).1).toNat ≤ qSize r →
      setQueueWord s fn q.toNat 2 (setBits (r.getD 2 0) 0 32 tail.toNat) = .ok u → w = scanPending u (qDie r) →
        ((queueCtx w fn q.toNat).isSome = true → exec (.launchNotify fn q tail) s = .next w)
        ∧ (∀ v, queueCtx w fn q.toNat = none → setQueueFlag w fn q.toNat 0 true = .ok v →
          exec (.launchNotify fn q tail) s = .next (mapped v (fn, q.toNat)))) := by
  refine ⟨fun t hover ht => ?_, fun c hc hle => ?_, fun u w hc hle hu hw => ⟨fun hm => ?_, fun v hm hv => ?_⟩⟩
  · exact exec_launchNotify hj ((tryNotify_over hr hover).trans ht)
  · exact exec_launchNotify hj (tryNotify_mapped hr hc hle)
  · exact exec_launchNotify hj ((tryNotify_unmapped hr hc hle hu hw).trans (if_pos hm))
  · refine exec_launchNotify hj ((tryNotify_unmapped hr hc hle hu hw).trans ?_)
    rw [hm, hv]
    rfl

/-- The first steps of an admitted record (R249, R251, R265). -/
theorem admitRecord_cases {s s₁ : State} {fn : BitVec 6} {q : Nat} {seq : Word} {r : LaunchRec} {late : Option MoveRef} {l : Launch}
    (hfresh : ∀ x ∈ s.dp.launches, x.slot ≠ s.dp.nextSlot)
    (hl : l = { slot := s.dp.nextSlot, fn := fn, queue := BitVec.ofNat 8 q, seq := seq, record := r, world := fnWorld s fn,
                part := fnPart s fn, cls := r.cls, deadline := BitVec.ofNat 64 r.deadline, nextGroup := 0, reports := [], dieMask := 0,
                gturn := 0, closed := none, ending := none, statusDue := [], remote := none, counting := none, ran := 0,
                passedOver := none, late := late, counted := false })
    (hs₁ : s₁ = { s with dp := { s.dp with nextSlot := s.dp.nextSlot + 1, launches := s.dp.launches ++ [l] } }) :
    (recordReason s₁ fn l.part r ≠ 0 → admitRecord s fn q seq r late false = completeLaunch s₁ l (recordReason s₁ fn l.part r))
    ∧ (∀ d st s₂, recordReason s₁ fn l.part r = 0 → r.status = 0 →
      resolve s₁ (dispWho (launchDie s₁ l) l.world) r.code 0 = (.ok d st, s₂) → s₂.dp = s₁.dp → dKind d = kCode → canRead d l.world = true →
      badEntry r d = false →
        (partLives s₂ l.part = true → findLaunch (admitRecord s fn q seq r late false) l.slot = some { l with counted := true })
        ∧ (partLives s₂ l.part = false →
          ∀ x, findLaunch (admitRecord s fn q seq r late false) l.slot = some x → x.closed = some 5)) := by
  have ha : admitRecord s fn q seq r late false = checkLaunch s₁ l := by subst hs₁ hl; rfl
  have hfn : l.fn = fn := by rw [hl]
  have hrec : l.record = r := by rw [hl]
  have hopen : l.closed = none := by rw [hl]
  have hslot : ∀ x ∈ s.dp.launches, x.slot ≠ l.slot := by rw [hl]; exact hfresh
  have hlast : s₁.dp.launches = s.dp.launches ++ [l] := by rw [hs₁]
  rw [ha]
  subst hfn hrec
  refine ⟨checkLaunch_refused, fun d st s₂ hreason hstatus hres hdp hkind hread hentry => ?_⟩
  have hlast₂ : s₂.dp.launches = s.dp.launches ++ [l] := by rw [hdp, hlast]
  rw [checkLaunch_accepted hreason hstatus hres hkind hread hentry]
  refine ⟨fun hlive => ?_, fun hlost x hx => ?_⟩
  · rw [acceptLaunch_lives hlive]
    exact findLaunch_counts hslot hlast₂
  · rw [acceptLaunch_lost hlost] at hx
    exact findLaunch_closed hslot hlast₂ hopen hx

/-- A queue that is unmapped has no context, and its launches, the blocks and the time's advance stay (R248). -/
theorem exec_queueUnmap_cases {s : State} {fn : BitVec 6} {q : BitVec 8} {c : QueueCtx} (hc : queueCtx s fn q.toNat = some c)
    (he : c.head = c.tail) (hb : queueBusy s fn q = false) (hh : queueHeld s fn q = false) :
    ∃ t, exec (.queueUnmap fn q) s = .next t ∧ queueCtx t fn q.toNat = none ∧ t.dp.launches = s.dp.launches ∧ t.blk = s.blk
      ∧ min (c.busyAt.toNat + 10000) (2 ^ 64 - 1) ≤ t.tm.dtime.toNat := by
  have hw := doWork_unmap_parked { reachTime s (c.busyAt.toNat + idleTime) with
    dp := { s.dp with ctxs := s.dp.ctxs.filter (fun x => !(x.fn == fn && x.queue == q)) } } fn q c.head c.tail
  refine ⟨_, exec_queueUnmap hc he hb hh, ?_⟩
  rw [hw]
  refine ⟨queueCtx_filtered ?_, rfl, rfl, dtime_reachTime s _⟩
  simp [List.filter_filter]

/-- A pick starts the block of the next index with its scalars (R17, R257). -/
theorem exec_dispatcherPick_cases {s : State} {die : BitVec 2} {l : Launch} {i c : Nat} (hd : s.dp.dead.getLsbD die.toNat = false)
    (ho : pickOrder s die.toNat = [l]) (hp : choosePlace s die.toNat l = some [(i, c)]) (hv : victimOn s c = none) :
    ∃ t, exec (.dispatcherPick die) s = .next t ∧ ∃ b ∈ allBlocks t, b.id = ⟨l.slot, i⟩ ∧ b.core = BitVec.ofNat 12 c
      ∧ rdS b 1 = l.record.arg ∧ rdS b 2 = BitVec.ofNat 64 i ∧ b.pc = BitVec.ofNat 32 l.record.entry ∧ b.world = l.world
      ∧ b.nsq = l.record.nsq ∧ ∀ r, r ≠ 1 → r ≠ 2 → rdS b r = 0 := by
  obtain ⟨half, hstart⟩ : ∃ half, startOn l (placing s l) (i, c)
      = addBlock (placing s l) (startBlock (placing s l) l i c half) := ⟨_, rfl⟩
  refine ⟨_, exec_dispatcherPick_one hd ho hp hv, startBlock (placing s l) l i c half, ?_, rfl, rfl, ?_, ?_, rfl, rfl, rfl, ?_⟩
  · rw [(placeOn_one_frame s l i c hv).allBlocks, hstart]
    exact mem_allBlocks_addBlock _ (startBlock_phase _ l i c half)
  · simp [rdS_startBlock]
  · simp [rdS_startBlock]
  · intro r h1 h2
    rw [rdS_startBlock, if_neg h1, if_neg h2]

/-- Settles O50: each event through the lemma on its step. -/
theorem dispatchers : Obligations.Dispatchers := by
  unfold Obligations.Dispatchers
  refine ⟨fun s fn q tail r hr hj => exec_launchNotify_cases hr hj,
    fun s fn q r c bs hr hc hne hf hh hb => exec_launchAdmission hr hc hne hf hh hb,
    fun s fn q seq r late l hfresh hl s₁ hs₁ => admitRecord_cases hfresh hl hs₁,
    fun s fn q c hc he hb hh => exec_queueUnmap_cases hc he hb hh, ?_,
    fun s die l i c hd ho hp hv => exec_dispatcherPick_cases hd ho hp hv, ?_,
    fun s slot l k hl hk hw hn => exec_watchdogExpiry hl hk hw hn, exec_dieFailure, ?_, fun b => retireStatus_quiet,
    fun s p => exec_accessReplay_strand, fun s k l => exec_accessReplay_load⟩
  case refine_1 =>
    intro s die fn base r a u ht hr hp hd hc hk hf hg hpoison
    have hw := setQueueWord_one (k := 5) (v := setBits (setBits (r.getD 5 0) 0 1 0) 1 1 1) ht hg hpoison
    have hx : exec (.pendingScan die) s = .next (scanPending s die.toNat) := rfl
    rw [hx, scanPending_one ht hr hp hd hc, mapped_of_ok hr hk hc hf hw, hd, BitVec.ofNat_toNat, BitVec.setWidth_eq]
    rfl
  case refine_2 =>
    intro s slot l k s₁ size f hl hk hlk he hr hs₁ hw hz hf ht hg
    subst hs₁
    obtain ⟨g, hres, hgang⟩ := reserveFor_open (s := reachTime s (k.toNat + 100000)) hz hf ht hg
    refine ⟨_, g, (exec_gangReservation hl hk hlk he hr hw).trans (congrArg _ hres), rfl, rfl, rfl, hgang⟩
  case refine_3 =>
    intro s st hst
    have hx : exec .blockRetirement s = execBlockRetirement s := rfl
    refine ⟨_, ?_, rfl, allBlocks_removeBlock s s.blk st⟩
    rw [hx, execBlockRetirement, hst]

end Sys2Proof.Machine
end

section
/-! PROOFS. The machine after reset (R44, R48, R52, R81, R82, R96, R187, R306, R330). -/

namespace Sys2Proof.Machine

open Sys2Proof Sys2Proof.Safety

/-! ## Reset -/

theorem Block.sCell_reset (r : SReg) : State.reset.blk.sCell r = ⟨0, 0, false⟩ := by
  simp [Block.sCell, State.reset, Block.clear, r.isLt]

theorem Block.pCell_reset {p : PReg} (hp : p ≠ 0) : State.reset.blk.pCell p = ⟨0, 0, false⟩ := by
  have h0 : 0 ≠ p.toNat := fun h => hp (BitVec.eq_of_toNat_eq h.symm)
  unfold Block.pCell State.reset Block.clear
  dsimp only
  rw [Vector.getElem?_setIfInBounds_ne h0, Vector.getElem?_replicate]
  split <;> rfl

/-- An address that no cell lists reads as R187 has it: nothing behind the on-chip stores, and zero in them. -/
theorem read_reset (a : Nat) : Memory.read State.reset.mem a = if isDram a then none else some 0 := rfl

theorem partOf_reset (p : BitVec 4) : partOf State.reset p = .reset := by
  simp [partOf, State.reset, p.isLt]

/-- Settles O1: no register, byte, full/empty bit or partition of the reset state depends on its number, but for p0. -/
theorem resetState : Obligations.ResetState := by
  unfold Obligations.ResetState
  refine ⟨fun r => ?_, fun p => ?_, rfl, rfl, rfl, rfl, rfl, rfl, fun a h => ?_, fun a h => ?_, fun a => rfl, Memory.wf_reset,
    rfl, rfl, rfl, fun p => ?_⟩
  · simp [rdS, taintS, deadS, Block.sCell_reset]
  · by_cases hp : p = 0
    · simp [rdP, hp]
    · simp [rdP, Block.pCell_reset hp]
  · simp [read_reset, h]
  · simp [read_reset, h]
  · rw [partOf_reset]; exact ⟨rfl, rfl⟩

end Sys2Proof.Machine
end

section
/-! PROOFS. Control registers and `kill` (R44, R48, R52, R64, R95, R115-R117). -/

namespace Sys2Proof.Machine

open Sys2Proof Sys2Proof.Safety

/-! ## Control registers -/

theorem exec_setc (cr : CReg) (sa : SReg) (s : State) : exec (.setc cr sa) s = execSetc cr sa s := rfl
theorem exec_kill (cls : KillClass) (mask : BitVec 32) (s : State) : exec (.kill cls mask) s = execKill cls mask s := rfl

/-- A value that `setc` accepts fits the bits of the register that are not reserved (R116). -/
theorem toNat_lt_of_setc {cr : CReg} {v : DWord} (h : setcRefused cr v = false) : v.toNat < 2 ^ fieldBitsOf cr := by
  simp only [setcRefused, Bool.or_eq_false_iff, bne_eq_false_iff_eq, Nat.div_eq_zero_iff] at h
  have := Nat.two_pow_pos (fieldBitsOf cr)
  omega

/-- What an accepted `setc` writes, register by register: the fields that are writable, and nothing else (R44, R48, R52, R116). -/
theorem writeCReg_accepted {b : Block} {cr : CReg} {v : DWord} (h : setcRefused cr v = false) : writeCReg b cr v = { b with
    rm := if cr = .fpctl then v.setWidth 3 else b.rm
    fpstat := if cr = .fpstat then b.fpstat &&& ~~~(v.setWidth 7) else b.fpstat
    lfsr := if cr = .srlfsr then (if v = 0 then 1 else v.setWidth 32) else b.lfsr
    deadMode := if cr = .deadMode then decide (v = 1) else b.deadMode
    trapPc := if cr = .trapPc then v.setWidth 32 else b.trapPc } := by
  have hv := toNat_lt_of_setc h
  cases cr
  case srlfsr =>
    have hz : (v.setWidth 32 == (0 : Word)) = decide (v = 0) := by
      have hv : v.toNat < 2 ^ 32 := hv
      rw [Bool.eq_iff_iff, beq_iff_eq, decide_eq_true_eq]; bv_omega
    simp only [writeCReg, hz, decide_eq_true_eq]
    rfl
  case deadMode =>
    have ho : v.getLsbD 0 = decide (v = 1) := by
      have hv : v.toNat < 2 ^ 1 := hv
      rw [BitVec.getLsbD, Nat.testBit_zero, decide_eq_decide]; bv_omega
    simp only [writeCReg, ho]
    rfl
  all_goals rfl

/-- An accepted `setc` folds its source's set and writes the register (R116). -/
theorem execSetc_accepted {s : State} {cr : CReg} {sa : SReg} (hr : Ready s.blk [sa] [] [] [])
    (h : setcRefused cr (rdS s.blk sa) = false) : execSetc cr sa s
      = doneB s (writeCReg (s.blk.foldSet (taintS s.blk sa ||| s.blk.wrap.getD 0)) cr (rdS s.blk sa)) 4 := by
  simp only [execSetc]
  rw [withRegs_ready _ hr, h]
  rfl

/-- A refused one traps with its value (R116). -/
theorem execSetc_refused {s : State} {cr : CReg} {sa : SReg} (hr : Ready s.blk [sa] [] [] [])
    (h : setcRefused cr (rdS s.blk sa) = true) : execSetc cr sa s = strandTrap cOPERAND (rdS s.blk sa) s := by
  simp only [execSetc]
  rw [withRegs_ready _ hr, h]
  rfl

/-! ## `kill` -/

theorem mem_maskBits {mask : BitVec 32} {i : Nat} : i ∈ maskBits mask ↔ mask.getLsbD i = true := by
  simp only [maskBits, List.mem_filter, List.mem_range, and_iff_right_iff_imp]
  exact BitVec.lt_of_getLsbD

/-- The high halves of the scalars and predicates: bit i of the mask names register 32 + i (R64). -/
theorem mem_maskBits_high {mask : BitVec 32} {i : Nat} :
    i ∈ (maskBits mask).map (· + 32) ↔ 32 ≤ i ∧ mask.getLsbD (i - 32) = true := by
  simp only [List.mem_map, mem_maskBits]
  constructor
  · rintro ⟨j, hj, rfl⟩
    exact ⟨by omega, by simpa using hj⟩
  · rintro ⟨hi, hm⟩
    exact ⟨i - 32, hm, by omega⟩

/-- A register file with one cell put at the numbers of a list. -/
theorem getD_foldl_setIfInBounds {α : Type} {n j : Nat} (c d : α) (is : List Nat) (v : Vector α n) (hj : j < n) :
    ((is.foldl (fun v i => v.setIfInBounds i c) v)[j]?).getD d = if j ∈ is then c else (v[j]?).getD d := by
  induction is generalizing v with
  | nil => simp
  | cons i is ih =>
    rw [List.foldl_cons, ih, Vector.getElem?_setIfInBounds]
    by_cases hi : i = j
    · simp [hi, hj]
    · simp [hi, Ne.symm hi]

/-! Which cells each class and mask make dead (R64, R95). -/

theorem Block.sCell_kill_low (b : Block) (mask : BitVec 32) (r : SReg) : (killRegs b .sLow mask).sCell r =
    if r.toNat < 32 ∧ mask.getLsbD r.toNat = true then ⟨0, 0, true⟩ else b.sCell r := by
  refine (getD_foldl_setIfInBounds _ _ _ b.s r.isLt).trans ?_
  simp only [mem_maskBits, and_iff_right_of_imp BitVec.lt_of_getLsbD]
  rfl

theorem Block.sCell_kill_high (b : Block) (mask : BitVec 32) (r : SReg) : (killRegs b .sHigh mask).sCell r =
    if 32 ≤ r.toNat ∧ mask.getLsbD (r.toNat - 32) = true then ⟨0, 0, true⟩ else b.sCell r := by
  refine (getD_foldl_setIfInBounds _ _ _ b.s r.isLt).trans ?_
  simp only [mem_maskBits_high]
  rfl

theorem Block.pCell_kill_low (b : Block) (mask : BitVec 32) (p : PReg) : (killRegs b .pLow mask).pCell p =
    if p.toNat < 32 ∧ mask.getLsbD p.toNat = true then ⟨0, 0, true⟩ else b.pCell p := by
  by_cases hp : p.toNat < 48
  · refine (getD_foldl_setIfInBounds _ _ _ b.p hp).trans ?_
    simp only [mem_maskBits, and_iff_right_of_imp BitVec.lt_of_getLsbD]
    rfl
  · rw [if_neg (by omega)]
    simp [Block.pCell, hp]

theorem Block.pCell_kill_high (b : Block) (mask : BitVec 32) (p : PReg) : (killRegs b .pHigh mask).pCell p =
    if 32 ≤ p.toNat ∧ p.toNat < 48 ∧ mask.getLsbD (p.toNat - 32) = true then ⟨0, 0, true⟩ else b.pCell p := by
  by_cases hp : p.toNat < 48
  · refine (getD_foldl_setIfInBounds _ _ _ b.p hp).trans ?_
    simp only [mem_maskBits_high, hp, true_and]
    rfl
  · rw [if_neg (by omega)]
    simp [Block.pCell, hp]

theorem Block.hCell_kill (b : Block) (mask : BitVec 32) (r : BitVec 4) : (killRegs b .h mask).hCell r =
    if mask.getLsbD r.toNat = true then ⟨0, 0, 0, false, true⟩ else b.hCell r := by
  refine (getD_foldl_setIfInBounds _ _ _ b.h r.isLt).trans ?_
  simp only [mem_maskBits]
  rfl

theorem Block.dCell_kill (b : Block) (mask : BitVec 32) (r : BitVec 4) : (killRegs b .d mask).dCell r =
    if mask.getLsbD r.toNat = true then ⟨0, true⟩ else b.dCell r := by
  refine (getD_foldl_setIfInBounds _ _ _ b.d r.isLt).trans ?_
  simp only [mem_maskBits]
  rfl

theorem Block.qCell_kill (b : Block) (mask : BitVec 32) (r : BitVec 3) : (killRegs b .q mask).qCell r =
    if mask.getLsbD r.toNat = true then ⟨0, true⟩ else b.qCell r := by
  refine (getD_foldl_setIfInBounds _ _ _ b.q r.isLt).trans ?_
  simp only [mem_maskBits]
  rfl

/-- A `kill` that waits for nothing marks its registers and goes on by its 8 bytes (R117). -/
theorem exec_kill_ready {s : State} {cls : KillClass} {mask : BitVec 32} (hs : ∀ r ∈ killedS cls mask, busyS s.blk r = false)
    (hp : ∀ p ∈ killedP cls mask, busyP s.blk p = false) :
    exec (.kill cls mask) s = .next { s with blk := (killRegs s.blk cls mask).adv 8 } := by
  rw [exec_kill, execKill, withRegs_ready _ ⟨by simpa using hs, by simpa using hp, by simp⟩]
  rfl

/-- A mask that names s0 or p0 is no instruction (R64). -/
theorem decodeWords_kill_zero {mask : Word} (h : mask.getLsbD 0 = true) :
    (decodeWords 0x0000000B mask).toOption = none ∧ (decodeWords 0x0000020B mask).toOption = none := by
  have hz : ¬ mask &&& 0x00000001 = 0 := by
    intro e
    have h0 : (mask &&& 0x00000001).getLsbD 0 = (0 : Word).getLsbD 0 := by rw [e]
    rw [BitVec.getLsbD_and, h] at h0
    exact absurd h0 (by decide)
  have hs : decodeWords 0x0000000B mask = accept (.kill .sLow mask) := rfl
  have hp : decodeWords 0x0000020B mask = accept (.kill .pLow mask) := rfl
  rw [hs, hp]
  simp only [accept, Instr.wf, KillClass.zeroBits, beq_iff_eq, hz, if_false]
  exact ⟨rfl, rfl⟩

/-- Settles O19: each instruction waits for nothing, so that it writes its register or marks those that its mask names. -/
theorem controlRegisters : Obligations.ControlRegisters := by
  unfold Obligations.ControlRegisters
  refine ⟨⟨fun s sd cr hr => withRegs_ready _ hr, fun s cr sa b hr h hb => ?_, fun s cr sa hr h => execSetc_refused hr h,
      fun s => ⟨rfl, rfl, rfl, rfl, rfl⟩⟩, fun s mask hb => ⟨fun _ => ?_, ?_⟩, fun s mask hb => ⟨fun _ => ?_, ?_⟩,
    fun s mask => ⟨?_, ?_, ?_⟩, fun mask => decodeWords_kill_zero⟩
  case refine_1 =>
    subst hb
    obtain ⟨f, n, l, hf⟩ := s.blk.foldSet_fields (taintS s.blk sa ||| s.blk.wrap.getD 0)
    refine ⟨_, (exec_setc cr sa s).trans (execSetc_accepted hr h), rfl, ?_⟩
    rw [writeCReg_accepted h, hf]
    rfl
  case refine_2 => exact ⟨_, exec_kill_ready (fun r _ => hb r) (by simp [killedP]), rfl, s.blk.sCell_kill_low mask⟩
  case refine_3 => exact ⟨_, exec_kill_ready (fun r _ => hb r) (by simp [killedP]), rfl, s.blk.sCell_kill_high mask⟩
  case refine_4 => exact ⟨_, exec_kill_ready (by simp [killedS]) (fun p _ => hb p), rfl, s.blk.pCell_kill_low mask⟩
  case refine_5 => exact ⟨_, exec_kill_ready (by simp [killedS]) (fun p _ => hb p), rfl, s.blk.pCell_kill_high mask⟩
  case refine_6 => exact ⟨_, exec_kill_ready (by simp [killedS]) (by simp [killedP]), rfl, s.blk.hCell_kill mask⟩
  case refine_7 => exact ⟨_, exec_kill_ready (by simp [killedS]) (by simp [killedP]), rfl, s.blk.dCell_kill mask⟩
  case refine_8 => exact ⟨_, exec_kill_ready (by simp [killedS]) (by simp [killedP]), rfl, s.blk.qCell_kill mask⟩

end Sys2Proof.Machine
end

section
/-! PROOFS. Tiles and banks: a product whose tile is FP16 and whose operands are INT8 (R56, R152, R154). -/

namespace Sys2Proof.Machine

open Sys2Proof Sys2Proof.Safety

/-! ## An INT8 product in an FP16 tile -/

/-- A lane of a row lies below 2^w (R89). -/
theorem lanesOf_getD_lt (w : Nat) (bs : List Byte) (j : Nat) : (lanesOf w bs).getD j 0 < 2 ^ w := by
  simp only [lanesOf, unpackElems, List.getD_eq_getElem?_getD, List.getElem?_map]
  cases (List.range (1024 / w))[j]? with
  | none => exact Nat.two_pow_pos w
  | some i => exact Nat.mod_lt _ (Nat.two_pow_pos w)

/-- An `mmul` of unsigned INT8 rows (format code 4) at scratchpad offset 0 with K = 32 whose AF asks for an FP16 tile. No such command
starts: step 4 of its checks reports FORMAT (R152, R154). -/
def int8IntoFp16 : Cmd :=
  { instr := .mmul ⟨false, false, 0, none, none⟩ ⟨true, 0, 1, 0, 2⟩, eng := .M, n := 0, qno := 0, addr := 0, off := false, depth := 16,
    rm := 0, deadMode := false, mask := BitVec.allOnes 128, sx := 0, si := [], sy := [], dA := BitVec.ofNat 128 (4 * 2 ^ 64),
    dB := BitVec.ofNat 128 (4 * 2 ^ 64), dX := 0, shape := 0, ha := 0, hb := 0, g := GCell.zero, taint := 0, wtaint := 0, draw := 0,
    req := 0, waits := [], popped := false, noPush := false, skipEnd := false, fault := none, moved := 0, buf := [], flags := 0,
    dest := [], park := none, remote := none, reply := none, oldDesc := false, checked := 0, pend := false }

/-- It runs on a block whose scratchpad starts with two bytes 255, so that each element of its product is 2 * 255 * 255. -/
def runsInt8IntoFp16 : State :=
  { State.reset with
    blk := { Block.clear with phase := .running, eM := { q := [], run := some int8IntoFp16, trail := [], next := 1 } },
    mem := [(2 ^ 57, 255), (2 ^ 57 + 1, 255)] }

theorem runsInt8IntoFp16_runsIn : RunsIn runsInt8IntoFp16 .M int8IntoFp16 := by
  unfold RunsIn
  decide +kernel

/-- What the clause on products does not ask for: that the command has passed its checks at start (R152, R154). -/
theorem mStartFault_int8IntoFp16 : mStartFault runsInt8IntoFp16 int8IntoFp16 = some (cFORMAT, 4) := by decide +kernel

/-- The sum of the clause on products is kept to 32 bits, and here exceeds a lane of 16. -/
theorem accumulate_int8IntoFp16 :
    (accumulate accInt ((lanesOf 16 (((rdBank runsInt8IntoFp16 2).drop (128 * 0)).take 128)).getD 0 0)
      (blocksOf 32 (32 / 32) ((rowOfA runsInt8IntoFp16 int8IntoFp16 32 0).map (·.1)))
      (blocksOf 32 (32 / 32) ((rowVals runsInt8IntoFp16 int8IntoFp16.dB 0 32).map (·.1)))).1 = 130050 := by
  decide +kernel

/-- Refutes O46: its clause on products takes any running command, and one of INT8 operands with AF, which fails its checks at start
(R152, R154), has 32-bit sums in 16-bit lanes. -/
theorem not_tilesAndBanks : ¬ Obligations.TilesAndBanks := by
  unfold Obligations.TilesAndBanks
  rintro ⟨-, hproduct, -⟩
  obtain ⟨t, -, hlanes, -⟩ := hproduct runsInt8IntoFp16 int8IntoFp16 ⟨true, 0, 1, 0, 2⟩ .i8 32 64 16 32 accInt
    runsInt8IntoFp16_runsIn rfl rfl (by decide) rfl rfl rfl rfl rfl
  have hlane := hlanes 0 0 (by decide) (by decide)
  rw [accumulate_int8IntoFp16] at hlane
  have hlt := lanesOf_getD_lt 16 (((rdBank t 2).drop (128 * 0)).take 128) 0
  exact absurd (hlane ▸ hlt) (by decide)

end Sys2Proof.Machine
end

section
/-! PROOFS. Integer lanes as bit vectors (R40, R46, R135, R137). -/

namespace Sys2Proof.Machine

open Sys2Proof Sys2Proof.Safety

/-! ## Integers of a lane -/

theorem bitAt_eq_testBit (n i : Nat) : bitAt n i = n.testBit i := by
  rw [Nat.testBit_eq_decide_div_mod_eq]
  rfl

theorem bits_zero (n w : Nat) : bits n 0 w = n % 2 ^ w := by rw [bits, Nat.pow_zero, Nat.div_one]

theorem two_pow_cast (w : Nat) : ((2 ^ w : Nat) : Int) = (2 : Int) ^ w := Int.natCast_pow 2 w

theorem two_pow_int_pos (w : Nat) : 0 < (2 : Int) ^ w := by
  rw [← two_pow_cast]
  exact Int.natCast_pos.2 (Nat.two_pow_pos w)

/-- `Wrap` gives the bit vector of a number, and an encoding's value with a sign is that of its bit vector (R40). -/
theorem wrap_eq_ofInt (w : Nat) (x : Int) : wrap w x = (BitVec.ofInt w x).toNat := by
  rw [BitVec.toNat_ofInt, wrap, two_pow_cast]

theorem intVal_eq_toInt {w : Nat} (hw : 0 < w) (a : Nat) : intVal true w a = (BitVec.ofNat w a).toInt := by
  have hmsb : (BitVec.ofNat w a).msb = bitAt a (w - 1) := by
    rw [BitVec.msb_eq_getLsbD_last, BitVec.getLsbD_ofNat, bitAt_eq_testBit, decide_eq_true (Nat.sub_lt hw Nat.one_pos), Bool.true_and]
  rw [BitVec.toInt_eq_msb_cond, hmsb, BitVec.toNat_ofNat, intVal, bits_zero, Bool.true_and, two_pow_cast]

/-- Wrapping takes an encoding's value back to the encoding. -/
theorem wrap_intVal {w a : Nat} (hw : 0 < w) (ha : a < 2 ^ w) : wrap w (intVal true w a) = a := by
  rw [wrap_eq_ofInt, intVal_eq_toInt hw, BitVec.ofInt_toInt, BitVec.toNat_ofNat, Nat.mod_eq_of_lt ha]

theorem wrap_of_nonneg {w : Nat} {x : Int} (h0 : 0 ≤ x) (hx : x < 2 ^ w) : wrap w x = x.toNat := by
  rw [wrap, Int.emod_eq_of_lt h0 hx]

/-- `SatI` is the number clamped, with SAT where it was outside (R40). -/
theorem sat_signed (w : Nat) (x : Int) : sat true w x =
    ((BitVec.ofInt w (max (-(2 : Int) ^ (w - 1)) (min ((2 : Int) ^ (w - 1) - 1) x))).toNat,
      if x < -(2 : Int) ^ (w - 1) ∨ (2 : Int) ^ (w - 1) - 1 < x then fSAT else 0) := by
  have hp := two_pow_int_pos (w - 1)
  simp only [sat, intMin, intMax, if_true, wrap_eq_ofInt]
  generalize (2 : Int) ^ (w - 1) = p at hp
  split
  · rw [show max (-p) (min (p - 1) x) = -p by omega, if_pos (by omega)]
  · split
    · rw [show max (-p) (min (p - 1) x) = p - 1 by omega, if_pos (by omega)]
    · rw [show max (-p) (min (p - 1) x) = x by omega, if_neg (by omega)]

/-- `SatN` of a number not below zero. -/
theorem sat_unsigned (w n : Nat) : sat false w (n : Int) = (min n (2 ^ w - 1), if 2 ^ w ≤ n then fSAT else 0) := by
  have hp := Nat.two_pow_pos w
  have hpow := two_pow_cast w
  simp only [sat, intMin, intMax, Bool.false_eq_true, if_false]
  rw [if_neg (by omega)]
  split
  · rename_i h
    rw [wrap_of_nonneg (by omega) (by omega), if_pos (by omega)]
    congr 1
    omega
  · rw [wrap_of_nonneg (by omega) (by omega), if_neg (by omega)]
    congr 1
    omega

theorem sat_unsigned_neg {w : Nat} {x : Int} (h : x < 0) : sat false w x = (0, fSAT) := by
  simp only [sat, intMin, Bool.false_eq_true, if_false, if_pos h]
  rw [wrap_of_nonneg (Int.le_refl 0) (two_pow_int_pos w)]
  rfl

/-! ## Integer lanes -/

theorem laneOp_int {i : Instr} {t : ElemT} {mode : RMode} {a b d : Nat} (h : elemFmt? t = none) (hi : ∀ h o, i ≠ .vmov h o) :
    laneOp i t mode a b d = intLane i (elemWidth t) a b := by
  unfold laneOp
  split
  · exact absurd rfl (hi _ _)
  · simp_all
  · rfl

theorem elemWidth_pos (t : ElemT) : 0 < elemWidth t := by cases t <;> decide

theorem wrap_add {w a b : Nat} (hw : 0 < w) : wrap w (intVal true w a + intVal true w b) = (a + b) % 2 ^ w := by
  rw [wrap_eq_ofInt, intVal_eq_toInt hw, intVal_eq_toInt hw, BitVec.ofInt_add, BitVec.ofInt_toInt, BitVec.ofInt_toInt, BitVec.toNat_add,
    BitVec.toNat_ofNat, BitVec.toNat_ofNat, ← Nat.add_mod]

theorem wrap_sub {w a b : Nat} (hw : 0 < w) (hb : b < 2 ^ w) :
    wrap w (intVal true w a - intVal true w b) = (a + (2 ^ w - b)) % 2 ^ w := by
  rw [wrap_eq_ofInt, intVal_eq_toInt hw, intVal_eq_toInt hw, Int.sub_eq_add_neg, BitVec.ofInt_add, BitVec.ofInt_neg, BitVec.ofInt_toInt,
    BitVec.ofInt_toInt, ← BitVec.sub_eq_add_neg, BitVec.toNat_sub, BitVec.toNat_ofNat, BitVec.toNat_ofNat, Nat.mod_eq_of_lt hb,
    Nat.add_mod_mod, Nat.add_comm]

theorem wrap_mul {w a b : Nat} (hw : 0 < w) : wrap w (intVal true w a * intVal true w b) = a * b % 2 ^ w := by
  rw [wrap_eq_ofInt, intVal_eq_toInt hw, intVal_eq_toInt hw, BitVec.ofInt_mul, BitVec.ofInt_toInt, BitVec.ofInt_toInt, BitVec.toNat_mul,
    BitVec.toNat_ofNat, BitVec.toNat_ofNat, ← Nat.mul_mod]

theorem wrap_neg {w a : Nat} (hw : 0 < w) (ha : a < 2 ^ w) : wrap w (-intVal true w a) = (2 ^ w - a) % 2 ^ w := by
  rw [wrap_eq_ofInt, intVal_eq_toInt hw, BitVec.ofInt_neg, BitVec.ofInt_toInt, BitVec.toNat_neg, BitVec.toNat_ofNat, Nat.mod_eq_of_lt ha]

theorem wrap_shl (w a b : Nat) : wrap w (a * 2 ^ b) = a * 2 ^ b % 2 ^ w := by
  rw [wrap, ← two_pow_cast, ← two_pow_cast, ← Int.natCast_mul, ← Int.natCast_emod, Int.toNat_natCast]

/-- A logical shift by the lane's width or more leaves nothing, as the division does (R135). -/
theorem shr_eq_div {w a : Nat} (b : Nat) (ha : a < 2 ^ w) : (if b < w then a / 2 ^ b else 0) = a / 2 ^ b := by
  split
  · rfl
  · rw [Nat.div_eq_of_lt (Nat.lt_of_lt_of_le ha (Nat.pow_le_pow_right (by decide) (by omega)))]

/-- A number shifted right by its whole width leaves its sign. -/
theorem ediv_of_lt {x q : Int} (hq : 0 < q) (hlo : -q ≤ x) (hhi : x < q) : x / q = if x < 0 then -1 else 0 := by
  split
  · exact ((Int.ediv_emod_unique hq (r := x + q)).2 ⟨by omega, by omega, by omega⟩).1
  · exact Int.ediv_eq_zero_of_lt (by omega) hhi

/-- So an arithmetic shift by more than the lane's width is one by the width (R135). -/
theorem toInt_div_min {w : Nat} (x : BitVec w) (b : Nat) : x.toInt / (2 : Int) ^ min b w = x.toInt >>> b := by
  rw [Int.shiftRight_eq_div_pow, two_pow_cast]
  rcases Nat.le_total b w with h | h
  · rw [Nat.min_eq_left h]
  · have hw : 2 ^ (w - 1) ≤ 2 ^ w := Nat.pow_le_pow_right Nat.two_pos (Nat.sub_le w 1)
    have hb : 2 ^ w ≤ 2 ^ b := Nat.pow_le_pow_right Nat.two_pos h
    have hlo := x.le_toInt
    have hhi := x.toInt_lt
    rw [← Int.ofNat_le, two_pow_cast, two_pow_cast] at hw hb
    rw [Nat.min_eq_right h, ediv_of_lt (two_pow_int_pos w) (by omega) (by omega), ediv_of_lt (two_pow_int_pos b) (by omega) (by omega)]

theorem wrap_sar {w a : Nat} (hw : 0 < w) (b : Nat) :
    wrap w (intVal true w a / (2 : Int) ^ min b w) = ((BitVec.ofNat w a).sshiftRight b).toNat := by
  rw [wrap_eq_ofInt, intVal_eq_toInt hw, toInt_div_min, ← BitVec.toInt_sshiftRight, BitVec.ofInt_toInt]

theorem wrap_natAbs {w : Nat} (hw : 0 < w) (a : Nat) : wrap w (intVal true w a).natAbs = (intVal true w a).natAbs := by
  have hlo := (BitVec.ofNat w a).le_toInt
  have hhi := (BitVec.ofNat w a).toInt_lt
  have hp : (2 : Int) ^ (w - 1) * 2 = 2 ^ w := by rw [← two_pow_cast, ← two_pow_cast, ← Nat.two_pow_pred_mul_two hw]; rfl
  rw [← intVal_eq_toInt hw] at hlo hhi
  rw [wrap_of_nonneg (by omega) (by omega), Int.toNat_natCast]

end Sys2Proof.Machine
end

section
/-! PROOFS. Exact arithmetic on finite values, and floating-point lanes (R41, R42, R132, R135-R138). -/

namespace Sys2Proof.Machine

open Sys2Proof Sys2Proof.Safety

/-! ## Finite values as rational numbers -/

theorem exists_fin {x : Val} (h : IsFin x) : ∃ n m e, x = .fin n m e := by
  cases x with
  | fin n m e => exact ⟨n, m, e, rfl⟩
  | nan _ | inf _ => exact h.elim

theorem isNan_of_fin {x : Val} (h : IsFin x) : x.isNan = false := by
  obtain ⟨n, m, e, rfl⟩ := exists_fin h
  rfl

/-- The factor that a sign is (R41). -/
def signOf (n : Bool) : Rat := if n then -1 else 1

theorem ratOf_fin (n : Bool) (m : Nat) (e : Int) : ratOf (.fin n m e) = signOf n * (m : Rat) * (2 : Rat) ^ e := rfl

theorem signOf_bne (n₁ n₂ : Bool) : signOf (n₁ != n₂) = signOf n₁ * signOf n₂ := by cases n₁ <;> cases n₂ <;> decide +kernel

theorem signOf_not (n : Bool) : signOf (!n) = -signOf n := by cases n <;> decide +kernel

theorem two_zpow_pos (e : Int) : 0 < (2 : Rat) ^ e := Rat.zpow_pos (by decide)

theorem two_zpow_add (a b : Int) : (2 : Rat) ^ (a + b) = (2 : Rat) ^ a * (2 : Rat) ^ b := Rat.zpow_add (by decide) a b

/-- A whole number of units of 2^q with a sign. -/
theorem signed_cast (n : Bool) (x : Int) : ((if n then -x else x : Int) : Rat) = signOf n * (x : Rat) := by
  cases n
  · exact (Rat.one_mul _).symm
  · exact (Rat.intCast_neg x).trans (by rw [signOf, if_pos rfl, Rat.neg_mul, Rat.one_mul])

/-- A finite value in units of 2^q, for q not above its exponent. -/
theorem scaled_mul_zpow {n : Bool} {m : Nat} {e q : Int} (h : q ≤ e) : (scaled n m e q : Rat) * (2 : Rat) ^ q = ratOf (.fin n m e) := by
  have hz : (2 : Rat) ^ (e - q).toNat * (2 : Rat) ^ q = 2 ^ e := by
    rw [← Rat.zpow_natCast, ← two_zpow_add, Int.toNat_of_nonneg (by omega), Int.sub_add_cancel]
  have hc : ((((m : Int) * (2 : Int) ^ (e - q).toNat : Int)) : Rat) = (m : Rat) * (2 : Rat) ^ (e - q).toNat := by
    rw [Rat.intCast_mul, Rat.intCast_natCast, Rat.intCast_pow]
    rfl
  rw [scaled, signed_cast, hc, ratOf_fin, ← hz]
  simp only [Rat.mul_assoc]

/-- A number of units of 2^q as a finite value. -/
theorem ratOf_natAbs (x q : Int) : ratOf (.fin (decide (x < 0)) x.natAbs q) = (x : Rat) * (2 : Rat) ^ q := by
  have hx : (if decide (x < 0) then -(x.natAbs : Int) else x.natAbs) = x := by
    by_cases h : x < 0
    · rw [if_pos (decide_eq_true h), Int.ofNat_natAbs_of_nonpos (Int.le_of_lt h), Int.neg_neg]
    · rw [if_neg (mt of_decide_eq_true h), Int.natAbs_of_nonneg (Int.not_lt.1 h)]
  have hc : (x : Rat) = signOf (decide (x < 0)) * (x.natAbs : Rat) := by
    rw [← Rat.intCast_natCast, ← signed_cast, hx]
  rw [ratOf_fin, ← hc]

theorem ratOf_zero (n : Bool) (e : Int) : ratOf (.fin n 0 e) = 0 := by
  rw [ratOf_fin, show ((0 : Nat) : Rat) = 0 from rfl, Rat.mul_zero, Rat.zero_mul]

/-- The sum of finite values is exact (R42). -/
theorem vAdd_fin {mode : RMode} {x y : Val} (hx : IsFin x) (hy : IsFin y) :
    ∃ v, vAdd mode x y = (v, 0) ∧ IsFin v ∧ ratOf v = ratOf x + ratOf y := by
  obtain ⟨n₁, m₁, e₁, rfl⟩ := exists_fin hx
  obtain ⟨n₂, m₂, e₂, rfl⟩ := exists_fin hy
  have hsum : ((scaled n₁ m₁ e₁ (min e₁ e₂) + scaled n₂ m₂ e₂ (min e₁ e₂) : Int) : Rat) * (2 : Rat) ^ min e₁ e₂
      = ratOf (.fin n₁ m₁ e₁) + ratOf (.fin n₂ m₂ e₂) := by
    rw [Rat.intCast_add, Rat.add_mul, scaled_mul_zpow (Int.min_le_left e₁ e₂), scaled_mul_zpow (Int.min_le_right e₁ e₂)]
  simp only [vAdd]
  split
  · rename_i h
    rw [beq_iff_eq.1 h, Rat.intCast_zero, Rat.zero_mul] at hsum
    exact ⟨_, rfl, trivial, by rw [ratOf_zero, hsum]⟩
  · exact ⟨_, rfl, trivial, by rw [ratOf_natAbs, hsum]⟩

/-- So is their product (R42). -/
theorem vMul_fin {x y : Val} (hx : IsFin x) (hy : IsFin y) : ∃ v, vMul x y = (v, 0) ∧ IsFin v ∧ ratOf v = ratOf x * ratOf y := by
  obtain ⟨n₁, m₁, e₁, rfl⟩ := exists_fin hx
  obtain ⟨n₂, m₂, e₂, rfl⟩ := exists_fin hy
  refine ⟨_, rfl, trivial, ?_⟩
  simp only [ratOf_fin, Rat.natCast_mul, two_zpow_add, signOf_bne]
  grind

/-- And a fused sum (R136). -/
theorem vFma_fin {mode : RMode} {x y z : Val} (hx : IsFin x) (hy : IsFin y) (hz : IsFin z) :
    ∃ v, vFma mode x y z = (v, 0) ∧ IsFin v ∧ ratOf v = ratOf x * ratOf y + ratOf z := by
  obtain ⟨p, hp, hpf, hpr⟩ := vMul_fin hx hy
  obtain ⟨v, hv, hvf, hvr⟩ := vAdd_fin (mode := mode) hpf hz
  have hs : z.snan = false := by obtain ⟨n, m, e, rfl⟩ := exists_fin hz; rfl
  exact ⟨v, by simp [vFma, hp, hv, hs, flagIf], hvf, by rw [hvr, hpr]⟩

theorem vNegate_fin {x : Val} (hx : IsFin x) : IsFin (vNegate x) ∧ ratOf (vNegate x) = -ratOf x := by
  obtain ⟨n, m, e, rfl⟩ := exists_fin hx
  exact ⟨trivial, by rw [vNegate, ratOf_fin, ratOf_fin, signOf_not, Rat.neg_mul, Rat.neg_mul]⟩

theorem vAbsolute_fin {x : Val} (hx : IsFin x) : IsFin (vAbsolute x) ∧ ratOf (vAbsolute x) = (ratOf x).abs := by
  obtain ⟨n, m, e, rfl⟩ := exists_fin hx
  have hnonneg : 0 ≤ (m : Rat) * (2 : Rat) ^ e := Rat.mul_nonneg Rat.natCast_nonneg (Rat.le_of_lt (two_zpow_pos e))
  refine ⟨trivial, ?_⟩
  rw [vAbsolute, ratOf_fin, ratOf_fin, Rat.mul_assoc, Rat.mul_assoc]
  generalize (m : Rat) * (2 : Rat) ^ e = r at hnonneg
  cases n <;> simp only [signOf, Rat.abs] <;> grind

/-- The order of finite values is that of the numbers they are. -/
theorem vLess_fin {x y : Val} (hx : IsFin x) (hy : IsFin y) : vLess x y = decide (ratOf x < ratOf y) := by
  obtain ⟨n₁, m₁, e₁, rfl⟩ := exists_fin hx
  obtain ⟨n₂, m₂, e₂, rfl⟩ := exists_fin hy
  rw [← scaled_mul_zpow (Int.min_le_left e₁ e₂), ← scaled_mul_zpow (Int.min_le_right e₁ e₂)]
  simp only [vLess, Rat.mul_lt_mul_right (two_zpow_pos (min e₁ e₂)), Rat.intCast_lt_intCast]

/-- The maximum and minimum of rational numbers by their order. -/
theorem ratMax_of_le {p q : Rat} (h : p ≤ q) : max p q = q := if_pos h
theorem ratMin_of_le {p q : Rat} (h : p ≤ q) : min p q = p := if_pos h
theorem ratMax_of_ge {p q : Rat} (h : q ≤ p) : max p q = p := by
  by_cases hp : p ≤ q
  · rw [ratMax_of_le hp, Rat.le_antisymm h hp]
  · exact if_neg hp
theorem ratMin_of_ge {p q : Rat} (h : q ≤ p) : min p q = q := by
  by_cases hp : p ≤ q
  · rw [ratMin_of_le hp, Rat.le_antisymm h hp]
  · exact if_neg hp

/-- The maximum and minimum of finite values are one of them (R42). -/
theorem vMaxMin_fin {isMax : Bool} {x y : Val} (hx : IsFin x) (hy : IsFin y) : ∃ v, vMaxMin isMax x y = (v, 0) ∧ IsFin v
    ∧ ratOf v = if isMax then max (ratOf x) (ratOf y) else min (ratOf x) (ratOf y) := by
  have hnx := isNan_of_fin hx
  have hny := isNan_of_fin hy
  unfold vMaxMin
  simp only [hnx, hny, Bool.or_self, Bool.false_eq_true, if_false]
  generalize hl : (vLess x y || vEqual x y && x.neg && !y.neg) = l
  have hle : if l then ratOf x ≤ ratOf y else ratOf y ≤ ratOf x := by
    rw [vEqual, vLess_fin hx hy, vLess_fin hy hx] at hl
    by_cases hxy : ratOf x < ratOf y
    · rw [← hl, decide_eq_true hxy, Bool.true_or, if_pos rfl]
      exact Rat.le_of_lt hxy
    · by_cases hyx : ratOf y < ratOf x
      · rw [← hl, decide_eq_false hxy, decide_eq_true hyx, Bool.not_true, Bool.and_false, Bool.false_and, Bool.false_and,
          Bool.or_false, if_neg Bool.false_ne_true]
        exact Rat.le_of_lt hyx
      · split
        · exact Rat.not_lt.1 hyx
        · exact Rat.not_lt.1 hxy
  cases l with
  | false =>
    rw [if_neg Bool.false_ne_true] at hle
    cases isMax
    · exact ⟨y, rfl, hy, (ratMin_of_ge hle).symm⟩
    · exact ⟨x, rfl, hx, (ratMax_of_ge hle).symm⟩
  | true =>
    rw [if_pos rfl] at hle
    cases isMax
    · exact ⟨x, rfl, hx, (ratMin_of_le hle).symm⟩
    · exact ⟨y, rfl, hy, (ratMax_of_le hle).symm⟩

/-! ## NaN operands (R42) -/

theorem Val.eq_nan {x : Val} (h : x.isNan = true) : ∃ s, x = .nan s := by
  cases x <;> simp_all [Val.isNan]

theorem vAdd_nan {mode : RMode} {x y : Val} (h : x.isNan = true ∨ y.isNan = true) :
    vAdd mode x y = (.nan false, flagIf (x.snan || y.snan) fINVALID) := by
  rcases h with h | h
  · obtain ⟨s, rfl⟩ := Val.eq_nan h
    rfl
  · obtain ⟨s, rfl⟩ := Val.eq_nan h
    cases x <;> rfl

theorem vMul_nan {x y : Val} (h : x.isNan = true ∨ y.isNan = true) :
    vMul x y = (.nan false, flagIf (x.snan || y.snan) fINVALID) := by
  rcases h with h | h
  · obtain ⟨s, rfl⟩ := Val.eq_nan h
    rfl
  · obtain ⟨s, rfl⟩ := Val.eq_nan h
    cases x <;> rfl

theorem vMaxMin_nan {isMax : Bool} {x y : Val} (h : x.isNan = true ∨ y.isNan = true) :
    vMaxMin isMax x y = (.nan false, flagIf (x.snan || y.snan) fINVALID) := by
  unfold vMaxMin
  rw [if_pos (by simpa using h)]

/-! ## Rounding of a lane -/

/-- An exact result rounds to a lane with the flags of the rounding alone (R132). -/
theorem rounded_exact (f : FFmt) (mode : RMode) (v : Val) : rounded f mode (v, 0) = roundTo f mode 0 v := by
  simp [rounded]

/-- A NaN rounds to the canonical one of a lane's format, with the flag of the operation (R41, R42). -/
theorem rounded_nan {t : ElemT} {f : FFmt} (ht : elemFmt? t = some f) (mode : RMode) (fl : Flags) :
    rounded f mode (.nan false, fl) = (f.canonNaN, fl) := by
  have hf : f.sp = .infNan := by cases t <;> simp [elemFmt?] at ht <;> rw [← ht] <;> rfl
  simp [rounded, roundTo, hf, flagIf]

theorem laneOp_float {i : Instr} {t : ElemT} {f : FFmt} {mode : RMode} {a b d : Nat} (h : elemFmt? t = some f)
    (hi : ∀ h o, i ≠ .vmov h o) : laneOp i t mode a b d = floatLane i f mode a b d := by
  unfold laneOp
  split
  · exact absurd rfl (hi _ _)
  · simp_all
  · simp_all

end Sys2Proof.Machine
end

section
/-! PROOFS. Reductions, and the obligation on lanes (R58, R127, R135-R138, R141). -/

namespace Sys2Proof.Machine

open Sys2Proof Sys2Proof.Safety

/-! ## Integer reductions -/

/-- The greatest of a list and a bound below it stands in the list. -/
theorem foldl_max_mem {α : Type} [Max α] [LE α] [Std.IsLinearOrder α] [Std.LawfulOrderMax α] {l : List α} {a : α} (hl : l ≠ [])
    (ha : ∀ y ∈ l, a ≤ y) : l.foldl max a ∈ l ∧ ∀ y ∈ l, y ≤ l.foldl max a := by
  obtain ⟨hmem, hle⟩ := List.max?_eq_some_iff.1 (List.max?_cons' : (a :: l).max? = some (l.foldl max a))
  have hall : ∀ y ∈ l, y ≤ l.foldl max a := fun y hy => hle y (List.mem_cons_of_mem a hy)
  refine ⟨?_, hall⟩
  rcases List.mem_cons.1 hmem with h | h
  · obtain ⟨y, hy⟩ := List.exists_mem_of_ne_nil l hl
    exact Std.le_antisymm (hall y hy) (h.symm ▸ ha y hy) ▸ hy
  · exact h

/-- The least of a list and a bound above it stands in the list. -/
theorem foldl_min_mem {α : Type} [Min α] [LE α] [Std.IsLinearOrder α] [Std.LawfulOrderMin α] {l : List α} {a : α} (hl : l ≠ [])
    (ha : ∀ y ∈ l, y ≤ a) : l.foldl min a ∈ l ∧ ∀ y ∈ l, l.foldl min a ≤ y := by
  obtain ⟨hmem, hle⟩ := List.min?_eq_some_iff.1 (List.min?_cons' : (a :: l).min? = some (l.foldl min a))
  have hall : ∀ y ∈ l, l.foldl min a ≤ y := fun y hy => hle y (List.mem_cons_of_mem a hy)
  refine ⟨?_, hall⟩
  rcases List.mem_cons.1 hmem with h | h
  · obtain ⟨y, hy⟩ := List.exists_mem_of_ne_nil l hl
    exact Std.le_antisymm (h.symm ▸ ha y hy) (hall y hy) ▸ hy
  · exact h

/-- The signed extreme of encodings is the encoding of one of them (R58). -/
theorem wrap_mem_of_intVal_mem {w : Nat} (hw : 0 < w) {ys : List Nat} (hy : ∀ y ∈ ys, y < 2 ^ w) {x : Int}
    (hx : x ∈ ys.map (intVal true w)) : wrap w x ∈ ys ∧ intVal true w (wrap w x) = x := by
  obtain ⟨y, hmem, rfl⟩ := List.mem_map.1 hx
  rw [wrap_intVal hw (hy y hmem)]
  exact ⟨hmem, rfl⟩

theorem intMin_le_intVal {w : Nat} (hw : 0 < w) (a : Nat) : intMin true w ≤ intVal true w a := by
  rw [intVal_eq_toInt hw]
  exact (BitVec.ofNat w a).le_toInt

theorem intVal_le_intMax {w : Nat} (hw : 0 < w) (a : Nat) : intVal true w a ≤ intMax true w := by
  rw [intVal_eq_toInt hw]
  exact Int.le_sub_one_of_lt (BitVec.ofNat w a).toInt_lt

theorem intReduce_max {w : Nat} (hw : 0 < w) {ys : List Nat} (hy : ∀ y ∈ ys, y < 2 ^ w) (hn : ys ≠ []) (h : Hdr) (o : VaOp) :
    (intReduce (.vredMax h o) w ys).1 ∈ ys ∧ ∀ y ∈ ys, intVal true w y ≤ intVal true w (intReduce (.vredMax h o) w ys).1 := by
  obtain ⟨hmem, hle⟩ := foldl_max_mem (l := ys.map (intVal true w)) (a := intMin true w) (by simpa using hn)
    (by simpa using fun y _ => intMin_le_intVal hw y)
  obtain ⟨hw₁, hw₂⟩ := wrap_mem_of_intVal_mem hw hy hmem
  exact ⟨hw₁, fun y hy => hw₂.symm ▸ hle _ (List.mem_map_of_mem hy)⟩

theorem intReduce_min {w : Nat} (hw : 0 < w) {ys : List Nat} (hy : ∀ y ∈ ys, y < 2 ^ w) (hn : ys ≠ []) (h : Hdr) (o : VaOp) :
    (intReduce (.vredMin h o) w ys).1 ∈ ys ∧ ∀ y ∈ ys, intVal true w (intReduce (.vredMin h o) w ys).1 ≤ intVal true w y := by
  obtain ⟨hmem, hle⟩ := foldl_min_mem (l := ys.map (intVal true w)) (a := intMax true w) (by simpa using hn)
    (by simpa using fun y _ => intVal_le_intMax hw y)
  obtain ⟨hw₁, hw₂⟩ := wrap_mem_of_intVal_mem hw hy hmem
  exact ⟨hw₁, fun y hy => hw₂.symm ▸ hle _ (List.mem_map_of_mem hy)⟩

theorem reduce_int {i : Instr} {t : ElemT} {mode : RMode} {xs : List (Nat × Bool)} (h : elemFmt? t = none) :
    reduce i t mode xs = intReduce i (elemWidth t) ((xs.filter (·.2)).map (·.1)) := by
  simp only [reduce, h]

theorem reduce_float {i : Instr} {t : ElemT} {f : FFmt} {mode : RMode} {xs : List (Nat × Bool)} (h : elemFmt? t = some f) :
    reduce i t mode xs = treeFold (redStep i f mode) (Nat.log2 xs.length) (xs.map (fun x => if x.2 then x.1 else redIdentity i f)) := by
  simp only [reduce, h]

/-! ## The halving tree -/

/-- One level of the tree pairs the lanes of the two halves (R58). -/
theorem treeFold_append (op : Nat → Nat → Nat × Flags) (k : Nat) {xs ys : List Nat} (hx : xs.length = 2 ^ k) (hy : ys.length = 2 ^ k) :
    treeFold op (k + 1) (xs ++ ys) = ((treeFold op k ((List.zipWith op xs ys).map (·.1))).1,
      (List.zipWith op xs ys).foldl (fun f r => f ||| r.2) 0 ||| (treeFold op k ((List.zipWith op xs ys).map (·.1))).2) := by
  have hh : (xs ++ ys).length / 2 = xs.length := by rw [List.length_append]; omega
  simp only [treeFold, halve, hh, List.take_left, List.drop_left]

/-! ## The clauses on lanes -/

/-- The commands that are neither moves, comparisons, selections nor reductions are element-wise (R135-R138). -/
theorem vEffect_lanewise {c : Cmd} {h : Hdr} {o : VaOp} (s : State) (hi : c.instr ∈ [.vadd h o, .vsub h o, .vmul h o, .vfma h o, .vmax h o,
    .vmin h o, .vmaxN h o, .vminN h o, .vabs h o, .vneg h o, .vexp2 h o, .vrcp h o, .vrsqrt h o, .vand h o, .vor h o, .vxor h o,
    .vshl h o, .vshr h o, .vsar h o, .vaddSat h o, .vaddSatN h o, .vsubSat h o, .vsubSatN h o, .vmov h o]) :
    vEffect c s = vLanewise c o s := by
  simp only [List.mem_cons, List.not_mem_nil, or_false] at hi
  unfold vEffect
  rcases hi with hi | hi | hi | hi | hi | hi | hi | hi | hi | hi | hi | hi | hi | hi | hi | hi | hi | hi | hi | hi | hi | hi | hi | hi
  all_goals rw [hi]; rfl

theorem laneOp_int_unsigned {t : ElemT} {mode : RMode} {a b d w : Nat} (h : Hdr) (o : VaOp) (ht : elemFmt? t = none)
    (hw : w = elemWidth t) (ha : a < 2 ^ w) (hb : b < 2 ^ w) :
    (laneOp (.vadd h o) t mode a b d).1 = (a + b) % 2 ^ w
      ∧ (laneOp (.vsub h o) t mode a b d).1 = (a + (2 ^ w - b)) % 2 ^ w
      ∧ (laneOp (.vmul h o) t mode a b d).1 = a * b % 2 ^ w
      ∧ (laneOp (.vneg h o) t mode a b d).1 = (2 ^ w - a) % 2 ^ w
      ∧ (laneOp (.vmaxN h o) t mode a b d).1 = max a b ∧ (laneOp (.vminN h o) t mode a b d).1 = min a b
      ∧ (laneOp (.vand h o) t mode a b d).1 = a &&& b ∧ (laneOp (.vor h o) t mode a b d).1 = a ||| b
      ∧ (laneOp (.vxor h o) t mode a b d).1 = a ^^^ b
      ∧ (laneOp (.vshl h o) t mode a b d).1 = (if b < w then a * 2 ^ b % 2 ^ w else 0)
      ∧ (laneOp (.vshr h o) t mode a b d).1 = a / 2 ^ b
      ∧ (laneOp (.vaddSatN h o) t mode a b d) = (min (a + b) (2 ^ w - 1), if 2 ^ w ≤ a + b then fSAT else 0)
      ∧ (laneOp (.vsubSatN h o) t mode a b d) = (a - b, if a < b then fSAT else 0) := by
  have hpos : 0 < w := hw ▸ elemWidth_pos t
  simp only [laneOp_int ht, ne_eq, reduceCtorEq, not_false_eq_true, implies_true, ← hw]
  refine ⟨wrap_add hpos, wrap_sub hpos hb, wrap_mul hpos, wrap_neg hpos ha, rfl, rfl, rfl, rfl, rfl, ?_, shr_eq_div b ha,
    sat_unsigned w (a + b), ?_⟩
  · simp only [intLane, wrap_shl]
  · rcases Nat.lt_or_ge a b with hlt | hge
    · rw [if_pos hlt, Nat.sub_eq_zero_of_le (Nat.le_of_lt hlt)]
      exact sat_unsigned_neg (by omega)
    · have hsat := sat_unsigned w (a - b)
      rw [Int.natCast_sub hge, Nat.min_eq_left (by omega), if_neg (by omega)] at hsat
      rw [if_neg (Nat.not_lt.2 hge)]
      exact hsat

theorem laneOp_int_signed {t : ElemT} {mode : RMode} {a b d w : Nat} {x y lo hi : Int} (h : Hdr) (o : VaOp) (ht : elemFmt? t = none)
    (hw : w = elemWidth t) (hx : x = (BitVec.ofNat w a).toInt) (hy : y = (BitVec.ofNat w b).toInt) (hlo : lo = -(2 : Int) ^ (w - 1))
    (hhi : hi = (2 : Int) ^ (w - 1) - 1) :
    (laneOp (.vmax h o) t mode a b d).1 = (if x < y then b else a) ∧ (laneOp (.vmin h o) t mode a b d).1 = (if y < x then b else a)
      ∧ (laneOp (.vsar h o) t mode a b d).1 = ((BitVec.ofNat w a).sshiftRight b).toNat
      ∧ (laneOp (.vabs h o) t mode a b d).1 = x.natAbs
      ∧ laneOp (.vaddSat h o) t mode a b d = ((BitVec.ofInt w (max lo (min hi (x + y)))).toNat, if x + y < lo ∨ hi < x + y then fSAT else 0)
      ∧ laneOp (.vsubSat h o) t mode a b d = ((BitVec.ofInt w (max lo (min hi (x - y)))).toNat, if x - y < lo ∨ hi < x - y then fSAT else 0) := by
  have hpos : 0 < w := hw ▸ elemWidth_pos t
  rw [← intVal_eq_toInt hpos] at hx hy
  subst hx hy hlo hhi
  simp only [laneOp_int ht, ne_eq, reduceCtorEq, not_false_eq_true, implies_true, ← hw]
  exact ⟨rfl, rfl, wrap_sar hpos b, wrap_natAbs hpos a, sat_signed w _, sat_signed w _⟩

/-- An exact finite result is rounded once (R132). -/
theorem exists_rounded {f : FFmt} {mode : RMode} {r : Val × Flags} {q : Rat} (hr : ∃ v, r = (v, 0) ∧ IsFin v ∧ ratOf v = q) :
    ∃ v, IsFin v ∧ ratOf v = q ∧ rounded f mode r = roundTo f mode 0 v := by
  obtain ⟨v, rfl, hv, hq⟩ := hr
  exact ⟨v, hv, hq, rounded_exact f mode v⟩

theorem laneOp_float_fin {t : ElemT} {f : FFmt} {mode : RMode} {a b d : Nat} {x y z : Val} (h : Hdr) (o : VaOp) (ht : elemFmt? t = some f)
    (hx : x = f.decode a) (hy : y = f.decode b) (hz : z = f.decode d) (hfx : IsFin x) (hfy : IsFin y) :
    (∃ v, IsFin v ∧ ratOf v = ratOf x + ratOf y ∧ laneOp (.vadd h o) t mode a b d = roundTo f mode 0 v)
      ∧ (∃ v, IsFin v ∧ ratOf v = ratOf x - ratOf y ∧ laneOp (.vsub h o) t mode a b d = roundTo f mode 0 v)
      ∧ (∃ v, IsFin v ∧ ratOf v = ratOf x * ratOf y ∧ laneOp (.vmul h o) t mode a b d = roundTo f mode 0 v)
      ∧ (IsFin z → ∃ v, IsFin v ∧ ratOf v = ratOf x * ratOf y + ratOf z ∧ laneOp (.vfma h o) t mode a b d = roundTo f mode 0 v)
      ∧ (∃ v, IsFin v ∧ ratOf v = max (ratOf x) (ratOf y) ∧ laneOp (.vmax h o) t mode a b d = roundTo f mode 0 v)
      ∧ (∃ v, IsFin v ∧ ratOf v = min (ratOf x) (ratOf y) ∧ laneOp (.vmin h o) t mode a b d = roundTo f mode 0 v)
      ∧ (∃ v, IsFin v ∧ ratOf v = (ratOf x).abs ∧ laneOp (.vabs h o) t mode a b d = roundTo f mode 0 v)
      ∧ (∃ v, IsFin v ∧ ratOf v = -ratOf x ∧ laneOp (.vneg h o) t mode a b d = roundTo f mode 0 v) := by
  subst hx hy hz
  simp only [laneOp_float ht, ne_eq, reduceCtorEq, not_false_eq_true, implies_true]
  obtain ⟨hny, hnq⟩ := vNegate_fin hfy
  have hsub := vAdd_fin (mode := mode) hfx hny
  rw [hnq, ← Rat.sub_eq_add_neg] at hsub
  exact ⟨exists_rounded (vAdd_fin hfx hfy), exists_rounded hsub, exists_rounded (vMul_fin hfx hfy),
    fun hfz => exists_rounded (vFma_fin hfx hfy hfz), exists_rounded (vMaxMin_fin (isMax := true) hfx hfy),
    exists_rounded (vMaxMin_fin (isMax := false) hfx hfy), ⟨_, (vAbsolute_fin hfx).1, (vAbsolute_fin hfx).2, rfl⟩,
    ⟨_, (vNegate_fin hfx).1, (vNegate_fin hfx).2, rfl⟩⟩

theorem laneOp_float_nan {t : ElemT} {f : FFmt} {mode : RMode} {a b d : Nat} {x y : Val} (h : Hdr) (o : VaOp) (ht : elemFmt? t = some f)
    (hx : x = f.decode a) (hy : y = f.decode b) (hn : x.isNan = true ∨ y.isNan = true) :
    (laneOp (.vadd h o) t mode a b d).1 = f.canonNaN ∧ (laneOp (.vmul h o) t mode a b d).1 = f.canonNaN
      ∧ (laneOp (.vmax h o) t mode a b d).1 = f.canonNaN ∧ (laneOp (.vmin h o) t mode a b d).1 = f.canonNaN
      ∧ ((laneOp (.vadd h o) t mode a b d).2 = if x.snan || y.snan then fINVALID else 0) := by
  subst hx hy
  simp only [laneOp_float ht, ne_eq, reduceCtorEq, not_false_eq_true, implies_true, floatLane, vAdd_nan hn, vMul_nan hn, vMaxMin_nan hn,
    rounded_nan ht]
  exact ⟨trivial, trivial, trivial, trivial, rfl⟩

/-! ## The clauses on reductions -/

theorem reduce_int_cases {t : ElemT} {xs : List (Nat × Bool)} {ys : List Nat} {w : Nat} (i : Instr) (mode : RMode) (ht : elemFmt? t = none)
    (hw : w = elemWidth t) (hys : ys = (xs.filter (·.2)).map (·.1)) (hy : ∀ y ∈ ys, y < 2 ^ w) (hn : ys ≠ []) (h : Hdr) (o : VaOp) :
    (i = .vredAddN h o → reduce i t mode xs = (min ys.sum (2 ^ w - 1), if 2 ^ w ≤ ys.sum then fSAT else 0))
      ∧ (i = .vredAdd h o → reduce i t mode xs = sat true w (ys.map (intVal true w)).sum)
      ∧ (i = .vredMaxN h o → (reduce i t mode xs).1 ∈ ys ∧ ∀ y ∈ ys, y ≤ (reduce i t mode xs).1)
      ∧ (i = .vredMinN h o → (reduce i t mode xs).1 ∈ ys ∧ ∀ y ∈ ys, (reduce i t mode xs).1 ≤ y)
      ∧ (i = .vredMax h o → (reduce i t mode xs).1 ∈ ys ∧ ∀ y ∈ ys, intVal true w y ≤ intVal true w (reduce i t mode xs).1)
      ∧ (i = .vredMin h o → (reduce i t mode xs).1 ∈ ys ∧ ∀ y ∈ ys, intVal true w (reduce i t mode xs).1 ≤ intVal true w y) := by
  have hpos : 0 < w := hw ▸ elemWidth_pos t
  rw [reduce_int ht, ← hys, ← hw]
  refine ⟨?_, ?_, ?_, ?_, ?_, ?_⟩ <;> rintro rfl
  · rw [List.sum_eq_foldl]
    exact sat_unsigned w _
  · rw [List.sum_eq_foldl]
    rfl
  · exact foldl_max_mem hn (fun y _ => Nat.zero_le y)
  · exact foldl_min_mem hn (fun y hm => Nat.le_sub_one_of_lt (hy y hm))
  · exact intReduce_max hpos hy hn h o
  · exact intReduce_min hpos hy hn h o

/-- A step of a floating-point reduction is the lane's own operation (R58). -/
theorem redStep_eq_laneOp {t : ElemT} {f : FFmt} (h : Hdr) (o : VaOp) (mode : RMode) (a b d : Nat) (ht : elemFmt? t = some f) :
    redStep (.vredAdd h o) f mode a b = laneOp (.vadd h o) t mode a b d
      ∧ redStep (.vredMax h o) f mode a b = laneOp (.vmax h o) t mode a b d
      ∧ redStep (.vredMin h o) f mode a b = laneOp (.vmin h o) t mode a b d := by
  simp only [laneOp_float ht, ne_eq, reduceCtorEq, not_false_eq_true, implies_true]
  exact ⟨rfl, rfl, rfl⟩

/-- Settles O44: an integer lane is a bit vector, a finite value is a rational number, and a reduction folds its on lanes or halves its row. -/
theorem laneArithmetic : Obligations.LaneArithmetic := by
  unfold Obligations.LaneArithmetic
  refine ⟨fun c s h o hi => vEffect_lanewise s hi, fun h o t mode a b d w ht hw ha hb => laneOp_int_unsigned h o ht hw ha hb,
    fun h o t mode a b d w x y lo hi ht hw _ _ hx hy hlo hhi => laneOp_int_signed h o ht hw hx hy hlo hhi, fun _ _ _ _ _ _ _ => rfl,
    fun h o t f mode a b d x y z ht hx hy hz => ⟨laneOp_float_fin h o ht hx hy hz, laneOp_float_nan h o ht hx hy, ?_⟩,
    fun i t mode xs ys w ht hw hys hy hn h o => reduce_int_cases i mode ht hw hys hy hn h o, fun i t f mode xs ht => reduce_float ht,
    fun _ _ => rfl, fun op k xs ys hx hy => ?_, fun h o t f mode a b d ht => redStep_eq_laneOp h o mode a b d ht, fun h o => ?_⟩
  · subst hx
    simp only [laneOp_float ht, ne_eq, reduceCtorEq, not_false_eq_true, implies_true]
    exact ⟨rfl, rfl, rfl⟩
  · rw [treeFold_append op k hx hy]
    exact ⟨rfl, rfl⟩
  · exact ⟨rfl, rfl, rfl, rfl, rfl, rfl, rfl, rfl, rfl⟩

end Sys2Proof.Machine
end

section
/-! PROOFS. Vector registers in memory, and the rows that a V command writes (R89, R91, R92, R95). -/

namespace Sys2Proof.Machine

open Sys2Proof Sys2Proof.Safety

/-! ## Bytes of an on-chip store -/

@[simp] theorem leBytes_length (k n : Nat) : (leBytes k n).length = k := by
  induction k generalizing n with
  | zero => rfl
  | succ k ih => rw [leBytes, List.length_cons, ih]

@[simp] theorem bytesOfLanes_length (w : Nat) (xs : List Nat) : (bytesOfLanes w xs).length = 128 := leBytes_length 128 _

theorem Memory.chip_congr {m m' : Memory} {a n : Nat} (h : ∀ x, a ≤ x → x < a + n → Memory.read m' x = Memory.read m x) :
    Memory.chip m' a n = Memory.chip m a n := by
  refine List.map_congr_left fun i hi => ?_
  rw [h _ (Nat.le_add_right a i) (Nat.add_lt_add_left (List.mem_range.1 hi) a)]

/-- Bytes written to an on-chip store are read back. -/
theorem Memory.chip_writeAll {m : Memory} (h : Memory.wf m = true) (a : Nat) (bs : List Byte) :
    Memory.chip (Memory.writeAll m a bs) a bs.length = bs := by
  refine List.ext_getElem (by simp [Memory.chip]) fun i _ hi => ?_
  simp [Memory.chip, Memory.read_writeAll h, hi]

/-! ## Rows in memory -/

/-- Two vector registers of a block share no byte (R89, R92). -/
theorem Block.rowA_apart (b : Block) {r q : WReg} (h : r ≠ q) : b.rowA r + 128 ≤ b.rowA q ∨ b.rowA q + 128 ≤ b.rowA r := by
  have hrq : r.toNat ≠ q.toNat := mt BitVec.eq_of_toNat_eq h
  have hr := r.isLt
  have hq := q.isLt
  unfold Block.rowA accAddr
  omega

/-- An address outside the rows of a list of vector registers. -/
def Block.OutsideRows (b : Block) (rs : List WReg) (x : Nat) : Prop := ∀ r ∈ rs, x < b.rowA r ∨ b.rowA r + 128 ≤ x

/-- The bytes of a row are outside every other row. -/
theorem Block.outsideRows_of_notMem {b : Block} {rs : List WReg} {q : WReg} (h : q ∉ rs) {x : Nat} (hlo : b.rowA q ≤ x)
    (hhi : x < b.rowA q + 128) : b.OutsideRows rs x := by
  intro r hr
  rcases b.rowA_apart (ne_of_mem_of_not_mem hr h) with hrq | hqr
  · exact .inr (Nat.le_trans hrq hlo)
  · exact .inl (Nat.lt_of_lt_of_le hhi hqr)

/-- From s to t only bytes of the vector registers rs have changed, and sets and marks of vector registers; t's memory is canonical. -/
structure RowsWritten (rs : List WReg) (s t : State) : Prop where
  rest : t = { s with mem := t.mem, blk := { s.blk with w := t.blk.w } }
  wf : Memory.wf t.mem = true
  read : ∀ x, s.blk.OutsideRows rs x → Memory.read t.mem x = Memory.read s.mem x

theorem RowsWritten.refl {s : State} (h : Memory.wf s.mem = true) (rs : List WReg) : RowsWritten rs s s := ⟨rfl, h, fun _ _ => rfl⟩

theorem RowsWritten.rowA {rs : List WReg} {s t : State} (h : RowsWritten rs s t) : t.blk.rowA = s.blk.rowA := by
  rw [h.rest]
  rfl

theorem RowsWritten.trans {rs qs : List WReg} {s t u : State} (h : RowsWritten rs s t) (h' : RowsWritten qs t u) :
    RowsWritten (rs ++ qs) s u := by
  refine ⟨?_, h'.wf, fun x hx => ?_⟩
  · have hrest := h'.rest
    rw [h.rest] at hrest
    exact hrest
  · obtain ⟨hrs, hqs⟩ := List.forall_mem_append.1 hx
    have hout : t.blk.OutsideRows qs x := by
      rw [← h.rowA] at hqs
      exact hqs
    exact (h'.read x hout).trans (h.read x hrs)

theorem RowsWritten.mono {rs qs : List WReg} {s t : State} (h : RowsWritten rs s t) (hsub : rs ⊆ qs) : RowsWritten qs s t :=
  ⟨h.rest, h.wf, fun x hx => h.read x fun r hr => hx r (hsub hr)⟩

/-- Every other vector register keeps its bytes. -/
theorem RowsWritten.rdRow_other {rs : List WReg} {s t : State} (h : RowsWritten rs s t) {q : WReg} (hq : q ∉ rs) :
    rdRow t q = rdRow s q := by
  unfold rdRow
  rw [h.rowA]
  exact Memory.chip_congr fun x hlo hhi => h.read x (Block.outsideRows_of_notMem hq hlo hhi)

/-! ## Rows written and made dead -/

/-- A row written, with its register's set and mark. -/
theorem wrRow_setW_rowsWritten {s : State} (h : Memory.wf s.mem = true) (r : WReg) (bs : List Byte) (c : WCell) :
    RowsWritten [r] s { wrRow s r bs with blk := s.blk.setW r c } := by
  refine ⟨rfl, Memory.wf_writeAll h _ _, fun x hx => ?_⟩
  have hout := hx r List.mem_cons_self
  have hlen : (bs.take 128).length ≤ 128 := List.length_take_le 128 bs
  exact (Memory.read_writeAll h _ _ x).trans (if_neg (by omega))

theorem putRow_rowsWritten {s : State} (h : Memory.wf s.mem = true) (r : WReg) (bs : List Byte) (t : Taint) (kept : Bool) :
    RowsWritten [r] s (putRow s r bs t kept) := wrRow_setW_rowsWritten h r bs _

theorem killRow_rowsWritten {s : State} (h : Memory.wf s.mem = true) (r : WReg) : RowsWritten [r] s (killRow s r) :=
  wrRow_setW_rowsWritten h r _ _

/-- A row that a V command writes holds what it wrote (R91). -/
theorem rdRow_putRow {s : State} (h : Memory.wf s.mem = true) (r : WReg) {bs : List Byte} (hlen : bs.length = 128) (t : Taint)
    (kept : Bool) : rdRow (putRow s r bs t kept) r = bs := by
  have hread := Memory.chip_writeAll h (s.blk.rowA r) bs
  rw [hlen] at hread
  change Memory.chip (Memory.writeAll s.mem (s.blk.rowA r) (bs.take 128)) (s.blk.rowA r) 128 = bs
  rw [List.take_of_length_le (Nat.le_of_eq hlen), hread]

theorem foldl_killRow_rowsWritten (rs : List WReg) {s : State} (h : Memory.wf s.mem = true) : RowsWritten rs s (rs.foldl killRow s) := by
  induction rs generalizing s with
  | nil => exact .refl h []
  | cons r rs ih =>
    have hr := killRow_rowsWritten h r
    exact hr.trans (ih hr.wf)

/-- The dead marks write rows that are marked and are not the command's destination (R95, R131). -/
theorem applyMarks_rowsWritten (i : Instr) {s : State} (h : Memory.wf s.mem = true) :
    RowsWritten ((deadMarks i).filter (fun r => vDestW i != some r)) s (applyMarks i s) := foldl_killRow_rowsWritten _ h

end Sys2Proof.Machine
end

section
/-! PROOFS. Lanes of element-wise commands, and the obligation on them (R127, R129, R135-R138). -/

namespace Sys2Proof.Machine

open Sys2Proof Sys2Proof.Safety

/-! ## Lanes of an element-wise command -/

theorem lanesOf_length (w : Nat) (bs : List Byte) : (lanesOf w bs).length = 1024 / w := by simp [lanesOf, unpackElems]

/-- The result of an element-wise command in lane k, with its flags (R135-R138). -/
def lanewiseResult (c : Cmd) (o : VaOp) (s : State) (k : Nat) : Nat × Flags :=
  laneOp c.instr o.t (RMode.of c.rm).arith ((lanesOf (elemWidth o.t) (rdRow s o.wa)).getD k 0)
    ((lanesOf (elemWidth o.t) (rdRow s o.wb)).getD k 0) ((lanesOf (elemWidth o.t) (rdRow s o.wd)).getD k 0)

/-- The lanes that an element-wise command leaves in its destination: an on lane takes its result, an off lane keeps its value (R129). -/
def lanewiseLanes (c : Cmd) (o : VaOp) (s : State) : List Nat :=
  (List.range (elemLanes o.t)).map (fun k =>
    if c.mask.getLsbD k then (lanewiseResult c o s k).1 else (lanesOf (elemWidth o.t) (rdRow s o.wd)).getD k 0)

/-- Results that are made for the on lanes alone are all that the mask lets through. -/
theorem maskLanes_of_on (mask : BitVec 128) (f : Nat → Nat × Flags) (old : List Nat) :
    maskLanes mask (((List.range old.length).map (fun k => if mask.getLsbD k then f k else (0, 0))).map (·.1)) old
      = (List.range old.length).map (fun k => if mask.getLsbD k then (f k).1 else old.getD k 0) := by
  refine List.map_congr_left fun k hk => ?_
  cases hon : mask.getLsbD k with
  | false => rfl
  | true => simp [hon, List.mem_range.1 hk]

/-- An element-wise command writes its lanes to its destination, and nothing else. -/
theorem vLanewise_putRow (c : Cmd) (o : VaOp) (s : State) : ∃ t kept,
    (vLanewise c o s).2 = putRow s o.wd (bytesOfLanes (elemWidth o.t) (lanewiseLanes c o s)) t kept := by
  have hmask := maskLanes_of_on c.mask (lanewiseResult c o s) (lanesOf (elemWidth o.t) (rdRow s o.wd))
  rw [lanesOf_length] at hmask
  exact ⟨_, _, congrArg (fun xs => putRow s o.wd (bytesOfLanes (elemWidth o.t) xs) _ _) hmask⟩

/-- Behind the effect and the dead marks, the destination holds the lanes, and only rows of the destination and of marked sources have
changed (R95, R129, R131). -/
theorem vmEffect_lanewise {c : Cmd} {o : VaOp} {s : State} (hwf : Memory.wf s.mem = true) (he : c.eng = .V)
    (hd : vDestW c.instr = some o.wd) (hv : vEffect c s = vLanewise c o s) :
    (vmEffect c s).1 = (vLanewise c o s).1 ∧ RowsWritten (o.wd :: deadMarks c.instr) s (vmEffect c s).2
      ∧ rdRow (vmEffect c s).2 o.wd = bytesOfLanes (elemWidth o.t) (lanewiseLanes c o s) := by
  have heff : vmEffect c s = ((vLanewise c o s).1, applyMarks c.instr (vLanewise c o s).2) := by
    unfold vmEffect
    rw [he]
    dsimp only
    rw [hv]
  obtain ⟨t, kept, hput⟩ := vLanewise_putRow c o s
  rw [heff, hput]
  have hwritten := putRow_rowsWritten hwf o.wd (bytesOfLanes (elemWidth o.t) (lanewiseLanes c o s)) t kept
  have hmarks := applyMarks_rowsWritten c.instr hwritten.wf
  refine ⟨rfl, (hwritten.trans hmarks).mono (List.cons_subset_cons _ List.filter_sublist.subset), ?_⟩
  have hdest : o.wd ∉ (deadMarks c.instr).filter (fun r => vDestW c.instr != some r) := by simp [hd]
  exact (hmarks.rdRow_other hdest).trans (rdRow_putRow hwf o.wd (bytesOfLanes_length _ _) t kept)

/-! ## The obligation on lanes -/

/-- Settles O43: the effect writes the lanes to the destination's row, the dead marks write other rows, and the end of the command
writes no row. -/
theorem vectorLanes : Obligations.VectorLanes := by
  unfold Obligations.VectorLanes
  rintro s c o sh ⟨hrun, htrail, he, ho, hskip, hch, hsig, ha, hwf⟩ - hd - hv w n a b d rfl rfl rfl rfl rfl
  obtain ⟨hflags, ⟨hst, -, hread⟩, hrow⟩ := vmEffect_lanewise hwf he hd hv
  have hend := finishCmd_ends (e := .V) (f := (vmEffect c s).1) (s := (vmEffect c s).2) hch (by rw [hst]; exact hsig)
  have hcomp := (exec_engineCommandCompletion .V s).trans ((completion_VM (.inl rfl) hrun ho hskip ha).trans (congrArg _ hend))
  generalize vmEffect c s = r at hflags hst hread hrow hcomp
  obtain ⟨f, u⟩ := r
  obtain ⟨m, x, rfl⟩ : ∃ m x, u = { s with mem := m, blk := { s.blk with w := x } } := ⟨_, _, hst⟩
  exact ⟨_, hcomp, hrow, hread, congrArg (s.blk.fpstat ||| ·) hflags, congrArg List.head? htrail, rfl, rfl⟩

end Sys2Proof.Machine
end

section
/-! PROOFS. Transfers: a `fetch` that the vector engine runs (R201, R205, R239). -/

namespace Sys2Proof.Machine

open Sys2Proof Sys2Proof.Safety

/-! ## A transfer command in an engine that moves no tiles -/

/-- The vector engine makes no effect of a `fetch`: its commands read and write vector registers alone. -/
theorem vmEffect_fetch {c : Cmd} {h : Hdr} {o : TileOp} (s : State) (he : c.eng = .V) (hi : c.instr = .fetch h o) :
    vmEffect c s = (0, s) := by
  have heff : vEffect c s = (0, s) := by rw [vEffect, hi]; rfl
  have hmarks : applyMarks c.instr s = s := by rw [hi]; rfl
  rw [vmEffect, he]
  dsimp only
  rw [heff, hmarks]

/-- The completion of such a `fetch` ends it, with no byte moved (R26). -/
theorem exec_completion_fetch_V {s : State} {c : Cmd} {h : Hdr} {o : TileOp} (hrun : RunsIn s .V c) (hi : c.instr = .fetch h o) :
    exec (.engineCommandCompletion .V) s = .next (finishCmd .V c 0 s) := by
  obtain ⟨hr, -, he, ho, hskip, -, -, ha, -⟩ := hrun
  rw [exec_engineCommandCompletion, completion_VM (.inl rfl) hr ho hskip ha, vmEffect_fetch s he hi]

/-! ## The counterexample -/

/-- A tensor of one byte (format code 0), which world 0 may read. -/
def byteTensor : BitVec 512 :=
  BitVec.ofNat 512 (kTensor * 2 ^ 44 + 2 ^ 40 + 15 * 2 ^ 28 + 2 ^ 64 + 0xC000 * 2 ^ 256)

/-- A `fetch` of that tensor's byte to a tile of one byte at scratchpad offset 0. It stands in the vector engine, to which no dispatch
brings it (R201). -/
def fetchInV : Cmd :=
  { instr := .fetch ⟨false, false, 0, none, none⟩ ⟨0, .sp, 0, 0, 0, 3⟩, eng := .V, n := 0, qno := 0, addr := 0, off := false, depth := 16,
    rm := 0, deadMode := false, mask := BitVec.allOnes 128, sx := 0, si := [0], sy := [], dA := 0, dB := 0, dX := 0,
    shape := BitVec.ofNat 256 (1 + 2 ^ 16), ha := Machine.handleOf 0 1 0, hb := 0, g := GCell.zero, taint := 0, wtaint := 0, draw := 0,
    req := 0, waits := [], popped := false, noPush := false, skipEnd := false, fault := none, moved := 0, buf := [], flags := 0,
    dest := [], park := none, remote := none, reply := none, oldDesc := false, checked := 0, pend := false }

/-- It runs where the tensor's byte is 7, with its descriptor and its slab's frame, the one at address 0, in the caches (R275, R280). -/
def runsFetchInV : State :=
  { State.reset with
    blk := { Block.clear with phase := .running, nsq := 64, eV := { q := [], run := some fetchInV, trail := [], next := 1 } },
    mem := [(0, 7)],
    tb := { State.reset.tb with
      hcache := [⟨0, Machine.handleOf 0 1 0, byteTensor, 0⟩],
      tlb := [⟨0, 0, tlbHandle (Machine.handleOf 0 1 0), 0, 0, 0, none, false⟩] } }

/-- What the clause does not ask for: that the engine is the one to which the command's dispatch brings it (R201). -/
theorem engineOfCmd_fetchInV : engineOfCmd fetchInV.instr = .F := rfl

theorem runsFetchInV_runsT : RunsT runsFetchInV .V fetchInV := by
  unfold RunsT RunsIn
  decide +kernel

/-- A pair is given by its first part, whatever the second is. -/
theorem eq_of_fst_eq {α β : Type} {x : α × β} {a : α} (h : x.1 = a) : x = (a, x.2) := h ▸ rfl

/-- A result that there is without its error is the result. -/
theorem eq_ok_of_toOption {ε α : Type} {x : Except ε α} {a : α} (h : x.toOption = some a) : x = .ok a := by
  cases x with
  | error e => cases h
  | ok b => exact congrArg Except.ok (Option.some.inj h)

/-- The state behind the resolution of the tensor's handle. -/
def fetchInVResolved : State := (resolveUses runsFetchInV fetchInV 0 fetchInV.objUses).2

theorem resolveUses_fetchInV : resolveUses runsFetchInV fetchInV 0 fetchInV.objUses = (.ok [byteTensor], fetchInVResolved) :=
  eq_of_fst_eq (eq_ok_of_toOption (by decide +kernel))

/-- The command has passed the checks at start that the clause asks for (R204). -/
theorem tFault_fetchInV : tFault fetchInVResolved fetchInV [byteTensor] none = none := by decide +kernel

theorem oneLine_fetchInV : OneLine (jobOf fetchInV [byteTensor]).keys (jobOf fetchInV [byteTensor]).pos.length :=
  ⟨by decide +kernel, by decide +kernel, (0, 0), by decide +kernel⟩

/-- The read of the tensor answers its byte. -/
theorem objReadFrom_fetchInV : ∃ s₂, objReadFrom false fetchInVResolved (runsFetchInV.blk.who 2) fetchInV.ha byteTensor fetchInV.req 0
    [⟨0, 0, 8⟩] = (.ok [7] 0, s₂) :=
  ⟨_, eq_of_fst_eq (by decide +kernel)⟩

/-- Behind the completion the tile still holds what the scratchpad held. -/
theorem tileElem_fetchInV : (tileElem (finishCmd .V fetchInV 0 runsFetchInV) .sp 0 fetchInV.dA 0 0).1 = 0 := by decide +kernel

/-- Refutes O47: its clause on `fetch`, `fetch.ix` and `sreuse` leaves the engine free, and a `fetch` that runs in the vector engine,
where no dispatch puts it (R201), completes with the byte 7 of its object not in its tile. -/
theorem not_transfers : ¬ Obligations.Transfers := by
  unfold Obligations.Transfers
  rintro ⟨hfetch, -⟩
  obtain ⟨s₂, hread⟩ := objReadFrom_fetchInV
  obtain ⟨t, hexec, -, htile, -⟩ := hfetch runsFetchInV .V fetchInV [byteTensor] fetchInVResolved _ _ _ _ 0 [⟨0, 0, 8⟩] [7] 0 s₂ _
    runsFetchInV_runsT (by decide) (.inl ⟨_, _, rfl⟩) resolveUses_fetchInV tFault_fetchInV rfl rfl rfl (by decide +kernel)
    oneLine_fetchInV (by decide +kernel) (by decide +kernel) rfl (by decide +kernel) hread rfl
  obtain rfl : finishCmd .V fetchInV 0 runsFetchInV = t :=
    Host.Outcome.next.inj ((exec_completion_fetch_V runsFetchInV_runsT.1 rfl).symm.trans hexec)
  have hbyte := htile 0 oneLine_fetchInV.1
  rw [Nat.zero_div, Nat.zero_mod] at hbyte
  exact absurd (tileElem_fetchInV.symm.trans hbyte) (by decide)

end Sys2Proof.Machine
end

section
/-! PROOFS. The timestep sequencer (R168-R172). -/

namespace Sys2Proof.Machine

open Sys2Proof Sys2Proof.Safety

/-! ## Resolving, and the versions of an object -/

theorem exec_sbind (g : BitVec 3) (hin hout : BitVec 4) (sth sst : SReg) (maxskip : BitVec 18) (s : State) :
    exec (.sbind g hin hout sth sst maxskip) s = execSbind g hin hout sth sst maxskip s := rfl
theorem exec_sgate (pd : PReg) (sj : SReg) (g : BitVec 3) (s : State) : exec (.sgate pd sj g) s = execSgate pd sj g s := rfl
theorem exec_smap (sd : SReg) (g : BitVec 3) (sel : BitVec 18) (sa : SReg) (s : State) :
    exec (.smap sd g sel sa) s = execSmap sd g sel sa s := rfl
theorem exec_sstep (g : BitVec 3) (s : State) : exec (.sstep g) s = execSstep g s := rfl

/-- A handle that resolves lets its instruction go on with the descriptor (R275). -/
theorem resolveFor_ok {write : Bool} {v f : DWord} {s u : State} {d : BitVec 512} {st : DWord} (k : BitVec 512 → DWord → State → Out)
    (h : resolve s (s.blk.who 0) v f = (.ok d st, u)) : resolveFor write v f s k = k d st u := by
  rw [resolveFor, h]

@[simp] theorem writeDesc_blk (s : State) (i : Nat) (d : BitVec 512) : (writeDesc s i d).blk = s.blk := by
  unfold writeDesc
  split <;> rfl

/-- A version raised at its home is the one asked for, modulo 2^64, and leaves the block alone (R220, R221). -/
theorem publishHere_ok {s u : State} {h f v c : DWord} {next : Nat → Nat} {d : BitVec 512} (hd : readDesc s (hIndex h) = .ok d)
    (hp : publishHere s h f next = .ok (v, c, u)) : v = BitVec.ofNat 64 (next (dVersion d)) ∧ u.blk = s.blk := by
  simp only [publishHere, hd, Except.ok.injEq, Prod.mk.injEq] at hp
  obtain ⟨rfl, -, rfl⟩ := hp
  exact ⟨BitVec.eq_of_toNat_eq (by simp), by simp [mergeClock]⟩

/-! ## `sbind` (R168) -/

/-- An `sbind` whose operands and checks allow it, and whose binding no command names, binds its objects anew. -/
theorem execSbind_binds {s : State} {g : BitVec 3} {hin hout : BitVec 4} {sth sst : SReg} {maxskip : BitVec 18}
    (hr : Ready s.blk [sth, sst] [] [] []) (hi : LiveHandle s.blk hin (s.blk.reqStamp (s.blk.accessT 0)))
    (ho : LiveHandle s.blk hout (s.blk.reqStamp (s.blk.accessT 0)))
    (hf : sbindFault s (s.blk.hCell hin).v (s.blk.hCell hout).v (s.blk.hCell hin).desc (s.blk.hCell hout).desc (rdS s.blk sth)
      (rdS s.blk sst) maxskip.toNat = none)
    (hc : ∀ c ∈ s.blk.cmds, c.namesBinding g = false) (hq : (s.blk.gCell g).queue = []) :
    execSbind g hin hout sth sst maxskip s = doneB s ((s.blk.foldSet (taintS s.blk sth ||| taintS s.blk sst)).setG g
      ⟨(s.blk.hCell hin).v, (s.blk.hCell hout).v, (rdS s.blk sth).setWidth 32, (rdS s.blk sst).setWidth 32, maxskip.setWidth 8, 0, 0,
        (s.blk.hCell hin).desc, (s.blk.hCell hout).desc, []⟩) 8 := by
  have hcmds : s.blk.cmds.any (fun c => c.namesBinding g) = false := any_false hc
  have hqueued : s.blk.queued.any (fun c => c.namesBinding g) = false :=
    any_false fun c hm => hc c (List.mem_append_right _ hm)
  rw [execSbind, withRegs_ready _ hr, liveOthers_live_two _ hi ho, withHandle_live _ hi, withHandle_live _ ho]
  simp [hf, hcmds, hqueued, hq]

/-! ## `sgate` (R169, R172) -/

/-- The binding behind a decision (R169). -/
def GCell.gated (x : GCell) (rest : List CmpResult) (skip : Bool) : GCell :=
  { x with queue := rest, decided := x.decided + 1, skipped := x.skipped + (if skip then 1 else 0) }

/-- The update that a decision leaves for IN (R169, R172). -/
def Block.gateUpdate (b : Block) (g : BitVec 3) (r : CmpResult) (n : Nat) (skip : Bool) : Posted :=
  .gate ⟨b.pc, g, (b.gCell g).inH, r.j, n, skip, if skip then [] else r.x, b.reqStamp (b.accessT 0), none, none, none⟩

/-- An `sgate` decides with the count that it has read, from the oldest result of its queue, once no update of the token block and no
other strand stands before it. -/
theorem execSgate_decides {s u : State} {pd : PReg} {sj : SReg} {g : BitVec 3} {r : CmpResult} {rest : List CmpResult} {n : Nat}
    (hr : Ready s.blk [] [] [sj] [pd]) (ht : Settled s.blk 0) (hi : (s.blk.gCell g).inH ≠ 0) (ho : (s.blk.gCell g).outH ≠ 0)
    (hq : (s.blk.gCell g).queue = r :: rest) (hd : r.done = true) (hp : gatePending s (s.blk.gCell g).inH r.j = false)
    (hc : s.blk.reply = none → gateClaimed s s.blk.id (s.blk.gCell g).inH r.j = false) (hn : SkipCount s (s.blk.gCell g) r.j n u) :
    execSgate pd sj g s = gateDone (hHome (s.blk.gCell g).inH == s.pl.pkg.toNat) pd sj g r rest n u ∧ u.blk = s.blk := by
  have hfirst : (s.blk.reply.isNone && gateClaimed s s.blk.id (s.blk.gCell g).inH r.j) = false := by
    cases hs : s.blk.reply with
    | none => exact hc hs
    | some bs => rfl
  have hbound : ((s.blk.gCell g).inH == 0 || (s.blk.gCell g).outH == 0) = false := by
    rw [Bool.or_eq_false_iff]
    exact ⟨beq_eq_false_iff_ne.2 hi, beq_eq_false_iff_ne.2 ho⟩
  rw [execSgate, withRegs_ready _ hr]
  simp only [hbound, hq, hd, hp, hfirst, Bool.not_true, Bool.or_self, Bool.false_eq_true, if_false]
  rcases hn with ⟨bs, hbs, rfl, rfl⟩ | ⟨hnone, hhome, hblk, f, d, st, w, vs, st', rfl, hres, hw, hread, rfl⟩
  · rw [hbs]
    exact ⟨by simp [bne], rfl⟩
  · rw [hnone]
    dsimp only
    rw [withTaint_settled _ ht, resolveFor_ok _ hres]
    simp only [hhome, hread, bne_self_eq_false, BEq.rfl, Bool.false_eq_true, if_false]
    exact ⟨trivial, hblk⟩

theorem Block.pCell_wrS (b : Block) (r : SReg) (v : DWord) (t : Taint) (q : PReg) : (wrS b r v t).pCell q = b.pCell q := by
  rw [Block.pCell, wrS_p, Block.pCell]

/-- A predicate other than p0 reads as its cell (R82). -/
theorem readP_of_pCell {b : Block} {p : PReg} {c : PCell} (h0 : p ≠ 0) (h : b.pCell p = c) : rdP b p = c.v ∧ taintP b p = c.t := by
  rw [rdP, taintP, if_neg (mt beq_iff_eq.1 h0), if_neg (mt beq_iff_eq.1 h0), h]
  exact ⟨rfl, rfl⟩

/-- A scalar other than s0 reads as its cell (R81). -/
theorem readS_of_sCell {b : Block} {r : SReg} {c : SCell} (h0 : r ≠ 0) (h : b.sCell r = c) : rdS b r = c.v ∧ taintS b r = c.t := by
  rw [rdS, taintS, if_neg (mt beq_iff_eq.1 h0), if_neg (mt beq_iff_eq.1 h0), h]
  exact ⟨rfl, rfl⟩

/-- The block behind a decision: its binding, the update where it is still to be made, the predicate and the scalar. -/
def Block.gateDecided (b : Block) (post : Bool) (pd : PReg) (sj : SReg) (g : BitVec 3) (r : CmpResult) (rest : List CmpResult) (n : Nat)
    (skip : Bool) : Block :=
  let b' := { b.setG g ((b.gCell g).gated rest skip) with
    posted := b.posted ++ (if post then [b.gateUpdate g r n skip] else []), reply := none }
  wrS (wrP b' pd (condP skip) r.taint) sj (BitVec.ofNat 64 r.j) r.taint

theorem gateDone_next (post : Bool) (pd : PReg) (sj : SReg) (g : BitVec 3) (r : CmpResult) (rest : List CmpResult) (n : Nat) (u : State) :
    gateDone post pd sj g r rest n u = .next { u with blk :=
      (u.blk.gateDecided post pd sj g r rest n (r.cond && n < (u.blk.gCell g).maxskip.toNat)).adv 8 } := by
  simp only [gateDone, Block.gateDecided, GCell.gated, Block.gateUpdate]
  generalize (r.cond && n < (u.blk.gCell g).maxskip.toNat) = skip
  cases skip <;> cases post <;> simp [doneB_next]

section
variable (b : Block) (post : Bool) (pd : PReg) (sj : SReg) (g : BitVec 3) (r : CmpResult) (rest : List CmpResult) (n : Nat) (skip : Bool)

theorem Block.gateDecided_eq : b.gateDecided post pd sj g r rest n skip = { b with
    s := (b.gateDecided post pd sj g r rest n skip).s, p := (b.gateDecided post pd sj g r rest n skip).p,
    g := (b.gateDecided post pd sj g r rest n skip).g,
    posted := b.posted ++ (if post then [b.gateUpdate g r n skip] else []), reply := none } := by
  simp only [Block.gateDecided]
  rw [wrS_eq, wrP_eq]
  rfl

theorem Block.sCell_gateDecided (q : SReg) : (b.gateDecided post pd sj g r rest n skip).sCell q =
    if sj ≠ 0 ∧ q = sj then ⟨BitVec.ofNat 64 r.j, r.taint, false⟩ else b.sCell q := by
  simp only [Block.gateDecided, Block.sCell_wrS]
  simp [Block.sCell]

theorem Block.pCell_gateDecided (q : PReg) : (b.gateDecided post pd sj g r rest n skip).pCell q =
    if pd ≠ 0 ∧ q = pd ∧ pd.toNat < 48 then ⟨condP skip, r.taint, false⟩ else b.pCell q := by
  simp only [Block.gateDecided, Block.pCell_wrS, Block.pCell_wrP]
  rfl

theorem Block.gCell_gateDecided (q : BitVec 3) : (b.gateDecided post pd sj g r rest n skip).gCell q =
    if q = g then (b.gCell g).gated rest skip else b.gCell q := by
  rw [← Block.gCell_setG]
  simp [Block.gateDecided, Block.gCell]

end

/-! ## `smap` and `sstep` (R171) -/

/-- `smap` reads a word of the skip map as an object load (R171, R194). -/
theorem execSmap_word {s u : State} {sd sa : SReg} {g : BitVec 3} {sel : BitVec 18} {d : BitVec 512} {st : DWord}
    (hr : Ready s.blk [sa] [] [sd] []) (hsel : sel.toNat = 6) (hw : (rdS s.blk sa).toNat < mapWords (s.blk.gCell g))
    (hres : resolve s (s.blk.who 0) (s.blk.gCell g).inH (s.blk.reqStamp (s.blk.accessT (taintS s.blk sa))) = (.ok d st, u))
    (hblk : u.blk = s.blk) (hk : dKind d = kStep) (hread : canRead d s.blk.world = true) (hl : s.blk.loads.length < 255) :
    execSmap sd g sel sa s = .next { u with blk :=
      (s.blk.issueLoad (.skipWord (rdS s.blk sa).toNat) sd (s.blk.gCell g).inH 0 0 0 (taintS s.blk sa)).adv 8 } := by
  have hrights : loadRightsFault (.skipWord (rdS s.blk sa).toNat) d s.blk.world = none := by
    simp [loadRightsFault, LoadOp.isAtomic, LoadOp.kindOk, hk, hread]
  rw [execSmap]
  simp only [hsel, withRegs_ready _ hr, if_neg (Nat.not_le.2 hw), resolveS, resolveFor_ok _ hres, hrights, unlessCause, issue, hblk,
    if_neg (Nat.not_le.2 hl)]
  rfl

/-- The block behind an `sstep` (R87, R171). -/
def Block.stepped (b : Block) (g : BitVec 3) : Block := { b.setG g (b.gCell g).advance with reply := none }

theorem sstepDone_next (g : BitVec 3) (s : State) : sstepDone g s = .next { s with blk := (s.blk.stepped g).adv 8 } := rfl

/-- A binding whose updates are all performed has none among the posted writes (R172). -/
theorem noUpdate_posted {b : Block} {g : BitVec 3} (hp : ∀ p ∈ b.posted, ∀ u, p = .gate u → u.g ≠ g) :
    b.posted.any (fun p => match p with | .gate u => u.g == g | _ => false) = false := by
  refine any_false fun p hm => ?_
  cases p with
  | gate u => exact beq_eq_false_iff_ne.2 (hp _ hm u rfl)
  | store | sto => rfl

/-- Behind the answer of IN's home on another package, an `sstep` ends (R171). -/
theorem execSstep_answered {s : State} {g : BitVec 3} (hq : (s.blk.gCell g).queue = [])
    (hp : ∀ p ∈ s.blk.posted, ∀ u, p = .gate u → u.g ≠ g) (hr : s.blk.reply ≠ none) : execSstep g s = sstepDone g s := by
  obtain ⟨bs, hbs⟩ := Option.ne_none_iff_exists'.1 hr
  rw [execSstep]
  refine (if_neg (by simp [hq])).trans ((if_neg (Bool.eq_false_iff.1 (noUpdate_posted hp))).trans ?_)
  rw [hbs]

/-- Where IN's home is here, an `sstep` raises IN's version to the new STEP where that is greater (R171). -/
theorem execSstep_home {s w : State} {g : BitVec 3} {d e : BitVec 512} {st : DWord} (hq : (s.blk.gCell g).queue = [])
    (hp : ∀ p ∈ s.blk.posted, ∀ u, p = .gate u → u.g ≠ g) (hr : s.blk.reply = none)
    (hres : resolve s (s.blk.who 0) (s.blk.gCell g).inH (s.blk.reqStamp (s.blk.accessT 0)) = (.ok d st, w))
    (hh : hHome (s.blk.gCell g).inH = w.pl.pkg.toNat) (he : readDesc w (hIndex (s.blk.gCell g).inH) = .ok e) :
    (((s.blk.gCell g).step + 1).toNat ≤ dVersion e → execSstep g s = sstepDone g w)
      ∧ (∀ v c u, dVersion e < ((s.blk.gCell g).step + 1).toNat →
        publishHere w (s.blk.gCell g).inH (s.blk.reqStamp (s.blk.accessT 0)) (fun _ => ((s.blk.gCell g).step + 1).toNat) = .ok (v, c, u) →
          execSstep g s = sstepDone g u) := by
  refine ⟨fun hle => ?_, fun v c u hlt hpub => ?_⟩
  all_goals
    rw [execSstep]
    refine (if_neg (by simp [hq])).trans ((if_neg (Bool.eq_false_iff.1 (noUpdate_posted hp))).trans ?_)
    simp only [hr, resolveFor_ok _ hres, hh, he, GCell.advance, bne_self_eq_false, Bool.false_eq_true, if_false]
  · exact if_neg (Nat.not_lt.2 hle)
  · exact (if_pos hlt).trans (by rw [hpub])

/-! ## The obligation -/

/-- Settles O48: each instruction's checks pass, and what it does then is the lemma about it above. -/
theorem sequencer : Obligations.Sequencer := by
  unfold Obligations.Sequencer
  refine ⟨?_, ?_, ?_, ?_, ?_⟩
  · rintro s g hin hout sth sst maxskip hr f rfl hi ho a b rfl rfl hf hc hq
    obtain ⟨fl, pe, lo, hfold⟩ := s.blk.foldSet_fields (taintS s.blk sth ||| taintS s.blk sst)
    refine ⟨_, (exec_sbind ..).trans (execSbind_binds hr hi ho hf hc hq), fun j hj => ?_, ?_, ?_⟩
    · exact (Block.gCell_setG _ g j _).trans ((if_neg hj).trans (by rw [hfold]; rfl))
    · rw [hfold]; rfl
    · exact (Block.gCell_setG _ g g _).trans (if_pos rfl)
  · rintro s pd sj g x r rest n skip u hr ht rfl hi ho hq hd hp hc hn hskip hpd
    obtain ⟨hgate, hu⟩ := execSgate_decides hr ht hi ho hq hd hp hc hn
    have hexec := (exec_sgate pd sj g s).trans (hgate.trans (gateDone_next ..))
    rw [hu, ← hskip] at hexec
    refine ⟨_, hexec, fun h0 => ?_, fun h0 => ?_, fun q hne => ?_, fun q hne => ?_, fun q hne => ?_, ?_, ?_, ?_⟩
    · exact readP_of_pCell h0 ((Block.pCell_gateDecided ..).trans (if_pos ⟨h0, rfl, hpd⟩))
    · exact readS_of_sCell h0 ((Block.sCell_gateDecided ..).trans (if_pos ⟨h0, rfl⟩))
    · exact (Block.pCell_gateDecided ..).trans (if_neg fun ⟨h0, he, _⟩ => hne.elim (absurd he) (fun hz => h0 (he ▸ hz)))
    · exact (Block.sCell_gateDecided ..).trans (if_neg fun ⟨h0, he⟩ => hne.elim (absurd he) (fun hz => h0 (he ▸ hz)))
    · exact (Block.gCell_gateDecided ..).trans (if_neg hne)
    · rw [Block.gateDecided_eq]
      rfl
    · exact (Block.gCell_gateDecided ..).trans (if_pos rfl)
    · rw [Block.gateDecided_eq]
      by_cases hh : hHome (s.blk.gCell g).inH = s.pl.pkg.toNat <;> simp [hh, Block.gateUpdate]
  · intro s sd g sel sa hr hsel
    have hlow : ¬ 7 ≤ sel.toNat := by omega
    rw [exec_smap, execSmap, if_neg hlow, if_pos hsel, withRegs_ready _ hr]
    rfl
  · rintro s sd g sel sa x d st u hr hsel rfl hw hres hblk hk hread hl
    exact (exec_smap ..).trans (execSmap_word hr hsel hw hres hblk hk hread hl)
  · rintro s g x b rfl hq hp rfl
    refine ⟨fun hr => (exec_sstep g s).trans (execSstep_answered hq hp hr), fun d st e w hr hres hblk hh he => ?_⟩
    obtain ⟨hstays, hraises⟩ := execSstep_home hq hp hr hres hh he
    refine ⟨fun hle => ?_, fun v c u hlt hpub => ?_⟩
    · exact (exec_sstep g s).trans ((hstays hle).trans ((sstepDone_next g w).trans (by rw [hblk]; rfl)))
    · obtain ⟨hv, hu⟩ := publishHere_ok he hpub
      exact ⟨hv, (exec_sstep g s).trans ((hraises v c u hlt hpub).trans ((sstepDone_next g u).trans (by rw [hu, hblk]; rfl)))⟩

end Sys2Proof.Machine
end

section
/-! PROOFS. Fences, and the removal and folding of taint (R227, R229-R232, R236, R237). -/

namespace Sys2Proof.Machine

open Sys2Proof Sys2Proof.Safety

/-! ## Accesses behind a fence -/

theorem exec_fence (sc : Scope) (s : State) : exec (.fence sc) s = execFence sc s := rfl
theorem exec_ldI64 (sd : SReg) (lv : Level) (sa : SReg) (off : BitVec 10) (s : State) :
    exec (.ldI64 sd lv sa off) s = loadOp 8 true sd lv sa off s := rfl
theorem exec_stI64 (sd : SReg) (lv : Level) (sa : SReg) (off : BitVec 10) (s : State) :
    exec (.stI64 sd lv sa off) s = storeOp 8 sd lv sa off s := rfl
theorem exec_untaint (sa : SReg) (s : State) : exec (.untaint sa) s = execUntaint sa s := rfl
theorem exec_tfold (s : State) : exec .tfold s = execTfold s := rfl

/-- Scalars that are ready as sources and destinations are so where fewer of them are named. -/
theorem ready_of_subset {b : Block} {rs rs' ds ds' : List SReg} {ps dp : List PReg} (h : Ready b rs ps ds dp) (hr : rs' ⊆ rs)
    (hd : rs' ++ ds' ⊆ rs ++ ds) : Ready b rs' ps ds' dp := by
  obtain ⟨hbusyS, hbusyP, hlive⟩ := h
  exact ⟨fun r hm => hbusyS r (hd hm), hbusyP, fun hmode => ⟨fun r hm => (hlive hmode).1 r (hr hm), (hlive hmode).2⟩⟩

/-- A covered access that passes its checks waits for the atomics that a fence has put before it (R228, R229). -/
theorem checked_covered_of_fenceHeld {s : State} {lv : Level} {a w : Nat} (k : Out) (hf : accessFault s lv a w = none) (hlv : lv ≠ .sp)
    (hheld : s.blk.fenceHeld = true) : checked (accessFault s lv a w) s (covered lv s k) = waitS s .writes := by
  rw [hf, checked, covered, if_pos (by simp [hlv, hheld])]

/-- A `fence` performs the block's stores; whether it waits turns on its scope and on the block's atomics (R229-R231). -/
theorem execFence_eq (sc : Scope) (s : State) : execFence sc s =
    if (sc = .pkg ∨ sc = .pod) ∧ s.blk.atomicsOut = true then waitS (performStores s) .writes
    else doneB (performStores s) { (performStores s).blk with fenced := s.blk.atomicIds } 4 := by
  have hcond : ((sc == .pkg || sc == .pod) && s.blk.atomicsOut) = true ↔ (sc = .pkg ∨ sc = .pod) ∧ s.blk.atomicsOut = true := by simp
  exact ite_congr (propext hcond) (fun _ => rfl) fun _ => rfl

/-! ## Taint sets with only some of their bits -/

/-- Reading a mapped vector maps what is read. -/
theorem getElem?_map_getD {α β : Type} {n : Nat} (f : α → β) (v : Vector α n) (i : Nat) (d : α) :
    ((v.map f)[i]?).getD (f d) = f ((v[i]?).getD d) := by
  rw [Vector.getElem?_map, Option.getD_map]

/-- `maskTaint` leaves its bits alone in every taint set of the block, and nothing but the outstanding loads besides (R236). -/
theorem Block.maskTaint_cleaned (b : Block) (m : Taint) (keep : Bool) : Cleaned b (b.maskTaint m keep) m keep := by
  have hzero : (0 : Taint) &&& m = 0 := BitVec.zero_and
  refine ⟨rfl, fun r => ?_, fun p => ?_, fun w => ?_, rfl, rfl, fun g => ?_, fun e => ?_, rfl, rfl, rfl, rfl, rfl, rfl, rfl⟩
  · have h := getElem?_map_getD (fun c : SCell => { c with t := c.t &&& m }) b.s r.toNat ⟨0, 0, false⟩
    rwa [hzero] at h
  · have h := getElem?_map_getD (fun c : PCell => { c with t := c.t &&& m }) b.p p.toNat ⟨0, 0, false⟩
    rwa [hzero] at h
  · have h := getElem?_map_getD (fun c : WCell => { c with t := c.t &&& m }) b.w w.toNat ⟨0, false⟩
    rwa [hzero] at h
  · exact getElem?_map_getD (fun c : GCell => { c with queue := c.queue.map (fun r : CmpResult => { r with taint := r.taint &&& m }) }) b.g g.toNat .zero
  · have hcmd : (fun c : Cmd => { c with
        wtaint := c.wtaint &&& m, taint := if keep && c.eng != .M then c.taint else c.taint &&& m }) = cleanCmd m keep := by
      funext c
      simp [cleanCmd]
    have hq : ∀ q : EngineQ, q.mapCmds (cleanCmd m keep) =
        { q with q := q.q.map (cleanCmd m keep), run := q.run.map (cleanCmd m keep), trail := q.trail.map (cleanCmd m keep) } := fun _ => rfl
    cases e <;> exact (congrArg (EngineQ.mapCmds · _) hcmd).trans (hq _)

/-! ## The fold of every tag -/

/-- Members of a list whose images are distinct are equal where their images are. -/
theorem eq_of_nodup_map {α β : Type} {f : α → β} {xs : List α} {a b : α} (h : (xs.map f).Nodup) (ha : a ∈ xs) (hb : b ∈ xs)
    (hf : f a = f b) : a = b := by
  induction xs with
  | nil => exact absurd ha List.not_mem_nil
  | cons x xs ih =>
    rw [List.map_cons, List.nodup_cons] at h
    obtain ⟨hx, hxs⟩ := h
    obtain rfl | ha' := List.mem_cons.1 ha
    · obtain rfl | hb' := List.mem_cons.1 hb
      · rfl
      · exact absurd (List.mem_map.2 ⟨b, hb', hf.symm⟩) hx
    · obtain rfl | hb' := List.mem_cons.1 hb
      · exact absurd (List.mem_map.2 ⟨a, ha', hf⟩) hx
      · exact ih hxs ha' hb'

/-- Whether the load of a tag is outstanding and folded, so that TAINT_PEND counts it already (R227). -/
def Block.carries (b : Block) (r : TagRec) : Bool := b.loads.any (fun l => l.id == r.load && l.folded)

/-- A load behind the fold of some tags: it is folded where one of them is its own, still outstanding. -/
def ObjLoad.foldedBy (rs : List TagRec) (l : ObjLoad) : ObjLoad :=
  { l with folded := l.folded || rs.any (fun r => !r.done && r.load == l.id) }

theorem ObjLoad.foldedBy_cons (r : TagRec) (rs : List TagRec) (l : ObjLoad) :
    l.foldedBy (r :: rs) = (l.foldedBy [r]).foldedBy rs := by
  simp [ObjLoad.foldedBy, Bool.or_assoc]

/-- A load that is folded already, or whose tag is not among those still outstanding, stays as it is. -/
theorem ObjLoad.foldedBy_eq_self {rs : List TagRec} {l : ObjLoad} (h : ∀ r ∈ rs, r.done = false → r.load = l.id → l.folded = true) :
    l.foldedBy rs = l := by
  have hf : (l.folded || rs.any (fun r => !r.done && r.load == l.id)) = l.folded := by
    cases hl : l.folded with
    | true => rfl
    | false =>
      refine any_false fun r hr => ?_
      cases hd : r.done with
      | true => rfl
      | false => simpa [hl] using h r hr hd
  rw [ObjLoad.foldedBy, hf]

/-- Loads that the fold of a tag leaves as they are. -/
theorem map_foldedBy_eq_self {r : TagRec} {ls : List ObjLoad} (h : ∀ l ∈ ls, r.done = false → r.load = l.id → l.folded = true) :
    ls.map (ObjLoad.foldedBy [r]) = ls :=
  (List.map_congr_left fun l hl => ObjLoad.foldedBy_eq_self fun _ hq => List.mem_singleton.1 hq ▸ h l hl).trans (List.map_id' _)

/-- Of loads with distinct numbers, the fold of one tag marks its own, raises the floor where that is complete, and else counts it once
(R227). -/
theorem Block.foldTag_eq {b : Block} (r : TagRec) (hids : (b.loads.map (·.id)).Nodup) : b.foldTag r = { b with
    floor := if r.done then maxStamp b.floor r.stamp else b.floor
    pend := b.pend + if !r.done && !b.carries r then 1 else 0
    loads := b.loads.map (ObjLoad.foldedBy [r]) } := by
  unfold Block.foldTag
  cases hdone : r.done with
  | true => simp [map_foldedBy_eq_self (r := r) (ls := b.loads) (by simp [hdone])]
  | false =>
    cases hcar : b.carries r with
    | true =>
      have hloads : b.loads.map (ObjLoad.foldedBy [r]) = b.loads := by
        obtain ⟨x, hx, hxr⟩ := List.any_eq_true.1 hcar
        simp only [Bool.and_eq_true, beq_iff_eq] at hxr
        refine map_foldedBy_eq_self fun l hl _ hrl => ?_
        rw [eq_of_nodup_map hids hl hx (hrl.symm.trans hxr.1.symm)]
        exact hxr.2
      rw [Block.carries] at hcar
      simp [hloads, hcar]
    | false =>
      have hloads : b.loads.map (ObjLoad.foldedBy [r]) = b.loads.map (fun l => if l.id == r.load then { l with folded := true } else l) := by
        refine List.map_congr_left fun l _ => ?_
        by_cases hl : l.id = r.load
        · simp [ObjLoad.foldedBy, hdone, hl]
        · rw [ObjLoad.foldedBy_eq_self (by simp [Ne.symm hl]), if_neg (by simp [hl])]
      rw [Block.carries] at hcar
      simp [hloads, hcar]

theorem Block.carries_foldTag {b : Block} {r q : TagRec} (hids : (b.loads.map (·.id)).Nodup) (hne : r.load ≠ q.load) :
    (b.foldTag r).carries q = b.carries q := by
  rw [Block.foldTag_eq r hids, Block.carries, List.any_map]
  refine List.any_congr rfl fun l => ?_
  by_cases hl : l.id = q.load
  · simp [ObjLoad.foldedBy, hl, hne]
  · simp only [Function.comp_apply, ObjLoad.foldedBy, beq_eq_false_iff_ne.2 hl, Bool.false_and]

/-- The fold of several tags of distinct loads (R227, R237). -/
theorem Block.foldTags_eq (rs : List TagRec) {b : Block} (hrs : (rs.map (·.load)).Nodup) (hids : (b.loads.map (·.id)).Nodup) :
    rs.foldl Block.foldTag b = { b with
      floor := (rs.filter (·.done)).foldl (fun f r => maxStamp f r.stamp) b.floor
      pend := b.pend + (rs.filter (fun r => !r.done && !b.carries r)).length
      loads := b.loads.map (ObjLoad.foldedBy rs) } := by
  induction rs generalizing b with
  | nil =>
    have hloads : b.loads.map (ObjLoad.foldedBy []) = b.loads :=
      (List.map_congr_left fun l _ => ObjLoad.foldedBy_eq_self (by simp)).trans (List.map_id' _)
    rw [hloads]
    rfl
  | cons r rs ih =>
    rw [List.map_cons, List.nodup_cons] at hrs
    have hids' : ((b.foldTag r).loads.map (·.id)).Nodup := by
      rw [Block.foldTag_eq r hids, List.map_map]
      exact hids
    have hcar : rs.filter (fun q => !q.done && !(b.foldTag r).carries q) = rs.filter (fun q => !q.done && !b.carries q) :=
      List.filter_congr fun q hq => by
        rw [Block.carries_foldTag hids fun h => hrs.1 (List.mem_map.2 ⟨q, hq, h.symm⟩)]
    have hloads : b.loads.map (ObjLoad.foldedBy (r :: rs)) = (b.loads.map (ObjLoad.foldedBy [r])).map (ObjLoad.foldedBy rs) := by
      rw [List.map_map]
      exact List.map_congr_left fun l _ => l.foldedBy_cons r rs
    rw [List.foldl_cons, ih hrs.2 hids', hcar, Block.foldTag_eq r hids, hloads]
    cases hdone : r.done <;> cases hc : b.carries r <;> simp [hdone, hc, Nat.add_assoc, Nat.add_comm 1]

/-! ## The obligation -/

/-- Settles O27: each instruction is the lemma about it above, `tfold` by the fold of distinct tags. -/
theorem fences : Obligations.Fences := by
  unfold Obligations.Fences
  refine ⟨⟨?_, ?_⟩, ?_, ?_⟩
  · rintro s u rfl
    refine ⟨rfl, fun p => ?_, fun lv a bs hp => ?_, rfl, fun sc => ⟨fun hgo => ?_, fun hout hsc => ?_⟩⟩
    · simp [performStores]
    · rw [performStores, hp]
      rfl
    · refine (execFence_eq sc s).trans (if_neg ?_)
      rintro ⟨hsc, hout⟩
      obtain hno | ⟨hpkg, hpod⟩ := hgo
      · exact absurd hout (by simp [hno])
      · exact hsc.elim hpkg hpod
    · exact (execFence_eq sc s).trans (if_pos ⟨hsc, hout⟩)
  · rintro s sd lv sa off hheld hlv hr hf t rfl
    have hload : Ready s.blk [sa] [] [sd] [] := ready_of_subset hr (by simp) (by simp)
    have hstore : Ready s.blk [sa, sd] [] [] [] := ready_of_subset hr (by simp) (by simp)
    refine ⟨?_, ?_, ?_⟩
    · exact (exec_ldI64 ..).trans ((withRegs_ready _ hload).trans (checked_covered_of_fenceHeld _ hf hlv hheld))
    · exact (exec_stI64 ..).trans ((withRegs_ready _ hstore).trans (checked_covered_of_fenceHeld _ hf hlv hheld))
    · exact (exec_ldFe ..).trans ((withRegs_ready _ hload).trans (checked_covered_of_fenceHeld _ hf hlv hheld))
  · rintro s sa m hr hsmall rfl
    have hlow : ¬ ((rdS s.blk sa).toNat / 2 ^ 16 != 0) = true := by rw [Nat.div_eq_of_lt hsmall]; decide
    exact ⟨_, (exec_untaint ..).trans ((withRegs_ready _ hr).trans (if_neg hlow)), rfl, s.blk.maskTaint_cleaned _ true, rfl, rfl, rfl, rfl, rfl⟩
  · intro s htags hids
    have hfold := Block.foldTags_eq s.blk.liveTags htags hids
    refine ⟨_, exec_tfold s, rfl, ?_, rfl, ?_, ?_, ?_, ?_⟩
    all_goals
      dsimp only [Block.adv, Block.foldAll]
      rw [hfold]
    · exact Block.maskTaint_cleaned { s.blk with floor := _, pend := _, loads := _ } 0 false
    · rfl
    · rfl
    · simp [Block.maskTaint, ObjLoad.foldedBy]
    · rfl

end Sys2Proof.Machine
end

section
/-! PROOFS. Leases (R215, R219, R290-R292). -/

namespace Sys2Proof.Machine

open Sys2Proof Sys2Proof.Safety

/-! ## The lease tables -/

theorem exec_lease (sd : SReg) (h : BitVec 4) (sa sb : SReg) (add nowait : Bool) (s : State) :
    exec (.lease sd h sa sb add nowait) s = execLease sd h sa sb add nowait s := rfl
theorem exec_leaseGrant (k : Nat) (s : State) : exec (.leaseGrant k) s = execLeaseGrant k s := rfl
theorem exec_unlease (h : BitVec 4) (sa : SReg) (s : State) : exec (.unlease h sa) s = execUnlease h sa s := rfl

theorem writeDesc_mem (s : State) (i : Nat) (d : BitVec 512) : writeDesc s i d = { s with mem := (writeDesc s i d).mem } := by
  unfold writeDesc
  split <;> rfl

/-- LCNT and LHEAD stand in memory, in the object's descriptor (R271, R290). -/
theorem trackLeases_mem (s : State) (h : DWord) : trackLeases s h = { s with mem := (trackLeases s h).mem } := by
  unfold trackLeases
  split
  · rfl
  · split
    · rfl
    · exact writeDesc_mem ..

/-- The lease that a request opens: in the free entry with the lowest index, in that entry's generation (R290). -/
def openedLease (s : State) (r : LeaseReq) (since : Nat) : Lease :=
  ⟨freeEntry s, entryGen s (freeEntry s), r.handle, r.lo, r.hi, r.add, r.pkg, r.holder, r.core, r.half, since, r.number⟩

/-- An opened lease joins the lease table, its identifier is its entry and generation, and memory alone changes besides (R290). -/
theorem openLease_eq (s : State) (r : LeaseReq) (since : Nat) : ∃ m, openLease s r since =
    (BitVec.ofNat 64 (freeEntry s + (entryGen s (freeEntry s)).toNat * 2 ^ 16),
      { s with mem := m, tb := { s.tb with leases := s.tb.leases ++ [openedLease s r since] } }) :=
  ⟨_, congrArg (Prod.mk _) (trackLeases_mem ..)⟩

/-- The leases that are closed leave the table, and memory and the generations alone change besides (R219, R290). -/
theorem trackLeases_closeLeases (s : State) (p : Lease → Bool) (h : DWord) : ∃ m, trackLeases (closeLeases s p) h =
    { s with mem := m, tb := { s.tb with
      leases := s.tb.leases.filter (fun l => !p l), leaseGen := (closeLeases s p).tb.leaseGen } } :=
  ⟨_, trackLeases_mem ..⟩

/-! ## `lease` (R215, R291) -/

section
variable {s : State} {sd sa sb : SReg} {h : BitVec 4} {add nowait : Bool} {r : LeaseReq}

/-- A `lease` whose operands and checks allow it makes its request, at the home here or at another package. -/
theorem execLease_requests (hr : Ready s.blk [sa, sb] [] [sd] []) (hta : taintS s.blk sa = 0) (htb : taintS s.blk sb = 0)
    (hset : Settled s.blk 0) (hlive : LiveHandle s.blk h (s.blk.reqStamp (s.blk.accessT 0)))
    (hkind : dKind (s.blk.hCell h).desc = kTensor ∨ dKind (s.blk.hCell h).desc = kStep)
    (hw : canWrite (s.blk.hCell h).desc s.blk.world = true) (hle : (rdS s.blk sa).toNat ≤ (rdS s.blk sb).toNat)
    (hin : (rdS s.blk sb).toNat < dCount (s.blk.hCell h).desc) (hfew : (heldLeases s s.blk.id).length < 16)
    (hreq : r = ⟨(s.blk.hCell h).v, (rdS s.blk sa).toNat, (rdS s.blk sb).toNat, add, s.pl.pkg, s.blk.id, s.blk.core, s.blk.half, sd, none⟩) :
    execLease sd h sa sb add nowait s =
      if hHome (s.blk.hCell h).v = s.pl.pkg.toNat then leaseHere r nowait s
      else leaseAway r nowait (s.blk.reqStamp (s.blk.accessT 0)) s := by
  have hk : ¬ (!(dKind (s.blk.hCell h).desc == kTensor || dKind (s.blk.hCell h).desc == kStep)) = true := by
    obtain hk | hk := hkind <;> simp [hk]
  have hrange : ¬ ((rdS s.blk sb).toNat < (rdS s.blk sa).toNat || dCount (s.blk.hCell h).desc ≤ (rdS s.blk sb).toNat) = true := by
    simp [hle, hin]
  subst hreq
  unfold execLease
  dsimp only
  rw [withRegs_ready _ hr, liveOthers_live _ hlive, hta, htb, show (0 : Taint) ||| 0 = 0 from rfl, withTaint_settled _ hset,
    withHandle_live _ hlive, if_neg hk, if_neg (by simp [hw]), if_neg hrange, if_neg (by omega)]
  exact ite_congr (propext beq_iff_eq) (fun _ => rfl) fun _ => rfl

/-- A request that nothing excludes opens its lease at once (R215, R290, R291). -/
theorem leaseHere_granted (hroom : s.tb.leases.length + s.tb.leaseWait.length < 16384) (hg : grantable s s.tb.leaseWait r = true) :
    ∃ m, leaseHere r nowait s = .next { s with
      mem := m
      tb := { s.tb with leases := s.tb.leases ++ [openedLease s r s.blk.dispN] }
      blk := (wrS s.blk r.sd (BitVec.ofNat 64 (freeEntry s + (entryGen s (freeEntry s)).toNat * 2 ^ 16)) 0).adv 8 } := by
  obtain ⟨m, hopen⟩ := openLease_eq s r s.blk.dispN
  refine ⟨m, ?_⟩
  rw [leaseHere, leaseTableFull, if_neg (by simpa using hroom), if_pos hg, hopen]
  rfl

/-- A request that is excluded traps where it does not wait, and else joins those that wait (R215, R291). -/
theorem leaseHere_excluded (hroom : s.tb.leases.length + s.tb.leaseWait.length < 16384) (hg : grantable s s.tb.leaseWait r = false) :
    leaseHere r nowait s =
      if nowait = true then strandTrap cLEASE r.handle s
      else waitS { s with tb := { s.tb with leaseWait := s.tb.leaseWait ++ [r] } } (.lease s.tb.leaseWait.length) := by
  rw [leaseHere, leaseTableFull, if_neg (by simpa using hroom), if_neg (by simp [hg])]

/-- A request to another package waits for its answer (R290). -/
theorem leaseAway_asks {f : DWord} {rm : Remote} {s' : State} (hreply : s.blk.reply = none)
    (hsend : sendRequest s (hHome r.handle) opAtomic r.handle 0 none (leaseBody r nowait) = some (rm, s')) :
    leaseAway r nowait f s = waitS s' (.leaseAway rm r.handle r.lo r.hi r.add r.sd f) := by
  simp only [leaseAway, hreply, hsend]

/-- An answer that is no grant traps (R290, R291). -/
theorem leaseAway_refused {f : DWord} {bs : List Byte} (hreply : s.blk.reply = some bs) :
    leaseAway r nowait f s =
      if replyValue bs 0 = 3 then strandTrap cFULL 0x0020 { s with blk := { s.blk with reply := none } }
      else strandTrap cLEASE r.handle { s with blk := { s.blk with reply := none } } := by
  simp only [leaseAway, hreply, beq_iff_eq]

end

/-! ## LEASE_GRANT (R215, R291) -/

/-- The state without the waiting request at a place. -/
def unqueued (s : State) (k : Nat) : State := { s with tb := { s.tb with leaseWait := s.tb.leaseWait.eraseIdx k } }

theorem updBlock_tb (s : State) (id : BId) (f : Block → Block) : (updBlock s id f).tb = s.tb := by
  unfold updBlock
  split <;> rfl

/-- The focus block takes an update of its own identity. -/
theorem updBlock_own {s : State} {id : BId} (f : Block → Block) (hid : id = s.blk.id) (hph : s.blk.phase ≠ .none) :
    updBlock s id f = { s with blk := f s.blk } :=
  if_pos (by simp [hid, hph])

/-- A waiting `lease` behind its grant (R291). -/
def Block.leased (b : Block) (sd : SReg) (v : DWord) : Block := { wrS b sd v 0 with pc := b.pc + 8, wait := none }

section
variable {s : State} {k : Nat} {r : LeaseReq}

/-- A waiting request that may be granted is; one of this package completes its `lease`, and one of another package is answered. -/
theorem execLeaseGrant_grants (hk : s.tb.leaseWait[k]? = some r) (hg : grantable s (s.tb.leaseWait.take k) r = true)
    (hw : leaseAwaited s r = true) : ∃ since m v u,
      v = BitVec.ofNat 64 (freeEntry s + (entryGen s (freeEntry s)).toNat * 2 ^ 16)
      ∧ u = { s with mem := m, tb := { s.tb with
          leaseWait := s.tb.leaseWait.eraseIdx k, leases := s.tb.leases ++ [openedLease s r since] } }
      ∧ ((∃ f, r.frame = some f ∧ execLeaseGrant k s = .next (replyFrame u f [1, v.toNat]))
        ∨ (r.frame = none ∧ execLeaseGrant k s = .next (updBlock u r.holder (fun b => b.leased r.sd v)))) := by
  have hgo : (grantable s (s.tb.leaseWait.take k) r && leaseAwaited s r) = true := by rw [hg, hw]; rfl
  cases hf : r.frame with
  | some f =>
    obtain ⟨m, hopen⟩ := openLease_eq (unqueued s k) r 0
    refine ⟨0, m, _, _, rfl, rfl, .inl ⟨f, rfl, ?_⟩⟩
    rw [unqueued] at hopen
    simp only [execLeaseGrant, hk, hgo, hf, hopen, if_true]
    rfl
  | none =>
    cases hb : findBlock s r.holder with
    | none => simp [leaseAwaited, hf, hb] at hw
    | some b =>
      obtain ⟨m, hopen⟩ := openLease_eq (unqueued s k) r b.dispN
      refine ⟨b.dispN, m, _, _, rfl, rfl, .inr ⟨rfl, ?_⟩⟩
      have hb' : findBlock (unqueued s k) r.holder = some b := hb
      rw [unqueued] at hopen hb'
      simp only [execLeaseGrant, hk, hgo, hf, hb', hopen, if_true]
      rfl

end

/-! ## `unlease` (R219, R292) -/

theorem Block.queued_of_cmds_nil {b : Block} (h : b.cmds = []) : b.queued = [] := (List.append_eq_nil_iff.1 h).2

/-- A block with no command, write or load outstanding has none to wait for (R221). -/
theorem afterWrites_quiet {s : State} (h : DWord) (xcopies : Bool) (k : Out) (hc : s.blk.cmds = []) (hp : s.blk.posted = [])
    (hl : s.blk.loads = []) : afterWrites h xcopies s k = k := by
  simp [afterWrites, hc, Block.queued_of_cmds_nil hc, Block.writesPosted, hp, hl]

/-- The lease that an `unlease` names by its operands (R292). -/
def Lease.named (l : Lease) (s : State) (hv v : DWord) : Bool := l.heldBy s s.blk.id && hObj l.handle == hObj hv && l.ident == v

/-- An `unlease` of a lease that its block holds, at the home here and behind its writes, closes it (R219, R292). -/
theorem execUnlease_closes {s : State} {h : BitVec 4} {sa : SReg} (hr : Ready s.blk [sa] [] [] [])
    (hlive : LiveHandle s.blk h (s.blk.reqStamp (s.blk.accessT (taintS s.blk sa))))
    (hheld : (heldLeases s s.blk.id).any (fun l => l.named s (s.blk.hCell h).v (rdS s.blk sa)) = true)
    (hhome : hHome (s.blk.hCell h).v = s.pl.pkg.toNat) (hc : s.blk.cmds = []) (hp : s.blk.posted = []) (hl : s.blk.loads = []) :
    execUnlease h sa s
      = doneS (trackLeases (closeLeases s (fun l => l.named s (s.blk.hCell h).v (rdS s.blk sa))) (s.blk.hCell h).v) 8 := by
  have hmine : ¬ (!(heldLeases s s.blk.id).any (fun l => l.named s (s.blk.hCell h).v (rdS s.blk sa))) = true := by simp [hheld]
  refine (withRegs_ready _ hr).trans ((liveOthers_live _ hlive).trans ((withHandle_live _ hlive).trans ((if_neg hmine).trans ?_)))
  exact (afterWrites_quiet _ _ _ hc hp hl).trans (if_pos (beq_iff_eq.2 hhome))

/-- The close of the only lease raises its entry's generation (R290). -/
theorem entryGen_closeLeases {s : State} {p : Lease → Bool} {l : Lease} (hs : s.tb.leases = [l]) (hp : p l = true) :
    entryGen (closeLeases s p) l.entry = entryGen s l.entry + 1 := by
  simp [entryGen, closeLeases, hs, hp]

/-! ## The obligation -/

/-- Settles O38: each instruction and event is the lemma about it above. -/
theorem leases : Obligations.Leases := by
  unfold Obligations.Leases
  refine ⟨?_, ?_, ?_, ?_⟩
  · rintro s sd h sa sb add nowait hr hta htb hset hlive d hv rfl rfl hkind hw hle hin hfew r hreq
    have hexec := (exec_lease sd h sa sb add nowait s).trans
      (execLease_requests (nowait := nowait) hr hta htb hset hlive hkind hw hle hin hfew hreq)
    refine ⟨fun hhome hroom => ?_, fun hfar u hu => ?_⟩
    · rw [hexec, if_pos hhome]
      refine ⟨fun hg => ?_, fun hg hn => ?_, fun hg hn => ?_⟩
      · obtain ⟨m, hgrant⟩ := leaseHere_granted (nowait := nowait) hroom hg
        refine ⟨_, hgrant, ?_, ?_⟩ <;> subst hreq <;> rfl
      · rw [leaseHere_excluded hroom hg, if_pos hn, hreq]
      · rw [leaseHere_excluded hroom hg, if_neg (by simp [hn])]
        rfl
    · rw [hexec, if_neg hfar]
      refine ⟨fun rm s' hreply hsend => ?_, fun bs hreply => ?_⟩
      · have hh : (s.blk.hCell h).v = r.handle := by rw [hreq]
        rw [leaseAway_asks hreply (hh ▸ hsend), hreq]
        rfl
      · rw [leaseAway_refused hreply, hreq, hu]
  · rintro b h lo hi add sd bs s v hone rfl
    exact if_pos (beq_iff_eq.2 hone)
  · intro s k r hk hg hw
    obtain ⟨since, m, v, u, hv, hu, hcase⟩ := execLeaseGrant_grants hk hg hw
    have hin : openedLease s r since ∈ u.tb.leases := by
      rw [hu]
      exact List.mem_append_right _ (List.mem_singleton_self _)
    obtain ⟨f, hf, hexec⟩ | ⟨hf, hexec⟩ := hcase
    · refine ⟨_, (exec_leaseGrant k s).trans hexec, ?_, ⟨_, hin, rfl, rfl, rfl, rfl, rfl, rfl, rfl⟩, fun hn => ?_⟩
      · rw [hu]
        rfl
      · exact absurd (hf.symm.trans hn) (by simp)
    · refine ⟨_, (exec_leaseGrant k s).trans hexec, ?_, ⟨_, (updBlock_tb u r.holder _).symm ▸ hin, rfl, rfl, rfl, rfl, rfl, rfl, rfl⟩,
        fun _ hid hph => ?_⟩
      · rw [updBlock_tb, hu]
      · have hub : u.blk = s.blk := by rw [hu]
        rw [updBlock_own _ (by rw [hid, hub]) (by simp [hub, hph]), hub, hv]
        rfl
  · intro s h sa l hr hlive hone haway hpkg hholder hobj hhome hv hc hp hl
    have hnamed : l.named s (s.blk.hCell h).v (rdS s.blk sa) = true := by
      simp [Lease.named, Lease.heldBy, hpkg, hholder, hobj, hv, Lease.ident]
    have hheld : (heldLeases s s.blk.id).any (fun l => l.named s (s.blk.hCell h).v (rdS s.blk sa)) = true := by
      simp [heldLeases, hone, haway, Lease.heldBy, hpkg, hholder, hnamed]
    obtain ⟨m, hclose⟩ := trackLeases_closeLeases s (fun l => l.named s (s.blk.hCell h).v (rdS s.blk sa)) (s.blk.hCell h).v
    have hnone : s.tb.leases.filter (fun l => !l.named s (s.blk.hCell h).v (rdS s.blk sa)) = [] := by simp [hone, hnamed]
    rw [hnone] at hclose
    refine ⟨_, (exec_unlease h sa s).trans ((execUnlease_closes hr hlive hheld hhome hc hp hl).trans (congrArg (doneS · 8) hclose)), rfl,
      entryGen_closeLeases hone hnamed, rfl⟩

end Sys2Proof.Machine
end

section
/-! PROOFS. Versions of objects (R221, R222, R322, R323). -/

namespace Sys2Proof.Machine

open Sys2Proof Sys2Proof.Safety

/-! ## What the two instructions do to the state -/

theorem exec_publish (sd : SReg) (h : BitVec 4) (s : State) : exec (.publish sd h) s = execPublish sd h s := rfl
theorem exec_subscribe (sd : SReg) (h : BitVec 4) (sa : SReg) (s : State) : exec (.subscribe sd h sa) s = execSubscribe sd h sa s := rfl

theorem wrS_s_congr {b b' : Block} (h : b.s = b'.s) (r : SReg) (v : DWord) (t : Taint) : (wrS b r v t).s = (wrS b' r v t).s := by
  by_cases h0 : r = 0#6 <;> simp [wrS, h0, h]

@[simp] theorem writeDesc_tm (s : State) (i : Nat) (d : BitVec 512) : (writeDesc s i d).tm = s.tm := by rw [writeDesc_mem]
@[simp] theorem writeDesc_pl (s : State) (i : Nat) (d : BitVec 512) : (writeDesc s i d).pl = s.pl := by rw [writeDesc_mem]

theorem performStores_of_posted_nil {s : State} (h : s.blk.posted = []) : performStores s = s := by
  rw [performStores, h]
  exact congrArg (fun ps => { s with blk := { s.blk with posted := ps } }) h.symm

/-- The close of a block's leases on an object changes memory and the lease tables alone, and leaves none of them (R219, R221). -/
theorem closeOwn_eq (s : State) (h : DWord) : ∃ m tb, closeOwn s h = { s with mem := m, tb := tb }
    ∧ tb.leases = s.tb.leases.filter (fun l => !(l.heldBy s s.blk.id && hObj l.handle == hObj h)) := by
  obtain ⟨m, hclose⟩ := trackLeases_closeLeases s (fun l => l.heldBy s s.blk.id && hObj l.handle == hObj h) h
  unfold closeOwn
  dsimp only
  rw [hclose]
  exact ⟨m, _, rfl, rfl⟩

/-- The home of an object on this package raises its version by what is asked, under the next value of its clock (R220, R221). -/
theorem publishHere_eq {s : State} {h : DWord} {d : BitVec 512} (f : DWord) (next : Nat → Nat) (hd : readDesc s (hIndex h) = .ok d) :
    publishHere s h f next = .ok (BitVec.ofNat 64 (next (dVersion d) % 2 ^ 64), maxStamp s.tm.pclk f + 1,
      writeDesc { s with tm := { s.tm with pclk := maxStamp s.tm.pclk f + 1 } } (hIndex h)
        (dSetWord (dSetWord d 5 (next (dVersion d) % 2 ^ 64)) 6 (maxStamp s.tm.pclk f + 1).toNat)) := by
  simp only [publishHere, hd, mergeClock, writeDesc_tm]

theorem dVersion_lt (d : BitVec 512) : dVersion d < 2 ^ 64 := Nat.mod_lt _ (Nat.two_pow_pos 64)

/-! ## `publish` (R221, R322) -/

/-- A `publish` at the home here, whose checks pass and with nothing of the block outstanding, raises the object's version by 1. -/
theorem execPublish_here {s : State} {sd : SReg} {h : BitVec 4} {f : DWord} {d : BitVec 512} (hr : Ready s.blk [] [] [sd] [])
    (hreply : s.blk.reply = none) (hset : Settled s.blk 0) (hf : f = s.blk.reqStamp (s.blk.accessT 0)) (hlive : LiveHandle s.blk h f)
    (hc : s.blk.cmds = []) (hp : s.blk.posted = []) (hl : s.blk.loads = [])
    (hfault : versionFault (s.blk.hCell h).desc s.blk.world false true = none) (hhome : hHome (s.blk.hCell h).v = s.pl.pkg.toNat)
    (hd : readDesc s (hIndex (s.blk.hCell h).v) = .ok d) : execPublish sd h s =
      publishDone sd (s.blk.hCell h).v (BitVec.ofNat 64 ((dVersion d + 1) % 2 ^ 64)) (maxStamp s.tm.pclk f + 1)
        (writeDesc { s with tm := { s.tm with pclk := maxStamp s.tm.pclk f + 1 } } (hIndex (s.blk.hCell h).v)
          (dSetWord (dSetWord d 5 ((dVersion d + 1) % 2 ^ 64)) 6 (maxStamp s.tm.pclk f + 1).toNat)) := by
  unfold execPublish
  rw [hreply]
  dsimp only
  rw [withRegs_ready _ hr, liveOthers_live _ hlive, withTaint_settled _ hset, ← hf, withHandle_live _ hlive, hfault, unlessCause,
    afterWrites_quiet _ _ _ hc hp hl, performStores_of_posted_nil hp, if_neg (by simp [hhome]), publishHere_eq _ _ hd]

/-- The end of a `publish`: the version in its register, TAINT_FLOOR raised, and the block's leases on the object closed (R221). -/
theorem publishDone_ends (sd : SReg) (h v stamp : DWord) (s : State) : ∃ t, publishDone sd h v stamp s = .next t
    ∧ t.tm = s.tm ∧ t.mem = (closeOwn s h).mem ∧ t.blk.s = (wrS s.blk sd v 0).s ∧ t.blk.floor = maxStamp s.blk.floor stamp
    ∧ ∀ l ∈ t.tb.leases, l.pkg = s.pl.pkg → l.holder = s.blk.id → hObj l.handle ≠ hObj h := by
  obtain ⟨m, tb, hclose, hleases⟩ := closeOwn_eq s h
  refine ⟨_, doneB_next .., ?_, rfl, ?_, ?_, fun l hl hpkg hid => ?_⟩
  · rw [hclose]
  · rw [hclose]
    exact wrS_s_congr (b' := s.blk) (by rfl) sd v 0
  · rw [hclose]
    exact wrS_floor ..
  · rw [hclose, hleases] at hl
    simpa [Lease.heldBy, hpkg, hid] using (List.mem_filter.1 hl).2

/-! ## `subscribe` (R222, R323) -/

/-- A `subscribe` at the home here, whose checks pass and with room among the block's subscriptions, looks at the version there. -/
theorem execSubscribe_here {s : State} {sd sa : SReg} {h : BitVec 4} {d : BitVec 512} (hr : Ready s.blk [sa] [] [sd] [])
    (hreply : s.blk.reply = none) (hta : taintS s.blk sa = 0) (hset : Settled s.blk 0)
    (hlive : LiveHandle s.blk h (s.blk.reqStamp (s.blk.accessT 0)))
    (hfault : versionFault (s.blk.hCell h).desc s.blk.world false false = none) (hhome : hHome (s.blk.hCell h).v = s.pl.pkg.toNat)
    (hroom : s.blk.subs.length < 32) (hd : readDesc s (hIndex (s.blk.hCell h).v) = .ok d) : execSubscribe sd h sa s =
      subscribeDone sd (s.blk.hCell h).v (rdS s.blk sa) (BitVec.ofNat 64 (dVersion d)) (BitVec.ofNat 64 (dStamp d))
        (mergeClock s (s.blk.reqStamp (s.blk.accessT 0))) := by
  have hfull : ¬ (!subscribed s.blk (s.blk.hCell h).v && 32 ≤ s.blk.subs.length) = true := by
    simp [Nat.not_le.2 hroom]
  unfold execSubscribe
  rw [hreply, hta]
  dsimp only
  rw [withRegs_ready _ hr, liveOthers_live _ hlive, withTaint_settled _ hset, withHandle_live _ hlive, hfault, unlessCause, if_neg hfull,
    if_neg (by simp [hhome]), hd]

/-- A recorded subscription changes the list of subscriptions alone. -/
theorem Block.subscribe_eq (b : Block) (h : DWord) : b.subscribe h = { b with subs := (b.subscribe h).subs } := by
  unfold Block.subscribe
  split <;> rfl

theorem Block.subscribed_subscribe (b : Block) (h : DWord) : subscribed (b.subscribe h) h = true := by
  unfold Block.subscribe
  split
  · assumption
  · simp [subscribed]

/-- Where the version is there, a `subscribe` returns it, records the object and raises TAINT_FLOOR to its stamp (R222). -/
theorem subscribeDone_there (sd : SReg) (h : DWord) {v ver : DWord} (stamp : DWord) (s : State) (hv : v.toNat ≤ ver.toNat) :
    ∃ t, subscribeDone sd h v ver stamp s = .next t ∧ t.mem = s.mem ∧ subscribed t.blk h = true
      ∧ t.blk.floor = maxStamp s.blk.floor stamp ∧ t.blk.s = (wrS s.blk sd ver 0).s := by
  refine ⟨_, if_neg (Nat.not_lt.2 hv), rfl, ?_, ?_, ?_⟩
  · rw [subscribed, Block.adv_subs, wrS_subs]
    exact Block.subscribed_subscribe _ h
  · rw [Block.adv_floor, wrS_floor, Block.subscribe_eq]
  · rw [Block.adv_s, Block.subscribe_eq]
    exact wrS_s_congr (b' := s.blk) (by rfl) sd ver 0

/-- Where it is not there yet, a `subscribe` waits (R222). -/
theorem subscribeDone_waits (sd : SReg) (h : DWord) {v ver : DWord} (stamp : DWord) (s : State) (hv : ver.toNat < v.toNat) :
    subscribeDone sd h v ver stamp s = waitS { s with blk := { s.blk with reply := none } } .subscribe :=
  if_pos hv

/-! ## The obligation -/

/-- Settles O39: `publish` by what its end does, `subscribe` by whether the version is there. -/
theorem versions : Obligations.Versions := by
  unfold Obligations.Versions
  refine ⟨?_, ?_⟩
  · rintro s sd h d s₁ hr hreply hset hlive hc hp hl hfault hhome rfl hd
    obtain ⟨t, hdone, htm, hmem, hs, hfloor, hleases⟩ := publishDone_ends sd (s.blk.hCell h).v
      (BitVec.ofNat 64 ((dVersion d + 1) % 2 ^ 64)) (maxStamp s.tm.pclk (s.blk.reqStamp (s.blk.accessT 0)) + 1) _
    refine ⟨t, (exec_publish sd h s).trans ((execPublish_here hr hreply hset rfl hlive hc hp hl hfault hhome hd).trans hdone), ?_, hmem, ?_,
      ?_, ?_⟩
    · rw [htm, writeDesc_tm]
    · rw [hs, writeDesc_blk]
    · rw [hfloor, writeDesc_blk]
    · rwa [writeDesc_blk, writeDesc_pl] at hleases
  · intro s sd h sa d hr hreply hta hset hlive hfault hhome hroom hd
    have hexec := (exec_subscribe sd h sa s).trans (execSubscribe_here hr hreply hta hset hlive hfault hhome hroom hd)
    have hver : (BitVec.ofNat 64 (dVersion d)).toNat = dVersion d := Nat.mod_eq_of_lt (dVersion_lt d)
    refine ⟨fun hthere => ?_, fun hlater => ?_⟩
    · rw [← hver] at hthere
      obtain ⟨t, hdone, ht⟩ := subscribeDone_there sd (s.blk.hCell h).v (BitVec.ofNat 64 (dStamp d))
        (mergeClock s (s.blk.reqStamp (s.blk.accessT 0))) hthere
      exact ⟨t, hexec.trans hdone, ht⟩
    · rw [← hver] at hlater
      refine ⟨_, hexec.trans (subscribeDone_waits _ _ _ _ hlater), ?_, rfl⟩
      exact congrArg (fun x => { s.blk with reply := x, wait := some .subscribe }) hreply.symm

end Sys2Proof.Machine
end

section
/-! PROOFS. `launch` and `cbtok` (R255, R342). -/

namespace Sys2Proof.Machine

open Sys2Proof Sys2Proof.Safety

/-! ## The block behind a spill fold -/

/-- The spill fold of a store or a launch changes the floor, TAINT_PEND and the marks of the outstanding loads alone (R191, R227). -/
theorem Block.spill_fields (b : Block) (t : Taint) : ∃ f n l, b.spill t = { b with floor := f, pend := n, loads := l } :=
  b.foldSet_fields _

theorem Block.spill_posted (b : Block) (t : Taint) : (b.spill t).posted = b.posted := by
  obtain ⟨f, n, l, hspill⟩ := b.spill_fields t
  rw [hspill]

theorem Block.spill_spA (b : Block) (t : Taint) (off : Nat) : (b.spill t).spA off = b.spA off := by
  obtain ⟨f, n, l, hspill⟩ := b.spill_fields t
  rw [hspill]
  rfl

/-- A spill fold and a scalar's write change different fields. -/
theorem wrS_spill (b : Block) (t : Taint) (r : SReg) (v : DWord) : wrS (b.spill t) r v 0 =
    { wrS b r v 0 with floor := (b.spill t).floor, pend := (b.spill t).pend, loads := (b.spill t).loads } := by
  obtain ⟨f, n, l, hspill⟩ := b.spill_fields t
  rw [hspill]
  unfold wrS
  split <;> rfl

/-- So do a posted write and a scalar's. -/
theorem wrS_setPosted (b : Block) (ps : List Posted) (r : SReg) (v : DWord) (t : Taint) :
    wrS { b with posted := ps } r v t = { wrS b r v t with posted := ps } := by
  unfold wrS
  split <;> rfl

/-! ## Records of a ring (R255) -/

theorem LaunchRec.bytes_length (r : LaunchRec) : r.bytes.length = 128 :=
  calc r.bytes.length
    _ = ((List.range 16).map (fun k => (leBytes 8 (r.w k)).length)).sum := List.length_flatMap
    _ = ((List.range 16).map (fun _ => 8)).sum := by simp only [leBytes_length]
    _ = 128 := rfl

/-- A write at guest memory that meets no failing walk and no poison stores its bytes where the page lies (R183, R278). -/
theorem guestWrite_translated {s u : State} {die : Nat} {fn : BitVec 6} {gpa a : Nat} {bs : List Byte}
    (ht : g2Translate s die (fnWorld s fn) gpa true = (.ok a, u)) (hp : Memory.writePoison u.mem a bs.length = none) :
    guestWrite s die fn gpa bs = .ok { u with mem := Memory.writeAll u.mem a bs } := by
  simp only [guestWrite, ht, hp]

section

variable {s : State} {fn : BitVec 6} {q : Nat} {rec : LaunchRec} {r : List Nat} (hr : queueRec s fn q = some r)

include hr

/-- A full ring takes no record. -/
theorem appendRecord_full (hfull : ((queueEnds s fn q r).2 - (queueEnds s fn q r).1).toNat = qSize r) :
    appendRecord s fn q rec = .ok (none, s) := by
  simp only [appendRecord, queueLook_of_queueRec hr, hfull, beq_self_eq_true, if_true]

/-- A ring with a free slot takes the record at TAIL, and its queue is notified with TAIL + 1. -/
theorem appendRecord_free {u v : State} {tail : Word} (htail : tail = (queueEnds s fn q r).2)
    (hroom : (tail - (queueEnds s fn q r).1).toNat ≠ qSize r)
    (hw : guestWrite s (lowDie s) fn (r.getD 0 0 + 128 * (tail.toNat % qSize r)) rec.bytes = .ok u)
    (hn : tryNotify u fn q (tail + 1) = .ok v) : appendRecord s fn q rec = .ok (some tail, v) := by
  subst htail
  simp only [appendRecord, queueLook_of_queueRec hr, beq_eq_false_iff_ne.2 hroom, Bool.false_eq_true, if_false, hw, hn, Except.map]

end

/-! ## `launch` (R255) -/

theorem exec_launch (sd sa sb : SReg) (s : State) : exec (.launch sd sa sb) s = execLaunch sd sa sb s := rfl

theorem launchable_of_producer {r : List Nat} (hp : qProducer r = true) (he : qErr r = false) : launchable (some r) = true := by
  simp only [launchable, hp, he, Bool.not_false, Bool.and_self]

/-- A `launch` whose checks pass performs the block's stores and appends its record; the slot, or all ones, goes to its scalar. -/
theorem execLaunch_appends {s u : State} {sd sa sb : SReg} {r : List Nat} {slot : Option Word} (hr : Ready s.blk [sa, sb] [] [sd] [])
    (hf : launchFault s (rdS s.blk sa).toNat = none) (hrec : queueRec s s.blk.fn (rdS s.blk sb).toNat = some r)
    (hp : qProducer r = true) (he : qErr r = false) (ha : s.blk.atomicsOut = false)
    (happ : appendRecord (performStores s) s.blk.fn (rdS s.blk sb).toNat
      (recordOf (Memory.chip (performStores s).mem (s.blk.spA (rdS s.blk sa).toNat) 128)) = .ok (slot, u)) :
    execLaunch sd sa sb s = doneB u (wrS (u.blk.spill (taintS s.blk sa ||| taintS s.blk sb)) sd
      (slot.elim (BitVec.allOnes 64) (·.setWidth 64)) 0) 8 := by
  unfold execLaunch
  dsimp only
  rw [withRegs_ready _ hr, hf, checked, queueLook_of_queueRec hrec]
  dsimp only
  rw [launchable_of_producer hp he, ha, Bool.not_true, if_neg Bool.false_ne_true, if_neg Bool.false_ne_true, happ]
  cases slot <;> rfl

/-! ## `cbtok` (R342) -/

theorem exec_cbtok (sd sa : SReg) (imm : BitVec 18) (s : State) : exec (.cbtok sd sa imm) s = execCbtok sd sa imm s := rfl

section

variable {s : State} {sd sa : SReg} {imm : BitVec 18} (hr : Ready s.blk [sa] [] [sd] [])
  (hf : cbtokFault s (immAddr s.blk sa imm) = none)

include hr hf

/-- A `cbtok` whose checks pass, with room among the stores in flight, posts the token's bytes; COUNT goes to its scalar. -/
theorem execCbtok_posts {k : CbToken} (hk : latestToken s s.blk.part = some k) (hroom : s.blk.storesInFlight < 32) :
    execCbtok sd sa imm s = doneB s (wrS { s.blk.spill (taintS s.blk sa) with
      posted := s.blk.posted ++ [.store .sp (s.blk.spA (immAddr s.blk sa imm)) (k.bytes s)] } sd k.count 0) 8 := by
  have haddr (off : Nat) : levelAddr s (s.blk.spill (taintS s.blk sa)) .sp off = s.blk.spA off := Block.spill_spA ..
  unfold execCbtok
  dsimp only
  rw [withRegs_ready _ hr, hf, checked, hk]
  dsimp only
  rw [if_neg (Nat.not_le.2 hroom), haddr, Block.spill_posted]

/-- Where the token of the latest scrub does not exist, a `cbtok` waits. -/
theorem execCbtok_waits (hk : latestToken s s.blk.part = none) : execCbtok sd sa imm s = waitS s .clearboard := by
  unfold execCbtok
  dsimp only
  rw [withRegs_ready _ hr, hf, checked, hk]

end

/-! ## The obligation -/

/-- Settles O49: what an appended record does to the ring, and that appending leaves the strand's block as its stores have left it. -/
theorem launchAndToken : Obligations.LaunchAndToken := by
  unfold Obligations.LaunchAndToken
  refine ⟨?_, fun s fn q rec r hr => ⟨appendRecord_full hr, ?_⟩, ?_, ?_⟩
  · rintro s sd sa sb _ _ s₁ slot s₂ r hr rfl rfl hf hrec hp he ha rfl happ
    have hframe : GuestFrame (performStores s) s₂ := appendRecord_guest happ
    have hblk : s₂.blk = (performStores s).blk := by rw [hframe]
    refine ⟨_, (exec_launch ..).trans ((execLaunch_appends hr hf hrec hp he ha happ).trans (doneB_next ..)), ?_⟩
    rw [hblk, wrS_spill]
    cases slot <;> rfl
  · intro tail a u v htail hroom ht hpoison hn
    exact appendRecord_free hr htail hroom (guestWrite_translated ht (by rwa [LaunchRec.bytes_length])) hn
  · rintro s sd sa imm _ k hr rfl hf hk hroom
    refine ⟨_, (exec_cbtok ..).trans ((execCbtok_posts hr hf hk hroom).trans (doneB_next ..)), ?_⟩
    rw [wrS_setPosted, wrS_spill]
    rfl
  · rintro s sd sa imm _ hr rfl hf hk
    exact (exec_cbtok ..).trans (execCbtok_waits hr hf hk)

end Sys2Proof.Machine
end

section
/-! PROOFS. The lock of a part (R344). -/

namespace Sys2Proof.Machine

open Sys2Proof Sys2Proof.Safety

/-! ## What a locked part does -/

/-- A locked part refuses every event but a package reset and a loss of power (R344). -/
theorem lockedOut_of_locked {s : State} {i : Instr} (h : s.wo.locked = true) (hr : i ≠ .packageReset) (hl : i ≠ .powerLoss) :
    lockedOut s i = true := by
  unfold lockedOut
  split <;> simp_all

/-- The focus moves the blocks about and nothing else. -/
theorem focus_frame (s : State) (id : BId) : ∃ b bs, focus s id = { s with blk := b, others := bs } := by
  unfold focus
  split
  · exact ⟨_, _, rfl⟩
  · split <;> exact ⟨_, _, rfl⟩

theorem step_of_stay {s u t : State} (hc : choose s = .stay u) (h : step s = .next t) : t = u := by
  rw [step, hc] at h
  cases h
  rfl

/-- Settles O6, along the head of the agenda. -/
theorem lockHolds : Obligations.LockHolds := by
  unfold Obligations.LockHolds
  intro s t hlock hreset hloss hstep
  cases ha : s.agenda with
  | nil =>
    have hc : choose s = .stay s := by simp [choose, ha, hlock]
    obtain rfl := step_of_stay hc hstep
    simp [ha]
  | cons a rest =>
    cases a with
    | event i =>
      have hout : lockedOut { s with agenda := rest } i = true :=
        lockedOut_of_locked hlock (fun e => hreset rest (e ▸ ha)) (fun e => hloss rest (e ▸ ha))
      have hc : choose s = .stay { s with agenda := rest } := by simp [choose, ha, hout]
      obtain rfl := step_of_stay hc hstep
      simp
    | turnTo id =>
      obtain ⟨b, bs, hf⟩ := focus_frame { s with agenda := rest } id
      have hc : choose s = .stay { s with agenda := rest, blk := b, others := bs } := by simp [choose, ha, hf]
      obtain rfl := step_of_stay hc hstep
      simp

end Sys2Proof.Machine
end

section
/-! PROOFS. The reads of time (R303, R305, R308, R325). -/

namespace Sys2Proof.Machine

open Sys2Proof Sys2Proof.Safety

/-! ## Device time -/

theorem exec_tick (sd : SReg) (s : State) : exec (.tick sd) s = execTick sd s := rfl
theorem exec_tickDc (sd sa : SReg) (s : State) : exec (.tickDc sd sa) s = execTickDc sd sa s := rfl
theorem exec_turn (sd : SReg) (s : State) : exec (.turn sd) s = execTurn sd s := rfl
theorem exec_turnw (sa : SReg) (s : State) : exec (.turnw sa) s = execTurnw sa s := rfl

/-- A number that is cut to the greatest device time is read as it is (R303). -/
theorem toNat_ofNat_capped (n : Nat) : (BitVec.ofNat 64 (min n (2 ^ 64 - 1))).toNat = min n (2 ^ 64 - 1) :=
  Nat.mod_eq_of_lt (by omega)

/-- A read of device time moves it forward or leaves it, and takes one free number (R303, R305). -/
theorem readTime_eq (s : State) : ∃ v, s.tm.dtime.toNat ≤ v.toNat
    ∧ readTime s = (v, { s with fresh := s.fresh + 1, tm := { s.tm with dtime := v } }) := by
  refine ⟨_, ?_, rfl⟩
  rw [toNat_ofNat_capped]
  have := s.tm.dtime.isLt
  omega

/-! ## The obligation -/

/-- Settles O31: each read is the write of its value. -/
theorem timeAndTurns : Obligations.TimeAndTurns := by
  unfold Obligations.TimeAndTurns
  refine ⟨fun s sd hr => ?_, fun s sd sa hr hlo hhi => ?_, fun s sd hr => ?_, fun s sa hr => ?_, fun s l hl hlock => ?_, fun s hl => ?_⟩
  · obtain ⟨v, hv, ht⟩ := readTime_eq s
    exact ⟨v, s.fresh + 1, hv, by rw [exec_tick, execTick, withRegs_ready _ hr, ht]; rfl⟩
  · rw [exec_tickDc, execTickDc]
    dsimp only
    rw [withRegs_ready _ hr, if_pos (by simp [hlo, hhi])]
    rfl
  · rw [exec_turn, execTurn, withRegs_ready _ hr]
    rfl
  · rw [exec_turnw, execTurnw, withRegs_ready _ hr]
    rfl
  · simp [blockTurn, ownLaunch, hl, hlock]
  · simp [blockTurn, ownLaunch, hl]

end Sys2Proof.Machine
end

section
/-! PROOFS. Time events and the timetable (R304, R306, R309, R311, R325). -/

namespace Sys2Proof.Machine

open Sys2Proof Sys2Proof.Safety

/-! ## The counters of a partition -/

theorem exec_dcvalWrite (v : BitVec 64) (s : State) : exec (.dcvalWrite v) s = execDcvalWrite v s := rfl
theorem exec_ttctlWrite (v : BitVec 64) (s : State) : exec (.ttctlWrite v) s = execTtctlWrite v s := rfl
theorem exec_timetableRelease (part : BitVec 4) (s : State) : exec (.timetableRelease part) s = execTimetableRelease part s := rfl
theorem exec_turnBoundary (part : BitVec 4) (s : State) : exec (.turnBoundary part) s = execTurnBoundary part s := rfl
theorem exec_ptpEventFrame (port : BitVec 5) (f : TimeFrame) (s : State) : exec (.ptpEventFrame port f) s = execPtpEventFrame port f s := rfl

@[simp] theorem partOf_setPart_same (s : State) (part : BitVec 4) (p : Part) : partOf (setPart s part p) part = p := by
  simp [partOf, setPart, part.isLt]

theorem depCounter_setDep (s : State) (i v j : Nat) : depCounter (setDep s i v) j = if j = i then min v 4096 else depCounter s j := by
  unfold depCounter setDep
  by_cases h : j = i
  · simp [h]
  · have hf : (s.tm.dc.filter (fun x => x.1 != i)).find? (fun x => x.1 == j) = s.tm.dc.find? (fun x => x.1 == j) :=
      find?_filter_of_imp fun x hx => by simp_all
    simp [h, Ne.symm h, hf]

/-! ## Moves and turns -/

/-- A write of TTCTL that sets EN starts the walker at the next turn (R309). -/
theorem execTtctlWrite_starts {s : State} {v : BitVec 64} (hbad : ttBad v = false) (hen : ttEn v = true)
    (hoff : ttEn (partOf s s.tm.psel).ttctl = false) : execTtctlWrite v s = .next (setPart s s.tm.psel { partOf s s.tm.psel with
      ttctl := v, base := (partOf s s.tm.psel).pturn + 1, pass := 0, move := 0, park := none, remote := none, reply := none }) := by
  simp [execTtctlWrite, hbad, hen, hoff]

/-- The walker that is ready and has read its move releases it at its turn (R311). -/
theorem execTimetableRelease_words {s s₁ : State} {part : BitVec 4} {ws : List Nat} (hw : walkerReady s part (partOf s part) = true)
    (hm : readMove s (partOf s part) = (.words ws, s₁)) : execTimetableRelease part s =
      if (partOf s part).pturn.toNat < (partOf s part).base.toNat + (partOf s part).pass * ttCycle (partOf s part).ttctl + ws.getD 0 0
      then .next s₁ else .next (releaseMove s₁ part (partOf s part) ws) := by
  unfold execTimetableRelease
  simp [hw, hm]

/-- Device time that an event needs is reached (log 26). -/
theorem reachTime_dtime (s : State) (n : Nat) : (reachTime s n).tm.dtime.toNat = min (max s.tm.dtime.toNat n) (2 ^ 64 - 1) :=
  toNat_ofNat_capped _

/-- It has gone at least as far as the event asks, and not back. -/
theorem reachTime_le (s : State) (n : Nat) :
    min n (2 ^ 64 - 1) ≤ (reachTime s n).tm.dtime.toNat ∧ s.tm.dtime.toNat ≤ (reachTime s n).tm.dtime.toNat := by
  have := s.tm.dtime.isLt
  rw [reachTime_dtime]
  omega

/-- A boundary that no late move holds and no stall ends passes the turn (R306). -/
theorem execTurnBoundary_passes {s : State} {part : BitVec 4} (hs : (partOf s part).stalled = none)
    (hl : lateMoves s part (partOf s part).pturn = []) : execTurnBoundary part s =
      .next (passTurn (reachTime s (partOf s part).next.toNat) part ((partOf s part).next + BitVec.ofNat 64 (partTper s part))) := by
  simp [execTurnBoundary, hs, hl]

theorem partOf_passTurn (s : State) (part : BitVec 4) (next : DWord) :
    partOf (passTurn s part next) part = { partOf s part with pturn := (partOf s part).pturn + 1, next := next, stalled := none } :=
  partOf_setPart_same s part _

/-! ## The obligation -/

/-- Settles O52: each event is an update of the counters. -/
theorem timeEvents : Obligations.TimeEvents := by
  unfold Obligations.TimeEvents
  refine ⟨fun s v => ?_, ?_, ?_, ?_, fun s port sent bytes => ?_⟩
  · obtain ⟨x, h, hf⟩ := settleFair_eq (setDep s s.tm.dcidx.toNat v.toNat)
    refine ⟨_, (exec_dcvalWrite v s).trans (congrArg Host.Outcome.next hf), rfl, rfl, fun i => ?_⟩
    exact depCounter_setDep s s.tm.dcidx.toNat v.toNat i
  · rintro s v _ rfl hbad hen hoff
    exact ⟨_, (exec_ttctlWrite v s).trans (execTtctlWrite_starts hbad hen hoff), rfl, rfl, partOf_setPart_same s _ _⟩
  · rintro s part _ ws s₁ rfl hw hm
    exact (exec_timetableRelease part s).trans (execTimetableRelease_words hw hm)
  · rintro s part _ rfl hs hl
    refine ⟨_, (exec_turnBoundary part s).trans (execTurnBoundary_passes hs hl), rfl, rfl, ?_, reachTime_le s _⟩
    rw [partOf_passTurn, ← hs]
    rfl
  · obtain ⟨d, hd, ht⟩ := readTime_eq s
    rw [exec_ptpEventFrame, execPtpEventFrame, ht]
    dsimp only
    split
    · rename_i h
      exact ⟨_, rfl, rfl, rfl, hd, by rw [if_pos (by exact h)]; rfl⟩
    · rename_i h
      exact ⟨_, rfl, rfl, rfl, hd, by rw [if_neg (by exact h)]; simp⟩

end Sys2Proof.Machine
end

section
/-! PROOFS. Monitors and watches (R299, R326-R329). -/

namespace Sys2Proof.Machine

open Sys2Proof Sys2Proof.Safety

theorem exec_mwait (sd : SReg) (loc : MwaitLoc) (sa : SReg) (imm : BitVec 18) (sb : SReg) (s : State) :
    exec (.mwait sd loc sa imm sb) s = execMwait sd loc sa imm sb s := rfl
theorem exec_watch (sd : SReg) (h : BitVec 4) (sa : SReg) (imm : BitVec 18) (sb : SReg) (s : State) :
    exec (.watch sd h sa imm sb) s = execWatch sd h sa imm sb s := rfl
theorem exec_unwatch (sa : SReg) (s : State) : exec (.unwatch sa) s = execUnwatch sa s := rfl

/-! ## `mwait` (R326) -/

/-- The monitored read of a word's value and stamp. -/
def mwaitGives (sd : SReg) (h : BitVec 4) (sb : SReg) (t : Taint) (i : Nat) (v stamp : DWord) (s : State) : Out :=
  monitorRead (counterAddr (s.blk.hCell h).desc i) v (rdS s.blk sb) s (fun b => doneB s (b.taggedResult sd v t stamp) 8)

/-- The monitored read of a counter object's word behind the checks of `mwait`: of another package's answer, of the word here, or by a request. -/
def mwaitCounter (sd : SReg) (h : BitVec 4) (sb : SReg) (t : Taint) (f : DWord) (i : Nat) (s : State) : Out :=
  match s.blk.reply with
  | some bs => mwaitGives sd h sb t i (BitVec.ofNat 64 (replyValue bs 0)) (replyStamp bs) s
  | none =>
    if hHome (s.blk.hCell h).v != s.pl.pkg.toNat then
      strandAsks (some f) s (hHome (s.blk.hCell h).v) opAtomic (s.blk.hCell h).v (8 * i) none (atomicBody .counterRead i 0 0)
    else
      mwaitGives sd h sb t i (BitVec.ofNat 64 (counterRead s (s.blk.hCell h).desc i)) (mergeClock s f).tm.pclk (mergeClock s f)

section

variable {s : State} {sd sa sb : SReg} {imm : BitVec 18} (hr : Ready s.blk [sa, sb] [] [sd] [])

include hr

/-- On an on-chip word, `mwait` is a monitored read behind the strand's own stores to its banks. -/
theorem execMwait_level {lv : Level} (hc : OnChip s lv (immAddr s.blk sa imm) 8) :
    execMwait sd (.level lv) sa imm sb s =
      monitorRead (levelAddr s s.blk lv (immAddr s.blk sa imm))
        (leDWord (Memory.chip (performStoresTo s lv (levelAddr s s.blk lv (immAddr s.blk sa imm)) 8).mem
          (levelAddr s s.blk lv (immAddr s.blk sa imm)) 8)) (rdS s.blk sb)
        (performStoresTo s lv (levelAddr s s.blk lv (immAddr s.blk sa imm)) 8)
        (fun b => doneB (performStoresTo s lv (levelAddr s s.blk lv (immAddr s.blk sa imm)) 8) (wrS b sd
          (leDWord (Memory.chip (performStoresTo s lv (levelAddr s s.blk lv (immAddr s.blk sa imm)) 8).mem
            (levelAddr s s.blk lv (immAddr s.blk sa imm)) 8)) (taintS s.blk sa)) 8) := by
  unfold execMwait mwaitLevel
  dsimp only
  rw [withRegs_ready _ hr, accessFault_of_onChip hc, checked, covered_of_onChip hc]

variable {h : BitVec 4} {i : Nat} {f : DWord} (hs : Settled s.blk (taintS s.blk sa ||| taintS s.blk sb))
  (hf : f = s.blk.reqStamp (s.blk.accessT (taintS s.blk sa ||| taintS s.blk sb))) (hl : LiveHandle s.blk h f)
  (hk : dKind (s.blk.hCell h).desc = kCounter) (hread : canRead (s.blk.hCell h).desc s.blk.world = true)
  (hi : ((rdS s.blk sa).toNat : Int) + imm.toInt = (i : Nat)) (hlt : i < dCount (s.blk.hCell h).desc)
  (hat : s.blk.atomicOn (s.blk.hCell h).v i = false)

include hs hf hl hk hread hi hlt hat

/-- An `mwait` on an object whose checks pass goes to the monitored read of its counter word. -/
theorem execMwait_object : execMwait sd (.object h) sa imm sb s = mwaitCounter sd h sb (taintS s.blk sa ||| taintS s.blk sb) f i s := by
  subst hf
  have hrights : loadRightsFault .counterRead (s.blk.hCell h).desc s.blk.world = none := by
    simp [loadRightsFault, LoadOp.isAtomic, LoadOp.kindOk, hk, hread]
  unfold execMwait mwaitObject
  dsimp only
  rw [withRegs_ready _ hr, liveOthers_live _ hl, withTaint_settled _ hs, withHandle_live _ hl, hrights, unlessCause,
    show elemIndex s.blk sa imm = (i : Int) from hi, withIndex, if_neg (by simp [hlt]), Int.toNat_natCast, hat, if_neg Bool.false_ne_true]
  rfl

end

theorem mwaitCounter_answered {s : State} {sd sb : SReg} {h : BitVec 4} {t : Taint} {f : DWord} {i : Nat} {bs : List Byte}
    (hn : s.blk.reply = some bs) : mwaitCounter sd h sb t f i s =
      mwaitGives sd h sb t i (BitVec.ofNat 64 (replyValue bs 0)) (replyStamp bs) s := by
  rw [mwaitCounter, hn]

theorem mwaitCounter_here {s : State} {sd sb : SReg} {h : BitVec 4} {t : Taint} {f : DWord} {i : Nat} (hn : s.blk.reply = none)
    (hhome : hHome (s.blk.hCell h).v = s.pl.pkg.toNat) : mwaitCounter sd h sb t f i s =
      mwaitGives sd h sb t i (BitVec.ofNat 64 (counterRead s (s.blk.hCell h).desc i)) (mergeClock s f).tm.pclk (mergeClock s f) := by
  rw [mwaitCounter, hn]
  exact if_neg (by simp [hhome])

theorem monitorRead_same {v b : DWord} (addr : Nat) (s : State) (done : Block → Out) (h : v = b) : monitorRead addr v b s done =
    .next { s with blk := { s.blk with monitor := some addr, reply := none, wait := some (.monitor addr) } } :=
  if_pos (by simp [h])

theorem monitorRead_differs {v b : DWord} (addr : Nat) (s : State) (done : Block → Out) (h : v ≠ b) :
    monitorRead addr v b s done = done { s.blk with monitor := none, reply := none } :=
  if_neg (by simp [h])

/-! ## Words of the hub-resident tables (R299) -/

theorem setHub_hub (s : State) (t e w : Nat) (v : DWord) :
    (setHub s t e w v).tb.hub = (hubKey t e w, v) :: s.tb.hub.filter (fun x => x.1 != hubKey t e w) := by unfold setHub; rfl

theorem find?_replaced (xs : List (Nat × DWord)) (k k' : Nat) (v : DWord) :
    ((k, v) :: xs.filter (fun x => x.1 != k)).find? (fun x => x.1 == k')
      = if k' = k then some (k, v) else xs.find? (fun x => x.1 == k') := by
  by_cases h : k' = k
  · simp [h]
  · have hf : (xs.filter (fun x => x.1 != k)).find? (fun x => x.1 == k') = xs.find? (fun x => x.1 == k') :=
      find?_filter_of_imp fun x hx => by simp_all
    simp [h, Ne.symm h, hf]

theorem hubWord_setHub_same (s : State) (t e w : Nat) (v : DWord) : hubWord (setHub s t e w v) t e w = v.toNat := by
  rw [hubWord, setHub_hub, find?_replaced, if_pos rfl]

theorem hubWord_setHub_other (s : State) {t e w t' e' w' : Nat} (v : DWord) (h : hubKey t' e' w' ≠ hubKey t e w) :
    hubWord (setHub s t e w v) t' e' w' = hubWord s t' e' w' := by
  rw [hubWord, setHub_hub, find?_replaced, if_neg h, hubWord]

/-- Words of one table have numbers of their own. -/
theorem hubKey_ne {t e w e' w' : Nat} (hw : w < 256) (hw' : w' < 256) (h : e' ≠ e ∨ w' ≠ w) : hubKey t e' w' ≠ hubKey t e w := by
  unfold hubKey
  omega

theorem bitAt_eq_false_of_lt {n i : Nat} (h : n < 2 ^ i) : bitAt n i = false := by
  simp [bitAt, Nat.div_eq_of_lt h]

/-! ## `watch` (R299, R327) -/

/-- Word 2 of a watch entry: armed, with its queue, its registered record and its function (R299). -/
def watchWord (v : Nat) (fn : BitVec 6) : Nat := 2 ^ 63 + bits v 8 8 * 2 ^ 48 + bits v 0 6 * 2 ^ 42 + fn.toNat * 2 ^ 36

theorem watchWord_bounds (v : Nat) (fn : BitVec 6) : 2 ^ 63 ≤ watchWord v fn ∧ watchWord v fn < 2 ^ 64 := by
  have h1 : bits v 8 8 < 2 ^ 8 := Nat.mod_lt _ (by decide)
  have h2 : bits v 0 6 < 2 ^ 6 := Nat.mod_lt _ (by decide)
  have h3 := fn.isLt
  unfold watchWord
  omega

/-- Such a word says that its entry is armed. -/
theorem bitAt_watchWord (v : Nat) (fn : BitVec 6) : bitAt (watchWord v fn) 63 = true := by
  have := watchWord_bounds v fn
  simp only [bitAt, beq_iff_eq]
  omega

/-- A watch entry filled with an object, an element and its control word. -/
def watchFilled (s : State) (e : Nat) (h : DWord) (i : Int) (w : Nat) : State :=
  setHub (setHub (setHub s 5 e 0 h) 5 e 1 (BitVec.ofInt 64 i)) 5 e 2 (BitVec.ofNat 64 w)

theorem hubWord_watchFilled (s : State) (e : Nat) (h : DWord) (i : Int) (w : Nat) :
    hubWord (watchFilled s e h i w) 5 e 0 = h.toNat ∧ hubWord (watchFilled s e h i w) 5 e 1 = (BitVec.ofInt 64 i).toNat
      ∧ hubWord (watchFilled s e h i w) 5 e 2 = w % 2 ^ 64 := by
  unfold watchFilled
  refine ⟨?_, ?_, hubWord_setHub_same ..⟩
  · rw [hubWord_setHub_other _ _ (hubKey_ne (by decide) (by decide) (.inr (by decide))),
      hubWord_setHub_other _ _ (hubKey_ne (by decide) (by decide) (.inr (by decide))), hubWord_setHub_same]
  · rw [hubWord_setHub_other _ _ (hubKey_ne (by decide) (by decide) (.inr (by decide))), hubWord_setHub_same]

theorem hubWord_watchFilled_other (s : State) {e x k : Nat} (h : DWord) (i : Int) (w : Nat) (hk : k < 256) (hne : x ≠ e ∨ 2 < k) :
    hubWord (watchFilled s e h i w) 5 x k = hubWord s 5 x k := by
  have ne {w : Nat} (hw : w ≤ 2) : hubKey 5 x k ≠ hubKey 5 e w := hubKey_ne (by omega) hk (by omega)
  unfold watchFilled
  rw [hubWord_setHub_other _ _ (ne (Nat.le_refl 2)), hubWord_setHub_other _ _ (ne (by decide)), hubWord_setHub_other _ _ (ne (by decide))]

/-- The checks of `watch` let through elements that an object has alone. -/
theorem watchFault_nonneg {s : State} {h : DWord} {d : BitVec 512} {i : Int} (hf : watchFault s h d i = none) : 0 ≤ i := by
  unfold watchFault at hf
  by_contra hneg
  have hi : (decide (i < 0) || decide ((dCount d : Int) ≤ i)) = true := by simp [Int.not_le.1 hneg]
  repeat' split at hf
  all_goals simp_all

/-- A `watch` whose checks pass fills the lowest free entry of its partition. -/
theorem execWatch_fills {s : State} {sd sa sb : SReg} {h : BitVec 4} {imm : BitVec 18} {n : Nat}
    (hr : Ready s.blk [sa, sb] [] [sd] []) (hs : Settled s.blk (taintS s.blk sa ||| taintS s.blk sb))
    (hl : LiveHandle s.blk h (s.blk.reqStamp (s.blk.accessT (taintS s.blk sa ||| taintS s.blk sb))))
    (hf : watchFault s (s.blk.hCell h).v (s.blk.hCell h).desc (elemIndex s.blk sa imm) = none)
    (hq : watchQueueBad s (rdS s.blk sb).toNat = .ok false) (hn : n < 256) (hfree : watchArmed s s.blk.part n = false)
    (hlow : ∀ m, m < n → watchArmed s s.blk.part m = true) : execWatch sd h sa imm sb s =
      doneB (watchFilled s (watchNo s.blk.part n) (s.blk.hCell h).v (elemIndex s.blk sa imm) (watchWord (rdS s.blk sb).toNat s.blk.fn))
        (wrS s.blk sd (BitVec.ofNat 64 n) 0) 8 := by
  have hfind : (List.range 256).find? (fun m => !watchArmed s s.blk.part m) = some n :=
    List.find?_range_eq_some.2 ⟨by simp [hfree], List.mem_range.2 hn, fun m hm => by simp [hlow m hm]⟩
  unfold execWatch
  dsimp only
  rw [withRegs_ready _ hr, liveOthers_live _ hl, withTaint_settled _ hs, withHandle_live _ hl, hf]
  dsimp only
  rw [hq]
  dsimp only
  rw [hfind]
  rfl

/-! ## `unwatch` (R329) -/

/-- Whether a firing is left, by the work that stands at the dispatchers. -/
theorem firingLeft_iff (s : State) (e : Nat) : firingLeft s e = true ↔ ∃ j ∈ s.dp.jobs, ∃ w v, j.work = .fire e w v := by
  simp only [firingLeft, List.any_eq_true]
  refine exists_congr fun j => and_congr_right fun _ => ?_
  cases j.work <;> simp

section

variable {s : State} {sa : SReg} (hr : Ready s.blk [sa] [] [] [])

include hr

/-- An `unwatch` of an armed entry of its function disarms it, or waits for the firings that are left. -/
theorem execUnwatch_own {n : Nat} (hn : (rdS s.blk sa).toNat = n) (hlt : n < 256) (harm : watchArmed s s.blk.part n = true)
    (hfn : bits (hubWord s 5 (watchNo s.blk.part n) 2) 36 6 = s.blk.fn.toNat) : execUnwatch sa s =
      if firingLeft s (watchNo s.blk.part n) then waitS s .firing
      else doneS (setHub s 5 (watchNo s.blk.part n) 2 (BitVec.ofNat 64 (hubWord s 5 (watchNo s.blk.part n) 2 % 2 ^ 63))) 8 := by
  subst hn
  unfold execUnwatch
  dsimp only
  rw [withRegs_ready _ hr, if_pos (by simp [hlt, hfn, show bitAt _ 63 = true from harm])]

/-- Any other operand is refused. -/
theorem execUnwatch_other {n : Nat} (hn : (rdS s.blk sa).toNat = n) (hbad : 256 ≤ n ∨ watchArmed s s.blk.part n = false
    ∨ bits (hubWord s 5 (watchNo s.blk.part n) 2) 36 6 ≠ s.blk.fn.toNat) : execUnwatch sa s = strandTrap cOPERAND (rdS s.blk sa) s := by
  subst hn
  have hno : ((rdS s.blk sa).toNat < 256 && bitAt (hubWord s 5 (watchNo s.blk.part (rdS s.blk sa).toNat) 2) 63
      && bits (hubWord s 5 (watchNo s.blk.part (rdS s.blk sa).toNat) 2) 36 6 == s.blk.fn.toNat) = false := by
    rcases hbad with h | h | h
    · simp [Nat.not_lt.2 h]
    · simp [show bitAt _ 63 = false from h]
    · simp [h]
  unfold execUnwatch
  dsimp only
  rw [withRegs_ready _ hr]
  exact if_neg (Bool.eq_false_iff.1 hno)

end

/-! ## Firings (R328) -/

/-- A write of the element that the one armed entry watches, with no firing left, fires it at once. -/
theorem fireWatches_single {s : State} {h v : DWord} {i e : Nat} (ha : armedWatches s = [e])
    (hh : tlbHandle (BitVec.ofNat 64 (hubWord s 5 e 0)) = tlbHandle h) (hi : hubWord s 5 e 1 = i) :
    fireWatches s h i v = doWork s (.fire e (BitVec.ofNat 64 (hubWord s 5 e 2)) v) := by
  simp [fireWatches, ha, hh, hi]

/-- No other work is about what a firing is about. -/
theorem key_ne_fire {w : DispWork} {e : Nat} {a v : DWord} (h : ∀ a v, w ≠ .fire e a v) : w.key ≠ (DispWork.fire e a v).key := by
  have queue (fn : BitVec 6) (q : BitVec 8) : fn.toNat * 256 + q.toNat ≠ 2 ^ 14 + e := by
    have := fn.isLt
    have := q.isLt
    omega
  cases w with
  | notify fn q _ | unmap fn q _ _ | discard fn q | err fn q | admission fn q | map fn q => exact queue fn q
  | fire e' a' v' =>
    intro hk
    obtain rfl : e' = e := Nat.add_left_cancel hk
    exact h a' v' rfl

/-- A firing whose record the ring has room for leaves what the append leaves. -/
theorem tryFire_appended {s u : State} {e : Nat} {a v : DWord} {x : Word} (h : appendRecord s (BitVec.ofNat 6 (bits a.toNat 36 6))
    (bits a.toNat 48 8) ((registered s (e / 256) (bits a.toNat 42 6)).set 2 v.toNat) = .ok (some x, u)) : tryFire s e a v = .ok u := by
  unfold tryFire
  dsimp only
  rw [h]
  rfl

/-- One that meets a full ring counts in WMISS. -/
theorem tryFire_missed {s u : State} {e : Nat} {a v : DWord} (h : appendRecord s (BitVec.ofNat 6 (bits a.toNat 36 6))
    (bits a.toNat 48 8) ((registered s (e / 256) (bits a.toNat 42 6)).set 2 v.toNat) = .ok (none, u)) : tryFire s e a v =
      .ok (setPart u (BitVec.ofNat 4 (e / 256)) { partOf u (BitVec.ofNat 4 (e / 256)) with
        wmiss := (partOf u (BitVec.ofNat 4 (e / 256))).wmiss + 1 }) := by
  unfold tryFire
  dsimp only
  rw [h]
  rfl

theorem foldl_of_fixed {α β : Type} {f : β → α → β} {b : β} {xs : List α} (h : ∀ x ∈ xs, f b x = b) : xs.foldl f b = b := by
  induction xs with
  | nil => rfl
  | cons x xs ih => rw [List.foldl_cons, h x (by simp), ih fun y hy => h y (by simp [hy])]

/-- A write of an element that no armed entry watches fires nothing. -/
theorem fireWatches_unwatched {s : State} {h : DWord} {i : Nat} (v : DWord) (hu : Unwatched s h i) : fireWatches s h i v = s :=
  foldl_of_fixed fun e he => if_neg (by simpa using hu e he)

/-! ## The obligation -/

/-- Settles O40: an `mwait` is a monitored read, and `watch`, `unwatch` and a firing each act on one entry. -/
theorem monitorsAndWatches : Obligations.MonitorsAndWatches := by
  unfold Obligations.MonitorsAndWatches
  refine ⟨?_, ?_, ?_, ?_, ?_, fun s h i v => ⟨?_, fireWatches_unwatched v⟩⟩
  · rintro s sd lv sa imm sb _ _ _ _ hr rfl hc rfl rfl rfl
    rw [exec_mwait, execMwait_level hr hc]
    exact ⟨monitorRead_differs _ _ _, monitorRead_same _ _ _⟩
  · rintro s sd h sa imm sb i _ _ _ _ u v hr rfl hs rfl hl rfl rfl hk hread hi hlt hat hn hhome rfl rfl
    rw [exec_mwait, execMwait_object hr hs rfl hl hk hread hi hlt hat, mwaitCounter_here hn hhome]
    exact ⟨monitorRead_differs _ _ _, monitorRead_same _ _ _⟩
  · rintro s sd h sa imm sb i _ _ _ _ bs hr rfl hs rfl hl rfl rfl hk hread hi hlt hat hn hne
    rw [exec_mwait, execMwait_object hr hs rfl hl hk hread hi hlt hat, mwaitCounter_answered hn]
    exact monitorRead_differs _ _ _ hne
  · rintro s sd h sa imm sb i n _ _ _ _ hr rfl hs rfl hl rfl rfl hi64 hf hq hn hfree hlow rfl
    have hi0 := watchFault_nonneg hf
    obtain ⟨h0, h1, h2⟩ := hubWord_watchFilled s (watchNo s.blk.part n) (s.blk.hCell h).v (elemIndex s.blk sa imm)
      (watchWord (rdS s.blk sb).toNat s.blk.fn)
    rw [Nat.mod_eq_of_lt (watchWord_bounds _ _).2] at h2
    refine ⟨_, (exec_watch ..).trans ((execWatch_fills hr hs hl hf hq hn hfree hlow).trans (doneB_next ..)), ?_, h0, ?_, h2,
      fun x k _ hk hne => hubWord_watchFilled_other s _ _ _ hk hne, rfl⟩
    · exact (congrArg (bitAt · 63) h2).trans (bitAt_watchWord _ _)
    · refine h1.trans ?_
      rw [BitVec.toNat_ofInt]
      exact congrArg Int.toNat (Int.emod_eq_of_lt hi0 hi64)
  · rintro s sa n _ hr hn rfl
    refine ⟨fun hlt harm hfn => ⟨fun hno => ?_, fun hleft => ?_⟩, fun hbad => (exec_unwatch sa s).trans (execUnwatch_other hr hn hbad)⟩
    · have hnone : firingLeft s (watchNo s.blk.part n) = false :=
        Bool.eq_false_iff.2 fun h => by
          obtain ⟨j, hj, w, v, he⟩ := (firingLeft_iff s _).1 h
          exact hno j hj w v he
      refine ⟨_, by rw [exec_unwatch, execUnwatch_own hr hn hlt harm hfn, hnone]; rfl, ?_, fun x k _ hk hne => ?_, rfl⟩
      · refine (congrArg (bitAt · 63) (hubWord_setHub_same ..)).trans (bitAt_eq_false_of_lt ?_)
        rw [BitVec.toNat_ofNat]
        omega
      · exact hubWord_setHub_other s _ (hubKey_ne (by decide) hk hne)
    · rw [exec_unwatch, execUnwatch_own hr hn hlt harm hfn, if_pos ((firingLeft_iff s _).2 hleft)]
      rfl
  · rintro e ha hh hi hj _ _ slot u rfl rfl happ
    have hkey : ∀ j ∈ s.dp.jobs, j.work.key ≠ (DispWork.fire e (BitVec.ofNat 64 (hubWord s 5 e 2)) v).key :=
      fun j hjm => key_ne_fire (hj j hjm)
    refine ⟨fun hslot => ?_, ?_⟩
    · obtain ⟨x, rfl⟩ := Option.ne_none_iff_exists'.1 hslot
      rw [fireWatches_single ha hh hi, doWork_done hkey (tryFire_appended happ)]
    · rintro rfl
      refine ⟨BitVec.ofNat 4 (e / 256), ?_⟩
      rw [fireWatches_single ha hh hi, doWork_done hkey (tryFire_missed happ)]
      exact ⟨partOf_setPart_same .., rfl, _, rfl⟩

end Sys2Proof.Machine
end

section
/-! PROOFS. What the operations of tables, scrubs and memories leave of the tables' words and of the partitions' switching. -/

namespace Sys2Proof.Machine

open Sys2Proof Sys2Proof.Safety

/-! ## The tables' words and the switching of partitions -/

/-- Where a partition's switching and a function's reset stand, the words of the hub-resident tables, and TSTAT.ERR. -/
def steadyPart (s : State) : Vector Switch 16 × Bool × BitVec 6 × Option (BitVec 6) × List (Nat × DWord) × Bool :=
  (s.wo.parts, s.wo.vfBusy, s.wo.vfLast, s.wo.vfHold, s.tb.hub, s.tb.err)

/-- State t has the switching, the tables' words and ERR of state s. -/
def Steady (s t : State) : Prop := steadyPart t = steadyPart s

/-- So it has where the worlds' side, the tables' words and ERR are the same. -/
theorem Steady.of_wo {s t : State} (hwo : t.wo = s.wo) (hhub : t.tb.hub = s.tb.hub) (herr : t.tb.err = s.tb.err) : Steady s t := by
  rw [Steady, steadyPart, steadyPart, hwo, hhub, herr]

theorem Steady.refl (s : State) : Steady s s := rfl

theorem Steady.trans {s t u : State} (h1 : Steady s t) (h2 : Steady t u) : Steady s u := Eq.trans h2 h1

theorem Steady.foldl {α : Type} {f : State → α → State} (hf : ∀ s x, Steady s (f s x)) (xs : List α) (s : State) :
    Steady s (xs.foldl f s) := by
  induction xs generalizing s with
  | nil => exact .refl s
  | cons x xs ih => exact (hf s x).trans (ih (f s x))

theorem Steady.hub {s t : State} (h : Steady s t) : t.tb.hub = s.tb.hub := congrArg (·.2.2.2.2.1) h
theorem Steady.err {s t : State} (h : Steady s t) : t.tb.err = s.tb.err := congrArg (·.2.2.2.2.2) h
theorem Steady.parts {s t : State} (h : Steady s t) : t.wo.parts = s.wo.parts := congrArg (·.1) h
theorem Steady.vfBusy {s t : State} (h : Steady s t) : t.wo.vfBusy = s.wo.vfBusy := congrArg (·.2.1) h
theorem Steady.vfLast {s t : State} (h : Steady s t) : t.wo.vfLast = s.wo.vfLast := congrArg (·.2.2.1) h
theorem Steady.vfHold {s t : State} (h : Steady s t) : t.wo.vfHold = s.wo.vfHold := congrArg (·.2.2.2.1) h

theorem Steady.setMem {s t : State} (h : Steady s t) (m : Memory) : Steady s { t with mem := m } := h.trans (.of_wo rfl rfl rfl)

/-- The words of the tables are read in the list of the hub. -/
theorem hubWord_congr {s t : State} (h : t.tb.hub = s.tb.hub) (x e w : Nat) : hubWord t x e w = hubWord s x e w := by
  rw [hubWord, h, hubWord]

theorem Steady.hubWord {s t : State} (h : Steady s t) (x e w : Nat) : hubWord t x e w = hubWord s x e w := hubWord_congr h.hub x e w
theorem Steady.switchOf {s t : State} (h : Steady s t) (part : BitVec 4) : switchOf t part = switchOf s part := by
  rw [Machine.switchOf, h.parts, Machine.switchOf]

/-! ## Guest memory and descriptors -/

theorem g2Translate_steady (s : State) (die : Nat) (world : BitVec 14) (gpa : Nat) (write : Bool) :
    Steady s (g2Translate s die world gpa write).2 := by
  unfold g2Translate
  dsimp only
  repeat' split
  all_goals exact rfl

theorem g2Pages_steady (s : State) (die : Nat) (world : BitVec 14) (gpa : Nat) (write : Bool) (base n : Nat) :
    Steady s (g2Pages s die world gpa write base n).2 := by
  induction n with
  | zero => exact rfl
  | succ n ih =>
    simp only [g2Pages]
    split
    next s₁ h₁ =>
      rw [h₁] at ih
      have h := g2Translate_steady s₁ die world (gpa + 4096 * n) write
      split
      next a s₂ h₂ =>
        rw [h₂] at h
        split <;> exact ih.trans h
      next => exact ih.trans h
    next => exact ih

theorem g2Frame_steady (s : State) (die : Nat) (world : BitVec 14) (gpa : Nat) (write : Bool) :
    Steady s (g2Frame s die world gpa write).2 := by
  have h := g2Translate_steady s die world gpa write
  unfold g2Frame
  split
  next a s₁ h₁ =>
    rw [h₁] at h
    split
    · exact h.trans (g2Pages_steady s₁ die world gpa write a 16)
    · exact h
  next => exact h

theorem guestWrite_steady {s t : State} {die : Nat} {fn : BitVec 6} {gpa : Nat} {bs : List Byte}
    (h : guestWrite s die fn gpa bs = .ok t) : Steady s t := by
  have hg := g2Translate_steady s die (fnWorld s fn) gpa true
  unfold guestWrite at h
  split at h
  next a u hu =>
    rw [hu] at hg
    split at h
    · cases h
      exact hg.trans rfl
    · cases h
  next => cases h

theorem setQueueWord_steady {s t : State} {fn : BitVec 6} {q k v : Nat} (h : setQueueWord s fn q k v = .ok t) : Steady s t := by
  unfold setQueueWord at h
  split at h
  · exact guestWrite_steady h
  · cases h; exact .refl s

theorem setQueueFlag_steady {s t : State} {fn : BitVec 6} {q bit : Nat} {v : Bool} (h : setQueueFlag s fn q bit v = .ok t) :
    Steady s t := by
  unfold setQueueFlag at h
  split at h
  · exact setQueueWord_steady h
  · cases h; exact .refl s
  · cases h

theorem leaveQueue_steady {s t : State} {fn : BitVec 6} {q : Nat} {head tail : Word} (h : leaveQueue s fn q head tail = .ok t) :
    Steady s t := by
  unfold leaveQueue at h
  split at h
  · cases h
  next u hu => exact (setQueueWord_steady hu).trans (setQueueFlag_steady h)

/-- A fault record changes the memory, FBTAIL and the merge table alone (R284, R285). -/
theorem recordPark_eq (s : State) (who : Who) (p : Park) : ∃ m x y,
    (recordPark s who p).2 = { s with mem := m, tb := { s.tb with fbTail := x, merge := y } } := by
  unfold recordPark
  dsimp only
  split
  · exact ⟨_, _, _, rfl⟩
  · split
    · exact ⟨_, _, _, rfl⟩
    · exact ⟨_, _, _, rfl⟩

theorem recordPark_steady (s : State) (who : Who) (p : Park) : Steady s (recordPark s who p).2 := by
  obtain ⟨m, x, y, h⟩ := recordPark_eq s who p
  rw [h]
  exact .of_wo rfl rfl rfl

theorem parkWork_steady (s : State) (w : DispWork) (g : GuestStop) : Steady s (parkWork s w g) := by
  unfold parkWork parkGuest
  simp only [park_eq]
  exact Steady.trans (t := { s with fresh := s.fresh + 1 }) rfl
    ((recordPark_steady _ (dispWho (queueDie s w.place.1 w.place.2) (fnWorld s w.place.1))
      (newPark s.fresh (dispWho (queueDie s w.place.1 w.place.2) (fnWorld s w.place.1)) 0 g.write false g.meet)).trans rfl)

theorem writeDesc_steady (s : State) (i : Nat) (d : BitVec 512) : Steady s (writeDesc s i d) := by
  rw [writeDesc_mem]
  exact .of_wo rfl rfl rfl

theorem zeroSlab_eq (s : State) (a : Nat) : ∃ m, zeroSlab s a = { s with mem := m, wo := { s.wo with fillmark := s.wo.fillmark + 1 } } :=
  ⟨_, rfl⟩

theorem zeroSlab_steady (s : State) (a : Nat) : Steady s (zeroSlab s a) := by
  obtain ⟨m, h⟩ := zeroSlab_eq s a
  rw [h]
  exact rfl

theorem makeObject_steady (s : State) (i : Nat) (d : BitVec 512) (frames : List Nat) : Steady s (makeObject s i d frames) := by
  have slab (u : State) (gpa : Nat) : Steady u (match g2Frame u (lowDie u) (dOwner d) gpa true with | (.ok a, v) => zeroSlab v a | _ => u) := by
    have h := g2Frame_steady u (lowDie u) (dOwner d) gpa true
    split
    next a v hv =>
      rw [hv] at h
      exact h.trans (zeroSlab_steady v a)
    next => exact .refl u
  unfold makeObject
  dsimp only
  split
  · exact (writeDesc_steady s i d).trans (.of_wo rfl rfl rfl)
  · exact (writeDesc_steady s i d).trans (Steady.foldl slab frames _)

/-! ## DESC_SYNC -/

/-- A request to another package leaves the share groups alone. -/
theorem sendParts_groups {s t : State} {pkg op off : Nat} {h : DWord} {desc : Option DWord} {bodies : List (List Byte)} {r : Remote}
    (e : sendParts s pkg op h off desc bodies = some (r, t)) : t.pe.groups = s.pe.groups := by
  have fold (port : Nat) (g : List Byte → List Byte) (bs : List (List Byte)) (u : State) :
      (bs.foldl (fun s b => sendOn s port pkg op 0 h (BitVec.ofNat 64 off) (g b)) u).pe.groups = u.pe.groups := by
    induction bs generalizing u with
    | nil => rfl
    | cons b bs ih => exact ih _
  unfold sendParts at e
  dsimp only at e
  split at e
  · cases e
  · simp only [Option.some.injEq, Prod.mk.injEq] at e
    obtain ⟨-, rfl⟩ := e
    exact fold _ _ _ _

/-- A request for a member's synchronisation changes the peers' side alone, keeps the groups, and stays among those that are waited for,
unless the member is lost. -/
theorem askSync_eq (xs : List SyncAsk) (s : State) (x : SyncAsk) : ∃ ys pe, askSync (xs, s) x = (ys, { s with pe := pe })
    ∧ pe.groups = s.pe.groups ∧ xs ⊆ ys ∧ (lostMember s x.handle x.pkg.toNat = false → ∃ y ∈ ys, y.pkg = x.pkg) := by
  unfold askSync
  dsimp only
  split
  · exact ⟨_, _, rfl, rfl, by simp, fun _ => ⟨x, by simp, rfl⟩⟩
  · split
    next hlost => exact ⟨_, _, rfl, rfl, by simp, fun h => by simp [h] at hlost⟩
    next =>
      split
      next r t ht =>
        refine ⟨xs ++ [{ x with remote := some r }], t.pe, ?_, sendParts_groups ht, by simp, fun _ => ⟨{ x with remote := some r }, by simp, rfl⟩⟩
        rw [← sendParts_pe ht]
      next => exact ⟨_, _, rfl, rfl, by simp, fun _ => ⟨x, by simp, rfl⟩⟩

theorem lostMember_congr {s t : State} (h : t.pe.groups = s.pe.groups) (o : DWord) (pkg : Nat) : lostMember t o pkg = lostMember s o pkg := by
  rw [lostMember, h, lostMember]

theorem foldl_askSync_eq (as xs : List SyncAsk) (s : State) : ∃ ys pe, as.foldl askSync (xs, s) = (ys, { s with pe := pe })
    ∧ xs ⊆ ys ∧ ∀ x ∈ as, lostMember s x.handle x.pkg.toNat = false → ∃ y ∈ ys, y.pkg = x.pkg := by
  induction as generalizing xs s with
  | nil => exact ⟨xs, s.pe, rfl, by simp, by simp⟩
  | cons a as ih =>
    obtain ⟨ys, pe, hstep, hgroups, hsub, hown⟩ := askSync_eq xs s a
    obtain ⟨zs, pe', hfold, hsub', hall⟩ := ih ys { s with pe := pe }
    refine ⟨zs, pe', by rw [List.foldl_cons, hstep, hfold], List.Subset.trans hsub hsub', fun x hx hl => ?_⟩
    rcases List.mem_cons.1 hx with rfl | hx
    · obtain ⟨y, hy, hp⟩ := hown hl
      exact ⟨y, hsub' hy, hp⟩
    · exact hall x hx ((lostMember_congr (t := { s with pe := pe }) hgroups _ _).trans hl)

theorem answerSync_eq (fs : List PeerFrame) (s : State) (f : PeerFrame) : ∃ gs pe, answerSync (fs, s) f = (gs, { s with pe := pe }) := by
  unfold answerSync
  split
  · exact ⟨_, _, rfl⟩
  · exact ⟨_, _, rfl⟩

theorem foldl_answerSync_eq (as fs : List PeerFrame) (s : State) : ∃ gs pe, as.foldl answerSync (fs, s) = (gs, { s with pe := pe }) := by
  induction as generalizing fs s with
  | nil => exact ⟨fs, s.pe, rfl⟩
  | cons a as ih =>
    obtain ⟨gs, pe, hstep⟩ := answerSync_eq fs s a
    obtain ⟨hs, pe', hfold⟩ := ih gs { s with pe := pe }
    exact ⟨hs, pe', by rw [List.foldl_cons, hstep, hfold]⟩

/-- What DESC_SYNCs wait for goes on by frames alone, and every member that is not lost is still waited for (R276). -/
theorem settleSyncs_eq (s : State) : ∃ xs fs pe, settleSyncs s = { s with pe := pe, tb := { s.tb with syncs := xs, syncFrames := fs } }
    ∧ ∀ x ∈ s.tb.syncs, lostMember s x.handle x.pkg.toNat = false → ∃ y ∈ xs, y.pkg = x.pkg := by
  obtain ⟨xs, pe, hask, -, hall⟩ := foldl_askSync_eq s.tb.syncs [] s
  obtain ⟨fs, pe', hanswer⟩ := foldl_answerSync_eq s.tb.syncFrames [] { s with pe := pe }
  exact ⟨xs, fs, pe', by simp only [settleSyncs, hask, hanswer], hall⟩

theorem settleSyncs_steady (s : State) : Steady s (settleSyncs s) := by
  obtain ⟨xs, fs, pe, h, -⟩ := settleSyncs_eq s
  rw [h]
  exact rfl

theorem descSync_steady (s : State) (i : Nat) : Steady s (descSync s i) := Steady.trans rfl (settleSyncs_steady _)

/-! ## Functions -/

/-- A service ring is two new objects behind an entry of its slab table. -/
theorem makeRing_eq (fn : BitVec 6) (host privileged : Bool) (p : RingPlace) (s : State) : ∃ u i d fs j d' fs' ho, Steady s u
    ∧ makeRing fn host privileged p s = { makeObject (makeObject u i d fs) j d' fs' with ho := ho } := by
  have h := g2Translate_steady s (lowDie s) (fnWorld s fn) p.root true
  unfold makeRing
  dsimp only
  refine ⟨_, _, _, _, _, _, _, _, ?_, rfl⟩
  split
  next a u hu =>
    rw [hu] at h
    exact h.setMem _
  next => exact .refl s

theorem makeRing_steady (fn : BitVec 6) (host privileged : Bool) (p : RingPlace) (s : State) : Steady s (makeRing fn host privileged p s) := by
  obtain ⟨u, i, d, fs, j, d', fs', ho, hu, h⟩ := makeRing_eq fn host privileged p s
  have hobj := (hu.trans (makeObject_steady u i d fs)).trans (makeObject_steady _ j d' fs')
  rw [h]
  exact hobj.trans (.of_wo rfl rfl rfl)

/-- A function is made with its queue table and its two rings. -/
theorem makeFunction_eq (s : State) (fn : BitVec 6) : ∃ dp n p q b, makeFunction s fn =
    makeRing fn false false p (makeRing fn true b q { s with fresh := n, dp := dp }) := ⟨_, _, _, _, _, rfl⟩

theorem makeFunction_steady (s : State) (fn : BitVec 6) : Steady s (makeFunction s fn) := by
  obtain ⟨dp, n, p, q, b, h⟩ := makeFunction_eq s fn
  have h0 : Steady s { s with fresh := n, dp := dp } := .of_wo rfl rfl rfl
  rw [h]
  exact (h0.trans (makeRing_steady ..)).trans (makeRing_steady ..)

theorem foldl_sync_steady (f : State → Nat → BitVec 512) (is : List Nat) (s : State) :
    Steady s (is.foldl (fun u i => descSync (writeDesc u i (f u i)) i) s) :=
  Steady.foldl (fun u i => (writeDesc_steady u i _).trans (descSync_steady _ i)) is s

/-- The end of a function is the end of its rings, and the tables lose it. -/
theorem endFunction_eq (s : State) (fn : BitVec 6) : ∃ dp ho, endFunction s fn =
    { (ringIndices s fn).foldl (fun s i => descSync (writeDesc s i (freeDesc (genAt s i + 1))) i) s with dp := dp, ho := ho } := ⟨_, _, rfl⟩

theorem endFunction_steady (s : State) (fn : BitVec 6) : Steady s (endFunction s fn) := by
  have h := foldl_sync_steady (fun u i => freeDesc (genAt u i + 1)) (ringIndices s fn) s
  obtain ⟨dp, ho, he⟩ := endFunction_eq s fn
  rw [he]
  exact h.trans (.of_wo rfl rfl rfl)

theorem regrantRings_steady (s : State) (fn : BitVec 6) : Steady s (regrantRings s fn) := by
  refine Steady.foldl (fun u i => ?_) _ s
  split
  · exact (writeDesc_steady u i _).trans (descSync_steady _ i)
  · exact .refl u

theorem quotaEffect_steady (s : State) (f old : Nat) : Steady s (quotaEffect s f old) := by
  unfold quotaEffect
  dsimp only
  split
  · exact makeFunction_steady ..
  · split
    · exact endFunction_steady ..
    · split
      · exact regrantRings_steady ..
      · exact .refl s

theorem settleFair_steady (s : State) : Steady s (settleFair s) := by
  obtain ⟨v, h, e⟩ := settleFair_eq s
  rw [e]
  exact rfl

/-! ## Scrubs -/

theorem updBlock_steady (s : State) (id : BId) (f : Block → Block) : Steady s (updBlock s id f) := by
  unfold updBlock
  split <;> exact rfl

theorem serveWaiters_steady (a n : Nat) (s : State) : Steady s (serveWaiters a n s) := by
  induction n generalizing s with
  | zero => exact .refl s
  | succ n ih =>
    unfold serveWaiters
    split
    next w hw =>
      refine Steady.trans ?_ (ih _)
      unfold feServe
      refine Steady.trans (t := (feAccess { s with feWait := s.feWait.erase w } w).2) ?_ (updBlock_steady _ _ _)
      unfold feAccess
      dsimp only
      split <;> exact rfl
    next => exact .refl s

theorem scrubWords_steady (s : State) (rs : Ranges) : Steady s (scrubWords s rs) :=
  Steady.trans (t := scrubCells s rs) rfl (Steady.foldl (fun u a => serveWaiters_steady a _ u) _ _)

/-- A partition whose state is replaced. -/
theorem switchOf_setSwitch_same (s : State) (part : BitVec 4) (w : Switch) : switchOf (setSwitch s part w) part = w := by
  simp [switchOf, setSwitch, part.isLt]

theorem signToken_none {s : State} {part : BitVec 4} (h : (switchOf s part).pendingToken = none) : signToken s part = s := by
  simp only [signToken, h]

theorem signToken_some {s : State} {part : BitVec 4} {k : CbToken} (h : (switchOf s part).pendingToken = some k) :
    ∃ u, signToken s part = u ∧ u = { s with fresh := s.fresh + 1, wo := { s.wo with
      parts := u.wo.parts, count := s.wo.count + 1 } } ∧ switchOf u part = { switchOf s part with
        token := some { k with count := s.wo.count + 1, sig := s.fresh }, pendingToken := none } := by
  refine ⟨_, rfl, ?_, ?_⟩
  · simp only [signToken, h, freshNat]
    rfl
  · simp only [signToken, h, freshNat]
    exact switchOf_setSwitch_same _ part _

theorem scrubCaches_steady (s : State) (part : BitVec 4) (out : Option (BitVec 14)) : Steady s (scrubCaches s part out) :=
  .of_wo rfl rfl rfl

theorem readTime_steady (s : State) : Steady s (readTime s).2 := .of_wo rfl rfl rfl

/-- A scrub leaves a token to be signed, behind the signature of the last, and nothing else of the switching and the tables' words (R337, R339). -/
theorem scrub_eq (s : State) (part : BitVec 4) (cause : Nat) (out inc : Option (BitVec 14)) (rs : Ranges) (cleared : BitVec 16) :
    ∃ u k, scrub s part cause out inc rs cleared = setSwitch u part { switchOf u part with pendingToken := some k }
      ∧ Steady (signToken s part) u := by
  unfold scrub
  dsimp only
  exact ⟨_, _, rfl, ((scrubWords_steady ..).trans (scrubCaches_steady ..)).trans (readTime_steady _)⟩

theorem signToken_tb (s : State) (part : BitVec 4) : (signToken s part).tb = s.tb := by
  cases h : (switchOf s part).pendingToken with
  | none => rw [signToken_none h]
  | some k =>
    obtain ⟨u, hu, he, -⟩ := signToken_some h
    rw [hu, he]

theorem scrub_words (s : State) (part : BitVec 4) (cause : Nat) (out inc : Option (BitVec 14)) (rs : Ranges) (cleared : BitVec 16) :
    (scrub s part cause out inc rs cleared).tb.hub = s.tb.hub ∧ (scrub s part cause out inc rs cleared).tb.err = s.tb.err := by
  obtain ⟨u, k, he, hu⟩ := scrub_eq s part cause out inc rs cleared
  rw [he, setSwitch_tb, hu.hub, hu.err, signToken_tb]
  exact ⟨rfl, rfl⟩

end Sys2Proof.Machine
end

section
/-! PROOFS. Table commands (R268, R269, R276, R281, R285, R286, R289). -/

namespace Sys2Proof.Machine

open Sys2Proof Sys2Proof.Safety

theorem exec_descSync (s : State) : exec .descSync s = tableCommand s (targ0 s < 2 ^ 32) (fun s => descSync s (targ0 s)) := rfl
theorem exec_shoot (s : State) : exec .shoot s = tableCommand s (targ0 s < 2 ^ 32 && bits (targ1 s) 36 20 == 0)
    (fun u => shoot u (targ0 u) (bits (targ1 s) 56 8) (bits (targ1 s) 0 36) (targ2 u)) := rfl
theorem exec_g2Shoot (s : State) : exec .g2Shoot s = tableCommand s (targ0 s < 2 ^ 14 && targ1 s % 4096 == 0 && targ2 s % 4096 == 0)
    (fun u => { raiseShoot u with tb := { (raiseShoot u).tb with
      g2 := u.tb.g2.filter (fun e => !(e.world.toNat == targ0 s && targ1 s ≤ 4096 * e.page && 4096 * e.page < targ1 s + targ2 s))
      tlb := u.tb.tlb.filter (fun e => e.world.toNat != targ0 s)
      nested := u.tb.nested.filter (fun e => e.world.toNat != targ0 s) } }) := rfl
theorem exec_fbFlush (s : State) : exec .fbFlush s =
    tableCommand s (targ0 s < 4 && targ1 s == (fbGenOf s (targ0 s)).toNat) (fun u => fbFlush u (targ0 s)) := rfl
theorem exec_counterMove (s : State) : exec .counterMove s = execCounterMove s := rfl
theorem exec_twrite (s : State) : exec .twrite s =
    tableCommand s (twriteOk s (bits (targ0 s) 56 8) (bits (targ0 s) 8 48) (bits (targ0 s) 0 8) (targ1 s))
      (fun u => twrite u (bits (targ0 s) 56 8) (bits (targ0 s) 8 48) (bits (targ0 s) 0 8) u.tb.targ1) := rfl
theorem exec_tread (s : State) : exec .tread s = execTread s := rfl
theorem exec_fbheadWrite (die : BitVec 2) (v : BitVec 32) (s : State) : exec (.fbheadWrite die v) s = .next (fbConsume s die.toNat v) := rfl

/-! ## Issue (R268) -/

theorem tableCommand_refused {s : State} {ok : Bool} {f : State → State} (h : tableBusy s = true ∨ ok = false) :
    tableCommand s ok f = .next (setErr s true) := by
  unfold tableCommand
  rcases h with h | h <;> simp [h]

theorem tableCommand_runs {s : State} {ok : Bool} {f : State → State} (hb : tableBusy s = false) (h : ok = true) :
    tableCommand s ok f = .next (f (setErr s false)) := by
  simp [tableCommand, hb, h]

/-! ## Changes of every park -/

section

variable {α : Type} (g : Tables → α) {f : State → Who → Park → Park × State} (hf : ∀ s w p, g (f s w p).2.tb = g s.tb)

include hf

theorem parkStep_tb (who : Who) (o : Option Park) (s : State) : g (parkStep f who o s).2.tb = g s.tb := by
  cases o with
  | none => rfl
  | some p => exact hf s who p

theorem parkList_tb {β : Type} (who : Who) (get : β → Option Park) (set : β → Option Park → β) (xs : List β) (s : State) :
    g (parkList f who get set xs s).2.tb = g s.tb := by
  induction xs generalizing s with
  | nil => rfl
  | cons x xs ih => exact (ih _).trans (parkStep_tb g hf who (get x) s)

theorem parkEngine_tb (who : Who) (q : EngineQ) (s : State) : g (parkEngine f who q s).2.tb = g s.tb :=
  ((parkList_tb g hf ..).trans (parkList_tb g hf ..)).trans (parkList_tb g hf ..)

theorem parkBlock_tb (b : Block) (s : State) : g (parkBlock f b s).2.tb = g s.tb :=
  calc g (parkBlock f b s).2.tb
      = g (parkEngine f (b.who 3) b.eM _).2.tb := parkEngine_tb g hf ..
    _ = g (parkEngine f (b.who 2) b.eV _).2.tb := parkEngine_tb g hf ..
    _ = g (parkEngine f (b.who 1) b.eF _).2.tb := parkEngine_tb g hf ..
    _ = g (parkList f (b.who 0) Posted.park? Posted.setPark b.posted _).2.tb := parkEngine_tb g hf ..
    _ = g (parkList f (b.who 0) ObjLoad.park (fun l p => { l with park := p }) b.loads _).2.tb := parkList_tb g hf ..
    _ = g (parkStep f (b.who 0) b.strandPark s).2.tb := parkList_tb g hf ..
    _ = g s.tb := parkStep_tb g hf ..

theorem parkBlocks_tb (bs : List Block) (s : State) : g (parkBlocks f bs s).2.tb = g s.tb := by
  induction bs generalizing s with
  | nil => rfl
  | cons b bs ih => exact (ih _).trans (parkBlock_tb g hf b s)

theorem parkSaves_tb (vs : List SaveSlot) (s : State) : g (parkSaves f vs s).2.tb = g s.tb := by
  induction vs generalizing s with
  | nil => rfl
  | cons v vs ih => exact (ih _).trans (parkBlocks_tb g hf v.blocks s)

/-- What a change of one park keeps of the tables, a change of every park keeps. -/
theorem parkAll_tb (s : State) : g (parkAll f s).tb = g s.tb := by
  unfold parkAll
  dsimp only
  simp only [parkList_tb g hf, parkSaves_tb g hf, parkBlocks_tb g hf, parkBlock_tb g hf]

end

/-! ## The fault buffers (R285, R286) -/

/-- ERR, and every die's generation and head of its fault buffer. -/
def bufferHeads (tb : Tables) : Bool × Vector (BitVec 16) 4 × Vector Word 4 := (tb.err, tb.fbGen, tb.fbHead)

theorem recordWaiting_heads (s : State) (die : Nat) : bufferHeads (recordWaiting s die).tb = bufferHeads s.tb := by
  refine parkAll_tb bufferHeads (fun u w p => ?_) s
  split
  · obtain ⟨m, x, y, h⟩ := recordPark_eq u w p
    rw [h]
    rfl
  · rfl

/-- FB_FLUSH starts the next generation, at the tail of the last (R286). -/
theorem fbFlush_heads (s : State) (die : Nat) : bufferHeads (fbFlush s die).tb =
    (s.tb.err, s.tb.fbGen.setIfInBounds die (fbGenOf s die + 1), s.tb.fbHead.setIfInBounds die (fbTailOf s die)) := by
  unfold fbFlush
  dsimp only
  rw [recordWaiting_heads, parkAll_tb bufferHeads fun u w p => rfl]
  rfl

theorem fbConsume_within {s : State} {die : Nat} {v : Word} (h : (v - fbHeadOf s die).toNat ≤ (fbTailOf s die - fbHeadOf s die).toNat) :
    bufferHeads (fbConsume s die v).tb = (s.tb.err, s.tb.fbGen, s.tb.fbHead.setIfInBounds die v) := by
  unfold fbConsume
  dsimp only
  rw [if_pos h, recordWaiting_heads]
  rfl

theorem fbConsume_beyond {s : State} {die : Nat} {v : Word} (h : (fbTailOf s die - fbHeadOf s die).toNat < (v - fbHeadOf s die).toNat) :
    fbConsume s die v = s := if_neg (Nat.not_le.2 h)

/-- The entry of a die in a table of one entry for each die, after it was set. -/
theorem getD_setIfInBounds_same {α : Type} (v : Vector α 4) {die : Nat} (h : die < 4) (x d : α) : ((v.setIfInBounds die x)[die]?).getD d = x := by
  simp [h]

/-! ## DESC_SYNC (R276) -/

/-- A handle register behind DESC_SYNC. -/
theorem Block.hCell_descSync (b : Block) (p : DWord → Bool) (h : BitVec 4) :
    (Block.descSync p b).hCell h = if p (b.hCell h).v then { b.hCell h with refresh := true } else b.hCell h := by
  have hlt := h.isLt
  simp [Block.hCell, Block.descSync, hlt]

/-- The requests that DESC_SYNC of an object makes, one for each other member of its share groups. -/
def syncAsks (s : State) (i : Nat) : List SyncAsk :=
  ((s.pe.groups.filter (fun g => hObj g.index == hObj (handleOf s.pl.pkg.toNat i 0))).flatMap
    (fun g => g.members.filter (· != s.pl.pkg))).map
      (fun p => ⟨p, handleOf s.pl.pkg.toNat i 0, match readDesc s i with | .ok d => d | .error _ => 0, none⟩)

theorem descSync_eq (s : State) (i : Nat) : descSync s i = settleSyncs { syncHere s (namesIndex s i) with
    tb := { (syncHere s (namesIndex s i)).tb with syncs := s.tb.syncs ++ syncAsks s i } } := rfl

/-- Every other member of a share group of the object is asked. -/
theorem mem_syncAsks {s : State} {i : Nat} {g : Group} {p : Byte} (hg : g ∈ s.pe.groups)
    (ho : hObj g.index = hObj (handleOf s.pl.pkg.toNat i 0)) (hp : p ∈ g.members) (hne : p ≠ s.pl.pkg) :
    ∃ x ∈ syncAsks s i, x.pkg = p ∧ x.handle = handleOf s.pl.pkg.toNat i 0 := by
  refine ⟨_, List.mem_map.2 ⟨p, ?_, rfl⟩, rfl, rfl⟩
  exact List.mem_flatMap.2 ⟨g, List.mem_filter.2 ⟨hg, by simp [ho]⟩, List.mem_filter.2 ⟨hp, by simp [hne]⟩⟩

/-- Behind DESC_SYNC, the handle caches and handle registers have lost the object, and what members are to answer is waited for. -/
theorem descSync_fields (s : State) (i : Nat) : (descSync s i).mem = s.mem ∧ (descSync s i).tb.err = s.tb.err
    ∧ (descSync s i).tb.hcache = s.tb.hcache.filter (fun e => !namesIndex s i e.handle)
    ∧ (descSync s i).blk = Block.descSync (namesIndex s i) s.blk
    ∧ ∀ x ∈ syncAsks s i, lostMember s x.handle x.pkg.toNat = false → ∃ y ∈ (descSync s i).tb.syncs, y.pkg = x.pkg := by
  rw [descSync_eq]
  obtain ⟨xs, fs, pe, h, hall⟩ := settleSyncs_eq { syncHere s (namesIndex s i) with
    tb := { (syncHere s (namesIndex s i)).tb with syncs := s.tb.syncs ++ syncAsks s i } }
  rw [h]
  exact ⟨rfl, rfl, rfl, rfl, fun x hx hl => hall x (List.mem_append_right _ hx) hl⟩

theorem tableBusy_of_mem {s : State} {x : SyncAsk} (h : x ∈ s.tb.syncs) : tableBusy s = true := by
  have hne : s.tb.syncs ≠ [] := List.ne_nil_of_mem h
  simp [tableBusy, hne]

/-! ## TWRITE (R269) -/

/-- State t has the tables' words and ERR of state s. -/
def SameWords (s t : State) : Prop := t.tb.hub = s.tb.hub ∧ t.tb.err = s.tb.err

theorem Steady.sameWords {s t : State} (h : Steady s t) : SameWords s t := ⟨h.hub, h.err⟩

theorem SameWords.trans {s t u : State} (h1 : SameWords s t) (h2 : SameWords t u) : SameWords s u :=
  ⟨h2.1.trans h1.1, h2.2.trans h1.2⟩

theorem partModeEffect_words (s : State) (p old : Nat) (out : Option (BitVec 14)) : SameWords s (partModeEffect s p old out) := by
  unfold partModeEffect
  dsimp only
  split
  · exact scrub_words ..
  · exact ⟨rfl, rfl⟩

theorem worldStateEffect_words (s : State) (w old : Nat) : SameWords s (worldStateEffect s w old) := by
  unfold worldStateEffect
  dsimp only
  split
  · exact ⟨rfl, rfl⟩
  · split <;> exact ⟨rfl, rfl⟩

/-- The effects of a TWRITE besides its word leave every word of the tables, and ERR (R269). -/
theorem twrite_words (s : State) (t e w : Nat) (v : DWord) : SameWords (setHub s t e w v) (twrite s t e w v) := by
  unfold twrite
  dsimp only
  refine SameWords.trans ?_ (settleFair_steady _).sameWords
  split
  · exact partModeEffect_words ..
  · exact ⟨rfl, rfl⟩
  · exact worldStateEffect_words ..
  · exact (quotaEffect_steady ..).sameWords
  · exact ⟨rfl, rfl⟩

/-! ## The commands -/

/-- Every one of these is issued as a table command (R268). -/
theorem exec_isTableCommand {i : Instr} (hi : i ∈ [Instr.descSync, .shoot, .g2Shoot, .fbFlush, .counterMove, .twrite, .tread]) (s : State) :
    ∃ ok f, exec i s = tableCommand s ok f := by
  simp only [List.mem_cons, List.not_mem_nil, or_false] at hi
  rcases hi with rfl | rfl | rfl | rfl | rfl | rfl | rfl
  · exact ⟨_, _, exec_descSync s⟩
  · exact ⟨_, _, exec_shoot s⟩
  · exact ⟨_, _, exec_g2Shoot s⟩
  · exact ⟨_, _, exec_fbFlush s⟩
  · exact ⟨_, _, by rw [exec_counterMove, execCounterMove]⟩
  · exact ⟨_, _, exec_twrite s⟩
  · exact ⟨_, _, by rw [exec_tread, execTread]⟩

section

variable {s : State} (hb : tableBusy s = false)

include hb

theorem exec_descSync_runs (hi : s.tb.targ0.toNat < 2 ^ 32) : exec .descSync s = .next (descSync (setErr s false) s.tb.targ0.toNat) := by
  have hok : decide (targ0 s < 2 ^ 32) = true := decide_eq_true hi
  rw [exec_descSync, tableCommand_runs hb hok]
  rfl

theorem exec_shoot_runs (hi : s.tb.targ0.toNat < 2 ^ 32) (hx : bits s.tb.targ1.toNat 36 20 = 0) :
    exec .shoot s = .next (shoot (setErr s false) s.tb.targ0.toNat (bits s.tb.targ1.toNat 56 8) (bits s.tb.targ1.toNat 0 36) s.tb.targ2.toNat) := by
  have hok : (decide (targ0 s < 2 ^ 32) && bits (targ1 s) 36 20 == 0) = true :=
    Bool.and_eq_true_iff.2 ⟨decide_eq_true hi, beq_iff_eq.2 hx⟩
  rw [exec_shoot, tableCommand_runs hb hok]
  rfl

theorem exec_fbFlush_runs (hd : s.tb.targ0.toNat < 4) (hg : s.tb.targ1.toNat = (fbGenOf s s.tb.targ0.toNat).toNat) :
    exec .fbFlush s = .next (fbFlush (setErr s false) s.tb.targ0.toNat) := by
  have hok : (decide (targ0 s < 4) && targ1 s == (fbGenOf s (targ0 s)).toNat) = true :=
    Bool.and_eq_true_iff.2 ⟨decide_eq_true hd, beq_iff_eq.2 hg⟩
  rw [exec_fbFlush, tableCommand_runs hb hok]
  rfl

theorem exec_twrite_runs (hok : twriteOk s (bits s.tb.targ0.toNat 56 8) (bits s.tb.targ0.toNat 8 48) (bits s.tb.targ0.toNat 0 8) s.tb.targ1.toNat = true) :
    exec .twrite s = .next (twrite (setErr s false) (bits s.tb.targ0.toNat 56 8) (bits s.tb.targ0.toNat 8 48) (bits s.tb.targ0.toNat 0 8) s.tb.targ1) := by
  have hok' : twriteOk s (bits (targ0 s) 56 8) (bits (targ0 s) 8 48) (bits (targ0 s) 0 8) (targ1 s) = true := hok
  rw [exec_twrite, tableCommand_runs hb hok']
  rfl

theorem exec_counterMove_runs {d : BitVec 512} {ws : List Byte} (hi : s.tb.targ0.toNat < 2 ^ 32)
    (hm : movable s s.tb.targ0.toNat s.tb.targ1.toNat s.tb.targ2.toNat = some d) (hws : ws = Memory.chip s.mem (dWord d 7) (8 * dCount d)) :
    exec .counterMove s = .next (descSync (writeDesc { setErr s false with
      mem := Memory.writeAll (Memory.writeAll s.mem s.tb.targ2.toNat ws) s.tb.targ1.toNat ws } s.tb.targ0.toNat
        (dSetWord d 7 s.tb.targ1.toNat)) s.tb.targ0.toNat) := by
  subst hws
  have hok : (decide (targ0 s < 2 ^ 32) && (movable s (targ0 s) (targ1 s) (targ2 s)).isSome) = true :=
    Bool.and_eq_true_iff.2 ⟨decide_eq_true hi, Option.isSome_iff_exists.2 ⟨d, hm⟩⟩
  have hm' : movable (setErr s false) (targ0 s) (targ1 (setErr s false)) (targ2 (setErr s false)) = some d := hm
  have ha : counterAddr d 0 = dWord d 7 := Nat.add_zero _
  rw [exec_counterMove, execCounterMove]
  dsimp only
  rw [tableCommand_runs hb hok, hm', ← ha]
  rfl

theorem exec_tread_runs (he : bits s.tb.targ0.toNat 8 48 < (tableShape (bits s.tb.targ0.toNat 56 8)).1)
    (hw : bits s.tb.targ0.toNat 0 8 < (tableShape (bits s.tb.targ0.toNat 56 8)).2) (ht : bits s.tb.targ0.toNat 56 8 ≠ 7) :
    exec .tread s = .next { s with tb := { s.tb with
      err := false
      targ1 := BitVec.ofNat 64 (hubWord s (bits s.tb.targ0.toNat 56 8) (bits s.tb.targ0.toNat 8 48) (bits s.tb.targ0.toNat 0 8)) } } := by
  have hok : (decide (bits (targ0 s) 8 48 < (tableShape (bits (targ0 s) 56 8)).1)
      && decide (bits (targ0 s) 0 8 < (tableShape (bits (targ0 s) 56 8)).2)) = true :=
    Bool.and_eq_true_iff.2 ⟨decide_eq_true he, decide_eq_true hw⟩
  have ht' : (bits (targ0 s) 56 8 == 7) = false := beq_eq_false_iff_ne.2 ht
  rw [exec_tread, execTread]
  dsimp only
  rw [tableCommand_runs hb hok, ht']
  rfl

end

/-! ## The obligation -/

/-- A DESC_SYNC, as O51 says it. -/
theorem descSync_effect {s : State} {i : Nat} (hb : tableBusy s = false) (hi : i = s.tb.targ0.toNat) (hlt : i < 2 ^ 32) :
    ∃ t, exec .descSync s = .next t ∧ t.mem = s.mem ∧ t.tb.err = false ∧ (∀ e ∈ t.tb.hcache, namesIndex s i e.handle = false)
      ∧ (∀ h, namesIndex s i (s.blk.hCell h).v = true → (t.blk.hCell h).refresh = true)
      ∧ (∀ h, namesIndex s i (s.blk.hCell h).v = false → t.blk.hCell h = s.blk.hCell h)
      ∧ (∀ g ∈ s.pe.groups, hObj g.index = hObj (handleOf s.pl.pkg.toNat i 0) → ∀ p ∈ g.members, p ≠ s.pl.pkg →
          lostMember s (handleOf s.pl.pkg.toNat i 0) p.toNat = false → (∃ x ∈ t.tb.syncs, x.pkg = p) ∧ tableBusy t = true) := by
  subst hi
  obtain ⟨hmem, herr, hcache, hblk, hasks⟩ := descSync_fields (setErr s false) s.tb.targ0.toNat
  have hcell (h : BitVec 4) : _ = if namesIndex s s.tb.targ0.toNat (s.blk.hCell h).v then _ else _ :=
    (congrArg (·.hCell h) hblk).trans (Block.hCell_descSync s.blk (namesIndex s s.tb.targ0.toNat) h)
  refine ⟨_, exec_descSync_runs hb hlt, hmem, herr, fun e he => ?_, fun h hn => ?_, fun h hn => ?_, fun g hg ho p hp hne hl => ?_⟩
  · rw [hcache] at he
    exact Bool.not_eq_true' _ ▸ (List.mem_filter.1 he).2
  · rw [hcell, if_pos hn]
  · rw [hcell, if_neg (Bool.eq_false_iff.1 hn)]
  · obtain ⟨x, hx, rfl, hh⟩ := mem_syncAsks (s := setErr s false) hg ho hp hne
    obtain ⟨y, hy, hpkg⟩ := hasks x hx (by rw [hh]; exact hl)
    exact ⟨⟨y, hy, hpkg⟩, tableBusy_of_mem hy⟩

/-- A TWRITE that passes its checks, as O51 says it. -/
theorem twrite_effect {s : State} {t e w : Nat} {v : DWord} : ∃ u, twrite (setErr s false) t e w v = u ∧ u.tb.err = false ∧ hubWord u t e w = v.toNat := by
  have h := twrite_words (setErr s false) t e w v
  exact ⟨_, rfl, h.2, (hubWord_congr h.1 _ _ _).trans (hubWord_setHub_same ..)⟩

/-- An FB_FLUSH, as O51 says it. -/
theorem fbFlush_effect (s : State) {die : Nat} (hd : die < 4) :
    ∃ t, fbFlush (setErr s false) die = t ∧ t.tb.err = false ∧ fbGenOf t die = fbGenOf s die + 1 ∧ fbHeadOf t die = fbTailOf s die := by
  have hheads := fbFlush_heads (setErr s false) die
  simp only [bufferHeads, Prod.mk.injEq] at hheads
  obtain ⟨herr, hgen, hhead⟩ := hheads
  refine ⟨_, rfl, herr, ?_, ?_⟩
  · rw [fbGenOf, hgen, getD_setIfInBounds_same _ hd]
    rfl
  · rw [fbHeadOf, hhead, getD_setIfInBounds_same _ hd]
    rfl

/-- SHOOT raises the generation of every die, and takes the range's translations away (R281). -/
theorem shoot_effect (s : State) (i shard first count : Nat) :
    (∀ d, d < 4 → (shoot s i shard first count).tb.shootGen[d]? = (s.tb.shootGen[d]?).map (· + 1))
    ∧ (∀ e, e ∈ (shoot s i shard first count).tb.tlb ↔ e ∈ s.tb.tlb ∧ e.inShoot i shard first count = false)
    ∧ (∀ e, e ∈ (shoot s i shard first count).tb.nested ↔ e ∈ s.tb.nested ∧ e.inShoot i shard first count = false) := by
  refine ⟨fun d hd => ?_, fun e => ?_, fun e => ?_⟩
  · simp [shoot, raiseShoot, hd]
  · simp [shoot, raiseShoot]
  · simp [shoot, raiseShoot]

/-- The second-stage translations that G2_SHOOT leaves. -/
theorem mem_g2Shoot {w base len : Nat} {xs : List G2Entry} {e : G2Entry} :
    e ∈ xs.filter (fun e => !(e.world.toNat == w && base ≤ 4096 * e.page && 4096 * e.page < base + len))
      ↔ e ∈ xs ∧ ¬ (e.world.toNat = w ∧ base ≤ 4096 * e.page ∧ 4096 * e.page < base + len) := by
  rw [List.mem_filter, Bool.not_eq_true', ← Bool.not_eq_true, Bool.and_eq_true, Bool.and_eq_true, beq_iff_eq, decide_eq_true_iff,
    decide_eq_true_iff, and_assoc]

/-- Settles O51: each command is refused, or its effect is one update. -/
theorem tableCommands : Obligations.TableCommands := by
  unfold Obligations.TableCommands
  refine ⟨fun s hb i hi => ?_, fun s i hb hi hlt => descSync_effect hb hi hlt, ?_, ?_, ?_, ?_, ?_, fun s die v => ⟨fun h => ?_, fun h => ?_⟩⟩
  · obtain ⟨ok, f, h⟩ := exec_isTableCommand hi s
    exact h.trans (tableCommand_refused (.inl hb))
  · rintro s _ _ hb rfl hi rfl hx
    exact ⟨_, exec_shoot_runs hb hi hx, rfl, rfl, rfl, shoot_effect ..⟩
  · rintro s _ _ _ hb rfl rfl rfl hw hbase hlen
    have hok : (decide (targ0 s < 2 ^ 14) && targ1 s % 4096 == 0 && targ2 s % 4096 == 0) = true :=
      Bool.and_eq_true_iff.2 ⟨Bool.and_eq_true_iff.2 ⟨decide_eq_true hw, beq_iff_eq.2 hbase⟩, beq_iff_eq.2 hlen⟩
    refine ⟨_, (exec_g2Shoot s).trans (tableCommand_runs hb hok), rfl, rfl, rfl, fun d hd => ?_, fun e => mem_g2Shoot⟩
    simp [raiseShoot, setErr, hd]
  · rintro s _ hb rfl hd hg
    obtain ⟨t, ht, heffect⟩ := fbFlush_effect s hd
    exact ⟨t, (exec_fbFlush_runs hb hd hg).trans (congrArg _ ht), heffect⟩
  · rintro s _ d _ hb rfl hi hm rfl ws m rfl rfl
    exact exec_counterMove_runs hb hi hm rfl
  · rintro s _ hb rfl
    refine ⟨fun hok => ?_, fun hbad => (exec_twrite s).trans (tableCommand_refused (.inr hbad)), exec_tread_runs hb⟩
    obtain ⟨u, hu, heffect⟩ := twrite_effect (s := s)
    exact ⟨u, (exec_twrite_runs hb hok).trans (congrArg _ hu), heffect⟩
  · have hheads := fbConsume_within h
    simp only [bufferHeads, Prod.mk.injEq] at hheads
    obtain ⟨-, -, hhead⟩ := hheads
    refine ⟨_, exec_fbheadWrite die v s, ?_⟩
    rw [fbHeadOf, hhead, getD_setIfInBounds_same _ die.isLt]
  · exact (exec_fbheadWrite die v s).trans (congrArg Host.Outcome.next (fbConsume_beyond h))

end Sys2Proof.Machine
end

section
/-! PROOFS. World switches (R297, R332-R334, R338, R339, R341, R345-R347). -/

namespace Sys2Proof.Machine

open Sys2Proof Sys2Proof.Safety

theorem exec_frameEdge (part : BitVec 4) (s : State) : exec (.frameEdge part) s = execFrameEdge part s := rfl
theorem exec_clearboardToken (part : BitVec 4) (s : State) : exec (.clearboardToken part) s = execClearboardToken part s := rfl
theorem exec_tokcopy (addr : BitVec 64) (s : State) : exec (.tokcopy addr) s = execTokcopy addr s := rfl
theorem exec_vfreset (fn : BitVec 6) (s : State) : exec (.vfreset fn) s = execVfreset fn s := rfl

/-! ## Where a function's reset stands -/

/-- BUSY, the function of the latest VFRESET, and the function whose reset waits for an edge's step 6. -/
def vfState (s : State) : Bool × BitVec 6 × Option (BitVec 6) := (s.wo.vfBusy, s.wo.vfLast, s.wo.vfHold)

theorem Steady.vfState {s t : State} (h : Steady s t) : vfState t = vfState s := by
  rw [Machine.vfState, h.vfBusy, h.vfLast, h.vfHold, Machine.vfState]

theorem vfState_setSwitch (s : State) (part : BitVec 4) (w : Switch) : vfState (setSwitch s part w) = vfState s := rfl

/-! ## Tokens (R338, R339) -/

/-- The signature of a token leaves the partition's edges and where a function's reset stands. -/
theorem signToken_switch (s : State) (part : BitVec 4) : ∃ k, switchOf (signToken s part) part = { switchOf s part with token := k, pendingToken := none }
    ∧ vfState (signToken s part) = vfState s := by
  cases h : (switchOf s part).pendingToken with
  | none => exact ⟨(switchOf s part).token, by rw [signToken_none h, ← h], by rw [signToken_none h]⟩
  | some k =>
    obtain ⟨u, hu, he, hw⟩ := signToken_some h
    exact ⟨_, hu ▸ hw, by rw [hu, he]; rfl⟩

/-- A scrub leaves a token to be signed, and keeps the partition's edges. -/
theorem scrub_switch (s : State) (part : BitVec 4) (cause : Nat) (out inc : Option (BitVec 14)) (rs : Ranges) (cleared : BitVec 16) :
    ∃ k k', switchOf (scrub s part cause out inc rs cleared) part = { switchOf s part with token := k, pendingToken := some k' }
      ∧ vfState (scrub s part cause out inc rs cleared) = vfState s := by
  obtain ⟨u, k', he, hu⟩ := scrub_eq s part cause out inc rs cleared
  obtain ⟨k, hw, hr⟩ := signToken_switch s part
  exact ⟨k, k', by rw [he, switchOf_setSwitch_same, hu.switchOf, hw], by rw [he, vfState_setSwitch, hu.vfState, hr]⟩

/-! ## The steps of an edge that leave the switching alone -/

theorem dropBlocks_steady (s : State) (p : Block → Bool) : Steady s (dropBlocks s p) := by
  unfold dropBlocks
  dsimp only
  split
  · exact .of_wo rfl rfl rfl
  · split <;> exact .of_wo rfl rfl rfl

theorem abandonWait_steady (s : State) (id : BId) : Steady s (abandonWait s id) :=
  .of_wo (abandonWait_wo s id) (by rw [abandonWait_tb]) (by rw [abandonWait_tb])

theorem sealSlot_eq (s : State) (part : BitVec 4) (frame cores : Nat) : ∃ m, sealSlot s part frame cores = { s with mem := m } := ⟨_, rfl⟩

theorem saveWorld_steady (s : State) (part : BitVec 4) (w : BitVec 14) (still : Bool) : Steady s (saveWorld s part w still) := by
  unfold saveWorld
  dsimp only
  have hu : Steady s (if still = true then s else (partBlocks s part).foldl (fun s b => abandonWait s b.id) s) := by
    split
    · exact .refl s
    · exact Steady.foldl (fun u b => abandonWait_steady u b.id) (partBlocks s part) s
  generalize (if still = true then s else (partBlocks s part).foldl (fun s b => abandonWait s b.id) s) = u at hu ⊢
  obtain ⟨m, h⟩ := sealSlot_eq u part (switchOf s part).frame (((partBlocks s part).map (·.core)).eraseDups).length
  rw [h]
  exact (hu.trans rfl).trans (dropBlocks_steady _ _)

theorem rasRecord_steady (s : State) (kind : Nat) (core : Core) : Steady s (rasRecord s kind core) := by
  unfold rasRecord
  exact rfl

theorem testEnds_steady (s : State) (core : Core) (pass : Bool) : Steady s (testEnds s core pass) := by
  unfold testEnds fence
  dsimp only
  split
  · exact .of_wo rfl rfl rfl
  · refine Steady.trans ?_ (rasRecord_steady _ 6 core)
    split <;> exact .of_wo rfl rfl rfl

theorem edgeTests_steady (s : State) (part : BitVec 4) : Steady s (edgeTests s part) := by
  unfold edgeTests
  dsimp only
  split
  · exact .refl s
  · have htests (u : State) (x : Core × Bool) : Steady u (testEnds u x.1 x.2) := testEnds_steady u x.1 x.2
    have htime : Steady s (reachTime s (s.tm.dtime.toNat + 15000)) := .of_wo rfl rfl rfl
    generalize s.pl.testDue.filter (fun x => bitAt (partClusters s part) (clusterOf x.1)) = ts
    exact (htime.trans (Steady.foldl htests ts _)).trans (.of_wo rfl rfl rfl)

theorem addBlock_steady (s : State) (b : Block) : Steady s (addBlock s b) := by
  unfold addBlock
  split <;> exact .of_wo rfl rfl rfl

theorem putCells_eq (s : State) (rs : Ranges) (cells : List Host.Cell) (empties : List Nat) :
    ∃ m e, putCells s rs cells empties = { s with mem := m, empties := e } := ⟨_, _, rfl⟩

theorem putCells_steady (s : State) (rs : Ranges) (cells : List Host.Cell) (empties : List Nat) : Steady s (putCells s rs cells empties) := by
  obtain ⟨m, e, h⟩ := putCells_eq s rs cells empties
  rw [h]
  exact .of_wo rfl rfl rfl

theorem resumeVictim_steady (s : State) (c : Core) (world : BitVec 14) : Steady s (resumeVictim s c world) := by
  unfold resumeVictim
  dsimp only
  split
  · exact rfl
  next b hb =>
    refine Steady.trans ?_ (updBlock_steady _ b.id Block.goOn)
    split
    · split
      next v hv => exact Steady.trans (putCells_steady s (coreRanges c) v.cells v.empties) rfl
      next => exact rfl
    · exact rfl

theorem settleBarrier_steady (s : State) (g : Nat) (sc : Scope) (unit : Nat) : Steady s (settleBarrier s g sc unit) := by
  rw [settleBarrier_eq]
  exact .of_wo rfl rfl rfl

theorem settleLaunchBarriers_steady (s : State) (g : Nat) : Steady s (settleLaunchBarriers s g) := by
  refine Steady.foldl (fun u x => ?_) _ s
  split
  · exact settleBarrier_steady ..
  · exact .refl u

theorem restoreBlock_steady (s : State) (b : Block) : Steady s (restoreBlock s b) := addBlock_steady ..

theorem restoreWorld_steady (s : State) (part : BitVec 4) (w : BitVec 14) : Steady s (restoreWorld s part w) := by
  have cond (c : State → Block → Bool) (v : State → Block → State) (hv : ∀ u b, Steady u (v u b)) (u : State) (b : Block) :
      Steady u (if c u b then v u b else u) := by
    split
    · exact hv u b
    · exact .refl u
  unfold restoreWorld
  dsimp only
  split
  · exact .refl s
  next v hv =>
    refine Steady.trans ?_ (Steady.foldl settleLaunchBarriers_steady _ _)
    refine Steady.trans ?_ (Steady.foldl (cond _ _ fun u b => resumeVictim_steady u b.core w) _ _)
    refine Steady.trans ?_ (Steady.foldl restoreBlock_steady _ _)
    exact (putCells_steady s (saveRanges s part v.blocks) _ _).trans rfl

/-- Step 6 moves no more of the switching than where the edge stands (R332, R334). -/
theorem startPart_switch (s : State) (part : BitVec 4) : ∃ e, switchOf (startPart s part) part = { switchOf s part with edge := e }
    ∧ vfState (startPart s part) = vfState s := by
  unfold startPart
  dsimp only
  split
  · exact ⟨_, switchOf_setSwitch_same .., rfl⟩
  · exact ⟨_, switchOf_setSwitch_same .., rfl⟩

/-! ## Frame edges (R332-R334) -/

theorem frameLen_congr {s t : State} (h : t.tb.hub = s.tb.hub) (part : BitVec 4) (k : Nat) : frameLen t part k = frameLen s part k := by
  rw [frameLen, hubWord_congr h, frameLen]

theorem nextFrame_congr {s t : State} (hwo : t.wo = s.wo) (hhub : t.tb.hub = s.tb.hub) (part : BitVec 4) : nextFrame t part = nextFrame s part := by
  rw [nextFrame, switchOf, hwo, frameCount, hubWord_congr hhub, nextFrame, switchOf, frameCount]

/-- What steps 2 to 6 have done to a partition's switching, where A stands behind the save, D behind the scrub and the tests, and F behind
the restoration. -/
theorem edge_steps {s A D F : State} {part : BitVec 4} {k : Nat} {out inc : Option (BitVec 14)} {rs : Ranges} {x : List (BitVec 6)} (hA : Steady s A)
    (hD : D = edgeTests (scrub (setSwitch A part { switchOf s part with edges := (switchOf s part).edges + 1 }) part 1 out inc rs clearedAll) part)
    (hF : Steady (setSwitch D part { switchOf D part with frame := k, due := (switchOf D part).due + frameLen D part k, vfWait := x }) F) :
    (switchOf (settleFair (startPart F part)) part).edges = (switchOf s part).edges + 1
    ∧ (switchOf (settleFair (startPart F part)) part).frame = k
    ∧ (switchOf (settleFair (startPart F part)) part).due = (switchOf s part).due + frameLen s part k
    ∧ (switchOf (settleFair (startPart F part)) part).pendingToken ≠ none
    ∧ vfState (settleFair (startPart F part)) = vfState s := by
  have hwords := (scrub_words (setSwitch A part { switchOf s part with edges := (switchOf s part).edges + 1 }) part 1 out inc rs clearedAll).1
  obtain ⟨t, t', hscrub, hvf⟩ := scrub_switch (setSwitch A part { switchOf s part with edges := (switchOf s part).edges + 1 }) part 1 out inc rs clearedAll
  rw [switchOf_setSwitch_same] at hscrub
  rw [vfState_setSwitch] at hvf
  have htests := edgeTests_steady (scrub (setSwitch A part { switchOf s part with edges := (switchOf s part).edges + 1 }) part 1 out inc rs clearedAll) part
  rw [← hD] at htests
  have hhub : D.tb.hub = s.tb.hub := htests.hub.trans (hwords.trans hA.hub)
  have hvfD : vfState D = vfState s := htests.vfState.trans (hvf.trans hA.vfState)
  obtain ⟨e, hstart, hvfG⟩ := startPart_switch F part
  have hfair := settleFair_steady (startPart F part)
  rw [hfair.switchOf, hstart, hF.switchOf, switchOf_setSwitch_same, htests.switchOf, hscrub, frameLen_congr hhub]
  exact ⟨rfl, rfl, rfl, Option.some_ne_none _, hfair.vfState.trans (hvfG.trans (hF.vfState.trans hvfD))⟩

/-- Steps 2 to 6 count the edge, move to the next frame and leave a token to be signed. -/
theorem passEdge_switch (s : State) (part : BitVec 4) :
    (switchOf (passEdge s part) part).edges = (switchOf s part).edges + 1
    ∧ (switchOf (passEdge s part) part).frame = nextFrame s part
    ∧ (switchOf (passEdge s part) part).due = (switchOf s part).due + frameLen s part (nextFrame s part)
    ∧ (switchOf (passEdge s part) part).pendingToken ≠ none ∧ vfState (passEdge s part) = vfState s := by
  unfold passEdge
  dsimp only
  generalize partWorld s part = out
  generalize (if nextFrame s part < frameCount s part then frameWorld s part (nextFrame s part) else none) = inc
  cases out with
  | none =>
    cases inc with
    | none => exact edge_steps (.refl s) rfl (.refl _)
    | some i => exact edge_steps (.refl s) rfl (restoreWorld_steady ..)
  | some o =>
    cases inc with
    | none => exact edge_steps (saveWorld_steady ..) rfl (.refl _)
    | some i => exact edge_steps (saveWorld_steady ..) rfl (restoreWorld_steady ..)

theorem releaseReset_none {s : State} (h : s.wo.vfHold = none) : releaseReset s = s := by simp only [releaseReset, h]

theorem execFrameEdge_framed {s : State} {part : BitVec 4} (hm : partMode s part = 2) (hc : frameCount s part ≠ 0) :
    execFrameEdge part s = .next (releaseReset (frameEdge s part)) := by
  simp [execFrameEdge, hm, hc]

/-- Steps 2 to 6 release no reset where none waits. -/
theorem releaseReset_passEdge {s : State} {part : BitVec 4} (h : s.wo.vfHold = none) : releaseReset (passEdge s part) = passEdge s part :=
  releaseReset_none ((congrArg (·.2.2) (passEdge_switch s part).2.2.2.2).trans h)

/-- At E of a frame that issues, the blocks stop, what may not be cut off completes, and the other steps follow once every block can be saved. -/
theorem frameEdge_run {s : State} {part : BitVec 4} (h : (switchOf s part).edge = .run) {t : State}
    (ht : t = (partBlocks (stopPart (reachTime s (switchOf s part).due) part) part).foldl (fun s b => onBlock s b.id (settleBy edgeOps))
      (stopPart (reachTime s (switchOf s part).due) part)) :
    frameEdge s part = if (partBlocks t part).all Block.edgeReady then passEdge t part else t := by
  subst ht
  have hs : ¬((EdgePhase.run == EdgePhase.stopping) = true) := by decide
  have hm : ¬((EdgePhase.run == EdgePhase.mute) = true) := by decide
  simp only [frameEdge, h, beq_self_eq_true, if_true, if_neg hs, if_neg hm]

theorem frameEdge_mute {s : State} {part : BitVec 4} (h : (switchOf s part).edge = .mute) :
    frameEdge s part = passEdge (reachTime s (switchOf s part).due) part := by
  have hs : ¬((EdgePhase.mute == EdgePhase.stopping) = true) := by decide
  simp only [frameEdge, h, beq_self_eq_true, if_true, if_neg hs]

/-! ## CLEARBOARD_TOKEN and TOKCOPY (R339, R341, R347) -/

/-- A signed token lets the partition's blocks go on, and ends a reset of a function that waits for it. -/
theorem execClearboardToken_some {s : State} {part : BitVec 4} {k : CbToken} (h : (switchOf s part).pendingToken = some k) :
    ∃ t, execClearboardToken part s = .next t ∧ t.mem = s.mem ∧ (switchOf t part).pendingToken = none
      ∧ (switchOf t part).token = some { k with count := s.wo.count + 1, sig := s.fresh } ∧ t.wo.count = s.wo.count + 1
      ∧ t.blk.phase = (if s.blk.part = part then s.blk.phase.freed else s.blk.phase)
      ∧ t.wo.vfBusy = (s.wo.vfBusy && !(s.wo.vfHold.isNone && fnPart s s.wo.vfLast == part
          && !(switchOf s part).vfWait.contains s.wo.vfLast)) := by
  obtain ⟨u, hu, he, hw⟩ := signToken_some h
  have hphase (b : Block) : (if (b.part != part) = true then b else { b with phase := b.phase.freed, back := b.back.freed }).phase
      = if b.part = part then b.phase.freed else b.phase := by
    by_cases hb : b.part = part <;> simp [hb]
  have hfn : fnPart u u.wo.vfLast = fnPart s s.wo.vfLast := by rw [he]; rfl
  have hwait : (switchOf u part).vfWait = (switchOf s part).vfWait := by rw [hw]
  have hblk : u.blk = s.blk := by rw [he]
  have hbusy : u.wo.vfBusy = s.wo.vfBusy := by rw [he]
  have hlast : u.wo.vfLast = s.wo.vfLast := by rw [he]
  have hhold : u.wo.vfHold = s.wo.vfHold := by rw [he]
  have hmem : u.mem = s.mem := by rw [he]
  have hcount : u.wo.count = s.wo.count + 1 := by rw [he]
  have hpend : (switchOf s part).pendingToken.isNone = false := by rw [h]; rfl
  rw [execClearboardToken, hpend, hu]
  refine ⟨_, rfl, ?_⟩
  rw [← hfn, ← hlast, ← hhold, ← hbusy, ← hwait, ← hblk, ← hmem]
  have htoken := congrArg (·.token) hw
  generalize hends : (u.wo.vfHold.isNone && fnPart u u.wo.vfLast == part && !(switchOf u part).vfWait.contains u.wo.vfLast) = ends
  split
  next h' =>
    have hend : ends = true := hends.symm.trans h'
    exact ⟨rfl, congrArg (·.pendingToken) hw, htoken, hcount, hphase u.blk, by simp [hend]⟩
  next h' =>
    have hend : ends = false := hends.symm.trans (Bool.eq_false_iff.2 h')
    exact ⟨rfl, congrArg (·.pendingToken) hw, htoken, hcount, hphase u.blk, by simp [hend]; rfl⟩

theorem execTokcopy_some {s : State} {addr : BitVec 64} {k : CbToken} (h : (switchOf s s.wo.cbpart).token = some k) (ha : addr.toNat % 256 = 0)
    (hr : isDram addr.toNat = true ∨ inSystemRegion s addr.toNat = true) :
    execTokcopy addr s = .next { s with mem := Memory.writeAll s.mem addr.toNat (k.bytes s) } := by
  have hok : (addr.toNat % 256 == 0 && (isDram addr.toNat || inSystemRegion s addr.toNat)) = true := by simp [ha, hr]
  simp only [execTokcopy, h, hok, if_true]

/-! ## VF_RESET (R345-R347) -/

theorem tryWork_unmap_steady {s t : State} {fn : BitVec 6} {q : Byte} {head tail : Word} (h : tryWork s (.unmap fn q head tail) = .ok t) : Steady s t :=
  leaveQueue_steady h

theorem tryWork_discard_steady {s t : State} {fn : BitVec 6} {q : Byte} (h : tryWork s (.discard fn q) = .ok t) : Steady s t := by
  unfold tryWork at h
  dsimp only at h
  split at h
  · cases h
  · cases h; exact .refl s
  · exact leaveQueue_steady h

/-- Work that keeps the switching where it is done keeps it where it parks or waits. -/
theorem doWork_steady {s : State} {w : DispWork} (hw : ∀ t, tryWork s w = .ok t → Steady s t) : Steady s (doWork s w) := by
  unfold doWork
  split
  · exact .of_wo rfl rfl rfl
  · split
    next t ht => exact hw t ht
    next g hg => exact parkWork_steady s w g

theorem discardQueue_steady (fn : BitVec 6) (s : State) (q : Nat) : Steady s (discardQueue fn s q) := by
  unfold discardQueue
  dsimp only
  split
  · exact Steady.trans (.of_wo rfl rfl rfl) (doWork_steady fun t ht => tryWork_unmap_steady ht)
  · exact doWork_steady fun t ht => tryWork_discard_steady ht

theorem discardQueue_guest (fn : BitVec 6) (s : State) (q : Nat) : GuestFrame s (discardQueue fn s q) := by
  unfold discardQueue
  dsimp only
  split
  next c hc =>
    have hctx : GuestFrame s { s with dp := { s.dp with
      ctxs := s.dp.ctxs.filter (fun c => !(c.fn == fn && c.queue == BitVec.ofNat 8 q)) } } := rfl
    exact hctx.trans (doWork_guest _ _)
  · exact doWork_guest _ _

theorem discardQueues_steady (s : State) (fn : BitVec 6) : Steady s (discardQueues s fn) := by
  unfold discardQueues
  split
  · exact Steady.foldl (discardQueue_steady fn) _ s
  · exact .refl s

theorem discardQueues_guest (s : State) (fn : BitVec 6) : GuestFrame s (discardQueues s fn) := by
  unfold discardQueues
  split
  · exact GuestFrame.foldl (discardQueue_guest fn) _ s
  · exact .refl s

theorem endBlocks_none {s : State} {fn : BitVec 6} (h : ∀ b ∈ allBlocks s, b.fn ≠ fn) : endBlocks s fn = s := by
  have hmine : (allBlocks s).filter (fun b => b.fn == fn) = [] := List.filter_eq_nil_iff.2 fun b hb => by simpa using h b hb
  simp only [endBlocks, hmine, List.foldl_nil]

theorem endSaved_nil {s : State} {fn : BitVec 6} (h : s.wo.saves = []) : endSaved s fn = s := by
  simp only [endSaved, dropSaved, h, List.flatMap_nil, List.map_nil, List.foldl_nil]
  rw [← h]

theorem endLaunches_nil {s : State} {fn : BitVec 6} (h : s.dp.launches = []) : endLaunches s fn = s := by
  simp only [endLaunches, h, List.filter_nil, List.foldl_nil]

theorem abortRing_none {s : State} {fn : BitVec 6} {host : Bool} (h : svcRingOf s fn host = none) : abortRing fn s host = s := by
  simp only [abortRing, h]

/-- State t has the worlds' side, the service rings, and the words of every table before the watch table of state s. -/
def Watchless (s t : State) : Prop :=
  t.wo = s.wo ∧ t.ho = s.ho ∧ ∀ x e w, x < 5 → e * 256 + w < 2 ^ 56 → hubWord t x e w = hubWord s x e w

theorem Watchless.refl (s : State) : Watchless s s := ⟨rfl, rfl, fun _ _ _ _ _ => rfl⟩

theorem Watchless.trans {s t u : State} (h1 : Watchless s t) (h2 : Watchless t u) : Watchless s u :=
  ⟨h2.1.trans h1.1, h2.2.1.trans h1.2.1, fun x e w hx hw => (h2.2.2 x e w hx hw).trans (h1.2.2 x e w hx hw)⟩

theorem Watchless.foldl {α : Type} {f : State → α → State} (hf : ∀ s x, Watchless s (f s x)) (xs : List α) (s : State) :
    Watchless s (xs.foldl f s) := by
  induction xs generalizing s with
  | nil => exact .refl s
  | cons x xs ih => exact (hf s x).trans (ih (f s x))

theorem setHub_watchless (s : State) (e : Nat) (v : DWord) : Watchless s (setHub s 5 e 2 v) := by
  refine ⟨rfl, rfl, fun x e' w hx hw => hubWord_setHub_other s v ?_⟩
  unfold hubKey
  omega

theorem clearWatches_watchless (s : State) (fn : BitVec 6) : Watchless s (clearWatches s fn) := by
  unfold clearWatches
  refine Watchless.trans ⟨rfl, rfl, fun _ _ _ _ _ => rfl⟩ (Watchless.foldl (fun u e => ?_) _ _)
  dsimp only
  split
  · exact setHub_watchless ..
  · exact .refl u

/-- A reset of a function with no block, no saved world, no launch and no ring empties its queues and clears its watch entries alone. -/
theorem resetFunction_idle {s : State} {fn : BitVec 6} (hb : ∀ b ∈ allBlocks s, b.fn ≠ fn) (hv : s.wo.saves = []) (hl : s.dp.launches = [])
    (hr : ∀ host, svcRingOf s fn host = none) : Watchless s (resetFunction s fn) := by
  have hq := discardQueues_guest s fn
  have hst := discardQueues_steady s fn
  unfold GuestFrame at hq
  generalize hu : discardQueues s fn = u at hq hst
  have hblk : allBlocks u = allBlocks s := by rw [hq]; rfl
  have hwo : u.wo = s.wo := by rw [hq]
  have hho : u.ho = s.ho := by rw [hq]
  have hlaunches : u.dp.launches = [] := by rw [hq]; exact hl
  have hw : Watchless s (clearWatches u fn) := .trans ⟨hwo, hho, fun x e w _ _ => hst.hubWord x e w⟩ (clearWatches_watchless u fn)
  have hrings (host : Bool) : svcRingOf (clearWatches u fn) fn host = none := by
    rw [svcRingOf, hw.2.1]
    exact hr host
  have hend : endSaved (endBlocks u fn) fn = u := by
    rw [endBlocks_none (by rwa [hblk]), endSaved_nil (by rwa [hwo])]
  have hreset : resetFunction s fn = clearWatches u fn := by
    simp only [resetFunction, hu, hend, endLaunches_nil hlaunches, List.foldl_cons, List.foldl_nil, abortRing_none (hrings _)]
  rwa [hreset]

/-- BUSY stays until the token of step 6 is signed (R345, R347), and where that step is a scrub, its token is left to be signed. -/
theorem beginVfreset_idle {s : State} {fn : BitVec 6} (hb : ∀ b ∈ allBlocks s, b.fn ≠ fn) (hv : s.wo.saves = []) (hl : s.dp.launches = [])
    (hr : ∀ host, svcRingOf s fn host = none) : (beginVfreset s fn).wo.vfBusy = s.wo.vfBusy ∧ (beginVfreset s fn).wo.vfLast = s.wo.vfLast
      ∧ (partMode s (fnPart s fn) ≠ 2 → (switchOf (beginVfreset s fn) (fnPart s fn)).pendingToken ≠ none) := by
  obtain ⟨hwo, -, htab⟩ := resetFunction_idle (s := { s with wo := { s.wo with vfHold := none } }) (fn := fn) hb hv hl hr
  have hfn := fn.isLt
  unfold beginVfreset
  dsimp only
  generalize resetFunction { s with wo := { s.wo with vfHold := none } } fn = u at hwo htab ⊢
  have hfnPart : fnPart u fn = fnPart s fn := by
    rw [fnPart, htab 4 fn.toNat 0 (by decide) (by omega)]
    rfl
  have hmode (p : BitVec 4) : partMode u p = partMode s p := by
    have := p.isLt
    rw [partMode, htab 1 p.toNat 0 (by decide) (by omega)]
    rfl
  have hbusy : u.wo.vfBusy = s.wo.vfBusy := by rw [hwo]
  have hlast : u.wo.vfLast = s.wo.vfLast := by rw [hwo]
  rw [hfnPart, hmode]
  rw [(settleFair_steady _).vfBusy, (settleFair_steady _).vfLast, (settleFair_steady _).switchOf]
  split
  next h => exact ⟨hbusy, hlast, fun hne => absurd h (by simp [hne])⟩
  next h =>
    obtain ⟨k, k', hsw, hvf⟩ := scrub_switch u (fnPart s fn) 3 (some (fnWorld u fn)) (some (fnWorld u fn)) (resetRanges u (fnPart s fn) fn)
      (resetCleared u (fnPart s fn) fn)
    simp only [vfState, Prod.mk.injEq] at hvf
    obtain ⟨hb', hl', -⟩ := hvf
    exact ⟨hb'.trans hbusy, hl'.trans hlast, fun _ => by rw [hsw]; exact Option.some_ne_none k'⟩

theorem execVfreset_busy {s : State} {fn : BitVec 6} (h : s.wo.vfBusy = true) : execVfreset fn s = .next s := by
  simp only [execVfreset, h, if_true]

theorem execVfreset_idle {s : State} {fn : BitVec 6} (h : s.wo.vfBusy = false) : execVfreset fn s =
    .next (if (switchOf s (fnPart s fn)).edge = .run then beginVfreset { s with wo := { s.wo with vfBusy := true, vfLast := fn, vfHold := some fn } } fn
      else { s with wo := { s.wo with vfBusy := true, vfLast := fn, vfHold := some fn } }) := by
  have he : switchOf { s with wo := { s.wo with vfBusy := true, vfLast := fn, vfHold := some fn } } (fnPart s fn) = switchOf s (fnPart s fn) := rfl
  have hp : fnPart { s with wo := { s.wo with vfBusy := true, vfLast := fn, vfHold := some fn } } fn = fnPart s fn := rfl
  simp only [execVfreset, h, Bool.false_eq_true, if_false, releaseReset, hp, he, beq_iff_eq]

/-! ## The obligation -/

/-- Settles O53: an edge and a reset of a function are each a chain of steps, of which the scrub leaves the token. -/
theorem worldSwitches : Obligations.WorldSwitches := by
  unfold Obligations.WorldSwitches
  refine ⟨?_, fun s part hm hc he hh => ?_, reachTime_le, fun s part hm => ?_, fun s part k h => ?_, rfl, by decide, fun s addr k hk ha hr => ?_,
    fun s fn h => ⟨⟨_, (exec_vfreset fn s).trans (execVfreset_idle h)⟩, fun hb hv hl hr => ?_⟩, fun s fn h he => ?_, fun s fn h => ?_⟩
  · rintro s part _ s₂ hm hc he rfl hs₂ hh
    have hrun : exec (.frameEdge part) s = _ := (exec_frameEdge part s).trans (execFrameEdge_framed hm hc)
    rw [hrun, frameEdge_run he hs₂]
    refine ⟨fun h => ?_, fun h => ?_⟩
    · rw [if_neg (Bool.eq_false_iff.1 h), releaseReset_none hh]
    · obtain ⟨hedges, hframe, hdue, htoken, -⟩ := passEdge_switch s₂ part
      rw [if_pos h, releaseReset_passEdge hh]
      exact ⟨_, rfl, hedges, hframe, hdue, htoken⟩
  · obtain ⟨hedges, hframe, -, htoken, -⟩ := passEdge_switch (reachTime s (switchOf s part).due) part
    rw [exec_frameEdge, execFrameEdge_framed hm hc, frameEdge_mute he, releaseReset_passEdge (by exact hh)]
    exact ⟨_, rfl, hedges, hframe, htoken⟩
  · simp [exec_frameEdge, execFrameEdge, hm]
  · obtain ⟨t, ht, heffect⟩ := execClearboardToken_some h
    exact ⟨t, (exec_clearboardToken part s).trans ht, heffect⟩
  · exact (exec_tokcopy addr s).trans (execTokcopy_some hk ha hr)
  · rw [exec_vfreset, execVfreset_idle h]
    refine ⟨_, rfl, ?_⟩
    split
    · obtain ⟨hbusy, hlast, htoken⟩ := beginVfreset_idle (s := { s with wo := { s.wo with vfBusy := true, vfLast := fn, vfHold := some fn } })
        (fn := fn) hb hv hl hr
      exact ⟨hbusy, hlast, fun hm _ => htoken hm⟩
    next he => exact ⟨rfl, rfl, fun _ he' => absurd he' he⟩
  · rw [exec_vfreset, execVfreset_idle h, if_neg he]
  · exact (exec_vfreset fn s).trans (execVfreset_busy h)

end Sys2Proof.Machine
end

section
/-! PROOFS. Host requests (R336, R350-R353, R355, R357, R415). -/

namespace Sys2Proof.Machine

open Sys2Proof Sys2Proof.Safety

theorem exec_hostLoad (f : HostFrame) (tag : BitVec 12) (addr : BitVec 64) (len : Nat) (s : State) :
    exec (.hostLoad f tag addr len) s = execHostLoad f tag addr len s := rfl
theorem exec_hostStore (f : HostFrame) (tag : BitVec 12) (addr : BitVec 64) (data : List Byte) (s : State) :
    exec (.hostStore f tag addr data) s = execHostStore f tag addr data s := rfl
theorem exec_apertureDescriptorWrite (f : HostFrame) (tag : BitVec 12) (fn : BitVec 6) (a : BitVec 4) (word : Bool) (v : BitVec 64) (s : State) :
    exec (.apertureDescriptorWrite f tag fn a word v) s = execApertureDescriptorWrite f tag fn a word v s := rfl
theorem exec_serviceNotify (f : HostFrame) (tag : BitVec 12) (fn : BitVec 6) (v : BitVec 64) (s : State) :
    exec (.serviceNotify f tag fn v) s = execServiceNotify f tag fn v s := rfl
theorem exec_hostRequestTimeout (k : Nat) (s : State) : exec (.hostRequestTimeout k) s = execHostRequestTimeout k s := rfl
theorem exec_hostLinkUp (port : Bool) (s : State) : exec (.hostLinkUp port) s = execHostLinkUp port s := rfl
theorem exec_hostLinkDown (port : Bool) (s : State) : exec (.hostLinkDown port) s = execHostLinkDown port s := rfl

/-! ## Ports (R350) -/

theorem portState_setPort_same (s : State) (port : Bool) (p : GPort) : portState (setPort s port p) port = p := by
  cases port <;> rfl

theorem setPort_reqs (s : State) (port : Bool) (p : GPort) : (setPort s port p).ho.reqs = s.ho.reqs := by
  cases port <;> rfl

theorem hostDone_reqs (s : State) (port : Bool) (tag : BitVec 12) (status : Nat) (data : List Byte) :
    (hostDone s port tag status data).ho.reqs = s.ho.reqs := setPort_reqs ..

theorem portState_hostDone (s : State) (port : Bool) (tag : BitVec 12) (status : Nat) (data : List Byte) :
    (portState (hostDone s port tag status data) port).done = (portState s port).done ++ [⟨tag, status, data⟩] := by
  rw [hostDone, portState_setPort_same]

/-! ## The arrival of a request (R350, R351, R353, R415) -/

theorem storeArrives_eq {s : State} {port : Bool} {tag : BitVec 12} {addr : BitVec 64} {data : List Byte}
    (h : s.pl.recovery = false ∨ requestFault s (newReq port tag addr data.length (some data)) = none) :
    storeArrives port tag addr data s = hostArrives s (newReq port tag addr data.length (some data)) := by
  have hnone : (if requestFault s (newReq port tag addr data.length (some data)) == some gUNMAPPED
      then recoveryStore s port addr.toNat data else none) = none := by
    rcases h with h | h
    · simp [recoveryStore, h]
    · simp [h]
  simp only [storeArrives, hnone]

/-- What an instruction that brings a request does, the recovery traffic apart: the request arrives (R350). -/
theorem exec_isRequest {i : Instr} {q : HostReq} {s : State} (h : IsRequest i q) (hr : s.pl.recovery = false ∨ requestFault s q = none) :
    exec i s = .next (hostArrives s q) := by
  rcases h with ⟨port, tag, addr, len, rfl, rfl⟩ | ⟨port, tag, addr, data, rfl, rfl⟩ | ⟨port, tag, fn, a, word, v, rfl, rfl⟩
    | ⟨port, tag, fn, v, rfl, rfl⟩
  · exact exec_hostLoad ..
  · rw [exec_hostStore, ← storeArrives_eq hr]
    rfl
  · exact exec_apertureDescriptorWrite ..
  · exact exec_serviceNotify ..

/-- A request is neither parked nor asked of a peer when it arrives. -/
theorem isRequest_new {i : Instr} {q : HostReq} (h : IsRequest i q) : q.park = none ∧ q.remote = none := by
  rcases h with ⟨_, _, _, _, -, rfl⟩ | ⟨_, _, _, _, -, rfl⟩ | ⟨_, _, _, _, _, _, -, rfl⟩ | ⟨_, _, _, _, -, rfl⟩ <;> exact ⟨rfl, rfl⟩

/-- A port that has room for a request lets it arrive. -/
theorem arrives_room {s : State} {q : HostReq} (h : Arrives s q) :
    (decide (4096 ≤ (portReqs s q.port).length) || (portReqs s q.port).any (fun x => x.tag == q.tag)) = false := by
  obtain ⟨hlen, htag⟩ := h
  simpa [List.any_eq_true] using ⟨hlen, htag⟩

theorem hostArrives_refused {s : State} {q : HostReq} {st : Nat} (h : Arrives s q) (hf : requestFault s q = some st) :
    hostArrives s q = hostDone s q.port q.tag st [] := by
  simp only [hostArrives, arrives_room h, Bool.false_eq_true, if_false, hf]

theorem hostArrives_kept {s : State} {q : HostReq} (h : Arrives s q) (hf : requestFault s q = none) :
    hostArrives s q = hostAgain { s with ho := { s.ho with reqs := s.ho.reqs ++ [q] } } s.ho.reqs.length := by
  simp only [hostArrives, arrives_room h, Bool.false_eq_true, if_false, hf]

/-- Whether a request can be attempted is a question about the outstanding requests. -/
theorem hostFree_congr {s t : State} (h : t.ho.reqs = s.ho.reqs) (k : Nat) (q : HostReq) : hostFree t k q = hostFree s k q := by
  rw [hostFree, h, hostFree]

theorem hostDrain_waits {s : State} (h : HostWaits s) (n : Nat) : hostDrain n s = s := by
  cases n with
  | zero => rfl
  | succ n =>
    have hnone : (s.ho.reqs.zipIdx).find? (fun x => x.1.park.isNone && hostFree s x.2 x.1) = none := by
      rw [List.find?_eq_none]
      intro x hx
      have hk : s.ho.reqs[x.2]? = some x.1 := List.mem_zipIdx_iff_getElem?.1 hx
      cases hp : x.1.park with
      | none => simp [h x.2 x.1 hk hp]
      | some p => simp
    rw [hostDrain, hnone]

theorem hostWaits_congr {s t : State} (h : HostWaits s) (hreqs : t.ho.reqs = s.ho.reqs) : HostWaits t := fun k x hx hp => by
  rw [hostFree_congr hreqs]
  exact h k x (hreqs ▸ hx) hp

/-- A request that nothing holds up is served as it arrives. -/
theorem hostArrives_served {s u : State} {q : HostReq} {st : Nat} {bs : List Byte} (hp : q.park = none) (hr : q.remote = none) (ht : HostTurn s q)
    (hf : requestFault s q = none) (hs : hostServe { s with ho := { s.ho with reqs := s.ho.reqs ++ [q] } } q = (.done st bs, u))
    (hu : u.ho.reqs = s.ho.reqs ++ [q]) :
    hostArrives s q = hostDone { u with ho := { u.ho with reqs := s.ho.reqs } } q.port q.tag st bs := by
  obtain ⟨harr, hwait, hafter⟩ := ht
  have hlast : (s.ho.reqs ++ [q])[s.ho.reqs.length]? = some q := by simp
  have hfree : hostFree { s with ho := { s.ho with reqs := s.ho.reqs ++ [q] } } s.ho.reqs.length q = true := by
    have hnone : s.ho.reqs.any q.after = false := List.any_eq_false.2 fun x hx => Bool.eq_false_iff.1 (hafter x hx)
    simp [hostFree, hp, hr, hnone]
  have herase : (s.ho.reqs ++ [q]).eraseIdx s.ho.reqs.length = s.ho.reqs := by
    rw [List.eraseIdx_append_of_length_le (Nat.le_refl _), Nat.sub_self, List.eraseIdx_zero, List.tail_cons, List.append_nil]
  rw [hostArrives_kept harr hf, hostAgain, hlast]
  dsimp only
  rw [if_pos hfree, hs]
  simp only [hostOutcome, hostEnds, hu, herase]
  refine hostDrain_waits (hostWaits_congr hwait ?_) _
  rw [hostDone_reqs]

/-! ## Places (R352, R353, R355) -/

section

variable {s : State} {q : HostReq}

theorem hostServe_desc {o : Nat} (hp : q.place = .desc o) :
    (∀ bs, q.data = some bs → hostServe s q = (.done gOK [], setDescWords s q.fn o bs))
    ∧ (q.data = none → hostServe s q = (.done gOK (descWords s q.fn o q.len), s)) :=
  ⟨fun bs h => by simp [hostServe, hp, h], fun h => by simp [hostServe, hp, h]⟩

theorem hostServe_notify {n : Nat} {bs : List Byte} (hp : q.place = .notify n) (hd : q.data = some bs) :
    hostServe s q = (.done gOK [], notify s q.fn n (BitVec.ofNat 32 (leNat bs))) := by
  simp [hostServe, hp, hd]

theorem hostServe_service {bs : List Byte} {r : SvcRing} {d : BitVec 512} (hp : q.place = .service) (hd : q.data = some bs)
    (hr : svcRingOf s q.fn true = some r) (hc : readDesc s (hIndex r.ctr) = .ok d) :
    hostServe s q = (.done gOK [], (atomicHere s r.ctr d .maxN 0 (leDWord bs) 0).2) := by
  simp [hostServe, hp, hd, serviceTail, hr, hc]

end

/-- The value of the k low bytes of a number. -/
theorem leNat_leBytes (k n : Nat) : leNat (leBytes k n) = n % 256 ^ k := by
  induction k generalizing n with
  | zero => simp [leBytes, leNat, Nat.mod_one]
  | succ k ih =>
    have hmod : n % 256 ^ (k + 1) = n % 256 + 256 * (n / 256 % 256 ^ k) := by rw [Nat.pow_succ', Nat.mod_mul]
    rw [leBytes, leNat, ih, BitVec.toNat_ofNat, hmod]

theorem leDWord_leBytes (v : DWord) : leDWord (leBytes 8 v.toNat) = v := by
  have hv : v.toNat % 256 ^ 8 = v.toNat := Nat.mod_eq_of_lt v.isLt
  rw [leDWord, leNat_leBytes, hv, BitVec.ofNat_toNat, BitVec.setWidth_eq]

theorem apWord_setApWord (s : State) (fn : BitVec 6) (a w : Nat) (v : DWord) : apWord (setApWord s fn a w v) fn a w = v.toNat := by
  simp [apWord, setApWord]

/-- The two words of an aperture descriptor. -/
theorem apWord_setDescWords (s : State) (fn : BitVec 6) {a w : Nat} (v : BitVec 64) (hw : w < 2) :
    apWord (setDescWords s fn (16 * a + 8 * w) (leBytes 8 v.toNat)) fn a w = v.toNat := by
  have ha : (16 * a + 8 * w) / 16 = a := by omega
  have hw' : ((16 * a + 8 * w) / 8) % 2 = w := by omega
  have hv : leDWord ((leBytes 8 v.toNat).take 8) = v := by rw [List.take_of_length_le (by simp), leDWord_leBytes]
  have hset : setDescWords s fn (16 * a + 8 * w) (leBytes 8 v.toNat) = setApWord s fn a w v := by
    simp [setDescWords, ha, hw', hv]
  rw [hset, apWord_setApWord]

/-! ## Accesses through an aperture (R353, R415) -/

section

variable {s s₁ : State} {q : HostReq} {a o i sh off : Nat} {h : DWord} {d : BitVec 512} {st : DWord}
  (hp : q.place = .aperture a o) (hrep : q.reply = none) (hh : h = BitVec.ofNat 64 (apWord s q.fn a 0)) (hen : apWord s q.fn a 1 % 2 = 1)
  (hres : resolve s (hostWho s q.fn) h 0 = (.ok d st, s₁)) (hi : i = apWord s q.fn a 1 / 65536 * 65536 + o)
  (hsh : sh = i / max 1 (up64K (payloadBytes d))) (hoff : off = i % max 1 (up64K (payloadBytes d)))

include hp hrep hh hen hres hi

section

include hsh hoff

theorem hostServe_load {vs : List Nat} {st' : DWord} {u : State} (hd : q.data = none) (hk : dKind d ≠ kCounter)
    (hcan : canRead d (fnWorld s q.fn) = true) (hshard : sh < (if dSaxis d = 15 then 1 else dScnt d + 1))
    (hbound : off + q.len ≤ payloadBytes d) (hread : objReadFrom true s₁ (hostWho s q.fn) h d 0 sh (wordFields off q.len) = (.ok vs st', u)) :
    hostServe s q = (.done gOK (wordBytes vs), u) := by
  subst hh hi hsh hoff
  have hworld : (hostWho s q.fn).world = fnWorld s q.fn := rfl
  simp only [hostServe, hp, hostAttempt, hd, Option.isSome_none, Bool.false_and, Bool.false_eq_true, if_false, hostChecked, hen, hres, hrep,
    beq_iff_eq, hk, hworld, hcan, Bool.not_true, Nat.one_ne_zero, not_lt.2 hbound, decide_false, Bool.or_false, hread]
  simp [Nat.not_le.2 hshard]

theorem hostServe_store {bs : List Byte} {us : Unit} {st' : DWord} {u : State} (hd : q.data = some bs) (hk : dKind d ≠ kCounter)
    (hcode : dKind d ≠ kCode) (hcan : canWrite d (fnWorld s q.fn) = true) (hshard : sh < (if dSaxis d = 15 then 1 else dScnt d + 1))
    (hbound : off + q.len ≤ payloadBytes d)
    (hwrite : objWrite s₁ (hostWho s q.fn) h d 0 sh (wordFields off q.len) (bytesWords bs) (coveredLines off q.len) = (.ok us st', u)) :
    hostServe s q = (.done gOK [], fireTouched u (hostWho s q.fn) h d sh off q.len) := by
  subst hh hi hsh hoff
  have hworld : (hostWho s q.fn).world = fnWorld s q.fn := rfl
  have hk' : (dKind d == kCode || dKind d == kCounter || !canWrite d (fnWorld s q.fn)) = false := by simp [hcode, hk, hcan]
  simp only [hostServe, hp, hostAttempt, hd, hrep, Option.isSome_none, Option.isSome_some, Bool.and_false, Bool.false_eq_true, if_false, if_true,
    hostChecked, hen, hres, hworld, hk', beq_iff_eq, hk, Nat.one_ne_zero, not_lt.2 hbound, decide_false, Bool.or_false, hwrite]
  simp [Nat.not_le.2 hshard]

end

theorem hostServe_load_counter (hd : q.data = none) (hk : dKind d = kCounter) (hcan : canRead d (fnWorld s q.fn) = true)
    (hbound : i + q.len ≤ 8 * dCount d) (hhome : hHome h = s₁.pl.pkg.toNat) :
    hostServe s q = (.done gOK (Memory.chip s₁.mem (counterAddr d 0 + i) q.len), s₁) := by
  subst hh hi
  have hworld : (hostWho s q.fn).world = fnWorld s q.fn := rfl
  have hshards : ¬(if dSaxis d = 15 then 1 else dScnt d + 1) ≤ 0 := by split <;> omega
  simp only [hostServe, hp, hostAttempt, hd, Option.isSome_none, Bool.false_and, Bool.false_eq_true, if_false, if_true, hostChecked, hen, hres, hrep,
    beq_iff_eq, hk, hworld, hcan, Bool.not_true, Nat.one_ne_zero, not_lt.2 hbound, hshards, decide_false, Bool.or_false, hhome]

end

/-! ## Timeouts and links (R353, R357) -/

/-- A request that has been held for 1 ms is withdrawn, where no replay performs it at another package. -/
theorem execHostRequestTimeout_withdraws {s : State} {k : Nat} {q : HostReq} {x : DWord} (hk : s.ho.reqs[k]? = some q) (hx : q.since = some x)
    (hr : ∀ r, q.remote = some r → r.desc ≠ none) (hw : HostWaits { s with ho := { s.ho with reqs := s.ho.reqs.eraseIdx k } }) :
    execHostRequestTimeout k s = .next (hostEnds (reachTime s (x.toNat + hostLimit)) k q gTIMEOUT []) := by
  have hasked : (match q.remote with | some r => r.desc.isNone | none => false) = false := by
    cases hq : q.remote with
    | none => rfl
    | some r => exact Option.isNone_eq_false_iff.2 (Option.isSome_iff_ne_none.2 (hr r hq))
  have hwait : HostWaits (hostEnds (reachTime s (x.toNat + hostLimit)) k q gTIMEOUT []) := hostWaits_congr hw (by
    rw [hostEnds, hostDone_reqs]
    rfl)
  simp only [execHostRequestTimeout, hk, hx, hostDrain_waits hwait]
  exact if_neg (Bool.eq_false_iff.1 hasked)

theorem portState_dropPort (s : State) (port : Bool) :
    portState (dropPort s port) port = ⟨false, false, none, [], (portState s port).dropped⟩ := by
  cases port <;> rfl

/-! ## The obligation -/

/-- Settles O55: a request is refused, or served, or withdrawn as it stands, each by one update. -/
theorem hostAccess : Obligations.HostAccess := by
  unfold Obligations.HostAccess
  refine ⟨fun s port tag addr len data fn a word v i hi => ?_, fun s i q st hq harr hf hr => ?_, ?_, fun s q o hp => hostServe_desc hp,
    fun s fn a w v hw => apWord_setDescWords s fn v hw, fun s q n bs hp hd => hostServe_notify hp hd,
    fun s q bs r d hp hd hr hc => hostServe_service hp hd hr hc,
    fun s q a o h d st s₁ i sh off hp hrep hh hen hres hi hsh hoff => ⟨?_, ?_, ?_⟩, ?_, fun s port hl => ?_, fun s port => ?_⟩
  · simp only [List.mem_cons, List.not_mem_nil, or_false] at hi
    rcases hi with rfl | rfl | rfl | rfl
    · exact exec_hostLoad ..
    · exact exec_hostStore ..
    · exact exec_apertureDescriptorWrite ..
    · exact exec_serviceNotify ..
  · rw [exec_isRequest hq (.inl hr), hostArrives_refused harr hf]
  · rintro s i q _ st bs u hq ht hf rfl hs hu
    obtain ⟨hp, hr⟩ := isRequest_new hq
    rw [exec_isRequest hq (.inr hf), hostArrives_served hp hr ht hf hs hu]
  · exact fun vs st' u hd hk hcan hshard hbound hread => hostServe_load hp hrep hh hen hres hi hsh hoff hd hk hcan hshard hbound hread
  · exact fun hd hk hcan hbound hhome => hostServe_load_counter hp hrep hh hen hres hi hd hk hcan hbound hhome
  · exact fun bs us st' u hd hk hcode hcan hshard hbound hwrite =>
      hostServe_store hp hrep hh hen hres hi hsh hoff hd hk hcode hcan hshard hbound hwrite
  · rintro s k q x _ hk hx hr rfl hw
    refine ⟨_, (exec_hostRequestTimeout k s).trans (execHostRequestTimeout_withdraws hk hx hr hw), ?_, rfl, rfl, ?_, (reachTime_le s _).1⟩
    · rw [hostEnds, hostDone_reqs]
      rfl
    · rw [hostEnds, portState_hostDone]
      rfl
  · rw [exec_hostLinkUp, execHostLinkUp, hl]
    cases hready : s.pl.ready with
    | false => exact ⟨_, rfl, by rw [portState_setPort_same], by rw [portState_setPort_same], by rw [portState_setPort_same], rfl, rfl, nofun⟩
    | true =>
      exact ⟨_, rfl, by rw [portState_setPort_same], by rw [portState_setPort_same], by rw [portState_setPort_same]; rfl, rfl, rfl,
        fun _ => ⟨_, by rw [portState_setPort_same], rfl⟩⟩
  · refine ⟨_, exec_hostLinkDown port s, portState_dropPort s port, fun q => ?_, rfl, rfl⟩
    rw [dropPort, setPort_reqs, List.mem_filter, bne_iff_ne]

end Sys2Proof.Machine
end

section
/-! PROOFS. Ingress frames and ports (R358, R359, R362, R363). -/

namespace Sys2Proof.Machine

open Sys2Proof Sys2Proof.Safety

theorem exec_ingressFrame (port : BitVec 5) (x : PortFrame) (s : State) : exec (.ingressFrame port x) s = execIngressFrame port x s := rfl
theorem exec_portcfgWrite (v : BitVec 64) (s : State) : exec (.portcfgWrite v) s = execPortcfgWrite v s := rfl

/-! ## Frames at a port (R358, R359) -/

theorem dropFrame_some {s : State} {port : Nat} {p : ScalePort} (h : s.pe.ports[port]? = some p) : dropFrame s port =
    { s with pe := { s.pe with ports := s.pe.ports.setIfInBounds port { p with dropped := p.dropped + 1 } } } := by
  simp only [dropFrame, h]

section

variable {s u : State} {port : BitVec 5} {p : ScalePort} {good : Bool} {bytes : List Byte} (hu : u = (readTime s).2)
  (hp : u.pe.ports[port.toNat]? = some p)

include hu hp

theorem execIngressFrame_off (h : portUp u p = false ∨ p.mode = 0 ∨ bytes.length < 60 ∨ 9212 < bytes.length) :
    execIngressFrame port ⟨good, bytes⟩ s = .next u := by
  have hoff : (!portUp u p || p.mode == 0 || decide (bytes.length < 60) || decide (9212 < bytes.length)) = true := by
    rcases h with h | h | h | h <;> simp [h]
  subst hu
  simp only [execIngressFrame, hp, hoff, if_true]

section

variable (hup : portUp u p = true) (hm : p.mode ≠ 0) (hlo : 60 ≤ bytes.length) (hhi : bytes.length ≤ 9212)

include hup hm hlo hhi

/-- A frame of a port that is up and of a length that a frame can have is taken. -/
theorem execIngressFrame_taken : execIngressFrame port ⟨good, bytes⟩ s =
    if !good then .next (dropFrame u port.toNat)
    else if ptpTaken u port bytes then .next (giveTimeService u port false bytes)
    else if p.mode != 2 then .next u
    else
      match p.filters.toList.find? (fun f => filterMatches f bytes) with
      | none => .next (dropFrame u port.toNat)
      | some f =>
        match u.pe.streams.find? (fun x => x.k == bits f.ctl.toNat 0 6) with
        | some x => .next (streamArrives u x port.toNat bytes)
        | none => .next (dropFrame u port.toNat) := by
  have hon : (!portUp u p || p.mode == 0 || decide (bytes.length < 60) || decide (9212 < bytes.length)) = false := by
    rw [hup, beq_eq_false_iff_ne.2 hm]
    simp [hlo, hhi]
  subst hu
  simp only [execIngressFrame, hp, hon, Bool.false_eq_true, if_false] <;> rfl

theorem execIngressFrame_bad (hg : good = false) : execIngressFrame port ⟨good, bytes⟩ s = .next (dropFrame u port.toNat) := by
  rw [execIngressFrame_taken hu hp hup hm hlo hhi, hg]
  rfl

section

variable (hg : good = true) (hptp : ptpTaken u port bytes = false) (hmode : p.mode = 2)

include hg hptp hmode

theorem execIngressFrame_unmatched (hf : p.filters.toList.find? (fun f => filterMatches f bytes) = none) :
    execIngressFrame port ⟨good, bytes⟩ s = .next (dropFrame u port.toNat) := by
  rw [execIngressFrame_taken hu hp hup hm hlo hhi, hg, hptp, hmode, hf]
  rfl

theorem execIngressFrame_stream {f : Filter} {x : Stream} (hf : p.filters.toList.find? (fun f => filterMatches f bytes) = some f)
    (hx : u.pe.streams.find? (fun x => x.k == bits f.ctl.toNat 0 6) = some x) :
    execIngressFrame port ⟨good, bytes⟩ s = .next (streamArrives u x port.toNat bytes) := by
  rw [execIngressFrame_taken hu hp hup hm hlo hhi, hg, hptp, hmode, hf]
  dsimp only
  rw [hx]
  rfl

end

end

end

/-! ## The stream unit (R363) -/

theorem streamResolve_ok {s u : State} {h : DWord} {write atomic : Bool} {k : BitVec 512 → State → StreamDo × State} {d : BitVec 512} {st : DWord}
    (hr : resolve s (streamWho s) h 0 = (.ok d st, u)) : streamResolve s h write atomic k = k d u := by
  simp only [streamResolve, hr]

theorem streamAdd_here {s u : State} {x : Stream} {f : StreamFrame} {i : Nat} {k : StreamDo} {dc : BitVec 512} {st : DWord}
    (hr : resolve s (streamWho s) x.ctr 0 = (.ok dc st, u)) (hh : hHome x.ctr = u.pl.pkg.toNat) (hf : f.reply = none) :
    streamAdd s x f i k = (k, (atomicHere u x.ctr dc .add i 1 0).2) := by
  simp [streamAdd, hf, streamResolve_ok hr, hh]

theorem streamDo_look {s w u : State} {x : Stream} {f : StreamFrame} {d dc : BitVec 512} {st st' : DWord}
    (hr : resolve s (streamWho s) x.stream 0 = (.ok d st, w)) (hf : f.reply = none) (hstep : f.step = .look)
    (hc : resolve w (streamWho w) x.ctr 0 = (.ok dc st', u)) (hh : hHome x.ctr = u.pl.pkg.toNat) :
    streamDo s x f = (.next (streamLook d x (counterRead u dc 0) (counterRead u dc 1)), u) := by
  simp [streamDo, hstep, streamResolve_ok hr, streamResolve_ok hc, hf, hh]

theorem streamDo_write {s w u : State} {x : Stream} {f : StreamFrame} {d : BitVec 512} {st st' : DWord} {n : Nat} {bs : List Byte} {us : Unit}
    (hr : resolve s (streamWho s) x.stream 0 = (.ok d st, w)) (hf : f.reply = none) (hstep : f.step = .write n 0)
    (hbs : bs = ingressBytes x.slot n f.port f.time f.bytes) (hlen : bs.length ≤ recordPart)
    (hw : objWrite w (streamWho w) x.stream d 0 0 (blobFields (n % max 1 (dExt d 0 / x.slot) * x.slot) bs.length) (blobValues bs)
      (coveredLines (n % max 1 (dExt d 0 / x.slot) * x.slot) bs.length) = (.ok us st', u)) :
    streamDo s x f = (.next (if x.slot - 32 < f.bytes.length then .trunc else .count), u) := by
  subst hbs
  simp only [streamDo, hstep, streamResolve_ok hr, hf, Option.isSome_none, Bool.false_eq_true, if_false, List.drop_zero, List.take_of_length_le hlen,
    Nat.add_zero, Nat.zero_add, Nat.not_lt.2 hlen, hw]

/-! ## PORTCFG (R8, R9, R358) -/

theorem execPortcfgWrite_sets {s : State} {v : BitVec 64} {p : ScalePort} (hp : s.pe.ports[s.pe.portsel.toNat]? = some p)
    (hv : (v.setWidth 2 : BitVec 2) ≠ 3) : ∃ n, n ≤ retrainLimit ∧ execPortcfgWrite v s = .next { s with
      fresh := s.fresh + 1
      pe := { s.pe with ports := s.pe.ports.setIfInBounds s.pe.portsel.toNat { p with
        mode := v.setWidth 2, ptpen := v.getLsbD 3, upAt := s.tm.dtime + BitVec.ofNat 64 n
        linkUp := decide ((v.setWidth 2 : BitVec 2) ≠ 0) && !s.pl.linksDown.contains (.scaleOut s.pe.portsel) } } } := by
  refine ⟨min (Config.retrain s.fresh) retrainLimit, Nat.min_le_right _ _, ?_⟩
  have hne : ((v.setWidth 2 : BitVec 2) != 0) = decide ((v.setWidth 2 : BitVec 2) ≠ 0) := by
    rw [Bool.eq_iff_iff, bne_iff_ne, decide_eq_true_iff]
  simp only [execPortcfgWrite, hp, beq_iff_eq, hv, if_false, hne, freshNat]

theorem getElem?_setIfInBounds_same {α : Type} {n i : Nat} {v : Vector α n} {x y : α} (h : v[i]? = some x) : (v.setIfInBounds i y)[i]? = some y := by
  have hi : i < n := by
    by_contra hc
    simp [Vector.getElem?_eq_none (Nat.not_lt.1 hc)] at h
  simp [hi]

/-! ## The obligation -/

/-- Settles O58: a frame at a port, a step of the stream unit and a write of PORTCFG, each by the branch it takes. -/
theorem ingress : Obligations.Ingress := by
  unfold Obligations.Ingress
  refine ⟨fun s port good bytes p u hu hp => ⟨fun h => (exec_ingressFrame ..).trans (execIngressFrame_off hu hp h), fun hup hm hlo hhi =>
    ⟨fun hg => ?_, fun hg hptp hmode => ⟨fun hf => ?_, fun f x hf hx => ?_⟩⟩⟩, fun s x f d st w hr hf => ⟨?_, ?_⟩,
    fun s x f dc st u hr hh hf => ⟨fun hstep => ?_, fun hstep => ?_, fun hstep => ?_⟩, fun s v p hp hv => ?_⟩
  · rw [exec_ingressFrame, execIngressFrame_bad hu hp hup hm hlo hhi hg, dropFrame_some hp]
  · rw [exec_ingressFrame, execIngressFrame_unmatched hu hp hup hm hlo hhi hg hptp hmode hf, dropFrame_some hp]
  · rw [exec_ingressFrame, execIngressFrame_stream hu hp hup hm hlo hhi hg hptp hmode hf hx]
    rfl
  · exact fun dc st' u hstep hc hh => streamDo_look hr hf hstep hc hh
  · rintro n bs _ us st'' u hstep hbs hlen rfl hw
    exact streamDo_write hr hf hstep hbs hlen hw
  · simp only [streamDo, hstep, streamAdd_here hr hh hf]
  · simp only [streamDo, hstep, streamAdd_here hr hh hf]
  · simp only [streamDo, hstep, streamAdd_here hr hh hf]
  · obtain ⟨n, hn, he⟩ := execPortcfgWrite_sets hp hv
    exact ⟨_, n, (exec_portcfgWrite v s).trans he, rfl, rfl, hn, getElem?_setIfInBounds_same hp⟩

end Sys2Proof.Machine
end

section
/-! PROOFS. Services (R355, R356, R362, R366, R373). -/

namespace Sys2Proof.Machine

open Sys2Proof Sys2Proof.Safety

theorem exec_create (q : SvcReq) (index : BitVec 32) (root : Nat) (frames : List Nat) (s : State) :
    exec (.create q index root frames) s = execCreate q index root frames s := rfl
theorem exec_destroy (q : SvcReq) (s : State) : exec (.destroy q) s = execDestroy q s := rfl
theorem exec_reside (q : SvcReq) (frames : List Nat) (s : State) : exec (.reside q frames) s = execReside q frames s := rfl
theorem exec_publishService (q : SvcReq) (s : State) : exec (.publishService q) s = execPublishService q s := rfl
theorem exec_collective (q : SvcReq) (parts : List (List Byte)) (s : State) : exec (.collective q parts) s = execCollective q parts s := rfl
theorem exec_eventBind (q : SvcReq) (s : State) : exec (.eventBind q) s = execEventBind q s := rfl
theorem exec_streamBind (q : SvcReq) (s : State) : exec (.streamBind q) s = execStreamBind q s := rfl
theorem exec_flashWrite (q : SvcReq) (s : State) : exec (.flashWrite q) s = execFlashWrite q s := rfl

/-! ## A pending request is served (R355) -/

section

variable {s t : State} {q : SvcReq} {op : Nat} {r : SvcRing} {args : List Nat} {k : SvcRing → List Nat → State → Served}
  (hp : Pending s q op r args) (hlo : 0 < op) (hhi : op ≤ 8)

include hp hlo hhi

theorem serveNext_pending : serveNext q op s k = match k r args s with
    | .status st res t => .next (finishRequest t ((svcRingOf t q.fn q.host).getD r) st res)
    | .wait t => .next t := by
  obtain ⟨hring, hremote, hopen, hmore, w0, hslot, hseq, hop, hzero, hpad⟩ := hp
  have hready : (decide (ringWord s r 0 ≤ r.served.toNat) || r.remote.isSome || !slotOpen s r) = false := by
    simp [Nat.not_le.2 hmore, hremote, hopen]
  have hassigned : (op == 0) = false := beq_eq_false_iff_ne.2 hlo.ne'
  have hargs : ((w0 :: args).getD 6 0) = args.getD 5 0 := rfl
  have hw0 : ((w0 :: args).getD 0 0) = w0 := rfl
  have hdrop : (w0 :: args).drop 1 = args := rfl
  simp only [serveNext, hring, hready, Bool.false_eq_true, if_false, hslot, hargs, hw0, hseq, hop, hzero, hpad, hassigned,
    Nat.lt_irrefl, Nat.not_lt.2 hhi, decide_false, bne_self_eq_false, Bool.or_false, hdrop] <;> rfl

variable {i : Instr} (hi : exec i s = serveNext q op s k)

include hi

theorem finished_of_status {c : Nat} {res : Option DWord} (hk : k r args s = .status c res t) : Finished s q r i t c res := by
  rw [Finished, hi, serveNext_pending hp hlo hhi, hk]

theorem exec_of_wait (hk : k r args s = .wait t) : exec i s = .next t := by
  rw [hi, serveNext_pending hp hlo hhi, hk]

end

/-- The end of a request: STATUS and RESULT are in the slot, the ring is published, and DONE is counted. -/
theorem finishRequest_eq {s s₁ s₂ s₃ : State} {r : SvcRing} {status k : Nat} {v : DWord} {y : Acc Unit} {n c : DWord} {d : BitVec 512}
    (hk : freshNat s = (k, s₁)) (hw : writeSlot s₁ r status v.toNat = (y, s₂)) (hp : publishHere s₂ r.ring 0 (· + 1) = .ok (n, c, s₃))
    (hd : readDesc s₃ (hIndex r.ctr) = .ok d) : finishRequest s r status (some v) =
      setRing (atomicHere s₃ r.ctr d .add 2 1 0).2 { r with served := r.served + 1, remote := none, reply := none, want := [], got := [] } := by
  simp only [finishRequest, hk, Option.getD_some, hw, hp, hd]

/-! ## Checks that pass (R356) -/

theorem withObject_ok {r : SvcRing} {h : Nat} {s u : State} {k : BitVec 512 → State → Served} {d : BitVec 512} {st : DWord}
    (hr : resolve s (lolen s r.fn) (BitVec.ofNat 64 h) 0 = (.ok d st, u)) : withObject r h s k = k d u := by
  simp only [withObject, hr]

theorem needRight_ok {ok : Bool} {s : State} {k : Served} (h : ok = true) : needRight ok s k = k := if_pos h
theorem needGood_ok {ok : Bool} {s : State} {k : Served} (h : ok = true) : needGood ok s k = k := if_pos h

theorem unlessAnswered_none {g : SvcRing} {s : State} {k : Served} (h : g.reply = none) : unlessAnswered g s k = k := by
  simp only [unlessAnswered, h]

theorem withFields_all {g : SvcRing} {h : DWord} {d : BitVec 512} {fs : List (Nat × Field)} {s t : State} {vs : List Nat}
    {k : List Nat → State → Served} (hr : readArg g h d fs [] s = (.all vs, t)) : withFields g h d fs s k = k vs t := by
  simp only [withFields, hr]

theorem withFields_away {g : SvcRing} {h : DWord} {d : BitVec 512} {fs : List (Nat × Field)} {s w t : State} {p : Nat} {xs : List ArgField}
    {m : Remote} {k : List Nat → State → Served} (hr : readArg g h d fs [] s = (.away p xs, w))
    (hs : sendRequest w p opRead h ((xs.head?.map (·.field.off)).getD 0) none
      (fieldBody ((xs.head?.map (·.shard)).getD 0) (xs.map (·.field))) = some (m, t)) :
    withFields g h d fs s k = .wait (setRing t { g with remote := some m, want := xs }) := by
  simp only [withFields, hr, hs]

theorem withBytes_zero {r : SvcRing} {h n : Nat} {s : State} {k : Option (List Byte) → State → Served} (hh : h = 0) :
    withBytes r h n s k = k none s := by
  subst hh
  rfl

/-! ## CREATE, DESTROY, RESIDE and PUBLISH (R356) -/

section

variable {s u : State} {q : SvcReq} {r : SvcRing} {args : List Nat}

section

variable {di : BitVec 512} {st : DWord} {index : BitVec 32} {root : Nat} {frames : List Nat} (hp : Pending s q 1 r args)
  (hr : resolve s (lolen s r.fn) (BitVec.ofNat 64 (args.getD 0 0)) 0 = (.ok di st, u)) (hcan : canRead di (fnWorld u r.fn) = true)
  (hk : dKind di = kTensor) (hf : dFmt di = 7) (hn : 8 ≤ dCount di)

include hp hr hcan hk hf hn

/-- The image makes an object that is neither sharded nor replicated, for which Lolen has a free index and frames enough. -/
theorem create_makes {w : State} {ws : List Nat} {old d : BitVec 512}
    (hread : readArg r (BitVec.ofNat 64 (args.getD 0 0)) di (firstFields di 8) [] u = (.all ws, w))
    (hold : readDesc w index.toNat = .ok old) (hd : d = createdDesc ws (dGen old) root) (hfree : dKind old = 0) (hindex : index ≠ 0)
    (hok : dOk w w.pl.pkg.toNat d = true) (hkind : dKind d ≠ 0) (h6 : dRes d ≠ 6) (h4 : dRes d ≠ 4) (h15 : dSaxis d = 15)
    (hmembers : args.getD 1 0 = 0) (hdigest : args.getD 2 0 = 0) (hspace : dKind d ≠ kCounter → shardSlabs d ≤ frames.length) :
    Finished s q r (.create q index root frames) (makeObject w index.toNat d frames) svOK (some (handleOf w.pl.pkg.toNat index.toNat (dGen d))) := by
  have htensor : (dKind di == kTensor && dFmt di == 7 && decide (8 ≤ dCount di)) = true := by simp [hk, hf, hn]
  have hplace : (dKind old != 0 || index == 0) = false := by simpa [hfree] using hindex
  have hshared : (dRes d == 4 || dSaxis d != 15) = false := by simp [h4, h15]
  have hgood : (dOk w w.pl.pkg.toNat d && dKind d != 0 && dRes d != 6 && (!(dRes d == 4 || dSaxis d != 15) || (args.getD 1 0 != 0 && args.getD 2 0 != 0))) = true := by
    simp [hok, hkind, h6, hshared]
  have hroom : (dKind d != kCounter && decide (frames.length < (([w.pl.pkg] : List Byte).filter (· == w.pl.pkg)).length * shardSlabs d)) = false := by
    by_cases hc : dKind d = kCounter
    · simp [hc]
    · simp [hspace hc]
  refine finished_of_status hp (by decide) (by decide) (exec_create ..) ?_
  refine (withObject_ok hr).trans ((needRight_ok hcan).trans ((needGood_ok htensor).trans ((withFields_all hread).trans ?_)))
  subst hd
  rw [hold]
  refine (if_neg (Bool.eq_false_iff.1 hplace)).trans ((needGood_ok hgood).trans ((withBytes_zero hmembers).trans ((withBytes_zero hdigest).trans
    ((if_neg (Bool.eq_false_iff.1 hroom)).trans ?_))))
  have hshared' := Bool.eq_false_iff.1 hshared
  have hadmitted : ¬((!([] : List Byte).isEmpty) = true) := by decide
  extract_lets policy
  rw [if_neg hshared']
  refine (if_neg hadmitted).trans ?_
  exact congrArg (Served.status svOK (some (handleOf w.pl.pkg.toNat index.toNat (dGen (createdDesc ws (dGen old) root))))) (if_neg hshared')

/-- Where another package holds words of the image, they are asked of it. -/
theorem create_asks {w t : State} {p : Nat} {xs : List ArgField} {m : Remote}
    (hread : readArg r (BitVec.ofNat 64 (args.getD 0 0)) di (firstFields di 8) [] u = (.away p xs, w))
    (hs : sendRequest w p opRead (BitVec.ofNat 64 (args.getD 0 0)) ((xs.head?.map (·.field.off)).getD 0) none
      (fieldBody ((xs.head?.map (·.shard)).getD 0) (xs.map (·.field))) = some (m, t)) :
    exec (.create q index root frames) s = .next (setRing t { r with remote := some m, want := xs }) := by
  have htensor : (dKind di == kTensor && dFmt di == 7 && decide (8 ≤ dCount di)) = true := by simp [hk, hf, hn]
  refine exec_of_wait hp (by decide) (by decide) (exec_create ..) ?_
  exact (withObject_ok hr).trans ((needRight_ok hcan).trans ((needGood_ok htensor).trans (withFields_away hread hs)))

end

variable {d : BitVec 512} {st : DWord} (hrep : r.reply = none)
  (hr : resolve s (lolen s r.fn) (BitVec.ofNat 64 (args.getD 0 0)) 0 = (.ok d st, u)) (hcan : canWrite d (fnWorld u r.fn) = true)
  (hhome : hHome (BitVec.ofNat 64 (args.getD 0 0)) = u.pl.pkg.toNat)

include hrep hr hcan hhome

theorem destroy_ends (hp : Pending s q 2 r args) :
    Finished s q r (.destroy q) (destroyHere u (BitVec.ofNat 64 (args.getD 0 0)) d) svOK none := by
  refine finished_of_status hp (by decide) (by decide) (exec_destroy ..) ?_
  simp only [unlessAnswered_none hrep, withObject_ok hr, needRight_ok hcan, hhome, beq_self_eq_true, if_true]

theorem reside_moves {frames : List Nat} {t : State} (hp : Pending s q 3 r args) (hres : args.getD 1 0 ≤ 5)
    (ht : resideHere u (BitVec.ofNat 64 (args.getD 0 0)) d (args.getD 1 0) frames = (.moved, t)) :
    Finished s q r (.reside q frames) t svOK none := by
  have hgood : decide (args.getD 1 0 ≤ 5) = true := decide_eq_true hres
  refine finished_of_status hp (by decide) (by decide) (exec_reside ..) ?_
  simp only [unlessAnswered_none hrep, withObject_ok hr, needRight_ok hcan, needGood_ok hgood, hhome, bne_self_eq_false, Bool.false_eq_true, if_false, ht]

theorem publishService_publishes {v x : DWord} {t : State} (hp : Pending s q 4 r args)
    (hk : dKind d = kTensor ∨ dKind d = kStep ∨ dKind d = kCounter)
    (ht : publishHere u (BitVec.ofNat 64 (args.getD 0 0)) 0 (· + 1) = .ok (v, x, t)) : Finished s q r (.publishService q) t svOK (some v) := by
  have hgood : (dKind d == kTensor || dKind d == kStep || dKind d == kCounter) = true := by
    rcases hk with h | h | h <;> simp [h]
  refine finished_of_status hp (by decide) (by decide) (exec_publishService ..) ?_
  simp only [hrep, withObject_ok hr, needRight_ok hcan, needGood_ok hgood, hhome, bne_self_eq_false, Bool.false_eq_true, if_false, ht]

end

/-! ## What DESTROY and RESIDE do with the slabs (R183, R287) -/

theorem otherHolders_none {s : State} {d : BitVec 512} (h15 : dSaxis d = 15) (h4 : dRes d ≠ 4) : otherHolders s d = [] := by
  simp [otherHolders, h15, h4]

theorem foldl_zeroSlab_tb (frames : List Nat) (s : State) : (frames.foldl zeroSlab s).tb = s.tb := by
  induction frames generalizing s with
  | nil => rfl
  | cons a frames ih =>
    obtain ⟨m, h⟩ := zeroSlab_eq s a
    rw [List.foldl_cons, ih, h]

/-- No other package is told to release a slab of an object that stands here alone. -/
theorem destroyHere_alone {s : State} {h : DWord} {d : BitVec 512} (h15 : dSaxis d = 15) (h4 : dRes d ≠ 4)
    (hpeer : dKind d ≠ kCounter → peerSlabs s h d = []) : ∃ pe, destroyHere s h d =
      { (if dKind d = kCounter then [] else (localSlabs s h d).map (·.2)).foldl zeroSlab
          (shootObject (descSync (writeDesc s (hIndex h) (freeDesc (dGen d + 1))) (hIndex h)) h) with pe := pe }
      ∧ ∀ g ∈ pe.groups, hObj g.index ≠ hObj h := by
  have haway : (if dKind d = kCounter then [] else (otherHolders s d ++ (peerSlabs s h d).map (·.2)).eraseDups) = [] := by
    by_cases hc : dKind d = kCounter
    · simp [hc]
    · simp [hc, otherHolders_none h15 h4, hpeer hc]
  unfold destroyHere
  simp only [beq_iff_eq]
  rw [haway, List.foldl_nil]
  generalize shootObject (descSync (writeDesc s (hIndex h) (freeDesc (dGen d + 1))) (hIndex h)) h = u
  generalize (if dKind d = kCounter then [] else (localSlabs s h d).map (·.2)).foldl zeroSlab u = v
  exact ⟨_, rfl, fun g hg => by simpa using (List.mem_filter.1 hg).2⟩

/-- The slabs of an object that stands here alone move to frames of the residency (R287). -/
theorem resideHere_moves {s : State} {h : DWord} {d : BitVec 512} {res : Nat} {frames : List Nat} {slabs : List (SlabAt × Nat)}
    (hres : res = 0 ∨ res = 1 ∨ res = 3) (hk : dKind d ≠ kCounter) (hw : isWatched s h = true → res < 2)
    (hpull : ∀ p ∈ s.pe.pulls, hObj p.handle ≠ hObj h) (hpeer : peerSlabs s h d = []) (h15 : dSaxis d = 15) (h4 : dRes d ≠ 4)
    (hslabs : slabs = (localSlabs s h d).filter (fun x => !suitsRes res x.2)) (hlen : slabs.length ≤ frames.length)
    (hsuit : framesSuit s (dOwner d) res (frames.take slabs.length) = true) :
    resideHere s h d res frames =
      (.moved, setRes (flushAll ((slabs.zip frames).foldl (fun s x => moveSlab s (dOwner d) x.1 x.2) (shootObject s h))) h d res) := by
  subst hslabs
  have h5 : (res == 5) = false := beq_eq_false_iff_ne.2 (by omega)
  have hgood : ((dKind d == kCounter) != (res == 5) || (isWatched s h && dKind d != kCounter && decide (2 ≤ res))) = false := by
    cases hwatched : isWatched s h with
    | false => simp [hk, h5]
    | true => simp [hk, h5, hw hwatched]
  have hpulls : s.pe.pulls.any (fun p => hObj p.handle == hObj h) = false := List.any_eq_false.2 fun p hp => by simpa using hpull p hp
  have h4' : (res == 4) = false := beq_eq_false_iff_ne.2 (by omega)
  have h2 : (res == 2) = false := beq_eq_false_iff_ne.2 (by omega)
  rw [resideHere, hgood]
  simp only [h5, h4', h2, Bool.false_eq_true, if_false, moveHere, hpulls, hpeer, List.isEmpty_nil, Bool.not_true,
    Nat.not_lt.2 hlen, hsuit, otherHolders_none h15 h4, List.foldl_nil]

/-! ## COLLECTIVE (R366) -/

theorem endCollective_here {g : SvcRing} {h v x : DWord} {s t : State} (hh : hHome h = s.pl.pkg.toNat)
    (ht : publishHere s h 0 (· + 1) = .ok (v, x, t)) : endCollective g h s = .status svOK none t := by
  rw [endCollective, if_neg (by simp [hh]), ht]

/-- The checks of a collective's arguments pass. -/
theorem collective_checked {s w u : State} {r : SvcRing} {kind h h' : Nat} {ds d : BitVec 512} {st st' : DWord}
    {k : BitVec 512 → BitVec 512 → State → Served} (hkind : kind ≤ 3) (hsrc : resolve s (lolen s r.fn) (BitVec.ofNat 64 h) 0 = (.ok ds st, w))
    (hdst : resolve w (lolen w r.fn) (BitVec.ofNat 64 h') 0 = (.ok d st', u)) (hread : canRead ds (fnWorld u r.fn) = true)
    (hwrite : canWrite d (fnWorld u r.fn) = true) (hks : dKind ds ≠ kCounter) (hkd : dKind d ≠ kCounter) (hcode : dKind d ≠ kCode)
    (hfmt : dFmt ds = dFmt d) :
    withObject r h s (fun ds s => withObject r h' s (fun d s => needRight (canRead ds (fnWorld s r.fn) && canWrite d (fnWorld s r.fn)) s
      (needGood (decide (kind ≤ 3) && dKind ds != kCounter && dKind d != kCounter && dKind d != kCode && dFmt ds == dFmt d) s (k ds d s))))
      = k ds d u := by
  have hright : (canRead ds (fnWorld u r.fn) && canWrite d (fnWorld u r.fn)) = true := by rw [hread, hwrite]; rfl
  have hgood : (decide (kind ≤ 3) && dKind ds != kCounter && dKind d != kCounter && dKind d != kCode && dFmt ds == dFmt d) = true := by
    simp [hkind, hks, hkd, hcode, hfmt]
  rw [withObject_ok hsrc, withObject_ok hdst, needRight_ok hright, needGood_ok hgood]

section

variable {s w u : State} {q : SvcReq} {parts : List (List Byte)} {r : SvcRing} {args : List Nat} {hs hd : DWord} {ds d : BitVec 512} {st st' : DWord}
  (hp : Pending s q 5 r args) (hrep : r.reply = none) (hkind : args.getD 0 0 ≤ 3) (hhs : hs = BitVec.ofNat 64 (args.getD 1 0))
  (hhd : hd = BitVec.ofNat 64 (args.getD 2 0)) (hsrc : resolve s (lolen s r.fn) hs 0 = (.ok ds st, w))
  (hdst : resolve w (lolen w r.fn) hd 0 = (.ok d st', u)) (hread : canRead ds (fnWorld u r.fn) = true)
  (hwrite : canWrite d (fnWorld u r.fn) = true) (hks : dKind ds ≠ kCounter) (hkd : dKind d ≠ kCounter) (hcode : dKind d ≠ kCode)
  (hfmt : dFmt ds = dFmt d)

include hp hrep hkind hhs hhd hsrc hdst hread hwrite hks hkd hcode hfmt

/-- This package's part is staged and reported. -/
theorem collective_stages {bs : List Byte} {x : Round} {y : State}
    (hnew : u.pe.colls.find? (fun c => c.fn == r.fn && c.host == r.host && c.seq == r.served) = none)
    (hpart : ownPart u (lolen u r.fn) hs ds (itemsOf ds (parts.headD [])) = some bs) (hx : x = ⟨(groupOf u hd).epoch, (groupOf u hd).next⟩)
    (hy : y = updGroup u hd (fun g => { g with next := g.next + 1 })) :
    exec (.collective q parts) s = .next (reportDone { y with pe := { y.pe with
      colls := y.pe.colls ++ [⟨r.fn, r.host, r.served, hd, x, (groupOf u hd).active, bs, false⟩] } } hd x) := by
  subst hhs hhd hx hy
  refine exec_of_wait hp (by decide) (by decide) (exec_collective ..) ?_
  rw [hrep]
  refine (collective_checked hkind hsrc hdst hread hwrite hks hkd hcode hfmt).trans ?_
  dsimp only
  rw [hnew]
  dsimp only
  rw [hpart]

section

variable {c : Coll} (hfind : u.pe.colls.find? (fun c => c.fn == r.fn && c.host == r.host && c.seq == r.served) = some c)

include hfind

/-- A staged part waits for the commit while the epoch is the same. -/
theorem collective_waits (hc : committed u c = false) (he : c.round.epoch = (groupOf u hd).epoch) :
    exec (.collective q parts) s = .next u := by
  subst hhs hhd
  refine exec_of_wait hp (by decide) (by decide) (exec_collective ..) ?_
  rw [hrep]
  refine (collective_checked hkind hsrc hdst hread hwrite hks hkd hcode hfmt).trans ?_
  dsimp only
  rw [hfind]
  dsimp only
  rw [hc, if_pos Bool.not_false, if_pos (beq_iff_eq.2 he)]

section

variable {v : State} (hc : committed u c = false) (he : c.round.epoch ≠ (groupOf u hd).epoch)
  (hv : v = if c.asked = true then u else askOutcome { u with pe := { u.pe with
    colls := u.pe.colls.map (fun x => if x.fn == r.fn && x.host == r.host && x.seq == r.served then { x with asked := true } else x) } } hd c.round)

include hc he hv

/-- Behind a change of the epoch the outcome is asked for, and the collective aborts where it is none. -/
theorem collective_aborts (ha : (groupOf v hd).aborted = some c.round) : Finished s q r (.collective q parts) { v with pe := { v.pe with
    colls := v.pe.colls.filter (fun c => !(c.fn == r.fn && c.host == r.host && c.seq == r.served)) } } svABORTED none := by
  subst hhs hhd
  refine finished_of_status hp (by decide) (by decide) (exec_collective ..) ?_
  rw [hrep]
  refine (collective_checked hkind hsrc hdst hread hwrite hks hkd hcode hfmt).trans ?_
  dsimp only
  rw [hfind]
  dsimp only
  rw [hc, if_pos Bool.not_false, if_neg (mt beq_iff_eq.1 he), ← hv, if_pos (beq_iff_eq.2 ha)]

theorem collective_asks (ha : (groupOf v hd).aborted ≠ some c.round) : exec (.collective q parts) s = .next v := by
  subst hhs hhd
  refine exec_of_wait hp (by decide) (by decide) (exec_collective ..) ?_
  rw [hrep]
  refine (collective_checked hkind hsrc hdst hread hwrite hks hkd hcode hfmt).trans ?_
  dsimp only
  rw [hfind]
  dsimp only
  rw [hc, if_pos Bool.not_false, if_neg (mt beq_iff_eq.1 he), ← hv, if_neg (mt beq_iff_eq.1 ha)]

end

/-- A committed collective writes the destination and publishes it. -/
theorem collective_commits {rest s₁ s₂ t : State} {n : Nat} {v x : DWord} (hc : committed u c = true)
    (hrest : rest = { u with pe := { u.pe with colls := u.pe.colls.filter (fun c => !(c.fn == r.fn && c.host == r.host && c.seq == r.served)) } })
    (hlen : parts.length = c.members.length) (hown : u.pl.pkg ∈ c.members → parts.getD (c.members.idxOf u.pl.pkg) [] = c.staging)
    (hn : freshNat rest = (n, s₁)) (hw : writeElems s₁ (lolen s₁ r.fn) hd d (collectiveElems n (args.getD 0 0) d parts) = some s₂)
    (hh : hHome hd = s₂.pl.pkg.toNat) (ht : publishHere s₂ hd 0 (· + 1) = .ok (v, x, t)) : Finished s q r (.collective q parts) t svOK none := by
  subst hhs hhd hrest
  have hmine : (parts.length != c.members.length
      || (c.members.contains u.pl.pkg && parts.getD (c.members.idxOf u.pl.pkg) [] != c.staging)) = false := by
    by_cases hm : u.pl.pkg ∈ c.members
    · rw [hown hm]
      simp [hlen]
    · simp [hlen, hm]
  refine finished_of_status hp (by decide) (by decide) (exec_collective ..) ?_
  rw [hrep]
  refine (collective_checked hkind hsrc hdst hread hwrite hks hkd hcode hfmt).trans ?_
  dsimp only
  rw [hfind]
  dsimp only
  rw [hc, if_neg (by decide : ¬((!true) = true)), hmine, if_neg Bool.false_ne_true, hn]
  dsimp only
  rw [hw]
  exact endCollective_here hh ht

end

end

/-! ## EVENT_BIND, STREAM_BIND and FLASH_WRITE (R356, R362, R373) -/

section

variable {s u : State} {q : SvcReq} {r : SvcRing} {args : List Nat}

theorem eventBind_binds {rest binds : List (BitVec 6 × Byte × Nat)} (hp : Pending s q 6 r args) (hq : args.getD 0 0 < 256)
    (hv : args.getD 1 0 < 16 ∨ args.getD 1 0 = 0xFFFF)
    (hrest : rest = s.ho.eventBinds.filter (fun b => !(b.1 == r.fn && b.2.1.toNat == args.getD 0 0)))
    (hbinds : binds = if args.getD 1 0 = 0xFFFF then rest else (r.fn, BitVec.ofNat 8 (args.getD 0 0), args.getD 1 0) :: rest) :
    Finished s q r (.eventBind q) { s with ho := { s.ho with eventBinds := binds } } svOK none := by
  have hgood : (decide (args.getD 0 0 < 256) && (decide (args.getD 1 0 < 16) || args.getD 1 0 == 0xFFFF)) = true := by
    rw [decide_eq_true hq]
    rcases hv with h | h
    · rw [decide_eq_true h]; rfl
    · rw [h]; rfl
  subst hrest hbinds
  refine finished_of_status hp (by decide) (by decide) (exec_eventBind ..) ?_
  refine (needGood_ok hgood).trans ?_
  simp only [beq_iff_eq]

/-- A port and a filter in the argument of STREAM_BIND. -/
theorem bits_portFilter {port filter : Nat} (hp : port < 24) (hf : filter < 16) :
    bits (port + filter * 2 ^ 8) 0 5 = port ∧ bits (port + filter * 2 ^ 8) 8 4 = filter := by
  unfold bits
  omega

theorem streamBind_binds {w : State} {d dc : BitVec 512} {st st' : DWord} {k port filter : Nat} {p : ScalePort} {f g : Filter}
    (hp : Pending s q 7 r args) (hlg : args.getD 2 0 ≤ 7) (hport : port < 24) (hfilter : filter < 16)
    (ha : args.getD 3 0 = port + filter * 2 ^ 8) (hs : resolve s (lolen s r.fn) (BitVec.ofNat 64 (args.getD 0 0)) 0 = (.ok d st, w))
    (hc : resolve w (lolen w r.fn) (BitVec.ofNat 64 (args.getD 1 0)) 0 = (.ok dc st', u)) (hcan : canWrite d (fnWorld u r.fn) = true)
    (hcan' : canWrite dc (fnWorld u r.fn) = true)
    (hok : streamOk u (BitVec.ofNat 64 (args.getD 0 0)) d dc (2 ^ (7 + args.getD 2 0)) = true)
    (hk : (List.range 64).find? (fun k => u.pe.streams.all (fun x => x.k != k)) = some k) (hpt : u.pe.ports[port]? = some p)
    (hf : p.filters[filter]? = some f) (hg : g = ⟨f.mac, BitVec.ofNat 64 (setBits f.ctl.toNat 0 6 k)⟩) :
    Finished s q r (.streamBind q) { u with pe := { u.pe with
      streams := u.pe.streams ++ [⟨k, BitVec.ofNat 64 (args.getD 0 0), BitVec.ofNat 64 (args.getD 1 0), 2 ^ (7 + args.getD 2 0), port, filter⟩],
      ports := u.pe.ports.setIfInBounds port { p with filters := p.filters.setIfInBounds filter g } } } svOK none := by
  obtain ⟨hb, hb'⟩ := bits_portFilter hport hfilter
  have hgood : (decide (args.getD 2 0 ≤ 7) && decide (bits (args.getD 3 0) 0 5 < 24)
      && args.getD 3 0 == bits (args.getD 3 0) 0 5 + bits (args.getD 3 0) 8 4 * 2 ^ 8) = true := by
    rw [ha, hb, hb', decide_eq_true hlg, decide_eq_true hport, beq_self_eq_true]
    rfl
  have hright : (canWrite d (fnWorld u r.fn) && canWrite dc (fnWorld u r.fn)) = true := by rw [hcan, hcan']; rfl
  refine finished_of_status hp (by decide) (by decide) (exec_streamBind ..) ?_
  refine (needGood_ok hgood).trans ((withObject_ok hs).trans ((withObject_ok hc).trans ((needRight_ok hright).trans ((needGood_ok hok).trans ?_))))
  rw [ha, hb, hb', hk, hpt]
  dsimp only
  rw [hf, hg]
  rfl

theorem flashWrite_right (hh : r.host = true) (hpriv : r.privileged = true) : (r.host && r.privileged) = true := by rw [hh, hpriv]; rfl

section

variable (hp : Pending s q 8 r args)

include hp

theorem flashWrite_refused (h : r.host = false ∨ r.privileged = false) : Finished s q r (.flashWrite q) s svRIGHTS none := by
  have hright : (r.host && r.privileged) = false := by rcases h with h | h <;> simp [h]
  refine finished_of_status hp (by decide) (by decide) (exec_flashWrite ..) ?_
  exact if_neg (Bool.eq_false_iff.1 hright)

variable (hh : r.host = true) (hpriv : r.privileged = true)

include hh hpriv

section

variable {x : Flashing} (hx : s.pl.flashing = some x)

include hx

theorem flashWrite_ends (hfn : x.fn = r.fn) (hhost : x.host = r.host) :
    Finished s q r (.flashWrite q) { s with pl := { s.pl with flash := x.image, flashing := none } } svOK none := by
  refine finished_of_status hp (by decide) (by decide) (exec_flashWrite ..) ?_
  refine (needRight_ok (flashWrite_right hh hpriv)).trans ?_
  rw [hx]
  exact if_pos (by rw [hfn, hhost, beq_self_eq_true, beq_self_eq_true]; rfl)

theorem flashWrite_waits (hother : x.fn ≠ r.fn ∨ x.host ≠ r.host) : exec (.flashWrite q) s = .next s := by
  refine exec_of_wait hp (by decide) (by decide) (exec_flashWrite ..) ?_
  refine (needRight_ok (flashWrite_right hh hpriv)).trans ?_
  have hne : (x.fn == r.fn && x.host == r.host) = false := by rcases hother with h | h <;> simp [h]
  rw [hx]
  exact if_neg (Bool.eq_false_iff.1 hne)

end

variable {t : State} {h : DWord} {d : BitVec 512} {st : DWord} {n : Nat} {vs : List Nat} {bs : List Byte} (hidle : s.pl.flashing = none)
  (hhandle : h = BitVec.ofNat 64 (args.getD 0 0)) (hr : resolve s (lolen s r.fn) h 0 = (.ok d st, u)) (hcan : canRead d (fnWorld u r.fn) = true)
  (hn : n = min (payloadBytes d) imageLimit)
  (hread : readArg r h d ((blobFields 0 n).map (fun f => (0, f))) [] u = (.all vs, t)) (hbs : bs = blobBytes n vs)

include hidle hhandle hr hcan hn hread hbs

theorem flashWrite_erases (hok : imageOk bs = true) : exec (.flashWrite q) s = .next { t with
    pl := { t.pl with flash := [], flashing := some ⟨r.fn, r.host, bs.take (0xA0 + imageLen bs)⟩ } } := by
  subst hhandle hn hbs
  refine exec_of_wait hp (by decide) (by decide) (exec_flashWrite ..) ?_
  refine (needRight_ok (flashWrite_right hh hpriv)).trans ?_
  rw [hidle]
  exact (withObject_ok hr).trans ((needRight_ok hcan).trans ((withFields_all hread).trans (if_pos hok)))

theorem flashWrite_invalid (hok : imageOk bs = false) : Finished s q r (.flashWrite q) t svIMAGE none := by
  subst hhandle hn hbs
  refine finished_of_status hp (by decide) (by decide) (exec_flashWrite ..) ?_
  refine (needRight_ok (flashWrite_right hh hpriv)).trans ?_
  rw [hidle]
  exact (withObject_ok hr).trans ((needRight_ok hcan).trans ((withFields_all hread).trans (if_neg (Bool.eq_false_iff.1 hok))))

end

end

/-! ## The obligation -/

theorem readArg_got {s : State} {g : SvcRing} {h : DWord} {d : BitVec 512} {sh : Nat} {f : Field} {fs : List (Nat × Field)} {vs : List Nat} {v : Nat}
    (hg : g.got.find? (fun x => x.1 == ⟨h, sh, f⟩) = some (⟨h, sh, f⟩, v)) :
    readArg g h d ((sh, f) :: fs) vs s = readArg g h d fs (v :: vs) s := by
  rw [readArg, hg]

theorem readArg_here {s t : State} {g : SvcRing} {h : DWord} {d : BitVec 512} {sh : Nat} {f : Field} {fs : List (Nat × Field)} {vs : List Nat}
    {v : Nat} {st : DWord} (hg : g.got.find? (fun x => x.1 == ⟨h, sh, f⟩) = none)
    (hr : objReadFrom true s (lolen s g.fn) h d 0 sh [f] = (.ok [v] st, t)) :
    readArg g h d ((sh, f) :: fs) vs s = readArg g h d fs (v :: vs) t := by
  rw [readArg, hg]
  dsimp only
  rw [hr]
  rfl

/-- Settles O56: each service is the branch of its checks that pass. -/
theorem services : Obligations.Services := by
  unfold Obligations.Services
  refine ⟨?_, ?_, fun s g h d vs => rfl, fun s g h d sh f fs vs => ⟨fun v hg => readArg_got hg, fun v st t hg hr => readArg_here hg hr⟩,
    ?_, ?_, ?_, ?_, ?_, ?_, ?_, ?_, ?_, ?_, ?_⟩
  · exact fun s r status v k s₁ y s₂ n c s₃ d hk hw hp hd => finishRequest_eq hk hw hp hd
  · rintro s q index root frames r args di st _ u hp rfl hr hcan hk hf hn
    refine ⟨?_, fun p xs w m t hread hs => create_asks hp hr hcan hk hf hn hread hs⟩
    rintro ws w old d _ hread hold hd hfree hindex hok hkind h6 h4 h15 hmembers hdigest hspace rfl
    exact create_makes hp hr hcan hk hf hn hread hold hd hfree hindex hok hkind h6 h4 h15 hmembers hdigest hspace
  · rintro s q r args _ d st u hp hrep rfl hr hcan hhome
    exact destroy_ends hrep hr hcan hhome hp
  · rintro s h d _ h15 h4 hpeer rfl
    obtain ⟨pe, he, hgroups⟩ := destroyHere_alone h15 h4 hpeer
    exact ⟨_, he, foldl_zeroSlab_tb _ _, rfl, hgroups⟩
  · rintro s q frames r args _ d st t u hp hrep rfl hres hr hcan hhome ht
    exact reside_moves hrep hr hcan hhome hp hres ht
  · rintro s h d res frames slabs _ hres hk hw hpull hpeer h15 h4 hslabs hlen hsuit rfl
    exact resideHere_moves hres hk hw hpull hpeer h15 h4 hslabs hlen hsuit
  · rintro s q r args _ d st v x t u hp hrep rfl hr hk hcan hhome ht
    exact publishService_publishes hrep hr hcan hhome hp hk ht
  · intro s q parts r args hs hd ds st d st' w u hp hrep hkind hhs hhd hsrc hdst hread hwrite hks hkd hcode hfmt
    refine ⟨fun bs hnew hpart x y hx hy =>
      collective_stages hp hrep hkind hhs hhd hsrc hdst hread hwrite hks hkd hcode hfmt hnew hpart hx hy, fun c rest hfind hrest => ⟨?_, ?_, ?_⟩⟩
    · exact fun hc he => collective_waits hp hrep hkind hhs hhd hsrc hdst hread hwrite hks hkd hcode hfmt hfind hc he
    · exact fun v hc he hv => ⟨
        fun ha => collective_aborts hp hrep hkind hhs hhd hsrc hdst hread hwrite hks hkd hcode hfmt hfind hc he hv ha,
        fun ha => collective_asks hp hrep hkind hhs hhd hsrc hdst hread hwrite hks hkd hcode hfmt hfind hc he hv ha⟩
    · exact fun n s₁ s₂ v x t hc hlen hown hn hw hh ht =>
        collective_commits hp hrep hkind hhs hhd hsrc hdst hread hwrite hks hkd hcode hfmt hfind hc hrest hlen hown hn hw hh ht
  · exact fun s q r args rest binds hp hq hv hrest hbinds => eventBind_binds hp hq hv hrest hbinds
  · exact fun s q r args d st dc st' k port filter p f w u hp hlg hport ha hfilter hs hc hcan hcan' hok hk hpt hf g hg =>
      streamBind_binds hp hlg hport ha hfilter hs hc hcan hcan' hok hk hpt hf hg
  · exact fun s q r args h d st n vs t bs u hp hidle hh hpriv hhandle hr hcan hn hread hbs => ⟨
      fun hok => flashWrite_erases hp hh hpriv hidle hhandle hr hcan hn hread hbs hok,
      fun hok => flashWrite_invalid hp hh hpriv hidle hhandle hr hcan hn hread hbs hok⟩
  · exact fun s q r args x hp hx hh hpriv => ⟨flashWrite_ends hp hh hpriv hx, flashWrite_waits hp hh hpriv hx⟩
  · exact fun s q r args hp h => flashWrite_refused hp h

end Sys2Proof.Machine
end
